-- ==== Sys2Proof/Word.lean ====
section
/-!
DEFINITION. The words of the Zailith Z4 (spec 00 R2, R3) and their plainest arithmetic: widths, bit
fields of naturals and of words, sign extension. Memory is little-endian (R2).
-/
namespace Sys2Proof

/-- A dword (R3): the contents of an x register. -/
abbrev Word := BitVec 64

/-- One byte (R3). -/
abbrev Byte := BitVec 8

/-- Field `[lo + n - 1 : lo]` of a natural (R2's bit ranges). -/
def fld (t lo n : Nat) : Nat := t / 2 ^ lo % 2 ^ n

/-- Field `[lo + n - 1 : lo]` of a word, as a natural. -/
def bits {w : Nat} (x : BitVec w) (lo n : Nat) : Nat := fld x.toNat lo n

/-- Bit `i` of a word. -/
def bit {w : Nat} (x : BitVec w) (i : Nat) : Bool := x.getLsbD i

/-- A Boolean as one bit. -/
def b2n (b : Bool) : Nat := if b then 1 else 0

/-- The word that holds natural `n` modulo 2^64. -/
def wd64 (n : Nat) : Word := BitVec.ofNat 64 n

end Sys2Proof
end

