-- ==== Sys2Proof/Syntax.lean ====
section
/-!
DEFINITION. The instructions and the steps of the Zailith Z4 as syntax: one constructor of `Instr` per
row of spec/opcode_table.json. The first 195 rows are heads that a thread issues (spec 03 Table 3-9);
their operands are records of typed fields, so that a register number outside its class (R51) cannot be
written down. The other rows are steps of the module that no head issues (spec 95); their operands
name the message, lease, agent or place that the step is about.
-/
namespace Sys2Proof

/-! ### Field codes (spec 03 Tables 3-4 to 3-6) -/

/-- Scalar register x0 to x31 (Table 3-6). -/
abbrev Reg := Fin 32
/-- Vector register v0 to v15. -/
abbrev VR := Fin 16
/-- Predicate k0 to k11. -/
abbrev KR := Fin 12
/-- Predicate pair k0, k2, … k10, by half its number. -/
abbrev KP := Fin 6

/-- A guard (R46): k0 to k11, or always. -/
inductive Guard where
  | k (n : KR)
  | always
  deriving DecidableEq, Repr

/-- wd (R48). -/
inductive Width where
  | b | h | w | d
  deriving DecidableEq, Repr

/-- sg (R48): sign or zero extension. -/
inductive Sign where
  | sx | zx
  deriving DecidableEq, Repr

/-- wd and sg together, in the scalar floating-point majors (R48). -/
inductive FType where
  | f16 | bf16 | f32 | f64
  deriving DecidableEq, Repr

/-- sp (R48): the address space. -/
inductive Space where
  | glob | nich | gall
  deriving DecidableEq, Repr

/-- sc (R48, 13 Table 13-2): the scope. -/
inductive Scope where
  | slot | core | clus | die | mod | peer | domn | sys
  deriving DecidableEq, Repr

/-- od (R48): the order. -/
inductive Order where
  | rlx | acq | rel | acr
  deriving DecidableEq, Repr

/-- rs, and md of majors 0x0A and 0x0B (R48): the rounding source. -/
inductive Rs where
  | fm | rne | rtz | rup | rdn | rna | sr
  deriving DecidableEq, Repr

/-- Format tags (spec 09 Table 9-4). `none` is a tag only, never an element format (R174). -/
inductive Fmt where
  | none | s8 | s16 | s32 | s64 | n8 | n16 | n32 | n64 | f64 | f32 | f16 | bf16
  | e4m3 | e5m2 | e3m2 | e2m3 | e8m0 | sv4
  deriving DecidableEq, Repr

/-- Compare conditions (R48). -/
inductive Cond where
  | eq | ne | lt | le | gt | ge
  deriving DecidableEq, Repr

/-- FCMP's conditions (R72). -/
inductive FCond where
  | eq | ne | lt | le | gt | ge | uno | ord
  deriving DecidableEq, Repr

/-- FCVT's type codes (R73). -/
inductive CvtTy where
  | f16 | bf16 | f32 | f64 | s32 | n32 | s64 | n64
  deriving DecidableEq, Repr

/-- The operations of ATOM (spec 03 Table 3-9). -/
inductive AtomFn where
  | add | and | or | xor | min | max | minu | maxu | xchg | cas | fadd
  deriving DecidableEq, Repr

/-- RDID's selectors (spec 04 Table 4-8). -/
inductive IdSel where
  | slot | ccl | core | clus | cidx | csize | bidx | bsize | px | py | pz | modl | tent
  deriving DecidableEq, Repr

/-- A FENCE's order (R281). -/
inductive FenceOd where
  | acq | rel | acr
  deriving DecidableEq, Repr

/-- System registers (spec 17 Table 17-12). -/
inductive SysReg where
  | status | cause | epc | eval | handler | fmode | fflags | slotcfg | jhead | anchor | lstat
  | srseed | srctr | view | cflags | hkey | ctxtb | tentb | pstop | pgo | rootcap | gstat (n : Fin 32)
  deriving DecidableEq, Repr

/-- TLBI's operations (spec 17 Table 17-5). -/
inductive TlbiFn where
  | va | ctx | tent | all
  deriving DecidableEq, Repr

/-- A scalar operand that format E replaces by imm32 (R49). -/
inductive RegImm where
  | reg (r : Reg)
  | imm (n : BitVec 32)
  deriving DecidableEq, Repr

/-- A duration operand: a register, or imm32[15:0] of format E (R130, R133). -/
inductive Dur where
  | reg (r : Reg)
  | imm (n : BitVec 16)
  deriving DecidableEq, Repr

/-- A vector operand that format E replaces by imm32 (R209, R210). -/
inductive VRegImm where
  | reg (r : VR)
  | imm (n : BitVec 32)
  deriving DecidableEq, Repr

/-- The second operand of MSTAT (spec 11 Table 11-3). -/
inductive MstatSel where
  | layout (n : Fin 8)
  | accSet (n : Fin 8)
  | arr
  deriving DecidableEq, Repr

/-! ### Operand records -/

/-- Operands: a guard only. -/
structure GOp where
  g : Guard
  deriving DecidableEq, Repr

/-- Operands: one destination. -/
structure GD where
  g : Guard
  d : Reg
  deriving DecidableEq, Repr

/-- Operands: one source. -/
structure GA where
  g : Guard
  a : Reg
  deriving DecidableEq, Repr

/-- Operands: one destination and one source. -/
structure RR where
  g : Guard
  d : Reg
  a : Reg
  deriving DecidableEq, Repr

/-- Operands: two sources. -/
structure AB where
  g : Guard
  a : Reg
  b : Reg
  deriving DecidableEq, Repr

/-- Operands: one destination and two 64-bit sources. -/
structure RRRx where
  g : Guard
  d : Reg
  a : Reg
  b : Reg
  deriving DecidableEq, Repr

/-- Operands: one destination and three 64-bit sources. -/
structure RRRR where
  g : Guard
  d : Reg
  a : Reg
  b : Reg
  c : Reg
  deriving DecidableEq, Repr

/-- Operands: one destination, one source, and a register or imm32. -/
structure RRI where
  g : Guard
  d : Reg
  a : Reg
  b : RegImm
  deriving DecidableEq, Repr

/-- Operands: integer register form at a width (R65). -/
structure RRR where
  g : Guard
  d : Reg
  a : Reg
  b : Reg
  w : Width
  deriving DecidableEq, Repr

/-- Operands: LEA (R65). -/
structure LeaOp where
  g : Guard
  d : Reg
  a : Reg
  b : Reg
  n : Fin 8
  deriving DecidableEq, Repr

/-- Operands: SEL (R65). -/
structure SelOp where
  g : Guard
  d : Reg
  a : Reg
  b : Reg
  c : KR
  deriving DecidableEq, Repr

/-- Operands: CLZ, CTZ, POPC (R65). -/
structure RRw where
  g : Guard
  d : Reg
  a : Reg
  w : Width
  deriving DecidableEq, Repr

/-- Operands: SEXT (R65). -/
structure SextOp where
  g : Guard
  d : Reg
  a : Reg
  w : Width
  s : Sign
  deriving DecidableEq, Repr

/-- Operands: EXT (R67): position and length. -/
structure ExtOp where
  g : Guard
  d : Reg
  a : Reg
  w : Width
  s : Sign
  p : Fin 64
  n : Fin 65
  deriving DecidableEq, Repr

/-- Operands: INS (R67): position and length. -/
structure InsOp where
  g : Guard
  d : Reg
  a : Reg
  w : Width
  p : Fin 64
  n : Fin 65
  deriving DecidableEq, Repr

/-- Operands: ADDI (R67). -/
structure AddiOp where
  g : Guard
  d : Reg
  a : Reg
  w : Width
  imm : BitVec 16
  deriving DecidableEq, Repr

/-- Operands: an immediate shift or rotate (R67). -/
structure ShiftIOp where
  g : Guard
  d : Reg
  a : Reg
  w : Width
  n : Fin 64
  deriving DecidableEq, Repr

/-- Operands: LI (R67): `imm` is the immediate extended to 32 bits by `s`. -/
structure LiOp where
  g : Guard
  d : Reg
  s : Sign
  imm : BitVec 32
  deriving DecidableEq, Repr

/-- Operands: LIH (R67). -/
structure LihOp where
  g : Guard
  d : Reg
  imm : BitVec 32
  deriving DecidableEq, Repr

/-- Operands: CMP (R68). -/
structure CmpOp where
  g : Guard
  kd : KP
  a : Reg
  b : Reg
  w : Width
  s : Sign
  cc : Cond
  deriving DecidableEq, Repr

/-- Operands: CMPI (R68). -/
structure CmpiOp where
  g : Guard
  kd : KP
  a : Reg
  w : Width
  s : Sign
  cc : Cond
  imm : BitVec 16
  deriving DecidableEq, Repr

/-- Operands: two-source predicate form (R69). -/
structure PPP where
  g : Guard
  d : KR
  a : KR
  b : KR
  deriving DecidableEq, Repr

/-- Operands: one-source predicate form (R69). -/
structure PP where
  g : Guard
  d : KR
  a : KR
  deriving DecidableEq, Repr

/-- Operands: two-source floating-point form (R71). -/
structure FRRR where
  g : Guard
  d : Reg
  a : Reg
  b : Reg
  t : FType
  rs : Rs
  deriving DecidableEq, Repr

/-- Operands: FMA (R71). -/
structure FmaOp where
  g : Guard
  d : Reg
  a : Reg
  b : Reg
  c : Reg
  t : FType
  rs : Rs
  deriving DecidableEq, Repr

/-- Operands: FSQRT (R71). -/
structure FRR where
  g : Guard
  d : Reg
  a : Reg
  t : FType
  rs : Rs
  deriving DecidableEq, Repr

/-- Operands: FMIN, FMAX (R71). -/
structure FMinOp where
  g : Guard
  d : Reg
  a : Reg
  b : Reg
  t : FType
  deriving DecidableEq, Repr

/-- Operands: FCMP (R72). -/
structure FCmpOp where
  g : Guard
  kd : KP
  a : Reg
  b : Reg
  t : FType
  cc : FCond
  deriving DecidableEq, Repr

/-- Operands: FCVT (R73): destination and source type. -/
structure FCvtOp where
  g : Guard
  d : Reg
  a : Reg
  dt : CvtTy
  st : CvtTy
  rs : Rs
  deriving DecidableEq, Repr

/-- Operands: FCLASS (R74). -/
structure FClassOp where
  g : Guard
  d : Reg
  a : Reg
  t : FType
  deriving DecidableEq, Repr

/-- Operands: LD (R80). -/
structure LdOp where
  g : Guard
  d : Reg
  a : Reg
  w : Width
  s : Sign
  sp : Space
  sc : Scope
  off : BitVec 32
  deriving DecidableEq, Repr

/-- Operands: ST (R81): `d` names the data register. -/
structure StOp where
  g : Guard
  d : Reg
  a : Reg
  w : Width
  sp : Space
  sc : Scope
  off : BitVec 32
  deriving DecidableEq, Repr

/-- Operands: LDAQ (R279). -/
structure LdaqOp where
  g : Guard
  d : Reg
  a : Reg
  w : Width
  s : Sign
  sc : Scope
  off : BitVec 32
  deriving DecidableEq, Repr

/-- Operands: STRL (R279). -/
structure StrlOp where
  g : Guard
  d : Reg
  a : Reg
  w : Width
  sc : Scope
  off : BitVec 32
  deriving DecidableEq, Repr

/-- Operands: VLD, VLDS, VST (R283); `ord` is `.acq` of a load, `.rel` of a store. -/
structure VMemOp where
  g : Guard
  v : VR
  a : Reg
  b : Reg
  ef : Fmt
  sp : Space
  sc : Scope
  ord : Bool
  off : BitVec 32
  deriving DecidableEq, Repr

/-- Operands: VGTH, VSCT (R283, R286). -/
structure VIdxOp where
  g : Guard
  v : VR
  a : Reg
  b : VR
  ef : Fmt
  sp : Space
  sc : Scope
  ord : Bool
  off : BitVec 32
  deriving DecidableEq, Repr

/-- Operands: ATOM (R289); `dw` is the width `.d`. -/
structure AtomInstr where
  g : Guard
  d : Reg
  a : Reg
  b : Reg
  c : Reg
  op : AtomFn
  dw : Bool
  od : Order
  sc : Scope
  off : BitVec 32
  deriving DecidableEq, Repr

/-- Operands: ATOMX (R293). -/
structure AtomxOp where
  g : Guard
  a : Reg
  b : Reg
  rel : Bool
  sc : Scope
  deriving DecidableEq, Repr

/-- Operands: RDID (R90). -/
structure RdidOp where
  g : Guard
  d : Reg
  sel : IdSel
  deriving DecidableEq, Repr

/-- Operands: QSTAT (R91). -/
structure QstatOp where
  g : Guard
  d : Reg
  q : Fin 4
  deriving DecidableEq, Repr

/-- Operands: WAIT (R86): the four bounds, 15 meaning any. -/
structure WaitOp where
  g : Guard
  l : BitVec 4
  s : BitVec 4
  c : BitVec 4
  m : BitVec 4
  deriving DecidableEq, Repr

/-- Operands: FENCE in format Z (R281). -/
structure FenceOp where
  sc : Scope
  od : FenceOd
  deriving DecidableEq, Repr

/-- Operands: FENCE in format H (R281). -/
structure FenceGOp where
  g : Guard
  sc : Scope
  od : FenceOd
  deriving DecidableEq, Repr

/-- Operands: PREF (R282); `grot` is the level. -/
structure PrefOp where
  g : Guard
  grot : Bool
  a : Reg
  off : BitVec 32
  deriving DecidableEq, Repr

/-- Operands: BR, CALL (R55): line delta and head index. -/
structure RelOp where
  g : Guard
  delta : BitVec 27
  idx : Fin 32
  deriving DecidableEq, Repr

/-- Operands: LOOP (R77). -/
structure LoopOp where
  g : Guard
  a : Reg
  delta : BitVec 27
  idx : Fin 32
  deriving DecidableEq, Repr

/-- Operands: JMP (R77). -/
structure JmpOp where
  g : Guard
  d : Reg
  a : Reg
  imm : BitVec 16
  deriving DecidableEq, Repr

/-- Operands: a handle or configuration and a duration (R130). -/
structure DurOp where
  g : Guard
  d : Reg
  a : Reg
  dur : Dur
  deriving DecidableEq, Repr

/-- Operands: LINFO (R138); `rec` is sel 1. -/
structure LinfoOp where
  g : Guard
  d : Reg
  a : Reg
  rec1 : Bool
  deriving DecidableEq, Repr

/-- Operands: LOCK (R139). -/
structure LockOp where
  g : Guard
  d : Reg
  a : Reg
  b : Reg
  c : Reg
  sc : Scope
  deriving DecidableEq, Repr

/-- Operands: BARV (R144). -/
structure BarvOp where
  g : Guard
  d : Reg
  a : Reg
  sc : Scope
  deriving DecidableEq, Repr

/-- Operands: BADD (R144). -/
structure BaddOp where
  g : Guard
  d : Reg
  a : Reg
  n : RegImm
  sc : Scope
  deriving DecidableEq, Repr

/-- Operands: BWAIT (R145). -/
structure BwaitOp where
  g : Guard
  d : Reg
  a : Reg
  b : Reg
  sc : Scope
  deriving DecidableEq, Repr

/-- Operands: PSEND (R147). -/
structure PsendOp where
  g : Guard
  a : Reg
  b : Reg
  c : RegImm
  deriving DecidableEq, Repr

/-- Operands: JRNL (R151). -/
structure JrnlOp where
  g : Guard
  d : Reg
  a : Reg
  w : Fin 4
  deriving DecidableEq, Repr

/-- Operands: BST of a dword (R247, R294). -/
structure BstOp where
  g : Guard
  a : Reg
  b : Reg
  c : Reg
  off : BitVec 32
  deriving DecidableEq, Repr

/-- Operands: BST of 16 to 128 bytes (R295). -/
structure BstVOp where
  g : Guard
  a : Reg
  b : Reg
  v : VR
  size : Width
  off : BitVec 32
  deriving DecidableEq, Repr

/-- Operands: BLD (R250, R294). -/
structure BldOp where
  g : Guard
  d : Reg
  a : Reg
  kp : KP
  off : BitVec 32
  deriving DecidableEq, Repr

/-- Operands: TRAP (R351). -/
structure TrapOp where
  g : Guard
  a : Reg
  n : BitVec 16
  deriving DecidableEq, Repr

/-- Operands: SRD (R350). -/
structure SrdOp where
  g : Guard
  d : Reg
  reg : SysReg
  deriving DecidableEq, Repr

/-- Operands: SWR (R350). -/
structure SwrOp where
  g : Guard
  reg : SysReg
  a : Reg
  deriving DecidableEq, Repr

/-- Operands: TLBI (R338). -/
structure TlbiOp where
  g : Guard
  d : Reg
  a : Reg
  op : TlbiFn
  n : BitVec 16
  deriving DecidableEq, Repr

/-- Operands: CTXSV, CTXLD (R351). -/
structure CtxOp where
  g : Guard
  d : Reg
  a : Reg
  n : Fin 16
  deriving DecidableEq, Repr

/-- Operands: two-source rounding vector form (R199, R203, R204). -/
structure VVVr where
  g : Guard
  d : VR
  a : VR
  b : VR
  ef : Fmt
  rs : Rs
  deriving DecidableEq, Repr

/-- Operands: two-source vector form. -/
structure VVV where
  g : Guard
  d : VR
  a : VR
  b : VR
  ef : Fmt
  deriving DecidableEq, Repr

/-- Operands: one-source vector form. -/
structure VV where
  g : Guard
  d : VR
  a : VR
  ef : Fmt
  deriving DecidableEq, Repr

/-- Operands: one-source rounding vector form. -/
structure VVr where
  g : Guard
  d : VR
  a : VR
  ef : Fmt
  rs : Rs
  deriving DecidableEq, Repr

/-- Operands: VFMA, VFMS (R199). -/
structure VFmaOp where
  g : Guard
  d : VR
  a : VR
  b : VR
  c : VR
  ef : Fmt
  rs : Rs
  deriving DecidableEq, Repr

/-- Operands: VCVT (R200). -/
structure VCvtOp where
  g : Guard
  d : VR
  a : VR
  dt : Fmt
  st : Fmt
  sat : Bool
  rs : Rs
  deriving DecidableEq, Repr

/-- Operands: VQNT (R201); `ty` is the sv4 type. -/
structure VQntOp where
  g : Guard
  d : VR
  a : VR
  dt : Fmt
  st : Fmt
  ty : Fin 4
  rs : Rs
  deriving DecidableEq, Repr

/-- Operands: VDQNT (R202). -/
structure VDqntOp where
  g : Guard
  d : VR
  a : VR
  b : VR
  dt : Fmt
  st : Fmt
  rs : Rs
  deriving DecidableEq, Repr

/-- Operands: VREDM (R205). -/
structure VRedmOp where
  g : Guard
  d : VR
  a : VR
  ef : Fmt
  min : Bool
  deriving DecidableEq, Repr

/-- Operands: VCMP (R207). -/
structure VCmpOp where
  g : Guard
  kd : KP
  a : VR
  b : VR
  ef : Fmt
  cc : FCond
  deriving DecidableEq, Repr

/-- Operands: VSEL (R208). -/
structure VSelOp where
  g : Guard
  d : VR
  a : VR
  b : VR
  k : KR
  ef : Fmt
  deriving DecidableEq, Repr

/-- Operands: logic and shifts with a vector or immediate operand (R209, R210). -/
structure VLogOp where
  g : Guard
  d : VR
  a : VR
  b : VRegImm
  ef : Fmt
  deriving DecidableEq, Repr

/-- Operands: VIOTA (R211); a step is given in format E. -/
structure ViotaOp where
  g : Guard
  d : VR
  a : Reg
  ef : Fmt
  step : Option (BitVec 32)
  deriving DecidableEq, Repr

/-- Operands: VBCAST (R211). -/
structure VbcastOp where
  g : Guard
  d : VR
  a : RegImm
  ef : Fmt
  deriving DecidableEq, Repr

/-- Operands: VSLIDE (R211). -/
structure VslideOp where
  g : Guard
  d : VR
  a : VR
  b : RegImm
  ef : Fmt
  deriving DecidableEq, Repr

/-- Operands: VZIP, VUNZIP (R211). -/
structure VzipOp where
  g : Guard
  d : VR
  a : VR
  b : VR
  h : Bool
  ef : Fmt
  deriving DecidableEq, Repr

/-- Operands: VMOVS.get (R212). -/
structure VgetOp where
  g : Guard
  d : Reg
  a : VR
  j : RegImm
  ef : Fmt
  deriving DecidableEq, Repr

/-- Operands: VMOVS.put (R212). -/
structure VputOp where
  g : Guard
  d : VR
  a : Reg
  j : RegImm
  ef : Fmt
  deriving DecidableEq, Repr

/-- Operands: VTAG (R213); its guard is always; `scl` takes scales from `b`. -/
structure VtagOp where
  d : VR
  a : VR
  b : VR
  scl : Bool
  ef : Fmt
  deriving DecidableEq, Repr

/-- Operands: VRAND (R215). -/
structure VrandOp where
  g : Guard
  d : VR
  ef : Fmt
  deriving DecidableEq, Repr

/-- Operands: MLEASE (R220). -/
structure MleaseOp where
  g : Guard
  d : Reg
  dur : Dur
  deriving DecidableEq, Repr

/-- Operands: MLAY (R225). -/
structure MlayOp where
  g : Guard
  l : Fin 8
  a : Reg
  deriving DecidableEq, Repr

/-- Operands: MZERO, MMA (R227, R228). -/
structure SetOp where
  g : Guard
  n : Fin 8
  deriving DecidableEq, Repr

/-- Operands: MDRAIN (R229). -/
structure MdrainOp where
  g : Guard
  n : Fin 8
  a : Reg
  b : Reg
  deriving DecidableEq, Repr

/-- Operands: MSTAT (R230). -/
structure MstatOp where
  g : Guard
  d : Reg
  sel : MstatSel
  deriving DecidableEq, Repr

/-- Operands: CXFER (R234): destination, source, length, spaces, engine. -/
structure CxferOp where
  g : Guard
  a : Reg
  b : Reg
  n : RegImm
  dst : Space
  src : Space
  eng : Fin 2
  deriving DecidableEq, Repr

/-- Operands: CXFER.pack (R358). -/
structure PackOp where
  g : Guard
  a : Reg
  b : Reg
  c : Reg
  eng : Fin 2
  deriving DecidableEq, Repr

/-- Operands: CXFER.fpack (R358). -/
structure FpackOp where
  g : Guard
  a : Reg
  b : Reg
  n : RegImm
  eng : Fin 2
  deriving DecidableEq, Repr

/-- Operands: CFEED (R237). -/
structure CfeedOp where
  g : Guard
  w : RegImm
  deriving DecidableEq, Repr

/-- Operands: CPOP, CSTAT (R239, R240). -/
structure EngOp where
  g : Guard
  d : Reg
  e : Fin 2
  deriving DecidableEq, Repr

/-! ### Operands of the module's own steps -/

/-- An agent: an entry of an agent map names one (spec 06 Table 6-3). `cls`: 0 grotto slice, 1 matrix
array, 2 lantern, 3 command unit, 4 coherence engine, 5 frontier unit. -/
structure AgentId where
  mod : Nat
  die : Nat
  cls : Nat
  unit : Nat
  deriving DecidableEq, Repr

/-- One access of the host to device memory (R361): the host offset, and the bytes of a write. -/
structure HostAccessOp where
  off : Nat
  write : Bool
  data : List Byte
  deriving DecidableEq, Repr

/-- A snoop by the host of a line of its own memory (R366); `inv` when the host takes the line to write it,
and then what it writes: offsets in the line, and bytes. -/
structure HostSnoopOp where
  line : Nat
  inv : Bool
  data : List (Nat × Byte)
  deriving DecidableEq, Repr

/-- What a module that joins a domain takes from it (R102): the count, its own number, the live modules. -/
structure JoinOp where
  count : Nat
  modNo : Nat
  members : List Nat
  deriving DecidableEq, Repr

/-- Another member's part in a collective (R371): its module, its request's OPW, COUNT and GEN, and its
elements. -/
structure CollPeer where
  mod : Nat
  opw : Word
  count : Word
  gen : Word
  data : List Nat
  deriving DecidableEq, Repr

/-- A step of a collective request: the place of its arm word, and what arrives from the other members. -/
structure CollOp where
  addr : Nat
  peers : List CollPeer
  deriving DecidableEq, Repr

/-- What a boot stage finds (R373, R375): whether the next image's digest, signature and security
version pass, its digest, the security version, the boot mask as the list of service cores, and the
entry of the service firmware. -/
structure BootOp where
  ok : Bool
  digest : Nat
  version : Nat
  mask : List Nat
  entry : Word
  deriving DecidableEq, Repr

/-- Where a bit error strikes (R264, R357), and whether more than one bit fails: place 0 is a DRAM sector; 1 an
on-die word of a niche, a gallery or a grotto frame; 2 + c an L1 line of core c; 4,096 + c another word of core
c. -/
structure SoftErrorOp where
  place : Nat
  addr : Nat
  multi : Bool
  deriving DecidableEq, Repr

/-- The instructions and steps, one constructor per row of spec/opcode_table.json. -/
inductive Instr where
  /-- NOP (R77): Z-form no-operation; changes no state. -/
  | nop
  /-- NOP_GUARDED (R77): H-form no-operation carrying a guard; changes no state. -/
  | nopGuarded (o : GOp)
  /-- EXIT (R332): Z-form EXIT ends the thread; the slot is freed once its S count reaches 0. -/
  | exit
  /-- EXIT_GUARDED (R332): H-form guarded EXIT ends the thread when its guard is true. -/
  | exitGuarded (o : GOp)
  /-- RET (R77): Z-form return: pc = x31, judged by R42. -/
  | ret
  /-- RET_GUARDED (R77): H-form guarded return to x31. -/
  | retGuarded (o : GOp)
  /-- CBAR (R92): Z-form crew barrier: waits for the L count to reach 0, then arrives at the crew's episode. -/
  | cbar
  /-- CBAR_GUARDED (R92): H-form guarded crew barrier; a false guard does not arrive. -/
  | cbarGuarded (o : GOp)
  /-- TRET (R351): Z-form trap return: restores MODE from PMODE, clears INTRAP and jumps to EPC. -/
  | tret
  /-- TRET_GUARDED (R351): H-form guarded trap return. -/
  | tretGuarded (o : GOp)
  /-- HALT (R351): Z-form HALT stops the slot until WAKE .slot names it. -/
  | halt
  /-- HALT_GUARDED (R351): H-form guarded HALT. -/
  | haltGuarded (o : GOp)
  /-- ADD (R65): Integer add at width w. -/
  | add (o : RRR)
  /-- SUB (R65): Integer subtract at width w. -/
  | sub (o : RRR)
  /-- AND (R65): Bitwise AND. -/
  | and (o : RRR)
  /-- OR (R65): Bitwise OR. -/
  | or (o : RRR)
  /-- XOR (R65): Bitwise XOR. -/
  | xor (o : RRR)
  /-- ANDN (R65): A AND NOT B. -/
  | andn (o : RRR)
  /-- SHL (R65): Shift left by a register count mod w. -/
  | shl (o : RRR)
  /-- SHR (R65): Logical shift right by a register count mod w. -/
  | shr (o : RRR)
  /-- SRA (R65): Arithmetic shift right by a register count mod w. -/
  | sra (o : RRR)
  /-- ROT (R65): Rotate right by a register count mod w. -/
  | rot (o : RRR)
  /-- MIN (R65): Signed minimum. -/
  | min (o : RRR)
  /-- MAX (R65): Signed maximum. -/
  | max (o : RRR)
  /-- MINU (R65): Unsigned minimum. -/
  | minu (o : RRR)
  /-- MAXU (R65): Unsigned maximum. -/
  | maxu (o : RRR)
  /-- LEA (R65): xa + (xb << n) over 64 bits. -/
  | lea (o : LeaOp)
  /-- SEL (R65): Selects xa or xb by bit 0 of a predicate. -/
  | sel (o : SelOp)
  /-- MUL (R65): Low w bits of the product. -/
  | mul (o : RRR)
  /-- MULH (R65): High w bits of the signed product. -/
  | mulh (o : RRR)
  /-- MULHU (R65): High w bits of the unsigned product. -/
  | mulhu (o : RRR)
  /-- DIV (R66): Signed division, rounded toward zero, never trapping. -/
  | div (o : RRR)
  /-- DIVU (R66): Unsigned division, never trapping. -/
  | divu (o : RRR)
  /-- REM (R66): Signed remainder with the dividend's sign. -/
  | rem (o : RRR)
  /-- REMU (R66): Unsigned remainder. -/
  | remu (o : RRR)
  /-- CLZ (R65): Counts leading zeros. -/
  | clz (o : RRw)
  /-- CTZ (R65): Counts trailing zeros. -/
  | ctz (o : RRw)
  /-- POPC (R65): Counts set bits. -/
  | popc (o : RRw)
  /-- SEXT (R65): Extends A to 64 bits by sign or zero. -/
  | sext (o : SextOp)
  /-- MOV (R65): Copies xa to xd. -/
  | mov (o : RR)
  /-- EXT (R67): Extracts a bit field and extends it. -/
  | ext (o : ExtOp)
  /-- INS (R67): Inserts a bit field into xd. -/
  | ins (o : InsOp)
  /-- ADDI (R67): Adds a sign-extended immediate. -/
  | addi (o : AddiOp)
  /-- SHL_IMM (R67): Shift left by an immediate count. -/
  | shlImm (o : ShiftIOp)
  /-- SHR_IMM (R67): Logical shift right by an immediate count. -/
  | shrImm (o : ShiftIOp)
  /-- SRA_IMM (R67): Arithmetic shift right by an immediate count. -/
  | sraImm (o : ShiftIOp)
  /-- ROT_IMM (R67): Rotate right by an immediate count. -/
  | rotImm (o : ShiftIOp)
  /-- LI (R67): Loads an extended immediate. -/
  | li (o : LiOp)
  /-- LIH (R67): Writes imm32 into the high word of xd. -/
  | lih (o : LihOp)
  /-- CMP (R68): Compares two registers and writes a predicate pair. -/
  | cmp (o : CmpOp)
  /-- CMPI (R68): Compares a register with an immediate and writes a predicate pair. -/
  | cmpi (o : CmpiOp)
  /-- PAND (R69): Predicate AND. -/
  | pand (o : PPP)
  /-- POR (R69): Predicate OR. -/
  | por (o : PPP)
  /-- PXOR (R69): Predicate XOR. -/
  | pxor (o : PPP)
  /-- PNOT (R69): Predicate NOT. -/
  | pnot (o : PP)
  /-- PMOV (R69): Predicate copy. -/
  | pmov (o : PP)
  /-- PANY (R69): Sets every bit of kd to the OR of all bits of ka. -/
  | pany (o : PP)
  /-- FADD (R71): Scalar floating-point add. -/
  | fadd (o : FRRR)
  /-- FSUB (R71): Scalar floating-point subtract. -/
  | fsub (o : FRRR)
  /-- FMUL (R71): Scalar floating-point multiply. -/
  | fmul (o : FRRR)
  /-- FMA (R71): Scalar fused multiply-add, rounded once. -/
  | fma (o : FmaOp)
  /-- FDIV (R71): Scalar floating-point divide. -/
  | fdiv (o : FRRR)
  /-- FSQRT (R71): Scalar square root. -/
  | fsqrt (o : FRR)
  /-- FMIN (R71): Scalar minimum number. -/
  | fmin (o : FMinOp)
  /-- FMAX (R71): Scalar maximum number. -/
  | fmax (o : FMinOp)
  /-- FCMP (R72): Floating-point compare into a predicate pair. -/
  | fcmp (o : FCmpOp)
  /-- FCVT (R73): Converts between scalar FP and integer types. -/
  | fcvt (o : FCvtOp)
  /-- FCLASS (R74): Writes a one-hot class of an FP value. -/
  | fclass (o : FClassOp)
  /-- FMODE (R75): Reads and optionally sets the rounding mode. -/
  | fmode (o : RR)
  /-- FFLAGS (R76): Reads FFLAGS and clears the flags selected by xa. -/
  | fflags (o : RR)
  /-- LD (R80): Loads 1 to 8 bytes from niche, gallery or global memory. -/
  | ld (o : LdOp)
  /-- ST (R81): Stores 1 to 8 bytes; a global store takes a store-buffer entry and counts in S. -/
  | st (o : StOp)
  /-- LDAQ (R280): Acquire load at its scope; holds later accesses until its data arrive. -/
  | ldaq (o : LdaqOp)
  /-- STRL (R280): Release store at its scope. -/
  | strl (o : StrlOp)
  /-- VLD (R284): Loads a vector register, with block scales where the format takes them. -/
  | vld (o : VMemOp)
  /-- VLDS (R285): Strided vector load. -/
  | vlds (o : VMemOp)
  /-- VGTH (R286): Vector gather by an .s32 index group. -/
  | vgth (o : VIdxOp)
  /-- VST (R284): Stores active vector elements, with sub-byte enables and scales. -/
  | vst (o : VMemOp)
  /-- VSCT (R287): Vector scatter; duplicate lanes take ascending lane order. -/
  | vsct (o : VIdxOp)
  /-- ATOM (R290): Atomic read-modify-write performed at the line's home, replying the old value. -/
  | atom (o : AtomInstr)
  /-- ATOMX (R293): Posted exact FP32 add into an exact-line element. -/
  | atomx (o : AtomxOp)
  /-- RDT (R89): Reads the drip counter. -/
  | rdt (o : GD)
  /-- RDID (R90): Reads an identity number selected by a. -/
  | rdid (o : RdidOp)
  /-- DOZE (R88): Puts the slot to sleep until a drip stamp or a wake message. -/
  | doze (o : GA)
  /-- QSTAT (R91): Reads a queue's depth, mapping and occupancy without popping. -/
  | qstat (o : QstatOp)
  /-- WAIT (R86): Waits until each bounded class count is at or below its bound. -/
  | wait (o : WaitOp)
  /-- FENCE (R281): Z-form fence ordering at a scope by .acq, .rel or .acr. -/
  | fence (o : FenceOp)
  /-- FENCE_GUARDED (R281): H-form guarded fence. -/
  | fenceGuarded (o : FenceGOp)
  /-- PREF (R282): Prefetches a line into the L1 or the grotto, with no visible effect. -/
  | pref (o : PrefOp)
  /-- BR (R77): Relative branch to a line delta and head index. -/
  | br (o : RelOp)
  /-- CALL (R77): Relative call linking x31. -/
  | call (o : RelOp)
  /-- LOOP (R77): Decrements a counter and branches while it is not zero. -/
  | loop (o : LoopOp)
  /-- JMP (R77): Jumps to register plus offset, linking xd. -/
  | jmp (o : JmpOp)
  /-- JR (R77): Jumps to the address in xa. -/
  | jr (o : GA)
  /-- LRENEW (R135): Sends a renewal request for a lease to its home. -/
  | lrenew (o : DurOp)
  /-- LLIFE (R136): Asks a lease's home for its remaining life. -/
  | llife (o : RR)
  /-- LTETHER (R137): Asks to tether a lease to a parent lease. -/
  | ltether (o : RRRx)
  /-- LINFO (R138): Reads an agent-map entry or a lease record. -/
  | linfo (o : LinfoOp)
  /-- LOCK (R139): Requests the lock named by a lock word, with an optional deadline. -/
  | lock (o : LockOp)
  /-- LHELD (R140): Asks whether a lock handle is still held. -/
  | lheld (o : RR)
  /-- BINIT (R141): Creates a leased block barrier. -/
  | binit (o : DurOp)
  /-- BARV (R144): Arrives at a barrier episode; a release at its scope. -/
  | barv (o : BarvOp)
  /-- BADD (R144): Adds to a barrier's pending-byte counter. -/
  | badd (o : BaddOp)
  /-- BWAIT (R145): Waits for a barrier episode; an acquire at its scope. -/
  | bwait (o : BwaitOp)
  /-- POPEN (R146): Asks a range's home for a fabric path into it. -/
  | popen (o : RRRx)
  /-- PSEND (R147): Posts a dword along a path to an offset in its landing range. -/
  | psend (o : PsendOp)
  /-- GATE (R148): Passes a capability, service code and argument to the lantern. -/
  | gate (o : RRRR)
  /-- ALLOC (R150): Asks the lantern for a memory range described by a request record. -/
  | alloc (o : RR)
  /-- JRNL (R151): Reads one dword of a journal entry. -/
  | jrnl (o : JrnlOp)
  /-- JACK (R152): Frees a journal entry. -/
  | jack (o : GA)
  /-- BOPEN (R246): Opens a bundle keyed by a record line. -/
  | bopen (o : RRI)
  /-- BST (R247): Posts a dword store under a bundle. -/
  | bst (o : BstOp)
  /-- BST_VECTOR (R295): Bundle store of 16 to 128 bytes from a vector register. -/
  | bstVector (o : BstVOp)
  /-- BSEAL (R248): Seals a bundle once every BST has its acknowledgement. -/
  | bseal (o : RR)
  /-- BVIEW (R250): Sets the slot's VIEW stamp. -/
  | bview (o : RR)
  /-- BLD (R250): Loads a dword under the view, reporting a fracture in a predicate pair. -/
  | bld (o : BldOp)
  /-- BCHK (R251): Reads a companion address from a bundle record. -/
  | bchk (o : RRI)
  /-- MCSLD (R297): Loads a host-shared dword and adds its line to the slot's set. -/
  | mcsld (o : RR)
  /-- MCSST (R297): Stages a dword for a line of the set. -/
  | mcsst (o : AB)
  /-- MCSST_COMMIT (R298): Stages a dword and commits the whole set all or nothing. -/
  | mcsstCommit (o : RRRx)
  /-- TAGST (R299): Sets a granule's memory tag. -/
  | tagst (o : AB)
  /-- TAGLD (R299): Reads a granule's tag into the pointer bits. -/
  | tagld (o : RR)
  /-- LAUNCH (R328): Starts the launch described by a launch record. -/
  | launch (o : RR)
  /-- POINT (R329): Asks a frontier home for a point's state. -/
  | point (o : RRRx)
  /-- DONE (R305): Marks the thread's point done, sent once the point's stores are accepted. -/
  | done (o : GOp)
  /-- FRRD (R330): Reads a row's frontier record. -/
  | frrd (o : RRI)
  /-- AMSG (R331): Starts one thread on a target core as an active message. -/
  | amsg (o : RRRR)
  /-- TRAP (R351): Traps with a software cause. -/
  | trap (o : TrapOp)
  /-- SRD (R350): Reads a system register. -/
  | srd (o : SrdOp)
  /-- SWR (R350): Writes a system register that has no row of its own. -/
  | swr (o : SwrOp)
  /-- PSTOP (R354): SWR of PSTOP schedules a stop of a tenant's partition at stamp T. -/
  | pstop (o : GA)
  /-- PGO (R354): SWR of PGO names the resumption stamp U of a stop. -/
  | pgo (o : GA)
  /-- TLBI (R338): Removes translations module-wide and replies once affected accesses are judged. -/
  | tlbi (o : TlbiOp)
  /-- WAKE_REC (R345): Wakes every requester waiting on a fault record. -/
  | wakeRec (o : RR)
  /-- WAKE_FAIL (R345): Fails a fault record, trapping its parked threads and ending its engine commands. -/
  | wakeFail (o : RR)
  /-- WAKE_SLOT (R345): Readies a halted, dozing or stopped slot. -/
  | wakeSlot (o : RR)
  /-- WAKE_STOP (R345): Stops a slot before its next issue, keeping its state. -/
  | wakeStop (o : RR)
  /-- CTXSV (R351): Writes another stopped slot's image to memory. -/
  | ctxsv (o : CtxOp)
  /-- CTXLD (R351): Loads a slot image into a free or stopped slot. -/
  | ctxld (o : CtxOp)
  /-- VADD (R199): Vector add. -/
  | vadd (o : VVVr)
  /-- VSUB (R199): Vector subtract. -/
  | vsub (o : VVVr)
  /-- VMUL (R199): Vector multiply. -/
  | vmul (o : VVVr)
  /-- VFMA (R199): Vector fused multiply-add. -/
  | vfma (o : VFmaOp)
  /-- VFMS (R199): Vector fused multiply-subtract. -/
  | vfms (o : VFmaOp)
  /-- VMIN (R199): Vector minimum. -/
  | vmin (o : VVV)
  /-- VMAX (R199): Vector maximum. -/
  | vmax (o : VVV)
  /-- VABS (R199): Vector absolute value. -/
  | vabs (o : VV)
  /-- VNEG (R199): Vector negate. -/
  | vneg (o : VV)
  /-- VDIV (R199): Vector divide. -/
  | vdiv (o : VVVr)
  /-- VSQRT (R199): Vector square root. -/
  | vsqrt (o : VVr)
  /-- VRSQRT (R189): Vector reciprocal square root, faithfully rounded. -/
  | vrsqrt (o : VV)
  /-- VRCP (R189): Vector reciprocal. -/
  | vrcp (o : VV)
  /-- VEXP2 (R189): Vector base-2 exponential. -/
  | vexp2 (o : VV)
  /-- VLOG2 (R189): Vector base-2 logarithm. -/
  | vlog2 (o : VV)
  /-- VCVT (R200): Converts vector elements between formats. -/
  | vcvt (o : VCvtOp)
  /-- VQNT (R201): Quantises values into a block format with per-block scales. -/
  | vqnt (o : VQntOp)
  /-- VDQNT (R202): Dequantises a block register with per-block factors. -/
  | vdqnt (o : VDqntOp)
  /-- VWMUL (R203): Widening vector multiply. -/
  | vwmul (o : VVVr)
  /-- VWADD (R203): Widening vector add. -/
  | vwadd (o : VVVr)
  /-- VDOT4 (R204): Accumulates four products into each lane. -/
  | vdot4 (o : VVVr)
  /-- VREDS (R205): Sums active lanes in a fixed tree. -/
  | vreds (o : VVr)
  /-- VREDM (R205): Maximum or minimum of active lanes. -/
  | vredm (o : VRedmOp)
  /-- VSCAN (R206): Inclusive scan from lane 0 upward. -/
  | vscan (o : VVr)
  /-- VCMP (R207): Lane-wise compare into a predicate pair. -/
  | vcmp (o : VCmpOp)
  /-- VSEL (R208): Lane-wise select by a predicate. -/
  | vsel (o : VSelOp)
  /-- VAND (R209): Vector bitwise AND. -/
  | vand (o : VLogOp)
  /-- VOR (R209): Vector bitwise OR. -/
  | vor (o : VLogOp)
  /-- VXOR (R209): Vector bitwise XOR. -/
  | vxor (o : VLogOp)
  /-- VNOT (R209): Vector bitwise NOT. -/
  | vnot (o : VV)
  /-- VSHL (R210): Vector shift left. -/
  | vshl (o : VLogOp)
  /-- VSHR (R210): Vector logical shift right. -/
  | vshr (o : VLogOp)
  /-- VSRA (R210): Vector arithmetic shift right. -/
  | vsra (o : VLogOp)
  /-- VIOTA (R211): Writes an arithmetic sequence to the lanes. -/
  | viota (o : ViotaOp)
  /-- VBCAST (R211): Broadcasts a scalar to the lanes. -/
  | vbcast (o : VbcastOp)
  /-- VSLIDE (R211): Slides elements by a signed amount. -/
  | vslide (o : VslideOp)
  /-- VPERM (R211): Permutes elements by an index register. -/
  | vperm (o : VVV)
  /-- VZIP (R211): Interleaves halves of two registers. -/
  | vzip (o : VzipOp)
  /-- VUNZIP (R211): De-interleaves even or odd elements. -/
  | vunzip (o : VzipOp)
  /-- VMOVS_GET (R212): Moves one vector element to an x register. -/
  | vmovsGet (o : VgetOp)
  /-- VMOVS_PUT (R212): Moves an x register into one vector element. -/
  | vmovsPut (o : VputOp)
  /-- VTAG (R213): Copies bits under a new format tag and scale file. -/
  | vtag (o : VtagOp)
  /-- VCLASS (R214): Writes the one-hot FP class of each lane. -/
  | vclass (o : VV)
  /-- VRAND (R215): Writes keyed random bits and advances SRCTR. -/
  | vrand (o : VrandOp)
  /-- MLEASE (R220): Requests the cluster's array lease. -/
  | mlease (o : MleaseOp)
  /-- MLAY (R225): Command loading a layout record's shadow copy from a descriptor. -/
  | mlay (o : MlayOp)
  /-- MZERO (R227): Command setting an accumulator set to +0. -/
  | mzero (o : SetOp)
  /-- MMA (R228): Command adding one K depth of stream products into a set. -/
  | mma (o : SetOp)
  /-- MDRAIN (R229): Command converting a set into a D-stream tile. -/
  | mdrain (o : MdrainOp)
  /-- MSTAT (R230): Asks the array for a record, set or array status word. -/
  | mstat (o : MstatOp)
  /-- CXFER (R234): Copies bytes between spaces through a copy engine. -/
  | cxfer (o : CxferOp)
  /-- CXFER_PACK (R358): Supervisor page move writing a compressed page image. -/
  | cxferPack (o : PackOp)
  /-- CXFER_FPACK (R358): Supervisor page move expanding a compressed image. -/
  | cxferFpack (o : FpackOp)
  /-- CFEED (R237): Pushes a stream feed command to a copy engine. -/
  | cfeed (o : CfeedOp)
  /-- CPOP (R239): Pops the oldest element of the slot's result FIFO on an engine. -/
  | cpop (o : EngOp)
  /-- CSTAT (R240): Reads an engine's tag and FIFO status. -/
  | cstat (o : EngOp)
  /-- LOAD_DATA_ARRIVAL (R25): Load data reach the slot, clearing the pending bit and lowering the L count. -/
  | loadDataArrival (m : Nat)
  /-- REPLY_ARRIVAL (R96): A home's reply word reaches xd, clearing its pending bit and lowering L. -/
  | replyArrival (m : Nat)
  /-- ERROR_REPLY (R84): A reply carrying an error reaches the slot, which traps before its next issue. -/
  | errorReply (m : Nat)
  /-- ACKNOWLEDGEMENT (R25): A home's acknowledgement of acceptance lowers the slot's S count. -/
  | acknowledgement (m : Nat)
  /-- REFUSAL_ACKNOWLEDGEMENT (R120): A refusal acknowledgement lowers S and enters the posted-store journal. -/
  | refusalAcknowledgement (m : Nat)
  /-- STORE_BUFFER_DRAIN (R82): The oldest store-buffer entry drains towards its home and updates the core's L1 copy. -/
  | storeBufferDrain (core : Nat)
  /-- COMMIT_POINT (R113): A home judges an arriving access against generations and guarding leases. -/
  | commitPoint (m : Nat)
  /-- LOAD_SERVICE (R249): A home serves an arriving load, choosing the version by view stamp. -/
  | loadService (m : Nat)
  /-- STORE_PERFORM (R123): An accepted store performs when the line's last read lease runs out. -/
  | storePerform (m : Nat)
  /-- ATOMIC_SERVICE (R290): A home performs an arriving atomic in one step and replies the old value. -/
  | atomicService (m : Nat)
  /-- ATOMX_SERVICE (R293): A home adds an arriving ATOMX exactly into an exact element. -/
  | atomxService (m : Nat)
  /-- READ_LEASE_EXPIRY (R122): An L1 copy's read lease ends and the line counts as absent. -/
  | readLeaseExpiry (core line : Nat)
  /-- CODE_FETCH_ARRIVAL (R43): A fetched code line arrives and releases the held slot. -/
  | codeFetchArrival (m : Nat)
  /-- WRITE_LEASE_LAPSE (R124): An unwritten-back write lease lapses and the home reverts the line. -/
  | writeLeaseLapse (line : Nat)
  /-- PERMISSION_LEASE_RENEWAL (R124): A caching agent renews its line permission lease. -/
  | permissionLeaseRenewal (line : Nat)
  /-- WRITE_BACK_REQUEST (R124): A home asks a holder to write a line back. -/
  | writeBackRequest (line : Nat)
  /-- GUARD_COPY_UPDATE (R112): A renewal's new expiry reaches a home holding a guard copy. -/
  | guardCopyUpdate (m : Nat)
  /-- ROOT_CONSULTATION (R112): A root's home answers a lapse consultation from an accepting home. -/
  | rootConsultation (m : Nat)
  /-- CONSULTATION_ANSWER (R112): The root's answer reaches the accepting home, which judges the waiting operation. -/
  | consultationAnswer (m : Nat)
  /-- LEASE_EXPIRY (R116): A lease reaches its expiry drip and lapses with everything tethered to it. -/
  | leaseExpiry (agent : AgentId) (index : Nat)
  /-- LOCK_DEADLINE (R139): A waiting lock request's deadline passes and it is refused with ALLOC_DEADLINE. -/
  | lockDeadline (m : Nat)
  /-- RENEWAL_ARRIVAL (R108): A renewal is judged at the lease's home at its arrival drip. -/
  | renewalArrival (m : Nat)
  /-- LIFE_INQUIRY_ARRIVAL (R136): A home replies a lease's remaining life. -/
  | lifeInquiryArrival (m : Nat)
  /-- TETHER_ARRIVAL (R137): A tether request is judged at the lease's, the parent's and again the lease's home. -/
  | tetherArrival (m : Nat)
  /-- INFO_ARRIVAL (R138): The lantern or home answers an LINFO request. -/
  | infoArrival (m : Nat)
  /-- LOCK_REQUEST_ARRIVAL (R139): A lock request is granted or queued at the lock word's home. -/
  | lockRequestArrival (m : Nat)
  /-- LOCK_INQUIRY_ARRIVAL (R140): The home answers LHELD with waiters and remaining drips. -/
  | lockInquiryArrival (m : Nat)
  /-- BARRIER_GRANT (R142): A home grants a barrier record and registers its members. -/
  | barrierGrant (m : Nat)
  /-- BARRIER_ARRIVAL (R144): A BARV arrival is counted at the barrier's home and may complete the episode. -/
  | barrierArrival (m : Nat)
  /-- BYTE_ADD_ARRIVAL (R144): A BADD changes the barrier's pending-byte counter. -/
  | byteAddArrival (m : Nat)
  /-- BARRIER_WAIT_ARRIVAL (R144): A BWAIT is answered, held or refused at the barrier's home. -/
  | barrierWaitArrival (m : Nat)
  /-- EXIT_NOTICE (R144): A member's exit notice marks it exited at the barrier. -/
  | exitNotice (m : Nat)
  /-- BEAT (R143): A core holding a live member sends the barrier's home a beat every 64 drips. -/
  | beat (core : Nat) (agent : AgentId) (index : Nat)
  /-- PATH_GRANT (R146): A range's home grants a path record for a POPEN. -/
  | pathGrant (m : Nat)
  /-- PATH_WORD_ARRIVAL (R147): A path word is judged at the landing range's home and written or refused. -/
  | pathWordArrival (m : Nat)
  /-- EXACT (R148): Gate service granting a range of exact lines. -/
  | exact (m : Nat)
  /-- HEAT (R339): Gate service returning and clearing a region heat counter. -/
  | heat (m : Nat)
  /-- LOG (R148): Gate service appending a software record to the fault log. -/
  | log (m : Nat)
  /-- ROOT (R148): Gate service renewing the requester's context lease. -/
  | root (m : Nat)
  /-- TIME (R148): Gate service returning the lantern's drip counter. -/
  | time (m : Nat)
  /-- TENANT (R149): Gate service creating a tenant's windows and anchor. -/
  | tenant (m : Nat)
  /-- CONTEXT (R149): Gate service granting a context lease tethered to the anchor. -/
  | context (m : Nat)
  /-- GRANT (R149): Gate service granting a capability. -/
  | grant (m : Nat)
  /-- ALLOC_REQUEST_ARRIVAL (R128): The lantern grants, refuses or queues an ALLOC request. -/
  | allocRequestArrival (m : Nat)
  /-- ALLOC_GRANT (R128): Freed space meets a waiting ALLOC, granted in arrival order. -/
  | allocGrant (m : Nat)
  /-- ALLOC_DEADLINE (R128): A bounded ALLOC wait reaches its deadline and returns the null handle. -/
  | allocDeadline (m : Nat)
  /-- BUNDLE_OPEN_ARRIVAL (R246): A line's home grants a bundle lease and creates its record. -/
  | bundleOpenArrival (m : Nat)
  /-- BUNDLE_STORE_ARRIVAL (R247): A BST is judged at the line's home and joins or dooms the bundle. -/
  | bundleStoreArrival (m : Nat)
  /-- JOIN (R247): The record home records a line's join and acknowledges the store. -/
  | join (m : Nat)
  /-- DOOM (R247): The record home records a bundle's doom before the refusal is sent. -/
  | doom (m : Nat)
  /-- SEAL_ARRIVAL (R248): The record home seals a bundle with C = t + 33 and sends seal notices. -/
  | sealArrival (m : Nat)
  /-- SEAL_NOTICE (R248): A companion home learns C and RX and serves loads waiting for C. -/
  | sealNotice (m : Nat)
  /-- COMPANION_CHECK_ARRIVAL (R251): The record home replies a companion address. -/
  | companionCheckArrival (m : Nat)
  /-- COMPANION_REPORT (R251): A companion home reports no longer naming a record; the last frees it. -/
  | companionReport (m : Nat)
  /-- MCS_DECISION (R298): The slices confirm the reserved lines and the set commits or fails. -/
  | mcsDecision (m : Nat)
  /-- QUEUE_DEADLOCK (R35): A ring blocked for 2^16 drips traps each of its slots. -/
  | queueDeadlock (core blk : Nat)
  /-- DOZE_EXPIRY (R88): The drip counter reaches a DOZE stamp and the slot wakes. -/
  | dozeExpiry (tid : Nat)
  /-- WAKE_MESSAGE (R19): A wake message ends a parked or asleep state. -/
  | wakeMessage (m : Nat)
  /-- WALK_END (R336): A translation walk ends, serving its joiners or parking them with a fault record. -/
  | walkEnd (w : Nat)
  /-- FAULT_RECORD_WRITE (R343): A waiting fault record is written once its queue slot is freed. -/
  | faultRecordWrite (die : Nat)
  /-- SWAP_DECISION (R325): A block parked through its park budget is swapped out. -/
  | swapDecision (blk : Nat)
  /-- SWAP_SAVE (R325): A swapped block's state is saved once its stores are acknowledged. -/
  | swapSave (blk : Nat)
  /-- BLOCK_ADMISSION (R323): A cluster admits the next fitting block by effective priority. -/
  | blockAdmission (clus : Nat)
  /-- PRIORITY_AGING (R323): A launch waiting 2^20 drips rises one effective priority level. -/
  | priorityAging (launch : Nat)
  /-- DONE_ARRIVAL (R303): The frontier home accepts a DONE, advances the row and fires eligible points. -/
  | doneArrival (m : Nat)
  /-- LAUNCH_ARRIVAL (R316): The command unit judges a launch by the admission checks. -/
  | launchArrival (m : Nat)
  /-- AFTER_RELEASE (R317): A waiting launch fires once its AFTER predecessor has completed. -/
  | afterRelease (launch : Nat)
  /-- POINT_QUERY_ARRIVAL (R329): The frontier home answers a POINT query. -/
  | pointQueryArrival (m : Nat)
  /-- FRONTIER_READ_ARRIVAL (R330): The frontier home replies a row's record. -/
  | frontierReadArrival (m : Nat)
  /-- AMSG_ARRIVAL (R331): The target core judges an active message and starts its thread. -/
  | amsgArrival (m : Nat)
  /-- LEAVE_REQUEST (R376): The power manager receives a leave request and queues it. -/
  | leaveRequest (m : Nat)
  /-- LEAVE_GRANT (R376): The power manager grants leave in arrival order when the pool has room. -/
  | leaveGrant
  /-- SUSPEND_MESSAGE (R126): A home extends live root leases by the suspend allowance. -/
  | suspendMessage (m : Nat)
  /-- PREEMPTION_STOP (R354): At stamp T the partition stops issuing and stows its messages. -/
  | preemptionStop (tenant : Nat)
  /-- RESUMPTION (R354): At stamp U stopped blocks are placed and stowed messages re-injected. -/
  | resumption (tenant : Nat)
  /-- CONTAINMENT (R355): A core consumes an uncorrectable error and its rectangle is fenced and reset. -/
  | containment (core cause addr : Nat)
  /-- RECTANGLE_RETURN (R355): A contained rectangle returns to the scheduler after 65,536 drips. -/
  | rectangleReturn (n : Nat)
  /-- ARRAY_REQUEST_ARRIVAL (R154): An MLEASE request is queued at the array and leave is asked for it. -/
  | arrayRequestArrival (m : Nat)
  /-- ARRAY_GRANT (R154): The array grants the head request once the previous grant lapsed and leave arrived. -/
  | arrayGrant (clus : Nat)
  /-- COMMAND_ACCEPT (R223): The array accepts or refuses a matrix command from a core. -/
  | commandAccept (m : Nat)
  /-- COMMAND_RETIRE (R223): The array retires a command and the M count falls. -/
  | commandRetire (clus : Nat)
  /-- STREAM_UNIT_LAND (R228): A stream unit lands and any complete K-group is added. -/
  | streamUnitLand (clus eng : Nat)
  /-- GIVE_UP (R241): A command waiting for stream data gives up at the grant's expiry. -/
  | giveUp (clus : Nat)
  /-- REPORT (R224): An array or engine report reaches a slot and is taken as a trap. -/
  | report (m : Nat)
  /-- ENGINE_ACCEPT (R232): A copy engine accepts a command and pushes its promise. -/
  | engineAccept (m : Nat)
  /-- ENGINE_COMPLETION (R232): A command ends, pushing a completion record and lowering C. -/
  | engineCompletion (clus eng : Nat)
  /-- PROMISE_MISSED (R232): A command not ended by its promise sends a report with a new promise. -/
  | promiseMissed (clus eng : Nat)
  /-- ARM (R365): The command unit acts on an arm-word store and clears it. -/
  | arm (addr : Nat)
  /-- KEEPALIVE (R111): A keepalive store renews the tenant's anchor by PERIOD. -/
  | keepalive (addr : Nat)
  /-- COLLECTIVE_REQUEST (R371): An armed collective request is matched and reduced over its group. -/
  | collectiveRequest (o : CollOp)
  /-- MEMBER_FAILURE (R372): A failed member leaves every group, GEN increments and vector 1,025 fires. -/
  | memberFailure (module : Nat)
  /-- LINK_FAILURE (R369): A message undelivered within 4,096 drips declares its link failed. -/
  | linkFailure (module : Nat)
  /-- MODULE_FAILED (R369): A module unreachable for 65,536 drips is declared failed and its agents retired. -/
  | moduleFailed (module : Nat)
  /-- AGENT_REJOIN (R125): A failed agent leaves quarantine with a new incarnation. -/
  | agentRejoin (agent : AgentId)
  /-- TIME_SYNC (R370): Every 65,536 drips a time unit measures and trims its clock against the root. -/
  | timeSync (module : Nat) (offset : Int)
  /-- DOMAIN_JOIN (R102): A module takes the domain's count in one step before its first admission. -/
  | domainJoin (o : JoinOp)
  /-- PRQ (R367): A store of a RID to PRQ sends a PRI page request. -/
  | prq (addr : Nat)
  /-- PAGE_RESPONSE (R367): A PRI response wakes or fails the fault record. -/
  | pageResponse (tag : Nat) (ok : Bool)
  /-- HOST_ACCESS (R361): A host CXL.mem access is judged at the line's home. -/
  | hostAccess (o : HostAccessOp)
  /-- BACK_INVALIDATE (R361): The coherence engine recalls a host-cached device line. -/
  | backInvalidate (line : Nat)
  /-- HOST_SNOOP (R366): A host snoop of a device-cached host line is answered. -/
  | hostSnoop (o : HostSnoopOp)
  /-- MODULE_RESET (R366): Module reset writes back host lines and answers host traffic as unavailable. -/
  | moduleReset
  /-- BOOT_STAGE (R375): A boot stage checks the next image and holds the module in reset on failure. -/
  | bootStage (o : BootOp)
  /-- SERVICE_CONTEXT_CREATION (R374): The lantern creates context 0 and grants the root capability. -/
  | serviceContextCreation
  /-- ATTESTATION (R375): An SPDM request receives a signed attestation report. -/
  | attestation (nonce : Nat)
  /-- AGENT_FAILURE (R125): An agent fails, and the lantern sets RET in every agent map entry that names it, so operations naming it are refused. -/
  | agentFailure (agent : AgentId)
  /-- BUNDLE_CONSULTATION (R249): A bundle record answers a line home's consultation, and the home learns the bundle's state or commit stamp and serves the loads waiting for it. -/
  | bundleConsultation (m : Nat)
  /-- ENGINE_PIECE (R234): A copy engine moves the next piece of its current CXFER, reading it from the source and writing it to the destination, and counts any gallery conflicts. -/
  | enginePiece (clus eng : Nat)
  /-- SOFT_ERROR (R357): A bit error strikes a DRAM sector or an on-die SRAM word, to be corrected or poisoned when the data are read. -/
  | softError (o : SoftErrorOp)
  /-- CLUSTER_GATING (R366): A cluster that holds no block, with its store buffers drained and L1 copies dropped, is power-gated, and it is restored when it is needed again. -/
  | clusterGating (clus : Nat)
  deriving DecidableEq, Repr

end Sys2Proof
end

