-- ==== Sys2Proof/Config.lean ====
section
/-!
DEFINITION. What the spec leaves to an implementation or leaves open: free values, which have no body,
so that nothing in Lean can evaluate them (notes/assumptions names each), and the constants of the spec
that several files share.
-/
namespace Sys2Proof.Config

/-- The drip an engine promises beyond the earliest one allowed (R232 leaves the method open), by a fresh
number. -/
opaque promiseAhead : Nat → Nat

/-- Of the two neighbours of a VRCP or VRSQRT result that is not exact, whether the lower is returned
(R189 leaves it open), by format code and operand bits. -/
opaque lowNeighbour : Nat → Nat → Bool

/-- Where VEXP2 goes from the lower neighbour to the upper (R189: a monotone choice): for a format code
and a lower neighbour's bits, a threshold on the operand's exact value, as a numerator over 2^200. -/
opaque threshold : Nat → Nat → Int

/-- The signature of an attestation report (R375), by its contents' number. -/
opaque signature : Nat → Nat

/-- Bytes the spec calls unknown: pieces of a stopped copy beyond its count, DST of a failed collective
(R236, R371), by a fresh number. -/
opaque unknownByte : Nat → BitVec 8

/-- A word the spec gives no value: EVAL of a trap whose rule names none (R346), by a fresh number. -/
opaque freeWord : Nat → Word

/-- The physical address of an allocated range (R150 leaves the choice to the lantern), by a fresh number. -/
opaque allocPlace : Nat → Nat

/-- Which of a tenant's contexts its windows use (R315, R365), by tenant, where it has several. -/
opaque windowPick : Nat → Nat

/-- The lease quantum in drips (R106). -/
def quantum : Nat := 256

/-- ε in drips (R102). -/
def epsilon : Nat := 32

/-- The longest lease in drips (R106, R125). -/
def longest : Nat := 4395899027456

end Sys2Proof.Config
end

