-- ==== Sys2Proof/WellFormed.lean ====
section
/-!
DEFINITION. Which instructions are well formed: the limits on operands that the types of Syntax.lean do
not already say (spec 03 R48 to R51, and the entry of each instruction). An instruction's words exist
(Decode.lean, `encode`) exactly when it is well formed and is a head.
-/
namespace Sys2Proof

/-! ### Element formats (spec 09 Table 9-4) -/

/-- Bits of one element in a register; 0 for NONE. -/
def Fmt.bits : Fmt → Nat
  | .none => 0
  | .s8 | .n8 | .e4m3 | .e5m2 | .e3m2 | .e2m3 | .e8m0 => 8
  | .s16 | .n16 | .f16 | .bf16 => 16
  | .s32 | .n32 | .f32 => 32
  | .s64 | .n64 | .f64 => 64
  | .sv4 => 4

/-- Elements of one register (Table 9-4); 0 for NONE. -/
def Fmt.count (f : Fmt) : Nat := if f.bits = 0 then 0 else 4096 / f.bits

/-- Group I of spec 10: the integer tags. -/
def Fmt.isI : Fmt → Bool
  | .s8 | .s16 | .s32 | .s64 | .n8 | .n16 | .n32 | .n64 => true
  | _ => false

/-- The signed integer tags. -/
def Fmt.isSigned : Fmt → Bool
  | .s8 | .s16 | .s32 | .s64 => true
  | _ => false

/-- Group F of spec 10. -/
def Fmt.isF : Fmt → Bool
  | .f32 | .f16 | .bf16 => true
  | _ => false

/-- Group B of spec 10: the block formats. -/
def Fmt.isB : Fmt → Bool
  | .e4m3 | .e5m2 | .e3m2 | .e2m3 | .sv4 => true
  | _ => false

/-- I, F, D and E: the formats of VSEL, VMOVE and strided or indexed accesses. -/
def Fmt.isIFDE (f : Fmt) : Bool := f.isI || f.isF || f = .f64 || f = .e8m0

/-- The ratio of the wider of two formats to the narrower (R194). -/
def fmtRatio (a b : Fmt) : Nat := if a.bits ≤ b.bits then b.bits / a.bits else a.bits / b.bits

/-- A legal group base for ratio `r` (R194): ratios 8 and 16 are illegal. -/
def groupOk (r base : Nat) : Bool := (r = 1 || r = 2 || r = 4) && base % r = 0

/-- Bits of a width code. -/
def Width.bits : Width → Nat
  | .b => 8 | .h => 16 | .w => 32 | .d => 64

/-- Bytes of a width code. -/
def Width.bytes (w : Width) : Nat := w.bits / 8

/-- Bits of a scalar floating-point type. -/
def FType.bits : FType → Nat
  | .f16 | .bf16 => 16 | .f32 => 32 | .f64 => 64

/-- The integer codes of FCVT (R73). -/
def CvtTy.isInt : CvtTy → Bool
  | .s32 | .n32 | .s64 | .n64 => true
  | _ => false

/-- Registers that SWR may write and that have no row of their own (Table 17-12). -/
def SysReg.swrOk : SysReg → Bool
  | .status | .cause | .epc | .eval | .handler | .fmode | .fflags | .slotcfg | .srseed | .srctr
  | .cflags | .hkey | .ctxtb | .tentb => true
  | _ => false

/-- The result tag of VWMUL and VWADD (R203), none where the format does not widen. -/
def widened : Fmt → Option Fmt
  | .s8 => some .s16 | .s16 => some .s32 | .s32 => some .s64
  | .n8 => some .n16 | .n16 => some .n32 | .n32 => some .n64
  | .f16 | .bf16 => some .f32
  | _ => none

/-- The result tag of VDOT4 (Table 10-4). -/
def dot4Tag : Fmt → Option Fmt
  | .s8 => some .s32 | .n8 => some .n32
  | .e4m3 | .e5m2 | .sv4 => some .f32
  | _ => none

/-- Formats whose image of VLD and VST has scale bytes (Table 14-3). -/
def Fmt.hasScales (f : Fmt) : Bool := f.isB

/-- A format rounds or the rounding field is 0 (R192). -/
def rsOk (ef : Fmt) (rs : Rs) : Bool := ef.isF || rs = .fm

/-- A compare condition fits a format (R207): the codes past `.ge` are FCMP's. -/
def FCond.okFor (ef : Fmt) : FCond → Bool
  | .uno | .ord => ef.isF
  | _ => ef.isI || ef.isF

/-- The group ratio of an index operand (R286). -/
def idxRatio (ef : Fmt) : Nat := if ef.bits = 64 then 1 else 32 / ef.bits

/-- VLD and VST of a space (R283): an order only with `.glob`. -/
def ordOk (sp : Space) (ord : Bool) : Bool := sp = .glob || !ord

/-- The limits of the entries. Steps of the module that no head issues have none. -/
def Instr.wf : Instr → Bool
  | .ext o => o.n.val ≠ 0 && o.p.val + o.n.val ≤ o.w.bits
  | .ins o => o.n.val ≠ 0 && o.p.val + o.n.val ≤ o.w.bits
  | .shlImm o | .shrImm o | .sraImm o | .rotImm o => o.n.val < o.w.bits
  | .cmp o => (o.cc ≠ .eq && o.cc ≠ .ne) || o.s = .sx
  | .cmpi o => (o.cc ≠ .eq && o.cc ≠ .ne) || o.s = .sx
  | .fcvt o => !(o.dt.isInt && o.st.isInt)
  | .vld o | .vst o => o.ef ≠ .none && ordOk o.sp o.ord && (o.ef.hasScales || o.b.val = 0)
  | .vlds o => o.ef.isIFDE && ordOk o.sp o.ord
  | .vgth o | .vsct o =>
      o.ef.isIFDE && ordOk o.sp o.ord && groupOk (idxRatio o.ef) o.b.val
  | .atom o => o.op = .cas || o.c.val = 0
  | .mcsstCommit o => o.d.val ≠ 0
  | .amsg o => o.c.val % 2 = 0
  | .trap o => o.n.toNat ≤ 111
  | .swr o => o.reg.swrOk
  | .tlbi o => match o.op with
      | .va => true
      | .ctx | .tent => o.a.val = 0
      | .all => o.a.val = 0 && o.n.toNat = 0
  | .vadd o | .vsub o | .vmul o => (o.ef.isI || o.ef.isF) && rsOk o.ef o.rs
  | .vfma o | .vfms o => (o.ef.isI || o.ef.isF) && rsOk o.ef o.rs
  | .vmin o | .vmax o => o.ef.isI || o.ef.isF
  | .vabs o | .vneg o => o.ef.isI || o.ef.isF
  | .vdiv o => o.ef.isF
  | .vsqrt o => o.ef.isF
  | .vrsqrt o | .vrcp o | .vexp2 o | .vlog2 o => o.ef.isF
  | .vcvt o =>
      (o.dt.isI || o.dt.isF || o.dt.isB) && (o.st.isI || o.st.isF || o.st.isB) && o.dt ≠ o.st
      && groupOk (fmtRatio o.dt o.st) (if o.dt.bits < o.st.bits then o.a.val else o.d.val)
      && (o.sat || !(o.dt = .e3m2 || o.dt = .e2m3 || o.dt = .sv4))
      && (!o.dt.isI || o.rs = .fm)
  | .vqnt o =>
      o.dt.isB && o.st.isF && (o.dt = .sv4 || o.ty.val = 0)
      && groupOk (fmtRatio o.dt o.st) o.a.val
  | .vdqnt o => o.dt.isF && o.st.isB && groupOk (fmtRatio o.dt o.st) o.d.val
  | .vwmul o | .vwadd o => (widened o.ef).isSome && groupOk 2 o.d.val && rsOk o.ef o.rs
  | .vdot4 o => (dot4Tag o.ef).isSome && groupOk (if o.ef = .sv4 then 2 else 1) o.d.val
      && (!o.ef.isI || o.rs = .fm)
  | .vreds o | .vscan o => (o.ef.isI || o.ef.isF) && rsOk o.ef o.rs
  | .vredm o => o.ef.isI || o.ef.isF
  | .vcmp o => o.cc.okFor o.ef
  | .vsel o => o.ef.isIFDE
  | .vand o | .vor o | .vxor o => o.ef ≠ .none
  | .vnot o => o.ef ≠ .none
  | .vshl o | .vshr o | .vsra o => o.ef.isI && (match o.b with
      | .reg _ => true
      | .imm n => n.toNat < o.ef.bits)
  | .viota o => o.ef.isI
  | .vbcast o => o.ef.isIFDE
  | .vslide o => o.ef.isIFDE
  | .vperm o => o.ef.isIFDE && (o.ef.bits ≠ 8 || o.b.val % 2 = 0)
  | .vzip o | .vunzip o => o.ef.isIFDE
  | .vmovsGet o => o.ef.isIFDE
  | .vmovsPut o => o.ef.isIFDE
  | .vtag o => o.ef ≠ .none && (o.scl || o.b.val = 0)
  | .vclass o => o.ef.isF
  | .vrand o => o.ef = .n32 || o.ef = .f32
  | _ => true

/-- A head that a thread can issue, as against a step of the module that no head issues (spec 95). -/
def Instr.isHead : Instr → Bool
  | .loadDataArrival .. | .replyArrival .. | .errorReply .. | .acknowledgement ..
  | .refusalAcknowledgement .. | .storeBufferDrain .. | .commitPoint .. | .loadService ..
  | .storePerform .. | .atomicService .. | .atomxService .. | .readLeaseExpiry ..
  | .codeFetchArrival .. | .writeLeaseLapse .. | .permissionLeaseRenewal ..
  | .writeBackRequest .. | .guardCopyUpdate .. | .rootConsultation .. | .consultationAnswer ..
  | .leaseExpiry .. | .lockDeadline .. | .renewalArrival .. | .lifeInquiryArrival ..
  | .tetherArrival .. | .infoArrival .. | .lockRequestArrival .. | .lockInquiryArrival ..
  | .barrierGrant .. | .barrierArrival .. | .byteAddArrival .. | .barrierWaitArrival ..
  | .exitNotice .. | .beat .. | .pathGrant .. | .pathWordArrival .. | .exact .. | .heat ..
  | .log .. | .root .. | .time .. | .tenant .. | .context .. | .grant ..
  | .allocRequestArrival .. | .allocGrant .. | .allocDeadline .. | .bundleOpenArrival ..
  | .bundleStoreArrival .. | .join .. | .doom .. | .sealArrival .. | .sealNotice ..
  | .companionCheckArrival .. | .companionReport .. | .mcsDecision .. | .queueDeadlock ..
  | .dozeExpiry .. | .wakeMessage .. | .walkEnd .. | .faultRecordWrite .. | .swapDecision ..
  | .swapSave .. | .blockAdmission .. | .priorityAging .. | .doneArrival .. | .launchArrival ..
  | .afterRelease .. | .pointQueryArrival .. | .frontierReadArrival .. | .amsgArrival ..
  | .leaveRequest .. | .leaveGrant | .suspendMessage .. | .preemptionStop .. | .resumption ..
  | .containment .. | .rectangleReturn .. | .arrayRequestArrival .. | .arrayGrant ..
  | .commandAccept .. | .commandRetire .. | .streamUnitLand .. | .giveUp .. | .report ..
  | .engineAccept .. | .engineCompletion .. | .promiseMissed .. | .arm .. | .keepalive ..
  | .collectiveRequest .. | .memberFailure .. | .linkFailure .. | .moduleFailed ..
  | .agentRejoin .. | .timeSync .. | .domainJoin .. | .prq .. | .pageResponse .. | .hostAccess ..
  | .backInvalidate .. | .hostSnoop .. | .moduleReset | .bootStage .. | .serviceContextCreation
  | .attestation .. | .agentFailure .. | .bundleConsultation .. | .enginePiece .. | .softError ..
  | .clusterGating ..
    => false
  | _ => true

/-- The forms marked supervisor only (R54, Table 3-9). -/
def Instr.privileged : Instr → Bool
  | .tret | .tretGuarded _ | .halt | .haltGuarded _ | .mcsld _ | .mcsst _ | .mcsstCommit _
  | .swr _ | .pstop _ | .pgo _ | .tlbi _ | .wakeRec _ | .wakeFail _ | .wakeSlot _ | .wakeStop _
  | .ctxsv _ | .ctxld _ | .cxferPack _ | .cxferFpack _ => true
  | .srd o => match o.reg with
      | .cflags | .hkey | .ctxtb | .tentb | .pstop | .pgo | .rootcap | .gstat _ => true
      | _ => false
  | _ => false

/-- Vector-class majors 0x40 to 0x7F (R41): the V-class heads. -/
def Instr.vClass : Instr → Bool
  | .vadd _ | .vsub _ | .vmul _ | .vfma _ | .vfms _ | .vmin _ | .vmax _ | .vabs _ | .vneg _ | .vdiv _
  | .vsqrt _ | .vrsqrt _ | .vrcp _ | .vexp2 _ | .vlog2 _ | .vcvt _ | .vqnt _ | .vdqnt _ | .vwmul _
  | .vwadd _ | .vdot4 _ | .vreds _ | .vredm _ | .vscan _ | .vcmp _ | .vsel _ | .vand _ | .vor _
  | .vxor _ | .vnot _ | .vshl _ | .vshr _ | .vsra _ | .viota _ | .vbcast _ | .vslide _ | .vperm _
  | .vzip _ | .vunzip _ | .vmovsGet _ | .vmovsPut _ | .vtag _ | .vclass _ | .vrand _
  | .mlease _ | .mlay _ | .mzero _ | .mma _ | .mdrain _ | .mstat _
  | .cxfer _ | .cxferPack _ | .cxferFpack _ | .cfeed _ | .cpop _ | .cstat _ => true
  | _ => false

end Sys2Proof
end

