-- ==== Sys2Proof/Decode.lean ====
section
/-!
DEFINITION. The decoder: from the value of a head (spec 03 R41) and of its tail (R39, R47) to an
instruction, total, rejecting by name (R56); and after it the encoder, which gives the canonical tail
(R59) of a well-formed head. The pair bit is a matter of the line (R45), not of the instruction, so the
decoder does not look at it. Field names are those of Tables 3-3 and 3-4.
-/
namespace Sys2Proof

/-! ### Names of the rejections (Table 3-10). Each raises ILLEGAL_ENCODING when the head issues. -/

/-- Why a head is no legal instruction. -/
inductive DecErr where
  /-- A dot of Table 3-7. -/
  | reservedMajor
  /-- A minor code, atomic operation or F value that Table 3-9 does not list. -/
  | reservedMinor
  /-- A tail length that the major or the form does not allow. -/
  | badTail
  /-- Guard 13 to 15. -/
  | badGuard
  /-- A register field outside its class, or a misaligned group or argument pair. -/
  | badRegister
  /-- A reserved code of a field, or a value outside an entry's limits. -/
  | badField
  /-- A field that the form does not use is not zero. -/
  | unusedField
  deriving DecidableEq, Repr

/-- What the decoder answers. -/
abbrev Dec := Except DecErr

/-- Pass where `b` holds, else reject. -/
def need (b : Bool) (e : DecErr) : Dec Unit := if b then .ok () else .error e

/-- The fields must be zero (R50). -/
def zero (n : Nat) : Dec Unit := need (n = 0) .unusedField

/-! ### Fields -/

/-- A register field (R51), taken modulo 32. -/
def xr (n : Nat) : Reg := ⟨n % 32, Nat.mod_lt _ (by decide)⟩

/-- F where it holds a scalar register: F[5] is zero (R50). -/
def dX (f : Nat) : Dec Reg := if h : f < 32 then .ok ⟨f, h⟩ else .error .unusedField

/-- A vector register. -/
def vr (n : Nat) : Dec VR := if h : n < 16 then .ok ⟨n, h⟩ else .error .badRegister

/-- A predicate. -/
def kr (n : Nat) : Dec KR := if h : n < 12 then .ok ⟨n, h⟩ else .error .badRegister

/-- A predicate pair: an even predicate number (Table 3-6). -/
def kp (n : Nat) : Dec KP :=
  if h : n < 12 ∧ n % 2 = 0 then .ok ⟨n / 2, by omega⟩ else .error .badRegister

/-- A guard (R46). -/
def guardOf (n : Nat) : Dec Guard :=
  if h : n < 12 then .ok (.k ⟨n, h⟩) else if n = 12 then .ok .always else .error .badGuard

/-- A small number that an entry bounds. -/
def small (m n : Nat) : Dec (Fin m) := if h : n < m then .ok ⟨n, h⟩ else .error .badField

/-- wd. -/
def widthOf : Nat → Width
  | 0 => .b | 1 => .h | 2 => .w | _ => .d

/-- sg. -/
def signOf (n : Nat) : Sign := if n = 0 then .sx else .zx

/-- sp. -/
def spaceOf : Nat → Dec Space
  | 0 => .ok .glob | 1 => .ok .nich | 2 => .ok .gall | _ => .error .badField

/-- sc. -/
def scopeOf : Nat → Scope
  | 0 => .slot | 1 => .core | 2 => .clus | 3 => .die | 4 => .mod | 5 => .peer | 6 => .domn | _ => .sys

/-- od, and md of majors 0x16 and 0x17. -/
def orderOf : Nat → Dec Order
  | 0 => .ok .rlx | 1 => .ok .acq | 2 => .ok .rel | 3 => .ok .acr | _ => .error .badField

/-- rs. -/
def rsOf : Nat → Dec Rs
  | 0 => .ok .fm | 1 => .ok .rne | 2 => .ok .rtz | 3 => .ok .rup | 4 => .ok .rdn | 5 => .ok .rna
  | 6 => .ok .sr | _ => .error .badField

/-- A format-tag code (Table 9-4); NONE is refused by the form (R174). -/
def fmtOf : Nat → Dec Fmt
  | 0x01 => .ok .s8 | 0x02 => .ok .s16 | 0x03 => .ok .s32 | 0x04 => .ok .s64
  | 0x05 => .ok .n8 | 0x06 => .ok .n16 | 0x07 => .ok .n32 | 0x08 => .ok .n64
  | 0x09 => .ok .f64 | 0x0A => .ok .f32 | 0x0B => .ok .f16 | 0x0C => .ok .bf16
  | 0x0D => .ok .e4m3 | 0x0E => .ok .e5m2 | 0x0F => .ok .e3m2 | 0x10 => .ok .e2m3
  | 0x11 => .ok .e8m0 | 0x12 => .ok .sv4 | _ => .error .badField

/-- A compare condition (R48). -/
def condOf : Nat → Dec Cond
  | 0 => .ok .eq | 1 => .ok .ne | 2 => .ok .lt | 3 => .ok .le | 4 => .ok .gt | 5 => .ok .ge
  | _ => .error .badField

/-- FCMP's condition (R72). -/
def fcondOf : Nat → Dec FCond
  | 0 => .ok .eq | 1 => .ok .ne | 2 => .ok .lt | 3 => .ok .le | 4 => .ok .gt | 5 => .ok .ge
  | 6 => .ok .uno | 7 => .ok .ord | _ => .error .badField

/-- wd and sg together (R48). -/
def ftypeOf : Nat → Nat → Dec FType
  | 1, 0 => .ok .f16 | 1, 1 => .ok .bf16 | 2, 0 => .ok .f32 | 3, 0 => .ok .f64
  | _, _ => .error .badField

/-- FCVT's type codes (R73). -/
def cvtTyOf : Nat → Dec CvtTy
  | 0 => .ok .f16 | 1 => .ok .bf16 | 2 => .ok .f32 | 3 => .ok .f64 | 4 => .ok .s32 | 5 => .ok .n32
  | 6 => .ok .s64 | 7 => .ok .n64 | _ => .error .badField

/-- The operations of ATOM. -/
def atomFnOf : Nat → Dec AtomFn
  | 0 => .ok .add | 1 => .ok .and | 2 => .ok .or | 3 => .ok .xor | 4 => .ok .min | 5 => .ok .max
  | 6 => .ok .minu | 7 => .ok .maxu | 8 => .ok .xchg | 9 => .ok .cas | 10 => .ok .fadd
  | _ => .error .reservedMinor

/-- RDID's selectors (Table 4-8). -/
def idSelOf : Nat → Dec IdSel
  | 0 => .ok .slot | 1 => .ok .ccl | 2 => .ok .core | 3 => .ok .clus | 4 => .ok .cidx
  | 5 => .ok .csize | 6 => .ok .bidx | 7 => .ok .bsize | 8 => .ok .px | 9 => .ok .py | 10 => .ok .pz
  | 11 => .ok .modl | 12 => .ok .tent | _ => .error .badField

/-- A fence's order (R281). -/
def fenceOdOf : Nat → Dec FenceOd
  | 1 => .ok .acq | 2 => .ok .rel | 3 => .ok .acr | _ => .error .reservedMinor

/-- System registers (Table 17-12). -/
def sysRegOf (n : Nat) : Dec SysReg :=
  if h : 0x20 ≤ n ∧ n < 0x40 then .ok (.gstat ⟨n - 0x20, by omega⟩) else
  match n with
  | 0x00 => .ok .status | 0x01 => .ok .cause | 0x02 => .ok .epc | 0x03 => .ok .eval
  | 0x04 => .ok .handler | 0x05 => .ok .fmode | 0x06 => .ok .fflags | 0x07 => .ok .slotcfg
  | 0x08 => .ok .jhead | 0x09 => .ok .anchor | 0x0A => .ok .lstat | 0x0B => .ok .srseed
  | 0x0C => .ok .srctr | 0x0D => .ok .view | 0x10 => .ok .cflags | 0x11 => .ok .hkey
  | 0x12 => .ok .ctxtb | 0x13 => .ok .tentb | 0x14 => .ok .pstop | 0x15 => .ok .pgo
  | 0x16 => .ok .rootcap | _ => .error .badField

/-- A signed immediate of `n` bits as 32 bits. -/
def sext32 (n v : Nat) : BitVec 32 := (BitVec.ofNat n v).signExtend 32

/-! ### Tails (Table 3-4) -/

/-- A tail by its length. -/
structure Tail where
  tl : Nat
  /-- The four-byte layout (the high half in format E), or the two-byte tail. -/
  t : Nat
  /-- imm32, in format E. -/
  e : Option Nat
  deriving DecidableEq, Repr

/-- A tail of length code `tl` and value `v` (R47). -/
def Tail.ofNat (tl v : Nat) : Tail :=
  if tl = 3 then ⟨3, fld v 32 32, some (fld v 0 32)⟩ else ⟨tl, v, none⟩

/-- Format W or V: `top` fields common to both. -/
structure WF where
  g : Guard
  a : Nat
  b : Nat
  c : Nat
  deriving DecidableEq, Repr

/-- Guard, a, b and c of formats W and V. -/
def wf4 (t : Nat) : Dec WF := do
  let g ← guardOf (fld t 28 4)
  pure ⟨g, fld t 23 5, fld t 18 5, fld t 13 5⟩

/-- mn of format W. -/
def wMn (t : Nat) : Nat := fld t 6 4
/-- wd of format W. -/
def wWd (t : Nat) : Nat := fld t 11 2
/-- sg of format W. -/
def wSg (t : Nat) : Nat := fld t 10 1
/-- sc of format W. -/
def wSc (t : Nat) : Nat := fld t 3 3
/-- md of format W. -/
def wMd (t : Nat) : Nat := fld t 0 3
/-- mn of format I. -/
def iMn (t : Nat) : Nat := fld t 16 4
/-- wd of format I. -/
def iWd (t : Nat) : Nat := fld t 21 2
/-- sg of format I. -/
def iSg (t : Nat) : Nat := fld t 20 1
/-- imm16 of format I. -/
def iImm (t : Nat) : Nat := fld t 0 16

/-- No imm32: the form's format is the four-byte one. -/
def noE (t : Tail) : Dec Unit := need (t.tl = 2) .badTail

/-- Formats that allow a four-byte tail and E. -/
def fourOrE (t : Tail) : Dec Unit := need (t.tl = 2 || t.tl = 3) .badTail

/-- A register operand that imm32 replaces (R49): in format E the field is zero. -/
def regImm (t : Tail) (f : Nat) : Dec RegImm :=
  match t.e with
  | none => .ok (.reg (xr f))
  | some n => do zero f; pure (.imm (BitVec.ofNat 32 n))

/-- A duration operand (R130): imm32[31:16] is zero. -/
def durOf (t : Tail) (f : Nat) : Dec Dur :=
  match t.e with
  | none => .ok (.reg (xr f))
  | some n => do zero f; zero (n / 65536); pure (.imm (BitVec.ofNat 16 n))

/-- A vector operand that imm32 replaces (R209, R210). -/
def vregImm (t : Tail) (f : Nat) : Dec VRegImm :=
  match t.e with
  | none => do let v ← vr f; pure (.reg v)
  | some n => do zero f; pure (.imm (BitVec.ofNat 32 n))

/-- imm16, or imm32 with imm16 zero (R49), extended from the sign where it is short. -/
def iOff (t : Tail) : Dec (BitVec 32) :=
  match t.e with
  | none => .ok (sext32 16 (iImm t.t))
  | some n => do zero (iImm t.t); pure (BitVec.ofNat 32 n)

/-- off12, or imm32 with off12 zero (R49). -/
def mOff (t : Tail) : Dec (BitVec 32) :=
  match t.e with
  | none => .ok (sext32 12 (fld t.t 0 12))
  | some n => do zero (fld t.t 0 12); pure (BitVec.ofNat 32 n)

/-- The extra offset of an E form over VM or W; zero without it. -/
def eOff (t : Tail) : BitVec 32 := BitVec.ofNat 32 (t.e.getD 0)

/-! ### The majors, in the order of Table 3-9 -/

/-- The guard of a two-byte tail that adds only a guard. -/
def hGuard (t : Nat) : Dec Guard := do zero (fld t 0 12); guardOf (fld t 12 4)

/-- MISC. -/
def decMisc (f : Nat) (t : Tail) : Dec Instr :=
  if t.tl = 0 then
    match f with
    | 0 => .ok .nop | 1 => .ok .exit | 2 => .ok .ret | 3 => .ok .cbar | 4 => .ok .tret
    | 5 => .ok .halt | _ => .error .reservedMinor
  else if t.tl = 1 then do
    let g ← hGuard t.t
    match f with
    | 0 => pure (.nopGuarded ⟨g⟩) | 1 => pure (.exitGuarded ⟨g⟩) | 2 => pure (.retGuarded ⟨g⟩)
    | 3 => pure (.cbarGuarded ⟨g⟩) | 4 => pure (.tretGuarded ⟨g⟩) | 5 => pure (.haltGuarded ⟨g⟩)
    | _ => .error .reservedMinor
  else .error .badTail

/-- ALU. -/
def decAlu (f : Nat) (t : Tail) : Dec Instr := do
  noE t
  let d ← dX f
  let w ← wf4 t.t
  zero (wSg t.t); zero (wSc t.t); zero (wMd t.t)
  if wMn t.t = 14 then do
    zero (wWd t.t)
    let n ← small 8 w.c
    pure (.lea ⟨w.g, d, xr w.a, xr w.b, n⟩)
  else if wMn t.t = 15 then do
    zero (wWd t.t)
    let c ← kr w.c
    pure (.sel ⟨w.g, d, xr w.a, xr w.b, c⟩)
  else do
    zero w.c
    let o : RRR := ⟨w.g, d, xr w.a, xr w.b, widthOf (wWd t.t)⟩
    match wMn t.t with
    | 0 => pure (.add o) | 1 => pure (.sub o) | 2 => pure (.and o) | 3 => pure (.or o)
    | 4 => pure (.xor o) | 5 => pure (.andn o) | 6 => pure (.shl o) | 7 => pure (.shr o)
    | 8 => pure (.sra o) | 9 => pure (.rot o) | 10 => pure (.min o) | 11 => pure (.max o)
    | 12 => pure (.minu o) | _ => pure (.maxu o)

/-- MULDIV. -/
def decMulDiv (f : Nat) (t : Tail) : Dec Instr := do
  noE t
  let d ← dX f
  let w ← wf4 t.t
  zero (wSg t.t); zero (wSc t.t); zero (wMd t.t); zero w.c
  let o : RRR := ⟨w.g, d, xr w.a, xr w.b, widthOf (wWd t.t)⟩
  match wMn t.t with
  | 0 => pure (.mul o) | 1 => pure (.mulh o) | 2 => pure (.mulhu o) | 3 => pure (.div o)
  | 4 => pure (.divu o) | 5 => pure (.rem o) | 6 => pure (.remu o) | _ => .error .reservedMinor

/-- UNARY. -/
def decUnary (f : Nat) (t : Tail) : Dec Instr := do
  noE t
  let d ← dX f
  let w ← wf4 t.t
  zero (wSc t.t); zero (wMd t.t); zero w.b; zero w.c
  match wMn t.t with
  | 0 => do zero (wSg t.t); pure (.clz ⟨w.g, d, xr w.a, widthOf (wWd t.t)⟩)
  | 1 => do zero (wSg t.t); pure (.ctz ⟨w.g, d, xr w.a, widthOf (wWd t.t)⟩)
  | 2 => do zero (wSg t.t); pure (.popc ⟨w.g, d, xr w.a, widthOf (wWd t.t)⟩)
  | 3 => pure (.sext ⟨w.g, d, xr w.a, widthOf (wWd t.t), signOf (wSg t.t)⟩)
  | 4 => do zero (wSg t.t); zero (wWd t.t); pure (.mov ⟨w.g, d, xr w.a⟩)
  | _ => .error .reservedMinor

/-- BITF: imm[5:0] is the position, imm[11:6] the length less one (R67). -/
def decBitf (f : Nat) (t : Tail) : Dec Instr := do
  noE t
  let d ← dX f
  let g ← guardOf (fld t.t 28 4)
  zero (fld t.t 12 4)
  let w := widthOf (iWd t.t)
  let p ← small 64 (fld t.t 0 6)
  let n ← small 65 (fld t.t 6 6 + 1)
  need (p.val + n.val ≤ w.bits) .badField
  match iMn t.t with
  | 0 => pure (.ext ⟨g, d, xr (fld t.t 23 5), w, signOf (iSg t.t), p, n⟩)
  | 1 => do zero (iSg t.t); pure (.ins ⟨g, d, xr (fld t.t 23 5), w, p, n⟩)
  | _ => .error .reservedMinor

/-- ALUI. -/
def decAluI (f : Nat) (t : Tail) : Dec Instr := do
  noE t
  let d ← dX f
  let g ← guardOf (fld t.t 28 4)
  zero (iSg t.t)
  let w := widthOf (iWd t.t)
  let a := xr (fld t.t 23 5)
  if iMn t.t = 0 then pure (.addi ⟨g, d, a, w, BitVec.ofNat 16 (iImm t.t)⟩)
  else do
    need (iMn t.t ≤ 4) .reservedMinor
    need (iImm t.t < w.bits) .badField
    let n ← small 64 (iImm t.t)
    match iMn t.t with
    | 1 => pure (.shlImm ⟨g, d, a, w, n⟩) | 2 => pure (.shrImm ⟨g, d, a, w, n⟩)
    | 3 => pure (.sraImm ⟨g, d, a, w, n⟩) | _ => pure (.rotImm ⟨g, d, a, w, n⟩)

/-- IMM. -/
def decImm (f : Nat) (t : Tail) : Dec Instr := do
  fourOrE t
  let d ← dX f
  let g ← guardOf (fld t.t 28 4)
  zero (fld t.t 23 5); zero (iWd t.t)
  match iMn t.t, t.e with
  | 0, none =>
      let s := signOf (iSg t.t)
      pure (.li ⟨g, d, s, if s = .sx then sext32 16 (iImm t.t) else BitVec.ofNat 32 (iImm t.t)⟩)
  | 0, some n => do
      zero (iImm t.t)
      pure (.li ⟨g, d, signOf (iSg t.t), BitVec.ofNat 32 n⟩)
  | 1, some n => do
      zero (iImm t.t); zero (iSg t.t)
      pure (.lih ⟨g, d, BitVec.ofNat 32 n⟩)
  | 1, none => .error .badTail
  | _, _ => .error .reservedMinor

/-- CMP. -/
def decCmp (f : Nat) (t : Tail) : Dec Instr := do
  noE t
  let d ← kp f
  let w ← wf4 t.t
  zero w.c; zero (wSc t.t); zero (wMd t.t)
  let cc ← condOf (wMn t.t)
  need ((cc ≠ .eq && cc ≠ .ne) || wSg t.t = 0) .unusedField
  pure (.cmp ⟨w.g, d, xr w.a, xr w.b, widthOf (wWd t.t), signOf (wSg t.t), cc⟩)

/-- CMPI. -/
def decCmpI (f : Nat) (t : Tail) : Dec Instr := do
  noE t
  let d ← kp f
  let g ← guardOf (fld t.t 28 4)
  let cc ← condOf (iMn t.t)
  need ((cc ≠ .eq && cc ≠ .ne) || iSg t.t = 0) .unusedField
  pure (.cmpi ⟨g, d, xr (fld t.t 23 5), widthOf (iWd t.t), signOf (iSg t.t), cc,
    BitVec.ofNat 16 (iImm t.t)⟩)

/-- PRED. -/
def decPred (f : Nat) (t : Tail) : Dec Instr := do
  noE t
  let d ← kr f
  let w ← wf4 t.t
  zero (wWd t.t); zero (wSg t.t); zero w.c; zero (wSc t.t); zero (wMd t.t)
  let a ← kr w.a
  if wMn t.t ≤ 2 then do
    let b ← kr w.b
    match wMn t.t with
    | 0 => pure (.pand ⟨w.g, d, a, b⟩) | 1 => pure (.por ⟨w.g, d, a, b⟩)
    | _ => pure (.pxor ⟨w.g, d, a, b⟩)
  else do
    zero w.b
    match wMn t.t with
    | 3 => pure (.pnot ⟨w.g, d, a⟩) | 4 => pure (.pmov ⟨w.g, d, a⟩) | 5 => pure (.pany ⟨w.g, d, a⟩)
    | _ => .error .reservedMinor

/-- FPA. -/
def decFpa (f : Nat) (t : Tail) : Dec Instr := do
  noE t
  let d ← dX f
  let w ← wf4 t.t
  zero (wSc t.t)
  let ty ← ftypeOf (wWd t.t) (wSg t.t)
  let rs ← rsOf (wMd t.t)
  match wMn t.t with
  | 0 => do zero w.c; pure (.fadd ⟨w.g, d, xr w.a, xr w.b, ty, rs⟩)
  | 1 => do zero w.c; pure (.fsub ⟨w.g, d, xr w.a, xr w.b, ty, rs⟩)
  | 2 => do zero w.c; pure (.fmul ⟨w.g, d, xr w.a, xr w.b, ty, rs⟩)
  | 3 => pure (.fma ⟨w.g, d, xr w.a, xr w.b, xr w.c, ty, rs⟩)
  | 4 => do zero w.c; pure (.fdiv ⟨w.g, d, xr w.a, xr w.b, ty, rs⟩)
  | 5 => do zero w.b; zero w.c; pure (.fsqrt ⟨w.g, d, xr w.a, ty, rs⟩)
  | 6 => do zero w.c; zero (wMd t.t); pure (.fmin ⟨w.g, d, xr w.a, xr w.b, ty⟩)
  | 7 => do zero w.c; zero (wMd t.t); pure (.fmax ⟨w.g, d, xr w.a, xr w.b, ty⟩)
  | _ => .error .reservedMinor

/-- FPB. -/
def decFpb (f : Nat) (t : Tail) : Dec Instr := do
  noE t
  let w ← wf4 t.t
  zero (wSc t.t)
  match wMn t.t with
  | 0 => do
      let d ← kp f
      zero (wMd t.t)
      let ty ← ftypeOf (wWd t.t) (wSg t.t)
      let cc ← fcondOf w.c
      pure (.fcmp ⟨w.g, d, xr w.a, xr w.b, ty, cc⟩)
  | 1 => do
      let d ← dX f
      zero (wWd t.t); zero (wSg t.t)
      let dt ← cvtTyOf w.b
      let st ← cvtTyOf w.c
      need (!(dt.isInt && st.isInt)) .badField
      let rs ← rsOf (wMd t.t)
      pure (.fcvt ⟨w.g, d, xr w.a, dt, st, rs⟩)
  | 2 => do
      let d ← dX f
      zero w.b; zero w.c; zero (wMd t.t)
      let ty ← ftypeOf (wWd t.t) (wSg t.t)
      pure (.fclass ⟨w.g, d, xr w.a, ty⟩)
  | 3 => do
      let d ← dX f
      zero (wWd t.t); zero (wSg t.t); zero w.b; zero w.c; zero (wMd t.t)
      pure (.fmode ⟨w.g, d, xr w.a⟩)
  | 4 => do
      let d ← dX f
      zero (wWd t.t); zero (wSg t.t); zero w.b; zero w.c; zero (wMd t.t)
      pure (.fflags ⟨w.g, d, xr w.a⟩)
  | _ => .error .reservedMinor

/-- LD. -/
def decLd (f : Nat) (t : Tail) : Dec Instr := do
  fourOrE t
  let d ← dX f
  let g ← guardOf (fld t.t 28 4)
  zero (fld t.t 12 3)
  let sp ← spaceOf (fld t.t 18 2)
  let off ← mOff t
  pure (.ld ⟨g, d, xr (fld t.t 23 5), widthOf (iWd t.t), signOf (iSg t.t), sp, scopeOf (fld t.t 15 3), off⟩)

/-- ST. -/
def decSt (f : Nat) (t : Tail) : Dec Instr := do
  fourOrE t
  let d ← dX f
  let g ← guardOf (fld t.t 28 4)
  zero (fld t.t 12 3); zero (iSg t.t)
  let sp ← spaceOf (fld t.t 18 2)
  let off ← mOff t
  pure (.st ⟨g, d, xr (fld t.t 23 5), widthOf (iWd t.t), sp, scopeOf (fld t.t 15 3), off⟩)

/-- LDAQ (R279). -/
def decLdaq (f : Nat) (t : Tail) : Dec Instr := do
  fourOrE t
  let d ← dX f
  let g ← guardOf (fld t.t 28 4)
  need (fld t.t 12 3 = 1) .badField
  zero (fld t.t 18 2)
  let off ← mOff t
  pure (.ldaq ⟨g, d, xr (fld t.t 23 5), widthOf (iWd t.t), signOf (iSg t.t), scopeOf (fld t.t 15 3), off⟩)

/-- STRL (R279). -/
def decStrl (f : Nat) (t : Tail) : Dec Instr := do
  fourOrE t
  let d ← dX f
  let g ← guardOf (fld t.t 28 4)
  need (fld t.t 12 3 = 2) .badField
  zero (fld t.t 18 2); zero (iSg t.t)
  let off ← mOff t
  pure (.strl ⟨g, d, xr (fld t.t 23 5), widthOf (iWd t.t), scopeOf (fld t.t 15 3), off⟩)

/-- The order field of VLOAD and VSTORE (R283): 0, or the major's own code. -/
def vmOrd (own n : Nat) : Dec Bool :=
  if n = 0 then .ok false else if n = own then .ok true else .error .badField

/-- VLOAD and VSTORE: the fields of format VM. -/
def decVMem (isLoad : Bool) (f : Nat) (t : Tail) : Dec Instr := do
  fourOrE t
  let g ← guardOf (fld t.t 28 4)
  let v ← vr f
  let ef ← fmtOf (fld t.t 13 5)
  let sp ← spaceOf (fld t.t 11 2)
  let ord ← vmOrd (if isLoad then 1 else 2) (fld t.t 5 3)
  need (ordOk sp ord) .badField
  let a := xr (fld t.t 23 5)
  let b := fld t.t 18 5
  let sc := scopeOf (fld t.t 8 3)
  let m : VMemOp := ⟨g, v, a, xr b, ef, sp, sc, ord, eOff t⟩
  match fld t.t 0 5, isLoad with
  | 0, true => do need (ef.hasScales || b = 0) .unusedField; pure (.vld m)
  | 1, true => do need ef.isIFDE .badField; pure (.vlds m)
  | 2, true => do
      need ef.isIFDE .badField
      let vb ← vr b
      need (groupOk (idxRatio ef) b) .badRegister
      pure (.vgth ⟨g, v, a, vb, ef, sp, sc, ord, eOff t⟩)
  | 0, false => do need (ef.hasScales || b = 0) .unusedField; pure (.vst m)
  | 1, false => do
      need ef.isIFDE .badField
      let vb ← vr b
      need (groupOk (idxRatio ef) b) .badRegister
      pure (.vsct ⟨g, v, a, vb, ef, sp, sc, ord, eOff t⟩)
  | _, _ => .error .reservedMinor

/-- ATOM (R289). -/
def decAtom (f : Nat) (t : Tail) : Dec Instr := do
  fourOrE t
  let d ← dX f
  let w ← wf4 t.t
  zero (wSg t.t)
  need (wWd t.t = 2 || wWd t.t = 3) .badField
  let op ← atomFnOf (wMn t.t)
  need (op = .cas || w.c = 0) .unusedField
  let od ← orderOf (wMd t.t)
  pure (.atom ⟨w.g, d, xr w.a, xr w.b, xr w.c, op, wWd t.t = 3, od, scopeOf (wSc t.t), eOff t⟩)

/-- ATOMX (R293). -/
def decAtomx (f : Nat) (t : Tail) : Dec Instr := do
  noE t
  zero f
  let w ← wf4 t.t
  zero w.c; zero (wWd t.t); zero (wSg t.t); zero (wMn t.t)
  need (wMd t.t = 0 || wMd t.t = 2) .badField
  pure (.atomx ⟨w.g, xr w.a, xr w.b, wMd t.t = 2, scopeOf (wSc t.t)⟩)

/-- TIME. -/
def decTime (f : Nat) (t : Tail) : Dec Instr := do
  need (t.tl = 1) .badTail
  let g ← guardOf (fld t.t 12 4)
  let a := fld t.t 7 5
  zero (fld t.t 2 5)
  match fld t.t 0 2 with
  | 0 => do let d ← dX f; zero a; pure (.rdt ⟨g, d⟩)
  | 1 => do let d ← dX f; let s ← idSelOf a; pure (.rdid ⟨g, d, s⟩)
  | 2 => do zero f; pure (.doze ⟨g, xr a⟩)
  | _ => do
      let d ← dX f
      let q ← if h : a < 4 then (.ok ⟨a, h⟩ : Dec (Fin 4)) else .error .badRegister
      pure (.qstat ⟨g, d, q⟩)

/-- WAIT (R86). -/
def decWait (f : Nat) (t : Tail) : Dec Instr := do
  noE t
  zero f
  let g ← guardOf (fld t.t 28 4)
  zero (fld t.t 16 12)
  pure (.wait ⟨g, BitVec.ofNat 4 (fld t.t 12 4), BitVec.ofNat 4 (fld t.t 8 4),
    BitVec.ofNat 4 (fld t.t 4 4), BitVec.ofNat 4 (fld t.t 0 4)⟩)

/-- FENCE (R281). -/
def decFence (f : Nat) (t : Tail) : Dec Instr :=
  if t.tl = 0 then do
    let od ← fenceOdOf (fld f 0 3)
    pure (.fence ⟨scopeOf (fld f 3 3), od⟩)
  else if t.tl = 1 then do
    let g ← hGuard t.t
    let od ← fenceOdOf (fld f 0 3)
    pure (.fenceGuarded ⟨g, scopeOf (fld f 3 3), od⟩)
  else .error .badTail

/-- PREF (R282). -/
def decPref (f : Nat) (t : Tail) : Dec Instr := do
  fourOrE t
  need (f = 0 || f = 1) .reservedMinor
  let g ← guardOf (fld t.t 28 4)
  zero (fld t.t 12 11)
  let off ← mOff t
  pure (.pref ⟨g, f = 1, xr (fld t.t 23 5), off⟩)

/-- The line delta and head index of BR, CALL and LOOP (R55). -/
def relOf (t : Tail) : Dec (BitVec 27 × Fin 32) :=
  match t.e with
  | none => .ok ((BitVec.ofNat 11 (fld t.t 5 11)).signExtend 27, xr (fld t.t 0 5))
  | some n => do zero (iImm t.t); pure (BitVec.ofNat 27 (n / 32), xr (fld n 0 5))

/-- BR. -/
def decBr (f : Nat) (t : Tail) : Dec Instr := do
  fourOrE t
  zero f
  let g ← guardOf (fld t.t 28 4)
  zero (fld t.t 16 12)
  let r ← relOf t
  pure (.br ⟨g, r.1, r.2⟩)

/-- CALL. -/
def decCall (f : Nat) (t : Tail) : Dec Instr := do
  fourOrE t
  zero f
  let g ← guardOf (fld t.t 28 4)
  zero (fld t.t 16 12)
  let r ← relOf t
  pure (.call ⟨g, r.1, r.2⟩)

/-- LOOP. -/
def decLoop (f : Nat) (t : Tail) : Dec Instr := do
  fourOrE t
  zero f
  let g ← guardOf (fld t.t 28 4)
  zero (fld t.t 16 7)
  let r ← relOf t
  pure (.loop ⟨g, xr (fld t.t 23 5), r.1, r.2⟩)

/-- JMP. -/
def decJmp (f : Nat) (t : Tail) : Dec Instr := do
  noE t
  let d ← dX f
  let g ← guardOf (fld t.t 28 4)
  zero (fld t.t 16 7)
  pure (.jmp ⟨g, d, xr (fld t.t 23 5), BitVec.ofNat 16 (iImm t.t)⟩)

/-- JR. -/
def decJr (f : Nat) (t : Tail) : Dec Instr := do
  need (t.tl = 1) .badTail
  zero f
  let g ← guardOf (fld t.t 12 4)
  zero (fld t.t 0 7)
  pure (.jr ⟨g, xr (fld t.t 7 5)⟩)

/-- wd, sg and md of a form of 07 R130 and its kin. -/
def zeroWSM (t : Nat) : Dec Unit := do zero (wWd t); zero (wSg t); zero (wMd t)

/-- LEASE (Table 7-1). -/
def decLease (f : Nat) (t : Tail) : Dec Instr := do
  fourOrE t
  let d ← dX f
  let w ← wf4 t.t
  zeroWSM t.t
  match wMn t.t with
  | 0 => do
      zero w.c; zero (wSc t.t)
      let u ← durOf t w.b
      pure (.lrenew ⟨w.g, d, xr w.a, u⟩)
  | 1 => do noE t; zero w.b; zero w.c; zero (wSc t.t); pure (.llife ⟨w.g, d, xr w.a⟩)
  | 2 => do noE t; zero w.c; zero (wSc t.t); pure (.ltether ⟨w.g, d, xr w.a, xr w.b⟩)
  | 3 => do
      noE t; zero w.c; zero (wSc t.t)
      need (w.b ≤ 1) .badField
      pure (.linfo ⟨w.g, d, xr w.a, w.b = 1⟩)
  | 4 => do noE t; pure (.lock ⟨w.g, d, xr w.a, xr w.b, xr w.c, scopeOf (wSc t.t)⟩)
  | 5 => do noE t; zero w.b; zero w.c; zero (wSc t.t); pure (.lheld ⟨w.g, d, xr w.a⟩)
  | _ => .error .reservedMinor

/-- BARR (Table 7-1). -/
def decBarr (f : Nat) (t : Tail) : Dec Instr := do
  fourOrE t
  let d ← dX f
  let w ← wf4 t.t
  zeroWSM t.t
  zero w.c
  match wMn t.t with
  | 0 => do
      zero (wSc t.t)
      let u ← durOf t w.b
      pure (.binit ⟨w.g, d, xr w.a, u⟩)
  | 1 => do noE t; zero w.b; pure (.barv ⟨w.g, d, xr w.a, scopeOf (wSc t.t)⟩)
  | 2 => do
      let n ← regImm t w.b
      pure (.badd ⟨w.g, d, xr w.a, n, scopeOf (wSc t.t)⟩)
  | 3 => do noE t; pure (.bwait ⟨w.g, d, xr w.a, xr w.b, scopeOf (wSc t.t)⟩)
  | _ => .error .reservedMinor

/-- PATH (Table 7-1). -/
def decPath (f : Nat) (t : Tail) : Dec Instr := do
  fourOrE t
  let w ← wf4 t.t
  zeroWSM t.t
  zero (wSc t.t)
  match wMn t.t with
  | 0 => do noE t; let d ← dX f; zero w.c; pure (.popen ⟨w.g, d, xr w.a, xr w.b⟩)
  | 1 => do
      zero f
      let c ← regImm t w.c
      pure (.psend ⟨w.g, xr w.a, xr w.b, c⟩)
  | 2 => do noE t; let d ← dX f; pure (.gate ⟨w.g, d, xr w.a, xr w.b, xr w.c⟩)
  | 3 => do noE t; let d ← dX f; zero w.b; zero w.c; pure (.alloc ⟨w.g, d, xr w.a⟩)
  | _ => .error .reservedMinor

/-- JOURNAL (Table 7-1). -/
def decJournal (f : Nat) (t : Tail) : Dec Instr := do
  noE t
  let w ← wf4 t.t
  zeroWSM t.t
  zero (wSc t.t); zero w.c
  match wMn t.t with
  | 0 => do
      let d ← dX f
      let n ← small 4 w.b
      pure (.jrnl ⟨w.g, d, xr w.a, n⟩)
  | 1 => do zero f; zero w.b; pure (.jack ⟨w.g, xr w.a⟩)
  | _ => .error .reservedMinor

/-- BUND (spec 12 Table 12-1, 14 R294, R295). -/
def decBund (f : Nat) (t : Tail) : Dec Instr := do
  fourOrE t
  let w ← wf4 t.t
  zero (wSc t.t); zero (wMd t.t)
  if wMn t.t = 1 && wSg t.t = 1 then do
    zero f
    let v ← vr w.c
    pure (.bstVector ⟨w.g, xr w.a, xr w.b, v, widthOf (wWd t.t), eOff t⟩)
  else do
    zero (wSg t.t); zero (wWd t.t)
    match wMn t.t with
    | 0 => do
        let d ← dX f
        zero w.c
        let b ← regImm t w.b
        pure (.bopen ⟨w.g, d, xr w.a, b⟩)
    | 1 => do zero f; pure (.bst ⟨w.g, xr w.a, xr w.b, xr w.c, eOff t⟩)
    | 2 => do noE t; let d ← dX f; zero w.b; zero w.c; pure (.bseal ⟨w.g, d, xr w.a⟩)
    | 3 => do noE t; let d ← dX f; zero w.b; zero w.c; pure (.bview ⟨w.g, d, xr w.a⟩)
    | 4 => do
        let d ← dX f
        zero w.c
        let k ← kp w.b
        pure (.bld ⟨w.g, d, xr w.a, k, eOff t⟩)
    | 5 => do
        let d ← dX f
        zero w.c
        let b ← regImm t w.b
        pure (.bchk ⟨w.g, d, xr w.a, b⟩)
    | _ => .error .reservedMinor

/-- MCS (R297): a stage where d is x0, a commit otherwise. -/
def decMcs (f : Nat) (t : Tail) : Dec Instr := do
  noE t
  let d ← dX f
  let w ← wf4 t.t
  zeroWSM t.t
  zero (wSc t.t); zero w.c
  match wMn t.t with
  | 0 => do zero w.b; pure (.mcsld ⟨w.g, d, xr w.a⟩)
  | 1 =>
      if d.val = 0 then pure (.mcsst ⟨w.g, xr w.a, xr w.b⟩)
      else pure (.mcsstCommit ⟨w.g, d, xr w.a, xr w.b⟩)
  | _ => .error .reservedMinor

/-- TAG (R299). -/
def decTag (f : Nat) (t : Tail) : Dec Instr := do
  noE t
  let w ← wf4 t.t
  zeroWSM t.t
  zero (wSc t.t); zero w.c
  match wMn t.t with
  | 0 => do zero f; pure (.tagst ⟨w.g, xr w.a, xr w.b⟩)
  | 1 => do let d ← dX f; zero w.b; pure (.tagld ⟨w.g, d, xr w.a⟩)
  | _ => .error .reservedMinor

/-- SCHED (spec 16 Table 16-9). -/
def decSched (f : Nat) (t : Tail) : Dec Instr := do
  fourOrE t
  let w ← wf4 t.t
  zeroWSM t.t
  zero (wSc t.t)
  match wMn t.t with
  | 0 => do noE t; let d ← dX f; zero w.b; zero w.c; pure (.launch ⟨w.g, d, xr w.a⟩)
  | 1 => do noE t; let d ← dX f; zero w.c; pure (.point ⟨w.g, d, xr w.a, xr w.b⟩)
  | 2 => do noE t; zero f; zero w.a; zero w.b; zero w.c; pure (.done ⟨w.g⟩)
  | 3 => do
      let d ← dX f
      zero w.c
      let b ← regImm t w.b
      pure (.frrd ⟨w.g, d, xr w.a, b⟩)
  | 4 => do
      noE t
      let d ← dX f
      need (w.c % 2 = 0) .badRegister
      pure (.amsg ⟨w.g, d, xr w.a, xr w.b, xr w.c⟩)
  | _ => .error .reservedMinor

/-- imm16 of a SYS form, or imm32 with its high half zero (R349). -/
def sysImm (t : Tail) : Dec Nat :=
  match t.e with
  | none => .ok (iImm t.t)
  | some n => do zero (iImm t.t); zero (n / 65536); pure (n % 65536)

/-- SYS (spec 17 R338, R345, R349 to R351). -/
def decSys (f : Nat) (t : Tail) : Dec Instr := do
  fourOrE t
  let g ← guardOf (fld t.t 28 4)
  zero (iSg t.t)
  let a := fld t.t 23 5
  let n ← sysImm t
  match iMn t.t with
  | 0 => do
      zero f; zero (iWd t.t)
      need (n ≤ 111) .badField
      pure (.trap ⟨g, xr a, BitVec.ofNat 16 n⟩)
  | 1 => do
      let d ← dX f
      zero (iWd t.t); zero a
      let r ← sysRegOf n
      pure (.srd ⟨g, d, r⟩)
  | 2 => do
      zero f; zero (iWd t.t)
      let r ← sysRegOf n
      if r = .pstop then pure (.pstop ⟨g, xr a⟩)
      else if r = .pgo then pure (.pgo ⟨g, xr a⟩)
      else do need r.swrOk .badField; pure (.swr ⟨g, r, xr a⟩)
  | 3 => do
      let d ← dX f
      match iWd t.t with
      | 0 => pure (.tlbi ⟨g, d, xr a, .va, BitVec.ofNat 16 n⟩)
      | 1 => do zero a; pure (.tlbi ⟨g, d, xr a, .ctx, BitVec.ofNat 16 n⟩)
      | 2 => do zero a; pure (.tlbi ⟨g, d, xr a, .tent, BitVec.ofNat 16 n⟩)
      | _ => do zero a; zero n; pure (.tlbi ⟨g, d, xr a, .all, BitVec.ofNat 16 n⟩)
  | 4 => do
      let d ← dX f
      zero n
      match iWd t.t with
      | 0 => pure (.wakeRec ⟨g, d, xr a⟩) | 1 => pure (.wakeFail ⟨g, d, xr a⟩)
      | 2 => pure (.wakeSlot ⟨g, d, xr a⟩) | _ => pure (.wakeStop ⟨g, d, xr a⟩)
  | 5 => do
      let d ← dX f
      zero (iWd t.t)
      let s ← small 16 n
      pure (.ctxsv ⟨g, d, xr a, s⟩)
  | 6 => do
      let d ← dX f
      zero (iWd t.t)
      let s ← small 16 n
      pure (.ctxld ⟨g, d, xr a, s⟩)
  | _ => .error .reservedMinor

/-- ef and rs of format V. -/
def vEf (t : Nat) : Dec Fmt := fmtOf (fld t 8 5)
/-- rs of format V. -/
def vRs (t : Nat) : Dec Rs := rsOf (fld t 5 3)
/-- mn of format V. -/
def vMn (t : Nat) : Nat := fld t 0 5

/-- An instruction whose entry's limits hold (WellFormed.lean). -/
def ifWf (i : Instr) : Dec Instr := do need i.wf .badField; pure i

/-- VARITH (Table 10-3). -/
def decVArith (f : Nat) (t : Tail) : Dec Instr := do
  noE t
  let d ← vr f
  let w ← wf4 t.t
  let ef ← vEf t.t
  let rs ← vRs t.t
  let a ← vr w.a
  let b ← vr w.b
  let c ← vr w.c
  match vMn t.t with
  | 0 => do zero w.c; ifWf (.vadd ⟨w.g, d, a, b, ef, rs⟩)
  | 1 => do zero w.c; ifWf (.vsub ⟨w.g, d, a, b, ef, rs⟩)
  | 2 => do zero w.c; ifWf (.vmul ⟨w.g, d, a, b, ef, rs⟩)
  | 3 => ifWf (.vfma ⟨w.g, d, a, b, c, ef, rs⟩)
  | 4 => ifWf (.vfms ⟨w.g, d, a, b, c, ef, rs⟩)
  | 5 => do zero w.c; zero (fld t.t 5 3); ifWf (.vmin ⟨w.g, d, a, b, ef⟩)
  | 6 => do zero w.c; zero (fld t.t 5 3); ifWf (.vmax ⟨w.g, d, a, b, ef⟩)
  | 7 => do zero w.b; zero w.c; zero (fld t.t 5 3); ifWf (.vabs ⟨w.g, d, a, ef⟩)
  | 8 => do zero w.b; zero w.c; zero (fld t.t 5 3); ifWf (.vneg ⟨w.g, d, a, ef⟩)
  | 9 => do zero w.c; ifWf (.vdiv ⟨w.g, d, a, b, ef, rs⟩)
  | 10 => do zero w.b; zero w.c; ifWf (.vsqrt ⟨w.g, d, a, ef, rs⟩)
  | 11 => do zero w.b; zero w.c; zero (fld t.t 5 3); ifWf (.vrsqrt ⟨w.g, d, a, ef⟩)
  | 12 => do zero w.b; zero w.c; zero (fld t.t 5 3); ifWf (.vrcp ⟨w.g, d, a, ef⟩)
  | 13 => do zero w.b; zero w.c; zero (fld t.t 5 3); ifWf (.vexp2 ⟨w.g, d, a, ef⟩)
  | 14 => do zero w.b; zero w.c; zero (fld t.t 5 3); ifWf (.vlog2 ⟨w.g, d, a, ef⟩)
  | _ => .error .reservedMinor

/-- VCONV (spec 10 R200 to R204). -/
def decVConv (f : Nat) (t : Tail) : Dec Instr := do
  noE t
  let d ← vr f
  let w ← wf4 t.t
  let ef ← vEf t.t
  let rs ← vRs t.t
  let a ← vr w.a
  match vMn t.t with
  | 0 => do
      let st ← fmtOf w.c
      need (w.b ≤ 1) .badField
      ifWf (.vcvt ⟨w.g, d, a, ef, st, w.b = 1, rs⟩)
  | 1 => do
      let st ← fmtOf w.c
      let ty ← small 4 w.b
      ifWf (.vqnt ⟨w.g, d, a, ef, st, ty, rs⟩)
  | 2 => do
      let st ← fmtOf w.c
      let b ← vr w.b
      ifWf (.vdqnt ⟨w.g, d, a, b, ef, st, rs⟩)
  | 3 => do let b ← vr w.b; zero w.c; ifWf (.vwmul ⟨w.g, d, a, b, ef, rs⟩)
  | 4 => do let b ← vr w.b; zero w.c; ifWf (.vwadd ⟨w.g, d, a, b, ef, rs⟩)
  | 5 => do let b ← vr w.b; zero w.c; ifWf (.vdot4 ⟨w.g, d, a, b, ef, rs⟩)
  | _ => .error .reservedMinor

/-- VRED (spec 10 R205, R206). -/
def decVRed (f : Nat) (t : Tail) : Dec Instr := do
  noE t
  let d ← vr f
  let w ← wf4 t.t
  let ef ← vEf t.t
  let rs ← vRs t.t
  let a ← vr w.a
  zero w.b
  match vMn t.t with
  | 0 => do zero w.c; ifWf (.vreds ⟨w.g, d, a, ef, rs⟩)
  | 1 => do
      need (w.c ≤ 1) .badField
      zero (fld t.t 5 3)
      ifWf (.vredm ⟨w.g, d, a, ef, w.c = 1⟩)
  | 2 => do zero w.c; ifWf (.vscan ⟨w.g, d, a, ef, rs⟩)
  | _ => .error .reservedMinor

/-- VCMPSEL (spec 10 R207, R208). -/
def decVCmpSel (f : Nat) (t : Tail) : Dec Instr := do
  noE t
  let w ← wf4 t.t
  let ef ← vEf t.t
  zero (fld t.t 5 3)
  let a ← vr w.a
  let b ← vr w.b
  match vMn t.t with
  | 0 => do
      let d ← kp f
      let cc ← fcondOf w.c
      ifWf (.vcmp ⟨w.g, d, a, b, ef, cc⟩)
  | 1 => do
      let d ← vr f
      let k ← kr w.c
      ifWf (.vsel ⟨w.g, d, a, b, k, ef⟩)
  | _ => .error .reservedMinor

/-- VLOGIC (spec 10 R209, R210). -/
def decVLogic (f : Nat) (t : Tail) : Dec Instr := do
  fourOrE t
  let d ← vr f
  let w ← wf4 t.t
  let ef ← vEf t.t
  zero (fld t.t 5 3); zero w.c
  let a ← vr w.a
  if vMn t.t = 3 then do
    noE t; zero w.b
    ifWf (.vnot ⟨w.g, d, a, ef⟩)
  else do
    let b ← vregImm t w.b
    match vMn t.t with
    | 0 => ifWf (.vand ⟨w.g, d, a, b, ef⟩) | 1 => ifWf (.vor ⟨w.g, d, a, b, ef⟩)
    | 2 => ifWf (.vxor ⟨w.g, d, a, b, ef⟩) | 4 => ifWf (.vshl ⟨w.g, d, a, b, ef⟩)
    | 5 => ifWf (.vshr ⟨w.g, d, a, b, ef⟩) | 6 => ifWf (.vsra ⟨w.g, d, a, b, ef⟩)
    | _ => .error .reservedMinor

/-- VMOVE (Table 10-5, R212). -/
def decVMove (f : Nat) (t : Tail) : Dec Instr := do
  fourOrE t
  let w ← wf4 t.t
  let ef ← vEf t.t
  zero (fld t.t 5 3)
  match vMn t.t with
  | 0 => do
      let d ← vr f
      zero w.b; zero w.c
      ifWf (.viota ⟨w.g, d, xr w.a, ef, t.e.map (BitVec.ofNat 32)⟩)
  | 1 => do
      let d ← vr f
      zero w.b; zero w.c
      let a ← regImm t w.a
      ifWf (.vbcast ⟨w.g, d, a, ef⟩)
  | 2 => do
      let d ← vr f
      zero w.c
      let a ← vr w.a
      let b ← regImm t w.b
      ifWf (.vslide ⟨w.g, d, a, b, ef⟩)
  | 3 => do
      noE t
      let d ← vr f
      zero w.c
      let a ← vr w.a
      let b ← vr w.b
      ifWf (.vperm ⟨w.g, d, a, b, ef⟩)
  | 4 => do
      noE t
      let d ← vr f
      need (w.c ≤ 1) .badField
      let a ← vr w.a
      let b ← vr w.b
      ifWf (.vzip ⟨w.g, d, a, b, w.c = 1, ef⟩)
  | 5 => do
      noE t
      let d ← vr f
      need (w.c ≤ 1) .badField
      let a ← vr w.a
      let b ← vr w.b
      ifWf (.vunzip ⟨w.g, d, a, b, w.c = 1, ef⟩)
  | 6 => do
      need (w.c ≤ 1) .badField
      let j ← regImm t w.b
      if w.c = 0 then do
        let d ← dX f
        let a ← vr w.a
        ifWf (.vmovsGet ⟨w.g, d, a, j, ef⟩)
      else do
        let d ← vr f
        ifWf (.vmovsPut ⟨w.g, d, xr w.a, j, ef⟩)
  | _ => .error .reservedMinor

/-- VMISC (spec 10 R213 to R215). -/
def decVMisc (f : Nat) (t : Tail) : Dec Instr := do
  noE t
  let d ← vr f
  let w ← wf4 t.t
  let ef ← vEf t.t
  zero (fld t.t 5 3)
  match vMn t.t with
  | 0 => do
      need (w.g = .always) .badGuard
      need (w.c ≤ 1) .badField
      let a ← vr w.a
      let b ← vr w.b
      need (w.c = 1 || w.b = 0) .unusedField
      ifWf (.vtag ⟨d, a, b, w.c = 1, ef⟩)
  | 1 => do
      zero w.b; zero w.c
      let a ← vr w.a
      ifWf (.vclass ⟨w.g, d, a, ef⟩)
  | 2 => do
      zero w.a; zero w.b; zero w.c
      ifWf (.vrand ⟨w.g, d, ef⟩)
  | _ => .error .reservedMinor

/-- MATRIX (spec 11 Table 11-3). -/
def decMatrix (f : Nat) (t : Tail) : Dec Instr := do
  fourOrE t
  let w ← wf4 t.t
  zeroWSM t.t
  zero (wSc t.t); zero w.c
  match wMn t.t with
  | 0 => do
      let d ← dX f
      zero w.b
      let u ← durOf t w.a
      pure (.mlease ⟨w.g, d, u⟩)
  | 1 => do
      noE t
      let l ← if h : f < 8 then (.ok ⟨f, h⟩ : Dec (Fin 8)) else .error .badRegister
      zero w.b
      pure (.mlay ⟨w.g, l, xr w.a⟩)
  | 2 => do
      noE t
      let n ← if h : f < 8 then (.ok ⟨f, h⟩ : Dec (Fin 8)) else .error .badRegister
      zero w.a; zero w.b
      pure (.mzero ⟨w.g, n⟩)
  | 3 => do
      noE t
      let n ← if h : f < 8 then (.ok ⟨f, h⟩ : Dec (Fin 8)) else .error .badRegister
      zero w.a; zero w.b
      pure (.mma ⟨w.g, n⟩)
  | 4 => do
      noE t
      let n ← if h : f < 8 then (.ok ⟨f, h⟩ : Dec (Fin 8)) else .error .badRegister
      pure (.mdrain ⟨w.g, n, xr w.a, xr w.b⟩)
  | 5 => do
      noE t
      let d ← dX f
      match w.b with
      | 0 => do
          let l ← if h : w.a < 8 then (.ok ⟨w.a, h⟩ : Dec (Fin 8)) else .error .badRegister
          pure (.mstat ⟨w.g, d, .layout l⟩)
      | 1 => do
          let l ← if h : w.a < 8 then (.ok ⟨w.a, h⟩ : Dec (Fin 8)) else .error .badRegister
          pure (.mstat ⟨w.g, d, .accSet l⟩)
      | 2 => do zero w.a; pure (.mstat ⟨w.g, d, .arr⟩)
      | _ => .error .badField
  | _ => .error .reservedMinor

/-- COPY (spec 11 Table 11-7; 17 R358): wd is the destination space, md the source space, sg the engine. -/
def decCopy (f : Nat) (t : Tail) : Dec Instr := do
  fourOrE t
  let w ← wf4 t.t
  zero (wSc t.t)
  match wMn t.t with
  | 0 => do
      zero f
      let eng : Fin 2 := ⟨wSg t.t % 2, Nat.mod_lt _ (by decide)⟩
      need (wMd t.t ≤ 3) .badField
      if wWd t.t = 3 then do
        need (wMd t.t = 0) .badField
        noE t
        pure (.cxferPack ⟨w.g, xr w.a, xr w.b, xr w.c, eng⟩)
      else do
        let n ← regImm t w.c
        if wMd t.t = 3 then do
          zero (wWd t.t)
          pure (.cxferFpack ⟨w.g, xr w.a, xr w.b, n, eng⟩)
        else do
          let dst ← spaceOf (wWd t.t)
          let src ← spaceOf (wMd t.t)
          pure (.cxfer ⟨w.g, xr w.a, xr w.b, n, dst, src, eng⟩)
  | 1 => do
      zeroWSM t.t
      zero f; zero w.b; zero w.c
      let n ← regImm t w.a
      pure (.cfeed ⟨w.g, n⟩)
  | 2 => do
      zeroWSM t.t
      noE t
      let d ← dX f
      zero w.a; zero w.c
      let e ← small 2 w.b
      pure (.cpop ⟨w.g, d, e⟩)
  | 3 => do
      zeroWSM t.t
      noE t
      let d ← dX f
      zero w.a; zero w.c
      let e ← small 2 w.b
      pure (.cstat ⟨w.g, d, e⟩)
  | _ => .error .reservedMinor

/-- The instruction of a head and a tail (R41, R47, R52): the opcode map. -/
def decode (head tail : Nat) : Dec Instr :=
  let f := fld head 0 6
  let t := Tail.ofNat (fld head 14 2) tail
  match fld head 6 7 with
  | 0x00 => decMisc f t | 0x01 => decAlu f t | 0x02 => decMulDiv f t | 0x03 => decUnary f t
  | 0x04 => decBitf f t | 0x05 => decAluI f t | 0x06 => decImm f t | 0x07 => decCmp f t
  | 0x08 => decCmpI f t | 0x09 => decPred f t | 0x0A => decFpa f t | 0x0B => decFpb f t
  | 0x10 => decLd f t | 0x11 => decSt f t | 0x12 => decLdaq f t | 0x13 => decStrl f t
  | 0x14 => decVMem true f t | 0x15 => decVMem false f t | 0x16 => decAtom f t
  | 0x17 => decAtomx f t | 0x18 => decTime f t | 0x19 => decWait f t | 0x1A => decFence f t
  | 0x1B => decPref f t | 0x20 => decBr f t | 0x21 => decCall f t | 0x22 => decLoop f t
  | 0x23 => decJmp f t | 0x24 => decJr f t | 0x28 => decLease f t | 0x29 => decBarr f t
  | 0x2A => decPath f t | 0x2B => decJournal f t | 0x2C => decBund f t | 0x2D => decMcs f t
  | 0x2E => decTag f t | 0x30 => decSched f t | 0x38 => decSys f t | 0x40 => decVArith f t
  | 0x41 => decVConv f t | 0x42 => decVRed f t | 0x43 => decVCmpSel f t | 0x44 => decVLogic f t
  | 0x45 => decVMove f t | 0x46 => decVMisc f t | 0x50 => decMatrix f t | 0x51 => decCopy f t
  | _ => .error .reservedMajor

/-! ### The encoder -/

/-- Bytes of a tail by its length code (R41). -/
def tailBytes : Nat → Nat
  | 0 => 0 | 1 => 2 | 2 => 4 | _ => 8

/-- The words of a head: its 16 bits, the tail's length in bytes and the tail's value. -/
structure Words where
  head : Nat
  len : Nat
  tail : Nat
  deriving DecidableEq, Repr

/-- g (R46). -/
def Guard.code : Guard → Nat
  | .k n => n.val
  | .always => 12
/-- wd. -/
def Width.code : Width → Nat
  | .b => 0 | .h => 1 | .w => 2 | .d => 3
/-- sg. -/
def Sign.code : Sign → Nat
  | .sx => 0 | .zx => 1
/-- wd of a scalar floating-point type. -/
def FType.wd : FType → Nat
  | .f16 | .bf16 => 1 | .f32 => 2 | .f64 => 3
/-- sg of a scalar floating-point type. -/
def FType.sg : FType → Nat
  | .bf16 => 1 | _ => 0
/-- sp. -/
def Space.code : Space → Nat
  | .glob => 0 | .nich => 1 | .gall => 2
/-- sc. -/
def Scope.code : Scope → Nat
  | .slot => 0 | .core => 1 | .clus => 2 | .die => 3 | .mod => 4 | .peer => 5 | .domn => 6 | .sys => 7
/-- od. -/
def Order.code : Order → Nat
  | .rlx => 0 | .acq => 1 | .rel => 2 | .acr => 3
/-- rs. -/
def Rs.code : Rs → Nat
  | .fm => 0 | .rne => 1 | .rtz => 2 | .rup => 3 | .rdn => 4 | .rna => 5 | .sr => 6
/-- Tag codes (Table 9-4). -/
def Fmt.code : Fmt → Nat
  | .none => 0x00 | .s8 => 0x01 | .s16 => 0x02 | .s32 => 0x03 | .s64 => 0x04 | .n8 => 0x05
  | .n16 => 0x06 | .n32 => 0x07 | .n64 => 0x08 | .f64 => 0x09 | .f32 => 0x0A | .f16 => 0x0B
  | .bf16 => 0x0C | .e4m3 => 0x0D | .e5m2 => 0x0E | .e3m2 => 0x0F | .e2m3 => 0x10 | .e8m0 => 0x11
  | .sv4 => 0x12
/-- Compare conditions. -/
def Cond.code : Cond → Nat
  | .eq => 0 | .ne => 1 | .lt => 2 | .le => 3 | .gt => 4 | .ge => 5
/-- FCMP's conditions. -/
def FCond.code : FCond → Nat
  | .eq => 0 | .ne => 1 | .lt => 2 | .le => 3 | .gt => 4 | .ge => 5 | .uno => 6 | .ord => 7
/-- FCVT's type codes. -/
def CvtTy.code : CvtTy → Nat
  | .f16 => 0 | .bf16 => 1 | .f32 => 2 | .f64 => 3 | .s32 => 4 | .n32 => 5 | .s64 => 6 | .n64 => 7
/-- The operations of ATOM. -/
def AtomFn.code : AtomFn → Nat
  | .add => 0 | .and => 1 | .or => 2 | .xor => 3 | .min => 4 | .max => 5 | .minu => 6 | .maxu => 7
  | .xchg => 8 | .cas => 9 | .fadd => 10
/-- RDID's selectors. -/
def IdSel.code : IdSel → Nat
  | .slot => 0 | .ccl => 1 | .core => 2 | .clus => 3 | .cidx => 4 | .csize => 5 | .bidx => 6
  | .bsize => 7 | .px => 8 | .py => 9 | .pz => 10 | .modl => 11 | .tent => 12
/-- A fence's order. -/
def FenceOd.code : FenceOd → Nat
  | .acq => 1 | .rel => 2 | .acr => 3
/-- System registers' numbers. -/
def SysReg.code : SysReg → Nat
  | .status => 0x00 | .cause => 0x01 | .epc => 0x02 | .eval => 0x03 | .handler => 0x04
  | .fmode => 0x05 | .fflags => 0x06 | .slotcfg => 0x07 | .jhead => 0x08 | .anchor => 0x09
  | .lstat => 0x0A | .srseed => 0x0B | .srctr => 0x0C | .view => 0x0D | .cflags => 0x10
  | .hkey => 0x11 | .ctxtb => 0x12 | .tentb => 0x13 | .pstop => 0x14 | .pgo => 0x15
  | .rootcap => 0x16 | .gstat n => 0x20 + n.val

/-- A head with no tail. -/
def wZ (major f : Nat) : Words := ⟨major * 64 + f, 0, 0⟩
/-- A head with a two-byte tail (format H). -/
def wH (major f : Nat) (g : Guard) (a b mn : Nat) : Words :=
  ⟨0x4000 + major * 64 + f, 2, g.code * 2 ^ 12 + a * 2 ^ 7 + b * 2 ^ 2 + mn⟩
/-- A four-byte tail, or an eight-byte one over it (format E). -/
def w4 (major f t : Nat) (e : Option Nat) : Words :=
  match e with
  | none => ⟨0x8000 + major * 64 + f, 4, t⟩
  | some n => ⟨0xC000 + major * 64 + f, 8, t * 2 ^ 32 + n⟩
/-- The layout of format W. -/
def tW (g : Guard) (a b c wd sg mn sc md : Nat) : Nat :=
  g.code * 2 ^ 28 + a * 2 ^ 23 + b * 2 ^ 18 + c * 2 ^ 13 + wd * 2 ^ 11 + sg * 2 ^ 10 + mn * 2 ^ 6
  + sc * 2 ^ 3 + md
/-- The layout of format I. -/
def tI (g : Guard) (a wd sg mn imm : Nat) : Nat :=
  g.code * 2 ^ 28 + a * 2 ^ 23 + wd * 2 ^ 21 + sg * 2 ^ 20 + mn * 2 ^ 16 + imm
/-- The layout of format M. -/
def tM (g : Guard) (a wd sg sp sc od off : Nat) : Nat :=
  g.code * 2 ^ 28 + a * 2 ^ 23 + wd * 2 ^ 21 + sg * 2 ^ 20 + sp * 2 ^ 18 + sc * 2 ^ 15 + od * 2 ^ 12
  + off
/-- The layout of format VM. -/
def tVM (g : Guard) (a b ef sp sc od mn : Nat) : Nat :=
  g.code * 2 ^ 28 + a * 2 ^ 23 + b * 2 ^ 18 + ef * 2 ^ 13 + sp * 2 ^ 11 + sc * 2 ^ 8 + od * 2 ^ 5 + mn
/-- The layout of format V. -/
def tV (g : Guard) (a b c ef rs mn : Nat) : Nat :=
  g.code * 2 ^ 28 + a * 2 ^ 23 + b * 2 ^ 18 + c * 2 ^ 13 + ef * 2 ^ 8 + rs * 2 ^ 5 + mn

/-- A 32-bit value that a signed field of `n` bits holds. -/
def fitsS (n : Nat) (v : BitVec 32) : Bool := (v.truncate n).signExtend 32 = v

/-- The words of a form of format M with its offset: E where off12 cannot hold it. -/
def wM (major f : Nat) (g : Guard) (a wd sg sp sc od : Nat) (off : BitVec 32) : Words :=
  if fitsS 12 off then w4 major f (tM g a wd sg sp sc od (off.truncate 12).toNat) none
  else w4 major f (tM g a wd sg sp sc od 0) (some off.toNat)

/-- An offset that only format E can give: absent when it is zero. -/
def eOpt (off : BitVec 32) : Option Nat := if off = 0 then none else some off.toNat

/-- The field of an operand that imm32 may replace. -/
def RegImm.fld : RegImm → Nat
  | .reg r => r.val | .imm _ => 0
/-- imm32 of such an operand. -/
def RegImm.ext : RegImm → Option Nat
  | .reg _ => none | .imm n => some n.toNat
/-- The field of a duration operand. -/
def Dur.fld : Dur → Nat
  | .reg r => r.val | .imm _ => 0
/-- imm32 of a duration operand. -/
def Dur.ext : Dur → Option Nat
  | .reg _ => none | .imm n => some n.toNat
/-- The field of a vector operand that imm32 may replace. -/
def VRegImm.fld : VRegImm → Nat
  | .reg r => r.val | .imm _ => 0
/-- imm32 of such an operand. -/
def VRegImm.ext : VRegImm → Option Nat
  | .reg _ => none | .imm n => some n.toNat

/-- An integer register form. -/
def wRRR (major mn : Nat) (o : RRR) : Words :=
  w4 major o.d.val (tW o.g o.a.val o.b.val 0 o.w.code 0 mn 0 0) none
/-- A two-source floating-point form. -/
def wFRRR (mn : Nat) (o : FRRR) : Words :=
  w4 0x0A o.d.val (tW o.g o.a.val o.b.val 0 o.t.wd o.t.sg mn 0 o.rs.code) none
/-- An immediate shift. -/
def wShI (mn : Nat) (o : ShiftIOp) : Words :=
  w4 0x05 o.d.val (tI o.g o.a.val o.w.code 0 mn o.n.val) none
/-- A relative transfer: I where imm16 holds the delta. -/
def wRel (major : Nat) (g : Guard) (a : Nat) (delta : BitVec 27) (idx : Nat) : Words :=
  if (delta.truncate 11).signExtend 27 = delta then
    w4 major 0 (tI g a 0 0 0 ((delta.truncate 11).toNat * 32 + idx)) none
  else w4 major 0 (tI g a 0 0 0 0) (some (delta.toNat * 32 + idx))
/-- A form of 07, 12, 14 or 16 in format W. -/
def wW (major f mn : Nat) (g : Guard) (a b c sc : Nat) (e : Option Nat) : Words :=
  w4 major f (tW g a b c 0 0 mn sc 0) e
/-- A form of SYS. -/
def wSys (f mn : Nat) (g : Guard) (a wd imm : Nat) : Words := w4 0x38 f (tI g a wd 0 mn imm) none
/-- A vector memory form. -/
def wVM (major mn own : Nat) (o : VMemOp) : Words :=
  w4 major o.v.val
    (tVM o.g o.a.val o.b.val o.ef.code o.sp.code o.sc.code (if o.ord then own else 0) mn) (eOpt o.off)
/-- An indexed vector memory form. -/
def wVI (major mn own : Nat) (o : VIdxOp) : Words :=
  w4 major o.v.val
    (tVM o.g o.a.val o.b.val o.ef.code o.sp.code o.sc.code (if o.ord then own else 0) mn) (eOpt o.off)
/-- A two-source rounding vector form. -/
def wVVVr (major mn : Nat) (o : VVVr) : Words :=
  w4 major o.d.val (tV o.g o.a.val o.b.val 0 o.ef.code o.rs.code mn) none
/-- A two-source vector form. -/
def wVVV (major mn : Nat) (o : VVV) : Words :=
  w4 major o.d.val (tV o.g o.a.val o.b.val 0 o.ef.code 0 mn) none
/-- A one-source vector form. -/
def wVV (major mn : Nat) (o : VV) : Words :=
  w4 major o.d.val (tV o.g o.a.val 0 0 o.ef.code 0 mn) none
/-- A one-source rounding vector form. -/
def wVVr (major mn : Nat) (o : VVr) : Words :=
  w4 major o.d.val (tV o.g o.a.val 0 0 o.ef.code o.rs.code mn) none
/-- VFMA and VFMS. -/
def wVFma (mn : Nat) (o : VFmaOp) : Words :=
  w4 0x40 o.d.val (tV o.g o.a.val o.b.val o.c.val o.ef.code o.rs.code mn) none
/-- Logic and shifts. -/
def wVLog (mn : Nat) (o : VLogOp) : Words :=
  w4 0x44 o.d.val (tV o.g o.a.val o.b.fld 0 o.ef.code 0 mn) o.b.ext

/-- The words of a head, its pair bit clear and its tail canonical (R59); none for a step that no head
issues. Used on well-formed instructions. -/
def encode : Instr → Option Words
  | .nop => some (wZ 0 0) | .exit => some (wZ 0 1) | .ret => some (wZ 0 2) | .cbar => some (wZ 0 3)
  | .tret => some (wZ 0 4) | .halt => some (wZ 0 5)
  | .nopGuarded o => some (wH 0 0 o.g 0 0 0) | .exitGuarded o => some (wH 0 1 o.g 0 0 0)
  | .retGuarded o => some (wH 0 2 o.g 0 0 0) | .cbarGuarded o => some (wH 0 3 o.g 0 0 0)
  | .tretGuarded o => some (wH 0 4 o.g 0 0 0) | .haltGuarded o => some (wH 0 5 o.g 0 0 0)
  | .add o => some (wRRR 1 0 o) | .sub o => some (wRRR 1 1 o) | .and o => some (wRRR 1 2 o)
  | .or o => some (wRRR 1 3 o) | .xor o => some (wRRR 1 4 o) | .andn o => some (wRRR 1 5 o)
  | .shl o => some (wRRR 1 6 o) | .shr o => some (wRRR 1 7 o) | .sra o => some (wRRR 1 8 o)
  | .rot o => some (wRRR 1 9 o) | .min o => some (wRRR 1 10 o) | .max o => some (wRRR 1 11 o)
  | .minu o => some (wRRR 1 12 o) | .maxu o => some (wRRR 1 13 o)
  | .lea o => some (w4 1 o.d.val (tW o.g o.a.val o.b.val o.n.val 0 0 14 0 0) none)
  | .sel o => some (w4 1 o.d.val (tW o.g o.a.val o.b.val o.c.val 0 0 15 0 0) none)
  | .mul o => some (wRRR 2 0 o) | .mulh o => some (wRRR 2 1 o) | .mulhu o => some (wRRR 2 2 o)
  | .div o => some (wRRR 2 3 o) | .divu o => some (wRRR 2 4 o) | .rem o => some (wRRR 2 5 o)
  | .remu o => some (wRRR 2 6 o)
  | .clz o => some (w4 3 o.d.val (tW o.g o.a.val 0 0 o.w.code 0 0 0 0) none)
  | .ctz o => some (w4 3 o.d.val (tW o.g o.a.val 0 0 o.w.code 0 1 0 0) none)
  | .popc o => some (w4 3 o.d.val (tW o.g o.a.val 0 0 o.w.code 0 2 0 0) none)
  | .sext o => some (w4 3 o.d.val (tW o.g o.a.val 0 0 o.w.code o.s.code 3 0 0) none)
  | .mov o => some (w4 3 o.d.val (tW o.g o.a.val 0 0 0 0 4 0 0) none)
  | .ext o => some (w4 4 o.d.val
      (tI o.g o.a.val o.w.code o.s.code 0 ((o.n.val - 1) * 64 + o.p.val)) none)
  | .ins o => some (w4 4 o.d.val (tI o.g o.a.val o.w.code 0 1 ((o.n.val - 1) * 64 + o.p.val)) none)
  | .addi o => some (w4 5 o.d.val (tI o.g o.a.val o.w.code 0 0 o.imm.toNat) none)
  | .shlImm o => some (wShI 1 o) | .shrImm o => some (wShI 2 o) | .sraImm o => some (wShI 3 o)
  | .rotImm o => some (wShI 4 o)
  | .li o =>
      if (if o.s = .sx then fitsS 16 o.imm else o.imm.toNat < 65536) then
        some (w4 6 o.d.val (tI o.g 0 0 o.s.code 0 (o.imm.toNat % 65536)) none)
      else some (w4 6 o.d.val (tI o.g 0 0 o.s.code 0 0) (some o.imm.toNat))
  | .lih o => some (w4 6 o.d.val (tI o.g 0 0 0 1 0) (some o.imm.toNat))
  | .cmp o => some (w4 7 (2 * o.kd.val)
      (tW o.g o.a.val o.b.val 0 o.w.code o.s.code o.cc.code 0 0) none)
  | .cmpi o => some (w4 8 (2 * o.kd.val)
      (tI o.g o.a.val o.w.code o.s.code o.cc.code o.imm.toNat) none)
  | .pand o => some (w4 9 o.d.val (tW o.g o.a.val o.b.val 0 0 0 0 0 0) none)
  | .por o => some (w4 9 o.d.val (tW o.g o.a.val o.b.val 0 0 0 1 0 0) none)
  | .pxor o => some (w4 9 o.d.val (tW o.g o.a.val o.b.val 0 0 0 2 0 0) none)
  | .pnot o => some (w4 9 o.d.val (tW o.g o.a.val 0 0 0 0 3 0 0) none)
  | .pmov o => some (w4 9 o.d.val (tW o.g o.a.val 0 0 0 0 4 0 0) none)
  | .pany o => some (w4 9 o.d.val (tW o.g o.a.val 0 0 0 0 5 0 0) none)
  | .fadd o => some (wFRRR 0 o) | .fsub o => some (wFRRR 1 o) | .fmul o => some (wFRRR 2 o)
  | .fma o => some (w4 0x0A o.d.val
      (tW o.g o.a.val o.b.val o.c.val o.t.wd o.t.sg 3 0 o.rs.code) none)
  | .fdiv o => some (wFRRR 4 o)
  | .fsqrt o => some (w4 0x0A o.d.val (tW o.g o.a.val 0 0 o.t.wd o.t.sg 5 0 o.rs.code) none)
  | .fmin o => some (w4 0x0A o.d.val (tW o.g o.a.val o.b.val 0 o.t.wd o.t.sg 6 0 0) none)
  | .fmax o => some (w4 0x0A o.d.val (tW o.g o.a.val o.b.val 0 o.t.wd o.t.sg 7 0 0) none)
  | .fcmp o => some (w4 0x0B (2 * o.kd.val)
      (tW o.g o.a.val o.b.val o.cc.code o.t.wd o.t.sg 0 0 0) none)
  | .fcvt o => some (w4 0x0B o.d.val
      (tW o.g o.a.val o.dt.code o.st.code 0 0 1 0 o.rs.code) none)
  | .fclass o => some (w4 0x0B o.d.val (tW o.g o.a.val 0 0 o.t.wd o.t.sg 2 0 0) none)
  | .fmode o => some (w4 0x0B o.d.val (tW o.g o.a.val 0 0 0 0 3 0 0) none)
  | .fflags o => some (w4 0x0B o.d.val (tW o.g o.a.val 0 0 0 0 4 0 0) none)
  | .ld o => some (wM 0x10 o.d.val o.g o.a.val o.w.code o.s.code o.sp.code o.sc.code 0 o.off)
  | .st o => some (wM 0x11 o.d.val o.g o.a.val o.w.code 0 o.sp.code o.sc.code 0 o.off)
  | .ldaq o => some (wM 0x12 o.d.val o.g o.a.val o.w.code o.s.code 0 o.sc.code 1 o.off)
  | .strl o => some (wM 0x13 o.d.val o.g o.a.val o.w.code 0 0 o.sc.code 2 o.off)
  | .vld o => some (wVM 0x14 0 1 o) | .vlds o => some (wVM 0x14 1 1 o)
  | .vgth o => some (wVI 0x14 2 1 o) | .vst o => some (wVM 0x15 0 2 o)
  | .vsct o => some (wVI 0x15 1 2 o)
  | .atom o => some (w4 0x16 o.d.val (tW o.g o.a.val o.b.val o.c.val (if o.dw then 3 else 2) 0
      o.op.code o.sc.code o.od.code) (eOpt o.off))
  | .atomx o => some (w4 0x17 0
      (tW o.g o.a.val o.b.val 0 0 0 0 o.sc.code (if o.rel then 2 else 0)) none)
  | .rdt o => some (wH 0x18 o.d.val o.g 0 0 0)
  | .rdid o => some (wH 0x18 o.d.val o.g o.sel.code 0 1)
  | .doze o => some (wH 0x18 0 o.g o.a.val 0 2)
  | .qstat o => some (wH 0x18 o.d.val o.g o.q.val 0 3)
  | .wait o => some (w4 0x19 0 (tI o.g 0 0 0 0
      (o.l.toNat * 2 ^ 12 + o.s.toNat * 2 ^ 8 + o.c.toNat * 2 ^ 4 + o.m.toNat)) none)
  | .fence o => some (wZ 0x1A (o.sc.code * 8 + o.od.code))
  | .fenceGuarded o => some (wH 0x1A (o.sc.code * 8 + o.od.code) o.g 0 0 0)
  | .pref o => some (wM 0x1B (if o.grot then 1 else 0) o.g o.a.val 0 0 0 0 0 o.off)
  | .br o => some (wRel 0x20 o.g 0 o.delta o.idx.val)
  | .call o => some (wRel 0x21 o.g 0 o.delta o.idx.val)
  | .loop o => some (wRel 0x22 o.g o.a.val o.delta o.idx.val)
  | .jmp o => some (w4 0x23 o.d.val (tI o.g o.a.val 0 0 0 o.imm.toNat) none)
  | .jr o => some (wH 0x24 0 o.g o.a.val 0 0)
  | .lrenew o => some (wW 0x28 o.d.val 0 o.g o.a.val o.dur.fld 0 0 o.dur.ext)
  | .llife o => some (wW 0x28 o.d.val 1 o.g o.a.val 0 0 0 none)
  | .ltether o => some (wW 0x28 o.d.val 2 o.g o.a.val o.b.val 0 0 none)
  | .linfo o => some (wW 0x28 o.d.val 3 o.g o.a.val (b2n o.rec1) 0 0 none)
  | .lock o => some (wW 0x28 o.d.val 4 o.g o.a.val o.b.val o.c.val o.sc.code none)
  | .lheld o => some (wW 0x28 o.d.val 5 o.g o.a.val 0 0 0 none)
  | .binit o => some (wW 0x29 o.d.val 0 o.g o.a.val o.dur.fld 0 0 o.dur.ext)
  | .barv o => some (wW 0x29 o.d.val 1 o.g o.a.val 0 0 o.sc.code none)
  | .badd o => some (wW 0x29 o.d.val 2 o.g o.a.val o.n.fld 0 o.sc.code o.n.ext)
  | .bwait o => some (wW 0x29 o.d.val 3 o.g o.a.val o.b.val 0 o.sc.code none)
  | .popen o => some (wW 0x2A o.d.val 0 o.g o.a.val o.b.val 0 0 none)
  | .psend o => some (wW 0x2A 0 1 o.g o.a.val o.b.val o.c.fld 0 o.c.ext)
  | .gate o => some (wW 0x2A o.d.val 2 o.g o.a.val o.b.val o.c.val 0 none)
  | .alloc o => some (wW 0x2A o.d.val 3 o.g o.a.val 0 0 0 none)
  | .jrnl o => some (wW 0x2B o.d.val 0 o.g o.a.val o.w.val 0 0 none)
  | .jack o => some (wW 0x2B 0 1 o.g o.a.val 0 0 0 none)
  | .bopen o => some (wW 0x2C o.d.val 0 o.g o.a.val o.b.fld 0 0 o.b.ext)
  | .bst o => some (wW 0x2C 0 1 o.g o.a.val o.b.val o.c.val 0 (eOpt o.off))
  | .bstVector o => some (w4 0x2C 0
      (tW o.g o.a.val o.b.val o.v.val o.size.code 1 1 0 0) (eOpt o.off))
  | .bseal o => some (wW 0x2C o.d.val 2 o.g o.a.val 0 0 0 none)
  | .bview o => some (wW 0x2C o.d.val 3 o.g o.a.val 0 0 0 none)
  | .bld o => some (wW 0x2C o.d.val 4 o.g o.a.val (2 * o.kp.val) 0 0 (eOpt o.off))
  | .bchk o => some (wW 0x2C o.d.val 5 o.g o.a.val o.b.fld 0 0 o.b.ext)
  | .mcsld o => some (wW 0x2D o.d.val 0 o.g o.a.val 0 0 0 none)
  | .mcsst o => some (wW 0x2D 0 1 o.g o.a.val o.b.val 0 0 none)
  | .mcsstCommit o => some (wW 0x2D o.d.val 1 o.g o.a.val o.b.val 0 0 none)
  | .tagst o => some (wW 0x2E 0 0 o.g o.a.val o.b.val 0 0 none)
  | .tagld o => some (wW 0x2E o.d.val 1 o.g o.a.val 0 0 0 none)
  | .launch o => some (wW 0x30 o.d.val 0 o.g o.a.val 0 0 0 none)
  | .point o => some (wW 0x30 o.d.val 1 o.g o.a.val o.b.val 0 0 none)
  | .done o => some (wW 0x30 0 2 o.g 0 0 0 0 none)
  | .frrd o => some (wW 0x30 o.d.val 3 o.g o.a.val o.b.fld 0 0 o.b.ext)
  | .amsg o => some (wW 0x30 o.d.val 4 o.g o.a.val o.b.val o.c.val 0 none)
  | .trap o => some (wSys 0 0 o.g o.a.val 0 o.n.toNat)
  | .srd o => some (wSys o.d.val 1 o.g 0 0 o.reg.code)
  | .swr o => some (wSys 0 2 o.g o.a.val 0 o.reg.code)
  | .pstop o => some (wSys 0 2 o.g o.a.val 0 0x14)
  | .pgo o => some (wSys 0 2 o.g o.a.val 0 0x15)
  | .tlbi o => some (wSys o.d.val 3 o.g o.a.val
      (match o.op with | .va => 0 | .ctx => 1 | .tent => 2 | .all => 3) o.n.toNat)
  | .wakeRec o => some (wSys o.d.val 4 o.g o.a.val 0 0)
  | .wakeFail o => some (wSys o.d.val 4 o.g o.a.val 1 0)
  | .wakeSlot o => some (wSys o.d.val 4 o.g o.a.val 2 0)
  | .wakeStop o => some (wSys o.d.val 4 o.g o.a.val 3 0)
  | .ctxsv o => some (wSys o.d.val 5 o.g o.a.val 0 o.n.val)
  | .ctxld o => some (wSys o.d.val 6 o.g o.a.val 0 o.n.val)
  | .vadd o => some (wVVVr 0x40 0 o) | .vsub o => some (wVVVr 0x40 1 o)
  | .vmul o => some (wVVVr 0x40 2 o) | .vfma o => some (wVFma 3 o) | .vfms o => some (wVFma 4 o)
  | .vmin o => some (wVVV 0x40 5 o) | .vmax o => some (wVVV 0x40 6 o)
  | .vabs o => some (wVV 0x40 7 o) | .vneg o => some (wVV 0x40 8 o)
  | .vdiv o => some (wVVVr 0x40 9 o) | .vsqrt o => some (wVVr 0x40 10 o)
  | .vrsqrt o => some (wVV 0x40 11 o) | .vrcp o => some (wVV 0x40 12 o)
  | .vexp2 o => some (wVV 0x40 13 o) | .vlog2 o => some (wVV 0x40 14 o)
  | .vcvt o => some (w4 0x41 o.d.val
      (tV o.g o.a.val (b2n o.sat) o.st.code o.dt.code o.rs.code 0) none)
  | .vqnt o => some (w4 0x41 o.d.val
      (tV o.g o.a.val o.ty.val o.st.code o.dt.code o.rs.code 1) none)
  | .vdqnt o => some (w4 0x41 o.d.val
      (tV o.g o.a.val o.b.val o.st.code o.dt.code o.rs.code 2) none)
  | .vwmul o => some (wVVVr 0x41 3 o) | .vwadd o => some (wVVVr 0x41 4 o)
  | .vdot4 o => some (wVVVr 0x41 5 o)
  | .vreds o => some (wVVr 0x42 0 o)
  | .vredm o => some (w4 0x42 o.d.val (tV o.g o.a.val 0 (b2n o.min) o.ef.code 0 1) none)
  | .vscan o => some (wVVr 0x42 2 o)
  | .vcmp o => some (w4 0x43 (2 * o.kd.val)
      (tV o.g o.a.val o.b.val o.cc.code o.ef.code 0 0) none)
  | .vsel o => some (w4 0x43 o.d.val (tV o.g o.a.val o.b.val o.k.val o.ef.code 0 1) none)
  | .vand o => some (wVLog 0 o) | .vor o => some (wVLog 1 o) | .vxor o => some (wVLog 2 o)
  | .vnot o => some (wVV 0x44 3 o)
  | .vshl o => some (wVLog 4 o) | .vshr o => some (wVLog 5 o) | .vsra o => some (wVLog 6 o)
  | .viota o => some (w4 0x45 o.d.val (tV o.g o.a.val 0 0 o.ef.code 0 0) (o.step.map BitVec.toNat))
  | .vbcast o => some (w4 0x45 o.d.val (tV o.g o.a.fld 0 0 o.ef.code 0 1) o.a.ext)
  | .vslide o => some (w4 0x45 o.d.val (tV o.g o.a.val o.b.fld 0 o.ef.code 0 2) o.b.ext)
  | .vperm o => some (wVVV 0x45 3 o)
  | .vzip o => some (w4 0x45 o.d.val (tV o.g o.a.val o.b.val (b2n o.h) o.ef.code 0 4) none)
  | .vunzip o => some (w4 0x45 o.d.val (tV o.g o.a.val o.b.val (b2n o.h) o.ef.code 0 5) none)
  | .vmovsGet o => some (w4 0x45 o.d.val (tV o.g o.a.val o.j.fld 0 o.ef.code 0 6) o.j.ext)
  | .vmovsPut o => some (w4 0x45 o.d.val (tV o.g o.a.val o.j.fld 1 o.ef.code 0 6) o.j.ext)
  | .vtag o => some (w4 0x46 o.d.val
      (tV .always o.a.val o.b.val (b2n o.scl) o.ef.code 0 0) none)
  | .vclass o => some (wVV 0x46 1 o)
  | .vrand o => some (w4 0x46 o.d.val (tV o.g 0 0 0 o.ef.code 0 2) none)
  | .mlease o => some (wW 0x50 o.d.val 0 o.g o.dur.fld 0 0 0 o.dur.ext)
  | .mlay o => some (wW 0x50 o.l.val 1 o.g o.a.val 0 0 0 none)
  | .mzero o => some (wW 0x50 o.n.val 2 o.g 0 0 0 0 none)
  | .mma o => some (wW 0x50 o.n.val 3 o.g 0 0 0 0 none)
  | .mdrain o => some (wW 0x50 o.n.val 4 o.g o.a.val o.b.val 0 0 none)
  | .mstat o => some (match o.sel with
      | .layout n => wW 0x50 o.d.val 5 o.g n.val 0 0 0 none
      | .accSet n => wW 0x50 o.d.val 5 o.g n.val 1 0 0 none
      | .arr => wW 0x50 o.d.val 5 o.g 0 2 0 0 none)
  | .cxfer o => some (w4 0x51 0
      (tW o.g o.a.val o.b.val o.n.fld o.dst.code o.eng.val 0 0 o.src.code) o.n.ext)
  | .cxferPack o => some (w4 0x51 0 (tW o.g o.a.val o.b.val o.c.val 3 o.eng.val 0 0 0) none)
  | .cxferFpack o => some (w4 0x51 0 (tW o.g o.a.val o.b.val o.n.fld 0 o.eng.val 0 0 3) o.n.ext)
  | .cfeed o => some (wW 0x51 0 1 o.g o.w.fld 0 0 0 o.w.ext)
  | .cpop o => some (wW 0x51 o.d.val 2 o.g 0 o.e.val 0 0 none)
  | .cstat o => some (wW 0x51 o.d.val 3 o.g 0 o.e.val 0 0 none)
  | .loadDataArrival .. | .replyArrival .. | .errorReply .. | .acknowledgement ..
  | .refusalAcknowledgement .. | .storeBufferDrain .. | .commitPoint .. | .loadService ..
  | .storePerform .. | .atomicService .. | .atomxService .. | .readLeaseExpiry ..
  | .codeFetchArrival .. | .writeLeaseLapse .. | .permissionLeaseRenewal ..
  | .writeBackRequest .. | .guardCopyUpdate .. | .rootConsultation .. | .consultationAnswer ..
  | .leaseExpiry .. | .lockDeadline .. | .renewalArrival .. | .lifeInquiryArrival ..
  | .tetherArrival .. | .infoArrival .. | .lockRequestArrival .. | .lockInquiryArrival ..
  | .barrierGrant .. | .barrierArrival .. | .byteAddArrival .. | .barrierWaitArrival ..
  | .exitNotice .. | .beat .. | .pathGrant .. | .pathWordArrival .. | .exact .. | .heat ..
  | .log .. | .root .. | .time .. | .tenant .. | .context .. | .grant ..
  | .allocRequestArrival .. | .allocGrant .. | .allocDeadline .. | .bundleOpenArrival ..
  | .bundleStoreArrival .. | .join .. | .doom .. | .sealArrival .. | .sealNotice ..
  | .companionCheckArrival .. | .companionReport .. | .mcsDecision .. | .queueDeadlock ..
  | .dozeExpiry .. | .wakeMessage .. | .walkEnd .. | .faultRecordWrite .. | .swapDecision ..
  | .swapSave .. | .blockAdmission .. | .priorityAging .. | .doneArrival .. | .launchArrival ..
  | .afterRelease .. | .pointQueryArrival .. | .frontierReadArrival .. | .amsgArrival ..
  | .leaveRequest .. | .leaveGrant | .suspendMessage .. | .preemptionStop .. | .resumption ..
  | .containment .. | .rectangleReturn .. | .arrayRequestArrival .. | .arrayGrant ..
  | .commandAccept .. | .commandRetire .. | .streamUnitLand .. | .giveUp .. | .report ..
  | .engineAccept .. | .engineCompletion .. | .promiseMissed .. | .arm .. | .keepalive ..
  | .collectiveRequest .. | .memberFailure .. | .linkFailure .. | .moduleFailed ..
  | .agentRejoin .. | .timeSync .. | .domainJoin .. | .prq .. | .pageResponse .. | .hostAccess ..
  | .backInvalidate .. | .hostSnoop .. | .moduleReset | .bootStage .. | .serviceContextCreation
  | .attestation .. | .agentFailure .. | .bundleConsultation .. | .enginePiece .. | .softError ..
  | .clusterGating ..
    => none

/-! ### The table's words -/

/-- The instruction of a table word of `nbits` bits: the table gives a row with no tail 16 bits, its
head, and a row with a two-byte tail 32 bits, the head in the high half and the tail in the low one.
A longer tail takes the bits below the head in the same way. -/
def tableHead (nbits w : Nat) : Nat := if nbits ≤ 16 then w % 65536 else w / 2 ^ (nbits - 16) % 65536

/-- The tail of a table word. -/
def tableTail (nbits w : Nat) : Nat := if nbits ≤ 16 then 0 else w % 2 ^ (nbits - 16)

/-- What the decoder reads from a table word. -/
def decodeTableWord (nbits w : Nat) : Option Instr :=
  match decode (tableHead nbits w) (tableTail nbits w) with
  | .ok i => some i
  | .error _ => none

end Sys2Proof
end

