-- ==== Sys2Proof/Machine/Units.lean ====
section
/-!
DEFINITION. The parts that State.lean puts together: memory, a thread slot's state (spec 02 Table 2-2), a
core's (Table 2-3), a cluster's (Table 2-4, 11 Table 11-1), the leases (06 Table 6-2), the launches and
blocks (15, 16), the messages between agents, and the module's own units (17, 18). All of it is plain
data. What the model adds to the spec's state is marked "the model's own".
-/
namespace Sys2Proof.Machine
open Sys2Proof

/-! ### Maps by number -/

/-- The value under key `k`, or `d`. -/
def look {α : Type} (d : α) (k : Nat) : List (Nat × α) → α
  | [] => d
  | (j, v) :: m => if j = k then v else look d k m

/-- The map with `v` under key `k`. -/
def put {α : Type} (k : Nat) (v : α) : List (Nat × α) → List (Nat × α)
  | [] => [(k, v)]
  | (j, w) :: m => if j = k then (k, v) :: m else (j, w) :: put k v m

/-! ### Memory -/

/-- Memory: address and byte pairs, addresses rising, no byte equal to what an unlisted address reads as.
An address is a physical place: the aperture, peer or on-die space in the high part (see `apKey`,
`nicheKey`, `gallKey`) and the byte offset below 2^52. -/
structure Memory where
  cells : List Host.Cell
  deriving DecidableEq, Repr

/-- What an unlisted byte reads as: 0 (niche and gallery parts by R256 and R257; DRAM as the model's
choice). -/
def Memory.dflt : Byte := 0

/-! ### A thread -/

/-- A vector register with its format tag and scale file (R174, R176). -/
structure VReg where
  bits : BitVec 4096
  tag : Fmt
  sx : BitVec 256
  deriving DecidableEq, Repr

/-- NONE with all bits zero (R174). -/
def VReg.zero : VReg := ⟨0, .none, 0⟩

/-- What keeps a thread out of the rotation beyond its next instruction (Table 2-6; WST of Table 17-14). -/
inductive Wst where
  | ready
  /-- WAIT with its four bounds and its own address. -/
  | wait (l s c m : BitVec 4) (head : Word)
  /-- CBAR; `arrived` once its L count was 0 and it arrived at the unit. -/
  | cbar (arrived : Bool)
  /-- BWAIT, until its reply. -/
  | bwait
  /-- DOZE until the stamp. -/
  | doze (stamp : Word)
  /-- Parked on a fault record. -/
  | parked (rid : Nat)
  /-- Halted. -/
  | halted
  deriving DecidableEq, Repr

/-- Where a thread is. -/
inductive Place where
  | slot (core slot : Nat)
  /-- Swapped out; its image stands at a place of stowage or a save area. -/
  | saved
  deriving DecidableEq, Repr

/-- A trap that waits for the slot's next issue: an error reply (R84) or a report (R224). -/
structure PendTrap where
  cause : Nat
  value : Word
  deriving DecidableEq, Repr

/-- Where a value that has been read goes: an x register, bits from `lo` on of a lane of `w` bits, or a
scale byte. -/
inductive Dest where
  | x (r : Reg)
  | lane (v : VR) (i w lo : Nat)
  | scale (v : VR) (j : Nat)
  deriving DecidableEq, Repr

/-- An operation of a thread that L or S counts, while part of it is outstanding. -/
structure Outst where
  op : Nat
  tid : Nat
  /-- Pieces still out. -/
  left : Nat
  /-- L (else S). -/
  isL : Bool
  px : Option Reg
  pv : Option VR
  pk : Option KP
  /-- The tag a vector destination takes. -/
  fmt : Fmt
  /-- What has arrived, until the last piece has (R278). -/
  vals : List (Dest × Nat)
  /-- The first refusal in lane order: its rank, cause and address. -/
  err : Option (Nat × Nat × Word)
  /-- It holds a miss register of its own (Table 2-3); a global load shares one by line (R260). -/
  own : Bool
  /-- The bundle of a BST (R248). -/
  bun : Option Word
  deriving DecidableEq, Repr

/-- The registers of a thread, as an instruction of a bundle reads them (R45). -/
structure Regs where
  x : Vector Word 32
  v : Vector VReg 16
  k : Vector (BitVec 1024) 12
  deriving DecidableEq, Repr

/-- A thread (Table 2-2; Table 17-12; Table 17-14). -/
structure Thread where
  regs : Regs
  pc : Word
  /-- FMODE.MODE (Table 4-5). -/
  fmode : BitVec 3
  /-- NV, DZ, OF, UF, NX (Table 4-6). -/
  fflags : BitVec 5
  cL : Nat
  cS : Nat
  cC : Nat
  cM : Nat
  pendX : BitVec 32
  pendV : BitVec 16
  pendK : BitVec 12
  slotcfg : Word
  status : Word
  cause : Word
  epc : Word
  eval : Word
  handler : Word
  anchor : Word
  lstat : Word
  srseed : BitVec 32
  srctr : BitVec 32
  view : Word
  /-- Lost refusals (R121). -/
  lost : Nat
  wst : Wst
  /-- Stopped by WAKE `.stop` or by a pre-emption stamp. -/
  stopped : Bool
  preempted : Bool
  /-- The thread issued EXIT and waits for its stores (R332). -/
  exited : Bool
  /-- First drip the thread may issue in: a barrier's release (R20), a wake's (R20), and the end of a
  gallery access (R258). -/
  notBefore : Nat
  /-- Since when it has been queue-blocked without a break (R35). -/
  qblk : Option Nat
  /-- Error replies and reports not yet taken, in arrival order. -/
  traps : List PendTrap
  /-- No access issues before these operations have their value or reply: acquires, LOCK, BWAIT (R139, R145, R269). -/
  acq : List Nat
  /-- Operations numbered below these were issued before the last releasing fence, and before the last
full one (R281). -/
  fenceRel : Nat
  fenceAcr : Nat
  place : Place
  /-- Block and crew. -/
  blk : Nat
  cidx : Nat
  /-- Result FIFOs of engines 0 and 1 (R231). -/
  fifo0 : List Word
  fifo1 : List Word
  /-- The multi-line set (R297): lines with the drip of the first MCSLD served, and staged dwords. -/
  mcsLines : List Nat
  /-- Those whose MCSLD has been served. -/
  mcsHeld : List Nat
  mcsSince : Option Nat
  mcsStaged : List (Nat × Word)
  mcsBroken : Option Nat
  /-- Barriers whose member this thread is, recorded by its core (R142). -/
  memberOf : List (AgentId × Nat × Nat)
  deriving DecidableEq, Repr

/-! ### Leases -/

/-- The kinds of Table 6-2. -/
inductive Kind where
  | range | lock | barrier | path | context | array | cap | retention | bundle | frontier
  deriving DecidableEq, Repr

/-- Who sent a request, and where its reply goes. -/
structure From where
  tid : Nat
  core : Nat
  ctx : Nat
  tenant : Nat
  d : Reg
  op : Nat
  deriving DecidableEq, Repr

/-- A queued LOCK (R139). -/
structure LockWait where
  id : Nat
  src : From
  dur : Nat
  deadline : Option Nat
  scope : Scope
  deriving DecidableEq, Repr

/-- A barrier record (R142, R143). -/
structure Barrier where
  blk : Nat
  mlo : Nat
  mhi : Nat
  expect : Nat
  window : Nat
  episode : Nat
  arrived : List Nat
  exited : List Nat
  bytes : Int
  spent : Bool
  /-- Latest beat stamp of each member core still beating. -/
  beats : List (Nat × Nat)
  /-- BWAITs held, with their message number. -/
  waits : List (Nat × From)
  deriving DecidableEq, Repr

/-- State of a bundle record (R246 to R248). -/
inductive BunSt where
  | opened | doomed | sealed (c : Nat) | aborted
  deriving DecidableEq, Repr

/-- A bundle record, keyed by its record line. -/
structure Bundle where
  line : Nat
  lineVa : Word
  retain : Nat
  st : BunSt
  /-- Companion lines in join order: line and virtual address. -/
  comps : List (Nat × Word)
  /-- Homes of companions that still name the record. -/
  naming : List AgentId
  deriving DecidableEq, Repr

/-- What a lease record holds beside the common part. -/
inductive Payload where
  /-- First byte's place, size, and address in the holder's context. -/
  | range (base size : Nat) (va : Word)
  /-- Lock word's place, and waiters in arrival order. -/
  | lock (word : Nat) (waits : List LockWait)
  | barrier (b : Barrier)
  /-- The landing range's agent, index and generation (R146). -/
  | path (agent : AgentId) (index gen : Nat)
  /-- A context's lease: tenant and suspend allowance. -/
  | context (tenant allow : Nat)
  /-- A tenant's anchor: window and period (R149). -/
  | anchor (tenant window period : Nat)
  /-- The cluster. -/
  | array (clus : Nat)
  | cap (mask : BitVec 16)
  /-- The line whose old version is retained (R248). -/
  | retention (line : Nat)
  | bundle (b : Bundle)
  /-- The launch. -/
  | frontier (launch : Nat)
  deriving DecidableEq, Repr

/-- A lease record at its home (R103, R107, R109). -/
structure Lease where
  agent : AgentId
  index : Nat
  gen : Nat
  kind : Kind
  /-- Holder context; none for an anchor. -/
  holder : Option Nat
  tenant : Nat
  expiry : Nat
  /-- Parent's agent, index and generation, when tethered. -/
  parent : Option (AgentId × Nat × Nat)
  payload : Payload
  /-- Lapse has been acted on. -/
  dead : Bool
  deriving DecidableEq, Repr

/-- A guard copy (R112): at a home, of a lease; none once lapse has been learnt. -/
structure GuardCopy where
  home : AgentId
  agent : AgentId
  index : Nat
  gen : Nat
  expiry : Option Nat
  deriving DecidableEq, Repr

/-- An agent-map entry (Table 6-3); its number is its place in the tenant's map. -/
structure MapEntry where
  agent : AgentId
  inc : Nat
  ret : Bool
  deriving DecidableEq, Repr

/-! ### Accesses and messages -/

/-- Bits read together: `n` bits from bit `lo` of the byte at a place; extended by sign when `sg`; `rank`
is the place in lane order (R278). -/
structure El where
  addr : Nat
  lo : Nat
  n : Nat
  sg : Bool
  rank : Nat
  dest : Dest
  deriving DecidableEq, Repr

/-- A byte written under a bit mask. -/
structure MByte where
  addr : Nat
  mask : Byte
  val : Byte
  deriving DecidableEq, Repr

/-- What an access does at its home. -/
inductive AccOp where
  | load (els : List El)
  /-- PREF of a line into the L1, or into its home slice only (R282). -/
  | pref (grot : Bool)
  /-- BLD: the pair, and the view (R250). -/
  | bld (addr : Nat) (r : Reg) (kp : KP) (view : Nat)
  | store (bytes : List MByte)
  | atom (fn : AtomFn) (addr size : Nat) (b c : Word) (r : Reg)
  | atomx (addr : Nat) (v : BitVec 32)
  | tagst (granule : Nat) (tag : BitVec 4)
  | tagld (granule : Nat) (va : Word) (r : Reg)
  | mcsld (addr : Nat) (r : Reg)
  /-- BST under a bundle handle (R247). -/
  | bst (h : Word) (bytes : List MByte)
  /-- PSEND under a path handle (R147). -/
  | psend (h : Word) (off : Word) (data : Word)
  deriving DecidableEq, Repr

/-- Where an access stands. -/
inductive AccSt where
  | travelling | waiting | accepted
  /-- At the core with the data of an L1 hit, taken if the copy's lease is live when the older loads have
  been served (R261). -/
  | l1 (data : BitVec 1024) (expiry : Nat)
  /-- Waiting for a bundle record's state (R249). -/
  | bundle
  deriving DecidableEq, Repr

/-- One access to one line. -/
structure Acc where
  src : From
  op : AccOp
  /-- The line's place, and the virtual address of its first byte, with the pointer's tag. -/
  line : Nat
  va : Word
  scope : Scope
  /-- The leaf enables the tag check (R277). -/
  tag : Bool
  /-- A form that an exact line admits (R292). -/
  exact : Bool
  major : Nat
  minor : Nat
  st : AccSt
  /-- The drip of arrival at the home; until then, of issue. -/
  at' : Nat
  /-- Leases that a consultation has found live for this access (R112). -/
  live : List (AgentId × Nat × Nat)
  /-- A release: it leaves the core only once the older stores have performed at its scope. -/
  rel : Bool
  /-- Loads numbered below this stand before it: those issued earlier, and those before a load that it has
  forwarded to (R83). 0 for an accepted PSEND, which has no place among the core's stores (R147). -/
  after' : Nat
  /-- It shares a packed element with another piece of its operation: the two are served and performed together, since
  an element is single-copy atomic (R272, R288). -/
  joint : Bool
  deriving DecidableEq, Repr

/-- Requests to a home, the lantern, a frontier home, the command unit, a core or the array. -/
inductive Req where
  | renew (h : Word) (dur : Nat)
  | life (h : Word)
  /-- Step 1 at the home of `h`, 2 at the parent's, 3 back. -/
  | tether (h p : Word) (step : Nat) (rootExpiry : Nat)
  | info (h : Word) (rec1 : Bool)
  | lock (word : Nat) (dur : Nat) (deadline : Option Nat) (scope : Scope)
  | lheld (h : Word)
  | binit (cfg : Word) (dur : Nat) (blk : Nat)
  /-- `rel`: a release beyond the core (R145). -/
  | barv (h : Word) (m : Nat) (blk : Nat) (rel : Bool)
  | badd (h : Word) (n : Int) (rel : Bool)
  | bwait (h : Word) (e : Word)
  | exitNotice (agent : AgentId) (index gen : Nat) (m : Nat)
  | popen (h : Word) (dur : Option Nat)
  | gate (h : Word) (code : Nat) (arg : Word)
  | alloc (rec : Nat) (va : Word)
  | bopen (line : Nat) (va : Word) (dur retain : Nat)
  | bseal (h : Word)
  | bchk (line : Nat) (i : Nat)
  | mcs
  | launch (rec : Word)
  | point (h : Word) (xyz : Word)
  | frrd (h : Word) (row : Word)
  | amsg (target pc a0 a1 : Word)
  | done (launch : Nat) (z y x : Nat)
  /-- The end, with its cause, of a thread that an active-message record started (R331). -/
  | amsgEnd (donea : Word) (irq : Bool) (cause : Nat)
  | array (clus : Nat) (dur : Nat)
  | mstat (clus : Nat) (sel : MstatSel)
  | tlbi (op : TlbiFn) (va : Word) (n : Nat)
  | ctxsv (slot : Nat) (lines : List Nat)
  /-- WAKE, with the drip of its issue (R20). -/
  | wakeRec (rid : Nat)
  | wakeFail (rid : Nat)
  | wakeSlot (core slot : Nat)
  | wakeStop (core slot : Nat)
  deriving DecidableEq, Repr

/-- A matrix command (R222). -/
inductive MCmd where
  /-- The descriptor's place, and the pointer's tag where its leaf enables tags. -/
  | mlay (l : Fin 8) (place : Nat) (tag : Option (BitVec 4))
  | mzero (n : Fin 8)
  | mma (n : Fin 8)
  | mdrain (n : Fin 8) (ctl seed : Word) (fm : BitVec 3)
  deriving DecidableEq, Repr

/-- A layout record (Table 8-2). -/
structure Layout where
  base : Word
  sbase : Word
  ext : Word
  str : Word
  deriving DecidableEq, Repr

/-- All fields zero. -/
def Layout.zero : Layout := ⟨0, 0, 0, 0⟩

/-- A copy-engine command (R231). A niche or gallery range is named by its first byte's place; a feed
carries the gallery window of its thread, for a record of that space. -/
inductive ECmd where
  | xfer (dst src : Nat) (n : Nat) (dsp ssp : Space)
  | pack (dst src : Word) (n z : Nat)
  | fpack (dst src : Word) (n : Nat)
  | feed (lrec : Fin 8) (stream : Nat) (gall gallLen : Nat)
  deriving DecidableEq, Repr

/-- Journal entry words (R98). -/
structure JEntry where
  v : Bool
  rpt : Bool
  slot : Nat
  major : Nat
  minor : Nat
  cause : Nat
  w1 : Word
  w2 : Word
  w3 : Word
  /-- A free entry can be taken from this drip on (R152). -/
  from' : Nat
  deriving DecidableEq, Repr

/-- A free entry. -/
def JEntry.free : JEntry := ⟨false, false, 0, 0, 0, 0, 0, 0, 0, 0⟩

/-- What a message carries. -/
inductive MsgKind where
  | acc (a : Acc)
  /-- Load data on their way (R25): the values of the pieces, and the line whose miss register they free. -/
  | data (src : From) (vals : List (Dest × Nat)) (kp : Option (KP × Bool)) (fl : BitVec 5) (line : Option Nat)
  /-- Data of an L1 hit, or forwarded, delivered in a drip (R260). -/
  | hit (src : From) (vals : List (Dest × Nat)) (due : Nat)
  /-- A reply word; `bw` for a BWAIT's. -/
  | reply (src : From) (v : Word) (bw : Bool) (lstat : Option Nat)
  | error (src : From) (cause : Nat) (ea : Word) (rank : Nat) (line : Option Nat)
  | ack (src : From)
  | refused (src : From) (j : JEntry)
  /-- A code line, with the read-lease length to ask for. -/
  | fetch (core line len : Nat)
  | req (src : From) (q : Req)
  /-- The new expiry of a renewed lease, to a home with a copy. -/
  | guard (c : GuardCopy)
  /-- Message `m`, waiting at a home, asks the root of a lease at drip `t`. -/
  | consult (m : Nat) (home agent : AgentId) (index gen t : Nat)
  | answer (m : Nat) (home agent : AgentId) (index gen : Nat) (lapsed : Bool) (expiry : Nat)
  /-- BST's join, doom, seal notice, report and consultation. -/
  | join (src : From) (agent : AgentId) (index gen line : Nat) (va : Word) (a : Acc)
  | doom (src : From) (agent : AgentId) (index gen : Nat) (a : Acc) (cause : Nat)
  | sealNotice (home agent : AgentId) (index gen c rx : Nat)
  | compReport (home agent : AgentId) (index gen : Nat)
  | bundleAsk (home agent : AgentId) (index gen : Nat)
  /-- A core consumes an uncorrectable error (R355). -/
  | consume (core cause addr : Nat)
  | leave (who : Nat) (units : Nat) (clus : Nat)
  | suspend (agent : AgentId) (index gen until' : Nat)
  | command (src : From) (clus : Nat) (c : MCmd) (head : Word)
  | engine (src : From) (clus : Nat) (eng : Nat) (c : ECmd)
  | report (tid : Nat) (cause : Nat) (value : Word)
  deriving DecidableEq, Repr

/-- A message in the mesh, or a request waiting where it arrived. -/
structure Msg where
  id : Nat
  kind : MsgKind
  deriving DecidableEq, Repr

/-! ### A core -/

/-- A translation-cache entry (R337). -/
structure TlbE where
  ctx : Nat
  page : Nat
  large : Bool
  leaf : Word
  deriving DecidableEq, Repr

/-- An L1 copy under its read lease (R122). -/
structure L1E where
  line : Nat
  expiry : Nat
  data : BitVec 1024
  /-- Only for the fetch that asked for it: its home gave no read lease (R275). -/
  once : Bool
  deriving DecidableEq, Repr

/-- A queue of a block on a core (R31). -/
structure Queue where
  blk : Nat
  depth : Nat
  items : List Word
  deriving DecidableEq, Repr

/-- A core (Table 2-3). The niche is memory (`nicheKey`). -/
structure Core where
  ptr : Nat
  lastIssue : Option Nat
  tlb : List TlbE
  l1 : List L1E
  /-- The store buffer, oldest first: entries are accesses. -/
  sb : List Acc
  q : Vector (Option Queue) 4
  jrnl : Vector JEntry 64
  /-- Lines being fetched for code. -/
  fetching : List Nat
  /-- Datapath busy until. -/
  vbusy : Nat
  /-- The port into the gallery is busy until (R24, R258). -/
  gport : Nat
  /-- The gap of each slot (R23): the first drip it may issue in again. -/
  gaps : List (Nat × Nat)
  /-- Messages of other cores' stores that this core's threads have observed by a lock grant (R139, R271). -/
  seen : List Nat
  deriving DecidableEq, Repr

/-- A core after reset (R17: pointer 15; everything empty). -/
def Core.reset : Core :=
  ⟨15, none, [], [], [], Vector.replicate 4 none, Vector.replicate 64 JEntry.free, [], 0, 0, [], []⟩

/-! ### A cluster -/

/-- A slab of the A or B stream: its units in landing order, each with its scale byte (R218, R219). -/
structure Slab where
  fmt : Fmt
  units : List (Nat × Nat)
  /-- The engine that is filling it. -/
  feed : Option Nat
  broken : Bool
  deriving DecidableEq, Repr

/-- A tile of the D stream. -/
structure Tile where
  fmt : Fmt
  els : List Nat
  deriving DecidableEq, Repr

/-- An accepted matrix command. -/
structure MEntry where
  src : From
  c : MCmd
  head : Word
  /-- Groups added by an MMA so far. -/
  group : Nat
  /-- The grant it was accepted under. -/
  index : Nat
  gen : Nat
  flags : BitVec 5
  /-- What an MLAY has read: the cause of a refused read, or 0 and the descriptor (R223). -/
  desc : Option (Nat × Layout)
  deriving DecidableEq, Repr

/-- An MLEASE request (R154). -/
structure AReq where
  id : Nat
  src : From
  dur : Nat
  leave : Bool
  deriving DecidableEq, Repr

/-- The grant record (Table 11-1), with the request it answered. -/
structure AGrant where
  id : Nat
  core : Nat
  tid : Nat
  index : Nat
  gen : Nat
  left : Nat
  /-- The drip in which the array accepted the grant's last command (R154). -/
  last : Option Nat
  live : Bool
  deriving DecidableEq, Repr

/-- The matrix array (Table 11-1). -/
structure MArray where
  acc : Vector (List (BitVec 32)) 8
  groups : Vector Nat 8
  gave : Vector Bool 8
  act : Vector Layout 8
  shadow : Vector Layout 8
  confl : Vector Nat 8
  a : List Slab
  b : List Slab
  r : List (Fmt × Nat)
  d : Option Tile
  fifo : List MEntry
  reqs : List AReq
  grant : Option AGrant
  /-- The core the streams belong to (R221). -/
  owner : Option Nat
  /-- Slabs of A and B still to land that a command has given up (R241). -/
  dropA : Nat
  dropB : Nat
  /-- Expiries by duration of earlier grants, by index × 2^24 + generation (R241). -/
  ends : List (Nat × Nat)
  tenant : Option Nat
  deriving DecidableEq, Repr

/-- An accumulator set of +0. -/
def accZero : List (BitVec 32) := List.replicate 1024 0

/-- The array after reset. -/
def MArray.reset : MArray :=
  ⟨Vector.replicate 8 accZero, Vector.replicate 8 0, Vector.replicate 8 false,
    Vector.replicate 8 Layout.zero, Vector.replicate 8 Layout.zero, Vector.replicate 8 0,
    [], [], [], none, [], [], none, none, 0, 0, [], none⟩

/-- A command an engine has accepted. -/
structure EEntry where
  /-- Its number, for its leave. -/
  num : Nat
  src : From
  c : ECmd
  /-- The layout record as it stood at acceptance (R226). -/
  lay : Layout
  /-- Bytes or units done. -/
  pos : Nat
  promise : Nat
  missed : Bool
  /-- The grant a feed is bound to. -/
  bound : Option (Nat × Nat)
  /-- The record the command is stopped on (R242), and its cause once failed. -/
  stop : Option Nat
  fail : Option Nat
  /-- It has been stopped since it last moved (R242). -/
  held : Bool
  /-- The rest of the slab at its position is discarded (R241). -/
  skip : Bool
  /-- The tile a D feed has taken. -/
  tile : Option Tile
  /-- Leave asked for, and granted (R231). -/
  asked : Bool
  leave : Bool
  deriving DecidableEq, Repr

/-- A copy engine: its accepted commands, oldest first (R231). -/
structure Engine where
  cmds : List EEntry
  deriving DecidableEq, Repr

/-- A cluster (Table 2-4). The gallery is memory (`gallKey`). -/
structure Cluster where
  array : MArray
  eng0 : Engine
  eng1 : Engine
  /-- The IEEE-flag OR tree (R183). -/
  cflags : BitVec 5
  gated : Bool
  /-- The rotating pointer of R323: the launch taken last. -/
  rr : Nat
  /-- Gallery banks that an access occupies, with the drip each is free from (R258). -/
  banks : List (Nat × Nat)
  deriving DecidableEq, Repr

/-- A cluster after reset. -/
def Cluster.reset : Cluster := ⟨MArray.reset, ⟨[]⟩, ⟨[]⟩, 0, false, 0, []⟩

/-! ### Blocks and launches -/

/-- A crew: the threads of a block on one core (R28), with its barrier unit (R93) and niche part (R256). -/
structure Crew where
  core : Nat
  rank : Nat
  tids : List Nat
  arrived : List Nat
  exited : List Nat
  niche : Nat
  nicheLen : Nat
  /-- The crew's slots, by crew index: its block's until its last thread exits (R322). -/
  slots : List Nat
  deriving DecidableEq, Repr

/-- Where a block stands. -/
inductive BlkSt where
  | running | swapping | swapped | stopped
  deriving DecidableEq, Repr

/-- A block (R28, R29). -/
structure Block where
  id : Nat
  launch : Option Nat
  z : Nat
  y : Nat
  x : Nat
  tenant : Nat
  ctx : Nat
  clus : Nat
  crews : List Crew
  slots : Nat
  gall : Nat
  gallLen : Nat
  rlease : Nat
  st : BlkSt
  /-- Since when its parked threads have been at least the park fraction (R307). -/
  parkSince : Option Nat
  /-- DONE issued and not yet sent: the core that issued it, and the store operations it waits for. -/
  doneWait : Option (Nat × List Nat)
  doneSent : Bool
  /-- Slots that hold its images while it is swapped out, and its save area's place (R353). -/
  stow : List (Nat × Nat)
  area : Option Nat
  /-- Completion record of an active message, with its IRQ bit (R331, R365). -/
  donea : Option (Word × Bool)
  /-- The cause that such a block ends with. -/
  cause : Nat
  /-- While it is saved: its niche and gallery bytes by their offset in the block image, and its queues by
  crew rank and number. -/
  kept : List (Nat × Byte)
  qsave : List (Nat × Nat × Queue)
  /-- While its whole image stands in its save area: the crews and threads as the image last showed them. -/
  shown : Option (List Crew × List (Nat × Thread))
  admitted : Nat
  deriving DecidableEq, Repr

/-- A fired point in its launch's queue (R304). -/
structure QPoint where
  drip : Nat
  z : Nat
  y : Nat
  x : Nat
  /-- First drip it may be admitted in (R306). -/
  ready : Nat
  deriving DecidableEq, Repr

/-- A launch (R313, R316, R318). -/
structure Launch where
  id : Nat
  ctx : Nat
  tenant : Nat
  /-- The record's 16 dwords and the header's 8. -/
  record : List Word
  hdr : List Word
  /-- The frontier lease. -/
  agent : AgentId
  index : Nat
  gen : Nat
  /-- Drips it has waited with a point in its queue, since its last admission (R323). -/
  waited : Nat
  /-- Waiting for AFTER's launch. -/
  after : Option Nat
  leave : Bool
  /-- Rows kept on chip, by row number (R318), and rows complete. -/
  rows : List (Nat × Word)
  doneRows : List Nat
  queue : List QPoint
  fired : Bool
  /-- The cause it failed with; no further point fires. -/
  failed : Option (Nat × Nat)
  ended : Option Nat
  irq : Bool
  /-- Levels risen by aging (R323). -/
  aged : Nat
  deriving DecidableEq, Repr

/-! ### The module's units -/

/-- A requester at a walk unit or on a fault record (R337). -/
inductive Waiter where
  /-- A thread, with the head at its pc and the address that it needed. -/
  | thread (tid acc : Nat) (pc va : Word)
  | engine (clus eng : Nat) (acc : Nat)
  deriving DecidableEq, Repr

/-- A walk in progress (R337): access codes of Table 17-9 stand with its joiners. -/
structure Walk where
  id : Nat
  die : Nat
  ctx : Nat
  va : Word
  joiners : List Waiter
  /-- A TLBI of its key arrived: the result is not kept. -/
  stale : Bool
  deriving DecidableEq, Repr

/-- A fault record (Table 17-9) and who waits on it. -/
structure FaultRec where
  rid : Nat
  die : Nat
  ctx : Nat
  tenant : Nat
  cause : Nat
  level : Nat
  orig : Nat
  acc : Nat
  addr : Word
  core : Nat
  slot : Nat
  waiters : List Waiter
  /-- WAITERS when filed. -/
  count : Nat
  written : Bool
  /-- The requester waits on it (a translation fault), as against a record of a trap. -/
  waits : Bool
  /-- For the tenant's fault log, not its queue. -/
  log : Bool
  deriving DecidableEq, Repr

/-- A request for leave (R376): who asked, by a code of `Ops`, and the units. -/
structure LeaveReq where
  who : Nat
  units : Nat
  clus : Nat
  deriving DecidableEq, Repr

/-- A gang pre-emption (R354). -/
structure Stop where
  tenant : Nat
  at' : Nat
  go : Option Nat
  reached : Bool
  deriving DecidableEq, Repr

/-- A caching agent's permission lease on a line (R124). -/
structure Perm where
  line : Nat
  /-- 0 the host; for a lease that a slice of this module holds, the slice's die. -/
  agent : Nat
  write : Bool
  expiry : Nat
  /-- At the home's side, what the holder wrote and has not written back; at a slice, the bytes as last
  written back. -/
  dirty : List (Nat × Byte)
  asked : Bool
  deriving DecidableEq, Repr

/-- A bundled line's versions (R247). -/
structure BLine where
  line : Nat
  nb : Option (AgentId × Nat × Nat)
  /-- Commit stamp of NB, once known. -/
  known : Option Nat
  pending : BitVec 1024
  /-- The old version, its commit stamp OC, and RX once NB's stamp is known. -/
  old : Option (BitVec 1024 × Nat × Option Nat)
  /-- NB and its stamp before NB's first store, to restore on abort. -/
  prev : Option (Option (AgentId × Nat × Nat) × Option Nat)
  /-- A consultation of NB's record is on its way. -/
  asked : Bool
  deriving DecidableEq, Repr

/-- A heat counter (R339). -/
structure Heat where
  ctx : Nat
  region : Nat
  count : Nat
  deriving DecidableEq, Repr

/-- A waiting ALLOC (R128). -/
structure AllocWait where
  id : Nat
  src : From
  record : Nat
  va : Word
  req : Word
  dur : Word
  deadline : Nat
  deriving DecidableEq, Repr

/-- A collective request on this module, armed and not yet complete (R371). -/
structure Coll where
  tenant : Nat
  ctx : Nat
  group : Nat
  k : Nat
  /-- The place of its slot. -/
  slot : Nat
  opw : Word
  count : Word
  src : Word
  dst : Word
  donea : Word
  gen : Word
  irq : Bool
  deriving DecidableEq, Repr

/-- A containment rectangle fenced (R355). -/
structure Fence where
  cores : List Nat
  since : Nat
  cause : Nat
  /-- Points to fire again when it returns. -/
  refire : List (Nat × QPoint)
  deriving DecidableEq, Repr

/-- A die's registers and units. -/
structure Die where
  hkey : BitVec 6
  /-- CORR and UNCR of the 32 slices (Table 13-1). -/
  corr : Vector Nat 32
  uncr : Vector Nat 32
  nextRid : Nat
  nextWalk : Nat
  deriving DecidableEq, Repr

/-- A die after reset. -/
def Die.reset : Die := ⟨0, Vector.replicate 32 0, Vector.replicate 32 0, 0, 0⟩

/-- What issuing an instruction came to (the model's own): a bundle's heads are judged together. -/
inductive Note where
  | none
  /-- The head issued. -/
  | issued
  /-- It trapped, with this cause, return point and value. -/
  | trapped (cause : Nat) (epc value : Word)
  /-- It could not issue in this drip; `queue` when a queue that its block holds kept it (R33, R35). -/
  | held (queue : Bool)
  deriving DecidableEq, Repr

/-- The head being issued (the model's own): its address, the address of the next head in sequence, and,
for the second head of a bundle, the thread before the bundle (R45). -/
structure Iss where
  head : Word
  next : Word
  old : Option Thread
  /-- The other head of the bundle has moved the pc. -/
  second : Bool
  deriving DecidableEq, Repr

end Sys2Proof.Machine
end

