-- ==== Sys2Proof/Machine/State.lean ====
section
/-!
DEFINITION. The state of a Zailith Z4 module, as plain data: the drip counter, the stimuli to come (the
model's own), memory, and everything else the spec gives the machine (`Dev`); the named ways a step can
stop; and the state after reset.
-/
namespace Sys2Proof.Machine
open Sys2Proof

/-- What the next step does (the model's own; notes/assumptions/2.md): a step of the module that no head
issues, an issue of one core, or the passing of a drip. With none given, the step chooses by itself. -/
inductive Stim where
  | event (i : Instr)
  | issue (core : Nat)
  | tick
  deriving DecidableEq, Repr

/-- Why a step stops with a fault. -/
inductive Fault where
  /-- Raised by every access that would reach a physical address where the spec puts nothing
  (Machine/Ops.lean, `keyOk`). Safe: the machine stops where the hardware has no behaviour. -/
  | hole (place : Nat)
  deriving DecidableEq, Repr

/-- Why a step has no meaning. -/
inductive Refusal where
  /-- Raised by an arm of `exec` whose instruction has no meaning yet. Safe: nothing follows from it. -/
  | notModelled (mnemonic : String)
  deriving DecidableEq, Repr

/-- Boot (R373, R375). -/
structure Boot where
  /-- The stage that runs (R375): 1 from reset, 4 when the chain is done. -/
  stage : Nat
  /-- The stage whose check of the next failed; the module is held in reset. -/
  failed : Option Nat
  digests : List Nat
  /-- The fused security version, which refuses older images: no step changes it. -/
  version : Nat
  mask : List Nat
  entry : Word
  /-- The service context exists (R374). -/
  service : Bool
  /-- Attestation reports given, newest first: nonce and signature. -/
  reports : List (Nat × Nat)
  deriving DecidableEq, Repr

/-- Everything of the module but the counter and memory. -/
structure Dev where
  /-- Threads by number (the number is the model's own; a thread keeps it across swaps). -/
  threads : List (Nat × Thread)
  nextTid : Nat
  /-- The thread whose head is being issued, the head, and what came of it (the model's own). -/
  cur : Option Nat
  iss : Iss
  note : Note
  cores : List (Nat × Core)
  clusters : List (Nat × Cluster)
  dies : List (Nat × Die)
  /-- Messages and waiting requests, in sending order. -/
  msgs : List Msg
  nextMsg : Nat
  /-- The first message number of the drip (the model's own). -/
  since : Nat
  /-- Operations that L or S counts, until their last piece. -/
  outst : List Outst
  nextOp : Nat
  /-- Lease records of every home (06). -/
  leases : List Lease
  guards : List GuardCopy
  /-- Agent maps by tenant (Table 6-3). -/
  maps : List (Nat × List MapEntry)
  blocks : List (Nat × Block)
  nextBlk : Nat
  launches : List (Nat × Launch)
  nextLaunch : Nat
  walks : List Walk
  faults : List FaultRec
  /-- Next record of each tenant's fault queue and fault log (R343). -/
  fqNext : List (Nat × Nat)
  flNext : List (Nat × Nat)
  /-- Units of leave granted, by request, and requests waiting (R376). -/
  leaveHeld : List LeaveReq
  leaveQ : List LeaveReq
  /-- Permission leases that other caching agents hold on lines of this module (R124). -/
  perms : List Perm
  /-- Permission leases that this module's slices hold on peer, host and pool lines (R124, R262). -/
  sliceLeases : List Perm
  /-- Latest end of the read leases that a line's home has given to L1 caches (R122, R123). -/
  readLeases : List (Nat × Nat)
  /-- Lines that the grotto slices hold, the newest first (R263). -/
  grotto : List Nat
  /-- Host memory lines the device caches, and whether modified (R366). -/
  hostLines : List (Nat × Bool)
  /-- The die whose core first asked for a peer, host or pool line (R262). -/
  foreign : List (Nat × Nat)
  blines : List BLine
  /-- Non-zero memory tags by granule (R299). -/
  tags : List (Nat × BitVec 4)
  /-- Exact lines (R188), and exact elements that have received an add: their place, the sum S of R188, as
  its two's complement bits, and their state. -/
  exactLines : List Nat
  exactEls : List (Nat × BitVec 318 × BitVec 2)
  /-- Poisoned DRAM sectors, and poisoned on-die words by place (R264, R357). -/
  poison : List Nat
  badWords : List Nat
  badSectors : List Nat
  /-- Tenant-table entries as admissions and router checks last read them: 52 dwords (R342). -/
  tenCache : List (Nat × List Word)
  /-- CTXTB, TENTB, PSTOP, PGO, ROOTCAP (Table 17-12). -/
  ctxtb : Word
  tentb : Word
  pstop : Word
  pgo : Word
  rootcap : Word
  /-- HREF (Table 18-2). -/
  href : Nat
  heats : List Heat
  allocs : List AllocWait
  /-- Memory quotas in bytes that tenants have declared (Table 6-8). The spec gives no field that declares one: the
  model's own (notes/assumptions/94.md). -/
  quotas : List (Nat × Nat)
  stops : List Stop
  /-- Messages in stow buffers (R354). -/
  stowed : List Msg
  fenced : List Fence
  colls : List Coll
  /-- Arm words to be cleared: their place and the drip their slot was read in (R365). -/
  clears : List (Nat × Nat)
  /-- Collectives armed so far, by tenant × 16 + group. -/
  collSeq : List (Nat × Nat)
  /-- PRI tags in use with their fault record, and requests waiting (R367). -/
  prqTags : List (Nat × Nat)
  prqQueue : List Nat
  /-- This module, the domain's live modules, each one's counter less this one's, and the time root. -/
  modNo : Nat
  members : List Nat
  offsets : List (Nat × Int)
  /-- Where the time units are trimming other modules' counts to (R370). -/
  trims : List (Nat × Int)
  /-- Modules that no live plane reaches, and since when (R369). -/
  cut : List (Nat × Nat)
  /-- Incarnations of agents, and agents in quarantine with the drip their failure was detected (R125). -/
  incs : List (AgentId × Nat)
  quarantine : List (AgentId × Nat)
  /-- The module has admitted a block or granted a lease, or has joined a domain (R102). -/
  started : Bool
  joined : Bool
  boot : Boot
  inReset : Bool
  /-- MSI-X vectors signalled, newest first (R368). -/
  vectors : List Nat
  /-- The last host read: its bytes and whether poisoned (R361). -/
  hostRead : List Byte × Bool
  /-- Counter of the free values (the model's own). -/
  fresh : Nat
  deriving DecidableEq, Repr

/-- The state of a module. -/
structure State where
  drip : Nat
  agenda : List Stim
  mem : Memory
  dev : Dev
  deriving DecidableEq, Repr

/-- A cold module: in module reset, nothing booted, nothing occupied, nothing granted. -/
def Boot.reset : Boot := ⟨1, none, [], 0, [], 0, false, []⟩

/-- The registers of a slot that no thread has occupied since reset: every one zero, FMODE at RNE and SLOTNO
the slot's number (R16; notes/assumptions/6.md and 7.md). -/
def Thread.reset (slot : Nat) : Thread where
  regs := ⟨Vector.replicate 32 0, Vector.replicate 16 VReg.zero, Vector.replicate 12 0⟩
  pc := 0
  fmode := 1
  fflags := 0
  cL := 0
  cS := 0
  cC := 0
  cM := 0
  pendX := 0
  pendV := 0
  pendK := 0
  slotcfg := BitVec.ofNat 64 (slot % 16 * 2 ^ 28)
  status := 0
  cause := 0
  epc := 0
  eval := 0
  handler := 0
  anchor := 0
  lstat := 0
  srseed := 0
  srctr := 0
  view := 0
  lost := 0
  wst := .ready
  stopped := false
  preempted := false
  exited := false
  notBefore := 0
  qblk := none
  traps := []
  acq := []
  fenceRel := 0
  fenceAcr := 0
  place := .saved
  blk := 0
  cidx := 0
  fifo0 := []
  fifo1 := []
  mcsLines := []
  mcsHeld := []
  mcsSince := none
  mcsStaged := []
  mcsBroken := none
  memberOf := []

/-- What a slot of a core holds: its thread, or the registers of a slot that is free. A thread begins with
every register given or zero (R321), so a free slot's registers are those of reset. -/
def Dev.slotRegs (d : Dev) (core slot : Nat) : Thread :=
  match d.threads.find? (fun p => p.2.place = .slot core slot) with
  | some p => p.2
  | none => Thread.reset slot

/-- The units of a module after module reset. -/
def Dev.reset : Dev where
  threads := []
  nextTid := 0
  cur := none
  iss := ⟨0, 0, none, false⟩
  note := .none
  cores := []
  clusters := []
  dies := []
  msgs := []
  nextMsg := 0
  since := 0
  outst := []
  nextOp := 0
  leases := []
  guards := []
  maps := []
  blocks := []
  nextBlk := 0
  launches := []
  nextLaunch := 0
  walks := []
  faults := []
  fqNext := []
  flNext := []
  leaveHeld := []
  leaveQ := []
  perms := []
  sliceLeases := []
  readLeases := []
  grotto := []
  hostLines := []
  foreign := []
  blines := []
  tags := []
  exactLines := []
  exactEls := []
  poison := []
  badWords := []
  badSectors := []
  tenCache := []
  ctxtb := 0
  tentb := 0
  pstop := 0
  pgo := 0
  rootcap := 0
  href := 0
  heats := []
  allocs := []
  quotas := []
  stops := []
  stowed := []
  fenced := []
  colls := []
  clears := []
  collSeq := []
  prqTags := []
  prqQueue := []
  modNo := 0
  members := [0]
  offsets := []
  trims := []
  cut := []
  incs := []
  quarantine := []
  started := false
  joined := false
  boot := Boot.reset
  inReset := true
  vectors := []
  hostRead := ([], false)
  fresh := 0

/-- The machine right after module reset (R15: the counter reads 0; R17: core state of R17 is that of the
absent entries of `cores`). No slot is occupied: the service firmware starts by the boot chain (R375). -/
def State.reset : State := ⟨0, [], ⟨[]⟩, Dev.reset⟩

end Sys2Proof.Machine
end

