-- ==== Sys2Proof/Machine/Ops.lean ====
section
/-!
DEFINITION. The named operations over memory, registers, threads, leases and messages that the meanings
share; taking a trap (spec 17 R346) and returning from one (R351); and the way a body's result becomes
the outcome of a step.
-/
namespace Sys2Proof.Machine
open Sys2Proof

/-! ### Cause codes (17 Table 17-7, 06 Table 6-8, 11 Table 11-9, 18 Table 18-9) -/

namespace Cause
def illegalEncoding : Nat := 0x001
def illegalTarget : Nat := 0x002
def privileged : Nat := 0x003
def operandRange : Nat := 0x004
def misaligned : Nat := 0x005
def windowRange : Nat := 0x006
def formatTag : Nat := 0x010
def notPresent : Nat := 0x080
def nodeNotPresent : Nat := 0x081
def permission : Nat := 0x082
def remoteAtomic : Nat := 0x083
def tagMismatch : Nat := 0x084
def addressForm : Nat := 0x085
def exactAccess : Nat := 0x086
def ptFormat : Nat := 0x087
def leaseLapsed : Nat := 0x100
def lapsePosted : Nat := 0x101
def genMismatch : Nat := 0x102
def notHolder : Nat := 0x103
def journalOverflow : Nat := 0x104
def barrierLapsed : Nat := 0x105
def conflict : Nat := 0x106
def durationZero : Nat := 0x107
def leaseKind : Nat := 0x108
def nullHandle : Nat := 0x109
def tetherDepth : Nat := 0x10A
def tetherRefused : Nat := 0x10B
def allocExhausted : Nat := 0x10C
def allocDeadline : Nat := 0x10D
def allocQuota : Nat := 0x10E
def regionReverted : Nat := 0x10F
def dramUncorrectable : Nat := 0x180
def compressRefused : Nat := 0x181
def sramUncorrectable : Nat := 0x182
def decompressCrc : Nat := 0x183
def contained : Nat := 0x184
def promiseMissed : Nat := 0x200
def arrayLeaseLapsed : Nat := 0x201
def streamShape : Nat := 0x202
def streamFormat : Nat := 0x203
def layoutInvalid : Nat := 0x204
def arrayRequest : Nat := 0x205
def streamBroken : Nat := 0x206
def queueDeadlock : Nat := 0x280
def launchRefused : Nat := 0x281
def preempt : Nat := 0x282
def queueMisuse : Nat := 0x283
def barrierCount : Nat := 0x284
def barrierBytes : Nat := 0x285
def barrierEpisode : Nat := 0x286
def amsgBusy : Nat := 0x287
def amsgTarget : Nat := 0x288
def tenantRoute : Nat := 0x289
def pathDown : Nat := 0x300
def groupChanged : Nat := 0x301
def collMismatch : Nat := 0x302
def hostPageDenied : Nat := 0x303
def mcsSnoop : Nat := 0x310
def mcsTimeout : Nat := 0x311
def mcsBroken : Nat := 0x312
def trapBase : Nat := 0x380
def gateDenied : Nat := 0x3F0
def gateService : Nat := 0x3F1
def doubleTrap : Nat := 0x3F2
def contextInvalid : Nat := 0x3F3
end Cause

/-! ### Maps -/

/-- The value under key `k`. -/
def find? {α : Type} (k : Nat) : List (Nat × α) → Option α
  | [] => none
  | (j, v) :: m => if j = k then some v else find? k m

/-- The map without key `k`. -/
def del {α : Type} (k : Nat) (m : List (Nat × α)) : List (Nat × α) := m.filter (fun p => p.1 != k)

/-! ### Memory -/

/-- One byte. -/
def Memory.readCells (a : Nat) : List Host.Cell → Byte
  | [] => Memory.dflt
  | (b, v) :: m => if b = a then v else if a < b then Memory.dflt else Memory.readCells a m

/-- One byte. -/
def Memory.read (m : Memory) (a : Nat) : Byte := Memory.readCells a m.cells

/-- Put a byte in its place; the value an unlisted address reads as is not listed. -/
def Memory.writeCells (a : Nat) (v : Byte) : List Host.Cell → List Host.Cell
  | [] => if v = Memory.dflt then [] else [(a, v)]
  | (b, w) :: m =>
    if a < b then (if v = Memory.dflt then (b, w) :: m else (a, v) :: (b, w) :: m)
    else if b = a then (if v = Memory.dflt then m else (a, v) :: m)
    else (b, w) :: Memory.writeCells a v m

/-- Write one byte. -/
def Memory.write (m : Memory) (a : Nat) (v : Byte) : Memory := ⟨Memory.writeCells a v m.cells⟩

/-- Write bytes in order. -/
def Memory.writeAll (m : Memory) : List (Nat × Byte) → Memory
  | [] => m
  | (a, v) :: l => (m.write a v).writeAll l

/-- Addresses rise and no cell holds the default. -/
def Memory.wfCells : List Host.Cell → Bool
  | [] => true
  | [(_, v)] => v != Memory.dflt
  | (a, v) :: (b, w) :: m => v != Memory.dflt && a < b && Memory.wfCells ((b, w) :: m)

/-- The canonical form. -/
def Memory.wf (m : Memory) : Bool := Memory.wfCells m.cells

/-- `n` bytes from `a`, little-endian (R2), as a natural. -/
def Memory.readN (m : Memory) (a : Nat) : Nat → Nat
  | 0 => 0
  | n + 1 => (m.read a).toNat + 256 * m.readN (a + 1) n

/-- The bytes of a natural, little-endian, at their places. -/
def bytesAt (a : Nat) : Nat → Nat → List (Nat × Byte)
  | 0, _ => []
  | n + 1, v => (a, BitVec.ofNat 8 v) :: bytesAt (a + 1) n (v / 256)

/-- A dword. -/
def Memory.read64 (m : Memory) (a : Nat) : Word := wd64 (m.readN a 8)

/-! ### Places -/

/-- Physical address `p` of aperture `ap` (Table 17-4). -/
def apKey (ap p : Nat) : Nat := ap * 2 ^ 52 + p
/-- Byte `o` of a core's niche. -/
def nicheKey (core o : Nat) : Nat := (0x1000 + core) * 2 ^ 52 + o
/-- Byte `o` of a cluster's gallery. -/
def gallKey (clus o : Nat) : Nat := (0x2000 + clus) * 2 ^ 52 + o
/-- The aperture of a place. -/
def keyAp (k : Nat) : Nat := k / 2 ^ 52
/-- The address within the aperture. -/
def keyPhys (k : Nat) : Nat := k % 2 ^ 52
/-- The 128-byte line of a place. -/
def lineOf (k : Nat) : Nat := k / 128 * 128

/-- 96 GiB. -/
def dieBytes : Nat := 96 * 2 ^ 30
/-- The region status table's offset in a die (R340), and its size. -/
def statusBase : Nat := 0x1800000000
/-- One dword for each 8 MiB region. -/
def statusBytes : Nat := 8 * (dieBytes / 2 ^ 23)
/-- The I/O die's registers (R363), and their size. -/
def ioBase : Nat := 0x8000000000
/-- Through the group table. -/
def ioBytes : Nat := 0x1000 + 262144

/-- A DRAM address of a module (R262). -/
def isDram (p : Nat) : Bool := p / 2 ^ 37 < 4 && p % 2 ^ 37 < dieBytes
/-- A region status word's address. -/
def isStatus (p : Nat) : Bool :=
  p / 2 ^ 37 < 4 && statusBase ≤ p % 2 ^ 37 && p % 2 ^ 37 < statusBase + statusBytes
/-- A register of the I/O die. -/
def isIo (p : Nat) : Bool := ioBase ≤ p && p < ioBase + ioBytes

/-- The spec puts something at a place. -/
def keyOk (k : Nat) : Bool :=
  if keyAp k = 0 then isDram (keyPhys k) || isStatus (keyPhys k) || isIo (keyPhys k)
  else if keyAp k ≤ 0xC0 then isDram (keyPhys k) || isStatus (keyPhys k)
  else true

/-! ### Identity numbers (Table 2-1) -/

def coreDie (c : Nat) : Nat := c / 512
def coreCol (c : Nat) : Nat := c % 512 % 32
def coreRow (c : Nat) : Nat := c % 512 / 32
def coreClus (c : Nat) : Nat := coreDie c * 32 + coreRow c / 4 * 8 + coreCol c / 4
def coreInClus (c : Nat) : Nat := coreRow c % 4 * 4 + coreCol c % 4
/-- The core of a cluster by its number in the cluster. -/
def clusCore (clus i : Nat) : Nat :=
  clus / 32 * 512 + (clus % 32 / 8 * 4 + i / 4) * 32 + clus % 8 * 4 + i % 4

/-! ### Parts of `Dev` -/

def Dev.thr (d : Dev) (tid : Nat) : Option Thread := find? tid d.threads
def Dev.setThr (d : Dev) (tid : Nat) (t : Thread) : Dev := { d with threads := put tid t d.threads }
def Dev.updThr (d : Dev) (tid : Nat) (f : Thread → Thread) : Dev :=
  match d.thr tid with
  | some t => d.setThr tid (f t)
  | none => d
def Dev.core (d : Dev) (c : Nat) : Core := look Core.reset c d.cores
def Dev.setCore (d : Dev) (c : Nat) (x : Core) : Dev := { d with cores := put c x d.cores }
def Dev.clus (d : Dev) (c : Nat) : Cluster := look Cluster.reset c d.clusters
def Dev.setClus (d : Dev) (c : Nat) (x : Cluster) : Dev := { d with clusters := put c x d.clusters }
def Dev.die (d : Dev) (n : Nat) : Die := look Die.reset n d.dies
def Dev.setDie (d : Dev) (n : Nat) (x : Die) : Dev := { d with dies := put n x d.dies }
def Dev.blk (d : Dev) (b : Nat) : Option Block := find? b d.blocks
def Dev.setBlk (d : Dev) (b : Nat) (x : Block) : Dev := { d with blocks := put b x d.blocks }
def Dev.lch (d : Dev) (l : Nat) : Option Launch := find? l d.launches
def Dev.setLch (d : Dev) (l : Nat) (x : Launch) : Dev := { d with launches := put l x d.launches }
def Cluster.eng (c : Cluster) (e : Nat) : Engine := if e = 0 then c.eng0 else c.eng1
def Cluster.setEng (c : Cluster) (e : Nat) (x : Engine) : Cluster :=
  if e = 0 then { c with eng0 := x } else { c with eng1 := x }

/-- The thread in a slot. -/
def Dev.slotTid (d : Dev) (core slot : Nat) : Option Nat :=
  (d.threads.find? (fun p => p.2.place = .slot core slot)).map Prod.fst

/-- A thread's core and slot; the core is 0 for a saved thread. -/
def Thread.coreSlot (t : Thread) : Nat × Nat :=
  match t.place with
  | .slot c s => (c, s)
  | .saved => (0, 0)

/-- The crew of a thread. -/
def Block.crewOf (b : Block) (tid : Nat) : Option Crew := b.crews.find? (fun c => c.tids.contains tid)

/-! ### STATUS (Table 17-11) -/

def Thread.mode (t : Thread) : Bool := bit t.status 0
def Thread.inTrap (t : Thread) : Bool := bit t.status 2
def Thread.ctx (t : Thread) : Nat := bits t.status 8 16
def Thread.tenant (t : Thread) : Nat := bits t.status 24 8
/-- STATUS with MODE, PMODE and INTRAP as given. -/
def setModes (s : Word) (mode pmode intrap : Bool) : Word :=
  (s &&& ~~~(7 : Word)) ||| wd64 (b2n mode + 2 * b2n pmode + 4 * b2n intrap)
/-- A STATUS word. -/
def mkStatus (tenant ctx : Nat) (svc mode : Bool) : Word :=
  wd64 (tenant % 256 * 2 ^ 24 + ctx % 65536 * 2 ^ 8 + b2n svc * 8 + b2n mode)

/-! ### Free numbers, messages and outstanding operations -/

/-- The next fresh number. -/
def Dev.tickFresh (d : Dev) : Dev := { d with fresh := d.fresh + 1 }

/-- Send a message. -/
def Dev.send (d : Dev) (k : MsgKind) : Dev :=
  { d with msgs := d.msgs ++ [⟨d.nextMsg, k⟩], nextMsg := d.nextMsg + 1 }

/-- A message was sent in this drip: what it causes at another core counts from the next (R20). -/
def Dev.sentNow (d : Dev) (m : Nat) : Bool := d.since ≤ m

/-- A message by its number. -/
def Dev.msg (d : Dev) (m : Nat) : Option MsgKind := (d.msgs.find? (fun x => x.id = m)).map Msg.kind

/-- Take a message out. -/
def Dev.drop (d : Dev) (m : Nat) : Dev := { d with msgs := d.msgs.filter (fun x => x.id != m) }

/-- Replace what a waiting message carries. -/
def Dev.reMsg (d : Dev) (m : Nat) (k : MsgKind) : Dev :=
  { d with msgs := d.msgs.map (fun x => if x.id = m then { x with kind := k } else x) }

/-- The reply word of a refusal (R96). -/
def refusalWord (cause : Nat) : Word := wd64 (2 ^ 63 + cause)

/-- Send a reply word. -/
def Dev.reply (d : Dev) (f : From) (v : Word) : Dev := d.send (.reply f v false none)
/-- Send a refusal word. -/
def Dev.refuse (d : Dev) (f : From) (cause : Nat) : Dev := d.reply f (refusalWord cause)

/-- The class counters and pending bits of a thread at an operation's issue (Table 2-8). -/
def Thread.raise (t : Thread) (isL : Bool) (px : Option Reg) (pv : Option VR) (pk : Option KP) : Thread :=
  { t with
    cL := if isL then t.cL + 1 else t.cL
    cS := if isL then t.cS else t.cS + 1
    pendX := match px with
      | some r => if r.val = 0 then t.pendX else t.pendX ||| ((1 : BitVec 32) <<< r.val)
      | none => t.pendX
    pendV := match pv with
      | some v => t.pendV ||| ((1 : BitVec 16) <<< v.val)
      | none => t.pendV
    pendK := match pk with
      | some k => t.pendK ||| ((3 : BitVec 12) <<< (2 * k.val))
      | none => t.pendK }

/-- The same bits at the operation's end. -/
def Thread.lower (t : Thread) (isL : Bool) (px : Option Reg) (pv : Option VR) (pk : Option KP) : Thread :=
  { t with
    cL := if isL then t.cL - 1 else t.cL
    cS := if isL then t.cS else t.cS - 1
    pendX := match px with
      | some r => t.pendX &&& ~~~((1 : BitVec 32) <<< r.val)
      | none => t.pendX
    pendV := match pv with
      | some v => t.pendV &&& ~~~((1 : BitVec 16) <<< v.val)
      | none => t.pendV
    pendK := match pk with
      | some k => t.pendK &&& ~~~((3 : BitVec 12) <<< (2 * k.val))
      | none => t.pendK }

/-- Begin an operation of `n` pieces; answer its number too. -/
def Dev.openOp (d : Dev) (tid n : Nat) (isL : Bool) (px : Option Reg) (pv : Option VR) (pk : Option KP) :
    Dev × Nat :=
  let o : Outst := ⟨d.nextOp, tid, n, isL, px, pv, pk, .none, [], none, isL, none⟩
  (({ d with outst := d.outst ++ [o], nextOp := d.nextOp + 1 }).updThr tid (·.raise isL px pv pk), d.nextOp)

/-! ### Registers -/

/-- Register `r`; x0 reads as zero (R16). -/
def Regs.rx (g : Regs) (r : Reg) : Word := if r.val = 0 then 0 else g.x[r.val]
/-- Write register `r`; x0 discards. -/
def Regs.wx (g : Regs) (r : Reg) (v : Word) : Regs := if r.val = 0 then g else { g with x := g.x.set r.val v }
/-- Vector register. -/
def Regs.rv (g : Regs) (r : VR) : VReg := g.v[r.val]
/-- Write a vector register. -/
def Regs.wv (g : Regs) (r : VR) (v : VReg) : Regs := { g with v := g.v.set r.val v }
/-- Predicate. -/
def Regs.rk (g : Regs) (r : KR) : BitVec 1024 := g.k[r.val]
/-- Write a predicate. -/
def Regs.wk (g : Regs) (r : KR) (v : BitVec 1024) : Regs := { g with k := g.k.set r.val v }
/-- Lower predicate of a pair. -/
def kpLo (p : KP) : KR := ⟨2 * p.val, by omega⟩
/-- Upper predicate of a pair. -/
def kpHi (p : KP) : KR := ⟨2 * p.val + 1, by omega⟩
/-- Every bit. -/
def allBits (b : Bool) : BitVec 1024 := if b then BitVec.allOnes 1024 else 0
/-- Write a compare's pair (R68). -/
def Regs.wpair (g : Regs) (p : KP) (b : Bool) : Regs := (g.wk (kpLo p) (allBits b)).wk (kpHi p) (allBits !b)

/-- QMAP of register `r` in a SLOTCFG (Table 2-5): 0 for a register that stands for no queue. -/
def qmap (cfg : Word) (r : Reg) : Nat :=
  if 24 ≤ r.val ∧ r.val < 28 then bits cfg (2 * (r.val - 24)) 2 else 0

/-- The queue a register stands for. -/
def qOf (r : Reg) : Fin 4 := ⟨(r.val - 24) % 4, Nat.mod_lt _ (by decide)⟩

/-- The queue of a thread's block on its core. -/
def Dev.queue (d : Dev) (t : Thread) (q : Fin 4) : Option Queue :=
  match (d.core t.coreSlot.1).q[q.val] with
  | some x => if x.blk = t.blk then some x else none
  | none => none

/-- Put back a queue. -/
def Dev.setQueue (d : Dev) (t : Thread) (q : Fin 4) (x : Queue) : Dev :=
  let c := t.coreSlot.1
  d.setCore c { d.core c with q := (d.core c).q.set q.val (some x) }

/-- Write an instruction's result to an x register: a push where the register is a producer-mapped queue
(R32, R33), else the register. -/
def Dev.putX (d : Dev) (tid : Nat) (r : Reg) (v : Word) : Dev :=
  match d.thr tid with
  | none => d
  | some t =>
    if qmap t.slotcfg r = 2 then
      match d.queue t (qOf r) with
      | some q => d.setQueue t (qOf r) { q with items := q.items ++ [v] }
      | none => d
    else d.setThr tid { t with regs := t.regs.wx r v }

/-- Change a thread's registers. -/
def Dev.regs (d : Dev) (tid : Nat) (f : Regs → Regs) : Dev :=
  d.updThr tid (fun t => { t with regs := f t.regs })

/-! ### Time at a home -/

/-- The counter of module `m`, by this module's (R102). -/
def Dev.clock (d : Dev) (drip m : Nat) : Nat :=
  ((drip : Int) + look 0 m d.offsets).toNat

/-! ### Leases -/

/-- The lease record that a home holds under an index. -/
def Dev.lease (d : Dev) (a : AgentId) (i : Nat) : Option Lease :=
  d.leases.find? (fun l => l.agent = a && l.index = i)

/-- Replace a lease record. -/
def Dev.setLease (d : Dev) (l : Lease) : Dev :=
  { d with leases := d.leases.map (fun x => if x.agent = l.agent && x.index = l.index then l else x) }

/-- The retained version of a line ends with the lease that expires at `x`. -/
def BLine.endsAt (b : BLine) (x : Nat) : Bool :=
  match b.old with
  | some (_, _, some r) => r = x
  | _ => false

/-- Set a lease's expiry. An old version is held as long as its retention lease lives (R126, R248). -/
def Dev.setExpiry (d : Dev) (l : Lease) (e : Nat) : Dev :=
  let d := d.setLease { l with expiry := e }
  match l.payload with
  | .retention line => { d with blines := d.blines.map (fun (b : BLine) =>
      if b.line = line && b.endsAt l.expiry then { b with old := b.old.map (fun o => (o.1, o.2.1, some e)) }
      else b) }
  | _ => d

/-- The root of a lease's chain (R109), within five records; none when a parent's record is gone. -/
def Dev.rootN (d : Dev) : Nat → Lease → Option Lease
  | 0, _ => none
  | n + 1, l =>
    match l.parent with
    | none => some l
    | some (a, i, g) =>
      match d.lease a i with
      | some p => if p.gen = g then d.rootN n p else none
      | none => none

/-- The root. -/
def Dev.root (d : Dev) (l : Lease) : Option Lease := d.rootN 5 l

/-- Links from a lease to its root. -/
def Dev.linksN (d : Dev) : Nat → Lease → Nat
  | 0, _ => 0
  | n + 1, l =>
    match l.parent with
    | none => 0
    | some (a, i, _) =>
      match d.lease a i with
      | some p => d.linksN n p + 1
      | none => 1

/-- Links from a lease to its root. -/
def Dev.links (d : Dev) (l : Lease) : Nat := d.linksN 5 l

/-- The longest chain of leases tethered below a lease. -/
def Dev.heightN (d : Dev) : Nat → Lease → Nat
  | 0, _ => 0
  | n + 1, l =>
    (d.leases.filter (fun x => x.parent = some (l.agent, l.index, l.gen))).foldl
      (fun h x => max h (d.heightN n x + 1)) 0

/-- The longest chain below. -/
def Dev.height (d : Dev) (l : Lease) : Nat := d.heightN 4 l

/-- The first drip after an array grant's run of 16 commands, once it is over (R154). -/
def Dev.runEnd (d : Dev) (l : Lease) : Option Nat :=
  match l.payload with
  | .array c => match (d.clus c).array.grant with
    | some g => if g.index = l.index ∧ g.gen = l.gen then g.last.map (· + 1) else none
    | none => none
  | _ => none

/-- Effective expiry (R109): that of the root, or the end of an array grant's run; 0 when the chain is broken. -/
def Dev.expiry (d : Dev) (l : Lease) : Nat :=
  match d.root l with
  | some r => min r.expiry (min ((d.runEnd l).getD r.expiry) ((d.runEnd r).getD r.expiry))
  | none => 0

/-- The effective expiry is drip `t` of the root's home or earlier (R108: half-open). -/
def Dev.lapsedBy (d : Dev) (l : Lease) (t : Nat) : Bool := d.expiry l ≤ t

/-- Lapsed at drip `t`, or known to have lapsed. A chain with a retired record has lapsed. -/
def Dev.lapsedAt (d : Dev) (l : Lease) (t : Nat) : Bool :=
  l.dead || (match d.root l with
    | some r => r.dead
    | none => true) || d.lapsedBy l t

/-- Lapsed now, by the counter of the lease's home. -/
def Dev.lapsed (d : Dev) (drip : Nat) (l : Lease) : Bool := d.lapsedAt l (d.clock drip l.agent.mod)

/-- Codes of Table 6-2. -/
def Kind.code : Kind → Nat
  | .range => 1 | .lock => 2 | .barrier => 3 | .path => 4 | .context => 5 | .array => 6 | .cap => 7
  | .retention => 8 | .bundle => 9 | .frontier => 10

/-- KIND, AGENT, INDEX and GEN of a handle (Table 6-1). -/
def hKind (h : Word) : Nat := bits h 60 4
def hAgent (h : Word) : Nat := bits h 48 12
def hIndex (h : Word) : Nat := bits h 24 24
def hGen (h : Word) : Nat := bits h 0 24
/-- A handle. -/
def mkHandle (kind agent index gen : Nat) : Word :=
  wd64 (kind * 2 ^ 60 + agent * 2 ^ 48 + index * 2 ^ 24 + gen)

/-- The number of the agent map a context uses: context 0 belongs to no tenant (R374). -/
def mapNo (tenant ctx : Nat) : Nat := if ctx = 0 then 256 else tenant

/-- The agent a number names in a tenant's map, unless the entry is free or retired (R105). -/
def Dev.agentOf (d : Dev) (tenant ctx n : Nat) : Option AgentId :=
  match (look [] (mapNo tenant ctx) d.maps)[n]? with
  | some e => if e.ret then none else some e.agent
  | none => none

/-- The number of an agent in a list of entries, from `i` on. -/
def agentIdx (a : AgentId) (inc : Nat) : Nat → List MapEntry → Option Nat
  | _, [] => none
  | i, e :: l => if e.agent = a && e.inc = inc && !e.ret then some i else agentIdx a inc (i + 1) l

/-- Incarnation of an agent. -/
def Dev.inc (d : Dev) (a : AgentId) : Nat :=
  match d.incs.find? (fun p => p.1 = a) with
  | some p => p.2
  | none => 0

/-- The agent's number in a tenant's map, assigned at need: the lowest not yet assigned (R105); none past
4,096. -/
def Dev.agentNo (d : Dev) (tenant ctx : Nat) (a : AgentId) : Dev × Option Nat :=
  let m := look [] (mapNo tenant ctx) d.maps
  match agentIdx a (d.inc a) 0 m with
  | some i => (d, some i)
  | none =>
    if m.length < 4096 then
      ({ d with maps := put (mapNo tenant ctx) (m ++ [⟨a, d.inc a, false⟩]) d.maps }, some m.length)
    else (d, none)

/-- The lowest record number at a home that may be granted again or was never granted (R119). The record of a
range stays its own: it tells the home that the range has lapsed until the range's memory is granted again. -/
def Dev.freeIndex (d : Dev) (a : AgentId) (drip : Nat) : Nat → Nat → Nat
  | 0, i => i
  | n + 1, i =>
    match d.lease a i with
    | none => i
    | some l =>
      if d.lapsed drip l && l.gen < 0xFFFFFF && (match l.payload with
          | .bundle _ | .lock .. | .range .. => false
          | _ => true) then i
      else d.freeIndex a drip n (i + 1)

/-- An agent that accepts and grants nothing (R125). -/
def Dev.outOfUse (d : Dev) (a : AgentId) : Bool := d.quarantine.any (fun p => p.1 = a)

/-- The number and generation that a grant's record takes (R119). An array has one record, whose index moves on
past the last generation; a range takes the record of one that has lapsed over its memory. -/
def Dev.recordFor (d : Dev) (drip : Nat) (a : AgentId) (p : Payload) : Nat × Nat :=
  let free := d.freeIndex a drip d.leases.length 0
  let next := fun i => (i, match d.lease a i with
    | some l => l.gen + 1
    | none => 1)
  match p with
  | .array _ => match d.leases.find? (fun l => l.agent = a) with
    | some l => if l.gen < 0xFFFFFF then (l.index, l.gen + 1) else ((l.index + 1) % 2 ^ 24, 1)
    | none => (0, 1)
  | .range b n _ => match d.leases.find? (fun l => l.agent = a && l.gen < 0xFFFFFF && d.lapsed drip l
      && match l.payload with
        | .range b' n' _ => b < b' + n' && b' < b + n
        | _ => false) with
    | some l => next l.index
    | none => next free
  | _ => next free

/-- A record that a grant replaces. -/
def Lease.replacedBy (l : Lease) (a : AgentId) (i : Nat) (p : Payload) : Bool :=
  l.agent = a && (l.index = i || match p with
    | .array _ => true
    | _ => false)

/-- Grant a lease at a home: a free record with a new generation (R119), live from now (R149). Answers the
handle, or none when the agent map is full, the home is out of use, or it has no free record. -/
def Dev.grantLease (d : Dev) (drip : Nat) (a : AgentId) (kind : Kind) (holder : Option Nat)
    (tenant ctx expiry : Nat) (parent : Option (AgentId × Nat × Nat)) (p : Payload) : Dev × Option Word :=
  let r := d.recordFor drip a p
  if d.outOfUse a ∨ 2 ^ 24 ≤ r.1 then (d, none)
  else match d.agentNo tenant ctx a with
  | (d, none) => (d, none)
  | (d, some n) =>
    let l : Lease := ⟨a, r.1, r.2, kind, holder, tenant, expiry, parent, p, false⟩
    ({ d with
        leases := l :: d.leases.filter (fun x => !x.replacedBy a r.1 p)
        guards := d.guards.filter (fun c => !(c.agent = a && c.index = r.1))
        started := true },
      some (mkHandle kind.code n r.1 r.2))

/-- A lock whose lease has lapsed is handed on in that drip where a request waits for it (R116, R140). -/
def Dev.handsOn (d : Dev) (drip : Nat) (l : Lease) : Bool :=
  match l.payload with
  | .lock _ (_ :: _) => d.lapsed drip l
  | _ => false

/-- The handle check of R97 and R107, at the lease's home: generation and kind, lapse, holder. The first
that fails gives the cause. -/
def Dev.judge (d : Dev) (drip : Nat) (f : From) (h : Word) : Except Nat Lease :=
  match d.agentOf f.tenant f.ctx (hAgent h) with
  | none => .error Cause.leaseLapsed
  | some a =>
    match d.lease a (hIndex h) with
    | none => .error Cause.genMismatch
    | some l =>
      if l.gen ≠ hGen h ∨ l.kind.code ≠ hKind h ∨ d.handsOn drip l then .error Cause.genMismatch
      else if d.lapsed drip l then .error Cause.leaseLapsed
      else if l.holder ≠ some f.ctx then .error Cause.notHolder
      else .ok l

/-- The range lease that covers a place: the latest granted. -/
def Dev.rangeOf (d : Dev) (k : Nat) : Option Lease :=
  d.leases.find? (fun l => match l.payload with
    | .range b n _ => b ≤ k && k < b + n
    | _ => false)

/-- A plain access judged against the range that covers its line (R113, R114); a line that no range
covers has no guarding lease. -/
def Dev.judgeRange (d : Dev) (drip ctx k : Nat) : Option Nat :=
  match d.rangeOf k with
  | none => none
  | some l =>
    if l.holder ≠ some ctx then some Cause.genMismatch
    else if d.lapsed drip l then some Cause.leaseLapsed
    else none

/-- A duration operand in drips (R106); none when m = 0. -/
def duration (v : Nat) : Option Nat :=
  if v % 2048 = 0 then none else some (max Config.quantum (v % 2048 * 2 ^ (v / 2048 % 32)))

/-! ### Homes -/

/-- The grotto slice of an address (R262). -/
def sliceOf (p : Nat) : Nat := (p / 128 % 32) ^^^ (p / 4096 % 32)

/-- The command windows of live tenants: base places, 36 KiB each (R149, R364). -/
def Dev.windowOf (d : Dev) (k : Nat) : Option Lease :=
  d.leases.find? (fun l => match l.payload with
    | .anchor _ w _ => w ≤ k && k < w + 36864
    | _ => false)

/-- The home of a line, for an agent of die `die` (R262, R364). -/
def Dev.homeOf (d : Dev) (die k : Nat) : AgentId :=
  let p := keyPhys k
  if keyAp k = 0 then
    if isIo p then ⟨d.modNo, 4, 3, 0⟩
    else if (d.windowOf k).isSome then ⟨d.modNo, 4, 3, 0⟩
    else ⟨d.modNo, p / 2 ^ 37, 0, sliceOf p⟩
  else ⟨d.modNo, look die (lineOf k) d.foreign, 0, sliceOf p⟩

/-- The home of a line for the domain: a peer line's own slice (R262, R291). -/
def Dev.domHome (d : Dev) (die k : Nat) : AgentId :=
  if 1 ≤ keyAp k ∧ keyAp k ≤ 0xC0 then ⟨keyAp k - 1, keyPhys k / 2 ^ 37, 0, sliceOf (keyPhys k)⟩
  else d.homeOf die k

/-- The lantern, the command unit and the frontier unit of a die. -/
def Dev.lantern (d : Dev) : AgentId := ⟨d.modNo, 4, 2, 0⟩
def Dev.cmdUnit (d : Dev) : AgentId := ⟨d.modNo, 4, 3, 0⟩
def Dev.arrayAgent (d : Dev) (clus : Nat) : AgentId := ⟨d.modNo, clus / 32, 1, clus % 32⟩

/-! ### Translation (17) -/

/-- An access kind of R336, as coded in Table 17-9. -/
inductive AccK where
  | read | write | execute | atomic
  deriving DecidableEq, Repr

/-- ACC of Table 17-9. -/
def AccK.code : AccK → Nat
  | .read => 1 | .write => 2 | .execute => 3 | .atomic => 4
/-- Back from ACC. -/
def AccK.ofCode : Nat → AccK
  | 2 => .write | 3 => .execute | 4 => .atomic | _ => .read

/-- The form of a global address (R78 step 3): bits [63:60] and [55:51] equal bit 50. -/
def formOk (va : Word) : Bool :=
  let b := bit va 50
  bits va 60 4 = (if b then 15 else 0) && bits va 51 5 = (if b then 31 else 0)

/-- A leaf: its APER and FRAME, and its permission bits (Table 17-4). -/
def leafAper (l : Word) : Nat := bits l 56 8
def leafFrame (l : Word) : Nat := bits l 16 36 * 65536
def leafHeat (l : Word) : Bool := bit l 7
def leafCmpr (l : Word) : Bool := bit l 6
def leafTag (l : Word) : Bool := bit l 5
def leafRap (l : Word) : Bool := bit l 4

/-- An aperture of R335 that is not reserved. -/
def aperOk (a : Nat) : Bool := a ≤ 0xC0 || a = 0xFD || a = 0xFE

/-- The check of an access kind against a leaf (the last lines of R336). -/
def leafCheck (k : AccK) (l : Word) (modNo : Nat) : Option Nat :=
  let r := bit l 1
  let w := bit l 2
  let x := bit l 3
  if (k = .read && !r) || (k = .write && !w) || (k = .execute && !x) || (k = .atomic && !(r && w)) then
    some Cause.permission
  else if k = .atomic && 1 ≤ leafAper l && leafAper l ≤ 0xC0 && leafAper l ≠ modNo + 1 && !leafRap l then
    some Cause.remoteAtomic
  else none

/-- The place of an address under a leaf (R335: a peer aperture that names this module is local). -/
def leafPlace (l : Word) (large : Bool) (va : Word) (modNo : Nat) : Nat :=
  let ap := if leafAper l = modNo + 1 then 0 else leafAper l
  apKey ap (leafFrame l + bits va 0 (if large then 21 else 16))

/-- An entry of a node, read at its home. -/
def entryAt (mem : Memory) (node idx : Nat) : Word := mem.read64 (apKey 0 (node + 8 * idx))

/-- The levels of R336, as a recursion over the remaining indices. Answers the node of the leaf table and
whether it is a large one, or the fault and its level. -/
def walkDirs (mem : Memory) : Nat → Nat → List Nat → Except (Nat × Nat) (Nat × Bool)
  | node, _, [] => .ok (node, false)
  | node, lv, i :: rest =>
    let d := entryAt mem node i
    let sz := bit d 61
    if bits d 52 9 ≠ 0 ∨ bits d 1 4 ≠ 0 ∨ (sz ∧ rest ≠ []) then .error (Cause.ptFormat, lv)
    else if !bit d 0 then .error (Cause.notPresent, lv)
    else if bits d 62 2 ≠ 0 then .error (Cause.nodeNotPresent, lv + 1)
    else if rest = [] then .ok (bits d 5 47 * 32, sz)
    else walkDirs mem (bits d 5 47 * 32) (lv + 1) rest

/-- The address of a context-table entry (R334). -/
def ctxEntry (ctxtb : Word) (ctx : Nat) : Nat := apKey 0 ((ctxtb.toNat + 32 * ctx) % 2 ^ 52)

/-- The indices of an address into the top, middle and lowest tables. -/
def dirIdx (va : Word) : List Nat := [bits va 41 10, bits va 32 9, bits va 23 9]

/-- A walk (R336): the leaf and its size, or the fault and its level. -/
def walkTree (mem : Memory) (ctxtb : Word) (modNo ctx : Nat) (va : Word) (k : AccK) :
    Except (Nat × Nat) (Word × Bool) :=
  let e := mem.read64 (ctxEntry ctxtb ctx)
  if !bit e 0 then .error (Cause.notPresent, 0)
  else if bits e 62 2 ≠ 0 then .error (Cause.nodeNotPresent, 0)
  else
    match walkDirs mem (bits e 13 39 * 8192) 0 (dirIdx va) with
    | .error f => .error f
    | .ok (node, large) =>
      let l := entryAt mem node (if large then bits va 21 2 else bits va 16 7)
      if bits l 52 4 ≠ 0 ∨ bits l 8 8 ≠ 0 ∨ !aperOk (leafAper l) ∨ (large ∧ bits l 16 5 ≠ 0) then
        .error (Cause.ptFormat, 3)
      else if !bit l 0 then .error (Cause.notPresent, 3)
      else match leafCheck k l modNo with
        | some c => .error (c, 3)
        | none => .ok (l, large)

/-- The entries of the tables below a node that a walk reads. -/
def dirPlaces (mem : Memory) : Nat → List Nat → List Nat
  | _, [] => []
  | node, i :: rest =>
    let d := entryAt mem node i
    apKey 0 (node + 8 * i) :: (if bit d 0 ∧ bits d 62 2 = 0 then dirPlaces mem (bits d 5 47 * 32) rest else [])

/-- The node of an address's leaf table, and whether its pages are large. -/
def leafNode (mem : Memory) (ctxtb : Word) (ctx : Nat) (va : Word) : Option (Nat × Bool) :=
  (walkDirs mem (bits (mem.read64 (ctxEntry ctxtb ctx)) 13 39 * 8192) 0 (dirIdx va)).toOption

/-- The lines of the entries that a walk reads, each at its home as a load at SYS (R333). -/
def walkLines (mem : Memory) (ctxtb : Word) (ctx : Nat) (va : Word) : List Nat :=
  (ctxEntry ctxtb ctx :: dirPlaces mem (bits (mem.read64 (ctxEntry ctxtb ctx)) 13 39 * 8192) (dirIdx va)
    ++ (match leafNode mem ctxtb ctx va with
      | some (n, large) => [apKey 0 (n + 8 * (if large then bits va 21 2 else bits va 16 7))]
      | none => [])).map lineOf

/-- Two addresses of a context lie on one page, large or small (R337). -/
def samePage (mem : Memory) (ctxtb : Word) (ctx : Nat) (a b : Word) : Bool :=
  bits a 16 35 == bits b 16 35
  || (bits a 21 30 == bits b 21 30 && (match leafNode mem ctxtb ctx a with
    | some (_, large) => large
    | none => false))

/-- A range that ALLOC mapped at its BASE in its holder's context (R150): the leaf is local, readable and
writable. An execute access there takes the page tree's own leaf.
DESIGN CHOICE, unsafe (log 91). -/
def Dev.allocPlace (d : Dev) (ctx : Nat) (va : Word) : Option Nat :=
  let a := (va &&& 0x0007FFFFFFFFFFFF).toNat
  d.leases.findSome? (fun l => match l.payload with
    | .range b n base =>
      if l.holder = some ctx ∧ base ≠ 0 ∧ base.toNat ≤ a ∧ a < base.toNat + n then some (b + (a - base.toNat))
      else none
    | _ => none)

/-- The leaf bits of such a range: valid, readable, writable. -/
def allocLeaf : Word := 7

/-- A translation-cache entry for an address (R337). -/
def TlbE.covers (e : TlbE) (ctx : Nat) (va : Word) : Bool :=
  e.ctx = ctx && e.page = bits va 16 35 / (if e.large then 32 else 1) * (if e.large then 32 else 1)

/-- The translation a core can serve now: the leaf and the place. None when a walk is needed, whether the
cache misses or the leaf refuses the access kind (the walk then ends in the fault). -/
def Dev.translate (d : Dev) (core ctx : Nat) (va : Word) (k : AccK) : Option (Word × Nat) :=
  match (if k = .execute then none else d.allocPlace ctx va) with
  | some p => some (allocLeaf, p)
  | none =>
    match (d.core core).tlb.find? (·.covers ctx va) with
    | none => none
    | some e =>
      match leafCheck k e.leaf d.modNo with
      | some _ => none
      | none => some (e.leaf, leafPlace e.leaf e.large va d.modNo)

/-- A walk in progress that a miss joins: of its context and page (R337). -/
def Dev.joins (d : Dev) (mem : Memory) (die ctx : Nat) (va : Word) (w : Walk) : Bool :=
  w.die == die && w.ctx == ctx && !w.stale && samePage mem d.ctxtb ctx w.va va

/-- Ask the die's walk unit: join a walk of the same key, or begin one when fewer than 8 run (R337). -/
def Dev.askWalk (d : Dev) (mem : Memory) (die ctx : Nat) (va : Word) (j : Waiter) : Dev :=
  if d.walks.any (d.joins mem die ctx va) then
    { d with walks := d.walks.map (fun w =>
        if d.joins mem die ctx va w && !w.joiners.contains j then { w with joiners := w.joiners ++ [j] } else w) }
  else if (d.walks.filter (fun w => w.die = die)).length < 8 then
    let i := (d.die die).nextWalk
    let d := d.setDie die { d.die die with nextWalk := i + 1 }
    { d with walks := d.walks ++ [⟨i * 4 + die, die, ctx, va, [j], false⟩] }
  else d

/-! ### Fault records and the log (R343) -/

/-- File a fault record; a translation fault's requesters wait on it. -/
def Dev.fileFault (d : Dev) (die ctx tenant cause level orig acc : Nat) (addr : Word) (core slot : Nat)
    (ws : List Waiter) (waits : Bool) : Dev × Nat :=
  let n := (d.die die).nextRid
  let rid := die * 2 ^ 30 + n % 2 ^ 30
  let d := d.setDie die { d.die die with nextRid := n + 1 }
  ({ d with faults := d.faults ++
      [⟨rid, die, ctx, tenant, cause, level, orig, acc, addr, core, slot, ws, ws.length, false, waits, false⟩] },
    rid)

/-- File a record for a tenant's fault log. -/
def Dev.fileLog (d : Dev) (die tenant cause orig : Nat) (addr : Word) (core slot : Nat) : Dev :=
  let n := (d.die die).nextRid
  let d := d.setDie die { d.die die with nextRid := n + 1 }
  { d with faults := d.faults ++
      [⟨die * 2 ^ 30 + n % 2 ^ 30, die, 0, tenant, cause, 0, orig, 0, addr, core, slot, [], 0, false, false, true⟩] }

/-- A core lies in a rectangle that containment has fenced (R355). -/
def Dev.fencedCore (d : Dev) (core : Nat) : Bool := d.fenced.any (fun f => f.cores.contains core)

/-- The tenant's partition stops in this drip, or has stopped (R354). -/
def Dev.halted (d : Dev) (drip tenant : Nat) : Bool :=
  d.stops.any (fun s => s.tenant == tenant && (s.reached || decide (s.at' ≤ drip)))

/-- The tenant's partition is stopped (R354). -/
def Dev.tenantStopped (d : Dev) (tenant : Nat) : Bool := d.stops.any (fun s => s.tenant = tenant && s.reached)

/-- A log record of a unit that Table 17-9 gives no ORIG: that field is free. -/
def Dev.fileUnitLog (d : Dev) (die tenant cause : Nat) (addr : Word) : Dev :=
  d.tickFresh.fileLog die tenant cause ((Config.freeWord d.fresh).toNat % 16) addr 0 0

/-- The slot a message goes to is stopped: the message waits in a stow buffer (R354). The service context
belongs to no partition. -/
def Dev.srcStopped (d : Dev) (s : From) : Bool := s.ctx != 0 && d.tenantStopped s.tenant

/-! ### Code (R38 to R44) -/

/-- The 128-byte line of a place as a natural, from memory. -/
def lineBits (mem : Memory) (line : Nat) : BitVec 1024 := BitVec.ofNat 1024 (mem.readN line 128)

/-- A live L1 copy and its lease. -/
def Core.entry (c : Core) (line drip : Nat) : Option L1E :=
  c.l1.find? (fun e => e.line = line && drip < e.expiry && !e.once)

/-- A line as a fetch of code finds it. -/
def Core.codeCopy (c : Core) (line drip : Nat) : Option (BitVec 1024) :=
  (c.l1.find? (fun e => e.line = line && drip < e.expiry)).map L1E.data

/-- The data of a live L1 copy. -/
def Core.copy (c : Core) (line drip : Nat) : Option (BitVec 1024) := (c.entry line drip).map L1E.data

/-- The 64-byte code line at `off` of a 128-byte line. -/
def codeHalf (b : BitVec 1024) (place : Nat) : Nat := bits b (place % 128 / 64 * 512) 512

/-- The code line of an address that a core can serve now, or what it must ask for first. -/
inductive CodeRes where
  | line (l : Nat)
  | walk
  | fetch (line : Nat)

/-- Look for the code line of an address (R43). -/
def Dev.code (d : Dev) (drip core ctx : Nat) (pc : Word) : CodeRes :=
  match d.translate core ctx (pc &&& ~~~(63 : Word)) .execute with
  | none => .walk
  | some (_, p) =>
    match (d.core core).codeCopy (lineOf p) drip with
    | some b => .line (codeHalf b p)
    | none => .fetch (lineOf p)

/-- N and the reserved bits of a line word (Table 3-1). -/
def lineN (l : Nat) : Nat := fld l 11 5
def lineRes (l : Nat) : Nat := fld l 0 11
/-- Head k of a line (R38). -/
def lineHead (l k : Nat) : Nat := fld l (16 * k) 16
/-- Tail length of head k. -/
def headLen (l k : Nat) : Nat := tailBytes (fld (lineHead l k) 14 2)
/-- Bytes of the tails of heads 1 to k. -/
def tailSum (l : Nat) : Nat → Nat
  | 0 => 0
  | k + 1 => tailSum l k + headLen l (k + 1)
/-- The tail of head k (R39). -/
def lineTail (l k : Nat) : Nat := fld l (8 * (64 - tailSum l k)) (8 * headLen l k)
/-- Head k is well formed (R40). A head without a tail counts as one whose tail begins where the tail before it does, so
above an overlapped tail it is not well formed. DESIGN CHOICE, unsafe (log 103). -/
def headOk (l k : Nat) : Bool := lineRes l = 0 && 2 * lineN l + 2 + tailSum l k ≤ 64

/-- The head index of an address. -/
def pcIdx (a : Word) : Nat := bits a 1 5
/-- The conditions of R42 that need no line: bit 0 and the canonical form. -/
def pcForm (a : Word) : Bool := !bit a 0 && bits a 51 13 = (if bit a 50 then 2 ^ 13 - 1 else 0)
/-- The last two conditions of R42. -/
def pcInLine (a : Word) (l : Nat) : Bool :=
  1 ≤ pcIdx a && pcIdx a ≤ lineN l && !(fld (lineHead l (pcIdx a - 1)) 13 1 = 1 && 1 < pcIdx a)

/-- What judging a transfer's target comes to (R42). -/
inductive Judge where
  | good | bad
  /-- The line must come first. -/
  | ask (d : Dev)

/-- Ask for what a code line needs (R43): a walk, or a fetch of its line. -/
def Dev.askCode (d : Dev) (mem : Memory) (tid core ctx : Nat) (pc : Word) (r : CodeRes) : Dev :=
  match r with
  | .line _ => d
  | .walk => d.askWalk mem (coreDie core) ctx (pc &&& ~~~(63 : Word)) (.thread tid 3 (match d.thr tid with
      | some t => t.pc
      | none => 0) (pc &&& ~~~(63 : Word)))
  | .fetch l =>
    if (d.core core).fetching.contains l then d
    else (d.setCore core { d.core core with fetching := l :: (d.core core).fetching }).send
      (.fetch core l (match d.thr tid with
        | some t => match d.blk t.blk with
          | some b => b.rlease
          | none => 64
        | none => 64))

/-- Judge a target for a thread of a core (R42). -/
def Dev.target (d : Dev) (drip : Nat) (mem : Memory) (tid core ctx : Nat) (a : Word) : Judge :=
  if !pcForm a then .bad
  else match d.code drip core ctx a with
    | .line l => if pcInLine a l then .good else .bad
    | r => .ask (d.askCode mem tid core ctx a r)

/-- R42 as far as it can be judged without waiting for a line: from the copy in the L1, or from memory
under a walk; of a line that cannot be reached only the head index is judged. DEDUCED, unsafe (log 20). -/
def Dev.targetNow (d : Dev) (drip : Nat) (mem : Memory) (core ctx : Nat) (a : Word) : Bool :=
  pcForm a && match d.code drip core ctx a with
    | .line l => pcInLine a l
    | _ =>
      match walkTree mem d.ctxtb d.modNo ctx (a &&& ~~~(63 : Word)) .execute with
      | .ok (l, large) => pcInLine a (mem.readN (leafPlace l large (a &&& ~~~(63 : Word)) d.modNo) 64)
      | .error _ => 1 ≤ pcIdx a

/-! ### A thread at its entry -/

/-- A new thread (R321): everything zero but what is given; FMODE is RNE. -/
def Thread.entry (pc x1 x2 status handler slotcfg : Word) (srseed : BitVec 32) : Thread where
  regs := ⟨((Vector.replicate 32 0).set 1 x1).set 2 x2, Vector.replicate 16 VReg.zero, Vector.replicate 12 0⟩
  pc := pc
  fmode := 1
  fflags := 0
  cL := 0
  cS := 0
  cC := 0
  cM := 0
  pendX := 0
  pendV := 0
  pendK := 0
  slotcfg := slotcfg
  status := status
  cause := 0
  epc := 0
  eval := 0
  handler := handler
  anchor := 0
  lstat := 0
  srseed := srseed
  srctr := 0
  view := 0
  lost := 0
  wst := .ready
  stopped := false
  preempted := false
  exited := false
  notBefore := 0
  qblk := none
  traps := []
  acq := []
  fenceRel := 0
  fenceAcr := 0
  place := .saved
  blk := 0
  cidx := 0
  fifo0 := []
  fifo1 := []
  mcsLines := []
  mcsHeld := []
  mcsSince := none
  mcsStaged := []
  mcsBroken := none
  memberOf := []

/-- A crew and block of one thread, as AMSG starts one (R331): no point and no gallery part. -/
def Block.single (id tid core ctx tenant niche slot : Nat) : Block where
  id := id
  launch := none
  z := 0
  y := 0
  x := 0
  tenant := tenant
  ctx := ctx
  clus := coreClus core
  crews := [⟨core, 0, [tid], [], [], niche, 4096, [slot]⟩]
  slots := 1
  gall := 0
  gallLen := 0
  rlease := 64
  st := .running
  parkSince := none
  doneWait := none
  doneSent := false
  stow := []
  area := none
  donea := none
  cause := 0
  kept := []
  qsave := []
  shown := none
  admitted := 0

/-! ### Crews, and the end of a thread (R93, R332) -/

/-- Who sends a request of a thread. -/
def Thread.src (t : Thread) (tid : Nat) (r : Reg) (op : Nat) : From :=
  ⟨tid, t.coreSlot.1, t.ctx, t.tenant, r, op⟩

/-- Complete a crew's episode when every member has arrived or exited: release every waiter in the next
drip (R92, R20). -/
def Dev.crewCheck (d : Dev) (drip b core : Nat) : Dev :=
  match d.blk b with
  | none => d
  | some k =>
    match k.crews.find? (fun c => c.core = core) with
    | none => d
    | some c =>
      if c.tids.all (fun i => c.arrived.contains i || c.exited.contains i) then
        let d := c.arrived.foldl (fun d i => d.updThr i (fun t => match t.wst with
          | .cbar true => { t with wst := .ready, notBefore := max t.notBefore (drip + 1) }
          | _ => t)) d
        d.setBlk b { k with crews := k.crews.map (fun x => if x.core = core then { x with arrived := [] } else x) }
      else d

/-- Change the crew that holds a thread. -/
def Dev.updCrew (d : Dev) (b tid : Nat) (f : Crew → Crew) : Dev :=
  match d.blk b with
  | none => d
  | some k => d.setBlk b { k with crews := k.crews.map (fun c => if c.tids.contains tid then f c else c) }

/-- The core of the crew that holds a thread. -/
def Block.coreOf (b : Block) (tid : Nat) : Nat :=
  match b.crewOf tid with
  | some c => c.core
  | none => 0

/-- The core of a thread's crew, whether or not the thread is in a slot. -/
def Dev.crewCore (d : Dev) (b tid : Nat) : Nat :=
  match d.blk b with
  | some k => k.coreOf tid
  | none => 0

/-- A thread arrives at its crew barrier. -/
def Dev.arriveCrew (d : Dev) (drip b tid : Nat) : Dev :=
  let core := d.crewCore b tid
  let d := d.updThr tid (fun t => { t with wst := .cbar true })
  (d.updCrew b tid (fun c => { c with arrived := tid :: c.arrived })).crewCheck drip b core

/-- Block index of a thread (R29), its crew index, and sizes. -/
def Block.cidxOf (b : Block) (tid : Nat) : Nat :=
  match b.crewOf tid with
  | some c => c.tids.idxOf tid
  | none => 0
/-- Block index. -/
def Block.bidxOf (b : Block) (tid : Nat) : Nat :=
  match b.crewOf tid with
  | some c => c.rank * b.slots + c.tids.idxOf tid
  | none => 0

/-- A launch fails with a cause; the first stays (R346, R356). -/
def Dev.failLaunch (d : Dev) (l cause reason : Nat) : Dev :=
  match d.lch l with
  | none => d
  | some x => d.setLch l { x with failed := some (x.failed.getD (cause, reason)) }

/-- A block's launch fails; a block of no launch keeps the cause for its own record. -/
def Dev.failBlock (d : Dev) (b cause : Nat) : Dev :=
  match d.blk b with
  | some k => match k.launch with
    | some l => d.failLaunch l cause 0
    | none => d.setBlk b { k with cause := cause }
  | none => d

/-- Send a point's DONE from the core that issued it (R305). -/
def Dev.sendDone (d : Dev) (b core : Nat) : Dev :=
  match d.blk b with
  | none => d
  | some k => match k.launch with
    | none => d
    | some l =>
      if k.doneSent then d
      else
        (d.setBlk b { k with doneSent := true, doneWait := none }).send
          (.req ⟨0, core, k.ctx, k.tenant, 0, 0⟩ (.done l k.z k.y k.x))

/-- The last thread of a block has gone, from a core: its owed DONE is sent from there (R305), and its
resources become free (R322, R332). -/
def Dev.endBlock (d : Dev) (b core : Nat) : Dev :=
  match d.blk b with
  | none => d
  | some k =>
    let d := d.sendDone b core
    let d := match k.donea with
      | some (a, irq) => d.send (.req ⟨0, core, k.ctx, k.tenant, 0, 0⟩ (.amsgEnd a irq k.cause))
      | none => d
    let d := k.crews.foldl (fun d c => d.setCore c.core { d.core c.core with
      q := (d.core c.core).q.map (fun q => match q with
        | some x => if x.blk = b then none else some x
        | none => none) }) d
    { d with blocks := del b d.blocks }

/-- The slot of an exited thread is freed once its S count is 0 (R332). -/
def Dev.finishExit (d : Dev) (tid : Nat) : Dev :=
  match d.thr tid with
  | none => d
  | some t =>
    if t.exited && t.cS == 0 then
      let m := match d.blk t.blk with
        | some k => k.bidxOf tid
        | none => 0
      let d := t.memberOf.foldl (fun d p => d.send (.req (t.src tid 0 0) (.exitNotice p.1 p.2.1 p.2.2 m))) d
      let d := { d with threads := del tid d.threads, outst := d.outst.filter (fun o => o.tid != tid) }
      match d.blk t.blk with
      | some k =>
        if k.crews.all (fun c => c.tids.all (fun i => (d.thr i).isNone)) then d.endBlock t.blk (k.coreOf tid) else d
      | none => d
    else d

/-- The thread issues nothing more (R332): it counts as arrived at its crew barrier. -/
def Dev.endThread (d : Dev) (drip tid : Nat) : Dev :=
  match d.thr tid with
  | none => d
  | some t =>
    let d := d.setThr tid { t with exited := true, wst := .ready, traps := [] }
    let core := d.crewCore t.blk tid
    let d := (d.updCrew t.blk tid (fun c => { c with exited := tid :: c.exited })).crewCheck drip t.blk core
    d.finishExit tid

/-! ### Traps (R346) and their return (R351) -/

/-- The thread's multi-line set is empty (R298). -/
def Thread.emptySet (t : Thread) : Thread :=
  { t with
    mcsLines := []
    mcsHeld := []
    mcsSince := none
    mcsStaged := []
    mcsBroken := none }

/-- Take a trap with cause `k`, return point `p` and value `v`. With INTRAP set or a HANDLER that fails
R42, a fault record is filed and the thread ends, its launch with it. -/
def Dev.takeTrap (d : Dev) (drip : Nat) (mem : Memory) (tid k : Nat) (p v : Word) : Dev :=
  match d.thr tid with
  | none => d
  | some t =>
    let cs := t.coreSlot
    if t.inTrap || !d.targetNow drip mem cs.1 t.ctx t.handler then
      let k2 := if t.inTrap then Cause.doubleTrap else k
      let d := (d.fileFault (coreDie cs.1) t.ctx t.tenant k2 0 0 0 v cs.1 cs.2 [] false).1
      (d.failBlock t.blk k2).endThread drip tid
    else
      d.setThr tid { t.emptySet with
        status := setModes t.status true t.mode true
        cause := wd64 k
        epc := p
        eval := v
        pc := t.handler
        wst := .ready }

/-- TRET's change of STATUS and pc: MODE = PMODE, INTRAP = 0, pc = EPC. -/
def Thread.trapReturn (t : Thread) : Thread :=
  { t with status := setModes t.status (bit t.status 1) (bit t.status 1) false, pc := t.epc }

/-! ### Counts that fall, and what waits for them -/

/-- Entries of a core's journal that a slot has not been told of (R120). -/
def JEntry.unrep (s : Nat) (e : JEntry) : Bool := e.v && !e.rpt && e.slot == s

/-- Number of the first such entry, from `i` on. -/
def firstUnrep (s : Nat) : Nat → List JEntry → Nat
  | _, [] => 0
  | i, e :: l => if e.unrep s then i else firstUnrep s (i + 1) l

/-- The trap that an unreported entry or a lost refusal calls for (R87, R121): its cause and value, and the
reports marked. -/
def Dev.lapse (d : Dev) (tid : Nat) (t : Thread) : Option (Dev × Nat × Word) :=
  let cs := t.coreSlot
  let c := d.core cs.1
  let n := (c.jrnl.toList.filter (JEntry.unrep cs.2)).length
  if t.lost ≠ 0 then
    some (d.setThr tid { t with lost := 0 }, Cause.journalOverflow, wd64 t.lost)
  else if n ≠ 0 then
    some (d.setCore cs.1 { c with jrnl := c.jrnl.map (fun e => if e.unrep cs.2 then { e with rpt := true } else e) },
      Cause.lapsePosted, wd64 (firstUnrep cs.2 0 c.jrnl.toList + 256 * n))
  else none

/-- A bound of WAIT is met; 15 means any (R86). -/
def boundMet (n : Nat) (b : BitVec 4) : Bool := b == 15 || n ≤ b.toNat

/-- Act on a thread whose counts have fallen: a WAIT completes or traps (R86, R87), also as the S head of a bundle
whose V head has performed (DESIGN CHOICE, unsafe, log 12), a CBAR arrives (R92), an exited thread's slot is freed (R332). -/
def Dev.settle (d : Dev) (drip : Nat) (mem : Memory) (tid : Nat) : Dev :=
  match d.thr tid with
  | none => d
  | some t =>
    if t.exited then d.finishExit tid
    else match t.wst with
    | .wait l s c m head =>
      if boundMet t.cL l && boundMet t.cS s && boundMet t.cC c && boundMet t.cM m then
        match (if s = 15 then none else d.lapse tid t) with
        | some (d', k, v) => d'.takeTrap drip mem tid k head v
        | none => d.setThr tid { t with wst := .ready }
      else d
    | .cbar false => if t.cL = 0 then d.arriveCrew drip t.blk tid else d
    | _ => d

/-- An operation is over: its count falls, its pending bits clear, and it holds no access back. A DONE that
waited for it is sent with the last (R305). -/
def Dev.closeOp (d : Dev) (drip : Nat) (mem : Memory) (op : Nat) : Dev :=
  match d.outst.find? (fun o => o.op = op) with
  | none => d
  | some o =>
    let d := { d with outst := d.outst.filter (fun x => x.op != op) }
    let d := d.updThr o.tid (fun t =>
      { t.lower o.isL o.px o.pv o.pk with acq := t.acq.filter (fun x => x != op) })
    let waiting := d.blocks.filter (fun p => match p.2.doneWait with
      | some l => l.2.contains op
      | none => false)
    let d := waiting.foldl (fun d p => match p.2.doneWait with
      | some l =>
        let l' := l.2.filter (fun x => x != op)
        let d := d.setBlk p.1 { p.2 with doneWait := some (l.1, l') }
        if l' = [] then d.sendDone p.1 l.1 else d
      | none => d) d
    d.settle drip mem o.tid

/-- One piece of an operation is over. -/
def Dev.pieceDone (d : Dev) (drip : Nat) (mem : Memory) (op : Nat) : Dev :=
  match d.outst.find? (fun o => o.op = op) with
  | none => d
  | some o =>
    if o.left ≤ 1 then d.closeOp drip mem op
    else { d with outst := d.outst.map (fun x => if x.op = op then { x with left := x.left - 1 } else x) }

/-! ### Results of bodies -/

/-- What an effect comes to. -/
inductive Res where
  | eff (d : Dev) (w : List (Nat × Byte))
  | fault (f : Fault)
  | refuse (r : Refusal)

/-- The outcome of a body: its writes are applied to memory; the counter and the agenda stay. -/
def Res.run (s : State) : Res → Host.Outcome State Fault Refusal
  | .eff d w => .next { s with dev := d, mem := s.mem.writeAll w }
  | .fault f => .fault f
  | .refuse r => .refused r

/-- Run a body on a state. -/
def run (b : Nat → Memory → Dev → Res) (s : State) : Host.Outcome State Fault Refusal :=
  (b s.drip s.mem s.dev).run s

end Sys2Proof.Machine
end

