-- ==== Sys2Proof/Machine/Flags.lean ====
section
/-!
DEFINITION. Numbers and their flags (spec 09; 04 R70 to R76): the formats, exact values, rounding (R177,
R178), overflow (R181), the flags each operation raises, the 4-bit grids (R171), the coordinate hash
(R190) and the functions of R189. A finite value is ±m × 2^e, held exactly; where a quotient, a root or
a function has no finite expansion, m holds a truncation whose lowest bit is set, which rounds alike.
-/
namespace Sys2Proof.Machine
open Sys2Proof

/-- NV, DZ, OF, UF, NX (Table 4-6). -/
abbrev Flags := BitVec 5
def flNV : Flags := 16
def flDZ : Flags := 8
def flOF : Flags := 4
def flUF : Flags := 2
def flNX : Flags := 1
/-- A flag raised on a condition. -/
def flIf (b : Bool) (f : Flags) : Flags := if b then f else 0

/-- A binary format (Tables 9-1 and 9-2): fraction and exponent bits, the code of the largest finite
magnitude, whether it has an infinity, and its canonical NaN (0: none). -/
structure Fp where
  fb : Nat
  eb : Nat
  top : Nat
  inf : Bool
  nan : Nat

def Fp.f64 : Fp := ⟨52, 11, 0x7FEFFFFFFFFFFFFF, true, 0x7FF8000000000000⟩
def Fp.f32 : Fp := ⟨23, 8, 0x7F7FFFFF, true, 0x7FC00000⟩
def Fp.f16 : Fp := ⟨10, 5, 0x7BFF, true, 0x7E00⟩
def Fp.bf16 : Fp := ⟨7, 8, 0x7F7F, true, 0x7FC0⟩
def Fp.e4m3 : Fp := ⟨3, 4, 0x7E, false, 0x7F⟩
def Fp.e5m2 : Fp := ⟨2, 5, 0x7B, true, 0x7E⟩
def Fp.e3m2 : Fp := ⟨2, 3, 0x1F, false, 0⟩
def Fp.e2m3 : Fp := ⟨3, 2, 0x1F, false, 0⟩

/-- The format of an element tag; `f32` for the tags that name no binary format. -/
def Fp.of : Fmt → Fp
  | .f64 => .f64 | .f16 => .f16 | .bf16 => .bf16 | .e4m3 => .e4m3 | .e5m2 => .e5m2 | .e3m2 => .e3m2
  | .e2m3 => .e2m3 | _ => .f32

/-- The format of a scalar type. -/
def Fp.ofType : FType → Fp
  | .f16 => .f16 | .bf16 => .bf16 | .f32 => .f32 | .f64 => .f64

def Fp.bias (f : Fp) : Int := 2 ^ (f.eb - 1) - 1
/-- Exponent of the smallest normal. -/
def Fp.emin (f : Fp) : Int := 1 - f.bias
/-- The sign bit. -/
def Fp.signBit (f : Fp) : Nat := 2 ^ (f.fb + f.eb)

/-- A value. -/
inductive FVal where
  | nan (signalling : Bool)
  | inf (neg : Bool)
  | fin (neg : Bool) (m : Nat) (e : Int)
  deriving DecidableEq, Repr

/-- The value of a code (R165 to R167). -/
def Fp.val (f : Fp) (code : Nat) : FVal :=
  let neg := code / f.signBit % 2 == 1
  let mag := code % f.signBit
  if f.top < mag then
    if f.inf && mag == f.top + 1 then .inf neg else .nan (fld code (f.fb - 1) 1 == 0)
  else
    let e := mag / 2 ^ f.fb
    let m := mag % 2 ^ f.fb
    if e = 0 then .fin neg m (f.emin - f.fb) else .fin neg (2 ^ f.fb + m) (e + f.emin - 1 - f.fb)

/-- How a result rounds: a code of Table 9-5, and the SR bits of R178. -/
structure RM where
  code : Nat
  key : Nat
  deriving DecidableEq, Repr

/-- Round to nearest even. -/
def RM.rne : RM := ⟨1, 0⟩

/-- `n` with what is cut off: m × 2^e as n + rem / den units of 2^q. -/
def cut (m : Nat) (e q : Int) : Nat × Nat × Nat :=
  if e ≤ q then (m / 2 ^ (q - e).toNat, m % 2 ^ (q - e).toNat, 2 ^ (q - e).toNat)
  else (m * 2 ^ (e - q).toNat, 0, 1)

/-- Whether a magnitude between two neighbours goes to the larger (R177, R178). -/
def RM.away (r : RM) (neg odd : Bool) (rem den : Nat) : Bool :=
  if rem = 0 then false
  else match r.code with
    | 2 => false
    | 3 => !neg
    | 4 => neg
    | 5 => den ≤ 2 * rem
    | 6 =>
      if neg then !decide (r.key < (den - rem) * 65536 / den) else decide (r.key < rem * 65536 / den)
    | _ => decide (den < 2 * rem) || (den == 2 * rem && odd)

/-- Round the magnitude m × 2^e to units of 2^q. Answers the count and whether it was inexact. -/
def RM.round (r : RM) (neg : Bool) (m : Nat) (e q : Int) : Nat × Bool :=
  let c := cut m e q
  (c.1 + b2n (r.away neg (c.1 % 2 == 1) c.2.1 c.2.2), c.2.1 != 0)

/-- The overflowed result (Table 9-8): the largest finite value, or the infinity, or E4M3's NaN. -/
def Fp.past (f : Fp) (r : RM) (sat neg : Bool) : Nat :=
  let big := sat || r.code == 2 || (r.code == 3 && neg) || (r.code == 4 && !neg) || (f.nan == 0)
  if big then f.top + b2n neg * f.signBit
  else if f.inf then f.top + 1 + b2n neg * f.signBit
  else f.nan

/-- Round a finite value into a format, with the flags (R177, R181, R166). -/
def Fp.roundFin (f : Fp) (r : RM) (sat neg : Bool) (m : Nat) (e : Int) : Nat × Flags :=
  if m = 0 then (b2n neg * f.signBit, 0)
  else
    let k : Int := e + Nat.log2 m
    let q : Int := max k f.emin - f.fb
    let p := r.round neg m e q
    let mag := ((max k f.emin - f.emin).toNat) * 2 ^ f.fb + p.1
    let tiny := k < f.emin && (r.round neg m e (k - f.fb)).1 < 2 ^ (f.fb + (f.emin - k).toNat)
    if f.top < mag then (f.past r sat neg, flOF ||| flNX)
    else (mag + b2n neg * f.signBit, flIf p.2 flNX ||| flIf (p.2 && tiny) flUF)

/-- Put a value into a format; `sat` selects the saturating row of Table 9-8. A NaN into a format without
NaN is the caller's (R180). -/
def Fp.pack (f : Fp) (r : RM) (sat : Bool) : FVal → Nat × Flags
  | .nan _ => (f.nan, 0)
  | .inf neg =>
    if f.inf && !sat then (f.top + 1 + b2n neg * f.signBit, 0)
    else if sat || f.nan == 0 then (f.top + b2n neg * f.signBit, flNV)
    else (f.nan, flNV)
  | .fin neg m e => f.roundFin r sat neg m e

/-! ### Exact operations -/

def FVal.isNan : FVal → Bool
  | .nan _ => true
  | _ => false
def FVal.isSig : FVal → Bool
  | .nan s => s
  | _ => false
def FVal.neg : FVal → FVal
  | .nan s => .nan s
  | .inf n => .inf !n
  | .fin n m e => .fin (!n) m e

/-- NV for a signalling operand (R166). -/
def sigNV (l : List FVal) : Flags := flIf (l.any FVal.isSig) flNV

/-- The signed significand of a finite value in units of 2^q, q at most its exponent. -/
def scaled (neg : Bool) (m : Nat) (e q : Int) : Int :=
  if neg then -((m * 2 ^ (e - q).toNat : Nat) : Int) else ((m * 2 ^ (e - q).toNat : Nat) : Int)

/-- a + b, exact; a zero sum of unlike signs is −0 under RDN only (IEEE 754). -/
def FVal.add (r : RM) (a b : FVal) : FVal × Flags :=
  match a, b with
  | .nan s, y => (.nan false, flIf (s || y.isSig) flNV)
  | _, .nan s => (.nan false, flIf s flNV)
  | .inf n, .inf n' => if n = n' then (.inf n, 0) else (.nan false, flNV)
  | .inf n, .fin .. => (.inf n, 0)
  | .fin .., .inf n => (.inf n, 0)
  | .fin n m e, .fin n' m' e' =>
    let q := min e e'
    let s := scaled n m e q + scaled n' m' e' q
    if s = 0 then (.fin (if n = n' then n else r.code == 4) 0 0, 0)
    else (.fin (s < 0) s.natAbs q, 0)

/-- a × b, exact. -/
def FVal.mul (a b : FVal) : FVal × Flags :=
  match a, b with
  | .nan s, y => (.nan false, flIf (s || y.isSig) flNV)
  | _, .nan s => (.nan false, flIf s flNV)
  | .inf n, .inf n' => (.inf (n != n'), 0)
  | .inf n, .fin n' m _ => if m = 0 then (.nan false, flNV) else (.inf (n != n'), 0)
  | .fin n m _, .inf n' => if m = 0 then (.nan false, flNV) else (.inf (n != n'), 0)
  | .fin n m e, .fin n' m' e' => (.fin (n != n') (m * m') (e + e'), 0)

/-- a × b + c, exact; 0 × ∞ is NaN with NV whatever c (Table 4-4). -/
def FVal.fma (r : RM) (a b c : FVal) : FVal × Flags :=
  let p := a.mul b
  let s := p.1.add r c
  (s.1, p.2 ||| s.2)

/-- A truncated quotient with its sticky bit. -/
def quo (n d : Nat) : Nat := 2 * (n / d) + b2n (n % d != 0)

/-- a / b. -/
def FVal.div (a b : FVal) : FVal × Flags :=
  match a, b with
  | .nan s, y => (.nan false, flIf (s || y.isSig) flNV)
  | _, .nan s => (.nan false, flIf s flNV)
  | .inf _, .inf _ => (.nan false, flNV)
  | .inf n, .fin n' _ _ => (.inf (n != n'), 0)
  | .fin n _ _, .inf n' => (.fin (n != n') 0 0, 0)
  | .fin n m e, .fin n' m' e' =>
    if m' = 0 then (if m = 0 then (.nan false, flNV) else (.inf (n != n'), flDZ))
    else (.fin (n != n') (quo (m * 2 ^ 160) m') (e - e' - 161), 0)

/-- Integer square root, bit by bit from bit `k − 1` down, above the root `acc` so far. -/
def isqrtFrom (n : Nat) : Nat → Nat → Nat
  | 0, acc => acc
  | k + 1, acc =>
    if (acc + 2 ^ k) * (acc + 2 ^ k) ≤ n then isqrtFrom n k (acc + 2 ^ k) else isqrtFrom n k acc

/-- Integer square root. -/
def isqrt (n : Nat) : Nat := isqrtFrom n (Nat.log2 n / 2 + 1) 0

/-- A truncated root with its sticky bit. -/
def rootSticky (n : Nat) : Nat := 2 * isqrt n + b2n (isqrt n * isqrt n != n)

/-- √a. -/
def FVal.sqrt : FVal → FVal × Flags
  | .nan s => (.nan false, flIf s flNV)
  | .inf n => if n then (.nan false, flNV) else (.inf false, 0)
  | .fin n m e =>
    if m = 0 then (.fin n 0 0, 0)
    else if n then (.nan false, flNV)
    else
      let s : Nat := 200 + (e % 2).toNat
      (.fin false (rootSticky (m * 2 ^ s)) ((e - s) / 2 - 1), 0)

/-- Order of two values; none with a NaN. -/
def FVal.cmp (a b : FVal) : Option Ordering :=
  match a, b with
  | .nan _, _ => none
  | _, .nan _ => none
  | .inf n, .inf n' => some (if n = n' then .eq else if n then .lt else .gt)
  | .inf n, .fin .. => some (if n then .lt else .gt)
  | .fin .., .inf n => some (if n then .gt else .lt)
  | .fin n m e, .fin n' m' e' =>
    let q := min e e'
    some (compare (scaled n m e q) (scaled n' m' e' q))

/-- The sign of a value. -/
def FVal.sign : FVal → Bool
  | .nan _ => false
  | .inf n => n
  | .fin n _ _ => n

/-- FMIN and FMAX of two codes (Table 4-4). -/
def Fp.minmax (f : Fp) (isMax : Bool) (x y : Nat) : Nat × Flags :=
  let a := f.val x
  let b := f.val y
  let fl := sigNV [a, b]
  if a.isNan then (if b.isNan then f.nan else y, fl)
  else if b.isNan then (x, fl)
  else
    let aLess := match a.cmp b with
      | some .lt => true
      | some .eq => a.sign
      | _ => false
    (if aLess != isMax then x else y, fl)

/-- FCMP's result and flags (R72). -/
def fcmp (cc : FCond) (a b : FVal) : Bool × Flags :=
  let o := a.cmp b
  let nv := match cc with
    | .lt | .le | .gt | .ge => flIf (a.isNan || b.isNan) flNV
    | _ => sigNV [a, b]
  (match cc, o with
    | .uno, none | .ne, none => true
    | _, none => false
    | .eq, some x => x == .eq
    | .ne, some x => x != .eq
    | .lt, some x => x == .lt
    | .le, some x => x != .gt
    | .gt, some x => x == .gt
    | .ge, some x => x != .lt
    | .uno, some _ => false
    | .ord, some _ => true, nv)

/-- FCLASS (R74). -/
def Fp.cls (f : Fp) (code : Nat) : Nat :=
  match f.val code with
  | .nan s => if s then 256 else 512
  | .inf n => if n then 1 else 128
  | .fin n m _ =>
    if m = 0 then (if n then 8 else 16)
    else if m < 2 ^ f.fb then (if n then 4 else 32)
    else (if n then 2 else 64)

/-- A value as an integer in lo … hi (R73): saturating, NaN 0, both with NV. -/
def FVal.toInt (r : RM) (lo hi : Int) : FVal → Int × Flags
  | .nan _ => (0, flNV)
  | .inf n => (if n then lo else hi, flNV)
  | .fin n m e =>
    let p := r.round n m e 0
    let v : Int := if n then -(p.1 : Int) else p.1
    if v < lo then (lo, flNV) else if hi < v then (hi, flNV) else (v, flIf p.2 flNX)

/-- An integer as a value. -/
def FVal.ofInt (v : Int) : FVal := .fin (v < 0) v.natAbs 0

/-! ### Block formats (R168 to R172, R180 to R182) -/

/-- The magnitudes of a 4-bit type in eighths, by magnitude index (Table 9-3). -/
def sv4Mags (t : Nat) : List Nat :=
  if t = 0 then [0, 8, 16, 24, 32, 40, 48, 56, 64]
  else if t = 1 then [0, 4, 8, 12, 16, 24, 32, 48]
  else if t = 2 then [0, 1, 2, 4, 8, 16, 32, 64]
  else [0, 8, 16, 24, 32, 48, 64, 96]

/-- Value of a code under a scale byte (R170, R171). -/
def sv4Val (scale code : Nat) : FVal :=
  let t := scale / 64 % 4
  let s := scale % 64
  if s = 63 then .nan false
  else
    let c := code % 16
    let e : Int := (s : Int) - 31 - 3
    if t = 0 then (if c < 8 then .fin false (8 * c) e else .fin true (8 * (16 - c)) e)
    else
      let m := (sv4Mags t).getD (c % 8) 0
      .fin (8 ≤ c && (t == 1 || m != 0)) m e

/-- Value of an element of a block format under its scale byte (R168, R170). -/
def blockVal (f : Fmt) (scale code : Nat) : FVal :=
  if f = .sv4 then sv4Val scale code
  else if scale = 255 then .nan false
  else match (Fp.of f).val (if f = .e3m2 ∨ f = .e2m3 then code % 64 else code) with
    | .fin n m e => .fin n m (e + (scale : Int) - 127)
    | v => v

/-- Exponent of a block's scale. -/
def scaleExp (f : Fmt) (scale : Nat) : Int :=
  if f = .sv4 then ((scale % 64 : Nat) : Int) - 31 else (scale : Int) - 127

/-- Place a magnitude between the entries of a grid: the index of the lower one, what is above it, and the
step, all in one unit; none above the last entry. `v` and the grid are in units of 1 / u eighths. -/
def gridCut (u v : Nat) : Nat → List Nat → Option (Nat × Nat × Nat)
  | _, [] => none
  | i, [g] => if v = g * u then some (i, 0, 1) else none
  | i, g :: h :: l =>
    if v < h * u then some (i, v - g * u, (h - g) * u) else gridCut u v (i + 1) (h :: l)

/-- The grid of a type for rounding: the integers and E2M1 go on past their largest value, and the types
that read a magnitude index do not (notes/assumptions/28.md). -/
def sv4Grid (t : Nat) (neg : Bool) : List Nat :=
  if t = 0 then (if neg then [0, 8, 16, 24, 32, 40, 48, 56, 64, 72] else [0, 8, 16, 24, 32, 40, 48, 56, 64])
  else if t = 1 then [0, 4, 8, 12, 16, 24, 32, 48, 64]
  else sv4Mags t

/-- Round a finite value, already divided by the block's scale, onto a 4-bit grid (R182). -/
def sv4Round (t : Nat) (r : RM) (neg : Bool) (m : Nat) (e : Int) : Nat × Flags :=
  let top := if t = 0 && neg then 8 else 7
  let v := m * 2 ^ (e + 3).toNat
  let u := 2 ^ (-(e + 3)).toNat
  let p := match gridCut u v 0 (sv4Grid t neg) with
    | some (i, rem, den) => (i + b2n (r.away neg (i % 2 == 1) rem den), rem != 0)
    | none => (9, true)
  let past := top < p.1
  let i := if past then top else p.1
  let code := if i = 0 then 0 else if t = 0 then (if neg then 16 - i else i) else i + 8 * b2n neg
  if past then (code, flOF ||| flNX)
  else (code, flIf p.2 flNX ||| flIf (i == 0 && m != 0) flUF)

/-- Convert a value that is not NaN into an element of a block under its scale byte (R181, R182): `sat`
selects the row of Table 9-8 for the formats that have both. -/
def blockCode (f : Fmt) (scale : Nat) (r : RM) (sat : Bool) (v : FVal) : Nat × Flags :=
  let d : FVal := match v with
    | .fin n m e => .fin n m (e - scaleExp f scale)
    | w => w
  if f = .sv4 then
    match d with
    | .fin n m e => sv4Round (scale / 64 % 4) r n m e
    | .inf n =>
      let t := scale / 64 % 4
      (if t = 0 then (if n then 8 else 7) else 7 + 8 * b2n n, flNV)
    | .nan _ => (0, flNV)
  else
    let p := (Fp.of f).pack r sat d
    match d with
    | .fin _ m _ => (p.1, p.2 ||| flIf (m != 0 && p.1 % (Fp.of f).signBit == 0) (flUF ||| flNX))
    | _ => p

/-! ### The coordinate hash (R190) -/

/-- The hash of a seed and two coordinates. -/
def chash (seed y x : Nat) : Nat :=
  let m := 2 ^ 32
  let h0 := (seed % m) ^^^ ((y % 65536) * 65536 + x % 65536)
  let h1 := ((h0 ^^^ (h0 / 65536)) * 0x7FEB352D) % m
  let h2 := ((h1 ^^^ (h1 / 32768)) * 0x846CA68B) % m
  h2 ^^^ (h2 / 65536)

/-- The vector keys of R179: seed and y from SRSEED and SRCTR, x the lane. -/
def srHash (seed ctr : BitVec 32) (x : Nat) : Nat :=
  chash (seed ^^^ (ctr &&& 0xFFFF0000)).toNat (ctr.toNat % 65536) x

/-! ### Functions of R189 -/

/-- Codes of the vector formats in the free values. -/
def fmtCode : Fmt → Nat
  | .f16 => 1 | .bf16 => 2 | _ => 0

/-- A faithful result of a positive true value given by a truncation: of its two neighbours the lower
or the upper, as the free choice says. -/
def Fp.faithful (f : Fp) (low : Nat → Bool) (neg : Bool) (m : Nat) (e : Int) : Nat × Flags :=
  let q : Int := max (e + Nat.log2 m) f.emin - f.fb
  let c := cut m e q
  let k : Int := e + Nat.log2 m
  let base := ((max k f.emin - f.emin).toNat) * 2 ^ f.fb + c.1
  let inexact := c.2.1 != 0
  let s := b2n neg * f.signBit
  if f.top < base || (f.top == base && inexact) then (f.top + 1 + s, flOF ||| flNX)
  else
    let mag := if inexact && !low base then base + 1 else base
    (mag + s, flIf inexact flNX ||| flIf (inexact && decide (mag < 2 ^ f.fb)) flUF)

/-- VRCP (Table 9-11). -/
def fRcp (t : Fmt) (x : Nat) : Nat × Flags :=
  let f := Fp.of t
  match f.val x with
  | .nan s => (f.nan, flIf s flNV)
  | .inf n => (b2n n * f.signBit, 0)
  | .fin n m e =>
    if m = 0 then (f.top + 1 + b2n n * f.signBit, flDZ)
    else f.faithful (fun _ => Config.lowNeighbour (fmtCode t) x) n (quo (2 ^ 128) m) (-129 - e)

/-- VRSQRT. -/
def fRsqrt (t : Fmt) (x : Nat) : Nat × Flags :=
  let f := Fp.of t
  match f.val x with
  | .nan s => (f.nan, flIf s flNV)
  | .inf n => if n then (f.nan, flNV) else (0, 0)
  | .fin n m e =>
    if m = 0 then (f.top + 1 + b2n n * f.signBit, flDZ)
    else if n then (f.nan, flNV)
    else
      let s : Nat := 200 + (e % 2).toNat
      let k := 2 ^ s / m
      let root := 2 * isqrt k + b2n (isqrt k * isqrt k * m != 2 ^ s)
      f.faithful (fun _ => Config.lowNeighbour (4 + fmtCode t) x) false root ((-e - s) / 2 - 1)

/-- 2^(2^-i) for i = 1 …, each as a truncation over 2^256, times the product so far for each bit set in the
fraction `fr` of `n` bits. -/
def exp2Frac (fr : Nat) : Nat → Nat → Nat → Nat
  | 0, _, acc => acc
  | n + 1, c, acc =>
    let c' := isqrt (c * 2 ^ 256)
    exp2Frac fr n c' (if fld fr n 1 = 1 then acc * c' / 2 ^ 256 else acc)

/-- The operand's exact value as a numerator over 2^200. -/
def FVal.over200 : FVal → Int
  | .fin n m e => scaled n m (e + 200) 0
  | _ => 0

/-- VEXP2: exact at integers whose power the format has; elsewhere the neighbours of 2^x, chosen by a threshold, so that the function
is monotone. -/
def fExp2 (t : Fmt) (x : Nat) : Nat × Flags :=
  let f := Fp.of t
  match f.val x with
  | .nan s => (f.nan, flIf s flNV)
  | .inf n => (if n then 0 else f.top + 1, 0)
  | .fin n m e =>
    if m = 0 then f.roundFin RM.rne false false 1 0
    else
      let v := (FVal.fin n m e).over200
      let w := v / 2 ^ 200
      let fr := (v % 2 ^ 200).toNat
      if 1024 < w then (f.top + 1, flOF ||| flNX)
      else if w < -1024 then
        f.faithful (fun b => decide (v < Config.threshold (fmtCode t) b)) false 1 (-1100)
      else if fr = 0 then f.faithful (fun b => decide (v < Config.threshold (fmtCode t) b)) false 1 w
      else
        let p := exp2Frac fr 200 (2 ^ 257) (2 ^ 256)
        f.faithful (fun b => decide (v < Config.threshold (fmtCode t) b)) false (2 * p + 1) (w - 257)

/-- Fraction bits of log2 of z / 2^256, z in [1, 2): `n` of them, by squaring. -/
def log2Frac : Nat → Nat → Nat → Nat
  | 0, _, acc => acc
  | n + 1, z, acc =>
    let y := z * z / 2 ^ 256
    if 2 ^ 257 ≤ y then log2Frac n (y / 2) (2 * acc + 1) else log2Frac n y (2 * acc)

/-- VLOG2: exact at powers of two; elsewhere the neighbours of log2 x, chosen by a threshold. -/
def fLog2 (t : Fmt) (x : Nat) : Nat × Flags :=
  let f := Fp.of t
  match f.val x with
  | .nan s => (f.nan, flIf s flNV)
  | .inf n => if n then (f.nan, flNV) else (f.top + 1, 0)
  | .fin n m e =>
    if m = 0 then (f.top + 1 + f.signBit, flDZ)
    else if n then (f.nan, flNV)
    else
      let l := Nat.log2 m
      let k : Int := e + l
      if m = 2 ^ l then f.roundFin RM.rne false (k < 0) k.natAbs 0
      else
        let y : Int := k * 2 ^ 120 + log2Frac 120 (m * 2 ^ (256 - l)) 0
        let v := (FVal.fin n m e).over200
        let up (b : Nat) : Bool := decide (Config.threshold (4 + fmtCode t) b ≤ v)
        if 0 ≤ y then f.faithful (fun b => !up b) false (2 * y.toNat + 1) (-121)
        else f.faithful (fun b => up (b + f.signBit)) true (2 * (-(y + 1)).toNat + 1) (-121)

/-! ### A thread's rounding and flags -/

/-- The mode a rounding source resolves to (R177). -/
def Thread.rmode (t : Thread) (rs : Rs) : Nat := if rs = .fm then t.fmode.toNat else rs.code

/-- A scalar instruction's rounding: SR rounds to nearest even (R70). -/
def Thread.rmScalar (t : Thread) (rs : Rs) : RM := ⟨if t.rmode rs = 6 then 1 else t.rmode rs, 0⟩

/-- A lane's rounding, with its SR bits (R179). -/
def Thread.rmLane (t : Thread) (rs : Rs) (x : Nat) : RM :=
  ⟨t.rmode rs, if t.rmode rs = 6 then srHash t.srseed t.srctr x % 65536 else 0⟩

/-- OR flags that arithmetic raised into a thread's FFLAGS and its cluster's CFLAGS (R183). -/
def Dev.raiseFlags (d : Dev) (tid : Nat) (core : Nat) (fl : Flags) : Dev :=
  if fl = 0 then d
  else
    let c := d.clus (coreClus core)
    (d.updThr tid (fun t => { t with fflags := t.fflags ||| fl })).setClus (coreClus core)
      { c with cflags := c.cflags ||| fl }

end Sys2Proof.Machine
end

