-- ==== Sys2Proof/Machine/Operands.lean ====
section
/-!
DEFINITION. Issuing a head (spec 02 R22 to R27, R33; 03 R46, R54, R56): the registers it names, its guard,
its queue pops and pushes, and what issuing it comes to. Every meaning of a head is a body given to
`issueS` or `issueV`.
-/
namespace Sys2Proof.Machine
open Sys2Proof

/-- The registers a head names. -/
structure Uses where
  /-- Scalar sources, in operand order (R33). -/
  xs : List Reg := []
  /-- A scalar destination in place before the slot's next issue. -/
  xd : Option Reg := none
  /-- A scalar destination delivered later (R25). -/
  late : Option Reg := none
  vs : List VR := []
  vd : List VR := []
  ks : List KR := []
  kd : List KR := []
  /-- The one lane that the head acts on is off (R212): nothing is popped, pushed or changed. -/
  off : Dev → Thread → Bool := fun _ _ => false

/-- What a body reads. -/
structure In where
  drip : Nat
  mem : Memory
  /-- Before this head. -/
  base : Dev
  /-- With the pops taken, the head issued, and the pc at the next head. -/
  dev : Dev
  tid : Nat
  /-- The thread as this head reads it: before the bundle, for both heads of one (R45). -/
  t : Thread
  /-- Its scalar sources, in operand order. -/
  vals : List Word

/-- What a body comes to. -/
inductive Out where
  | ok (d : Dev) (w : List (Nat × Byte))
  /-- A trap at this head (R346); no value where the spec gives EVAL none. -/
  | trap (cause : Nat) (v : Option Word)
  /-- A trap with another return point, or that leaves its mark elsewhere. -/
  | trapOn (d : Dev) (cause : Nat) (p v : Word)
  /-- The slot is held (R24); what it asked for meanwhile. -/
  | hold (d : Dev)
  /-- The access would reach a place where the spec puts nothing. -/
  | hole (place : Nat)

def In.a (i : In) : Word := i.vals.getD 0 0
def In.b (i : In) : Word := i.vals.getD 1 0
def In.c (i : In) : Word := i.vals.getD 2 0
def In.core (i : In) : Nat := i.t.coreSlot.1
def In.slot (i : In) : Nat := i.t.coreSlot.2
/-- Who sends a request, with its destination and operation. -/
def In.src (i : In) (r : Reg) (op : Nat) : From := i.t.src i.tid r op

/-- A pending bit of a register that the head names is set (R27). -/
def Uses.pending (u : Uses) (g : Guard) (t : Thread) : Bool :=
  (match g with
    | .k n => bit t.pendK n.val
    | .always => false)
  || u.xs.any (fun r => bit t.pendX r.val)
  || (match u.xd with
    | some r => bit t.pendX r.val
    | none => false)
  || (match u.late with
    | some r => bit t.pendX r.val
    | none => false)
  || u.vs.any (fun r => bit t.pendV r.val) || u.vd.any (fun r => bit t.pendV r.val)
  || u.ks.any (fun r => bit t.pendK r.val) || u.kd.any (fun r => bit t.pendK r.val)

/-- A queue register is used against its mapping (R33). -/
def Uses.misuse (u : Uses) (cfg : Word) : Bool :=
  u.xs.any (fun r => qmap cfg r == 2)
  || (match u.xd with
    | some r => qmap cfg r == 1
    | none => false)
  || (match u.late with
    | some r => qmap cfg r != 0
    | none => false)

/-- Scalar guard (R46): bit 0 of the predicate. -/
def guardTrue (g : Guard) (t : Thread) : Bool :=
  match g with
  | .k n => bit (t.regs.rk n) 0
  | .always => true

/-- Lane guard (R193): bit i of the predicate. -/
def laneOn (g : Guard) (t : Thread) (i : Nat) : Bool :=
  match g with
  | .k n => bit (t.regs.rk n) i
  | .always => true

/-- The scalar sources in operand order: a consumer-mapped one pops its queue (R32, R33). None when a pop
finds no entry. A number whose queue the block does not hold, which only a supervisor's SWR can map, has neither entry
nor space: the spec is silent, and the slot stays queue-blocked. DESIGN CHOICE, unsafe (log 102). -/
def Dev.readXs (d : Dev) (t : Thread) : List Reg → Option (Dev × List Word)
  | [] => some (d, [])
  | r :: rs =>
    if qmap t.slotcfg r = 1 then
      match d.queue t (qOf r) with
      | some q =>
        match q.items with
        | v :: vs =>
          match (d.setQueue t (qOf r) { q with items := vs }).readXs t rs with
          | some (d', l) => some (d', v :: l)
          | none => none
        | [] => none
      | none => none
    else
      match d.readXs t rs with
      | some (d', l) => some (d', t.regs.rx r :: l)
      | none => none

/-- A push into a destination finds space. -/
def Dev.hasSpace (d : Dev) (t : Thread) (r : Reg) : Bool :=
  if qmap t.slotcfg r = 2 then
    match d.queue t (qOf r) with
    | some q => q.items.length < q.depth
    | none => false
  else true

/-- A queue that the thread's block holds on its core keeps the head: it has fewer entries than the head pops, or no
space (R33, R35). -/
def Dev.ringBlocks (d : Dev) (t : Thread) (u : Uses) : Bool :=
  u.xs.any (fun r => qmap t.slotcfg r == 1 && (match d.queue t (qOf r) with
    | some q => decide (q.items.length < (u.xs.filter (fun x => qmap t.slotcfg x == 1 && qOf x == qOf r)).length)
    | none => false))
  || (match u.xd with
    | some r => qmap t.slotcfg r == 2 && (match d.queue t (qOf r) with
      | some q => decide (q.depth ≤ q.items.length)
      | none => false)
    | none => false)

/-- The head has issued: the pc goes to the next head, once for a bundle. -/
def Dev.advance (d : Dev) (tid : Nat) : Dev :=
  let d := { d with note := .issued }
  if d.iss.second then d else d.updThr tid (fun t => { t with pc := d.iss.next })

/-- A trap taken at the issue of this head. Where the raising rule gives no value, EVAL is a free one. -/
def Dev.trapNow (d : Dev) (drip : Nat) (mem : Memory) (tid cause : Nat) (p : Word) (v : Option Word) : Res :=
  let w := v.getD (Config.freeWord d.fresh)
  .eff { d.tickFresh.takeTrap drip mem tid cause p w with note := .trapped cause p w } []

/-- The result of a head's body. -/
def Out.res (o : Out) (drip : Nat) (mem : Memory) (base : Dev) (tid : Nat) : Res :=
  match o with
  | .ok d w => .eff d w
  | .trap c v => base.trapNow drip mem tid c base.iss.head v
  | .trapOn d c p v => d.trapNow drip mem tid c p (some v)
  | .hold d => .eff { d with note := .held false } []
  | .hole p => .fault (.hole p)

/-- Issue a head: wait for its registers (R27), then the traps raised whatever the guard holds (R22), then
the guard, the pops and the pushes, then its body. `lanes`: the guard selects lanes, and the head is never
wholly false (R175). With no thread at issue nothing happens. -/
def issue (priv lanes : Bool) (g : Guard) (u : Uses) (pre : Thread → Option Nat) (f : In → Out)
    (drip : Nat) (mem : Memory) (d : Dev) : Res :=
  match d.cur with
  | none => .eff d []
  | some tid =>
    match d.thr tid with
    | none => .eff d []
    | some t0 =>
      let t := d.iss.old.getD t0
      if u.pending g t then .eff { d with note := .held false } []
      else if priv && !t.mode then d.trapNow drip mem tid Cause.privileged d.iss.head none
      else match pre t with
      | some c => d.trapNow drip mem tid c d.iss.head none
      | none =>
        if u.misuse t.slotcfg then d.trapNow drip mem tid Cause.queueMisuse d.iss.head none
        else if (!lanes && !guardTrue g t) || u.off d t then .eff (d.advance tid) []
        else match d.readXs t u.xs with
        | none => .eff { d with note := .held (d.ringBlocks t u) } []
        | some (d', vals) =>
          if !(match u.xd with
              | some r => d'.hasSpace t r
              | none => true) then .eff { d with note := .held (d.ringBlocks t u) } []
          else (f ⟨drip, mem, d, d'.advance tid, tid, t, vals⟩).res drip mem d tid

/-- Issue an S-class head, or a command of MATRIX or COPY, whose guard is bit 0 of its predicate. -/
def issueS (priv : Bool) (g : Guard) (u : Uses) (f : In → Out) : Nat → Memory → Dev → Res :=
  issue priv false g u (fun _ => none) f

/-- Issue a vector head: `pre` is its check of tags (R175) and operand ranges (R198). -/
def issueV (g : Guard) (u : Uses) (pre : Thread → Option Nat) (f : In → Out) :
    Nat → Memory → Dev → Res :=
  issue false true g u pre f

/-! ### Shapes of bodies -/

/-- A body that writes one scalar result. -/
def In.result (i : In) (r : Reg) (v : Word) : Out := .ok (i.dev.putX i.tid r v) []

/-- A body that changes the thread only. -/
def In.thread (i : In) (f : Thread → Thread) : Out := .ok (i.dev.updThr i.tid f) []

/-- The pc goes to a judged target, or the transfer traps or waits for the line (R42). `f` is what else the
transfer writes. -/
def In.transfer (i : In) (target : Word) (f : Dev → Dev) : Out :=
  match i.base.target i.drip i.mem i.tid i.core i.t.ctx target with
  | .bad => .trap Cause.illegalTarget (some target)
  | .ask d => .hold d
  | .good => .ok ((f i.dev).updThr i.tid (fun t => { t with pc := target })) []

/-- Room in the class counts (R26). -/
def In.room (i : In) (isL : Bool) (n : Nat) : Bool := (if isL then i.t.cL else i.t.cS) + n ≤ 255

/-- An access that only reads. -/
def AccOp.isLoad : AccOp → Bool
  | .load _ | .bld .. | .tagld .. | .mcsld .. => true
  | _ => false

/-- The line whose miss register a message of a core holds: a load or prefetch on its way to a home, or what it
brings back (R260). -/
def MsgKind.missLine (core : Nat) : MsgKind → Option Nat
  | .acc a =>
    if a.src.core = core then match a.st, a.op with
      | .l1 .., _ => none
      | _, .pref _ => some a.line
      | _, op => if op.isLoad then some a.line else none
    else none
  | .data s _ _ _ l | .error s _ _ _ l => if s.core = core then l else none
  | _ => none

/-- Lines of a core's loads under way: each has one miss register (R260). -/
def Dev.missLines (d : Dev) (core : Nat) : List Nat :=
  (d.msgs.filterMap (fun m => m.kind.missLine core)).eraseDups

/-- Operations of a core that hold a miss register of their own (Table 2-3). -/
def Dev.missOps (d : Dev) (core : Nat) : Nat :=
  (d.outst.filter (fun o => o.own && match d.thr o.tid with
    | some t => t.coreSlot.1 == core
    | none => false)).length

/-- Miss registers in use on a core. -/
def Dev.missUsed (d : Dev) (core : Nat) : Nat := (d.missLines core).length + d.missOps core

/-- A miss register and room in L. -/
def In.canL (i : In) : Bool := i.room true 1 && i.base.missUsed i.core < 48

/-- The vector datapath is free (R24). -/
def In.vfree (i : In) : Bool := (i.base.core i.core).vbusy ≤ i.drip

/-- Occupy the vector datapath for `n` cycles (R195). -/
def In.vhold (i : In) (n : Nat) (d : Dev) : Dev :=
  d.setCore i.core { d.core i.core with vbusy := i.drip + n }

/-- A V op that computes on vector registers: held while the datapath is busy, then occupies it. -/
def In.vector (i : In) (n : Nat) (f : Thread → Thread) : Out :=
  if i.vfree then .ok (i.vhold n (i.dev.updThr i.tid f)) [] else .hold i.base

/-- Send a request that returns a value (R96): it counts in L and sets its destination's pending bit. -/
def In.request (i : In) (r : Reg) (q : Req) : Out :=
  if i.canL then
    let p := i.dev.openOp i.tid 1 true (some r) none none
    .ok (p.1.send (.req (i.src r p.2) q)) []
  else .hold i.base

/-- R104's checks of a handle operand: its kind and null, raised at issue. -/
def handleCheck (h : Word) : Option Nat :=
  if h = 0 then some Cause.nullHandle
  else if hKind h = 0 ∨ 11 ≤ hKind h then some Cause.leaseKind
  else none

/-- A body that needs a good handle, of a kind where the entry names one. -/
def withHandle (h : Word) (kind : Option Nat) (f : Unit → Out) : Out :=
  match handleCheck h with
  | some c => .trap c none
  | none =>
    match kind with
    | some k => if hKind h = k then f () else .trap Cause.operandRange none
    | none => f ()

end Sys2Proof.Machine
end

