-- ==== Sys2Proof/Machine/Control.lean ====
section
/-!
DEFINITION. Transfers, waiting, time, identity and queues (spec 04 R77, R86 to R93), the end of a thread
(16 R332), and TRET and HALT (17 R351).
-/
namespace Sys2Proof.Machine
open Sys2Proof

/-- A transfer's target (R55): line of this head + 64 × delta + 2 × index. -/
def relTarget (head : Word) (delta : BitVec 27) (idx : Fin 32) : Word :=
  (head &&& ~~~(63 : Word)) + 64 * delta.signExtend 64 + wd64 (2 * idx.val)

/-- NOP. -/
def execNop : State → Host.Outcome State Fault Refusal :=
  run (issueS false .always {} (fun i => .ok i.dev []))
/-- NOP with a guard. -/
def execNopGuarded (o : GOp) : State → Host.Outcome State Fault Refusal :=
  run (issueS false o.g {} (fun i => .ok i.dev []))

/-- BR. -/
def execBr (o : RelOp) : State → Host.Outcome State Fault Refusal :=
  run (issueS false o.g {} (fun i => i.transfer (relTarget i.base.iss.head o.delta o.idx) id))
/-- CALL: x31 = next in sequence. -/
def execCall (o : RelOp) : State → Host.Outcome State Fault Refusal :=
  run (issueS false o.g { xd := some 31 } (fun i =>
    i.transfer (relTarget i.base.iss.head o.delta o.idx) (fun d => d.putX i.tid 31 i.base.iss.next)))
/-- LOOP: xa = xa − 1; a transfer while it is not 0. -/
def execLoop (o : LoopOp) : State → Host.Outcome State Fault Refusal :=
  run (issueS false o.g { xs := [o.a], xd := some o.a } (fun i =>
    let n := i.a - 1
    if n = 0 then i.result o.a n
    else i.transfer (relTarget i.base.iss.head o.delta o.idx) (fun d => d.putX i.tid o.a n)))
/-- JMP: to xa + imm16; xd = next in sequence. -/
def execJmp (o : JmpOp) : State → Host.Outcome State Fault Refusal :=
  run (issueS false o.g { xs := [o.a], xd := some o.d } (fun i =>
    i.transfer (i.a + o.imm.signExtend 64) (fun d => d.putX i.tid o.d i.base.iss.next)))
/-- JR: to xa. -/
def execJr (o : GA) : State → Host.Outcome State Fault Refusal :=
  run (issueS false o.g { xs := [o.a] } (fun i => i.transfer i.a id))
/-- RET: to x31. -/
def execRet : State → Host.Outcome State Fault Refusal :=
  run (issueS false .always { xs := [31] } (fun i => i.transfer i.a id))
/-- RET with a guard. -/
def execRetGuarded (o : GOp) : State → Host.Outcome State Fault Refusal :=
  run (issueS false o.g { xs := [31] } (fun i => i.transfer i.a id))

/-- The end of the issuing thread. -/
def In.exit (i : In) : Out := .ok (i.dev.endThread i.drip i.tid) []
/-- EXIT. -/
def execExit : State → Host.Outcome State Fault Refusal := run (issueS false .always {} In.exit)
/-- EXIT with a guard. -/
def execExitGuarded (o : GOp) : State → Host.Outcome State Fault Refusal := run (issueS false o.g {} In.exit)

/-- CBAR waits for the L count, then arrives (R92). -/
def In.cbar (i : In) : Out :=
  .ok ((i.dev.updThr i.tid (fun t => { t with wst := .cbar false })).settle i.drip i.mem i.tid) []
/-- CBAR. -/
def execCbar : State → Host.Outcome State Fault Refusal := run (issueS false .always {} In.cbar)
/-- CBAR with a guard. -/
def execCbarGuarded (o : GOp) : State → Host.Outcome State Fault Refusal := run (issueS false o.g {} In.cbar)

/-- TRET (R351). -/
def In.tret (i : In) : Out :=
  if !i.t.inTrap then .trap Cause.operandRange none
  else i.transfer i.t.epc (fun d => d.updThr i.tid Thread.trapReturn)
/-- TRET. -/
def execTret : State → Host.Outcome State Fault Refusal := run (issueS true .always {} In.tret)
/-- TRET with a guard. -/
def execTretGuarded (o : GOp) : State → Host.Outcome State Fault Refusal := run (issueS true o.g {} In.tret)

/-- HALT stops the slot until WAKE.slot names it (R351). -/
def In.halt (i : In) : Out := i.thread (fun t => { t with wst := .halted })
/-- HALT. -/
def execHalt : State → Host.Outcome State Fault Refusal := run (issueS true .always {} In.halt)
/-- HALT with a guard. -/
def execHaltGuarded (o : GOp) : State → Host.Outcome State Fault Refusal := run (issueS true o.g {} In.halt)

/-- WAIT (R86, R87): with its counts met it completes, or takes the journal's trap at this head; else the
slot waits. In a bundle the V head performs at issue all the same, and a trap that comes later runs the whole bundle
again. DESIGN CHOICE, unsafe (log 12). -/
def execWait (o : WaitOp) : State → Host.Outcome State Fault Refusal :=
  run (issueS false o.g {} (fun i =>
    let head := i.base.iss.head
    if boundMet i.t.cL o.l && boundMet i.t.cS o.s && boundMet i.t.cC o.c && boundMet i.t.cM o.m then
      match (if o.s = 15 then none else i.base.lapse i.tid i.t) with
      | some (d, k, v) => .trapOn d k head v
      | none => .ok i.dev []
    else i.thread (fun t => { t with wst := .wait o.l o.s o.c o.m head })))

/-- DOZE until the counter reaches xa; no sleep when it already has (R88). -/
def execDoze (o : GA) : State → Host.Outcome State Fault Refusal :=
  run (issueS false o.g { xs := [o.a] } (fun i =>
    i.thread (fun t => if i.a.toNat ≤ i.drip then t else { t with wst := .doze i.a })))

/-- RDT: the drip counter (R89). -/
def execRdt (o : GD) : State → Host.Outcome State Fault Refusal :=
  run (issueS false o.g { xd := some o.d } (fun i => i.result o.d (wd64 i.drip)))

/-- The identity numbers of Table 4-8. -/
def In.ident (i : In) (s : IdSel) : Nat :=
  let c := i.core
  match s with
  | .slot => i.slot
  | .ccl => coreInClus c
  | .core => c
  | .clus => coreClus c
  | .modl => i.base.modNo
  | .tent => i.t.tenant
  | s =>
    match i.base.blk i.t.blk with
    | none => 0
    | some b =>
      match s with
      | .cidx => b.cidxOf i.tid
      | .csize => b.slots
      | .bidx => b.bidxOf i.tid
      | .bsize => b.slots * b.crews.length
      | .px => b.x
      | .py => b.y
      | .pz => b.z
      | _ => 0

/-- RDID. -/
def execRdid (o : RdidOp) : State → Host.Outcome State Fault Refusal :=
  run (issueS false o.g { xd := some o.d } (fun i => i.result o.d (wd64 (i.ident o.sel))))

/-- QSTAT (R91, Table 4-9). -/
def execQstat (o : QstatOp) : State → Host.Outcome State Fault Refusal :=
  run (issueS false o.g { xd := some o.d } (fun i =>
    i.result o.d (match i.base.queue i.t o.q with
      | none => 0
      | some q => wd64 (q.depth * 2 ^ 16 + bits i.t.slotcfg (2 * o.q.val) 2 * 2 ^ 9 + q.items.length))))

end Sys2Proof.Machine
end

