-- ==== Sys2Proof/Machine/Vector.lean ====
section
/-!
DEFINITION. The vector instructions (spec 10): lanes, groups, tags and scale files (R192 to R196), and the
forms of VARITH, VCONV, VRED, VCMPSEL, VLOGIC, VMOVE and VMISC.
-/
namespace Sys2Proof.Machine
open Sys2Proof

/-! ### Lanes -/

/-- Bits of element `i` of a register at element width `w` (R174). -/
def VReg.el (v : VReg) (w i : Nat) : Nat := Sys2Proof.bits v.bits (w * i) w

/-- Scale byte j (R176). -/
def VReg.sb (v : VReg) (j : Nat) : Nat := Sys2Proof.bits v.sx (8 * j) 8

/-- Register `q` of a group (R194). -/
def grp (b : VR) (q : Nat) : VR := ⟨(b.val + q) % 16, Nat.mod_lt _ (by decide)⟩

/-- The registers of a group of `r`. -/
def grpAll (b : VR) (r : Nat) : List VR := (List.range r).map (grp b)

/-- Element `i` of a group of `r` registers (R194): its bits, and the scale byte it is read under. -/
def Regs.gel (g : Regs) (b : VR) (r w i : Nat) : Nat × Nat :=
  let v := g.rv (grp b (i % r))
  (v.el w (i / r), v.sb (i / r / 32))

/-- The scale file of a register set without reading scales (R176). -/
def unitSx (f : Fmt) : BitVec 256 :=
  if f = .sv4 then BitVec.ofNat 256 ((2 ^ 256 - 1) / 255 * 0x5F)
  else if f.isB then BitVec.ofNat 256 ((2 ^ 128 - 1) / 255 * 0x7F)
  else 0

/-- Replace elements of a register, from element `i` on; `none` keeps the old bits. -/
def packFrom (w : Nat) (old : Nat) : Nat → List (Option (Nat × Flags)) → Nat
  | _, [] => 0
  | i, x :: l =>
    (match x with
      | some p => p.1 % 2 ^ w
      | none => fld old (w * i) w) + 2 ^ w * packFrom w old (i + 1) l

/-- OR of the flags of the lanes. -/
def laneFlags (l : List (Option (Nat × Flags))) : Flags :=
  l.foldl (fun a x => match x with
    | some p => a ||| p.2
    | none => a) 0

/-- Results of the lanes of register `q` of a destination group of `r`. -/
def In.lanesOf (i : In) (g : Guard) (cnt r q : Nat) (f : Nat → Nat × Flags) : List (Option (Nat × Flags)) :=
  (List.range cnt).map (fun p => if laneOn g i.t (p * r + q) then some (f (p * r + q)) else none)

/-- A form that writes lanes (R193): every active lane of the group takes its result, an inactive one keeps
its bits; the tag and scale file are set, the flags are raised (R196), and SRCTR counts an SR issue
(R179). -/
def In.lanes (i : In) (occ : Nat) (g : Guard) (tag : Fmt) (d : VR) (r : Nat) (sr : Bool)
    (sx : Nat → BitVec 256) (f : Nat → Nat × Flags) : Out :=
  if !i.vfree then .hold i.base
  else
    let regs := (List.range r).map (fun q => (q, i.lanesOf g tag.count r q f))
    let fl := regs.foldl (fun a p => a ||| laneFlags p.2) 0
    let d1 := i.dev.updThr i.tid (fun t =>
      { t with
        regs := regs.foldl (fun x p =>
          x.wv (grp d p.1) ⟨BitVec.ofNat 4096 (packFrom tag.bits (i.t.regs.rv (grp d p.1)).bits.toNat 0 p.2),
            tag, sx p.1⟩) t.regs
        srctr := if sr then t.srctr + 1 else t.srctr })
    .ok ((i.vhold occ d1).raiseFlags i.tid i.core fl) []

/-- The tag checks of R175: each source register's tag, and, when the guard leaves one of the `n` lanes
inactive, the destination's old tag. -/
def tagPre (g : Guard) (n : Nat) (srcs : List (VR × Fmt)) (dests : List VR) (tag : Fmt) (t : Thread) :
    Option Nat :=
  if srcs.any (fun p => (t.regs.rv p.1).tag != p.2) then some Cause.formatTag
  else if (List.range n).any (fun i => !laneOn g t i) && dests.any (fun d => (t.regs.rv d).tag != tag) then
    some Cause.formatTag
  else none

/-- The forms that accept any tag but NONE. -/
def anyPre (g : Guard) (n : Nat) (srcs dests : List VR) (tag : Fmt) (t : Thread) : Option Nat :=
  if srcs.any (fun r => (t.regs.rv r).tag == .none) then some Cause.formatTag
  else tagPre g n [] dests tag t

/-- Registers named by a vector form. -/
def vUses (vs vd : List VR) : Uses := { vs := vs, vd := vd }

/-! ### Elements as numbers -/

/-- An integer element by its signedness. -/
def intVal (f : Fmt) (n : Nat) : Int := if f.isSigned then (BitVec.ofNat f.bits n).toInt else (n : Int)

/-- Wrap an integer to w bits. -/
def wrap (w : Nat) (v : Int) : Nat := (v % (2 ^ w : Nat)).toNat

/-- An element as an exact value, with its scale byte. -/
def elVal (f : Fmt) (p : Nat × Nat) : FVal :=
  if f.isI then .ofInt (intVal f p.1) else if f.isB then blockVal f p.2 p.1 else (Fp.of f).val p.1

/-- The instruction's rounding resolves to SR. -/
def In.srs (i : In) (rounds : Bool) (rs : Rs) : Bool := rounds && i.t.rmode rs == 6

/-- A rounded floating-point lane. -/
def packF (f : Fmt) (r : RM) (p : FVal × Flags) : Nat × Flags :=
  let q := (Fp.of f).pack r false p.1
  (q.1, p.2 ||| q.2)

/-! ### VARITH (R199) -/

/-- A form of up to three sources at one format: an exact integer function, and a floating-point one. -/
def varith (occ : Nat) (g : Guard) (d : VR) (srcs : List VR) (ef : Fmt) (rounds : Bool) (rs : Rs)
    (fi : List Int → Int) (ff : RM → List Nat → Nat × Flags) : Nat → Memory → Dev → Res :=
  issueV g (vUses srcs [d]) (tagPre g ef.count (srcs.map (·, ef)) [d] ef) (fun i =>
    i.lanes occ g ef d 1 (i.srs (rounds && ef.isF) rs) (fun _ => unitSx ef) (fun k =>
      let xs := srcs.map (fun r => (i.t.regs.rv r).el ef.bits k)
      if ef.isI then (wrap ef.bits (fi (xs.map (intVal ef))), 0) else ff (i.t.rmLane rs k) xs))

/-- A floating-point function of values, rounded once. -/
def viaVal (ef : Fmt) (f : RM → List FVal → FVal × Flags) (r : RM) (xs : List Nat) : Nat × Flags :=
  packF ef r (f r (xs.map (Fp.of ef).val))

def n0 (l : List Int) : Int := l.getD 0 0
def n1 (l : List Int) : Int := l.getD 1 0
def n2 (l : List Int) : Int := l.getD 2 0
def f0 (l : List FVal) : FVal := l.getD 0 (.nan false)
def f1 (l : List FVal) : FVal := l.getD 1 (.nan false)
def f2 (l : List FVal) : FVal := l.getD 2 (.nan false)

/-- Cycles of VMUL, VFMA and VFMS (Table 10-1). -/
def mulOcc (ef : Fmt) : Nat := if ef = .s64 ∨ ef = .n64 then 8 else 4

/-- VADD. -/
def execVadd (o : VVVr) : State → Host.Outcome State Fault Refusal :=
  run (varith 4 o.g o.d [o.a, o.b] o.ef true o.rs (fun l => n0 l + n1 l)
    (viaVal o.ef (fun r l => (f0 l).add r (f1 l))))
/-- VSUB. -/
def execVsub (o : VVVr) : State → Host.Outcome State Fault Refusal :=
  run (varith 4 o.g o.d [o.a, o.b] o.ef true o.rs (fun l => n0 l - n1 l)
    (viaVal o.ef (fun r l => (f0 l).add r (f1 l).neg)))
/-- VMUL. -/
def execVmul (o : VVVr) : State → Host.Outcome State Fault Refusal :=
  run (varith (mulOcc o.ef) o.g o.d [o.a, o.b] o.ef true o.rs (fun l => n0 l * n1 l)
    (viaVal o.ef (fun _ l => (f0 l).mul (f1 l))))
/-- VFMA. -/
def execVfma (o : VFmaOp) : State → Host.Outcome State Fault Refusal :=
  run (varith (mulOcc o.ef) o.g o.d [o.a, o.b, o.c] o.ef true o.rs (fun l => n0 l * n1 l + n2 l)
    (viaVal o.ef (fun r l => (f0 l).fma r (f1 l) (f2 l))))
/-- VFMS. -/
def execVfms (o : VFmaOp) : State → Host.Outcome State Fault Refusal :=
  run (varith (mulOcc o.ef) o.g o.d [o.a, o.b, o.c] o.ef true o.rs (fun l => n0 l * n1 l - n2 l)
    (viaVal o.ef (fun r l => (f0 l).fma r (f1 l) (f2 l).neg)))
/-- VMIN. -/
def execVmin (o : VVV) : State → Host.Outcome State Fault Refusal :=
  run (varith 4 o.g o.d [o.a, o.b] o.ef false .fm (fun l => min (n0 l) (n1 l))
    (fun _ xs => (Fp.of o.ef).minmax false (xs.getD 0 0) (xs.getD 1 0)))
/-- VMAX. -/
def execVmax (o : VVV) : State → Host.Outcome State Fault Refusal :=
  run (varith 4 o.g o.d [o.a, o.b] o.ef false .fm (fun l => max (n0 l) (n1 l))
    (fun _ xs => (Fp.of o.ef).minmax true (xs.getD 0 0) (xs.getD 1 0)))

/-- A change of the sign bit only; a NaN gives the canonical NaN (R199). -/
def signOnly (f : Fp) (g : Nat → Nat) (x : Nat) : Nat × Flags :=
  let v := f.val x
  if v.isNan then (f.nan, sigNV [v]) else (g x, 0)

/-- VABS. -/
def execVabs (o : VV) : State → Host.Outcome State Fault Refusal :=
  run (varith 4 o.g o.d [o.a] o.ef false .fm (fun l => if n0 l < 0 then -(n0 l) else n0 l)
    (fun _ xs => signOnly (Fp.of o.ef) (fun x => x % (Fp.of o.ef).signBit) (xs.getD 0 0)))
/-- VNEG. -/
def execVneg (o : VV) : State → Host.Outcome State Fault Refusal :=
  run (varith 4 o.g o.d [o.a] o.ef false .fm (fun l => -(n0 l))
    (fun _ xs => signOnly (Fp.of o.ef) (fun x => x ^^^ (Fp.of o.ef).signBit) (xs.getD 0 0)))
/-- VDIV. -/
def execVdiv (o : VVVr) : State → Host.Outcome State Fault Refusal :=
  run (varith 8 o.g o.d [o.a, o.b] o.ef true o.rs n0 (viaVal o.ef (fun _ l => (f0 l).div (f1 l))))
/-- VSQRT. -/
def execVsqrt (o : VVr) : State → Host.Outcome State Fault Refusal :=
  run (varith 8 o.g o.d [o.a] o.ef true o.rs n0 (viaVal o.ef (fun _ l => (f0 l).sqrt)))
/-- VRSQRT (R189). -/
def execVrsqrt (o : VV) : State → Host.Outcome State Fault Refusal :=
  run (varith 8 o.g o.d [o.a] o.ef false .fm n0 (fun _ xs => fRsqrt o.ef (xs.getD 0 0)))
/-- VRCP (R189). -/
def execVrcp (o : VV) : State → Host.Outcome State Fault Refusal :=
  run (varith 8 o.g o.d [o.a] o.ef false .fm n0 (fun _ xs => fRcp o.ef (xs.getD 0 0)))
/-- VEXP2 (R189). -/
def execVexp2 (o : VV) : State → Host.Outcome State Fault Refusal :=
  run (varith 8 o.g o.d [o.a] o.ef false .fm n0 (fun _ xs => fExp2 o.ef (xs.getD 0 0)))
/-- VLOG2 (R189). -/
def execVlog2 (o : VV) : State → Host.Outcome State Fault Refusal :=
  run (varith 8 o.g o.d [o.a] o.ef false .fm n0 (fun _ xs => fLog2 o.ef (xs.getD 0 0)))

/-! ### VCONV (R200 to R204) -/

/-- Bounds of an integer format. -/
def intLo (f : Fmt) : Int := if f.isSigned then -(2 ^ (f.bits - 1) : Nat) else 0
def intHi (f : Fmt) : Int := if f.isSigned then (2 ^ (f.bits - 1) : Nat) - 1 else (2 ^ f.bits : Nat) - 1

/-- A format without NaN: a NaN makes its whole block NaN (R180). -/
def blockNanFmt (f : Fmt) : Bool := f = .e3m2 || f = .e2m3 || f = .sv4

/-- One element from format `st` to `dt` (R180, R200), a block destination under its unit scale. -/
def convert (dt st : Fmt) (sat : Bool) (r : RM) (p : Nat × Nat) : Nat × Flags :=
  if dt.isI then
    if st.isI then
      let v := intVal st p.1
      if sat ∧ ¬ st.bits < dt.bits then (wrap dt.bits (max (intLo dt) (min (intHi dt) v)), 0) else (wrap dt.bits v, 0)
    else
      let q := (elVal st p).toInt r (intLo dt) (intHi dt)
      (wrap dt.bits q.1, q.2)
  else
    let v := elVal st p
    if dt.isB then
      if blockNanFmt dt && v.isNan then (0, flNV)
      else
        let q := blockCode dt (if dt = .sv4 then 0x5F else 0x7F) r sat v
        (q.1, q.2 ||| sigNV [v])
    else
      let q := (Fp.of dt).pack r sat v
      (q.1, q.2 ||| sigNV [v])

/-- A lane of block `j` of register `q` of a destination group of `rd` is active and its source is NaN, or
infinite as well. -/
def In.badBlock (i : In) (g : Guard) (a : VR) (r : Nat) (st : Fmt) (inf : Bool) (rd q j : Nat) : Bool :=
  (List.range 32).any (fun p => laneOn g i.t ((32 * j + p) * rd + q) &&
    match elVal st (i.t.regs.gel a r st.bits ((32 * j + p) * rd + q)) with
    | .nan _ => true
    | .inf _ => inf
    | .fin .. => false)

/-- A scale file from its 32 bytes. -/
def sxOf (f : Nat → Nat) : BitVec 256 :=
  BitVec.ofNat 256 ((List.range 32).foldr (fun j acc => f j % 256 + 256 * acc) 0)

/-- The scale file of a VCVT destination: unit scales, and NaN for each block that a NaN fell into. -/
def In.cvtSx (i : In) (g : Guard) (a : VR) (r : Nat) (dt st : Fmt) (rd q : Nat) : BitVec 256 :=
  if blockNanFmt dt then
    sxOf (fun j =>
      if dt ≠ .sv4 ∧ 16 ≤ j then 0
      else if i.badBlock g a r st false rd q j then (if dt = .sv4 then 0x7F else 255)
      else if dt = .sv4 then 0x5F else 0x7F)
  else unitSx dt

/-- VCVT. -/
def execVcvt (o : VCvtOp) : State → Host.Outcome State Fault Refusal :=
  let r := fmtRatio o.dt o.st
  let rs := if o.dt.bits < o.st.bits then r else 1
  let rd := if o.dt.bits < o.st.bits then 1 else r
  let n := max o.dt.count o.st.count
  run (issueV o.g (vUses (grpAll o.a rs) (grpAll o.d rd))
    (tagPre o.g n ((grpAll o.a rs).map (·, o.st)) (grpAll o.d rd) o.dt) (fun i =>
      i.lanes 4 o.g o.dt o.d rd (i.srs (!(o.dt.isI && o.st.isI)) o.rs)
        (fun q => i.cvtSx o.g o.a rs o.dt o.st rd q) (fun k =>
          if blockNanFmt o.dt && i.badBlock o.g o.a rs o.st false rd (k % rd) (k / rd / 32) then
            (0, flIf (elVal o.st (i.t.regs.gel o.a rs o.st.bits k)).isNan flNV)
          else convert o.dt o.st o.sat (i.t.rmLane o.rs k) (i.t.regs.gel o.a rs o.st.bits k))))

/-- EMAX of R201. -/
def qntEmax (f : Fmt) (ty : Nat) : Int :=
  match f with
  | .e4m3 => 8 | .e5m2 => 15 | .e3m2 => 4 | .e2m3 => 2
  | _ => if ty < 2 then 2 else 3

/-- ⌊log2 |v|⌋ of a finite non-zero value. -/
def floorLog : FVal → Option Int
  | .fin _ m e => if m = 0 then none else some (e + Nat.log2 m)
  | _ => none

/-- The larger of two optional exponents. -/
def maxOpt (a b : Option Int) : Option Int :=
  match a, b with
  | some x, some y => some (max x y)
  | some x, none => some x
  | none, y => y

/-- The scale byte of block j of a VQNT (R201): the old one when no lane of it is active. -/
def In.qntScale (i : In) (o : VQntOp) (r j : Nat) : Nat :=
  let lanes := (List.range 32).filter (fun k => laneOn o.g i.t (32 * j + k))
  if lanes = [] then (i.t.regs.rv o.d).sb j
  else if i.badBlock o.g o.a r o.st true 1 0 j then (if o.dt = .sv4 then o.ty.val * 64 + 63 else 255)
  else
    let top := lanes.foldl (fun m k => maxOpt m (floorLog (elVal o.st (i.t.regs.gel o.a r o.st.bits (32 * j + k)))))
      none
    let e : Int := match top with
      | some l => l - qntEmax o.dt o.ty.val
      | none => 0
    if o.dt = .sv4 then o.ty.val * 64 + (max 0 (min 62 (e + 31))).toNat
    else (max 0 (min 254 (e + 127))).toNat

/-- VQNT. -/
def execVqnt (o : VQntOp) : State → Host.Outcome State Fault Refusal :=
  let r := fmtRatio o.dt o.st
  run (issueV o.g (vUses (grpAll o.a r) [o.d])
    (tagPre o.g o.dt.count ((grpAll o.a r).map (·, o.st)) [o.d] o.dt) (fun i =>
      let sc := (List.range 32).map (fun j => if 32 * j < o.dt.count then i.qntScale o r j else 0)
      i.lanes 4 o.g o.dt o.d 1 (i.srs true o.rs) (fun _ => sxOf (fun j => sc.getD j 0)) (fun k =>
        if i.badBlock o.g o.a r o.st true 1 0 (k / 32) then (0, flNV)
        else blockCode o.dt (sc.getD (k / 32) 0) (i.t.rmLane o.rs k) true
          (elVal o.st (i.t.regs.gel o.a r o.st.bits k)))))

/-- VDQNT. -/
def execVdqnt (o : VDqntOp) : State → Host.Outcome State Fault Refusal :=
  let r := fmtRatio o.dt o.st
  run (issueV o.g (vUses [o.a, o.b] (grpAll o.d r))
    (tagPre o.g o.st.count [(o.a, o.st), (o.b, .f32)] (grpAll o.d r) o.dt) (fun i =>
      i.lanes 4 o.g o.dt o.d r (i.srs true o.rs) (fun _ => unitSx o.dt) (fun k =>
        packF o.dt (i.t.rmLane o.rs k)
          ((elVal o.st (i.t.regs.gel o.a 1 o.st.bits k)).mul (Fp.f32.val ((i.t.regs.rv o.b).el 32 (k / 32)))))))

/-- A widening form (R203): the pair at twice the width. -/
def widen (o : VVVr) (fi : Int → Int → Int) (ff : RM → FVal → FVal → FVal × Flags) : Nat → Memory → Dev → Res :=
  let tag := (widened o.ef).getD .none
  issueV o.g (vUses [o.a, o.b] (grpAll o.d 2))
    (tagPre o.g o.ef.count [(o.a, o.ef), (o.b, o.ef)] (grpAll o.d 2) tag) (fun i =>
      i.lanes 4 o.g tag o.d 2 (i.srs o.ef.isF o.rs) (fun _ => 0) (fun k =>
        let x := (i.t.regs.rv o.a).el o.ef.bits k
        let y := (i.t.regs.rv o.b).el o.ef.bits k
        let r := i.t.rmLane o.rs k
        if o.ef.isI then (wrap tag.bits (fi (intVal o.ef x) (intVal o.ef y)), 0)
        else packF tag r (ff r ((Fp.of o.ef).val x) ((Fp.of o.ef).val y))))

/-- VWMUL. -/
def execVwmul (o : VVVr) : State → Host.Outcome State Fault Refusal :=
  run (widen o (· * ·) (fun _ a b => a.mul b))
/-- VWADD. -/
def execVwadd (o : VVVr) : State → Host.Outcome State Fault Refusal :=
  run (widen o (· + ·) (fun r a b => a.add r b))

/-- VDOT4 (R204): d_i and four products, summed exactly and rounded once. -/
def execVdot4 (o : VVVr) : State → Host.Outcome State Fault Refusal :=
  let tag := (dot4Tag o.ef).getD .none
  let r := if o.ef = .sv4 then 2 else 1
  let n := o.ef.count / 4
  run (issueV o.g (vUses ([o.a, o.b] ++ grpAll o.d r) (grpAll o.d r))
    (tagPre o.g n ([(o.a, o.ef), (o.b, o.ef)] ++ (grpAll o.d r).map (·, tag)) (grpAll o.d r) tag) (fun i =>
      i.lanes 4 o.g tag o.d r (i.srs (!o.ef.isI) o.rs) (fun _ => 0) (fun k =>
        let d := (i.t.regs.gel o.d r 32 k).1
        let rm := i.t.rmLane o.rs k
        let xs := (List.range 4).map (fun j =>
          (i.t.regs.gel o.a 1 o.ef.bits (4 * k + j), i.t.regs.gel o.b 1 o.ef.bits (4 * k + j)))
        if o.ef.isI then
          (wrap 32 (xs.foldl (fun s p => s + intVal o.ef p.1.1 * intVal o.ef p.2.1) (intVal tag d)), 0)
        else
          let s := xs.foldl (fun (s : FVal × Flags) p =>
            let m := (elVal o.ef p.1).mul (elVal o.ef p.2)
            let q := s.1.add rm m.1
            (q.1, s.2 ||| m.2 ||| q.2)) (Fp.f32.val d, 0)
          packF .f32 rm s)))

/-! ### VRED (R205, R206) -/

/-- The pairwise tree of R186 over 2^n elements, at step `t`. -/
def tree (op : Nat → Nat → Nat → Nat → Nat × Flags) : Nat → Nat → List Nat → Flags → Nat × Flags
  | 0, _, l, fl => (l.getD 0 0, fl)
  | n + 1, t, l, fl =>
    let half := 2 ^ n
    let ps := (List.range half).map (fun i => op t i (l.getD i 0) ((l.drop half).getD i 0))
    tree op n (t + 1) (ps.map Prod.fst) (ps.foldl (fun a p => a ||| p.2) fl)

/-- The addition of a reduction or scan, of element codes. -/
def sumOp (ef : Fmt) (r : RM) (x y : Nat) : Nat × Flags :=
  if ef.isI then ((x + y) % 2 ^ ef.bits, 0) else packF ef r (((Fp.of ef).val x).add r ((Fp.of ef).val y))

/-- The identity of a sum. -/
def sumId (ef : Fmt) : Nat := if ef.isI then 0 else (Fp.of ef).signBit

/-- The identity of a maximum or a minimum. -/
def mmId (ef : Fmt) (isMin : Bool) : Nat :=
  if ef.isI then wrap ef.bits (if isMin then intHi ef else intLo ef)
  else (Fp.of ef).top + 1 + b2n (!isMin) * (Fp.of ef).signBit

/-- Sources of a reduction, with inactive lanes at the identity. -/
def In.redSrc (i : In) (g : Guard) (a : VR) (ef : Fmt) (z : Nat) : List Nat :=
  (List.range ef.count).map (fun k => if laneOn g i.t k then (i.t.regs.rv a).el ef.bits k else z)

/-- A result written to every active lane, with the flags of forming it. -/
def In.spread (i : In) (g : Guard) (d : VR) (ef : Fmt) (sr : Bool) (p : Nat × Flags) : Out :=
  i.lanes 8 g ef d 1 sr (fun _ => unitSx ef) (fun _ => p)

/-- VREDS. -/
def execVreds (o : VVr) : State → Host.Outcome State Fault Refusal :=
  run (issueV o.g (vUses [o.a] [o.d]) (tagPre o.g o.ef.count [(o.a, o.ef)] [o.d] o.ef) (fun i =>
    i.spread o.g o.d o.ef (i.srs o.ef.isF o.rs)
      (tree (fun t k x y => sumOp o.ef (i.t.rmLane o.rs (1024 * t + k)) x y) (Nat.log2 o.ef.count) 0
        (i.redSrc o.g o.a o.ef (sumId o.ef)) 0)))

/-- VREDM. -/
def execVredm (o : VRedmOp) : State → Host.Outcome State Fault Refusal :=
  run (issueV o.g (vUses [o.a] [o.d]) (tagPre o.g o.ef.count [(o.a, o.ef)] [o.d] o.ef) (fun i =>
    i.spread o.g o.d o.ef false
      (tree (fun _ _ x y =>
          if o.ef.isI then
            (if decide (intVal o.ef x < intVal o.ef y) == o.min then x else y, 0)
          else (Fp.of o.ef).minmax (!o.min) x y) (Nat.log2 o.ef.count) 0
        (i.redSrc o.g o.a o.ef (mmId o.ef o.min)) 0)))

/-- Running sums from lane `k` on, each with the flags of its step. -/
def scanFrom (op : Nat → Nat → Nat → Nat × Flags) : Nat → Nat → List Nat → List (Nat × Flags)
  | _, _, [] => []
  | k, acc, x :: l => let p := op k acc x; p :: scanFrom op (k + 1) p.1 l

/-- VSCAN. -/
def execVscan (o : VVr) : State → Host.Outcome State Fault Refusal :=
  run (issueV o.g (vUses [o.a] [o.d]) (tagPre o.g o.ef.count [(o.a, o.ef)] [o.d] o.ef) (fun i =>
    let l := scanFrom (fun k acc x =>
        if k = 0 then
          let v := (Fp.of o.ef).val x
          if o.ef.isF && v.isNan then ((Fp.of o.ef).nan, sigNV [v]) else (x, 0)
        else sumOp o.ef (i.t.rmLane o.rs k) acc x) 0 0 (i.redSrc o.g o.a o.ef (sumId o.ef))
    i.lanes 8 o.g o.ef o.d 1 (i.srs o.ef.isF o.rs) (fun _ => unitSx o.ef) (fun k => l.getD k (0, 0))))

/-! ### VCMPSEL (R207, R208) -/

/-- A lane's compare. -/
def vcmpLane (ef : Fmt) (cc : FCond) (x y : Nat) : Bool × Flags :=
  if ef.isI then
    let a := intVal ef x
    let b := intVal ef y
    (match cc with
      | .eq => a == b | .ne => a != b | .lt => a < b | .le => a ≤ b | .gt => b < a | .ge => b ≤ a
      | _ => false, 0)
  else fcmp cc ((Fp.of ef).val x) ((Fp.of ef).val y)

/-- A predicate from its bits. -/
def predOf (l : List Bool) : BitVec 1024 := BitVec.ofNat 1024 (l.foldr (fun b acc => b2n b + 2 * acc) 0)

/-- VCMP: bits at and past N clear. -/
def execVcmp (o : VCmpOp) : State → Host.Outcome State Fault Refusal :=
  run (issueV o.g { vs := [o.a, o.b], kd := [kpLo o.kd, kpHi o.kd] }
    (tagPre .always o.ef.count [(o.a, o.ef), (o.b, o.ef)] [] o.ef) (fun i =>
      if !i.vfree then .hold i.base
      else
        let ps := (List.range o.ef.count).map (fun k =>
          vcmpLane o.ef o.cc ((i.t.regs.rv o.a).el o.ef.bits k) ((i.t.regs.rv o.b).el o.ef.bits k))
        let put (old : BitVec 1024) (inv : Bool) : BitVec 1024 :=
          predOf (ps.zipIdx.map (fun p => if laneOn o.g i.t p.2 then p.1.1 != inv else bit old p.2))
        let fl := ps.zipIdx.foldl (fun a p => if laneOn o.g i.t p.2 then a ||| p.1.2 else a) 0
        let lo := put (i.t.regs.rk (kpLo o.kd)) false
        let hi := put (i.t.regs.rk (kpHi o.kd)) true
        .ok ((i.vhold 4 (i.dev.regs i.tid (fun x => (x.wk (kpLo o.kd) lo).wk (kpHi o.kd) hi))).raiseFlags
          i.tid i.core fl) []))

/-- VSEL: a lane by a bit of kc. -/
def execVsel (o : VSelOp) : State → Host.Outcome State Fault Refusal :=
  run (issueV o.g { vs := [o.a, o.b], vd := [o.d], ks := [o.k] }
    (tagPre o.g o.ef.count [(o.a, o.ef), (o.b, o.ef)] [o.d] o.ef) (fun i =>
      i.lanes 4 o.g o.ef o.d 1 false (fun _ => unitSx o.ef) (fun k =>
        ((i.t.regs.rv (if bit (i.t.regs.rk o.k) k then o.a else o.b)).el o.ef.bits k, 0))))

/-! ### VLOGIC (R209, R210) -/

/-- The scale file of a retagged copy: the source's when it carries the same block tag, else unit scales. -/
def keepSx (v : VReg) (ef : Fmt) : BitVec 256 := if v.tag = ef ∧ ef.isB then v.sx else unitSx ef

/-- The second operand's registers. -/
def vregOf : VRegImm → List VR
  | .reg r => [r]
  | .imm _ => []

/-- Lane k of a register, or of imm32 sign-extended to 64 bits. -/
def Regs.lane2 (g : Regs) (b : VRegImm) (w k : Nat) : Nat :=
  match b with
  | .reg r => (g.rv r).el w k
  | .imm n => (n.signExtend 64).toNat % 2 ^ w

/-- A logical form. -/
def vlog (o : VLogOp) (f : Nat → Nat → Nat) : Nat → Memory → Dev → Res :=
  issueV o.g (vUses (o.a :: vregOf o.b) [o.d]) (anyPre o.g o.ef.count (o.a :: vregOf o.b) [o.d] o.ef) (fun i =>
    i.lanes 4 o.g o.ef o.d 1 false (fun _ => keepSx (i.t.regs.rv o.a) o.ef) (fun k =>
      (f ((i.t.regs.rv o.a).el o.ef.bits k) (i.t.regs.lane2 o.b o.ef.bits k), 0)))

/-- VAND. -/
def execVand (o : VLogOp) : State → Host.Outcome State Fault Refusal := run (vlog o (· &&& ·))
/-- VOR. -/
def execVor (o : VLogOp) : State → Host.Outcome State Fault Refusal := run (vlog o (· ||| ·))
/-- VXOR. -/
def execVxor (o : VLogOp) : State → Host.Outcome State Fault Refusal := run (vlog o (· ^^^ ·))
/-- VNOT. -/
def execVnot (o : VV) : State → Host.Outcome State Fault Refusal :=
  run (issueV o.g (vUses [o.a] [o.d]) (anyPre o.g o.ef.count [o.a] [o.d] o.ef) (fun i =>
    i.lanes 4 o.g o.ef o.d 1 false (fun _ => keepSx (i.t.regs.rv o.a) o.ef) (fun k =>
      (2 ^ o.ef.bits - 1 - (i.t.regs.rv o.a).el o.ef.bits k, 0))))

/-- A shift by b_i mod w, or by imm32. -/
def vshift (o : VLogOp) (f : Nat → Nat → Nat) : Nat → Memory → Dev → Res :=
  issueV o.g (vUses (o.a :: vregOf o.b) [o.d])
    (tagPre o.g o.ef.count ((o.a :: vregOf o.b).map (·, o.ef)) [o.d] o.ef) (fun i =>
      i.lanes 4 o.g o.ef o.d 1 false (fun _ => 0) (fun k =>
        (f ((i.t.regs.rv o.a).el o.ef.bits k) (i.t.regs.lane2 o.b o.ef.bits k % o.ef.bits), 0)))

/-- VSHL. -/
def execVshl (o : VLogOp) : State → Host.Outcome State Fault Refusal := run (vshift o (fun x n => x * 2 ^ n))
/-- VSHR. -/
def execVshr (o : VLogOp) : State → Host.Outcome State Fault Refusal := run (vshift o (fun x n => x / 2 ^ n))
/-- VSRA: copies of bit w − 1 shift in, whatever the signedness. -/
def execVsra (o : VLogOp) : State → Host.Outcome State Fault Refusal :=
  run (vshift o (fun x n => ((BitVec.ofNat o.ef.bits x).sshiftRight n).toNat))

/-! ### VMOVE (R211, R212) -/

/-- Scalar registers of a register-or-immediate operand. -/
def regOf : RegImm → List Reg
  | .reg r => [r]
  | .imm _ => []

/-- The operand's value: the register's, or imm32 sign-extended. -/
def immOr (b : RegImm) (v : Word) : Word :=
  match b with
  | .reg _ => v
  | .imm n => n.signExtend 64

/-- VIOTA: (xa + i × s) mod 2^w. -/
def execViota (o : ViotaOp) : State → Host.Outcome State Fault Refusal :=
  run (issueV o.g { xs := [o.a], vd := [o.d] } (tagPre o.g o.ef.count [] [o.d] o.ef) (fun i =>
    i.lanes 4 o.g o.ef o.d 1 false (fun _ => 0) (fun k =>
      (wrap o.ef.bits (i.a.toInt + k * (match o.step with
        | some n => n.toInt
        | none => 1)), 0))))
/-- VBCAST: low w bits of xa, or of imm32 sign-extended. -/
def execVbcast (o : VbcastOp) : State → Host.Outcome State Fault Refusal :=
  run (issueV o.g { xs := regOf o.a, vd := [o.d] } (tagPre o.g o.ef.count [] [o.d] o.ef) (fun i =>
    i.lanes 4 o.g o.ef o.d 1 false (fun _ => 0) (fun _ => ((immOr o.a i.a).toNat, 0))))
/-- VSLIDE: a[i + s] within the register, else 0. -/
def execVslide (o : VslideOp) : State → Host.Outcome State Fault Refusal :=
  run (issueV o.g { xs := regOf o.b, vs := [o.a], vd := [o.d] }
    (tagPre o.g o.ef.count [(o.a, o.ef)] [o.d] o.ef) (fun i =>
      i.lanes 4 o.g o.ef o.d 1 false (fun _ => 0) (fun k =>
        let j : Int := (k : Int) + (immOr o.b i.a).toInt
        if 0 ≤ j ∧ j < o.ef.count then ((i.t.regs.rv o.a).el o.ef.bits j.toNat, 0) else (0, 0))))
/-- VPERM: a[u_i mod N]; the indices are a pair when N is 512. -/
def execVperm (o : VVV) : State → Host.Outcome State Fault Refusal :=
  let r := if o.ef.count = 512 then 2 else 1
  run (issueV o.g (vUses (o.a :: grpAll o.b r) [o.d])
    (tagPre o.g o.ef.count ((o.a, o.ef) :: (grpAll o.b r).map (·, .n16)) [o.d] o.ef) (fun i =>
      i.lanes 8 o.g o.ef o.d 1 false (fun _ => 0) (fun k =>
        ((i.t.regs.rv o.a).el o.ef.bits ((i.t.regs.gel o.b r 16 k).1 % o.ef.count), 0))))
/-- VZIP. -/
def execVzip (o : VzipOp) : State → Host.Outcome State Fault Refusal :=
  run (issueV o.g (vUses [o.a, o.b] [o.d])
    (tagPre o.g o.ef.count [(o.a, o.ef), (o.b, o.ef)] [o.d] o.ef) (fun i =>
      i.lanes 4 o.g o.ef o.d 1 false (fun _ => 0) (fun k =>
        ((i.t.regs.rv (if k % 2 = 0 then o.a else o.b)).el o.ef.bits (b2n o.h * (o.ef.count / 2) + k / 2), 0))))
/-- VUNZIP. -/
def execVunzip (o : VzipOp) : State → Host.Outcome State Fault Refusal :=
  run (issueV o.g (vUses [o.a, o.b] [o.d])
    (tagPre o.g o.ef.count [(o.a, o.ef), (o.b, o.ef)] [o.d] o.ef) (fun i =>
      i.lanes 4 o.g o.ef o.d 1 false (fun _ => 0) (fun k =>
        let n := o.ef.count / 2
        if k < n then ((i.t.regs.rv o.a).el o.ef.bits (2 * k + b2n o.h), 0)
        else ((i.t.regs.rv o.b).el o.ef.bits (2 * (k - n) + b2n o.h), 0))))

/-- What a source will read, after the sources before it: an entry of its queue when it is consumer-mapped. None when
there is no such entry, or the register may not be read. -/
def Dev.peekX (d : Dev) (t : Thread) (before : List Reg) (r : Reg) : Option Word :=
  if qmap t.slotcfg r = 0 then some (t.regs.rx r)
  else if qmap t.slotcfg r = 1 then
    match d.queue t (qOf r) with
    | some q => q.items[(before.filter (fun b => qmap t.slotcfg b = 1 && qOf b = qOf r)).length]?
    | none => none
  else none

/-- The element index of a VMOVS, before anything is popped. -/
def Dev.peekIdx (d : Dev) (t : Thread) (before : List Reg) : RegImm → Option Nat
  | .imm m => some (m.signExtend 64).toNat
  | .reg r => (d.peekX t before r).map BitVec.toNat

/-- An element index at or above N (Table 10-2's order: before a queue register is judged). -/
def idxPre (d : Dev) (before : List Reg) (j : RegImm) (n : Nat) (t : Thread) : Option Nat :=
  match d.peekIdx t before j with
  | some k => if n ≤ k then some Cause.operandRange else none
  | none => none

/-- Bit j of the guard, the one that acts, is 0 (R212): the head pops nothing and changes nothing. -/
def idxOff (g : Guard) (before : List Reg) (j : RegImm) (d : Dev) (t : Thread) : Bool :=
  match d.peekIdx t before j with
  | some k => !laneOn g t k
  | none => false

/-- VMOVS.get: element j, sign-extended for the signed tags; only bit j of the guard acts. -/
def execVmovsGet (o : VgetOp) : State → Host.Outcome State Fault Refusal :=
  run (fun drip mem d => issueV o.g { xs := regOf o.j, xd := some o.d, vs := [o.a], off := idxOff o.g [] o.j }
    (fun t => (tagPre .always o.ef.count [(o.a, o.ef)] [] o.ef t).or (idxPre d [] o.j o.ef.count t)) (fun i =>
      if !i.vfree then .hold i.base
      else
        let x := (i.t.regs.rv o.a).el o.ef.bits (immOr o.j i.a).toNat
        let v : Word := if o.ef.isSigned then (BitVec.ofNat o.ef.bits x).signExtend 64 else wd64 x
        .ok (i.vhold 1 (i.dev.putX i.tid o.d v)) []) drip mem d)

/-- VMOVS.put: element j takes the low w bits of xa. -/
def execVmovsPut (o : VputOp) : State → Host.Outcome State Fault Refusal :=
  run (fun drip mem d => issueV o.g { xs := o.a :: regOf o.j, vs := [o.d], vd := [o.d], off := idxOff o.g [o.a] o.j }
    (fun t => (if (t.regs.rv o.d).tag = o.ef ∨ (t.regs.rv o.d).tag = .none then none
      else some Cause.formatTag).or (idxPre d [o.a] o.j o.ef.count t)) (fun i =>
      let j := (immOr o.j i.b).toNat
      let w := o.ef.bits
      if !i.vfree then .hold i.base
      else
        let old := (i.t.regs.rv o.d).bits
        let m : BitVec 4096 := BitVec.ofNat 4096 ((2 ^ w - 1) * 2 ^ (w * j))
        let v : BitVec 4096 := BitVec.ofNat 4096 (i.a.toNat % 2 ^ w * 2 ^ (w * j))
        .ok (i.vhold 1 (i.dev.regs i.tid (·.wv o.d ⟨(old &&& ~~~m) ||| v, o.ef, 0⟩))) []) drip mem d)

/-! ### VMISC (R213 to R215) -/

/-- VTAG: the bits of va under tag ef, with scales from vb or as R176 gives them. -/
def execVtag (o : VtagOp) : State → Host.Outcome State Fault Refusal :=
  run (issueV .always (vUses (if o.scl then [o.a, o.b] else [o.a]) [o.d]) (fun _ => none) (fun i =>
    let a := i.t.regs.rv o.a
    let b := i.t.regs.rv o.b
    let sx : BitVec 256 :=
      if o.scl then
        (if o.ef = .sv4 then BitVec.ofNat 256 (bits b.bits 0 256)
          else if o.ef.isB then BitVec.ofNat 256 (bits b.bits 0 128) else 0)
      else keepSx a o.ef
    i.vector 1 (fun t => { t with regs := t.regs.wv o.d ⟨a.bits, o.ef, sx⟩ })))

/-- VCLASS: one-hot classes under .n32 or .n16. -/
def execVclass (o : VV) : State → Host.Outcome State Fault Refusal :=
  let tag : Fmt := if o.ef = .f32 then .n32 else .n16
  run (issueV o.g (vUses [o.a] [o.d]) (tagPre o.g o.ef.count [(o.a, o.ef)] [o.d] tag) (fun i =>
    i.lanes 4 o.g tag o.d 1 false (fun _ => 0) (fun k =>
      ((Fp.of o.ef).cls ((i.t.regs.rv o.a).el o.ef.bits k), 0))))

/-- VRAND: the keyed hash of each lane; every issue counts in SRCTR. -/
def execVrand (o : VrandOp) : State → Host.Outcome State Fault Refusal :=
  run (issueV o.g (vUses [] [o.d]) (tagPre o.g o.ef.count [] [o.d] o.ef) (fun i =>
    i.lanes 4 o.g o.ef o.d 1 true (fun _ => 0) (fun k =>
      let h := srHash i.t.srseed i.t.srctr k
      if o.ef = .f32 then (Fp.f32.roundFin RM.rne false false (h / 256) (-24)) else (h, 0))))

end Sys2Proof.Machine
end

