-- ==== Sys2Proof/Machine/Access.lean ====
section
/-!
DEFINITION. What every access to memory shares at the core (spec 04 R78 to R85, 13 R256 to R261, 14 R277 to
R288): the checks at issue, translation, the pieces of an access, the store buffer and what it forwards, and
the sending of loads.
-/
namespace Sys2Proof.Machine
open Sys2Proof

/-! ### The kinds of accesses -/

/-- An access that went through the store buffer. -/
def AccOp.buffered : AccOp → Bool
  | .store _ | .atom .. | .atomx .. | .tagst .. | .bst .. | .psend .. => true
  | _ => false

/-- A message that is such a store of a core, not yet performed. -/
def Msg.unperf (core : Nat) (m : Msg) : Bool :=
  match m.kind with
  | .acc a => a.op.buffered && a.src.core == core
  | _ => false

/-- A core's stores that have left the buffer and have not performed. -/
def Dev.unperf (d : Dev) (core : Nat) : List Msg := d.msgs.filter (·.unperf core)

/-- A thread has global stores, numbered below `n`, that have not performed (R281). -/
def Dev.storesBelow (d : Dev) (tid core n : Nat) : Bool :=
  let old := fun (a : Acc) => a.src.tid == tid && a.src.op < n
  (d.core core).sb.any old || (d.unperf core).any (fun m => match m.kind with
    | .acc a => old a
    | _ => false)

/-- Operations of a thread whose loaded value has not come (R281). -/
def Dev.loadOps (d : Dev) (tid : Nat) : List Nat :=
  d.msgs.filterMap (fun m => match m.kind with
    | .acc a => if a.op.isLoad && a.src.tid == tid then some a.src.op else none
    | .data f .. | .hit f .. => if f.tid == tid then some f.op else none
    | _ => none)

/-! ### Checks at issue (R78, R277) -/

/-- The thread's window: its first byte's place and its length (R256, R257). -/
def Dev.window (d : Dev) (tid : Nat) (t : Thread) (sp : Space) : Nat × Nat :=
  match d.blk t.blk with
  | none => (0, 0)
  | some b =>
    match sp with
    | .nich => match b.crewOf tid with
      | some c => (nicheKey c.core c.niche, c.nicheLen)
      | none => (0, 0)
    | .gall => (gallKey b.clus b.gall, b.gallLen)
    | .glob => (0, 0)

/-- The checks of R78 on addresses and sizes, in its order. -/
def addrCheck (sp : Space) (len : Nat) (l : List (Word × Nat × Nat)) : Option Nat :=
  if sp ≠ .glob ∧ l.any (fun p => len < p.1.toNat + p.2.1) then some Cause.windowRange
  else if l.any (fun p => p.1.toNat % p.2.2 != 0) then some Cause.misaligned
  else if sp = .glob ∧ l.any (fun p => !formOk p.1) then some Cause.addressForm
  else none

/-! ### Places -/

/-- Where an address of an access is. -/
inductive Spot where
  | found (leaf : Word) (place : Nat)
  | ask (d : Dev)
  | hole (place : Nat)

/-- Translate an address for an access kind (R79): found, or the walk asked for. -/
def In.spot (i : In) (k : AccK) (va : Word) : Spot :=
  match i.base.translate i.core i.t.ctx va k with
  | some (l, p) => if keyOk p then .found l p else .hole p
  | none => .ask (i.base.askWalk i.mem (coreDie i.core) i.t.ctx va (.thread i.tid k.code i.t.pc va))

/-- A piece (R278): its line by virtual address with the pointer's tag and by place, and whether the leaf
enables tags. -/
structure PKey where
  va : Word
  line : Nat
  tag : Bool
  heat : Bool
  deriving DecidableEq

/-- Put a part under its piece, pieces in order of first appearance. -/
def addPart {α : Type} (k : PKey) (x : α) : List (PKey × List α) → List (PKey × List α)
  | [] => [(k, [x])]
  | (j, l) :: m => if j = k then (j, l ++ [x]) :: m else (j, l) :: addPart k x m

/-- What translating all parts of an access comes to. -/
inductive Parts (α : Type) where
  | ok (l : List (PKey × List α))
  | ask (d : Dev)
  | hole (place : Nat)

/-- Translate every part before any performs (R287). -/
def In.parts {α β : Type} (i : In) (k : AccK) (va : α → Word) (f : α → Nat → β) : List α →
    List (PKey × List β) → Parts β
  | [], acc => .ok acc
  | x :: xs, acc =>
    match i.spot k (va x) with
    | .ask d => .ask d
    | .hole p => .hole p
    | .found l p =>
      i.parts k va f xs (addPart ⟨va x &&& ~~~(127 : Word), lineOf p, leafTag l && keyAp p ≤ 0xC0, leafHeat l⟩ (f x p) acc)

/-- Sample an access for its region's heat (R339). -/
def Dev.sample (d : Dev) (drip die ctx : Nat) (va : Word) : Dev :=
  if bits va 13 6 ^^^ (drip / 2 ^ 20 % 64) = (d.die die).hkey.toNat then
    let r := bits va 23 28
    let mine := fun (h : Heat) => h.ctx == ctx && h.region == r
    let n := match d.heats.find? mine with
      | some h => min (h.count + 1) 0xFFFF
      | none => 1
    { d with heats := (⟨ctx, r, n⟩ :: d.heats.filter (fun h => !mine h)).take 4096 }
  else d

/-- Sample the pieces whose leaf asks for it. -/
def In.samples {α : Type} (i : In) (l : List (PKey × List α)) (d : Dev) : Dev :=
  l.foldl (fun d p => if p.1.heat then d.sample i.drip (coreDie i.core) i.t.ctx p.1.va else d) d

/-! ### Bits of memory -/

/-- `n` bits from bit `lo` of the byte at `a`, through a reader of bytes. -/
def bitsFrom (f : Nat → Byte) (a lo n : Nat) : Nat :=
  fld ((List.range ((lo + n + 7) / 8)).foldr (fun k acc => (f (a + k)).toNat + 256 * acc) 0) lo n

/-- The value of a part that was read: a scalar is extended (R80). -/
def El.value (e : El) (v : Nat) : Dest × Nat :=
  match e.dest with
  | .x r => (.x r, if e.sg && 2 ^ (e.n - 1) ≤ v then v + (2 ^ 64 - 2 ^ e.n) else v)
  | dest => (dest, v)

/-- Read parts through a reader of bytes. -/
def readEls (f : Nat → Byte) (l : List El) : List (Dest × Nat) :=
  l.map (fun e => e.value (bitsFrom f e.addr e.lo e.n))

/-- The lanes and scales that values name in a register, and their bits. -/
def laneMask (v : VR) (l : List (Dest × Nat)) : Nat × Nat × Nat × Nat :=
  l.foldl (fun a p => match p.1 with
    | .lane r i w lo =>
      if r = v then (a.1 ||| ((2 ^ w - 1) <<< (w * i)), a.2.1 ||| (p.2 <<< (w * i + lo)), a.2.2.1, a.2.2.2) else a
    | .scale r j =>
      if r = v then (a.1, a.2.1, a.2.2.1 ||| (255 <<< (8 * j)), a.2.2.2 ||| (p.2 <<< (8 * j))) else a
    | .x _ => a) (0, 0, 0, 0)

/-- Write loaded lanes and scales: named ones take their bits, others stay, and the tag is the format
(R284). -/
def VReg.fill (r : VReg) (v : VR) (fmt : Fmt) (l : List (Dest × Nat)) : VReg :=
  let m := laneMask v l
  let sx := if r.tag = fmt then r.sx else unitSx fmt
  ⟨(r.bits &&& ~~~(BitVec.ofNat 4096 m.1)) ||| BitVec.ofNat 4096 m.2.1, fmt,
    (sx &&& ~~~(BitVec.ofNat 256 m.2.2.1)) ||| BitVec.ofNat 256 m.2.2.2⟩

/-- Deliver loaded values to a thread's registers. -/
def Dev.deliver (d : Dev) (tid : Nat) (pv : Option VR) (fmt : Fmt) (l : List (Dest × Nat)) : Dev :=
  let d := l.foldl (fun d p => match p.1 with
    | .x r => d.putX tid r (wd64 p.2)
    | _ => d) d
  match pv with
  | some v => d.regs tid (fun g => g.wv v ((g.rv v).fill v fmt l))
  | none => d

/-! ### The store buffer (R82, R173) -/

/-- The last write of a byte in an entry: its mask and value, merged. -/
def mergeBytes (a : Nat) (l : List MByte) : Byte × Byte :=
  l.foldl (fun p b => if b.addr = a then (p.1 ||| b.mask, (p.2 &&& ~~~b.mask) ||| (b.val &&& b.mask)) else p) (0, 0)

/-- An entry that does not forward touches a byte. -/
def AccOp.touches (a : Nat) : AccOp → Bool
  | .atom _ p n _ _ _ => p ≤ a && a < p + n
  | .atomx p _ => p ≤ a && a < p + 4
  | .bst _ l => l.any (fun b => b.addr == a && b.mask != 0)
  | .tagst g _ => g ≤ a && a < g + 32
  | _ => false

/-- What the buffer holds of the bits of a byte that a load needs: the bits found, their values, and
whether the load must be held for an entry that does not forward. Entries youngest first. -/
def sbByte (a : Nat) : Byte → List Acc → Byte × Byte × Bool
  | _, [] => (0, 0, false)
  | need, e :: es =>
    match e.op with
    | .tagst g _ =>
      let r := sbByte a need es
      if g ≤ a ∧ a < g + 32 then (r.1, r.2.1, true) else r
    | .store l =>
      let p := mergeBytes a l
      let hit := p.1 &&& need
      let r := sbByte a (need &&& ~~~hit) es
      (hit ||| r.1, (p.2 &&& hit) ||| (r.2.1 &&& ~~~hit), r.2.2)
    | op => if need ≠ 0 ∧ op.touches a then (0, 0, true) else sbByte a need es

/-- The bytes of a part, with the bits it needs. -/
def El.bytes (e : El) : List (Nat × Byte) :=
  (List.range ((e.lo + e.n + 7) / 8)).map (fun k =>
    (e.addr + k, BitVec.ofNat 8 (((2 ^ e.n - 1) <<< e.lo) >>> (8 * k))))

/-- What a core's buffer gives a load. -/
inductive Fwd where
  | none
  | all (f : List (Nat × Byte))
  | hold

/-- Look a load up in the buffer: all of its bits, none, or held (R82). -/
def Core.forward (c : Core) (els : List El) : Fwd :=
  if c.sb = [] then .none
  else
    let l := (els.flatMap El.bytes).map (fun p => (p, sbByte p.1 p.2 c.sb.reverse))
    if l.any (fun x => x.2.2.2) then .hold
    else if l.all (fun x => x.2.1 == 0) then .none
    else if l.all (fun x => x.2.1 == x.1.2) then
      .all (l.foldl (fun m x => put x.1.1 (look 0 x.1.1 m ||| x.2.2.1) m) [])
    else .hold

/-- An entry overlaps bytes. -/
def AccOp.overlaps (a n : Nat) : AccOp → Bool
  | .store l => l.any (fun b => b.mask != 0 && a ≤ b.addr && b.addr < a + n)
  | op => (List.range n).any (fun k => op.touches (a + k))

/-! ### Loads -/

/-- A part of a load by virtual address. -/
structure VEl where
  va : Word
  lo : Nat
  n : Nat
  sg : Bool
  rank : Nat
  dest : Dest

/-- Miss registers for some lines are free; a load of more than the core holds goes in passes (R287). -/
def In.missRoom (i : In) (lines : List Nat) : Bool :=
  let used := i.base.missLines i.core
  let need := (lines.filter (fun l => !used.contains l)).eraseDups.length
  i.base.missUsed i.core + min need 48 ≤ 48

/-- No older access of the thread holds this one back: acquires (R139, R145, R280), and for a load the
stores before a full fence (R281). -/
def In.ordered (i : In) (load : Bool) : Bool :=
  i.t.acq.isEmpty && !(load && i.base.storesBelow i.tid i.core i.t.fenceAcr)

/-- The access of one piece. -/
def In.acc (i : In) (op : AccOp) (k : PKey) (o : Nat) (r : Reg) (sc : Scope) (exact rel : Bool)
    (major minor : Nat) (st : AccSt) : Acc :=
  ⟨i.src r o, op, k.line, k.va, sc, k.tag, exact, major, minor, st, i.drip, [], rel, o + 1, false⟩

/-- Registers a load fills. -/
structure LoadTo where
  px : Option Reg := none
  pv : Option VR := none
  fmt : Fmt := .none
  /-- Values known at issue. -/
  init : List (Dest × Nat) := []

/-- An acquire: later accesses wait for its value (R280). -/
def Dev.holdFor (d : Dev) (tid op : Nat) (acq : Bool) : Dev :=
  if acq then d.updThr tid (fun t => { t with acq := op :: t.acq }) else d

/-- A piece of a load has part of an element of which another piece has the rest. -/
def sharesEl (pcs : List (PKey × List El)) (q : PKey × List El) : Bool :=
  pcs.any (fun p => p.1.line != q.1.line && p.2.any (fun x => q.2.any (fun y => x.rank == y.rank)))

/-- Give a load's operation the tag its vector destination takes and what is known of it; its miss registers
are those of its lines. -/
def Dev.setOp (d : Dev) (op : Nat) (fmt : Fmt) (vals : List (Dest × Nat)) : Dev :=
  { d with outst := d.outst.map (fun o =>
      if o.op = op then { o with fmt := fmt, vals := vals, own := false } else o) }

/-- A core has a load whose value has not been taken (R83). -/
def Dev.unserved (d : Dev) (core : Nat) : Bool :=
  d.msgs.any (fun m => match m.kind with
    | .acc a => a.op.isLoad && a.src.core == core
    | _ => false)

/-- A byte of a copied line. -/
def versionByte (b : BitVec 1024) (line a : Nat) : Byte := BitVec.ofNat 8 (bits b (8 * (a - line)) 8)

/-- The tag of a granule as an access meets it: that of the youngest TAGST before it, accepted at the home or
the core's own, else the granule's (R82, R299). For an L1 hit only the core's own count. -/
def Dev.tagAt (d : Dev) (a : Acc) (hit : Bool) (g : Nat) : BitVec 4 :=
  d.msgs.foldl (fun t m => match m.kind with
    | .acc b => match b.op with
      | .tagst h v =>
        if h = g ∧ (if b.src.core = a.src.core then b.src.op < a.src.op else !hit && b.st == .accepted) then v else t
      | _ => t
    | _ => t) (look 0 g d.tags)

/-- The first granule whose tag differs, by the parts that touch it (R277, R299): rank and address. -/
def Dev.tagFault (d : Dev) (a : Acc) (hit : Bool) : Option (Nat × Word) :=
  if !a.tag then none
  else
    let want := BitVec.ofNat 4 (bits a.va 56 4)
    let bad := fun p => d.tagAt a hit (p / 32 * 32) != want
    let at' := fun p => a.va + wd64 (p - a.line)
    let pick := fun (l : List (Nat × Nat)) => (l.find? (fun p => bad p.2)).map (fun p => (p.1, at' p.2))
    match a.op with
    | .load els => pick (els.flatMap (fun e => e.bytes.map (fun b => (e.rank, b.1))))
    | .store l => pick (l.map (fun b => (0, b.addr)))
    | .atom _ p _ _ _ _ => pick [(0, p)]
    | .atomx p _ => pick [(0, p)]
    | .bld p .. => pick [(0, p)]
    | .mcsld p _ => pick [(0, p)]
    | .bst _ l => pick (l.map (fun b => (0, b.addr)))
    | _ => none

/-- A load served at the core, from bytes `f`: its data come 6 drips after issue, or at once where it had to
wait longer for the older loads (R260, R261). -/
def Dev.coreData (d : Dev) (drip : Nat) (a : Acc) (f : Nat → Byte) : Dev :=
  match d.tagFault a true, a.op with
  | some p, _ => d.send (.error a.src Cause.tagMismatch p.2 p.1 none)
  | none, .load els => d.send (.hit a.src (readEls f els) (max drip (a.at' + 6)))
  | none, _ => d

/-- Send a piece of a load: from the L1 copy at once where no older load of the core is unserved, held with the
copy's data where one is, or to its home (R260, R261). -/
def Dev.sendPiece (d : Dev) (drip : Nat) (a : Acc) (hit : Option L1E) : Dev :=
  match hit with
  | none => d.send (.acc a)
  | some e =>
    if d.unserved a.src.core then d.send (.acc { a with st := .l1 e.data e.expiry })
    else d.coreData drip a (versionByte e.data a.line)

/-- Entries of a core's buffer that forwarded bytes to operation `o` stand behind the loads before it (R83). -/
def Core.forwarded (c : Core) (els : List El) (o : Nat) : Core :=
  let at' := (els.flatMap El.bytes).map Prod.fst
  { c with sb := c.sb.map (fun (e : Acc) => match e.op with
      | .store l => if l.any (fun b => b.mask != 0 && at'.contains b.addr) then { e with after' := o } else e
      | _ => e) }

/-- Scopes that hold no agent beyond the issuer's core (Table 13-2). -/
def nearOnly : Scope → Bool
  | .slot | .core => true
  | _ => false

/-- A global load (R79, R80, R82, R83, R260). -/
def In.load (i : In) (sc : Scope) (acq exact : Bool) (major minor : Nat) (tgt : LoadTo) (els : List VEl) : Out :=
  if !i.ordered true then .hold i.base
  else match i.parts .read VEl.va (fun e p => (⟨p, e.lo, e.n, e.sg, e.rank, e.dest⟩ : El)) els [] with
  | .ask d => .hold d
  | .hole p => .hole p
  | .ok pcs =>
    let joint := sharesEl pcs
    let hit := fun (q : PKey × List El) =>
      if nearOnly sc && !joint q then (i.base.core i.core).entry q.1.line i.drip else none
    let els := pcs.flatMap Prod.snd
    if !i.room true 1 then .hold i.base
    else match (i.base.core i.core).forward els with
    | .hold => .hold i.base
    | .all f =>
      let p := i.dev.openOp i.tid pcs.length true tgt.px tgt.pv none
      let d := (p.1.setOp p.2 tgt.fmt tgt.init).holdFor i.tid p.2 acq
      let d := d.setCore i.core ((d.core i.core).forwarded els p.2)
      .ok (i.samples pcs (pcs.foldl (fun d q => d.coreData i.drip
        (i.acc (.load q.2) q.1 p.2 0 sc exact false major minor .travelling) (fun a => look 0 a f)) d)) []
    | .none =>
      if pcs = [] then .ok (i.dev.deliver i.tid tgt.pv tgt.fmt tgt.init) []
      else if !i.missRoom ((pcs.filter (fun p => (hit p).isNone)).map (fun p => p.1.line)) then .hold i.base
      else
        let p := i.dev.openOp i.tid pcs.length true tgt.px tgt.pv none
        let d := (p.1.setOp p.2 tgt.fmt tgt.init).holdFor i.tid p.2 acq
        .ok (i.samples pcs (pcs.foldl (fun d q => d.sendPiece i.drip
          { i.acc (.load q.2) q.1 p.2 0 sc exact false major minor .travelling with joint := joint q } (hit q)) d)) []

/-! ### Stores -/

/-- A byte written under a mask, by virtual address. -/
structure VB where
  va : Word
  mask : Byte
  val : Byte

/-- The bytes of a value. -/
def vbytes (va : Word) (n v : Nat) : List VB :=
  (List.range n).map (fun k => ⟨va + wd64 k, 0xFF, BitVec.ofNat 8 (v >>> (8 * k))⟩)

/-- A store or atomic must wait in the buffer until the older stores have performed: a release at a scope
beyond the core, or behind a fence that is one (R269, R281). -/
def In.releases (i : In) (rel : Bool) (sc : Scope) : Bool :=
  (rel && !nearOnly sc) || i.base.storesBelow i.tid i.core i.t.fenceRel

/-- Entries of the store buffer are free for `n` pieces; more than it holds go in passes (R82, R287). -/
def In.sbRoom (i : In) (n : Nat) : Bool := (i.base.core i.core).sb.length + min n 64 ≤ 64

/-- Put entries at the end of a core's store buffer. -/
def Dev.pushSb (d : Dev) (core : Nat) (l : List Acc) : Dev :=
  d.setCore core { d.core core with sb := (d.core core).sb ++ l }

/-- A posted access of one or more pieces through the store buffer (R81, R82). `split` are the places of elements that
lie in two lines. -/
def In.post (i : In) (pcs : List (PKey × AccOp)) (sc : Scope) (rel exact : Bool) (major minor : Nat)
    (split : List Word) : Out :=
  if !i.room false 1 ∨ !i.sbRoom pcs.length then .hold i.base
  else if pcs = [] then .ok i.dev []
  else
    let rel := i.releases rel sc
    let p := i.dev.openOp i.tid pcs.length false none none none
    .ok ((p.1.pushSb i.core (pcs.map (fun (q : PKey × AccOp) => { i.acc q.2 q.1 p.2 0 sc exact rel major minor .travelling with
      joint := split.any (fun a => a &&& ~~~(127 : Word) == q.1.va) })))) []

/-- A global store (R81). -/
def In.store (i : In) (sc : Scope) (rel exact : Bool) (major minor : Nat) (bs : List VB) (split : List Word := []) :
    Out :=
  if !i.ordered false then .hold i.base
  else match i.parts .write VB.va (fun (b : VB) p => (⟨p, b.mask, b.val⟩ : MByte)) bs [] with
  | .ask d => .hold d
  | .hole p => .hole p
  | .ok pcs =>
    { i with dev := i.samples pcs i.dev }.post (pcs.map (fun (q : PKey × List MByte) => (q.1, AccOp.store q.2))) sc rel exact major minor
      split

/-- A core consumes an uncorrectable error, once (R355). -/
def Dev.consume (d : Dev) (core cause addr : Nat) : Dev :=
  if d.msgs.any (fun m => match m.kind with
      | .consume c _ _ => c == core
      | _ => false) then d
  else d.send (.consume core cause addr)

/-! ### The niche and the gallery (R37, R81, R258, R259) -/

/-- The gallery words of an access's bytes, in pieces of up to 128 bytes of its stream order (R258). -/
def galleryPieces (l : List Nat) : List (List Nat) :=
  (List.range ((l.length + 127) / 128)).map (fun j => (((l.drop (128 * j)).take 128).map (· / 4)).eraseDups)

/-- Drips that an access of some words takes: the words of its busiest bank (R258). -/
def bankDrips (ws : List Nat) : Nat :=
  ws.foldl (fun n w => max n (ws.countP (fun x => x % 64 == w % 64))) 0

/-- Occupy the banks of a cluster for pieces that follow one another from drip `t`: the banks' new times and the
drip in which the last piece is complete. None while a bank that is needed is not free (R258).
DESIGN CHOICE, unsafe (log 99). -/
def takeBanks (banks : List (Nat × Nat)) (t : Nat) : List (List Nat) → Option (List (Nat × Nat) × Nat)
  | [] => some (banks, t)
  | ws :: rest =>
    if ws.all (fun w => look 0 (w % 64) banks ≤ t) then
      takeBanks (ws.foldl (fun b w => put (w % 64) (t + bankDrips ws) b) banks) (t + bankDrips ws) rest
    else none

/-- An access of a cluster's gallery in drip `drip` at some bytes, in stream order. -/
def Dev.gallery (d : Dev) (drip clus : Nat) (bytes : List Nat) : Option (Dev × Nat) :=
  let c := d.clus clus
  match takeBanks (c.banks.filter (fun p => drip < p.2)) drip (galleryPieces bytes) with
  | some (b, t) => some (d.setClus clus { c with banks := b }, t)
  | none => none

/-- A near access of a thread: one of the gallery takes its core's port and its banks, and the slot issues again
when it is complete (R24, R258). None while it must wait. -/
def In.near (i : In) (base : Nat) (bytes : List Nat) : Option Dev :=
  if keyAp base < 0x2000 then some i.dev
  else if i.drip < (i.base.core i.core).gport then none
  else match i.dev.gallery i.drip (coreClus i.core) bytes with
  | some (d, t) =>
    let d := d.setCore i.core { d.core i.core with gport := t }
    some (d.updThr i.tid (fun th => { th with notBefore := max th.notBefore t }))
  | none => none

/-- A near store performs at issue: not while a releasing fence waits for older stores (R281), nor with no room in
S, which it raises until the slot's next issue (R26, R81). -/
def In.nearStore (i : In) (base : Nat) (bs : List VB) : Out :=
  if !i.ordered false ∨ !i.room false 1 ∨ i.base.storesBelow i.tid i.core i.t.fenceRel then .hold i.base
  else match i.near base (bs.map (fun b => base + b.va.toNat)) with
  | none => .hold i.base
  | some d =>
    .ok { d with badWords := d.badWords.filter (fun w =>
        !(List.range 8).all (fun k => bs.any (fun (b : VB) => base + b.va.toNat == w + k && b.mask == 0xFF))) } (bs.foldl (fun w b =>
      let a := base + b.va.toNat
      let old := (w.reverse.find? (fun p => p.1 = a)).map Prod.snd
      w ++ [(a, ((old.getD (i.mem.read a)) &&& ~~~b.mask) ||| (b.val &&& b.mask))]) [])

/-- A near load: its data are in place before the slot's next issue. -/
def In.nearLoad (i : In) (base : Nat) (tgt : LoadTo) (els : List VEl) : Out :=
  let l : List El := els.map (fun e => ⟨base + e.va.toNat, e.lo, e.n, e.sg, e.rank, e.dest⟩)
  let bytes := (l.flatMap El.bytes).map Prod.fst
  if !i.ordered true then .hold i.base
  else match bytes.find? (fun b => i.base.badWords.contains (b / 8 * 8)) with
  | some b => .hold (i.base.consume i.core Cause.sramUncorrectable b)
  | none => match i.near base bytes with
    | none => .hold i.base
    | some d => .ok (d.deliver i.tid tgt.pv tgt.fmt (tgt.init ++ readEls i.mem.read l)) []

end Sys2Proof.Machine
end

