-- ==== Sys2Proof/Machine/MemoryOps.lean ====
section
/-!
DEFINITION. Loads, stores, prefetch and fences (spec 04 R80, R81; 14 R279 to R288), atomics (R289 to R293),
the multi-line set (R297) and memory tags (R299), as the core issues them.
-/
namespace Sys2Proof.Machine
open Sys2Proof

/-- ea = xa + off (R78). -/
def In.ea (i : In) (off : BitVec 32) : Word := i.a + off.signExtend 64

/-! ### Scalar loads and stores -/

/-- The registers a load names: a global one delivers later (R25). -/
def ldUses (sp : Space) (d a : Reg) : Uses :=
  if sp = .glob then { xs := [a], late := some d } else { xs := [a], xd := some d }

/-- A scalar load of any space. -/
def In.ld (i : In) (sp : Space) (sc : Scope) (acq : Bool) (major : Nat) (d : Reg) (w : Width) (s : Sign)
    (ea : Word) : Out :=
  let win := i.base.window i.tid i.t sp
  let el : VEl := ⟨ea, 0, w.bits, s == .sx, 0, .x d⟩
  match addrCheck sp win.2 [(ea, w.bytes, w.bytes)] with
  | some c => .trap c none
  | none =>
    if sp = .glob then i.load sc acq (w == .w) major 0 { px := some d } [el]
    else i.nearLoad win.1 {} [el]

/-- A scalar store of any space. -/
def In.st (i : In) (sp : Space) (sc : Scope) (rel : Bool) (major : Nat) (w : Width) (ea v : Word) : Out :=
  let win := i.base.window i.tid i.t sp
  match addrCheck sp win.2 [(ea, w.bytes, w.bytes)] with
  | some c => .trap c none
  | none =>
    if sp = .glob then i.store sc rel (w == .w) major 0 (vbytes ea w.bytes v.toNat)
    else i.nearStore win.1 (vbytes ea w.bytes v.toNat)

/-- LD (R80). -/
def execLd (o : LdOp) : State → Host.Outcome State Fault Refusal :=
  run (issueS false o.g (ldUses o.sp o.d o.a) (fun i => i.ld o.sp o.sc false 0x10 o.d o.w o.s (i.ea o.off)))
/-- ST (R81). -/
def execSt (o : StOp) : State → Host.Outcome State Fault Refusal :=
  run (issueS false o.g { xs := [o.a, o.d] } (fun i => i.st o.sp o.sc false 0x11 o.w (i.ea o.off) i.b))
/-- LDAQ (R280). -/
def execLdaq (o : LdaqOp) : State → Host.Outcome State Fault Refusal :=
  run (issueS false o.g (ldUses .glob o.d o.a) (fun i => i.ld .glob o.sc true 0x12 o.d o.w o.s (i.ea o.off)))
/-- STRL (R280). -/
def execStrl (o : StrlOp) : State → Host.Outcome State Fault Refusal :=
  run (issueS false o.g { xs := [o.a, o.d] } (fun i => i.st .glob o.sc true 0x13 o.w (i.ea o.off) i.b))

/-! ### Vector loads and stores -/

/-- Lanes of a format that the guard leaves active. -/
def In.active (i : In) (g : Guard) (ef : Fmt) : List Nat :=
  (List.range ef.count).filter (laneOn g i.t)

/-- Blocks that hold an active lane. -/
def In.blocks (i : In) (g : Guard) (ef : Fmt) : List Nat :=
  ((i.active g ef).map (· / 32)).eraseDups

/-- The codes packed below a byte in memory: FP6 (R169). -/
def packed6 (f : Fmt) : Bool := f = .e3m2 || f = .e2m3

/-- Where element `k` of a VLD or VST image stands (Table 14-3): its parts, as byte offset, bit, length and
bit within the element. -/
def imageParts (ef : Fmt) (k : Nat) : List (Nat × Nat × Nat × Nat) :=
  if ef = .sv4 then [(k / 2, 4 * (k % 2), 4, 0)]
  else if packed6 ef then
    let p := 6 * (k % 32)
    let b := 24 * (k / 32) + p / 8
    if p % 8 + 6 ≤ 8 then [(b, p % 8, 6, 0)] else [(b, p % 8, 8 - p % 8, 0), (b + 1, 0, p % 8 - 2, 8 - p % 8)]
  else [(k * (ef.bits / 8), 0, ef.bits, 0)]

/-- Alignment of ea (Table 14-3). -/
def imageAlign (ef : Fmt) : Nat := if ef = .sv4 then 16 else if packed6 ef then 8 else ef.bits / 8

/-- Addresses of the lanes of an image, for the checks of R78. -/
def imageChecks (ef : Fmt) (ea : Word) (lanes : List Nat) : List (Word × Nat × Nat) :=
  (if lanes = [] then [] else [(ea, 0, imageAlign ef)])
    ++ lanes.flatMap (fun k => (imageParts ef k).map (fun p => (ea + wd64 p.1, (p.2.1 + p.2.2.1 + 7) / 8, 1)))

/-- Scale bytes lie apart at xb (Table 14-3), unless b names x0. -/
def scaleAt (ef : Fmt) (b : Reg) : Bool := ef.hasScales && b.val != 0

/-- VLD (R284). -/
def In.vld (i : In) (o : VMemOp) : Out :=
  let win := i.base.window i.tid i.t o.sp
  let ea := i.ea o.off
  let lanes := i.active o.g o.ef
  let blocks := if o.ef.hasScales then i.blocks o.g o.ef else []
  let far := if scaleAt o.ef o.b then blocks else []
  let els : List VEl := lanes.flatMap (fun k => (imageParts o.ef k).map (fun p =>
      ⟨ea + wd64 p.1, p.2.1, p.2.2.1, false, 2 * k, .lane o.v k o.ef.bits p.2.2.2⟩))
    ++ far.map (fun j => ⟨i.b + wd64 j, 0, 8, false, 64 * j + 1, .scale o.v j⟩)
  let unit := (if scaleAt o.ef o.b then [] else blocks).map (fun j =>
    (Dest.scale o.v j, bits (unitSx o.ef) (8 * j) 8))
  match addrCheck o.sp win.2 (imageChecks o.ef ea lanes ++ far.map (fun j => (i.b + wd64 j, 1, 1))) with
  | some c => .trap c none
  | none =>
    let tgt : LoadTo := { pv := some o.v, fmt := o.ef, init := unit }
    if o.sp = .glob then i.load o.sc o.ord (o.ef == .f32) 0x14 0 tgt els else i.nearLoad win.1 tgt els

/-- Elements at addresses of their own (R285, R286). -/
def In.vldAt (i : In) (g : Guard) (v : VR) (ef : Fmt) (sp : Space) (sc : Scope) (ord : Bool) (minor : Nat)
    (addr : Nat → Word) : Out :=
  let win := i.base.window i.tid i.t sp
  let lanes := i.active g ef
  let els : List VEl := lanes.map (fun k => ⟨addr k, 0, ef.bits, false, 2 * k, .lane v k ef.bits 0⟩)
  match addrCheck sp win.2 (lanes.map (fun k => (addr k, ef.bits / 8, ef.bits / 8))) with
  | some c => .trap c none
  | none =>
    let tgt : LoadTo := { pv := some v, fmt := ef }
    if sp = .glob then i.load sc ord (ef == .f32) 0x14 minor tgt els else i.nearLoad win.1 tgt els

/-- Index `k` of an index group (R286): a signed byte offset. -/
def In.index (i : In) (b : VR) (ef : Fmt) (k : Nat) : Word :=
  (BitVec.ofNat 32 (i.t.regs.gel b (idxRatio ef) 32 k).1).signExtend 64

/-- The registers of an index group. -/
def idxGroup (b : VR) (ef : Fmt) : List VR := grpAll b (idxRatio ef)

/-- VLD. -/
def execVld (o : VMemOp) : State → Host.Outcome State Fault Refusal :=
  run (issueV o.g { xs := if scaleAt o.ef o.b then [o.a, o.b] else [o.a], vd := [o.v] }
    (tagPre o.g o.ef.count [] [o.v] o.ef) (fun i => i.vld o))
/-- VLDS: element i at ea + i × xb. -/
def execVlds (o : VMemOp) : State → Host.Outcome State Fault Refusal :=
  run (issueV o.g { xs := [o.a, o.b], vd := [o.v] } (tagPre o.g o.ef.count [] [o.v] o.ef) (fun i =>
    i.vldAt o.g o.v o.ef o.sp o.sc o.ord 1 (fun k => i.ea o.off + wd64 k * i.b)))
/-- VGTH: element i at ea + index i. -/
def execVgth (o : VIdxOp) : State → Host.Outcome State Fault Refusal :=
  run (issueV o.g { xs := [o.a], vs := idxGroup o.b o.ef, vd := [o.v] }
    (tagPre o.g o.ef.count ((idxGroup o.b o.ef).map (·, Fmt.s32)) [o.v] o.ef) (fun i =>
    i.vldAt o.g o.v o.ef o.sp o.sc o.ord 2 (fun k => i.ea o.off + i.index o.b o.ef k)))

/-- Bytes of part of an element that is stored, under its enables (R173). -/
def partBytes (va : Word) (p : Nat × Nat × Nat × Nat) (v : Nat) : List VB :=
  let m := (2 ^ p.2.2.1 - 1) <<< p.2.1
  let x := (v >>> p.2.2.2) <<< p.2.1
  (List.range ((p.2.1 + p.2.2.1 + 7) / 8)).map (fun k =>
    ⟨va + wd64 (p.1 + k), BitVec.ofNat 8 (m >>> (8 * k)), BitVec.ofNat 8 (x >>> (8 * k))⟩)

/-- Where the parts of elements stand that lie in two lines. -/
def splitAt (ef : Fmt) (ea : Word) (lanes : List Nat) : List Word :=
  lanes.flatMap (fun k => match imageParts ef k with
    | [p, q] =>
      if (ea + wd64 p.1) &&& ~~~(127 : Word) = (ea + wd64 q.1) &&& ~~~(127 : Word) then [] else [ea + wd64 p.1, ea + wd64 q.1]
    | _ => [])

/-- VST (R284). -/
def In.vst (i : In) (o : VMemOp) : Out :=
  let win := i.base.window i.tid i.t o.sp
  let ea := i.ea o.off
  let lanes := i.active o.g o.ef
  let far := if scaleAt o.ef o.b then i.blocks o.g o.ef else []
  let r := i.t.regs.rv o.v
  let bs := lanes.flatMap (fun k => (imageParts o.ef k).flatMap (fun p => partBytes ea p (r.el o.ef.bits k)))
    ++ far.map (fun j => ⟨i.b + wd64 j, 0xFF, BitVec.ofNat 8 (r.sb j)⟩)
  match addrCheck o.sp win.2 (imageChecks o.ef ea lanes ++ far.map (fun j => (i.b + wd64 j, 1, 1))) with
  | some c => .trap c none
  | none =>
    if o.sp = .glob then i.store o.sc o.ord (o.ef == .f32) 0x15 0 bs (splitAt o.ef ea lanes) else i.nearStore win.1 bs

/-- VST. -/
def execVst (o : VMemOp) : State → Host.Outcome State Fault Refusal :=
  run (issueV o.g { xs := if scaleAt o.ef o.b then [o.a, o.b] else [o.a], vs := [o.v] }
    (tagPre o.g o.ef.count [(o.v, o.ef)] [] o.ef) (fun i => i.vst o))
/-- VSCT: elements of one address in ascending lane order (R287). -/
def execVsct (o : VIdxOp) : State → Host.Outcome State Fault Refusal :=
  run (issueV o.g { xs := [o.a], vs := o.v :: idxGroup o.b o.ef }
    (tagPre o.g o.ef.count ((o.v, o.ef) :: (idxGroup o.b o.ef).map (·, Fmt.s32)) [] o.ef) (fun i =>
    let win := i.base.window i.tid i.t o.sp
    let lanes := i.active o.g o.ef
    let addr := fun k => i.ea o.off + i.index o.b o.ef k
    let bs := lanes.flatMap (fun k => vbytes (addr k) (o.ef.bits / 8) ((i.t.regs.rv o.v).el o.ef.bits k))
    match addrCheck o.sp win.2 (lanes.map (fun k => (addr k, o.ef.bits / 8, o.ef.bits / 8))) with
    | some c => .trap c none
    | none =>
      if o.sp = .glob then i.store o.sc o.ord (o.ef == .f32) 0x15 1 bs else i.nearStore win.1 bs))

/-! ### One place -/

/-- The piece of one place. -/
def onePiece (va leaf : Word) (p : Nat) : PKey :=
  ⟨va &&& ~~~(127 : Word), lineOf p, leafTag leaf && keyAp p ≤ 0xC0, leafHeat leaf⟩

/-- Check and translate one global address (R277), then go on with its leaf and place. -/
def In.one (i : In) (k : AccK) (va : Word) (size align : Nat) (f : Word → Nat → Out) : Out :=
  match addrCheck .glob 0 [(va, size, align)] with
  | some c => .trap c none
  | none =>
    match i.spot k va with
    | .ask d => .hold d
    | .hole p => .hole p
    | .found l p => f l p

/-- Room for one operation that returns a value from a place of memory. -/
def In.canLoad (i : In) (line : Nat) : Bool := i.room true 1 && i.missRoom [line]

/-- A load of one place that is served at its home and takes nothing from the buffer (BLD, TAGLD, MCSLD):
it is held while an entry overlaps it. -/
def In.homeLoad (i : In) (k : PKey) (a n : Nat) (d : Reg) (kp : Option KP) (major minor : Nat) (op : AccOp) : Out :=
  if !i.ordered true ∨ !i.canLoad k.line ∨ (i.base.core i.core).sb.any (fun e => e.op.overlaps a n) then .hold i.base
  else
    let p := i.dev.openOp i.tid 1 true (some d) none kp
    .ok (i.samples [(k, [()])] ((p.1.setOp p.2 .none []).send
      (.acc (i.acc op k p.2 d .sys false false major minor .travelling)))) []

/-! ### Atomics -/

/-- ATOM (R289, R290): a store-buffer entry that returns a value. -/
def execAtom (o : AtomInstr) : State → Host.Outcome State Fault Refusal :=
  run (issueS false o.g { xs := if o.op = .cas then [o.a, o.b, o.c] else [o.a, o.b], late := some o.d } (fun i =>
    let n := if o.dw then 8 else 4
    i.one .atomic (i.ea o.off) n n (fun l p =>
      let k := onePiece (i.ea o.off) l p
      let rel := i.releases (o.od == .rel || o.od == .acr) o.sc
      if !i.ordered false ∨ !i.room true 1 ∨ !i.sbRoom 1
        ∨ 48 ≤ i.base.missUsed i.core then .hold i.base
      else
        let q := i.dev.openOp i.tid 1 true (some o.d) none none
        let d := q.1.holdFor i.tid q.2 (o.od == .acq || o.od == .acr)
        .ok (i.samples [(k, [()])] (d.pushSb i.core
          [i.acc (.atom o.op p n i.b i.c o.d) k q.2 o.d o.sc false rel 0x16 o.op.code .travelling])) [])))

/-- ATOMX (R293). -/
def execAtomx (o : AtomxOp) : State → Host.Outcome State Fault Refusal :=
  run (issueS false o.g { xs := [o.a, o.b] } (fun i =>
    i.one .atomic i.a 4 4 (fun l p =>
      if !i.ordered false then .hold i.base
      else
        let k := onePiece i.a l p
        { i with dev := i.samples [(k, [()])] i.dev }.post [(k, .atomx p (i.b.truncate 32))] o.sc o.rel true 0x17 0 [])))

/-! ### Fences and prefetch -/

/-- FENCE (R281): an acquiring one makes later accesses wait for the loads so far; a releasing one makes
later stores wait for the stores so far, and `.acr` later loads too. Towards the agents of its own core a store
is performed as soon as it is in the buffer, so at `.slot` and `.core` no store is waited for (R268, R269). -/
def In.fence (i : In) (od : FenceOd) (sc : Scope) : Out :=
  i.thread (fun t => { t with
    acq := if od = .rel then t.acq else t.acq ++ i.base.loadOps i.tid
    fenceRel := if od = .acq ∨ nearOnly sc then t.fenceRel else i.base.nextOp
    fenceAcr := if od = .acr ∧ !nearOnly sc then i.base.nextOp else t.fenceAcr })
/-- FENCE. -/
def execFence (o : FenceOp) : State → Host.Outcome State Fault Refusal :=
  run (issueS false .always {} (fun i => i.fence o.od o.sc))
/-- FENCE with a guard. -/
def execFenceGuarded (o : FenceGOp) : State → Host.Outcome State Fault Refusal :=
  run (issueS false o.g {} (fun i => i.fence o.od o.sc))

/-- PREF (R282): asks for the line as a fill of the L1, or for its home slice only. Whatever stands in its way
drops it. -/
def execPref (o : PrefOp) : State → Host.Outcome State Fault Refusal :=
  run (issueS false o.g { xs := [o.a] } (fun i =>
    let ea := i.ea o.off
    if !formOk ea then .ok i.dev []
    else match i.base.translate i.core i.t.ctx ea .read with
    | none => .ok i.dev []
    | some (l, p) =>
      if !keyOk p ∨ (!o.grot ∧ ((i.base.core i.core).copy (lineOf p) i.drip).isSome) ∨ !i.missRoom [lineOf p] then
        .ok i.dev []
      else .ok (i.dev.send (.acc (i.acc (.pref o.grot) (onePiece ea l p) i.base.nextOp 0 .core false false 0x1B 0
        .travelling))) []))

/-! ### Tags (R299) -/

/-- TAGST. -/
def execTagst (o : AB) : State → Host.Outcome State Fault Refusal :=
  run (issueS false o.g { xs := [o.a, o.b] } (fun i =>
    i.one .write i.a 32 32 (fun l p =>
      if !i.ordered false then .hold i.base
      else i.post [({ onePiece i.a l p with tag := false }, .tagst p (i.b.truncate 4))] .sys false false 0x2E 0 [])))
/-- TAGLD. -/
def execTagld (o : RR) : State → Host.Outcome State Fault Refusal :=
  run (issueS false o.g { xs := [o.a], late := some o.d } (fun i =>
    i.one .read i.a 1 1 (fun l p =>
      let g := p / 32 * 32
      if (i.base.core i.core).sb.any (fun e => match e.op with
          | .tagst h _ => h == g
          | _ => false) then .hold i.base
      else i.homeLoad { onePiece i.a l p with tag := false } g 0 o.d none 0x2E 1 (.tagld g i.a o.d))))

/-! ### The multi-line set (R297) -/

/-- MCSLD: a host line, at most four of them. -/
def execMcsld (o : RR) : State → Host.Outcome State Fault Refusal :=
  run (issueS true o.g { xs := [o.a], late := some o.d } (fun i =>
    i.one .read i.a 8 8 (fun l p =>
      let line := lineOf p
      if leafAper l ≠ 0xFE ∨ (!i.t.mcsLines.contains line ∧ 4 ≤ i.t.mcsLines.length) then
        .trap Cause.operandRange none
      else
        { i with dev := i.dev.updThr i.tid (fun t => { t with
            mcsLines := if t.mcsLines.contains line then t.mcsLines else t.mcsLines ++ [line] }) }.homeLoad
          (onePiece i.a l p) p 8 o.d none 0x2D 0 (.mcsld p o.d))))

/-- Stage a dword for a line of the set, once the acquires before it have their values (R280, R281); `f` goes
on with the staged thread. -/
def In.stage (i : In) (f : In → Out) : Out :=
  i.one .write i.a 8 8 (fun _ p =>
    if !i.ordered false then .hold i.base
    else if !i.t.mcsLines.contains (lineOf p)
      ∨ (!i.t.mcsStaged.any (fun q => q.1 == p) ∧ 16 ≤ i.t.mcsStaged.length) then .trap Cause.operandRange none
    else f { i with dev := i.dev.updThr i.tid (fun t => { t with mcsStaged := put p i.b t.mcsStaged }) })

/-- MCSST to x0: stage. -/
def execMcsst (o : AB) : State → Host.Outcome State Fault Refusal :=
  run (issueS true o.g { xs := [o.a, o.b] } (fun i => i.stage (fun j => .ok j.dev [])))
/-- MCSST with a destination: stage and commit; a commit of an empty set asks nothing of the set's slices and
its reply says so (R298). -/
def execMcsstCommit (o : RRRx) : State → Host.Outcome State Fault Refusal :=
  run (issueS true o.g { xs := [o.a, o.b], late := some o.d } (fun i =>
    if !i.ordered false then .hold i.base
    else if i.t.mcsLines = [] then i.request o.d .mcs else i.stage (fun j => j.request o.d .mcs)))

end Sys2Proof.Machine
end

