-- ==== Sys2Proof/Machine/Homes.lean ====
section
/-!
DEFINITION. Accesses at their homes (spec 06 R112 to R115, R120 to R123; 13 R260 to R267; 14 R278, R290 to
R293; 12 R249, R275; 18 R361 to R364): arrival and judgement, consultations of a lease's root, service,
performance, and the replies that reach the slot.
-/
namespace Sys2Proof.Machine
open Sys2Proof

/-! ### What stands at a place -/

/-- Byte `k` of a word. -/
def byteOf (v k : Nat) : Byte := BitVec.ofNat 8 (v >>> (8 * k))

/-- Units of leave granted, and requests deferred (Table 18-2, R376). -/
def Dev.leaveWord (d : Dev) : Nat :=
  d.leaveHeld.foldl (fun n r => n + r.units) 0 * 65536 + d.leaveQ.length

/-- The time root: the lowest-numbered live module (R370). -/
def Dev.timeRoot (d : Dev) : Nat := d.members.foldl min (d.members.headD d.modNo)

/-- The control slot's words (Table 18-3): KEEPALIVE reads as 0. -/
def Dev.controlWord (d : Dev) (drip : Nat) (l : Lease) (k : Nat) : Nat :=
  match l.payload with
  | .anchor _ _ period =>
    if k = 1 then b2n (d.lapsed drip l) * 2 ^ 63 + l.expiry % 2 ^ 56
    else if k = 2 then period % 65536
    else 0
  | _ => 0

/-- The I/O die's registers below the group table (Table 18-2). -/
def Dev.ioWord (d : Dev) (k : Nat) : Nat :=
  if k = 1 then min d.href (2 ^ 64 - 1) else if k = 2 then d.leaveWord else if k = 3 then d.timeRoot else 0

/-- A place whose word the module makes up: its word. -/
def Dev.madeWord (d : Dev) (drip a : Nat) : Option Nat :=
  if keyAp a = 0 ∧ isIo (keyPhys a) then
    if keyPhys a - ioBase < 0x1000 then some (d.ioWord ((keyPhys a - ioBase) / 8)) else none
  else match d.windowOf a with
  | some l => match l.payload with
    | .anchor _ w _ => if a - w < 128 then some (d.controlWord drip l ((a - w) / 8)) else none
    | _ => none
  | none => none

/-- A byte as its home reads it. -/
def Dev.homeByte (d : Dev) (drip : Nat) (mem : Memory) (a : Nat) : Byte :=
  match d.madeWord drip a with
  | some v => byteOf v (a % 8)
  | none => mem.read a

/-- The bits of a byte that a store can set: of a region status word bits [1:0] (Table 17-6). -/
def rwBits (a : Nat) : Byte :=
  if keyAp a ≤ 0xC0 ∧ isStatus (keyPhys a) then (if a % 8 = 0 then 3 else 0) else 0xFF

/-- Bytes that a store changes at the home: read-only words discard it, and read-only bits read as zero. -/
def Dev.homeWrite (d : Dev) (drip : Nat) (mem : Memory) (l : List MByte) : List (Nat × Byte) :=
  ((l.map MByte.addr).eraseDups.filter (fun a => (d.madeWord drip a).isNone)).map (fun a =>
    let p := mergeBytes a l
    (a, ((mem.read a &&& ~~~p.1) ||| (p.2 &&& p.1)) &&& rwBits a))

/-! ### Judgement (R97, R107, R112 to R114) -/

/-- What a home finds of a guarding lease. -/
inductive Verdict where
  | live | lapsed
  /-- The home must consult the root's. -/
  | ask

/-- A lease that guards an operation, judged at a home (R112): by its record and root here, or by the
copy; `live` names leases that a consultation of this operation has found live. -/
def Dev.verdict (d : Dev) (drip : Nat) (home : AgentId) (live : List (AgentId × Nat × Nat)) (l : Lease) : Verdict :=
  if live.contains (l.agent, l.index, l.gen) then .live
  else
    let t := d.clock drip home.mod
    match d.root l with
    | none => .lapsed
    | some r =>
      if r.agent = home then (if d.lapsedAt l t then .lapsed else .live)
      else match d.guards.find? (fun c => c.home = home && c.agent = l.agent && c.index = l.index && c.gen = l.gen) with
      | some c =>
        match c.expiry with
        | none => .lapsed
        | some e => if t < e then .live else .ask
      | none => .ask

/-- What judging an arriving access comes to. -/
inductive Judged where
  | accept
  | refuse (cause rank : Nat) (ea : Word)
  | consult (l : Lease)

/-- The line is exact. -/
def Dev.isExact (d : Dev) (line : Nat) : Bool := d.exactLines.contains line

/-- An access that R292 and R293 do not allow. -/
def Dev.exactFault (d : Dev) (a : Acc) : Bool :=
  match a.op with
  | .psend .. => false
  | .atomx .. => !d.isExact a.line
  | .pref _ => d.isExact a.line
  | _ => d.isExact a.line && !a.exact

/-- The line's bundle metadata. -/
def Dev.bline (d : Dev) (line : Nat) : Option BLine := d.blines.find? (fun b => b.line = line)

/-- A plain store or atomic meets a bundle whose seal the home does not know (R275). -/
def Dev.bundleFault (d : Dev) (a : Acc) : Bool :=
  match a.op with
  | .store _ | .atom .. | .atomx .. => match d.bline a.line with
    | some b => b.nb.isSome && b.known.isNone
    | none => false
  | _ => false

/-- The module whose lines an aperture holds is cut off (R369). -/
def Dev.cutOff (d : Dev) (line : Nat) : Bool :=
  1 ≤ keyAp line && keyAp line ≤ 0xC0 && d.cut.any (fun p => p.1 + 1 = keyAp line)

/-- The first part of a piece, by rank, and its address: what a refusal of the whole piece names (R278). -/
def Acc.first (a : Acc) : Nat × Word :=
  match a.op with
  | .load els => match els with
    | e :: _ => (els.foldl (fun n x => min n x.rank) e.rank, a.va + wd64 (e.addr - a.line))
    | [] => (0, a.va)
  | .bld p .. | .mcsld p _ | .atom _ p _ _ _ _ => (0, a.va + wd64 (p - a.line))
  | .tagld p v _ => (0, if p = 0 then a.va else v)
  | _ => (0, a.va)

/-- Judge an access that names no handle, at its commit point. -/
def Dev.judgeAcc (d : Dev) (drip : Nat) (home : AgentId) (a : Acc) : Judged :=
  let no := fun c => Judged.refuse c a.first.1 a.first.2
  if d.cutOff a.line then no Cause.pathDown
  else if d.outOfUse home then no Cause.leaseLapsed
  else
    let rest := match d.tagFault a false with
      | some p => Judged.refuse Cause.tagMismatch p.1 p.2
      | none =>
        if d.exactFault a then no Cause.exactAccess
        else if d.bundleFault a then no Cause.conflict
        else .accept
    match d.rangeOf a.line with
    | none => rest
    | some l =>
      if l.holder ≠ some a.src.ctx then no Cause.genMismatch
      else match d.verdict drip home a.live l with
      | .lapsed => no Cause.leaseLapsed
      | .ask => .consult l
      | .live => rest

/-- The home that judges and performs an access: of an atomic on a peer aperture the peer's own slice (R262,
R291). -/
def Dev.accHome (d : Dev) (a : Acc) : AgentId :=
  match a.op with
  | .atom .. => d.domHome (coreDie a.src.core) a.line
  | _ => d.homeOf (coreDie a.src.core) a.line

/-- An access whose line is homed on its core's die (R266). A PSEND names no line of its own. -/
def Dev.nearAcc (d : Dev) (a : Acc) : Bool :=
  match a.op with
  | .psend .. => false
  | _ => (d.accHome a).mod == d.modNo && (d.accHome a).die == coreDie a.src.core

/-- The die whose core first asks for a peer, host or pool line caches it (R262). -/
def Dev.touch (d : Dev) (core line : Nat) : Dev :=
  if keyAp line = 0 ∨ (d.foreign.any (fun p => p.1 = line)) then d
  else { d with foreign := (line, coreDie core) :: d.foreign }

/-! ### Refusals and acceptances -/

/-- The journal entry of a refused posted access (R98, R278): the handle it named, its first byte's address
or its offset, and its data or their length. Bytes that are not contiguous stand in ascending address order, the lowest
first. DESIGN CHOICE, unsafe (log 104). -/
def Acc.entry (a : Acc) (cause : Nat) (free : Word) : JEntry :=
  let mk := fun w1 w2 w3 => (⟨true, false, 0, a.major, a.minor, cause, w1, w2, w3, 0⟩ : JEntry)
  let span := fun (l : List MByte) =>
    let as := (l.map MByte.addr).eraseDups
    let lo := as.foldl min (as.headD a.line)
    let sorted := as.mergeSort
    (a.va + wd64 (lo - a.line),
      if as.length ≤ 8 then wd64 (sorted.foldr (fun x n => (mergeBytes x l).2.toNat + 256 * n) 0) else wd64 as.length)
  match a.op with
  | .store l => mk free (span l).1 (span l).2
  | .bst h l => mk h (span l).1 (span l).2
  | .atomx p v => mk free (a.va + wd64 (p - a.line)) (v.zeroExtend 64)
  | .tagst p t => mk free (a.va + wd64 (p - a.line)) (t.zeroExtend 64)
  | .psend h off v => mk h off v
  | _ => mk free a.va 0

/-- A load whose data are held at its core (R261). -/
def AccSt.isL1 : AccSt → Bool
  | .l1 .. => true
  | _ => false

/-- The core's oldest load whose value has not been taken. -/
def Dev.oldestLoad (d : Dev) (core : Nat) : Option (Nat × Acc) :=
  (d.msgs.filterMap (fun x => match x.kind with
    | .acc a => if a.op.isLoad && a.src.core == core then some (x.id, a) else none
    | _ => none)).foldl (fun r p => match r with
      | some q => if q.1 < p.1 then some q else some p
      | none => some p) none

/-- A load has been served: held hits that no older load stands before any longer are judged in this drip. A copy
that is live gives its data; for one that has run out the load goes to its home, once it has a miss register
(R261). At most `n` in a row. -/
def Dev.settleHits (d : Dev) (drip core : Nat) : Nat → Dev
  | 0 => d
  | n + 1 =>
    match d.oldestLoad core with
    | some (m, a) =>
      match a.st with
      | .l1 b e =>
        if drip < e then ((d.drop m).coreData drip a (versionByte b a.line)).settleHits drip core n
        else if (d.missLines core).contains a.line || d.missUsed core < 48 then
          d.reMsg m (.acc { a with st := .travelling })
        else d
      | _ => d
    | none => d

/-- After a load of a core has been served or refused. -/
def Dev.afterLoad (d : Dev) (drip core : Nat) : Dev := d.settleHits drip core d.msgs.length

/-- Refuse an access (R115): an error reply, or a refusal acknowledgement. A dropped prefetch says
nothing. -/
def Dev.refuseAcc (d : Dev) (drip m : Nat) (a : Acc) (cause rank : Nat) (ea : Word) : Dev :=
  let d := d.drop m
  match a.op with
  | .pref _ => d
  | .atom .. => d.send (.error a.src cause ea rank none)
  | .load _ | .bld .. | .tagld .. | .mcsld .. =>
    (d.send (.error a.src cause ea rank (some a.line))).afterLoad drip a.src.core
  | _ => d.tickFresh.send (.refused a.src (a.entry cause (Config.freeWord d.fresh)))

/-- Put a message behind all others of its home: it has arrived. -/
def Dev.requeue (d : Dev) (m : Nat) (k : MsgKind) : Dev :=
  { d with msgs := d.msgs.filter (fun x => x.id != m) ++ [⟨m, k⟩] }

/-- Accept an access: a posted one is acknowledged at once (R123). One that has waited for a consultation keeps
its place and its drip of arrival (R112). -/
def Dev.acceptAcc (d : Dev) (drip m : Nat) (a : Acc) : Dev :=
  let d := if a.st = .waiting then d.reMsg m (.acc { a with st := .accepted })
    else d.requeue m (.acc { a with st := .accepted, at' := drip })
  match a.op with
  | .store _ | .atomx .. | .tagst .. => d.send (.ack a.src)
  | _ => d

/-- Start a consultation of a lease's root for a waiting access (R112). -/
def Dev.consultFor (d : Dev) (drip m : Nat) (home : AgentId) (a : Acc) (l : Lease) : Dev :=
  let d := if a.st = .waiting then d.reMsg m (.acc a) else d.requeue m (.acc { a with st := .waiting, at' := drip })
  d.send (.consult m home l.agent l.index l.gen
    (d.clock (if a.st = .waiting then a.at' else drip) home.mod))

/-- Ask a bundle's record for its state, unless that is under way (R249, R275). -/
def Dev.askBundle (d : Dev) (home : AgentId) (line : Nat) : Dev :=
  match d.bline line with
  | some b =>
    match b.nb with
    | some (ag, ix, g) =>
      if b.asked ∨ b.known.isSome then d
      else
        let l := d.blines.map (fun (x : BLine) => if x.line = line then { x with asked := true } else x)
        { d with blines := l }.send (.bundleAsk home ag ix g)
    | none => d
  | none => d

/-- An access that names no handle arrives at its home and is judged (R113). -/
def Dev.arriveAcc (d : Dev) (drip m : Nat) (a : Acc) : Dev :=
  let home := d.accHome a
  match d.judgeAcc drip home a with
  | .accept => d.acceptAcc drip m a
  | .refuse c r ea => (if c = Cause.conflict then d.askBundle home a.line else d).refuseAcc drip m a c r ea
  | .consult l => d.consultFor drip m home a l

/-- What must have arrived before an access of a core does: its older accesses to the line; and before a store
or atomic, the loads that stand before it and, on the core's die, its older stores. So the stores and loads of a
die take one total order (R266), and no wait at a home is for what has yet to arrive.
DEDUCED, unsafe (log 92). -/
def Dev.inOrder (d : Dev) (m : Nat) (a : Acc) : Bool :=
  !d.msgs.any (fun x => x.id != m && match x.kind with
    | .acc b => b.src.core == a.src.core
      && ((x.id < m && b.line == a.line && (b.st == .travelling || b.st == .waiting))
        || (a.op.buffered && b.op.isLoad && b.src.op < a.after' && (b.st == .travelling || b.st.isL1))
        || (a.op.buffered && b.op.buffered && x.id < m && b.st == .travelling && d.nearAcc a && d.nearAcc b))
    | _ => false)

/-- COMMIT_POINT (R113). -/
def execCommitPoint (m : Nat) : State → Host.Outcome State Fault Refusal :=
  run (fun drip _ d => match d.msg m with
    | some (.acc a) =>
      match a.op with
      | .bst .. | .psend .. => .eff d []
      | _ => if a.st == .travelling && d.inOrder m a then .eff ((d.touch a.src.core a.line).arriveAcc drip m a) [] else .eff d []
    | _ => .eff d [])

/-! ### Consultations (R112) -/

/-- ROOT_CONSULTATION: the root's home answers lapsed(root, t) and the current expiry. -/
def execRootConsultation (m : Nat) : State → Host.Outcome State Fault Refusal :=
  run (fun _ _ d => match d.msg m with
    | some (.consult q home ag ix g t) =>
      let d := d.drop m
      match d.lease ag ix with
      | some l =>
        if l.gen = g then .eff (d.send (.answer q home ag ix g (d.lapsedBy l t) (d.expiry l))) []
        else .eff (d.send (.answer q home ag ix g true 0)) []
      | none => .eff (d.send (.answer q home ag ix g true 0)) []
    | _ => .eff d [])

/-- Keep a copy (R112): a lapse that has been learnt stays. -/
def Dev.setGuard (d : Dev) (c : GuardCopy) : Dev :=
  let same := fun (x : GuardCopy) => x.home = c.home && x.agent = c.agent && x.index = c.index && x.gen = c.gen
  match d.guards.find? same with
  | none => { d with guards := c :: d.guards }
  | some x => if x.expiry.isNone then d else { d with guards := c :: d.guards.filter (fun x => !same x) }

/-- GUARD_COPY_UPDATE: a renewal reaches a home that holds a copy. -/
def execGuardCopyUpdate (m : Nat) : State → Host.Outcome State Fault Refusal :=
  run (fun _ _ d => match d.msg m with
    | some (.guard c) =>
      let d := d.drop m
      .eff (if d.guards.any (fun x => x.home = c.home && x.agent = c.agent && x.index = c.index && x.gen = c.gen)
        then d.setGuard c else d) []
    | _ => .eff d [])

/-- Tell every home with a copy of a lease under this root its new expiry (R112). -/
def Dev.spreadExpiry (d : Dev) (r : Lease) (expiry : Nat) : Dev :=
  (d.guards.filter (fun c => match d.lease c.agent c.index with
    | some l => l.gen = c.gen && match d.root l with
      | some q => q.agent = r.agent && q.index = r.index
      | none => false
    | none => false)).foldl (fun d c => d.send (.guard { c with expiry := some expiry })) d

/-! ### Bundled lines: versions (R249, R275) -/

/-- Which version a load takes. -/
inductive Version where
  | current | old (b : BitVec 1024) | fracture (record : AgentId × Nat × Nat) | unknown

/-- The old version is still held at drip `t` (R248). -/
def BLine.held (b : BLine) (t : Nat) : Option (BitVec 1024 × Nat) :=
  match b.old with
  | some (o, oc, rx) => if rx.all (fun r => t < r) then some (o, oc) else none
  | none => none

/-- R249's choice under view `v` at drip `t`. -/
def BLine.version (b : BLine) (t v : Nat) : Version :=
  match b.nb with
  | none => .current
  | some r =>
    match b.known with
    | none => .unknown
    | some c =>
      if c ≤ v then .current
      else match b.held t with
      | some (o, oc) => if oc ≤ v then .old o else .fracture r
      | none => .fracture r

/-- The version of a line for a view. -/
def Dev.version (d : Dev) (line t v : Nat) : Version :=
  match d.bline line with
  | some b => b.version t v
  | none => .current

/-- A byte as a unit of the module or an engine reads it in drip `drip`: of the version that a plain load would
take (R249). -/
def Dev.unitByte (d : Dev) (drip : Nat) (mem : Memory) (a : Nat) : Byte :=
  match d.version (lineOf a) drip drip with
  | .old b => BitVec.ofNat 8 (bits b (8 * (a % 128)) 8)
  | _ => d.homeByte drip mem a

/-- No read lease is granted on the line (R275). -/
def Dev.noLease (d : Dev) (line t : Nat) : Bool :=
  match d.bline line with
  | some b => (b.nb.isSome && b.known.isNone) || (b.held t).isSome
  | none => false

/-! ### Exact elements (R188, R292) -/

/-- The exact form of an element. -/
def Dev.exactEl (d : Dev) (a : Nat) : BitVec 318 × BitVec 2 := look (0, 0) a d.exactEls

/-- The value of a finite FP32 number over 2^-149, and the state it sets. -/
def exactOf (v : Nat) : BitVec 318 × BitVec 2 :=
  match Fp.f32.val v with
  | .fin neg m e =>
    let n := m * 2 ^ (e + 149).toNat
    (if neg then -(BitVec.ofNat 318 n) else BitVec.ofNat 318 n, 0)
  | .inf neg => (0, if neg then 2 else 1)
  | .nan _ => (0, 3)

/-- Reading an element. -/
def exactRead (p : BitVec 318 × BitVec 2) : Nat × Flags :=
  if p.2 = 3 then (0x7FC00000, flNV)
  else if p.2 = 1 then (0x7F800000, 0)
  else if p.2 = 2 then (0xFF800000, 0)
  else if p.1 = 0 then (0, 0)
  else Fp.f32.roundFin RM.rne false (p.1.toInt < 0) p.1.toInt.natAbs (-149)

/-- Stores into exact elements: each stored word sets its element (R292). -/
def exactSet (l : List MByte) (els : List (Nat × BitVec 318 × BitVec 2)) : List (Nat × BitVec 318 × BitVec 2) :=
  ((l.map (fun b => b.addr / 4 * 4)).eraseDups).foldl (fun e a =>
    put a (exactOf ((List.range 4).foldr (fun k n => (mergeBytes (a + k) l).2.toNat + 256 * n) 0)) e) els

/-! ### Errors in DRAM (R264, R357) -/

/-- The 64-byte sector of a place. -/
def sectorOf (a : Nat) : Nat := a / 64 * 64

/-- Count corrections or losses at a line's slice (Table 13-1). -/
def Dev.count (d : Dev) (a : Nat) (corr : Bool) : Dev :=
  let h := d.homeOf 0 a
  let x := d.die h.die
  let k := h.unit % 32
  have hk : k < 32 := Nat.mod_lt _ (by decide)
  d.setDie h.die (if corr then { x with corr := x.corr.set k (min (x.corr[k] + 1) 0xFFFF) }
    else { x with uncr := x.uncr.set k (min (x.uncr[k] + 1) 0xFFFF) })

/-- The status word of a place's region gets a bit (R340). -/
def statusSet (mem : Memory) (a bitNo : Nat) : Nat × Byte :=
  let p := keyPhys a
  let w := apKey (keyAp a) (p / 2 ^ 37 * 2 ^ 37 + statusBase + 8 * (p % 2 ^ 37 / 2 ^ 23))
  (w, mem.read w ||| BitVec.ofNat 8 (2 ^ bitNo))

/-- Failing sectors of the 512-byte group of a sector. -/
def Dev.failing (d : Dev) (s : Nat) : List Nat := d.badSectors.filter (fun x => x / 512 = s / 512)

/-- Read a line's sectors from DRAM: a sector that fails alone in its group of 8 is rebuilt; where more than one
fails, all the failing ones of the group are poisoned, which sets their region's POIS and enters records in the
fault log (R264). Answers the writes. -/
def Dev.scrub (d : Dev) (mem : Memory) (line : Nat) : Dev × List (Nat × Byte) :=
  let bad := [sectorOf line, sectorOf line + 64].filter d.badSectors.contains
  if bad = [] then (d, [])
  else
    let lost := (bad.flatMap (fun s => if 1 < (d.failing s).length then d.failing s else [])).eraseDups
    let fixed := bad.filter (fun s => !lost.contains s)
    let d := fixed.foldl (fun d s => d.count s true) (lost.foldl (fun d s => d.count s false) d)
    let d := { d with
      badSectors := d.badSectors.filter (fun x => !lost.contains x && !fixed.contains x)
      poison := lost.filter (fun s => !d.poison.contains s) ++ d.poison }
    (lost.foldl (fun d s =>
      d.fileLog (keyPhys s / 2 ^ 37 % 4) (match d.rangeOf s with
        | some l => l.tenant
        | none => 0) Cause.dramUncorrectable 5 (wd64 (keyPhys s)) 0 0) d,
      if lost = [] then [] else [statusSet mem line 1])

/-- A part lies in a poisoned sector. -/
def Dev.poisoned (d : Dev) (a : Nat) : Bool := d.poison.contains (sectorOf a)

/-- A part of a line does. -/
def Dev.poisonedLine (d : Dev) (line : Nat) : Bool := d.poisoned line || d.poisoned (line + 64)

/-- A store that writes every byte of a poisoned sector clears it (R264). -/
def Dev.clearPoison (d : Dev) (w : List (Nat × Byte)) : Dev :=
  { d with poison := d.poison.filter (fun s =>
      !(List.range 64).all (fun k => w.any (fun p => p.1 == s + k))) }

/-! ### Service (R249, R260 to R262, R267) -/

/-- A store or atomic to a line that has arrived at its home: accepted, or waiting for a consultation. -/
def MsgKind.storeAt (line : Nat) : MsgKind → Bool
  | .acc b => (b.st == .accepted || b.st == .waiting) && b.line == line && b.op.buffered
  | _ => false

/-- A store or atomic to the line arrived before message `m` (R123). -/
def Dev.behind (d : Dev) (m line : Nat) : Bool :=
  (d.msgs.takeWhile (fun x => x.id != m)).any (fun x => x.kind.storeAt line)

/-- An older load of the core has not been served (R83). -/
def Dev.loadsBefore (d : Dev) (m core : Nat) : Bool :=
  d.msgs.any (fun x => x.id < m && match x.kind with
    | .acc b => b.src.core == core && b.op.isLoad
    | _ => false)

/-- The host or a peer holds what the home needs: any permission for a store, write permission for a
load (R124, R362). -/
def Dev.heldAway (d : Dev) (drip line : Nat) (store : Bool) : Bool :=
  d.perms.any (fun p => p.line = line && drip < p.expiry && (store || p.write))

/-- The read-lease length of a thread's launch (R122). -/
def Dev.rleaseOf (d : Dev) (tid : Nat) : Nat :=
  match d.thr tid with
  | some t => match d.blk t.blk with
    | some b => b.rlease
    | none => 64
  | none => 64

/-- A line's home stamps it with a read lease (R122). -/
def Dev.stampLine (d : Dev) (drip line expiry : Nat) : Dev :=
  let l := d.readLeases.filter (fun p => drip < p.2)
  { d with readLeases := put line (max expiry (look 0 line l)) l }

/-- A read lease on the line is outstanding (R123). -/
def Dev.leased (d : Dev) (drip line : Nat) : Bool := drip < look 0 line d.readLeases

/-- Put a line into a core's L1 of 256 lines; the place needed is that of the copy longest there (R260).
DESIGN CHOICE, unsafe (log 93). -/
def Core.fill (c : Core) (e : L1E) : Core :=
  { c with l1 := (e :: c.l1.filter (fun x => x.line != e.line)).take 256 }

/-- Give a line to a core's L1 under a read lease (R122), unless a store of the core to it is on its way. -/
def Dev.fillL1 (d : Dev) (drip core line len : Nat) (data : BitVec 1024) : Dev :=
  if (d.unperf core).any (fun m => match m.kind with
      | .acc a => a.line == line
      | _ => false) then d
  else
    (d.stampLine drip line (drip + len)).setCore core ((d.core core).fill ⟨line, drip + len, data, false⟩)

/-! ### The grotto (R263) and what its slices hold of other homes' lines (R124, R262) -/

/-- The span of a line's words of `n` bytes, relative to its first. -/
def wordSpan (mem : Memory) (line n : Nat) : Nat :=
  let w := (List.range (128 / n)).map (fun k =>
    (BitVec.ofNat (8 * n) (mem.readN (line + n * k) n) - BitVec.ofNat (8 * n) (mem.readN line n)).toInt)
  (w.foldl max 0 - w.foldl min 0).toNat

/-- A line fits half a frame: all zeros, or a base and deltas of 4-byte or 8-byte words. -/
def compressible (mem : Memory) (line : Nat) : Bool :=
  mem.readN line 128 == 0 || wordSpan mem line 4 ≤ 255 || wordSpan mem line 8 ≤ 65535

/-- The lines that a slice's 16,384 frames hold, of lines newest first; `c` compressed and `u` whole ones have
their place. DESIGN CHOICE, unsafe (log 85). -/
def keepLines (mem : Memory) : Nat → Nat → List Nat → List Nat
  | _, _, [] => []
  | c, u, l :: ls =>
    let z := compressible mem l
    let c' := if z then c + 1 else c
    let u' := if z then u else u + 1
    if (c' + 1) / 2 + u' ≤ 16384 then l :: keepLines mem c' u' ls else keepLines mem c u ls

/-- A line that slices cache: DRAM of a module, the host's or the pool's. -/
def sliced (line : Nat) : Bool := 0xC0 < keyAp line || isDram (keyPhys line)

/-- A slice holds a line: it stands newest, and what no longer fits leaves (R263). -/
def Dev.intoSlice (d : Dev) (mem : Memory) (line : Nat) (w : List (Nat × Byte)) : Dev :=
  if !sliced line then d
  else
    let g := line :: d.grotto.filter (· != line)
    if g.length ≤ 16384 then { d with grotto := g }
    else
      let mine := fun x => d.homeOf 0 x == d.homeOf 0 line
      let kept := keepLines (mem.writeAll w) 0 0 (g.filter mine)
      { d with
        grotto := g.filter (fun x => !mine x || kept.contains x)
        sliceLeases := d.sliceLeases.filter (fun p => !mine p.line || kept.contains p.line)
        hostLines := d.hostLines.filter (fun p => !mine p.1 || kept.contains p.1) }

/-- A slice's lease on a peer, host or pool line, for reading or writing: one that it holds, or a new one of 1,024
drips (R124). `w` are the bytes it is about to write. -/
def Dev.takeLease (d : Dev) (drip : Nat) (mem : Memory) (line : Nat) (write : Bool) (w : List (Nat × Byte)) : Dev :=
  if keyAp line = 0 then d
  else
    let old := d.sliceLeases.find? (fun p => p.line == line && drip < p.expiry)
    let q := old.getD ⟨line, (d.homeOf 0 line).die, false, drip + 1024, [], false⟩
    let n : Perm := { q with
      write := q.write || write
      dirty := w.foldl (fun l b => if l.any (fun x => x.1 == b.1) then l else put b.1 (mem.read b.1) l) q.dirty }
    { d with sliceLeases := n :: d.sliceLeases.filter (fun x => x.line != line) }

/-- A line's slice serves an access of it: it holds the line, under permission of the line's own home. -/
def Dev.holdLine (d : Dev) (drip : Nat) (mem : Memory) (line : Nat) (write : Bool) (w : List (Nat × Byte)) : Dev :=
  let d := (d.intoSlice mem line w).takeLease drip mem line write w
  if keyAp line ≠ 0xFE then d
  else match d.hostLines.find? (fun p => p.1 = line) with
  | some p => { d with hostLines := (line, p.2 || write) :: d.hostLines.filter (fun q => q.1 != line) }
  | none => { d with hostLines := (line, write) :: d.hostLines }

/-- Flags of parts read from exact elements, and their values. -/
def Dev.exactLoad (d : Dev) (els : List El) : List (Dest × Nat) × Flags :=
  els.foldl (fun p e => let r := exactRead (d.exactEl e.addr); (p.1 ++ [e.value r.1], p.2 ||| r.2)) ([], 0)

/-- The record address that a fracture replies: its line's address (R249). -/
def Dev.recordVa (d : Dev) (r : AgentId × Nat × Nat) : Nat :=
  match d.lease r.1 r.2.1 with
  | some l => match l.payload with
    | .bundle b => (b.lineVa.toNat) % 2 ^ 51
    | _ => 0
  | none => 0

/-- Sign-extend an address from bit 50. -/
def ext51 (v : Nat) : Nat := if v / 2 ^ 50 % 2 = 1 then v + (2 ^ 64 - 2 ^ 51) else v

/-- Serve an accepted load at its home in drip `drip`, its view already known: the reply. -/
def Dev.serve (d : Dev) (drip : Nat) (mem : Memory) (m : Nat) (a : Acc) : Dev × List (Nat × Byte) :=
  let s := d.scrub mem a.line
  let d := s.1.drop m
  let home := d.accHome a
  let t := d.clock drip home.mod
  let bad := fun (l : List (Nat × Nat)) => l.find? (fun p => d.poisoned p.2)
  let err := fun (p : Nat × Nat) =>
    d.send (.error a.src Cause.dramUncorrectable (a.va + wd64 (p.2 - a.line)) p.1 (some a.line))
  let badWord := fun (els : List El) =>
    ((els.flatMap El.bytes).map Prod.fst).find? (fun p => d.badWords.contains (p / 8 * 8))
  let cur := d.homeByte drip mem
  let reader := fun v => match v with
    | Version.old b => versionByte b a.line
    | _ => cur
  match a.op with
  | .pref grot =>
    (if d.noLease a.line t ∨ d.isExact a.line ∨ d.poisonedLine a.line ∨ (d.madeWord drip a.line).isSome then d
      else
        let d := d.holdLine drip mem a.line false []
        if grot then d
        else d.fillL1 drip a.src.core a.line (d.rleaseOf a.src.tid) (BitVec.ofNat 1024 (mem.readN a.line 128)), s.2)
  | .load els =>
    if d.isExact a.line then
      let r := d.exactLoad els
      (d.send (.data a.src r.1 none r.2 (some a.line)), s.2)
    else match bad (els.flatMap (fun e => e.bytes.map (fun b => (e.rank, b.1)))) with
    | some p => (err p, s.2)
    | none => match badWord els with
    | some p => (d.send (.error a.src Cause.sramUncorrectable (a.va + wd64 (p - a.line)) 0 (some a.line)), s.2)
    | none =>
      let v := d.version a.line t (d.clock a.at' home.mod)
      let d := d.holdLine drip mem a.line false []
      let made := (d.madeWord drip a.line).isSome
      let d := if nearOnly a.scope ∧ !d.noLease a.line t ∧ !made ∧ !d.poisonedLine a.line then d.fillL1 drip a.src.core a.line (d.rleaseOf a.src.tid) (BitVec.ofNat 1024 (mem.readN a.line 128)) else d
      (d.send (.data a.src (readEls (reader v) els) none 0 (some a.line)), s.2)
  | .bld p r kp view =>
    match bad [(0, p)] with
    | some q => (err q, s.2)
    | none =>
      let d := d.holdLine drip mem a.line false []
      match d.version a.line t view with
      | .fracture rec => (d.send (.data a.src [(.x r, ext51 (d.recordVa rec))] (some (kp, true)) 0 (some a.line)), s.2)
      | v => (d.send (.data a.src [(.x r, bitsFrom (reader v) p 0 64)] (some (kp, false)) 0 (some a.line)), s.2)
  | .tagld g va r =>
    let tag := if 0xC0 < keyAp g then 0 else (look 0 g d.tags).toNat
    (d.send (.data a.src [(.x r, va.toNat % 2 ^ 56 + tag * 2 ^ 56 + va.toNat / 2 ^ 60 * 2 ^ 60)] none 0 (some a.line)), s.2)
  | .mcsld p r =>
    match bad [(0, p)] with
    | some q => (err q, s.2)
    | none =>
      let d := (d.holdLine drip mem a.line true []).updThr a.src.tid (fun th => { th with
        mcsSince := some (th.mcsSince.getD drip)
        mcsHeld := if th.mcsLines.contains a.line then a.line :: th.mcsHeld else th.mcsHeld })
      (d.send (.data a.src [(.x r, bitsFrom (reader (d.version a.line t (d.clock a.at' home.mod))) p 0 64)] none 0
        (some a.line)), s.2)
  | _ => (d, s.2)

/-- The view of a load at its home, and whether the home must first learn its line's stamp. -/
def Dev.mustAsk (d : Dev) (a : Acc) : Bool :=
  match a.op with
  | .load _ | .bld .. | .mcsld .. => match d.bline a.line with
    | some b => b.nb.isSome && b.known.isNone
    | none => false
  | _ => false

/-- Put an access in its place by message number. -/
def byId (x : Nat × Acc) : List (Nat × Acc) → List (Nat × Acc)
  | [] => [x]
  | y :: l => if x.1 < y.1 then x :: y :: l else y :: byId x l

/-- The pieces that share elements with an access, and it, in the order they were sent. -/
def Dev.withTwins (d : Dev) (m : Nat) (a : Acc) : List (Nat × Acc) :=
  if !a.joint then [(m, a)]
  else (d.msgs.filterMap (fun x => match x.kind with
    | .acc b => if b.joint && b.src.tid == a.src.tid && b.src.op == a.src.op then some (x.id, b) else none
    | _ => none)).foldl (fun l x => byId x l) []

/-- Serve accepted loads one after another, if each can be. -/
def Dev.serveAll (d : Dev) (drip : Nat) (mem : Memory) : List (Nat × Acc) → List (Nat × Byte) →
    Option (Dev × List (Nat × Byte))
  | [], w => some (d, w)
  | p :: ps, w =>
    if d.behind p.1 p.2.line || d.heldAway drip p.2.line false || d.loadsBefore p.1 p.2.src.core then none
    else
      let r := d.serve drip mem p.1 p.2
      r.1.serveAll drip mem ps (w ++ r.2)

/-- Serve a load with the pieces that share elements with it (R288), none of them on its way: first a stamp that has to
be asked for is. -/
def Dev.serveJoint (d : Dev) (drip : Nat) (mem : Memory) (m : Nat) (a : Acc) : Res :=
  let l := d.withTwins m a
  if l.any (fun p => p.2.st == .travelling || p.2.st == .waiting) then .eff d []
  else
    let l := l.filter (fun p => p.2.st == .accepted)
    match l.find? (fun p => d.mustAsk p.2) with
    | some p => .eff ((d.askBundle (d.accHome p.2) p.2.line).reMsg p.1 (.acc { p.2 with st := .bundle })) []
    | none => match d.serveAll drip mem l [] with
      | some r => .eff (r.1.afterLoad drip a.src.core) r.2
      | none => .eff d []

/-- LOAD_SERVICE (R249, R260, R261): at the home, after the core's older loads; a hit whose copy has run out is
sent to its home. -/
def execLoadService (m : Nat) : State → Host.Outcome State Fault Refusal :=
  run (fun drip mem d => match d.msg m with
    | some (.acc a) =>
      let free := match a.op with
        | .bld .. => (d.bline a.line).isSome
        | .pref _ => true
        | _ => false
      let pref := match a.op with
        | .pref _ => true
        | _ => false
      if !(a.op.isLoad || pref) ∨ (!free ∧ d.loadsBefore m a.src.core) then .eff d []
      else if a.st.isL1 then .eff (d.afterLoad drip a.src.core) []
      else if a.st ≠ .accepted ∨ d.behind m a.line ∨ d.heldAway drip a.line false then .eff d []
      else if a.joint then d.serveJoint drip mem m a
      else if d.mustAsk a then
        .eff ((d.askBundle (d.accHome a) a.line).reMsg m (.acc { a with st := .bundle })) []
      else
        let r := d.serve drip mem m a
        .eff (r.1.afterLoad drip a.src.core) r.2
    | _ => .eff d [])

/-- Serve the loads of a line that waited for its stamp (R249). -/
def Dev.serveWaiting (d : Dev) (drip : Nat) (mem : Memory) (line : Nat) : Dev × List (Nat × Byte) :=
  (d.msgs.filterMap (fun x => match x.kind with
    | .acc a => if a.st == .bundle && a.line == line then some (x.id, a) else none
    | _ => none)).foldl (fun x p =>
      let r := x.1.serve drip mem p.1 p.2
      (r.1.afterLoad drip p.2.src.core, x.2 ++ r.2)) (d, [])

/-! ### Performance (R123, R266, R290, R293) -/

/-- What stands before an accepted store or atomic of the same core: a load of its line issued earlier whose value
has not been taken; and on the core's die every older load and store (R266, R267). -/
def Dev.olderLeft (d : Dev) (m : Nat) (a : Acc) : Bool :=
  d.msgs.any (fun x => x.id != m && match x.kind with
    | .acc b => b.src.core == a.src.core
      && ((b.op.isLoad && b.line == a.line && b.src.op < a.src.op)
        || (d.nearAcc a && d.nearAcc b && a.after' != 0
          && ((b.op.isLoad && b.src.op < a.after') || (b.op.buffered && b.after' != 0 && x.id < m))))
    | _ => false)

/-- Another caching agent's permission stands in the way of an access at its home: the host's on a line of this
module; of an atomic that a peer's slice performs, this module's own (R124, R291). -/
def Dev.recallFirst (d : Dev) (drip : Nat) (a : Acc) : Bool :=
  d.heldAway drip a.line true
  || ((d.accHome a).mod != d.modNo && d.sliceLeases.any (fun p => p.line == a.line && drip < p.expiry))

/-- An accepted store may perform: no read lease on its line is left, nothing that arrived before it at the home or
stands before it in its core is left, and no one away holds the line. -/
def Dev.mayPerform (d : Dev) (drip m : Nat) (a : Acc) : Bool :=
  a.st == .accepted && !d.behind m a.line && !d.recallFirst drip a && !d.leased drip a.line && !d.olderLeft m a

/-- A store or an atomic of another agent breaks the sets that hold its line (R298). -/
def Dev.snoopSets (d : Dev) (tid line : Nat) : Dev :=
  { d with threads := d.threads.map (fun p =>
      if p.1 ≠ tid ∧ p.2.mcsHeld.contains line then
        (p.1, { p.2 with mcsBroken := some (p.2.mcsBroken.getD Cause.mcsSnoop) }) else p) }

/-- An accepted store performs. -/
def Dev.performStore (d : Dev) (drip : Nat) (mem : Memory) (m : Nat) (a : Acc) (l : List MByte) :
    Dev × List (Nat × Byte) :=
  let d := (d.drop m).snoopSets a.src.tid a.line
  if d.isExact a.line then ({ d with exactEls := exactSet l d.exactEls }, [])
  else
    let w := d.homeWrite drip mem l
    ((d.holdLine drip mem a.line true w).clearPoison w, w)

/-- Accepted stores perform one after another, if each may. -/
def Dev.performAll (d : Dev) (drip : Nat) (mem : Memory) : List (Nat × Acc) → List (Nat × Byte) →
    Option (Dev × List (Nat × Byte))
  | [], w => some (d, w)
  | p :: ps, w => match p.2.op with
    | .store l =>
      if d.mayPerform drip p.1 p.2 then
        let r := d.performStore drip mem p.1 p.2 l
        r.1.performAll drip mem ps (w ++ r.2)
      else none
    | _ => none

/-- A piece that shares elements with an access is still in its core's buffer. -/
def Dev.twinInSb (d : Dev) (a : Acc) : Bool :=
  a.joint && (d.core a.src.core).sb.any (fun b => b.joint && b.src.tid == a.src.tid && b.src.op == a.src.op)

/-- STORE_PERFORM: with the pieces that share elements with it (R288). An arm word and a keepalive are acted on by steps of their own (R365). -/
def execStorePerform (m : Nat) : State → Host.Outcome State Fault Refusal :=
  run (fun drip mem d => match d.msg m with
    | some (.acc a) =>
      if !d.mayPerform drip m a then .eff d []
      else match a.op with
      | .store l =>
        let keep := match d.windowOf a.line with
          | some x => match x.payload with
            | .anchor _ w _ => a.line == w && l.any (fun b => b.addr < w + 8)
            | _ => false
          | none => false
        let prq := keyAp a.line == 0 && keyPhys a.line == ioBase && l.any (fun b => b.addr < a.line + 8)
        if keep || prq then .eff d []
        else if d.twinInSb a then .eff d []
        else match d.performAll drip mem (d.withTwins m a) [] with
          | some r => .eff r.1 r.2
          | none => .eff d []
      | .tagst g t =>
        .eff (if 0xC0 < keyAp g then d.drop m
          else { d.drop m with tags := if t = 0 then del g (d.drop m).tags else put g t (d.drop m).tags }) []
      | _ => .eff d []
    | _ => .eff d [])

/-- The new value of an atomic's memory, and its flags (R290). `n` bits. -/
def atomNew (fn : AtomFn) (n old b c : Nat) : Nat × Flags :=
  let s := fun x => (BitVec.ofNat n x).toInt
  match fn with
  | .add => ((old + b) % 2 ^ n, 0)
  | .and => (old &&& b, 0)
  | .or => (old ||| b, 0)
  | .xor => (old ^^^ b, 0)
  | .min => (if s b < s old then b else old, 0)
  | .max => (if s old < s b then b else old, 0)
  | .minu => (Nat.min old b, 0)
  | .maxu => (Nat.max old b, 0)
  | .xchg => (b, 0)
  | .cas => (if old = c then b else old, 0)
  | .fadd =>
    let f := if n = 64 then Fp.f64 else Fp.f32
    let r := (f.val old).add RM.rne (f.val b)
    let q := f.pack RM.rne false r.1
    (q.1, r.2 ||| q.2)

/-- What an atomic replies of the old value. -/
def atomReply (fn : AtomFn) (n old : Nat) : Nat :=
  if fn = .fadd then old else ((BitVec.ofNat n old).signExtend 64).toNat

/-- ATOMIC_SERVICE (R290): one step at the home; the old value is the reply. -/
def execAtomicService (m : Nat) : State → Host.Outcome State Fault Refusal :=
  run (fun drip mem d => match d.msg m with
    | some (.acc a) =>
      match a.op with
      | .atom fn p size b c r =>
        if !d.mayPerform drip m a then .eff d []
        else
          let n := 8 * size
          let old := bitsFrom (d.homeByte drip mem) p 0 n
          let v := atomNew fn n old (b.toNat % 2 ^ n) (c.toNat % 2 ^ n)
          let w := d.homeWrite drip mem ((List.range size).map (fun k => ⟨p + k, 0xFF, byteOf v.1 k⟩))
          let s := d.scrub mem a.line
          let d := (s.1.drop m).snoopSets a.src.tid a.line
          let d := if (d.accHome a).mod = d.modNo then d.holdLine drip mem a.line true w else d
          if d.poisoned p then .eff (d.send (.error a.src Cause.dramUncorrectable (a.va + wd64 (p - a.line)) 0 none)) s.2
          else .eff (d.send (.data a.src [(.x r, atomReply fn n old)] none v.2 none)) (s.2 ++ w)
      | _ => .eff d []
    | _ => .eff d [])

/-- ATOMX_SERVICE (R188, R293): an exact add. -/
def execAtomxService (m : Nat) : State → Host.Outcome State Fault Refusal :=
  run (fun drip _ d => match d.msg m with
    | some (.acc a) =>
      match a.op with
      | .atomx p v =>
        if !d.mayPerform drip m a then .eff d []
        else
          let x := exactOf v.toNat
          let o := d.exactEl p
          .eff { (d.drop m).snoopSets a.src.tid a.line with
            exactEls := put p (o.1 + x.1, o.2 ||| x.2) d.exactEls } []
      | _ => .eff d []
    | _ => .eff d [])

/-! ### The store buffer and the L1 -/

/-- Change a core's L1 copy as an entry drains (R82): a plain store updates it, an entry whose value the
home forms drops it. -/
def Core.drainL1 (c : Core) (drip : Nat) (a : Acc) : Core :=
  match a.op with
  | .store l =>
    { c with l1 := c.l1.map (fun e =>
        if e.line = a.line ∧ drip < e.expiry then
          { e with data := l.foldl (fun (x : BitVec 1024) b =>
              let o := 8 * (b.addr - a.line)
              (x &&& ~~~(BitVec.ofNat 1024 (b.mask.toNat <<< o))) ||| BitVec.ofNat 1024 ((b.val &&& b.mask).toNat <<< o)) e.data }
        else e) }
  | .atom .. | .atomx .. | .bst .. => { c with l1 := c.l1.filter (fun e => e.line != a.line) }
  | _ => c

/-- Stores of other cores that this core's threads have observed by a lock grant have performed (R271). -/
def Dev.seenDone (d : Dev) (core : Nat) : Bool :=
  (d.core core).seen.all (fun m => !d.msgs.any (fun x => x.id == m && match x.kind with
    | .acc a => a.op.buffered
    | _ => false))

/-- STORE_BUFFER_DRAIN (R82): the oldest entry leaves for its home; a release once every older store of the
core has performed (R269), and any once those observed by a lock grant have. -/
def execStoreBufferDrain (core : Nat) : State → Host.Outcome State Fault Refusal :=
  run (fun drip _ d =>
    let c := d.core core
    match c.sb with
    | [] => .eff d []
    | a :: rest =>
      if !d.seenDone core ∨ (a.rel && (d.unperf core).any (fun m => match m.kind with
          | .acc b => !(a.joint && b.joint && b.src.tid == a.src.tid && b.src.op == a.src.op)
          | _ => true)) then .eff d []
      else .eff ((d.setCore core { c.drainL1 drip a with sb := rest }).send (.acc a)) [])

/-- READ_LEASE_EXPIRY (R122): a copy whose lease has run out is absent. -/
def execReadLeaseExpiry (core line : Nat) : State → Host.Outcome State Fault Refusal :=
  run (fun drip _ d =>
    let c := d.core core
    if c.l1.any (fun e => e.line = line && e.expiry ≤ drip) then
      .eff (d.setCore core { c with l1 := c.l1.filter (fun e => !(e.line = line && e.expiry ≤ drip)) }) []
    else .eff d [])

/-! ### Replies at the slot (R25, R84, R96, R120, R121) -/

/-- Part of a value, or a refusal, reaches a slot: with the last, the destination is written, or the trap of
R84 waits (R278). -/
def Dev.arrive (d : Dev) (drip : Nat) (mem : Memory) (src : From) (vals : List (Dest × Nat))
    (kp : Option (KP × Bool)) (fl : Flags) (err : Option (Nat × Nat × Word)) : Dev :=
  match d.outst.find? (fun o => o.op = src.op) with
  | none => d
  | some o =>
    let e : Option (Nat × Nat × Word) := match err, o.err with
      | some x, some y => some (if x.1 < y.1 then x else y)
      | some x, none => some x
      | none, y => y
    let vs := o.vals ++ vals
    let core := match d.thr o.tid with
      | some t => if t.place = .saved then d.crewCore t.blk o.tid else t.coreSlot.1
      | none => 0
    let d := d.raiseFlags o.tid core fl
    if 1 < o.left then
      { d with outst := d.outst.map (fun x => if x.op = o.op then { x with left := x.left - 1, vals := vs, err := e } else x) }
    else
      let d := match e with
        | some x => d.updThr o.tid (fun t => { t with traps := t.traps ++ [(⟨x.2.1, x.2.2⟩ : PendTrap)] })
        | none =>
          let d := d.deliver o.tid o.pv o.fmt vs
          match kp with
          | some (k, b) => d.regs o.tid (fun g => g.wpair k b)
          | none => d
      d.closeOp drip mem o.op

/-- LOAD_DATA_ARRIVAL (R25). -/
def execLoadDataArrival (m : Nat) : State → Host.Outcome State Fault Refusal :=
  run (fun drip mem d => match d.msg m with
    | some (.data src vals kp fl _) => .eff (if d.srcStopped src then d else (d.drop m).arrive drip mem src vals kp fl none) []
    | some (.hit src vals due) =>
      .eff (if d.srcStopped src ∨ drip < due then d else (d.drop m).arrive drip mem src vals none 0 none) []
    | _ => .eff d [])

/-- ACKNOWLEDGEMENT (R25): a piece has been accepted. -/
def execAcknowledgement (m : Nat) : State → Host.Outcome State Fault Refusal :=
  run (fun drip mem d => match d.msg m with
    | some (.ack src) => .eff (if d.srcStopped src then d else (d.drop m).pieceDone drip mem src.op) []
    | _ => .eff d [])

/-- The lowest entry of a journal that is free in this drip, from `i` on. -/
def freeEntry (drip : Nat) : Nat → List JEntry → Option Nat
  | _, [] => none
  | i, e :: l => if e.v || drip < e.from' then freeEntry drip (i + 1) l else some i

/-- A refusal enters the journal of the slot's core, or is counted as lost (R120, R121). -/
def Dev.journal (d : Dev) (drip tid : Nat) (j : JEntry) : Dev :=
  match d.thr tid with
  | none => d
  | some t =>
    let cs := t.coreSlot
    let c := d.core cs.1
    match freeEntry drip 0 c.jrnl.toList with
    | some i => d.setCore cs.1 { c with jrnl := c.jrnl.setIfInBounds i { j with slot := cs.2, v := true, rpt := false } }
    | none => d.setThr tid { t with lost := min (t.lost + 1) 0xFFFF }

/-- REFUSAL_ACKNOWLEDGEMENT (R120). -/
def execRefusalAcknowledgement (m : Nat) : State → Host.Outcome State Fault Refusal :=
  run (fun drip mem d => match d.msg m with
    | some (.refused src j) => .eff (if d.srcStopped src then d else ((d.drop m).journal drip src.tid j).pieceDone drip mem src.op) []
    | _ => .eff d [])

/-- A core receives a code line of this version (R43, R57): its L1 keeps it under a read lease; where its home
gives none, for this fetch only (R275). -/
def Dev.giveCode (d : Dev) (drip : Nat) (mem : Memory) (core line len : Nat) (v : Version) :
    Dev × List (Nat × Byte) :=
  let s := d.scrub mem line
  let d := s.1.holdLine drip mem line false []
  let data := match v with
    | .old b => b
    | _ => BitVec.ofNat 1024 (mem.readN line 128)
  (if d.noLease line drip then d.setCore core ((d.core core).fill ⟨line, drip + 1, data, true⟩)
    else (d.stampLine drip line (drip + len)).setCore core ((d.core core).fill ⟨line, drip + len, data, false⟩), s.2)

/-- CODE_FETCH_ARRIVAL (R43, R57): the line goes to the core that asked. An unknown commit stamp is asked for first (R249). -/
def execCodeFetchArrival (m : Nat) : State → Host.Outcome State Fault Refusal :=
  run (fun drip mem d => match d.msg m with
    | some (.fetch core line len) =>
      let d := d.touch core line
      if d.msgs.any (fun x => x.kind.storeAt line) ∨ d.heldAway drip line false then .eff d []
      else match d.version line drip drip with
      | .unknown => .eff (d.askBundle (d.homeOf (coreDie core) line) line) []
      | v =>
        let d := (d.setCore core { d.core core with fetching := (d.core core).fetching.filter (fun l => l != line) }).drop m
        let r := d.giveCode drip mem core line len v
        .eff r.1 r.2
    | _ => .eff d [])

end Sys2Proof.Machine
end

