-- ==== Sys2Proof/Machine/Leases.lean ====
section
/-!
DEFINITION. The instructions of LEASE, BARR, PATH and JOURNAL (spec 07 R130 to R152) as the core issues them,
and what their homes do with the requests: renewal, inquiry, tethering, locks, barriers and paths.
-/
namespace Sys2Proof.Machine
open Sys2Proof

/-! ### At issue (R131, R133) -/

/-- Handle operands, each with the kinds it accepts: null and kind first, for every one, then whether the
kind suits (R131). -/
def withKinds (l : List (Word × List Nat)) (f : Unit → Out) : Out :=
  match l.findSome? (fun p => handleCheck p.1) with
  | some c => .trap c none
  | none => if l.any (fun p => !p.2.contains (hKind p.1)) then .trap Cause.operandRange none else f ()

/-- A duration operand's registers, and its value. -/
def durRegs : Dur → List Reg
  | .reg r => [r]
  | .imm _ => []
def durValue (d : Dur) (v : Word) : Nat :=
  match d with
  | .reg _ => v.toNat % 65536
  | .imm n => n.toNat

/-- With a duration of m = 0 the core writes the DURATION_ZERO reply and sends nothing (R106, R133). -/
def In.withDur (i : In) (d : Reg) (v : Nat) (f : Nat → Out) : Out :=
  match duration v with
  | none => i.result d (refusalWord Cause.durationZero)
  | some n => f n

/-- LRENEW. -/
def execLrenew (o : DurOp) : State → Host.Outcome State Fault Refusal :=
  run (issueS false o.g { xs := o.a :: durRegs o.dur, late := some o.d } (fun i =>
    withKinds [(i.a, [1, 2, 4, 5, 6, 7, 8, 9, 10])] (fun _ =>
      i.withDur o.d (durValue o.dur i.b) (fun n => i.request o.d (.renew i.a n)))))
/-- LLIFE. -/
def execLlife (o : RR) : State → Host.Outcome State Fault Refusal :=
  run (issueS false o.g { xs := [o.a], late := some o.d } (fun i =>
    withKinds [(i.a, [1, 2, 4, 5, 6, 7, 8, 9, 10])] (fun _ => i.request o.d (.life i.a))))
/-- LTETHER. -/
def execLtether (o : RRRx) : State → Host.Outcome State Fault Refusal :=
  run (issueS false o.g { xs := [o.a, o.b], late := some o.d } (fun i =>
    withKinds [(i.a, [1, 2, 4, 6, 7, 8, 9, 10]), (i.b, [1, 2, 3, 4, 5, 6, 7, 8, 9, 10])] (fun _ =>
      i.request o.d (.tether i.a i.b 1 0))))
/-- LINFO. -/
def execLinfo (o : LinfoOp) : State → Host.Outcome State Fault Refusal :=
  run (issueS false o.g { xs := [o.a], late := some o.d } (fun i =>
    withKinds [(i.a, [1, 2, 3, 4, 5, 6, 7, 8, 9, 10])] (fun _ => i.request o.d (.info i.a o.rec1))))

/-- LOCK (R139): an acquire; later accesses wait for its reply. -/
def execLock (o : LockOp) : State → Host.Outcome State Fault Refusal :=
  run (issueS false o.g { xs := if o.c.val = 0 then [o.a, o.b] else [o.a, o.b, o.c], late := some o.d } (fun i =>
    i.one .read i.a 8 8 (fun _ p =>
      i.withDur o.d (i.b.toNat % 65536) (fun n =>
        if !i.canL then .hold i.base
        else
          let q := i.dev.openOp i.tid 1 true (some o.d) none none
          .ok ((q.1.holdFor i.tid q.2 true).send (.req (i.src o.d q.2)
            (.lock p n (if o.c.val = 0 then none else some i.c.toNat) o.sc))) []))))
/-- LHELD. -/
def execLheld (o : RR) : State → Host.Outcome State Fault Refusal :=
  run (issueS false o.g { xs := [o.a], late := some o.d } (fun i =>
    withKinds [(i.a, [2])] (fun _ => i.request o.d (.lheld i.a))))

/-- The limits of BINIT's configuration (Table 7-5): the fields EXPECT, MHI and MLO. -/
def binitOk (cfg : Word) (bsize : Nat) : Bool :=
  bits cfg 30 34 = 0 && 1 ≤ bits cfg 16 9 && bits cfg 16 9 ≤ 256 && bits cfg 0 8 ≤ bits cfg 8 8
  && bits cfg 8 8 < bsize

/-- BINIT (R141). -/
def execBinit (o : DurOp) : State → Host.Outcome State Fault Refusal :=
  run (issueS false o.g { xs := o.a :: durRegs o.dur, late := some o.d } (fun i =>
    if !binitOk i.a (i.ident .bsize) then .trap Cause.operandRange none
    else i.withDur o.d (durValue o.dur i.b) (fun n =>
      if bits i.a 8 8 - bits i.a 0 8 + 1 < bits i.a 16 9 then i.result o.d (refusalWord Cause.barrierCount)
      else i.request o.d (.binit i.a n i.t.blk))))
/-- BARV (R144, R145). -/
def execBarv (o : BarvOp) : State → Host.Outcome State Fault Refusal :=
  run (issueS false o.g { xs := [o.a], late := some o.d } (fun i =>
    withKinds [(i.a, [3])] (fun _ =>
      if i.t.acq ≠ [] then .hold i.base else i.request o.d (.barv i.a (i.ident .bidx) i.t.blk !(nearOnly o.sc)))))

/-- A register or an immediate that replaces it. -/
def immRegs : RegImm → List Reg
  | .reg r => [r]
  | .imm _ => []
def immValue (x : RegImm) (v : Word) : Word :=
  match x with
  | .reg _ => v
  | .imm n => n.signExtend 64

/-- BADD: the count is 56 bits, sign-extended (R144). -/
def execBadd (o : BaddOp) : State → Host.Outcome State Fault Refusal :=
  run (issueS false o.g { xs := o.a :: immRegs o.n, late := some o.d } (fun i =>
    let n := immValue o.n i.b
    withKinds [(i.a, [3])] (fun _ =>
      if (n.truncate 56).signExtend 64 ≠ n then .trap Cause.operandRange none
      else if i.t.acq ≠ [] then .hold i.base
      else i.request o.d (.badd i.a n.toInt !(nearOnly o.sc)))))
/-- BWAIT: the slot waits for the reply, and no pending bit is set (R145). -/
def execBwait (o : BwaitOp) : State → Host.Outcome State Fault Refusal :=
  run (issueS false o.g { xs := [o.a, o.b], late := some o.d } (fun i =>
    withKinds [(i.a, [3])] (fun _ =>
      if i.t.acq ≠ [] ∨ !i.canL then .hold i.base
      else
        let q := i.dev.openOp i.tid 1 true none none none
        .ok ((q.1.updThr i.tid (fun t => { t with wst := .bwait })).send
          (.req (i.src o.d q.2) (.bwait i.a i.b))) [])))

/-- POPEN (R146). -/
def execPopen (o : RRRx) : State → Host.Outcome State Fault Refusal :=
  run (issueS false o.g { xs := if o.b.val = 0 then [o.a] else [o.a, o.b], late := some o.d } (fun i =>
    withKinds [(i.a, [1])] (fun _ =>
      if o.b.val = 0 then i.request o.d (.popen i.a none)
      else i.withDur o.d (i.b.toNat % 65536) (fun n => i.request o.d (.popen i.a (some n))))))

/-- The words of one path keep their order as accesses of one line do: a number for it, above every
place. -/
def pathLine (h : Word) : Nat := 2 ^ 80 + h.toNat * 128

/-- PSEND (R147). -/
def execPsend (o : PsendOp) : State → Host.Outcome State Fault Refusal :=
  run (issueS false o.g { xs := o.a :: o.b :: immRegs o.c } (fun i =>
    withKinds [(i.a, [4])] (fun _ =>
      if i.b.toNat % 8 ≠ 0 then .trap Cause.misaligned none
      else if !i.ordered false then .hold i.base
      else i.post [(⟨0, pathLine i.a, false, false⟩, .psend i.a i.b (immValue o.c i.c))] .sys false false 0x2A 1 [])))

/-- GATE (R148). -/
def execGate (o : RRRR) : State → Host.Outcome State Fault Refusal :=
  run (issueS false o.g { xs := [o.a, o.b, o.c], late := some o.d } (fun i =>
    withKinds [(i.a, [7])] (fun _ =>
      if 65536 ≤ i.b.toNat then .trap Cause.operandRange none
      else i.request o.d (.gate i.a i.b.toNat i.c))))
/-- ALLOC (R150): the record is read and written, so both permissions are needed. -/
def execAlloc (o : RR) : State → Host.Outcome State Fault Refusal :=
  run (issueS false o.g { xs := [o.a], late := some o.d } (fun i =>
    i.one .read i.a 32 32 (fun _ _ => i.one .write i.a 32 32 (fun _ p => i.request o.d (.alloc p i.a)))))

/-- Word w of a journal entry (R98, Table 5-3): 0 of a free one. -/
def JEntry.word (e : JEntry) (w : Nat) : Word :=
  if !e.v then 0
  else match w with
  | 0 => wd64 (2 ^ 63 + b2n e.rpt * 2 ^ 62 + e.slot * 2 ^ 58 + e.major * 2 ^ 51 + e.minor * 2 ^ 47 + e.cause)
  | 1 => e.w1
  | 2 => e.w2
  | _ => e.w3

/-- JRNL (R151). -/
def execJrnl (o : JrnlOp) : State → Host.Outcome State Fault Refusal :=
  run (issueS false o.g { xs := [o.a], xd := some o.d } (fun i =>
    if 64 ≤ i.a.toNat then .trap Cause.operandRange none
    else i.result o.d ((((i.base.core i.core).jrnl.toList)[i.a.toNat]?.getD JEntry.free).word o.w.val)))
/-- JACK (R152): an entry that it frees can be taken from the next drip on. -/
def execJack (o : GA) : State → Host.Outcome State Fault Refusal :=
  run (issueS false o.g { xs := [o.a] } (fun i =>
    if 64 ≤ i.a.toNat then .trap Cause.operandRange none
    else
      let c := i.dev.core i.core
      match c.jrnl.toList[i.a.toNat]? with
      | some e => if !e.v then .ok i.dev [] else .ok (i.dev.setCore i.core { c with jrnl := c.jrnl.setIfInBounds i.a.toNat { e with v := false, from' := i.drip + 1 } }) []
      | none => .ok i.dev []))

/-! ### Requests at a home -/

/-- A step of a request: the message is taken out, and `f` acts on it. -/
def onReq (m : Nat) (f : Nat → Memory → Dev → From → Req → Option (Dev × List (Nat × Byte))) :
    State → Host.Outcome State Fault Refusal :=
  run (fun drip mem d => match d.msg m with
    | some (.req src q) => match f drip mem (d.drop m) src q with
      | some r => .eff r.1 r.2
      | none => .eff d []
    | _ => .eff d [])

/-- Reply a word or a refusal. -/
def Dev.answer (d : Dev) (src : From) (r : Except Nat Word) : Dev :=
  match r with
  | .ok w => d.reply src w
  | .error c => d.refuse src c

/-- The agent of a handle lies on a module that no plane reaches (R369). -/
def Dev.handleCut (d : Dev) (src : From) (h : Word) : Bool :=
  match d.agentOf src.tenant src.ctx (hAgent h) with
  | some a => d.cut.any (fun p => p.1 = a.mod)
  | none => false

/-- R107's checks, or PATH_DOWN. -/
def Dev.judged (d : Dev) (drip : Nat) (src : From) (h : Word) : Except Nat Lease :=
  if d.handleCut src h then .error Cause.pathDown else d.judge drip src h

/-- The record that a handle names, by generation and kind (R97). -/
def Dev.named (d : Dev) (src : From) (h : Word) : Except Nat Lease :=
  if d.handleCut src h then .error Cause.pathDown
  else match d.agentOf src.tenant src.ctx (hAgent h) with
  | none => .error Cause.leaseLapsed
  | some a => match d.lease a (hIndex h) with
    | none => .error Cause.genMismatch
    | some l => if l.gen ≠ hGen h ∨ l.kind.code ≠ hKind h then .error Cause.genMismatch else .ok l

/-- Renew the root of a lease by `n` drips at its home (R108, R109): the new expiry. The end of an array grant's
run stays what it is (R135, R154). -/
def Dev.renewRoot (d : Dev) (drip : Nat) (l : Lease) (n : Nat) : Dev × Except Nat Word :=
  match d.root l with
  | none => (d, .error Cause.leaseLapsed)
  | some r =>
    if d.lapsed drip r then (d, .error Cause.leaseLapsed)
    else
      let e : Dev := d.setExpiry r (max r.expiry (d.clock drip r.agent.mod + n))
      (e.spreadExpiry r (e.expiry { r with expiry := max r.expiry (d.clock drip r.agent.mod + n) }),
        .ok (wd64 (e.expiry { r with expiry := max r.expiry (d.clock drip r.agent.mod + n) })))

/-- RENEWAL_ARRIVAL (R108): a tethered lease is judged by its root, after its own generation and holder
(R109). -/
def execRenewalArrival (m : Nat) : State → Host.Outcome State Fault Refusal :=
  onReq m (fun drip _ d src q => match q with
    | .renew h n =>
      match d.named src h with
      | .error c => some (d.refuse src c, [])
      | .ok l =>
        if d.handsOn drip l then some (d.refuse src Cause.genMismatch, [])
        else if l.parent.isNone && d.lapsed drip l then some (d.refuse src Cause.leaseLapsed, [])
        else if l.holder ≠ some src.ctx then some (d.refuse src Cause.notHolder, [])
        else
          let r := d.renewRoot drip l n
          some (r.1.answer src r.2, [])
    | _ => none)

/-- LIFE_INQUIRY_ARRIVAL (R136): the root's home judges the lapse and measures the life by its own counter. -/
def execLifeInquiryArrival (m : Nat) : State → Host.Outcome State Fault Refusal :=
  onReq m (fun drip _ d src q => match q with
    | .life h =>
      some (d.answer src (match d.named src h with
        | .error c => .error c
        | .ok l => match d.root l with
          | none => .error Cause.leaseLapsed
          | some r =>
            let t := d.clock drip r.agent.mod
            if d.handsOn drip l then .error Cause.genMismatch
            else if d.lapsedAt l t then .error Cause.leaseLapsed
            else if l.holder ≠ some src.ctx then .error Cause.notHolder
            else .ok (wd64 (d.expiry l - t))), [])
    | _ => none)

/-- TETHER_ARRIVAL (R110, R137): at the lease's home, at the parent's, and back. A tether of a lease to itself or
to one below it would make a chain without end: TETHER_DEPTH. DESIGN CHOICE, unsafe (log 95). -/
def execTetherArrival (m : Nat) : State → Host.Outcome State Fault Refusal :=
  onReq m (fun drip _ d src q => match q with
    | .tether h p step re =>
      some (match step with
        | 1 => match d.judged drip src h with
          | .error c => (d.refuse src c, [])
          | .ok l => if l.parent.isSome then (d.refuse src Cause.tetherRefused, [])
            else (d.send (.req src (.tether h p 2 0)), [])
        | 2 => match d.judged drip src p with
          | .error c => (d.refuse src (if c = Cause.notHolder then Cause.tetherRefused else c), [])
          | .ok pl => match d.named src h, d.root pl with
            | .ok l, some r =>
              if 4 < d.links pl + 1 + d.height l ∨ (r.agent = l.agent ∧ r.index = l.index) then
                (d.refuse src Cause.tetherDepth, [])
              else (d.send (.req src (.tether h p 3 r.expiry)), [])
            | .error c, _ => (d.refuse src c, [])
            | _, none => (d.refuse src Cause.leaseLapsed, [])
        | _ => match d.named src h, d.agentOf src.tenant src.ctx (hAgent p) with
          | .ok l, some a =>
            if d.lapsed drip l then (d.refuse src Cause.leaseLapsed, [])
            else if l.parent.isSome ∨ re < d.expiry l then (d.refuse src Cause.tetherRefused, [])
            else ((d.setLease { l with parent := some (a, hIndex p, hGen p) }).reply src (wd64 re), [])
          | .error c, _ => (d.refuse src (if c = Cause.genMismatch then Cause.leaseLapsed else c), [])
          | _, none => (d.refuse src Cause.leaseLapsed, []))
    | _ => none)

/-- An agent-map entry's word (Table 6-3). -/
def MapEntry.word (e : MapEntry) : Nat :=
  e.agent.mod % 256 * 2 ^ 24 + e.agent.die % 8 * 2 ^ 21 + e.agent.cls % 8 * 2 ^ 18 + e.agent.unit % 256 * 2 ^ 10
    + e.inc % 256 * 4 + b2n e.ret * 2 + 1

/-- A lease record as LINFO reports it (Table 7-4). -/
def Dev.infoWord (d : Dev) (drip : Nat) (l : Lease) : Word :=
  wd64 (b2n (d.lapsed drip l) * 2 ^ 62 + b2n l.parent.isSome * 2 ^ 61 + d.links l % 8 * 2 ^ 58
    + d.height l % 8 * 2 ^ 55 + l.kind.code * 2 ^ 51)

/-- INFO_ARRIVAL (R138). -/
def execInfoArrival (m : Nat) : State → Host.Outcome State Fault Refusal :=
  onReq m (fun drip _ d src q => match q with
    | .info h rec1 =>
      if rec1 then
        some (d.answer src (match d.named src h with
          | .error c => .error c
          | .ok l => if l.holder ≠ some src.ctx then .error Cause.notHolder else .ok (d.infoWord drip l)), [])
      else
        some (d.reply src (match (look [] (mapNo src.tenant src.ctx) d.maps)[hAgent h]? with
          | some e => wd64 e.word
          | none => 0), [])
    | _ => none)

/-! ### Locks (R139, R140) -/

/-- The lock record of a word, at its home. -/
def Dev.lockOf (d : Dev) (word : Nat) : Option Lease :=
  d.leases.find? (fun l => match l.payload with
    | .lock w _ => w = word
    | _ => false)

/-- Stores of a context that their homes have accepted and not performed. -/
def Dev.acceptedOf (d : Dev) (ctx : Option Nat) : List Nat :=
  (d.msgs.filter (fun x => match x.kind with
    | .acc a => a.op.buffered && a.st == .accepted && ctx == some a.src.ctx
    | _ => false)).map Msg.id

/-- The core of a new holder has observed what the previous holder's homes had accepted (R139, R271). -/
def Dev.observe (d : Dev) (core : Nat) (l : List Nat) : Dev :=
  if l = [] then d else d.setCore core { d.core core with seen := (d.core core).seen ++ l }

/-- Grant a lock, to the drip `e`: its record takes a new generation (R119, R139). None where the home cannot
grant: its agent map is full, it is out of use or it has no record. -/
def Dev.giveLock (d : Dev) (drip : Nat) (home : AgentId) (word : Nat) (src : From) (e : Nat)
    (waits : List LockWait) : Option Dev :=
  match d.lockOf word with
  | some l =>
    let seen := d.acceptedOf l.holder
    if d.outOfUse l.agent then none
    else if l.gen < 0xFFFFFF then
      match d.agentNo src.tenant src.ctx l.agent with
      | (d, some k) =>
        let l2 : Lease := { l with
          gen := l.gen + 1
          holder := some src.ctx
          tenant := src.tenant
          expiry := e
          parent := none
          payload := .lock word waits
          dead := false }
        some ((({ d.setLease l2 with started := true } : Dev).observe src.core seen).reply src
          (mkHandle 2 k l.index (l.gen + 1)))
      | (_, none) => none
    else
      let rest := d.leases.map (fun (x : Lease) => if x.agent = l.agent ∧ x.index = l.index
        then { x with payload := .lock (2 ^ 90) [] } else x)
      match ({ d with leases := rest } : Dev).grantLease drip home .lock (some src.ctx)
          src.tenant src.ctx e none (.lock word waits) with
      | (d, some h) => some ((d.observe src.core seen).reply src h)
      | (_, none) => none
  | none =>
    match d.grantLease drip home .lock (some src.ctx) src.tenant src.ctx e none (.lock word waits) with
    | (d, some h) => some (d.reply src h)
    | (_, none) => none

/-- Grant a lock from now for `n` drips, or refuse the request. -/
def Dev.grantLock (d : Dev) (drip : Nat) (home : AgentId) (word : Nat) (src : From) (n : Nat) : Dev :=
  (d.giveLock drip home word src (d.clock drip home.mod + n) []).getD (d.refuse src Cause.allocExhausted)

/-- Hand a lapsed lock on, from its expiry `e`, to the first waiter that it can be granted to; one that cannot
have it is refused (R116, R139). -/
def Dev.handOver (d : Dev) (drip : Nat) (l : Lease) (word e : Nat) : List LockWait → Dev
  | [] => d.setLease { l with payload := .lock word [], dead := true }
  | w :: ws =>
    match d.giveLock drip l.agent word w.src (e + w.dur) ws with
    | some d => d
    | none => (d.refuse w.src (if d.outOfUse l.agent then Cause.leaseLapsed else Cause.allocExhausted)).handOver
        drip l word e ws

/-- LOCK_REQUEST_ARRIVAL (R139): granted, queued, or refused under its range's guard. -/
def execLockRequestArrival (m : Nat) : State → Host.Outcome State Fault Refusal :=
  onReq m (fun drip _ d src q => match q with
    | .lock word n dl sc =>
      let d := d.touch src.core (lineOf word)
      let home := d.homeOf (coreDie src.core) word
      if d.cutOff word then some (d.refuse src Cause.pathDown, [])
      else if d.outOfUse home then some (d.refuse src Cause.leaseLapsed, [])
      else match d.judgeRange drip src.ctx word with
      | some c => some (d.refuse src c, [])
      | none =>
        match d.lockOf word with
        | some l =>
          let ws := match l.payload with
            | .lock _ ws => ws
            | _ => []
          if d.lapsed drip l ∧ ws = [] then some (d.grantLock drip home word src n, [])
          else if dl.any (fun t => t ≤ d.clock drip home.mod) then some (d.refuse src Cause.allocDeadline, [])
          else some (d.setLease { l with payload := .lock word (ws ++ [⟨m, src, n, dl, sc⟩]) }, [])
        | none => some (d.grantLock drip home word src n, [])
    | _ => none)

/-- LOCK_DEADLINE (R139): a waiter is refused at its deadline, unless the lock is granted to it then. -/
def execLockDeadline (m : Nat) : State → Host.Outcome State Fault Refusal :=
  run (fun drip _ d =>
    match d.leases.findSome? (fun l => match l.payload with
      | .lock word ws => match ws.find? (fun w => w.id = m) with
        | some w => some (l, word, ws, w)
        | none => none
      | _ => none) with
    | some (l, word, ws, w) =>
      let first := (ws.head?.map LockWait.id) == some m
      if w.deadline.any (fun t => t ≤ d.clock drip l.agent.mod) && !(d.lapsed drip l && first) then
        .eff ((d.setLease { l with payload := .lock word (ws.filter (fun x => x.id != m)) }).refuse w.src
          Cause.allocDeadline) []
      else .eff d []
    | none => .eff d [])

/-- LOCK_INQUIRY_ARRIVAL (R140). -/
def execLockInquiryArrival (m : Nat) : State → Host.Outcome State Fault Refusal :=
  onReq m (fun drip _ d src q => match q with
    | .lheld h =>
      some (d.answer src (match d.judged drip src h with
        | .error c => .error c
        | .ok l => match l.payload with
          | .lock _ ws => .ok (wd64 (min ws.length 0x7FFF * 2 ^ 48
              + min (d.expiry l - d.clock drip l.agent.mod) 0xFFFFFFFFFFFF))
          | _ => .error Cause.genMismatch), [])
    | _ => none)

/-! ### Barriers (R141 to R145) -/

/-- The threads of a block, by block index. -/
def Block.members (b : Block) : List (Nat × Nat) :=
  b.crews.flatMap (fun c => c.tids.map (fun t => (b.bidxOf t, t)))

/-- BARRIER_GRANT (R142). A member whose thread has ended by then counts as exited from the start.
DESIGN CHOICE, unsafe (log 96). -/
def execBarrierGrant (m : Nat) : State → Host.Outcome State Fault Refusal :=
  onReq m (fun drip _ d src q => match q with
    | .binit cfg w blk =>
      let home : AgentId := ⟨d.modNo, coreDie src.core, 0, bits cfg 25 5⟩
      match d.blk blk with
      | none => some (d.refuse src Cause.barrierCount, [])
      | some b =>
        let mem := (b.members.filter (fun p => bits cfg 0 8 ≤ p.1 && p.1 ≤ bits cfg 8 8)).map Prod.snd
        let live := mem.filter (fun i => (d.thr i).isSome)
        if live.any (fun i => match d.thr i with
            | some t => 8 ≤ (t.memberOf.filter (fun p => match d.lease p.1 p.2.1 with
                | some l => l.gen = p.2.2 && !d.lapsed drip l
                | none => false)).length
            | none => false) then some (d.refuse src Cause.barrierCount, [])
        else if d.outOfUse home then some (d.refuse src Cause.allocExhausted, [])
        else
          let t := d.clock drip home.mod
          let cores := (b.crews.filter (fun c => c.tids.any live.contains)).map Crew.core
          let bar : Barrier := ⟨blk, bits cfg 0 8, bits cfg 8 8, bits cfg 16 9, w, 0, [],
            (b.members.filter (fun p => mem.contains p.2 && !live.contains p.2)).map Prod.fst, 0, false,
            cores.map (·, t), []⟩
          match d.grantLease drip home .barrier (some src.ctx) src.tenant src.ctx (t + w) none (.barrier bar) with
          | (d, none) => some (d.refuse src Cause.allocExhausted, [])
          | (d, some h) =>
            some ((live.foldl (fun d i => d.updThr i (fun th =>
              { th with memberOf := (home, hIndex h, hGen h) :: th.memberOf })) d).reply src h, [])
    | _ => none)

/-- The episode word (R144). -/
def Barrier.word (b : Barrier) : Word := wd64 (b.episode % 2 ^ 32 + b2n b.spent * 2 ^ 62)

/-- Complete the episode when enough members have arrived or exited and no bytes are pending: every held
BWAIT is answered (R144). -/
def Dev.tryComplete (d : Dev) (l : Lease) (b : Barrier) : Dev :=
  if b.expect ≤ (b.arrived ++ b.exited).eraseDups.length && b.bytes == 0 then
    let b2 : Barrier := { b with
      episode := (b.episode + 1) % 2 ^ 32
      arrived := []
      spent := b.expect ≤ b.exited.length
      waits := [] }
    let said : Barrier := { b2 with spent := b.spent }
    b.waits.foldl (fun d p => d.send (.reply p.2 said.word true none)) (d.setLease { l with payload := .barrier b2 })
  else d.setLease { l with payload := .barrier b }

/-- A request at a barrier's home: a lapsed barrier refuses with a trap (R132, R144). -/
def Dev.atBarrier (d : Dev) (drip : Nat) (src : From) (h : Word) (f : Lease → Barrier → Dev) : Dev :=
  match d.judged drip src h with
  | .error c =>
    if c = Cause.leaseLapsed ∧ (d.named src h).isOk then
      d.tickFresh.send (.error src Cause.barrierLapsed (Config.freeWord d.fresh) 0 none)
    else d.refuse src c
  | .ok l => match l.payload with
    | .barrier b => f l b
    | _ => d.refuse src Cause.genMismatch

/-- Every store that the thread of a request issued or observed before it has performed: its core's older ones,
and those that a lock grant brought (R145, R269, R271). -/
def Dev.released (d : Dev) (src : From) : Bool :=
  let old := fun (a : Acc) => a.src.op < src.op
  !((d.core src.core).sb.any old || (d.unperf src.core).any (fun m => match m.kind with
    | .acc a => old a
    | _ => false)) && d.seenDone src.core

/-- BARRIER_ARRIVAL (R144), of an arrival issued in an earlier drip (R20). -/
def execBarrierArrival (m : Nat) : State → Host.Outcome State Fault Refusal :=
  onReq m (fun drip _ d src q => match q with
    | .barv h i blk rel =>
      if d.sentNow m ∨ (rel && !d.released src) then none
      else some (d.atBarrier drip src h (fun l b =>
        if b.blk ≠ blk ∨ i < b.mlo ∨ b.mhi < i then d.refuse src Cause.barrierCount
        else if b.spent then d.reply src b.word
        else if b.arrived.contains i || b.exited.contains i then d.refuse src Cause.barrierCount
        else (d.reply src b.word).tryComplete l { b with arrived := i :: b.arrived }), [])
    | _ => none)

/-- BYTE_ADD_ARRIVAL (R144, R20): the counter is 56 bits, signed. -/
def execByteAddArrival (m : Nat) : State → Host.Outcome State Fault Refusal :=
  onReq m (fun drip _ d src q => match q with
    | .badd h n rel =>
      if d.sentNow m ∨ (rel && !d.released src) then none
      else some (d.atBarrier drip src h (fun l b =>
        let p := b.bytes + n
        if p < -(2 ^ 55) ∨ 2 ^ 55 ≤ p then d.refuse src Cause.barrierBytes
        else (d.reply src (wd64 (p % (2 ^ 56 : Nat)).toNat)).tryComplete l { b with bytes := p }), [])
    | _ => none)

/-- BARRIER_WAIT_ARRIVAL (R144): answered, held until the episode advances, or refused. -/
def execBarrierWaitArrival (m : Nat) : State → Host.Outcome State Fault Refusal :=
  run (fun drip _ d => match d.msg m with
    | some (.req src (.bwait h e)) =>
      let d := d.drop m
      let say := fun (w : Word) => d.send (.reply src w true none)
      .eff (match d.judged drip src h with
        | .error c =>
          if c = Cause.leaseLapsed ∧ (d.named src h).isOk then
            d.tickFresh.send (.error src Cause.barrierLapsed (Config.freeWord d.fresh) 0 none)
          else say (refusalWord c)
        | .ok l => match l.payload with
          | .barrier b =>
            let k := (e.toNat % 2 ^ 32 + 2 ^ 32 - b.episode) % 2 ^ 32
            if b.spent ∨ 2 ^ 31 ≤ k then say b.word
            else if k = 0 then d.setLease { l with payload := .barrier { b with waits := b.waits ++ [(m, src)] } }
            else say (refusalWord Cause.barrierEpisode)
          | _ => say (refusalWord Cause.genMismatch)) []
    | _ => .eff d [])

/-- A barrier's expiry: the earliest of its beating cores' last beats plus W; it never falls (R143). -/
def Barrier.expiry (b : Barrier) (old : Nat) : Nat :=
  match b.beats with
  | [] => old
  | p :: ps => max old (ps.foldl (fun n q => min n q.2) p.2 + b.window)

/-- A core holds a member of a barrier that has not exited. -/
def Dev.coreMember (d : Dev) (core : Nat) (a : AgentId) (ix g : Nat) : Bool :=
  d.threads.any (fun p => p.2.memberOf.contains (a, ix, g) && d.crewCore p.2.blk p.1 == core)

/-- EXIT_NOTICE (R143, R144): the member counts as exited; a core with no member left sends its last
beat. -/
def execExitNotice (m : Nat) : State → Host.Outcome State Fault Refusal :=
  onReq m (fun drip _ d src q => match q with
    | .exitNotice a ix g i =>
      if d.sentNow m then none
      else match d.lease a ix with
      | some l =>
        match l.payload with
        | .barrier b =>
          if l.gen ≠ g ∨ d.lapsed drip l then some (d, [])
          else
            let b := { b with exited := if b.exited.contains i then b.exited else i :: b.exited }
            let b := if d.coreMember src.core a ix g then b
              else { b with beats := b.beats.filter (fun p => p.1 != src.core) }
            some (d.tryComplete { l with expiry := b.expiry l.expiry } b, [])
        | _ => some (d, [])
      | none => some (d, [])
    | _ => none)

/-- BEAT (R143): a core with a live member beats at the barrier's home. -/
def execBeat (core : Nat) (a : AgentId) (ix : Nat) : State → Host.Outcome State Fault Refusal :=
  run (fun drip _ d => match d.lease a ix with
    | some l => match l.payload with
      | .barrier b =>
        if d.lapsed drip l ∨ !d.coreMember core a ix l.gen ∨ d.fencedCore core then .eff d []
        else
          let b := { b with beats := put core drip b.beats }
          .eff (d.setLease { l with payload := .barrier b, expiry := b.expiry l.expiry }) []
      | _ => .eff d []
    | none => .eff d [])

/-! ### Paths (R146, R147) -/

/-- PATH_GRANT (R146). -/
def execPathGrant (m : Nat) : State → Host.Outcome State Fault Refusal :=
  onReq m (fun drip _ d src q => match q with
    | .popen h n =>
      some (match d.judged drip src h with
        | .error c => (d.refuse src c, [])
        | .ok l =>
          if n.isNone ∧ 4 < d.links l + 1 then (d.refuse src Cause.tetherDepth, [])
          else
            match d.grantLease drip l.agent .path (some src.ctx) src.tenant src.ctx
                (match n with
                  | some k => d.clock drip l.agent.mod + k
                  | none => 0)
                (match n with
                  | some _ => none
                  | none => some (l.agent, l.index, l.gen)) (.path l.agent l.index l.gen) with
            | (d, some p) => (d.reply src p, [])
            | (d, none) => (d.refuse src Cause.allocExhausted, []))
    | _ => none)

/-- PATH_WORD_ARRIVAL (R147): judged in the order of R107 with the offset last; an accepted word becomes a
store to the range. -/
def execPathWordArrival (m : Nat) : State → Host.Outcome State Fault Refusal :=
  run (fun drip _ d => match d.msg m with
    | some (.acc a) =>
      match a.op with
      | .psend h off v =>
        if a.st ≠ .travelling ∨ !d.inOrder m a then .eff d []
        else
          let no := fun c => Res.eff (d.refuseAcc drip m a c 0 0) []
          match d.named a.src h with
          | .error c => no c
          | .ok l =>
            match l.payload with
            | .path ag ix g =>
              match d.lease ag ix with
              | none => no Cause.genMismatch
              | some r =>
                if r.gen ≠ g then no Cause.genMismatch
                else if d.lapsed drip l || d.lapsed drip r then no Cause.leaseLapsed
                else if l.holder ≠ some a.src.ctx then no Cause.notHolder
                else match r.payload with
                | .range base size _ =>
                  if size < off.toNat + 8 then no Cause.windowRange
                  else
                    let p := base + off.toNat
                    .eff (d.acceptAcc drip m { a with
                      after' := 0
                      op := .store ((List.range 8).map (fun k => ⟨p + k, 0xFF, byteOf v.toNat k⟩))
                      line := lineOf p }) []
                | _ => no Cause.genMismatch
            | _ => no Cause.genMismatch
      | _ => .eff d []
    | _ => .eff d [])

end Sys2Proof.Machine
end

