-- ==== Sys2Proof/Machine/Bundles.lean ====
section
/-!
DEFINITION. Bundled updates (spec 12 R245 to R251; 14 R294 to R296): the instructions of BUND as the core
issues them, the record homes and the line homes.
-/
namespace Sys2Proof.Machine
open Sys2Proof

/-! ### At issue -/

/-- BOPEN (R246): a record line, and the bundle's and the retention's durations. -/
def execBopen (o : RRI) : State → Host.Outcome State Fault Refusal :=
  run (issueS false o.g { xs := o.a :: immRegs o.b, late := some o.d } (fun i =>
    let v := immValue o.b i.b
    i.one .write i.a 128 128 (fun _ p =>
      match duration (bits v 0 16), duration (bits v 16 16) with
      | some n, some r => i.request o.d (.bopen p i.a n r)
      | _, _ => i.result o.d (refusalWord Cause.durationZero))))

/-- An operation is a store under a bundle (R248). -/
def Dev.underBundle (d : Dev) (op : Nat) (h : Word) : Dev :=
  { d with outst := d.outst.map (fun o => if o.op = op then { o with bun := some h } else o) }

/-- A bundle store of bytes at one place (R247). -/
def In.bst (i : In) (h va : Word) (n v : Nat) : Out :=
  withHandle h (some 9) (fun _ =>
    i.one .write va n n (fun l p =>
      if !i.ordered false then .hold i.base
      else
        let k := onePiece va l p
        match { i with dev := i.samples [(k, [()])] i.dev }.post
          [(k, .bst h ((List.range n).map (fun j => ⟨p + j, 0xFF, byteOf v j⟩)))] .sys false false 0x2C 1 [] with
        | .ok d w => .ok (d.underBundle i.dev.nextOp h) w
        | o => o))

/-- BST of a dword. -/
def execBst (o : BstOp) : State → Host.Outcome State Fault Refusal :=
  run (issueS false o.g { xs := [o.a, o.b, o.c] } (fun i => i.bst i.a (i.b + o.off.signExtend 64) 8 i.c.toNat))
/-- BST of 16 to 128 bytes of a vector register of any tag but NONE (R295). -/
def execBstVector (o : BstVOp) : State → Host.Outcome State Fault Refusal :=
  run (issue false false o.g { xs := [o.a, o.b], vs := [o.v] }
    (fun t => if (t.regs.rv o.v).tag = .none then some Cause.formatTag else none) (fun i =>
      let n := 16 * 2 ^ o.size.code
      i.bst i.a (i.b + o.off.signExtend 64) n ((i.t.regs.rv o.v).bits.toNat % 2 ^ (8 * n))))

/-- BSEAL (R248). -/
def execBseal (o : RR) : State → Host.Outcome State Fault Refusal :=
  run (issueS false o.g { xs := [o.a], late := some o.d } (fun i =>
    withHandle i.a (some 9) (fun _ => i.request o.d (.bseal i.a))))

/-- BVIEW (R250): the view becomes the counter, or a stamp that is not later. -/
def execBview (o : RR) : State → Host.Outcome State Fault Refusal :=
  run (issueS false o.g { xs := [o.a], xd := some o.d } (fun i =>
    let v := if i.a = 0 then wd64 i.drip else i.a
    if i.drip < i.a.toNat then .trap Cause.operandRange none
    else .ok ((i.dev.updThr i.tid (fun t => { t with view := v })).putX i.tid o.d v) []))

/-- BLD (R250): always served at the home, under the thread's view. -/
def execBld (o : BldOp) : State → Host.Outcome State Fault Refusal :=
  run (issueS false o.g { xs := [o.a], late := some o.d, kd := [kpLo o.kp, kpHi o.kp] } (fun i =>
    let va := i.a + o.off.signExtend 64
    i.one .read va 8 8 (fun l p =>
      i.homeLoad (onePiece va l p) p 8 o.d (some o.kp) 0x2C 4 (.bld p o.d o.kp i.t.view.toNat))))

/-- BCHK (R251). -/
def execBchk (o : RRI) : State → Host.Outcome State Fault Refusal :=
  run (issueS false o.g { xs := o.a :: immRegs o.b, late := some o.d } (fun i =>
    let n := immValue o.b i.b
    i.one .read i.a 128 128 (fun _ p =>
      if 64 ≤ n.toNat then .trap Cause.operandRange none else i.request o.d (.bchk p n.toNat))))

/-! ### Records -/

/-- A bundle's record, by its lease's agent, index and generation. -/
def Dev.record (d : Dev) (r : AgentId × Nat × Nat) : Option (Lease × Bundle) :=
  match d.lease r.1 r.2.1 with
  | some l => if l.gen = r.2.2 then match l.payload with
      | .bundle b => some (l, b)
      | _ => none
    else none
  | none => none

/-- Put a record back. -/
def Dev.setRecord (d : Dev) (l : Lease) (b : Bundle) : Dev := d.setLease { l with payload := .bundle b }

/-- The record that a line keys. -/
def Dev.keyed (d : Dev) (line : Nat) : Option (Lease × Bundle) :=
  d.leases.findSome? (fun l => match l.payload with
    | .bundle b => if b.line = line then some (l, b) else none
    | _ => none)

/-- The home of a line, for agents of its own die. -/
def Dev.lineHome (d : Dev) (line : Nat) : AgentId := d.homeOf 0 line

/-- Put back a line's metadata. -/
def Dev.setBline (d : Dev) (b : BLine) : Dev :=
  { d with blines := b :: d.blines.filter (fun x => x.line != b.line) }

/-- A home that names a record no longer reports it (R251). -/
def Dev.report (d : Dev) (home : AgentId) (r : Option (AgentId × Nat × Nat)) : Dev :=
  match r with
  | none => d
  | some r =>
    if d.blines.any (fun b => d.lineHome b.line = home && (b.nb == some r || (match b.prev with
        | some p => p.1 == some r
        | none => false))) then d
    else d.send (.compReport home r.1 r.2.1 r.2.2)

/-- A line returns to the versions and metadata it held before its bundle's first store (R247). Loads that
waited for the bundle's stamp are judged anew. -/
def Dev.restoreLine (d : Dev) (line : Nat) : Dev :=
  match d.bline line with
  | none => d
  | some b =>
    let r := b.nb
    let d := match b.prev with
      | some (some nb, known) => d.setBline { b with nb := some nb, known := known, old := none, prev := none, asked := false }
      | _ => { d with blines := d.blines.filter (fun x => x.line != line) }
    let d := { d with msgs := d.msgs.map (fun (x : Msg) => match x.kind with
      | .acc a => if a.st = AccSt.bundle ∧ a.line = line then ⟨x.id, .acc { a with st := .accepted }⟩ else x
      | _ => x) }
    d.report (d.lineHome line) r

/-- A line's newest bundle is that of a record. -/
def Dev.names (d : Dev) (line : Nat) (r : AgentId × Nat × Nat) : Bool :=
  match d.bline line with
  | some b => b.nb == some r
  | none => false

/-- Abort a bundle (R247): every companion home drops the pending version. -/
def Dev.abortBundle (d : Dev) (l : Lease) (b : Bundle) : Dev :=
  let r := (l.agent, l.index, l.gen)
  let lines := (d.blines.filter (fun x => x.nb == some r)).map BLine.line
  lines.foldl (fun d x => d.restoreLine x) (d.setRecord l { b with st := .aborted })

/-- BUNDLE_OPEN_ARRIVAL (R246). -/
def execBundleOpenArrival (m : Nat) : State → Host.Outcome State Fault Refusal :=
  onReq m (fun drip _ d src q => match q with
    | .bopen line va n r =>
      let d := d.touch src.core line
      let home := d.homeOf (coreDie src.core) line
      if d.cutOff line then some (d.refuse src Cause.pathDown, [])
      else if d.outOfUse home then some (d.refuse src Cause.leaseLapsed, [])
      else match d.judgeRange drip src.ctx line with
      | some c => some (d.refuse src c, [])
      | none =>
        if (d.keyed line).isSome then some (d.refuse src Cause.allocExhausted, [])
        else match d.grantLease drip home .bundle (some src.ctx) src.tenant src.ctx (d.clock drip home.mod + n) none
            (.bundle ⟨line, va, r, .opened, [], []⟩) with
        | (d, some h) => some (d.reply src h, [])
        | (d, none) => some (d.refuse src Cause.allocExhausted, [])
    | _ => none)

/-! ### Stores under a bundle (R247) -/

/-- Change bytes of a line's version. -/
def patch (line : Nat) (l : List MByte) (v : BitVec 1024) : BitVec 1024 :=
  l.foldl (fun x b =>
    let o := 8 * (b.addr - line)
    (x &&& ~~~(BitVec.ofNat 1024 (b.mask.toNat <<< o))) ||| BitVec.ofNat 1024 ((b.val &&& b.mask).toNat <<< o)) v

/-- A refused bundle store dooms its bundle first; the refusal follows once the record home has recorded
it. -/
def Dev.doomFirst (d : Dev) (m : Nat) (a : Acc) (l : Lease) (cause : Nat) : Dev :=
  (d.drop m).send (.doom a.src l.agent l.index l.gen a cause)

/-- A bundle store may arrive: in its core's order, behind what has arrived at the line before it, and when no
copy of the line is left under a read lease (R123). -/
def Dev.bstTurn (d : Dev) (drip m : Nat) (a : Acc) : Bool :=
  a.st == .travelling && d.inOrder m a && !d.recallFirst drip a && !d.leased drip a.line
    && !d.msgs.any (fun x => x.id != m && x.kind.storeAt a.line)

/-- BUNDLE_STORE_ARRIVAL (R113, R247). -/
def execBundleStoreArrival (m : Nat) : State → Host.Outcome State Fault Refusal :=
  run (fun drip mem d => match d.msg m with
    | some (.acc a) =>
      match a.op with
      | .bst h bytes =>
        if !d.bstTurn drip m a then .eff d []
        else
          let d := d.touch a.src.core a.line
          let home := d.accHome a
          match d.named a.src h with
          | .error c => .eff (d.refuseAcc drip m a c 0 0) []
          | .ok l =>
            let no := fun c => Res.eff (d.doomFirst m a l c) []
            let rng := d.rangeOf a.line
            if d.cutOff a.line then no Cause.pathDown
            else if d.outOfUse home then no Cause.leaseLapsed
            else if rng.any (fun r => r.holder != some a.src.ctx) then no Cause.genMismatch
            else match d.verdict drip home a.live l, (match rng with
                | some r => d.verdict drip home a.live r
                | none => .live) with
            | .lapsed, _ => no Cause.leaseLapsed
            | _, .lapsed => no Cause.leaseLapsed
            | .ask, _ => .eff (d.consultFor drip m home a l) []
            | _, .ask => match rng with
              | some r => .eff (d.consultFor drip m home a r) []
              | none => .eff d []
            | .live, .live =>
              if l.holder ≠ some a.src.ctx then no Cause.notHolder
              else if (d.tagFault a false).isSome then no Cause.tagMismatch
              else if d.isExact a.line then no Cause.exactAccess
              else
                let d := d.holdLine drip mem a.line true []
                let me := (l.agent, l.index, l.gen)
                let t := d.clock drip home.mod
                let now : BitVec 1024 := BitVec.ofNat 1024 (mem.readN a.line 128)
                let fresh := fun (prev : Option (Option (AgentId × Nat × Nat) × Option Nat)) (oc : Nat) =>
                  Res.eff (((d.drop m).setBline ⟨a.line, some me, none, patch a.line bytes now, some (now, oc, none),
                    prev, false⟩).send (.join a.src l.agent l.index l.gen a.line a.va a)) []
                match d.bline a.line with
                | none => fresh none 0
                | some b =>
                  if b.nb = some me then
                    match b.known with
                    | none => .eff ((d.drop m).setBline { b with pending := patch a.line bytes b.pending }
                        |>.send (.ack a.src)) []
                    | some _ => .eff ((d.drop m).send (.ack a.src)) (d.homeWrite drip mem bytes)
                  else if b.nb.isSome ∧ b.known.isNone then
                    .eff ((d.askBundle home a.line).doomFirst m a l Cause.conflict) []
                  else if (b.held t).isSome then no Cause.conflict
                  else fresh (some (b.nb, b.known)) (b.known.getD 0)
      | _ => .eff d []
    | _ => .eff d [])

/-- JOIN (R247, R296): recorded in arrival order and acknowledged, or refused. -/
def execJoin (m : Nat) : State → Host.Outcome State Fault Refusal :=
  run (fun drip _ d => match d.msg m with
    | some (.join src ag ix g line va a) =>
      let d := d.drop m
      let home := d.lineHome line
      let no := fun (d : Dev) =>
        (if d.names line (ag, ix, g) then d.restoreLine line else d).refuseAcc drip m { a with src := src } Cause.conflict 0 0
      match d.record (ag, ix, g) with
      | none => .eff (no d) []
      | some (l, b) =>
        match b.st with
        | .sealed _ | .aborted => .eff (no d) []
        | _ =>
          if b.comps.any (fun p => p.1 = line) then .eff (d.send (.ack src)) []
          else if 64 ≤ b.comps.length ∨ (!b.naming.contains home ∧ 16 ≤ b.naming.length) then
            .eff (no (d.setRecord l { b with st := .doomed })) []
          else .eff ((d.setRecord l { b with
            comps := b.comps ++ [(line, va)]
            naming := if b.naming.contains home then b.naming else b.naming ++ [home] }).send (.ack src)) []
    | _ => .eff d [])

/-- DOOM (R247): the record home records it, and the refusal goes to the core. -/
def execDoom (m : Nat) : State → Host.Outcome State Fault Refusal :=
  run (fun drip _ d => match d.msg m with
    | some (.doom src ag ix g a cause) =>
      let d := match d.record (ag, ix, g) with
        | some (l, b) => if b.st = BunSt.opened then d.setRecord l { b with st := .doomed } else d
        | none => d
      .eff (d.refuseAcc drip m { a with src := src } cause 0 0) []
    | _ => .eff d [])

/-! ### Sealing (R248, R249) -/

/-- Every posted store that the thread issued before a request has its acknowledgement. -/
def Dev.acked (d : Dev) (src : From) : Bool :=
  !d.outst.any (fun o => o.tid = src.tid && !o.isL && o.op < src.op)

/-- Every store that the thread issued under a bundle before a request has its acknowledgement. -/
def Dev.bundleAcked (d : Dev) (src : From) (h : Word) : Bool :=
  !d.outst.any (fun o => o.tid = src.tid && o.bun == some h && o.op < src.op)

/-- SEAL_ARRIVAL (R248). -/
def execSealArrival (m : Nat) : State → Host.Outcome State Fault Refusal :=
  onReq m (fun drip _ d src q => match q with
    | .bseal h =>
      if !d.bundleAcked src h then none
      else some (match d.judged drip src h with
        | .error c => (d.refuse src c, [])
        | .ok l => match l.payload with
          | .bundle b =>
            match b.st with
            | .sealed c => (d.reply src (wd64 c), [])
            | .aborted => (d.refuse src Cause.conflict, [])
            | .doomed => ((d.abortBundle l b).refuse src Cause.conflict, [])
            | .opened =>
              let c := d.clock drip l.agent.mod + Config.epsilon + 1
              let d := d.setRecord l { b with st := .sealed c }
              ((b.naming.foldl (fun d hm => d.send (.sealNotice hm l.agent l.index l.gen c (c + b.retain))) d).reply src
                (wd64 c), [])
          | _ => (d.refuse src Cause.genMismatch, []))
    | _ => none)

/-- A line's home learns its bundle's commit stamp: the loads that waited are served, the pending version
becomes current, and the old one is held until RX, or discarded when RX has come (R248, R249). -/
def Dev.learnLine (d : Dev) (drip : Nat) (mem : Memory) (l : Lease) (c rx : Nat) (b : BLine) :
    Dev × List (Nat × Byte) :=
  let home := d.lineHome b.line
  let w := (List.range 128).map (fun k => (b.line + k, versionByte b.pending b.line (b.line + k)))
  let r := ((d.holdLine drip mem b.line true w).setBline { b with known := some c }).serveWaiting drip
    (mem.writeAll w) b.line
  let d := r.1
  let t := d.clock drip home.mod
  let was := match b.prev with
    | some p => p.1
    | none => none
  let d := d.setBline { b with
    known := some c
    asked := false
    prev := none
    old := match b.old with
      | some (o, oc, _) => if rx ≤ t then none else some (o, oc, some rx)
      | none => none }
  let d := if rx ≤ t then d
    else (d.grantLease drip home .retention l.holder l.tenant (l.holder.getD 0) rx none (.retention b.line)).1
  (d.report home was, w ++ r.2)

/-- The lines of a home that name a record as their newest bundle and do not know its stamp: companions, or those
whose join the record has not taken. -/
def Dev.unknownLines (d : Dev) (home : AgentId) (rec : AgentId × Nat × Nat) (joined : Bool) : List BLine :=
  d.blines.filter (fun b => b.nb == some rec && b.known.isNone && d.lineHome b.line == home
    && (match d.record rec with
      | some (_, k) => k.comps.any (fun p => p.1 = b.line) == joined
      | none => joined))

/-- A home learns a stamp for every companion line there. -/
def Dev.learn (d : Dev) (drip : Nat) (mem : Memory) (home : AgentId) (rec : AgentId × Nat × Nat) (c rx : Nat) :
    Dev × List (Nat × Byte) :=
  match d.record rec with
  | none => (d, [])
  | some (l, _) => (d.unknownLines home rec true).foldl (fun x b =>
      let r := x.1.learnLine drip mem l c rx b
      (r.1, x.2 ++ r.2)) (d, [])

/-- While a record gives a home no stamp for a line, its waiting loads take a version from before it (R249). -/
def Dev.serveBefore (d : Dev) (drip : Nat) (mem : Memory) (ls : List BLine) : Dev × List (Nat × Byte) :=
  ls.foldl (fun (x : Dev × List (Nat × Byte)) y =>
    let s := (x.1.setBline { y with known := some (2 ^ 64) }).serveWaiting drip mem y.line
    (s.1.setBline { y with asked := false }, x.2 ++ s.2)) (d, [])

/-- SEAL_NOTICE (R248). -/
def execSealNotice (m : Nat) : State → Host.Outcome State Fault Refusal :=
  run (fun drip mem d => match d.msg m with
    | some (.sealNotice home ag ix g c rx) =>
      let r := (d.drop m).learn drip mem home (ag, ix, g) c rx
      .eff r.1 r.2
    | _ => .eff d [])

/-- BUNDLE_CONSULTATION (R249, R275): the record answers; its companions learn the stamp, and where there is
none yet the waiting loads take a version from before it. -/
def execBundleConsultation (m : Nat) : State → Host.Outcome State Fault Refusal :=
  run (fun drip mem d => match d.msg m with
    | some (.bundleAsk home ag ix g) =>
      let d := d.drop m
      let rec' := (ag, ix, g)
      match d.record rec' with
      | some (_, b) =>
        match b.st with
        | .sealed c =>
          let r := d.learn drip mem home rec' c (c + b.retain)
          let s := r.1.serveBefore drip mem (r.1.unknownLines home rec' false)
          .eff s.1 (r.2 ++ s.2)
        | _ =>
          let r := d.serveBefore drip mem (d.unknownLines home rec' true ++ d.unknownLines home rec' false)
          .eff r.1 r.2
      | none => .eff d []
    | _ => .eff d [])

/-- COMPANION_CHECK_ARRIVAL (R251). -/
def execCompanionCheckArrival (m : Nat) : State → Host.Outcome State Fault Refusal :=
  onReq m (fun _ _ d src q => match q with
    | .bchk line i =>
      some (match d.keyed line with
        | none => (d.refuse src Cause.leaseLapsed, [])
        | some (l, b) =>
          if l.holder ≠ some src.ctx then (d.refuse src Cause.notHolder, [])
          else (d.reply src (match b.comps[i]? with
            | some p => wd64 (p.2.toNat % 2 ^ 51)
            | none => 0), []))
    | _ => none)

/-- COMPANION_REPORT (R251): the last one frees the record. -/
def execCompanionReport (m : Nat) : State → Host.Outcome State Fault Refusal :=
  run (fun _ _ d => match d.msg m with
    | some (.compReport home ag ix g) =>
      let d := d.drop m
      match d.record (ag, ix, g) with
      | some (l, b) =>
        let n := b.naming.filter (fun h => h != home)
        let past := match b.st with
          | .sealed _ | .aborted => true
          | _ => false
        .eff (if n.isEmpty && past then d.setLease { l with payload := .cap 0 } else d.setRecord l { b with naming := n }) []
      | none => .eff d []
    | _ => .eff d [])

end Sys2Proof.Machine
end

