-- ==== Sys2Proof/Machine/Gates.lean ====
section
/-!
DEFINITION. The answer of a consultation (spec 06 R112), the commit of a multi-line set (14 R298), the
services of the lantern (07 R148, R149), and allocation (06 R128; 07 R150).
-/
namespace Sys2Proof.Machine
open Sys2Proof

/-! ### Consultations -/

/-- An operation that waited for a root's answer is judged again; a root found live is live for it (R112). -/
def Dev.resumeAcc (d : Dev) (drip m : Nat) (a : Acc) (r : AgentId × Nat × Nat) (lapsed : Bool) : Dev :=
  match a.op with
  | .bst h _ =>
    if lapsed then
      match d.named a.src h with
      | .ok l => d.doomFirst m a l Cause.leaseLapsed
      | .error c => d.refuseAcc drip m a c 0 0
    else d.reMsg m (.acc { a with st := .travelling, live := r :: a.live })
  | _ =>
    if lapsed then d.refuseAcc drip m a Cause.leaseLapsed a.first.1 a.first.2
    else d.arriveAcc drip m { a with live := r :: a.live }

/-- CONSULTATION_ANSWER (R112): the copy is updated, and the waiting operation judged by the answer. -/
def execConsultationAnswer (m : Nat) : State → Host.Outcome State Fault Refusal :=
  run (fun drip _ d => match d.msg m with
    | some (.answer q home ag ix g lapsed e) =>
      let d := (d.drop m).setGuard ⟨home, ag, ix, g, if lapsed then none else some e⟩
      .eff (match d.msg q with
        | some (.acc a) => if a.st = .waiting then d.resumeAcc drip q a (ag, ix, g) lapsed else d
        | _ => d) []
    | _ => .eff d [])

/-! ### The multi-line set (R298) -/

/-- A line of a multi-line set may take the commit's stores: no read lease on it is left, and what arrived before
has performed (R123, R298). -/
def Dev.setLineFree (d : Dev) (drip line : Nat) : Bool :=
  !d.leased drip line && !d.msgs.any (fun x => x.kind.storeAt line)

/-- MCS_DECISION: the whole set, or nothing. The commit is a release: it waits for the stores before it and
for the loads of the set. -/
def execMcsDecision (m : Nat) : State → Host.Outcome State Fault Refusal :=
  run (fun drip mem d => match d.msg m with
    | some (.req src .mcs) =>
      match d.thr src.tid with
      | none => .eff (d.drop m) []
      | some t =>
        let owned := t.mcsLines.all (fun l => !d.msgs.any (fun x => match x.kind with
          | .acc a => a.src.tid == src.tid && a.line == l && (match a.op with
            | .mcsld .. => true
            | _ => false)
          | _ => false))
        if !d.released src || !owned || !t.mcsLines.all (d.setLineFree drip) then .eff d []
        else
          let d := (d.drop m).updThr src.tid Thread.emptySet
          let no := fun c => Res.eff (d.refuse src c) []
          if t.mcsLines = [] then no Cause.mcsBroken
          else match t.mcsBroken with
          | some c => no c
          | none =>
            if drip > t.mcsSince.getD drip + 4096 then no Cause.mcsTimeout
            else
              let w := t.mcsStaged.flatMap (fun p => bytesAt p.1 8 p.2.toNat)
              let d := t.mcsLines.foldl (fun d l =>
                (d.snoopSets src.tid l).holdLine drip mem l true (w.filter (fun p => lineOf p.1 == l))) d
              .eff (d.reply src 0) (w.filter (fun p => mem.read p.1 != p.2))
    | _ => .eff d [])

/-! ### Reads by the module's units, under their ranges' guards -/

/-- What reaching bytes by virtual address comes to, for a unit that acts for a context. -/
inductive Reach where
  | ok (places : List Nat)
  | refused (cause : Nat) (va : Word)
  | hole (place : Nat)
  /-- A line's home cannot serve it yet. -/
  | wait

/-- A line's bundle is sealed, and its home has not learnt it. -/
def Dev.sealComing (d : Dev) (line : Nat) : Bool :=
  match d.bline line with
  | some b => b.known.isNone && (match b.nb with
    | some r => match d.record r with
      | some (_, x) => match x.st with
        | .sealed _ => true
        | _ => false
      | none => false
    | none => false)
  | none => false

/-- A plain write meets a bundle whose seal the home does not know (R275). -/
def Dev.bundled (d : Dev) (line : Nat) : Bool :=
  match d.bline line with
  | some b => b.nb.isSome && b.known.isNone
  | none => false

/-- A line that a unit's read must wait for: an accepted store has not performed (R123), another agent may have
written it (R124), or its bundle's seal is on its way to its home (R249). -/
def Dev.busyLine (d : Dev) (drip line : Nat) : Bool :=
  d.heldAway drip line false || d.sealComing line || d.msgs.any (fun x => x.kind.storeAt line)

/-- A unit's write of a line may perform (R123). -/
def Dev.unitMayWrite (d : Dev) (drip line : Nat) : Bool :=
  !d.busyLine drip line && !d.heldAway drip line true && !d.leased drip line

/-- The place of an address under a context's tree, or the cause of the walk's fault. -/
def Dev.resolve (d : Dev) (mem : Memory) (ctx : Nat) (va : Word) (k : AccK) : Except Nat Nat :=
  if !formOk va then .error Cause.addressForm
  else match d.allocPlace ctx va with
  | some p => .ok p
  | none => match walkTree mem d.ctxtb d.modNo ctx va k with
    | .ok (l, large) => .ok (leafPlace l large va d.modNo)
    | .error c => .error c.1

/-- Reach every byte, judged as an access of the context (R113). -/
def Dev.reach (d : Dev) (drip : Nat) (mem : Memory) (ctx : Nat) (k : AccK) : List Word → Reach
  | [] => .ok []
  | va :: vs =>
    if (d.allocPlace ctx va).isNone && (walkLines mem d.ctxtb ctx va).any (d.busyLine drip) then .wait
    else match d.resolve mem ctx va k with
    | .error c => .refused c va
    | .ok p =>
      if !keyOk p then .hole p
      else if d.cutOff (lineOf p) then .refused Cause.pathDown va
      else if d.outOfUse (d.homeOf 0 (lineOf p)) then .refused Cause.leaseLapsed va
      else match d.judgeRange drip ctx p with
      | some c => .refused c va
      | none =>
        if d.isExact (lineOf p) then .refused Cause.exactAccess va
        else if k = .write && d.bundled (lineOf p) then .refused Cause.conflict va
        else if d.busyLine drip (lineOf p) then .wait
        else if k = .read && d.poisoned p then .refused Cause.dramUncorrectable va
        else match d.reach drip mem ctx k vs with
        | .ok l => .ok (p :: l)
        | r => r

/-- Addresses of `n` bytes from `va`. -/
def span (va : Word) (n : Nat) : List Word := (List.range n).map (fun k => va + wd64 k)

/-- Bytes at places, little-endian, as a natural. -/
def gather (f : Nat → Byte) (l : List Nat) : Nat := l.foldr (fun p n => (f p).toNat + 256 * n) 0

/-- A step of a request that may meet a place where the spec puts nothing. -/
def onReqR (m : Nat) (f : Nat → Memory → Dev → From → Req → Option Res) :
    State → Host.Outcome State Fault Refusal :=
  run (fun drip mem d => match d.msg m with
    | some (.req src q) => (f drip mem (d.drop m) src q).getD (.eff d [])
    | _ => .eff d [])

/-- The record of a request: `n` bytes at `va`. A refused read is an error reply (R84). -/
def Dev.recordAt (d : Dev) (drip : Nat) (mem : Memory) (src : From) (va : Word) (n : Nat) (f : Nat → Res) :
    Option Res :=
  match d.reach drip mem src.ctx .read (span va n) with
  | .wait => none
  | .hole p => some (.fault (.hole p))
  | .refused c a => some (.eff (d.send (.error src c a 0 none)) [])
  | .ok l => some (f (gather (d.unitByte drip mem) l))

/-! ### Contexts and tenants (17 R334, R342) -/

/-- Dword `k` of a context's table entry. -/
def Dev.ctxWord (d : Dev) (mem : Memory) (ctx k : Nat) : Word := mem.read64 (ctxEntry d.ctxtb ctx + 8 * k)

/-- The tenant of a context, as its entry says. -/
def Dev.ctxTenant (d : Dev) (mem : Memory) (ctx : Nat) : Nat := bits (d.ctxWord mem ctx 1) 0 8

/-- The address of a tenant-table entry (R342). -/
def tenEntry (tentb : Word) (t : Nat) : Nat := apKey 0 ((tentb.toNat + 512 * t) % 2 ^ 52)

/-- Dword `k` of a tenant's entry. -/
def Dev.tenWord (d : Dev) (mem : Memory) (t k : Nat) : Word := mem.read64 (tenEntry d.tentb t + 8 * k)

/-- A context's live lease (R149, R374). -/
def Dev.ctxLease (d : Dev) (drip ctx : Nat) : Option Lease :=
  d.leases.find? (fun l => l.holder == some ctx && !d.lapsed drip l && (match l.payload with
    | .context .. => true
    | _ => false))

/-- A tenant's live anchor. -/
def Dev.anchorOf (d : Dev) (drip tenant : Nat) : Option Lease :=
  d.leases.find? (fun l => match l.payload with
    | .anchor t _ _ => t = tenant && !d.lapsed drip l
    | _ => false)

/-- The handle of a lease in a tenant's map. -/
def Dev.handleOf (d : Dev) (tenant ctx : Nat) (l : Lease) : Dev × Word :=
  match d.agentNo tenant ctx l.agent with
  | (d, some n) => (d, mkHandle l.kind.code n l.index l.gen)
  | (d, none) => (d, 0)

/-- The thread's slot, for a record. -/
def Dev.slotOf (d : Dev) (tid : Nat) : Nat :=
  match d.thr tid with
  | some t => t.coreSlot.2
  | none => 0

/-! ### Free memory -/

/-- Bytes `[a, b)` of two ranges meet. -/
def meets (a n b m : Nat) : Bool := a < b + m && b < a + n

/-- Nothing live holds the `n` bytes at `p`: no range, no command window, no exact line. -/
def Dev.unheld (d : Dev) (drip p n : Nat) : Bool :=
  !d.leases.any (fun l => match l.payload with
    | .range b m _ => !d.lapsed drip l && meets p n b m
    | .anchor _ w _ => !d.lapsed drip l && meets p n w 36864
    | _ => false)
  && !d.exactLines.any (fun x => meets p n x 128)

/-- A range of `n` bytes may start at `p` for slices that `ok` admits: whole in one die's DRAM. -/
def Dev.mayStart (d : Dev) (drip n : Nat) (ok : AgentId → Bool) (p : Nat) : Bool :=
  let o := keyPhys p
  p % 128 = 0 && isDram o && o % 2 ^ 37 + n ≤ dieBytes && d.unheld drip p n
  && ok ⟨if keyAp p = 0 then d.modNo else keyAp p - 1, o / 2 ^ 37, 0, sliceOf o⟩

/-- Places where free space may begin in an aperture: each die, and the end of what is held; from each, the
first lines of every slice. -/
def Dev.starts (d : Dev) (ap : Nat) : List Nat :=
  let ends := d.leases.filterMap (fun l => match l.payload with
    | .range b m _ => if keyAp b = ap then some ((b + m + 127) / 128 * 128) else none
    | .anchor _ w _ => if keyAp w = ap then some (w + 36864) else none
    | _ => none)
  ((List.range 4).map (fun k => apKey ap (k * 2 ^ 37)) ++ ends ++ d.exactLines.map (· + 128)).flatMap
    (fun p => (List.range 1024).map (fun j => p + 128 * j))

/-- The place of a range (the model's own choice, notes/assumptions/15.md): the free value's, where it may
start, else the lowest start found. -/
def Dev.pickPlace (d : Dev) (drip n ap : Nat) (ok : AgentId → Bool) : Option Nat :=
  let h := apKey ap (Config.allocPlace d.fresh % 2 ^ 52)
  if d.mayStart drip n ok h then some h
  else (d.starts ap).foldl (fun b p =>
    if d.mayStart drip n ok p && (match b with
      | some q => p < q
      | none => true) then some p else b) none

/-- Where a granted range is mapped in its holder's context. -/
def mapBase (p : Nat) : Word := wd64 (2 ^ 48 + keyAp p % 256 * 2 ^ 39 + keyPhys p)

/-- Grant a range of `n` bytes at `p` to a requester: mapped in its context, its tags 0 (R150, R299). With
no duration it is tethered to the context's lease. -/
def Dev.grantRange (d : Dev) (drip : Nat) (src : From) (p n : Nat) (dur : Option Nat) (ctxl : Option Lease) :
    Dev × Option Word :=
  let o := keyPhys p
  let home : AgentId := ⟨if keyAp p = 0 then d.modNo else keyAp p - 1, o / 2 ^ 37, 0, sliceOf o⟩
  let d := { d.tickFresh with tags := d.tags.filter (fun x => !(p ≤ x.1 && x.1 < p + n)) }
  d.grantLease drip home .range (some src.ctx) src.tenant src.ctx
    (match dur with
      | some k => d.clock drip home.mod + k
      | none => 0)
    (match dur with
      | some _ => none
      | none => ctxl.map (fun l => (l.agent, l.index, l.gen)))
    (.range p n (mapBase p))

/-! ### Services of GATE (R148, R149) -/

/-- A service request at the lantern: the capability by R107, then the code, then the mask. A code that is
no service is refused by whichever service step meets it. -/
def gateStep (n m : Nat) (f : Nat → Memory → Dev → From → BitVec 16 → Word → Option Res) :
    State → Host.Outcome State Fault Refusal :=
  onReqR m (fun drip mem d src q => match q with
    | .gate h code arg =>
      match d.judged drip src h with
      | .error c => some (.eff (d.refuse src c) [])
      | .ok l =>
        if code = 0 ∨ 8 < code then some (.eff (d.refuse src Cause.gateService) [])
        else match l.payload with
        | .cap mask =>
          if code ≠ n then none
          else if !bit mask code then some (.eff (d.refuse src Cause.gateDenied) [])
          else f drip mem d src mask arg
        | _ => some (.eff (d.refuse src Cause.genMismatch) [])
    | _ => none)

/-- A refusal, as a result. -/
def Dev.no (d : Dev) (src : From) (c : Nat) : Res := .eff (d.refuse src c) []

/-- EXACT: a range over exact lines of the requester's die, every element +0 (R292). The causes of an argument
outside 1 to 64 and of a context without a live lease are the model's. DESIGN CHOICE, unsafe (log 97). -/
def execExact (m : Nat) : State → Host.Outcome State Fault Refusal :=
  gateStep 1 m (fun drip _ d src _ arg =>
    some (
      let die := coreDie src.core
      let n := arg.toNat
      if n = 0 ∨ 64 < n then d.no src Cause.operandRange
      else if 4096 < (d.exactLines.filter (fun l => keyPhys l / 2 ^ 37 = die && keyAp l = 0)).length + n then
        d.no src Cause.allocExhausted
      else match d.ctxLease drip src.ctx, d.pickPlace drip (128 * n) 0 (fun a => a.die == die) with
        | some l, some p =>
          match d.grantRange drip src p (128 * n) none (some l) with
          | (d, some h) => .eff ({ d with
              exactLines := d.exactLines ++ (List.range n).map (fun j => p + 128 * j)
              exactEls := d.exactEls.filter (fun x => !(p ≤ x.1 && x.1 < p + 128 * n)) }.reply src h) []
          | (d, none) => d.no src Cause.allocExhausted
        | _, _ => d.no src Cause.allocExhausted))

/-- HEAT (R339): the requester's counter for the region, which is cleared. -/
def execHeat (m : Nat) : State → Host.Outcome State Fault Refusal :=
  gateStep 2 m (fun _ _ d src _ arg =>
    some (
      let mine := fun (h : Heat) => h.ctx == src.ctx && h.region == bits arg 23 28
      let n := match d.heats.find? mine with
        | some h => h.count
        | none => 0
      .eff ({ d with heats := d.heats.filter (fun h => !mine h) }.reply src (wd64 n)) []))

/-- LOG: a software record; its cause code is not stated. -/
def execLog (m : Nat) : State → Host.Outcome State Fault Refusal :=
  gateStep 3 m (fun _ _ d src _ arg =>
    some (
      .eff ((d.tickFresh.fileLog (coreDie src.core) src.tenant ((Config.freeWord d.fresh).toNat % 1024) 6 arg
        src.core (d.slotOf src.tid)).reply src 0) []))

/-- ROOT: the requester's context lease is renewed by R108. The cause where the context holds no live lease is
the model's. DESIGN CHOICE, unsafe (log 97). -/
def execRoot (m : Nat) : State → Host.Outcome State Fault Refusal :=
  gateStep 4 m (fun drip _ d src _ arg =>
    some (
      match duration (bits arg 0 16), d.ctxLease drip src.ctx with
      | none, _ => d.no src Cause.durationZero
      | some _, none => d.no src Cause.leaseLapsed
      | some n, some l =>
        let r := d.renewRoot drip l n
        .eff (r.1.answer src r.2) []))

/-- TIME: the lantern's counter. -/
def execTime (m : Nat) : State → Host.Outcome State Fault Refusal :=
  gateStep 5 m (fun drip _ d src _ _ =>
    some (
      .eff (d.reply src (wd64 drip)) []))

/-- Writes that leave `n` bytes at `p` zero. -/
def zeroed (mem : Memory) (p n : Nat) : List (Nat × Byte) :=
  (mem.cells.filter (fun c => p ≤ c.1 && c.1 < p + n)).map (fun c => (c.1, 0))

/-- A ring's size word within its limits (Table 17-8). -/
def ringOk (w : Word) (lost : Bool) : Bool :=
  4 ≤ bits w 0 5 && bits w 0 5 ≤ 16 && bits w 5 27 = 0 && (lost || bits w 32 32 = 0)

/-- TENANT: a tenant's anchor, and its windows zeroed. -/
def execTenant (m : Nat) : State → Host.Outcome State Fault Refusal :=
  gateStep 6 m (fun drip mem d src _ arg =>
    d.recordAt drip mem src arg 32 (fun r =>
      let tid := fld r 0 64
      let win := fld r 64 64
      let per := fld r 128 64
      match duration per with
      | none => d.no src Cause.operandRange
      | some n =>
        if 256 ≤ tid ∨ 65536 ≤ per ∨ fld r 192 64 ≠ 0 ∨ win % 32768 ≠ 0 ∨ 2 ^ 52 ≤ win ∨ !isDram win
            ∨ !isDram (win + 36863) ∨ (d.anchorOf drip tid).isSome
            ∨ !ringOk (d.tenWord mem tid 1) false ∨ !ringOk (d.tenWord mem tid 3) true then
          d.no src Cause.operandRange
        else
          let w := apKey 0 win
          match d.grantLease drip d.cmdUnit .context none tid 1 (drip + n) none (.anchor tid w per) with
          | (d, some h) => .eff (d.reply src h) (zeroed mem w 36864 ++ bytesAt (w + 16) 8 per)
          | (d, none) => d.no src Cause.allocExhausted))

/-- CONTEXT: a context's lease, tethered to its tenant's anchor. An ALLOW above R126's range is used as it stands.
DESIGN CHOICE, unsafe (log 98). -/
def execContext (m : Nat) : State → Host.Outcome State Fault Refusal :=
  gateStep 7 m (fun drip mem d src _ arg =>
    d.recordAt drip mem src arg 32 (fun r =>
      let c := fld r 0 64
      let anch := wd64 (fld r 64 64)
      let t := d.ctxTenant mem c
      if 65536 ≤ c ∨ fld r 128 128 ≠ 0 ∨ !bit (d.ctxWord mem c 0) 0 ∨ (d.ctxLease drip c).isSome
          ∨ d.ctxWord mem c 3 ≠ anch then d.no src Cause.operandRange
      else match d.anchorOf drip t with
      | none => d.no src Cause.operandRange
      | some a =>
        let p := d.handleOf t 1 a
        if p.2 ≠ anch then d.no src Cause.operandRange
        else match p.1.grantLease drip d.lantern .context (some c) t c 0 (some (a.agent, a.index, a.gen))
            (.context t (d.ctxWord mem c 2).toNat) with
        | (d, some h) => .eff (d.reply src h) []
        | (d, none) => d.no src Cause.allocExhausted))

/-- GRANT: a capability with no right that the issuing one lacks. -/
def execGrant (m : Nat) : State → Host.Outcome State Fault Refusal :=
  gateStep 8 m (fun drip mem d src mask arg =>
    d.recordAt drip mem src arg 32 (fun r =>
      let want := fld r 0 64
      let c := fld r 64 64
      let dur := fld r 128 64
      if 65536 ≤ want ∨ 65536 ≤ c ∨ 65536 ≤ dur ∨ fld r 192 64 ≠ 0 ∨ (dur ≠ 0 ∧ (duration dur).isNone) then
        d.no src Cause.operandRange
      else if want &&& mask.toNat ≠ want then d.no src Cause.gateDenied
      else
        let t := d.ctxTenant mem c
        let grant := fun (e : Nat) (p : Option (AgentId × Nat × Nat)) =>
          match d.grantLease drip d.lantern .cap (some c) t c e p (.cap (BitVec.ofNat 16 want)) with
          | (d, some h) => Res.eff (d.reply src h) []
          | (d, none) => d.no src Cause.allocExhausted
        match duration dur, d.ctxLease drip c with
        | some n, _ => grant (drip + n) none
        | none, some l => grant 0 (some (l.agent, l.index, l.gen))
        | none, none => d.no src Cause.operandRange))

/-! ### Allocation (R128, R150) -/

/-- What an ALLOC request asks for (Table 7-8): the aperture, and the homes it accepts. -/
def Dev.placement (d : Dev) (req : Word) (die : Nat) : Nat × (AgentId → Bool) :=
  let named := fun (a : AgentId) => a.die == bits req 17 2 && a.unit == bits req 19 5
  match bits req 15 2 with
  | 0 => (0, fun _ => true)
  | 1 => (0, fun a => a.die == die)
  | 2 => (0, named)
  | _ => (if bits req 24 8 = d.modNo then 0 else bits req 24 8 + 1, named)

/-- A request within the limits of Table 7-8. -/
def Dev.allocOk (d : Dev) (drip : Nat) (src : From) (req dur : Word) : Bool :=
  bits req 32 32 = 0 && bits req 7 8 = 0 && 7 ≤ bits req 0 6 && bits req 0 6 ≤ 36
  && bits dur 16 48 = 0 && (dur = 0 || (duration dur.toNat).isSome)
  && !(bits req 15 2 = 3 && !d.members.contains (bits req 24 8))
  && (dur ≠ 0 || (d.ctxLease drip src.ctx).isSome)

/-- End an ALLOC: BASE at the record, and the reply with LSTAT. -/
def Dev.allocReply (d : Dev) (drip : Nat) (mem : Memory) (src : From) (rec cause : Nat) (h base : Word) :
    Dev × List (Nat × Byte) :=
  let w := bytesAt (rec + 24) 8 base.toNat
  ((d.holdLine drip mem (lineOf rec) true w).send (.reply src h false (some cause)), w)

/-- Bytes of memory that a tenant's live ranges hold. -/
def Dev.memoryOf (d : Dev) (drip tenant : Nat) : Nat :=
  d.leases.foldl (fun n l => match l.payload with
    | .range _ m _ => if l.tenant = tenant && !d.lapsed drip l then n + m else n
    | _ => n) 0

/-- A range of `n` bytes would exceed the tenant's quota (Table 6-8). DESIGN CHOICE: where a quota is declared
(log 94). -/
def Dev.overQuota (d : Dev) (drip tenant n : Nat) : Bool :=
  match find? tenant d.quotas with
  | some q => q < d.memoryOf drip tenant + n
  | none => false

/-- Grant an ALLOC, if it can be met. -/
def Dev.tryAlloc (d : Dev) (drip : Nat) (mem : Memory) (src : From) (rec : Nat) (req dur : Word) :
    Option (Dev × List (Nat × Byte)) :=
  let n := 2 ^ bits req 0 6
  let pl := d.placement req (coreDie src.core)
  let cl := d.ctxLease drip src.ctx
  if (dur = 0 ∧ cl.isNone) ∨ d.overQuota drip src.tenant n then none
  else match d.pickPlace drip n pl.1 pl.2 with
  | none => none
  | some p => match d.grantRange drip src p n (duration dur.toNat) cl with
    | (d, some h) => some (d.allocReply drip mem src rec 0 h (mapBase p))
    | (_, none) => none

/-- Why an ALLOC cannot be met (Table 6-7). -/
def Dev.allocCause (d : Dev) (drip : Nat) (src : From) (req : Word) : Nat :=
  if d.overQuota drip src.tenant (2 ^ bits req 0 6) then Cause.allocQuota else Cause.allocExhausted

/-- ALLOC_REQUEST_ARRIVAL (R150): granted, refused at once, or kept to its deadline. A refused read of the record
is the trap of R84, whose EVAL is xa. -/
def execAllocRequestArrival (m : Nat) : State → Host.Outcome State Fault Refusal :=
  onReq m (fun drip mem d src q => match q with
    | .alloc rec va =>
      let line := lineOf rec
      let no := fun c => some (d.send (.error src c va 0 none), [])
      if d.cutOff line then no Cause.pathDown
      else if d.outOfUse (d.homeOf (coreDie src.core) line) then no Cause.leaseLapsed
      else match d.judgeRange drip src.ctx rec with
      | some c => no c
      | none =>
        if d.isExact line then no Cause.exactAccess
        else if !d.unitMayWrite drip line then none
        else
          let s := d.scrub mem line
          let d := s.1
          if d.poisoned rec then some (d.send (.error src Cause.dramUncorrectable va 0 none), s.2)
          else
            let w := fun k => wd64 (gather (d.unitByte drip mem) ((List.range 8).map (rec + 8 * k + ·)))
            let out := fun (r : Dev × List (Nat × Byte)) => some (r.1, s.2 ++ r.2)
            let late := (d.allocCause drip src (w 0))
            if !d.allocOk drip src (w 0) (w 2) then out (d.allocReply drip mem src rec Cause.allocExhausted 0 0)
            else match d.tryAlloc drip mem src rec (w 0) (w 2) with
            | some r => out r
            | none =>
              if bit (w 0) 6 ∧ drip < (w 1).toNat then
                out ({ d with allocs := d.allocs ++ [⟨m, src, rec, va, w 0, w 2, (w 1).toNat⟩] }, [])
              else out (d.allocReply drip mem src rec late 0 0)
    | _ => none)

/-- ALLOC_GRANT (R128): the earliest waiting request that can be met. -/
def execAllocGrant (m : Nat) : State → Host.Outcome State Fault Refusal :=
  run (fun drip mem d =>
    let met := fun (w : AllocWait) => d.tryAlloc drip mem w.src w.record w.req w.dur
    match d.allocs.find? (fun w => (met w).isSome) with
    | some w =>
      if w.id ≠ m ∨ w.deadline ≤ drip ∨ !d.unitMayWrite drip (lineOf w.record) then .eff d []
      else match met w with
      | some r => .eff { r.1 with allocs := r.1.allocs.filter (fun x => x.id != m) } r.2
      | none => .eff d []
    | none => .eff d [])

/-- ALLOC_DEADLINE (R128). -/
def execAllocDeadline (m : Nat) : State → Host.Outcome State Fault Refusal :=
  run (fun drip mem d => match d.allocs.find? (fun w => w.id = m) with
    | some w =>
      if w.deadline ≤ drip && d.unitMayWrite drip (lineOf w.record) then
        let r := { d with allocs := d.allocs.filter (fun x => x.id != m) }.allocReply drip mem w.src w.record
          Cause.allocDeadline 0 0
        .eff r.1 r.2
      else .eff d []
    | none => .eff d [])

end Sys2Proof.Machine
end

