-- ==== Sys2Proof/Machine/Faults.lean ====
section
/-!
DEFINITION. Walks, fault records and wakes (spec 17 R336 to R345), the instructions of SYS (R338, R345, R350,
R351, R354), slot images (R352), and containment (R355 to R357).
-/
namespace Sys2Proof.Machine
open Sys2Proof

/-! ### Walks (R336, R337, R344) -/

/-- A fault meets its requester: it joins a waiting record of the same key and cause, or a new one is filed
(R337). -/
def Dev.parkOn (d : Dev) (mem : Memory) (die ctx tenant cause level orig acc : Nat) (va : Word) (core slot : Nat) (w : Waiter) :
    Dev × Nat :=
  match d.faults.find? (fun f => f.waits && f.die == die && f.ctx == ctx && f.cause == cause
      && samePage mem d.ctxtb ctx f.addr va) with
  | some f =>
    ({ d with faults := d.faults.map (fun (x : FaultRec) => if x.rid = f.rid then
        { x with
          waiters := x.waiters ++ [w]
          count := if x.written then x.count else min (x.count + 1) 0xFFFF } else x) }, f.rid)
  | none => d.fileFault die ctx tenant cause level orig acc va core slot [w] true

/-- A core's translation cache takes a leaf (R337). -/
def Core.keepLeaf (c : Core) (ctx : Nat) (va l : Word) (large : Bool) : Core :=
  { c with tlb := (⟨ctx, if large then bits va 16 35 / 32 * 32 else bits va 16 35, large, l⟩ ::
      c.tlb.filter (fun e => !e.covers ctx va)).take 256 }

/-- A walk ends for one of its joiners: its core keeps the leaf, or the joiner parks at its head (R344). -/
def Dev.joinerEnd (d : Dev) (mem : Memory) (w : Walk) : Waiter → Dev
  | .thread tid acc pc va =>
    match d.thr tid with
    | none => d
    | some t =>
      let cs := t.coreSlot
      match walkTree mem d.ctxtb d.modNo w.ctx va (AccK.ofCode acc) with
      | .ok (l, large) => d.setCore cs.1 ((d.core cs.1).keepLeaf w.ctx va l large)
      | .error (cause, level) =>
        if t.pc ≠ pc ∨ t.wst ≠ .ready ∨ t.exited ∨ t.traps ≠ [] then d
        else
          let p := d.parkOn mem w.die w.ctx t.tenant cause level 0 acc va cs.1 cs.2 (.thread tid acc pc va)
          p.1.updThr tid (fun t => { t with wst := .parked p.2 })
  | .engine .. => d

/-- WALK_END: every joiner receives the outcome at once, by its own access kind; a walk that a TLBI met
leaves nothing, and its joiners walk again (R338). It waits where a load of an entry would (R123, R333). -/
def execWalkEnd (w : Nat) : State → Host.Outcome State Fault Refusal :=
  run (fun drip mem d => match d.walks.find? (fun x => x.id = w) with
    | none => .eff d []
    | some x =>
      if (walkLines mem d.ctxtb x.ctx x.va).any (d.busyLine drip) then .eff d []
      else
      let d := { d with walks := d.walks.filter (fun y => y.id != w) }
      .eff (if x.stale then d else x.joiners.foldl (fun d j => d.joinerEnd mem x j) d) [])

/-! ### Fault records (R343) -/

/-- A record's four dwords (Table 17-9). -/
def FaultRec.words (f : FaultRec) (modNo : Nat) : List Nat :=
  [2 ^ 63 + f.level * 2 ^ 48 + f.tenant * 2 ^ 40 + f.orig * 2 ^ 36 + min f.count 0xFFFF * 2 ^ 20 + f.acc * 2 ^ 16
      + f.cause,
    f.addr.toNat, modNo * 2 ^ 24 + f.slot * 2 ^ 12 + f.core, f.rid]

/-- Signal an MSI-X vector (R368). -/
def Dev.signal (d : Dev) (v : Nat) : Dev := { d with vectors := v :: d.vectors }

/-- The ring a record goes to: its base, its number of records, and its next place. -/
def Dev.ring (d : Dev) (mem : Memory) (f : FaultRec) : Nat × Nat × Nat :=
  let k := if f.log then 2 else 0
  let n := 2 ^ bits (d.tenWord mem f.tenant (k + 1)) 0 5
  (apKey 0 ((d.tenWord mem f.tenant k).toNat % 2 ^ 52), n, look 0 f.tenant (if f.log then d.flNext else d.fqNext) % n)

/-- The record has been written, or dropped: it stays while requesters wait on it. -/
def Dev.recordDone (d : Dev) (f : FaultRec) : Dev :=
  { d with faults := d.faults.filterMap (fun (x : FaultRec) =>
      if x.rid ≠ f.rid then some x else if x.waits then some { x with written := true } else none) }

/-- FAULT_RECORD_WRITE: the oldest record of the die, of those that can be written now; a tenant's records are written
in the order in which the module filed them. A queue record waits for its slot of the ring; a log record that meets
a written one is dropped and counted. -/
def execFaultRecordWrite (die : Nat) : State → Host.Outcome State Fault Refusal :=
  run (fun drip mem d =>
    let mine := d.faults.filter (fun f => f.die == die && !f.written)
    let free := fun (f : FaultRec) =>
      let r := d.ring mem f
      !bit (mem.read64 (r.1 + 32 * r.2.2)) 63
    let first := fun (f : FaultRec) =>
      !(d.faults.takeWhile (fun g => g.rid != f.rid)).any (fun g => !g.written && g.tenant == f.tenant && g.log == f.log)
    match mine.find? (fun f => first f && (f.log || free f)) with
    | none => .eff d []
    | some f =>
      let r := d.ring mem f
      let at' := r.1 + 32 * r.2.2
      if !d.unitMayWrite drip (lineOf at') then .eff d []
      else if free f then
        let d := (d.recordDone f).signal (4 * f.tenant + b2n f.log)
        let next := (r.2.2 + 1) % r.2.1
        .eff (if f.log then { d with flNext := put f.tenant next d.flNext }
          else { d with fqNext := put f.tenant next d.fqNext })
          ((f.words d.modNo).zipIdx.flatMap (fun p => bytesAt (at' + 8 * p.2) 8 p.1))
      else
        let ctl := (d.tenWord mem f.tenant 3).toNat
        .eff (d.recordDone f) (bytesAt (tenEntry d.tentb f.tenant + 28) 4 (min (ctl / 2 ^ 32 + 1) 0xFFFFFFFF)))

/-! ### Tenants' rectangles (R324, R342) -/

/-- A tenant's entry as admissions and router checks see it: 52 dwords. -/
def Dev.tenRow (d : Dev) (mem : Memory) (t : Nat) : List Word :=
  (find? t d.tenCache).getD ((List.range 52).map (d.tenWord mem t))

/-- Keep the entry until a TLBI. -/
def Dev.readTen (d : Dev) (mem : Memory) (t : Nat) : Dev :=
  if (find? t d.tenCache).isSome then d else { d with tenCache := put t (d.tenRow mem t) d.tenCache }

/-- The word at an offset of an entry. -/
def rowWord (row : List Word) (off : Nat) : Nat := bits (row.getD (off / 8) 0) (off % 8 * 8) 32

/-- The tenant's rectangles hold a cluster (Table 17-8). -/
def rowHolds (row : List Word) (clus : Nat) : Bool :=
  let r := clus % 32 / 8
  let c := clus % 8
  (List.range 8).any (fun i =>
    let w := rowWord row (32 + 32 * (clus / 32) + 4 * i)
    fld w 31 1 = 1 && fld w 6 2 ≤ r && r ≤ fld w 8 2 && fld w 0 3 ≤ c && c ≤ fld w 3 3)

/-- The tenant holds a cluster. -/
def Dev.holds (d : Dev) (mem : Memory) (t clus : Nat) : Bool := rowHolds (d.tenRow mem t) clus

/-- A cluster is of a partition that stops, or has stopped (R354). -/
def Dev.haltedAt (d : Dev) (drip : Nat) (mem : Memory) (clus : Nat) : Bool :=
  d.stops.any (fun s => (s.reached || decide (s.at' ≤ drip)) && d.holds mem s.tenant clus)

/-- The tenant that a cluster serves. -/
def Dev.serves (d : Dev) (mem : Memory) (clus : Nat) : Option Nat :=
  (List.range 256).find? (fun t => d.holds mem t clus)

/-! ### Wakes (R344, R345) -/

/-- Change every command of every engine. -/
def Dev.mapCmds (d : Dev) (f : EEntry → EEntry) : Dev :=
  { d with clusters := d.clusters.map (fun p =>
      (p.1, { p.2 with
        eng0 := ⟨p.2.eng0.cmds.map f⟩
        eng1 := ⟨p.2.eng1.cmds.map f⟩ })) }

/-- Wake the requesters of a record, or fail them with a cause (R345); false when it is not waiting. A
thread that is swapped out or stopped keeps the wake in its state, and its block's park budget starts again in
the next drip (R325). -/
def Dev.wakeRecord (d : Dev) (drip rid : Nat) (fail : Option Nat) : Dev × Bool :=
  match d.faults.find? (fun f => f.rid = rid && f.waits) with
  | none => (d, false)
  | some f =>
    let cause := fail.getD f.cause
    let d := d.mapCmds (fun (e : EEntry) =>
      if e.stop = some rid then
        { e with
          stop := none
          fail := if fail.isSome then some cause else e.fail }
      else e)
    let hit := d.threads.filterMap (fun p => if p.2.wst = Wst.parked rid then some p.2.blk else none)
    let d := { d with blocks := d.blocks.map (fun (p : Nat × Block) =>
      if hit.contains p.1 then (p.1, { p.2 with parkSince := some (drip + 1) }) else p) }
    let d := { d with threads := d.threads.map (fun (p : Nat × Thread) =>
      if p.2.wst = Wst.parked rid then
        (p.1, { p.2 with
          wst := .ready
          traps := if fail.isNone then p.2.traps else ⟨cause, (f.waiters.findSome? (fun (w : Waiter) => match w with
            | Waiter.thread tid _ _ va => if tid = p.1 then some va else none
            | .engine .. => none)).getD f.addr⟩ :: p.2.traps })
      else p) }
    ({ d with faults := d.faults.filterMap (fun (x : FaultRec) =>
        if x.rid ≠ rid then some x
        else if x.written then none
        else some { x with
          waits := false
          waiters := [] }) }, true)

/-- WAKE.slot (Table 17-10): a stopped slot leaves the stop, a halted or sleeping one becomes ready. -/
def Dev.wakeSlot (d : Dev) (core slot : Nat) : Option Dev :=
  match d.slotTid core slot with
  | none => none
  | some tid => match d.thr tid with
    | none => none
    | some t =>
      if t.exited then none
      else if t.stopped then some (d.setThr tid { t with stopped := false })
      else match t.wst with
      | .halted | .doze _ => some (d.setThr tid { t with wst := .ready })
      | _ => none

/-- WAKE.stop: the slot stops in whatever state it is. -/
def Dev.stopSlot (d : Dev) (core slot : Nat) : Option Dev :=
  match d.slotTid core slot with
  | none => none
  | some tid => match d.thr tid with
    | none => none
    | some t => if t.exited || t.stopped || t.wst = .halted then none else some (d.setThr tid { t with stopped := true })

/-- The router of a core delivers a message: the sender's tenant is in its bitmap, which is that of the tenant
whose rectangles hold the core (R324). Context 0 belongs to no tenant (R374), and its messages are delivered.
DEDUCED, unsafe (log 65). -/
def Dev.routes (d : Dev) (mem : Memory) (src : From) (core : Nat) : Bool :=
  src.ctx == 0 || d.holds mem src.tenant (coreClus core)

/-- A router drops a message: an error reply, and a record in the fault log of the sender's tenant (R324). -/
def Dev.dropRoute (d : Dev) (src : From) (core : Nat) : Dev :=
  (d.tickFresh.fileLog (coreDie core) src.tenant Cause.tenantRoute 4 0 core 0).send
    (.error src Cause.tenantRoute (Config.freeWord d.fresh) 0 none)

/-- WAKE_MESSAGE (R19, R324, R344, R345): a wake reaches its record or slot, after the drip it was issued in
(R20), and the reply is sent. -/
def execWakeMessage (m : Nat) : State → Host.Outcome State Fault Refusal :=
  onReq m (fun drip mem d src q =>
    if d.sentNow m then none
    else
    let say := fun (r : Option Dev) => some (match r with
      | some e => e.reply src 0
      | none => d.refuse src Cause.operandRange, ([] : List (Nat × Byte)))
    match q with
    | .wakeRec rid =>
      let r := d.wakeRecord drip rid none
      say (if r.2 then some r.1 else none)
    | .wakeFail rid =>
      let r := d.wakeRecord drip rid ((d.faults.find? (fun f => f.rid = rid)).map FaultRec.cause)
      say (if r.2 then some r.1 else none)
    | .wakeSlot c k => if d.routes mem src c then say (d.wakeSlot c k) else some (d.dropRoute src c, [])
    | .wakeStop c k =>
      let own : Bool := match d.thr src.tid with
        | some t => t.place == .slot c k
        | none => false
      if d.routes mem src c then say (if own then none else d.stopSlot c k) else some (d.dropRoute src c, [])
    | _ => none)

/-- The target word of R331: bits [63:17] and [11] are 0. -/
def targetOk (w : Word) : Bool := bits w 17 47 = 0 && !bit w 11
/-- CORE and SLOT. -/
def targetCore (w : Word) : Nat := bits w 0 11
def targetSlot (w : Word) : Nat := bits w 12 4

/-- WAKE.rec. -/
def execWakeRec (o : RR) : State → Host.Outcome State Fault Refusal :=
  run (issueS true o.g { xs := [o.a], late := some o.d } (fun i => i.request o.d (.wakeRec i.a.toNat)))
/-- WAKE.fail. -/
def execWakeFail (o : RR) : State → Host.Outcome State Fault Refusal :=
  run (issueS true o.g { xs := [o.a], late := some o.d } (fun i => i.request o.d (.wakeFail i.a.toNat)))
/-- WAKE.slot. -/
def execWakeSlot (o : RR) : State → Host.Outcome State Fault Refusal :=
  run (issueS true o.g { xs := [o.a], late := some o.d } (fun i =>
    if targetOk i.a then i.request o.d (.wakeSlot (targetCore i.a) (targetSlot i.a))
    else .trap Cause.operandRange none))
/-- WAKE.stop. -/
def execWakeStop (o : RR) : State → Host.Outcome State Fault Refusal :=
  run (issueS true o.g { xs := [o.a], late := some o.d } (fun i =>
    if targetOk i.a then i.request o.d (.wakeStop (targetCore i.a) (targetSlot i.a))
    else .trap Cause.operandRange none))

/-- DOZE_EXPIRY (R88): the counter reaches the stamp. -/
def execDozeExpiry (tid : Nat) : State → Host.Outcome State Fault Refusal :=
  run (fun drip _ d => match d.thr tid with
    | some t => match t.wst with
      | .doze s => .eff (if s.toNat ≤ drip then d.setThr tid { t with wst := .ready } else d) []
      | _ => .eff d []
    | none => .eff d [])

/-! ### TRAP, SRD, SWR (R348 to R351) -/

/-- TRAP: EPC is the next head in sequence, EVAL is xa. -/
def execTrap (o : TrapOp) : State → Host.Outcome State Fault Refusal :=
  run (issueS false o.g { xs := [o.a] } (fun i => .trapOn i.dev (Cause.trapBase + o.n.toNat) i.base.iss.next i.a))

/-- A register that only a supervisor reads (Table 17-12). -/
def supReg : SysReg → Bool
  | .cflags | .hkey | .ctxtb | .tentb | .pstop | .pgo | .rootcap | .gstat _ => true
  | _ => false

/-- JHEAD. -/
def Dev.jhead (d : Dev) (t : Thread) : Word :=
  let cs := t.coreSlot
  let l := (d.core cs.1).jrnl.toList
  wd64 (firstUnrep cs.2 0 l + 256 * (l.filter (JEntry.unrep cs.2)).length + 65536 * t.lost)

/-- The KiB of the lines that a grotto slice holds, each counted as 128 bytes (Table 13-1). What enters and leaves a
slice is DESIGN CHOICE, unsafe (log 85). -/
def Dev.effk (d : Dev) (die n : Nat) : Nat :=
  (d.grotto.countP (fun l => d.homeOf 0 l == ⟨d.modNo, die, 0, n⟩)) / 8

/-- A grotto slice's status word (Table 13-1). -/
def Dev.gstat (d : Dev) (die : Nat) (n : Fin 32) : Word :=
  let x := d.die die
  wd64 (min (d.effk die n.val) 4096 * 2 ^ 32 + x.corr[n.val] * 2 ^ 16 + x.uncr[n.val])

/-- A system register's value (Table 17-12). -/
def In.sysReg (i : In) (r : SysReg) : Word :=
  let t := i.t
  match r with
  | .status => t.status
  | .cause => t.cause
  | .epc => t.epc
  | .eval => t.eval
  | .handler => t.handler
  | .fmode => t.fmode.zeroExtend 64
  | .fflags => t.fflags.zeroExtend 64
  | .slotcfg => t.slotcfg
  | .jhead => i.base.jhead t
  | .anchor => t.anchor
  | .lstat => t.lstat
  | .srseed => t.srseed.zeroExtend 64
  | .srctr => t.srctr.zeroExtend 64
  | .view => t.view
  | .cflags => (i.base.clus (coreClus i.core)).cflags.zeroExtend 64
  | .hkey => (i.base.die (coreDie i.core)).hkey.zeroExtend 64
  | .ctxtb => i.base.ctxtb
  | .tentb => i.base.tentb
  | .pstop => i.base.pstop
  | .pgo => i.base.pgo
  | .rootcap => if bit t.status 3 then i.base.rootcap else 0
  | .gstat n => i.base.gstat (coreDie i.core) n

/-- SRD. -/
def execSrd (o : SrdOp) : State → Host.Outcome State Fault Refusal :=
  run (issueS (supReg o.reg) o.g { xd := some o.d } (fun i => i.result o.d (i.sysReg o.reg)))

/-- The bits of SLOTCFG that SWR writes (Table 2-5). -/
def slotcfgMask : Word := 0x0C0001FF

/-- A write of a system register (R348, R350). -/
def In.setSys (i : In) (r : SysReg) (v : Word) : Out :=
  match r with
  | .status => i.thread (fun t => { t with status := (t.status &&& ~~~(6 : Word)) ||| (v &&& 6) })
  | .cause => i.thread (fun t => { t with cause := v &&& 0x3FF })
  | .epc => i.thread (fun t => { t with epc := v })
  | .eval => i.thread (fun t => { t with eval := v })
  | .handler => i.thread (fun t => { t with handler := v })
  | .fmode =>
    if v = 0 ∨ 6 < v.toNat then .trap Cause.operandRange none
    else i.thread (fun t => { t with fmode := v.truncate 3 })
  | .fflags => i.thread (fun t => { t with fflags := v.truncate 5 })
  | .slotcfg =>
    if (List.range 4).any (fun q => bits v (2 * q) 2 == 3) then .trap Cause.illegalEncoding none
    else i.thread (fun t => { t with slotcfg := (t.slotcfg &&& ~~~slotcfgMask) ||| (v &&& slotcfgMask) })
  | .srseed => i.thread (fun t => { t with srseed := v.truncate 32 })
  | .srctr => i.thread (fun t => { t with srctr := v.truncate 32 })
  | .cflags =>
    let c := i.dev.clus (coreClus i.core)
    .ok (i.dev.setClus (coreClus i.core) { c with cflags := c.cflags &&& ~~~(v.truncate 5) }) []
  | .hkey => .ok (i.dev.setDie (coreDie i.core) { i.dev.die (coreDie i.core) with hkey := v.truncate 6 }) []
  | .ctxtb => .ok { i.dev with ctxtb := v } []
  | .tentb => .ok { i.dev with tentb := v } []
  | .jhead | .anchor | .lstat | .view | .pstop | .pgo | .rootcap | .gstat _ => .trap Cause.illegalEncoding none

/-- SWR. -/
def execSwr (o : SwrOp) : State → Host.Outcome State Fault Refusal :=
  run (issueS true o.g { xs := [o.a] } (fun i => i.setSys o.reg i.a))

/-! ### PSTOP and PGO (R126, R354) -/

/-- The first drip at or after `drip` whose low 56 bits are those of a word. -/
def stampAt (drip : Nat) (v : Word) : Nat := drip + (bits v 0 56 + 2 ^ 56 - drip % 2 ^ 56) % 2 ^ 56

/-- Suspend messages for a tenant's contexts that have an allowance: to the home of every untethered lease
that such a context holds, and of the anchor (R126). -/
def Dev.suspendAll (d : Dev) (drip tenant t : Nat) : Dev :=
  let live := d.leases.filter (fun l => !d.lapsed drip l && l.parent.isNone)
  d.leases.foldl (fun e l => match l.payload with
    | .context u allow =>
      if u ≠ tenant ∨ allow = 0 ∨ d.lapsed drip l then e
      else (live.filter (fun x => x.holder == l.holder || (match x.payload with
          | .anchor v _ _ => v == tenant
          | _ => false))).foldl (fun e x => e.send (.suspend x.agent x.index x.gen (t + allow))) e
    | _ => e) d

/-- SWR PSTOP: a stop of a tenant's partition at stamp T. -/
def execPstop (o : GA) : State → Host.Outcome State Fault Refusal :=
  run (issueS true o.g { xs := [o.a] } (fun i =>
    let ten := bits i.a 56 8
    let t := stampAt i.drip i.a
    if t < i.drip + 512 ∨ i.base.stops.any (fun s => s.tenant == ten) then .trap Cause.operandRange none
    else .ok ({ i.dev with
      pstop := i.a
      stops := i.dev.stops ++ [(⟨ten, t, none, false⟩ : Stop)] }.suspendAll i.drip ten t) []))

/-- SWR PGO: the resumption stamp U of a stop. -/
def execPgo (o : GA) : State → Host.Outcome State Fault Refusal :=
  run (issueS true o.g { xs := [o.a] } (fun i =>
    let ten := bits i.a 56 8
    let u := stampAt i.drip i.a
    match i.base.stops.find? (fun s => s.tenant == ten) with
    | none => .trap Cause.operandRange none
    | some s =>
      if u < i.drip + 512 ∨ u < s.at' + 512 ∨ s.go.any (fun g => g ≤ i.drip) then .trap Cause.operandRange none
      else .ok { i.dev with
        pgo := i.a
        stops := i.dev.stops.map (fun (x : Stop) => if x.tenant = ten then { x with go := some u } else x) } []))

/-- SUSPEND_MESSAGE (R126): an expiry is extended, if the lease is live. -/
def execSuspendMessage (m : Nat) : State → Host.Outcome State Fault Refusal :=
  run (fun drip _ d => match d.msg m with
    | some (.suspend ag ix g e) =>
      let d := d.drop m
      match d.lease ag ix with
      | some l =>
        if l.gen ≠ g ∨ d.lapsed drip l ∨ e ≤ l.expiry then .eff d []
        else .eff ((d.setExpiry l e).spreadExpiry l (d.expiry { l with expiry := e })) []
      | none => .eff d []
    | _ => .eff d [])

/-! ### TLBI (R338) -/

/-- TLBI. -/
def execTlbi (o : TlbiOp) : State → Host.Outcome State Fault Refusal :=
  run (issueS true o.g { xs := if o.op = .va then [o.a] else [], late := some o.d } (fun i =>
    if o.op = .tent ∧ 255 < o.n.toNat then .trap Cause.operandRange none
    else i.request o.d (.tlbi o.op (if o.op = .va then i.a else 0) o.n.toNat)))

/-- What a TLBI removes: entries of a context and page. -/
def tlbiHits (mem : Memory) (d : Dev) (op : TlbiFn) (va : Word) (n ctx : Nat) (at' : Word) (large : Bool) : Bool :=
  match op with
  | .all => true
  | .ctx => ctx == n
  | .tent => d.ctxTenant mem ctx == n
  | .va => ctx == n && (if large then bits va 21 30 == bits at' 21 30 else bits va 16 35 == bits at' 16 35)

/-- A global access that may have used an entry, and has been neither accepted nor answered. -/
def Acc.unjudged (a : Acc) : Bool := a.st == .travelling || a.st == .waiting || a.st.isL1

/-- A request that carries a translated place. -/
def Req.placed : Req → Bool
  | .lock .. | .bopen .. | .bchk .. | .alloc .. | .ctxsv .. => true
  | _ => false

/-- TLBI's work at every core and walk unit, once the earlier stores of its thread have been accepted and
every access translated under what it removes has been judged: its reply (R338). None while it waits. -/
def Dev.doTlbi (d : Dev) (mem : Memory) (src : From) (op : TlbiFn) (va : Word) (n : Nat) : Option Dev :=
  let hit := tlbiHits mem d op va n
  let open' := fun (a : Acc) => a.unjudged && keyAp a.line < 0x1000 && (hit a.src.ctx a.va true)
  let any' := fun (s : From) => op == .va && s.ctx == n || hit s.ctx va true
  if !d.acked src
      || d.cores.any (fun p => p.2.sb.any open')
      || d.msgs.any (fun m => match m.kind with
        | .acc a => open' a
        | .req s q => q.placed && any' s
        | .fetch .. => true
        | _ => false)
      || d.allocs.any (fun w => any' w.src) then none
  else some { d with
    cores := d.cores.map (fun p => (p.1, { p.2 with
      tlb := p.2.tlb.filter (fun e => !hit e.ctx (wd64 (e.page * 65536)) e.large) }))
    walks := d.walks.map (fun (w : Walk) => if hit w.ctx w.va true then { w with stale := true } else w)
    tenCache := match op with
      | .all => []
      | .tent => del n d.tenCache
      | _ => d.tenCache }

/-! ### Slot images (R351, R352) -/

/-- WST's code of a thread, and WARG. A stopped slot's code is that of the state it keeps, or 7. -/
def Thread.wstWords (t : Thread) : Nat × Nat :=
  match t.wst with
  | .ready => (if t.qblk.isSome then 6 else if t.stopped then 7 else 0, 0)
  | .wait l s c m _ => (1 + l.toNat * 2 ^ 4 + s.toNat * 2 ^ 8 + c.toNat * 2 ^ 12 + m.toNat * 2 ^ 16, 0)
  | .cbar _ => (2, 0)
  | .bwait => (3, 0)
  | .doze s => (4, s.toNat)
  | .parked r => (5, r)
  | .halted => (7, 0)

/-- The fields of a slot image: offset, length and value (Table 17-14). -/
def Thread.image (t : Thread) : List (Nat × Nat × Nat) :=
  let g := t.regs
  (List.range 32).map (fun i => (8 * i, 8, (g.x.toList.getD i 0).toNat * b2n (i != 0)))
  ++ g.k.toList.zipIdx.map (fun p => (256 + 128 * p.2, 128, p.1.toNat))
  ++ g.v.toList.zipIdx.map (fun p => (1792 + 512 * p.2, 512, p.1.bits.toNat))
  ++ g.v.toList.zipIdx.map (fun p => (9984 + 32 * p.2, 32, p.1.sx.toNat))
  ++ g.v.toList.zipIdx.map (fun p => (10496 + p.2, 1, p.1.tag.code))
  ++ [t.pc.toNat, t.status.toNat, t.cause.toNat, t.epc.toNat, t.eval.toNat, t.handler.toNat, t.fmode.toNat,
      t.fflags.toNat, t.slotcfg.toNat, t.srseed.toNat, t.srctr.toNat, t.view.toNat,
      bits t.lstat 0 10 + t.lost * 2 ^ 16,
      t.pendX.toNat / 2 + t.pendV.toNat * 2 ^ 31 + t.pendK.toNat * 2 ^ 47,
      t.wstWords.1 + t.cL * 2 ^ 20 + t.cS * 2 ^ 28 + t.cC * 2 ^ 36 + t.cM * 2 ^ 44,
      t.wstWords.2].zipIdx.map (fun p => (10512 + 8 * p.2, 8, p.1))
  ++ [(10640, 112, 0)]

/-- Bytes of an image. -/
def imageSize : Nat := 10752

/-- The bytes of a slot image, in order, at the places that a function gives its offsets. -/
def Thread.imageBytes (t : Thread) (f : Nat → Nat) : List (Nat × Byte) :=
  t.image.flatMap (fun p => (bytesAt p.1 p.2.1 p.2.2).map (fun q => (f q.1, q.2)))

/-- A reserved field of an image is set, or a tag is no code of Table 9-4 (R351). -/
def imageBad (v : Nat) : Bool :=
  let w := fun k => fld v (8 * (10512 + 8 * k)) 64
  (List.range 16).any (fun j => let t := fld v (8 * (10496 + j)) 8; t != 0 && !(fmtOf t).isOk)
  || fld v 0 64 != 0
  || w 1 / 2 ^ 32 != 0 || w 1 / 16 % 16 != 0 || 1024 ≤ w 2 || w 6 == 0 || 6 < w 6 || 32 ≤ w 7
  || w 8 / 2 ^ 32 != 0 || w 8 / 2 ^ 9 % 2 ^ 17 != 0 || (List.range 4).any (fun q => w 8 / 4 ^ q % 4 == 3)
  || 2 ^ 32 ≤ w 9 || 2 ^ 32 ≤ w 10 || w 12 / 2 ^ 10 % 64 != 0 || 2 ^ 32 ≤ w 12
  || 2 ^ 59 ≤ w 13 || 7 < w 14 % 16 || 2 ^ 52 ≤ w 14
  || fld v (8 * 10640) (8 * 112) != 0

/-- The thread of an image, in the place and block of another. -/
def Thread.ofImage (v : Nat) (o : Thread) (slot : Nat) (anchor : Word) : Thread :=
  let w := fun k => wd64 (fld v (8 * (10512 + 8 * k)) 64)
  let st := (w 14).toNat
  let bnd := fun k => BitVec.ofNat 4 (st / 2 ^ (4 + 4 * k))
  { o with
    regs := ⟨Vector.ofFn (fun (i : Fin 32) => wd64 (fld v (64 * i.val) 64)),
      Vector.ofFn (fun (i : Fin 16) =>
        ⟨BitVec.ofNat 4096 (fld v (8 * (1792 + 512 * i.val)) 4096),
          (fmtOf (fld v (8 * (10496 + i.val)) 8)).toOption.getD .none,
          BitVec.ofNat 256 (fld v (8 * (9984 + 32 * i.val)) 256)⟩),
      Vector.ofFn (fun (i : Fin 12) => BitVec.ofNat 1024 (fld v (8 * (256 + 128 * i.val)) 1024))⟩
    pc := w 0
    status := w 1
    cause := w 2
    epc := w 3
    eval := w 4
    handler := w 5
    fmode := (w 6).truncate 3
    fflags := (w 7).truncate 5
    slotcfg := (w 8 &&& ~~~(0xF0000000 : Word)) ||| wd64 (slot * 2 ^ 28)
    srseed := (w 9).truncate 32
    srctr := (w 10).truncate 32
    view := w 11
    lstat := wd64 (bits (w 12) 0 10)
    lost := bits (w 12) 16 16
    pendX := BitVec.ofNat 32 (2 * bits (w 13) 0 31)
    pendV := BitVec.ofNat 16 (bits (w 13) 31 16)
    pendK := BitVec.ofNat 12 (bits (w 13) 47 12)
    cL := st / 2 ^ 20 % 256
    cS := st / 2 ^ 28 % 256
    cC := st / 2 ^ 36 % 256
    cM := st / 2 ^ 44 % 256
    wst := match st % 16 with
      | 1 => .wait (bnd 0) (bnd 1) (bnd 2) (bnd 3) (w 0)
      | 2 => .cbar false
      | 3 => .bwait
      | 4 => .doze (w 15)
      | 5 => .parked (w 15).toNat
      | _ => .ready
    anchor := anchor
    stopped := true
    traps := []
    acq := []
    qblk := none }

/-! ### Where a thread or a block may be put (R31, R256, R322, R353) -/

/-- Bytes of a core's niche that a stowed slot image's share of niche part and crew record takes. -/
def stowShare : Nat := 4096 + 2176

/-- Blocks whose parts stand in their cluster. -/
def Dev.placed (d : Dev) : List Block := (d.blocks.map Prod.snd).filter (fun b => b.st != .swapped)

/-- Niche bytes that stowed images take on a core. -/
def Dev.stowBytes (d : Dev) (core : Nat) : Nat :=
  d.blocks.foldl (fun n p => n + stowShare * (p.2.stow.filter (fun s => s.1 == core)).length) 0

/-- The lowest free part of `n` bytes of a core's niche, at a multiple of 4 KiB. -/
def Dev.freeNiche (d : Dev) (core n : Nat) : Option Nat :=
  let used := d.placed.flatMap (fun b => (b.crews.filter (fun c => c.core == core)).map (fun c => (c.niche, c.nicheLen)))
  ((List.range 16).map (4096 * ·)).find? (fun p =>
    p + n + d.stowBytes core ≤ 65536 && !used.any (fun u => meets p n u.1 u.2))

/-- A slot holds neither a thread nor a stowed image, and no block that runs has it: a block keeps its slots
until its last thread exits (R322). -/
def Dev.slotFree (d : Dev) (core slot : Nat) : Bool :=
  (d.slotTid core slot).isNone && !d.blocks.any (fun p => p.2.stow.contains (core, slot))
  && !d.placed.any (fun b => b.crews.any (fun c => c.core == core && c.slots.contains slot))

/-- The cores that hold no tenant's blocks (R14, R373). -/
def Dev.isService (d : Dev) (core : Nat) : Bool := d.boot.mask.contains core

/-! ### CTXSV and CTXLD (R351) -/

/-- The lines of an image, translated for an access kind. -/
def In.imageLines (i : In) (k : AccK) : Parts Nat :=
  i.parts k id (fun _ p => lineOf p) ((List.range 84).map (fun j => i.a + wd64 (128 * j))) []

/-- CTXSV: a request that waits for the other slot. -/
def execCtxsv (o : CtxOp) : State → Host.Outcome State Fault Refusal :=
  run (issueS true o.g { xs := [o.a], late := some o.d } (fun i =>
    if o.n.val = i.slot then .trap Cause.operandRange none
    else match addrCheck .glob 0 [(i.a, imageSize, 128)] with
    | some c => .trap c none
    | none => match i.imageLines .write with
      | .ask d => .hold d
      | .hole p => .hole p
      | .ok l => i.request o.d (.ctxsv o.n.val (l.flatMap Prod.snd))))

/-- The slot is halted or stopped, so its image may be taken or replaced. -/
def Thread.atRest (t : Thread) : Bool := !t.exited && (t.stopped || t.wst == .halted)

/-- CTXSV's work: the image under its range's guard, and the multi-line set emptied. None while it waits for
the slot's counts, or for its lines. -/
def Dev.doCtxsv (d : Dev) (drip : Nat) (src : From) (slot : Nat) (lines : List Nat) :
    Option (Dev × Word × List (Nat × Byte)) :=
  let no := fun c => some (d, refusalWord c, ([] : List (Nat × Byte)))
  match d.slotTid src.core slot with
  | none => no Cause.operandRange
  | some tid => match d.thr tid with
    | none => no Cause.operandRange
    | some t =>
      if !t.atRest then no Cause.operandRange
      else if t.cL + t.cS + t.cC + t.cM ≠ 0 then none
      else match lines.findSome? (fun l => d.judgeRange drip src.ctx l) with
      | some c => no c
      | none =>
        if !lines.all (d.unitMayWrite drip) then none
        else some (d.updThr tid Thread.emptySet, 0, t.imageBytes (fun o => lines.getD (o / 128) 0 + o % 128))

/-- Put an image's thread into a slot: a stopped slot's thread, or a block of one thread in a free slot. -/
def Dev.loadImage (d : Dev) (drip : Nat) (mem : Memory) (core slot v : Nat) : Option Dev :=
  let st := wd64 (fld v (8 * 10520) 64)
  let ctx := bits st 8 16
  let anchor := d.ctxWord mem ctx 3
  let fix := fun (t : Thread) => match t.wst with
    | .parked r => if d.faults.any (fun f => f.rid = r && f.waits) then t else { t with wst := .ready }
    | _ => t
  match d.slotTid core slot with
  | some tid => match d.thr tid with
    | some t =>
      let arrived := match d.blk t.blk with
        | some b => b.crews.any (fun c => c.arrived.contains tid)
        | none => false
      let n := fix (Thread.ofImage v t slot anchor)
      let n := if n.wst = .cbar false && arrived then { n with wst := .cbar true } else n
      some (((d.setThr tid n.emptySet)).settle drip mem tid)
    | none => none
  | none =>
    match d.freeNiche core 4096 with
    | none => none
    | some p =>
      let tid := d.nextTid
      let b := d.nextBlk
      let t := fix (Thread.ofImage v { Thread.entry 0 0 0 st 0 0 0 with
        place := .slot core slot
        blk := b } slot anchor)
      some ({ d with
        nextTid := tid + 1
        nextBlk := b + 1
        threads := d.threads ++ [(tid, t)]
        blocks := put b (Block.single b tid core ctx (bits st 24 8) p slot) d.blocks
        started := true }.settle drip mem tid)

/-- CTXLD: once every earlier store of the thread has been accepted, the image is read and judged at issue
(R42). -/
def execCtxld (o : CtxOp) : State → Host.Outcome State Fault Refusal :=
  run (issueS true o.g { xs := [o.a], late := some o.d } (fun i =>
    if o.n.val = i.slot then .trap Cause.operandRange none
    else match addrCheck .glob 0 [(i.a, imageSize, 128)] with
    | some c => .trap c none
    | none => match i.imageLines .read with
      | .ask d => .hold d
      | .hole p => .hole p
      | .ok l =>
        let ls := l.flatMap Prod.snd
        let d := i.dev
        if !i.canL ∨ !i.base.acked (i.src 0 i.base.nextOp) ∨ ls.any (i.base.busyLine i.drip)
            ∨ (i.base.core i.core).sb.any (fun e => e.src.tid == i.tid) then .hold i.base
        else
          let p := d.openOp i.tid 1 true (some o.d) none none
          let say := fun (d : Dev) (w : Word) => Out.ok (d.reply (i.src o.d p.2) w) []
          match ls.findSome? (fun x => d.judgeRange i.drip i.t.ctx x) with
          | some c => .ok (p.1.send (.error (i.src o.d p.2) c i.a 0 none)) []
          | none =>
          let v := gather (d.unitByte i.drip i.mem) ((List.range imageSize).map (fun k => ls.getD (k / 128) 0 + k % 128))
          let st := wd64 (fld v (8 * 10520) 64)
          let ctx := bits st 8 16
          let pc := wd64 (fld v (8 * 10512) 64)
          let usable := match d.slotTid i.core o.n.val with
            | some tid => match d.thr tid with
              | some t => t.atRest
              | none => false
            | none => d.slotFree i.core o.n.val
          if !usable then say p.1 (refusalWord Cause.operandRange)
          else if imageBad v ∨ !bit (d.ctxWord i.mem ctx 0) 0
              ∨ (d.serves i.mem (coreClus i.core)).any (fun u => u != d.ctxTenant i.mem ctx)
              ∨ bits st 24 8 ≠ d.ctxTenant i.mem ctx then
            say p.1 (refusalWord Cause.contextInvalid)
          else match i.base.target i.drip i.mem i.tid i.core ctx pc with
          | .bad => .trap Cause.illegalTarget (some pc)
          | .ask d => .hold d
          | .good => match p.1.loadImage i.drip i.mem i.core o.n.val v with
            | some d => say d 0
            | none => say p.1 (refusalWord Cause.operandRange)))

/-- REPLY_ARRIVAL's other requests: TLBI and CTXSV act, and their reply arrives, in one step. -/
def Dev.ownRequest (d : Dev) (drip : Nat) (mem : Memory) (m : Nat) (src : From) (q : Req) : Option (Dev × List (Nat × Byte)) :=
  match q with
  | .tlbi op va n => (d.doTlbi mem src op va n).map (fun e => ((e.drop m).reply src 0, []))
  | .ctxsv slot lines => (d.doCtxsv drip src slot lines).map (fun r => ((r.1.drop m).reply src r.2.1, r.2.2))
  | _ => none

/-- REPLY_ARRIVAL (R96): the reply word; ALLOC's also writes LSTAT (R128), and BWAIT's ends the wait
(R145). TLBI and CTXSV act where their threads run, and send their replies. -/
def execReplyArrival (m : Nat) : State → Host.Outcome State Fault Refusal :=
  run (fun drip mem d => match d.msg m with
    | some (.reply src v bw ls) =>
      if d.srcStopped src then .eff d []
      else
      let d := (d.drop m).updThr src.tid (fun t => { t with
        wst := if bw ∧ t.wst = .bwait then .ready else t.wst
        lstat := match ls with
          | some c => wd64 c
          | none => t.lstat })
      .eff (d.arrive drip mem src [(.x src.d, v.toNat)] none 0 none) []
    | some (.req src q) => match d.ownRequest drip mem m src q with
      | some r => .eff r.1 r.2
      | none => .eff d []
    | _ => .eff d [])

/-- ERROR_REPLY (R84, R115): the cause is taken as a trap before the slot's next issue. An uncorrectable
error is consumed by containment instead (R355). -/
def execErrorReply (m : Nat) : State → Host.Outcome State Fault Refusal :=
  run (fun drip mem d => match d.msg m with
    | some (.error src cause ea rank _) =>
      if cause = Cause.dramUncorrectable ∨ cause = Cause.sramUncorrectable ∨ d.srcStopped src then .eff d []
      else
        let d := (d.drop m).updThr src.tid (fun t => { t with wst := if t.wst = .bwait then .ready else t.wst })
        .eff (d.arrive drip mem src [] none 0 (some (rank, cause, ea))) []
    | _ => .eff d [])

/-! ### Containment (R355 to R357) -/

/-- The cores of a containment rectangle that holds a core, by a tenant's entry. -/
def crectOf (row : List Word) (core : Nat) : Option (List Nat) :=
  let die := coreDie core
  (List.range 16).findSome? (fun i =>
    let w := rowWord row (160 + 64 * die + 4 * i)
    let inside := fun c => fld w 10 4 ≤ coreRow c && coreRow c ≤ fld w 14 4 && fld w 0 5 ≤ coreCol c && coreCol c ≤ fld w 5 5
    if fld w 31 1 = 1 && inside core then
      some (((List.range 512).map (die * 512 + ·)).filter inside)
    else none)

/-- The containment rectangle of a core: a valid CRECT, or its cluster. -/
def Dev.rectangle (d : Dev) (mem : Memory) (core : Nat) : List Nat :=
  let clus := (List.range 16).map (clusCore (coreClus core))
  match d.serves mem (coreClus core) with
  | some t => (crectOf (d.tenRow mem t) core).getD clus
  | none => clus

/-- End a block where it stands: its threads and what they wait for are gone. -/
def Dev.killBlock (d : Dev) (b : Nat) : Dev :=
  match d.blk b with
  | none => d
  | some k =>
    let tids := k.crews.flatMap Crew.tids
    let d := k.crews.foldl (fun d c => d.setCore c.core { d.core c.core with
      q := (d.core c.core).q.map (fun q => match q with
        | some x => if x.blk = b then none else some x
        | none => none) }) d
    { d with
      threads := d.threads.filter (fun p => !tids.contains p.1)
      outst := d.outst.filter (fun o => !tids.contains o.tid)
      blocks := del b d.blocks }

/-- A block is in a rectangle: a crew, or an image stowed there. -/
def Block.within (b : Block) (cores : List Nat) : Bool :=
  (b.st != .swapped && b.crews.any (fun c => cores.contains c.core)) || b.stow.any (fun s => cores.contains s.1)

/-- A launch's points may fire again (R356). -/
def Launch.refires (l : Launch) : Bool := bit (l.hdr.getD 0 0) 13

/-- The rectangle of a core is fenced and reset (R355); its points are lost, to be fired again or to fail
their launch (R356). -/
def Dev.contain (d : Dev) (drip : Nat) (mem : Memory) (core cause addr : Nat) : Dev × List (Nat × Byte) :=
  let cores := d.rectangle mem core
  let hit := (d.blocks.map Prod.snd).filter (·.within cores)
  let again := hit.filterMap (fun b => match b.launch with
    | some l => match d.lch l with
      | some x => if x.refires && !b.doneSent then some (l, (⟨0, b.z, b.y, b.x, 0⟩ : QPoint)) else none
      | none => none
    | none => none)
  let tenant := (d.serves mem (coreClus core)).getD 0
  let d := hit.foldl (fun d b => match b.launch with
    | some l => match d.lch l with
      | some x => if x.refires || b.doneSent then d else d.failLaunch l cause 0
      | none => d
    | none => d) d
  let d := hit.foldl (fun d b => d.killBlock b.id) d
  let d := (d.fileLog (coreDie core) tenant cause 5 (wd64 (keyPhys addr)) 0 0).signal 1024
  ({ d with
      cores := d.cores.map (fun p => if cores.contains p.1 then (p.1, Core.reset) else p)
      fenced := d.fenced ++ [⟨cores, drip, cause, again⟩]
      badWords := d.badWords.filter (fun w => !cores.any (fun c => keyAp w == 0x1000 + c))
      msgs := d.msgs.filter (fun m => match m.kind with
        | .consume c _ _ => !cores.contains c
        | .error s c _ _ _ => !(cores.contains s.core && (c == Cause.dramUncorrectable || c == Cause.sramUncorrectable))
        | .fetch c _ _ => !cores.contains c
        | _ => true) },
    (mem.cells.filter (fun c => cores.any (fun k => keyAp c.1 == 0x1000 + k))).map (fun c => (c.1, 0)))

/-- CONTAINMENT: a core consumes an uncorrectable error that a reply carries, that it read on the die, or
that a decompression it commanded met. -/
def execContainment (core cause addr : Nat) : State → Host.Outcome State Fault Refusal :=
  run (fun drip mem d =>
    let due := d.msgs.any (fun m => match m.kind with
      | .consume c k a => c == core && k == cause && a == addr
      | .error s k ea _ _ => s.core == core && k == cause && ea.toNat == addr
          && (k == Cause.dramUncorrectable || k == Cause.sramUncorrectable)
      | _ => false)
    if due && !d.fencedCore core then
      let r := d.contain drip mem core cause addr
      .eff r.1 r.2
    else .eff d [])

/-- RECTANGLE_RETURN: 65,536 drips after the fence; points fire again (R356). -/
def execRectangleReturn (n : Nat) : State → Host.Outcome State Fault Refusal :=
  run (fun drip _ d => match d.fenced[n]? with
    | none => .eff d []
    | some f =>
      if drip < f.since + 65536 then .eff d []
      else
        let d := { d with fenced := d.fenced.eraseIdx n }
        .eff (f.refire.foldl (fun d p => match d.lch p.1 with
          | some l => if l.failed.isSome then d
            else d.setLch p.1 { l with queue := l.queue ++ [{ p.2 with drip := drip, ready := drip }] }
          | none => d) d) [])

/-- The die and the tenant of a place: those of the niche's or gallery's cluster, or of the range that covers it. -/
def Dev.ownerAt (d : Dev) (mem : Memory) (p : Nat) : Nat × Nat :=
  let near := fun (clus : Nat) => (clus / 32, (d.serves mem clus).getD 0)
  if gallKey 0 0 ≤ p then near (keyAp p - keyAp (gallKey 0 0))
  else if 0x1000 ≤ keyAp p then near (coreClus (keyAp p - 0x1000))
  else (keyPhys p / 2 ^ 37 % 4, match d.rangeOf p with
    | some l => l.tenant
    | none => 0)

/-- The log record of a poisoned on-die word (R357). -/
def Dev.logWord (d : Dev) (mem : Memory) (p : Nat) : Dev :=
  d.fileLog (d.ownerAt mem p).1 (d.ownerAt mem p).2 Cause.sramUncorrectable 5 (wd64 (keyPhys p)) 0 0

/-- The dword at a place is poisoned. -/
def Dev.poisonWord (d : Dev) (p : Nat) : Dev := { d with badWords := (p / 8 * 8) :: d.badWords }

/-- SOFT_ERROR (R264, R357). Place 0: a DRAM sector, which the next read rebuilds or poisons. Place 1: an
on-die word of a niche, a gallery or a grotto frame. Place 2 + c: an L1 line of core c. Place 4096 + c:
another word of core c, which that core consumes when the error cannot be corrected. An on-die word is poisoned, and
logged (log 41). -/
def execSoftError (o : SoftErrorOp) : State → Host.Outcome State Fault Refusal :=
  run (fun _ mem d =>
    .eff (
      if o.place = 0 then
        if keyAp o.addr ≤ 0xC0 ∧ isDram (keyPhys o.addr) then
          { d with badSectors := d.badSectors ++ List.replicate (if o.multi then 2 else 1) (sectorOf o.addr) }
        else d
      else if !o.multi then d
      else if o.place = 1 then
        if d.badWords.contains (o.addr / 8 * 8) then d
        else (d.logWord mem o.addr).poisonWord o.addr
      else if o.place < 4096 then
        let c := d.core (o.place - 2)
        d.setCore (o.place - 2) { c with l1 := c.l1.filter (fun e => e.line != lineOf o.addr) }
      else d.consume (o.place - 4096) Cause.sramUncorrectable o.addr) [])

end Sys2Proof.Machine
end

