-- ==== Sys2Proof/Machine/Matrix.lean ====
section
/-!
DEFINITION. The matrix array (spec 11 R216 to R230, R241; 08 R154 to R158; 09 R184, R185): the instructions
of MATRIX as the core issues them, the array lease, leave (18 R376), the commands, and reports (R224).
-/
namespace Sys2Proof.Machine
open Sys2Proof

/-- Change a cluster's array. -/
def Dev.updArray (d : Dev) (clus : Nat) (f : MArray → MArray) : Dev :=
  d.setClus clus { d.clus clus with array := f (d.clus clus).array }

/-! ### Leave (R376) -/

/-- Who asks for leave: an MLEASE request, a copy command (by cluster, engine and place in acceptance
order), or a launch. -/
def leaveArray (m : Nat) : Nat := 4 * m
def leaveCopy (n : Nat) : Nat := 4 * n + 1
def leaveLaunch (l : Nat) : Nat := 4 * l + 2

/-- Ask for leave. -/
def Dev.askLeave (d : Dev) (who units clus : Nat) : Dev := d.send (.leave who units clus)

/-- Give leave back; a request not yet granted is forgotten. -/
def Dev.returnLeave (d : Dev) (who : Nat) : Dev :=
  { d with
    leaveHeld := d.leaveHeld.filter (fun r => r.who != who)
    leaveQ := d.leaveQ.filter (fun r => r.who != who)
    msgs := d.msgs.filter (fun m => match m.kind with
      | .leave w _ _ => w != who
      | _ => true) }

/-- LEAVE_REQUEST: queued in arrival order. -/
def execLeaveRequest (m : Nat) : State → Host.Outcome State Fault Refusal :=
  run (fun _ _ d => match d.msg m with
    | some (.leave who units clus) =>
      let q := d.leaveQ ++ [(⟨who, units, clus⟩ : LeaveReq)]
      .eff { d.drop m with leaveQ := q } []
    | _ => .eff d [])

/-- The answer reaches who asked. -/
def Dev.giveLeave (d : Dev) (r : LeaveReq) : Dev :=
  let c := d.clus r.clus
  let e := fun (x : Engine) => (⟨x.cmds.map (fun y =>
    if r.who % 4 = 1 ∧ leaveCopy y.num = r.who then { y with leave := true } else y)⟩ : Engine)
  let d := d.setClus r.clus { c with
    array := { c.array with reqs := c.array.reqs.map (fun q =>
      if leaveArray q.id = r.who then { q with leave := true } else q) }
    eng0 := e c.eng0
    eng1 := e c.eng1 }
  if r.who % 4 = 2 then
    match d.lch (r.who / 4) with
    | some l => d.setLch (r.who / 4) { l with leave := true }
    | none => d
  else d

/-- LEAVE_GRANT: the oldest request, when the pool of 1,200 units holds room for it. -/
def execLeaveGrant : State → Host.Outcome State Fault Refusal :=
  run (fun _ _ d => match d.leaveQ with
    | [] => .eff d []
    | r :: q =>
      if 1200 < d.leaveHeld.foldl (fun n x => n + x.units) 0 + r.units then .eff d []
      else
        let h := d.leaveHeld ++ [r]
        .eff (({ d with
          leaveQ := q
          leaveHeld := h } : Dev).giveLeave r) [])

/-! ### Reports (R224) -/

/-- Send a report to a slot. -/
def Dev.sendReport (d : Dev) (src : From) (cause : Nat) (v : Word) : Dev := d.send (.report src.tid cause v)

/-- REPORT: a trap at the slot's first issue after it; a slot that waits or sleeps leaves that state. One for
a slot that has exited is dropped. -/
def execReport (m : Nat) : State → Host.Outcome State Fault Refusal :=
  run (fun _ _ d => match d.msg m with
    | some (.report tid cause v) =>
      .eff (if d.threads.any (fun p => p.1 == tid && p.2.preempted) then d else (d.drop m).updThr tid (fun t =>
        if t.exited then t
        else { t with
          traps := t.traps ++ [⟨cause, v⟩]
          wst := match t.wst with
            | .wait .. | .cbar _ | .bwait | .doze _ => .ready
            | w => w })) []
    | _ => .eff d [])

/-! ### MATRIX at issue -/

/-- MLEASE (R220). -/
def execMlease (o : MleaseOp) : State → Host.Outcome State Fault Refusal :=
  run (issueS false o.g { xs := durRegs o.dur, late := some o.d } (fun i =>
    i.withDur o.d (durValue o.dur i.a) (fun n => i.request o.d (.array (coreClus i.core) n))))

/-- A place in a cluster's command FIFO is free (R222). -/
def Dev.arrayRoom (d : Dev) (clus : Nat) : Bool :=
  (d.clus clus).array.fifo.length + (d.msgs.filter (fun m => match m.kind with
    | .command _ c _ _ => c == clus
    | _ => false)).length < 16

/-- Send a command: it counts in M, and waits for the acquires before it. -/
def In.command (i : In) (c : MCmd) : Out :=
  let clus := coreClus i.core
  if i.t.acq ≠ [] ∨ !i.base.arrayRoom clus ∨ 255 ≤ i.t.cM then .hold i.base
  else .ok ((i.dev.updThr i.tid (fun t => { t with cM := t.cM + 1 })).send
    (.command (i.src 0 i.base.nextOp) clus c i.base.iss.head)) []

/-- MLAY (R225). -/
def execMlay (o : MlayOp) : State → Host.Outcome State Fault Refusal :=
  run (issueS false o.g { xs := [o.a] } (fun i => i.one .read i.a 32 32 (fun l p =>
    i.command (.mlay o.l p (if leafTag l ∧ keyAp p ≤ 0xC0 then some (BitVec.ofNat 4 (bits i.a 56 4)) else none)))))
/-- MZERO (R227). -/
def execMzero (o : SetOp) : State → Host.Outcome State Fault Refusal :=
  run (issueS false o.g {} (fun i => i.command (.mzero o.n)))
/-- MMA (R228). -/
def execMma (o : SetOp) : State → Host.Outcome State Fault Refusal :=
  run (issueS false o.g {} (fun i => i.command (.mma o.n)))

/-- The D formats (Table 11-2), by code. -/
def drainFmt (n : Nat) : Bool := 0x0A ≤ n && n ≤ 0x0E

/-- MDRAIN (R229): the control and seed words travel with the command. -/
def execMdrain (o : MdrainOp) : State → Host.Outcome State Fault Refusal :=
  run (issueS false o.g { xs := [o.a, o.b] } (fun i =>
    if bits i.a 35 29 ≠ 0 ∨ bits i.a 20 4 ≠ 0 ∨ bits i.a 32 3 = 7 ∨ !drainFmt (bits i.a 27 5) then
      .trap Cause.operandRange none
    else i.command (.mdrain o.n i.a i.b i.t.fmode)))

/-- MSTAT (R230). -/
def execMstat (o : MstatOp) : State → Host.Outcome State Fault Refusal :=
  run (issueS false o.g { late := some o.d } (fun i => i.request o.d (.mstat (coreClus i.core) o.sel)))

/-! ### The array lease (R154, R220, R221) -/

/-- The lease of an array that bears an index and generation. It names the array it is held on now, which a
pre-emption may have changed (R243). -/
def Dev.arrayLease (d : Dev) (clus index gen : Nat) : Option Lease :=
  d.leases.find? (fun l => l.payload == .array clus && l.index == index && l.gen == gen)

/-- The lease of a grant. -/
def Dev.grantOf (d : Dev) (clus : Nat) (g : AGrant) : Option Lease := d.arrayLease clus g.index g.gen

/-- The array's record still names a grant that a pre-emption took to another array and that lives there: this
array grants none until it ends. DESIGN CHOICE, unsafe (log 100). -/
def Dev.recordAway (d : Dev) (drip clus : Nat) : Bool :=
  d.leases.any (fun l => l.agent == d.arrayAgent clus && l.payload != .array clus && !d.lapsed drip l)

/-- The array's live grant. -/
def Dev.liveGrant (d : Dev) (drip clus : Nat) : Option AGrant :=
  match (d.clus clus).array.grant with
  | some g => match d.grantOf clus g with
    | some l => if d.lapsed drip l then none else some g
    | none => none
  | none => none

/-- A lease's expiry by duration, as renewals extend it, whatever run it names (R154, R241). -/
def Dev.byDuration (d : Dev) (l : Lease) : Nat :=
  match d.root l with
  | some r => r.expiry
  | none => 0

/-- A grant's expiry by duration has come (R241): the one kept when another was granted, or its lease's. -/
def Dev.grantOver (d : Dev) (drip clus index gen : Nat) : Bool :=
  match find? (index * 2 ^ 24 + gen) (d.clus clus).array.ends with
  | some e => e ≤ drip
  | none => match d.arrayLease clus index gen with
    | some l => d.byDuration l ≤ d.clock drip (match d.root l with
        | some r => r.agent.mod
        | none => d.modNo)
    | none => true

/-- A grant has lapsed: its leave returns (R154). -/
def Dev.endGrant (d : Dev) (clus : Nat) : Dev :=
  match (d.clus clus).array.grant with
  | some g =>
    if g.live then (d.updArray clus (fun a => { a with grant := some { g with live := false } })).returnLeave (leaveArray g.id)
    else d
  | none => d

/-- Empty the streams. Feeds that were filling a slab begin a new one. -/
def MArray.emptyStreams (a : MArray) : MArray :=
  { a with
    a := []
    b := []
    r := []
    d := none
    dropA := 0
    dropB := 0 }

/-- The core the streams serve next: that of the oldest command, or with none left that of the last grant. -/
def MArray.server (a : MArray) : Option Nat :=
  match a.fifo with
  | e :: _ => some e.src.core
  | [] => a.grant.map AGrant.core

/-- The streams go to another core, empty, once the last command of the core before it has retired (R221). -/
def MArray.takeStreams (a : MArray) : MArray :=
  if a.server = none ∨ a.server = a.owner then a else { a.emptyStreams with owner := a.server }

/-- ARRAY_REQUEST_ARRIVAL (R154, R220): queued, and leave asked for. -/
def execArrayRequestArrival (m : Nat) : State → Host.Outcome State Fault Refusal :=
  onReq m (fun _ _ d src q => match q with
    | .array clus n =>
      some (if (d.clus clus).array.reqs.any (fun r => r.src.tid == src.tid) then d.refuse src Cause.arrayRequest
        else (d.updArray clus (fun a => { a with reqs := a.reqs ++ [⟨m, src, n, false⟩] })).askLeave
          (leaveArray m) 9 clus, [])
    | _ => none)

/-- ARRAY_GRANT (R154): the head request, once the previous grant has lapsed and its leave has arrived. -/
def execArrayGrant (clus : Nat) : State → Host.Outcome State Fault Refusal :=
  run (fun drip _ d => match (d.clus clus).array.reqs with
    | [] => .eff d []
    | r :: rs =>
      if !r.leave ∨ (d.liveGrant drip clus).isSome ∨ d.recordAway drip clus ∨ d.srcStopped r.src then .eff d []
      else
        let d := (d.endGrant clus).updArray clus (fun a => { a with
          reqs := rs
          ends := match a.grant with
            | some g => put (g.index * 2 ^ 24 + g.gen) (((d.grantOf clus g).map d.byDuration).getD 0) a.ends
            | none => a.ends })
        match d.grantLease drip (d.arrayAgent clus) .array (some r.src.ctx) r.src.tenant r.src.ctx (drip + r.dur)
            none (.array clus) with
        | (d, none) => .eff ((d.returnLeave (leaveArray r.id)).refuse r.src Cause.allocExhausted) []
        | (d, some h) =>
          let g : AGrant := ⟨r.id, r.src.core, r.src.tid, hIndex h, hGen h, 16, none, true⟩
          .eff ((d.updArray clus (fun a => { a with grant := some g }.takeStreams)).reply r.src h) [])

/-! ### Streams (R218, R219, R228) -/

/-- Width class: 4, 8 or 16; 0 for a format that no slab has. -/
def widthClass : Fmt → Nat
  | .sv4 => 4
  | .e4m3 | .e5m2 | .e3m2 | .e2m3 => 8
  | .bf16 | .f16 => 16
  | _ => 0

/-- Units of a slab in one row, and groups in a slab. -/
def rowUnits (f : Fmt) : Nat := match widthClass f with
  | 4 => 8
  | 8 => 128
  | _ => 64
def slabGroups (f : Fmt) : Nat := match widthClass f with
  | 4 => 8
  | 8 => 4
  | _ => 2

/-- Every unit of group `g` has landed: the last is in the last row (R228). -/
def Slab.has (s : Slab) (g : Nat) : Bool :=
  31 * rowUnits s.fmt + (g + 1) * (rowUnits s.fmt / slabGroups s.fmt) ≤ s.units.length

/-- Element `k` of row `y`. -/
def Slab.el (s : Slab) (y k : Nat) : FVal :=
  match widthClass s.fmt with
  | 4 =>
    let u := s.units.getD (8 * y + k / 32) (0, 0)
    blockVal .sv4 u.2 (fld u.1 (4 * (k % 32)) 4)
  | 8 =>
    let u := s.units.getD (128 * y + k) (0, 0)
    blockVal s.fmt u.2 u.1
  | _ => (Fp.of s.fmt).val (s.units.getD (64 * y + k) (0, 0)).1

/-- The exact sum of a group's products, begun at −0 (R184). -/
def groupSum (a b : Slab) (y x g : Nat) : FVal × Flags :=
  (List.range 32).foldl (fun s j =>
    let p := (a.el y (32 * g + j)).mul (b.el x (32 * g + j))
    let r := s.1.add RM.rne p.1
    (r.1, s.2 ||| p.2 ||| r.2 ||| flIf p.1.isNan flNV)) (.fin true 0 0, 0)

/-- One FP32 rounding, to nearest even. -/
def r32 (v : FVal × Flags) : Nat × Flags :=
  let q := Fp.f32.pack RM.rne false v.1
  (q.1, v.2 ||| q.2)

/-- Add group `g` to every element of a set. -/
def addGroup (acc : List (BitVec 32)) (a b : Slab) (g : Nat) : List (BitVec 32) × Flags :=
  let l := acc.zipIdx.map (fun p =>
    let s := groupSum a b (p.2 / 32) (p.2 % 32) g
    let r := r32 ((Fp.f32.val p.1.toNat).add RM.rne s.1)
    (BitVec.ofNat 32 r.1, s.2 ||| r.2))
  (l.map Prod.fst, l.foldl (fun f p => f ||| p.2) 0)

/-- Put a set's accumulators. -/
def MArray.setAcc (a : MArray) (n : Fin 8) (v : List (BitVec 32)) (groups : Nat) : MArray :=
  { a with
    acc := a.acc.set n.val v
    groups := a.groups.set n.val (min groups 0xFFFFFFFF) }

/-- Add the groups that are complete in both slabs, in order, from the command's group on (R228). -/
def MArray.addGroups (a : MArray) (n : Fin 8) (sa sb : Slab) : Nat → MEntry → MArray × MEntry
  | 0, e => (a, e)
  | k + 1, e =>
    if e.group < slabGroups sa.fmt && sa.has e.group && sb.has e.group then
      let r := addGroup a.acc[n.val] sa sb e.group
      (a.setAcc n r.1 (a.groups[n.val] + 1)).addGroups n sa sb k
        { e with
          group := e.group + 1
          flags := e.flags ||| r.2 }
    else (a, e)

/-- The command at the head of the FIFO, when it is an MMA with both slabs of one width class, adds what has
landed. -/
def MArray.advance (a : MArray) : MArray :=
  match a.fifo with
  | e :: rest => match e.c, a.a, a.b with
    | .mma n, sa :: _, sb :: _ =>
      if widthClass sa.fmt = widthClass sb.fmt then
        let r := a.addGroups n sa sb 8 e
        { r.1 with fifo := r.2 :: rest }
      else a
    | _, _, _ => a
  | [] => a

/-- Engines that fill the oldest slab of a stream. -/
def feeders (l : List Slab) : List Nat :=
  match l with
  | s :: _ => match s.feed with
    | some e => [e]
    | none => []
  | [] => []

/-- What lands for a discarded slab is discarded: the feed that fills it skips the rest (R241). -/
def Cluster.skip (c : Cluster) (es : List Nat) : Cluster :=
  let f := fun (x : Engine) => (match x.cmds with
    | e :: rest => ⟨{ e with skip := true } :: rest⟩
    | [] => x : Engine)
  { c with
    eng0 := if es.contains 0 then f c.eng0 else c.eng0
    eng1 := if es.contains 1 then f c.eng1 else c.eng1 }

/-- Release the oldest slab of each stream, or give up the one to come. -/
def Dev.dropSlabs (d : Dev) (clus : Nat) : Dev :=
  let c := d.clus clus
  let a := c.array
  d.setClus clus ({ c with array := { a with
    a := a.a.tail
    b := a.b.tail
    dropA := a.dropA + b2n a.a.isEmpty
    dropB := a.dropB + b2n a.b.isEmpty } }.skip (feeders a.a ++ feeders a.b))

/-! ### The drain (R158, R185) -/

/-- An R element, widened exactly. -/
def rVal (p : Fmt × Nat) : FVal := (Fp.of p.1).val p.2

/-- One element of a drain. -/
def drainEl (ctl seed : Word) (mode : Nat) (f : Fp) (scales res : List (Fmt × Nat)) (acc : List (BitVec 32)) (i : Nat) :
    Nat × Flags :=
  let y := i / 32
  let x := i % 32
  let zero : Fmt × Nat := (.f32, 0)
  let v := (((acc.getD i 0).toNat, 0) : Nat × Flags)
  let step := fun (v : Nat × Flags) (r : FVal × Flags) => ((r32 r).1, v.2 ||| (r32 r).2)
  let val := fun (v : Nat × Flags) => Fp.f32.val v.1
  let v := if bit ctl 26 then
      let w := step v ((val v).mul (rVal (scales.getD y zero)))
      step w ((val w).mul (rVal (scales.getD (32 + x) zero)))
    else v
  let v := if bit ctl 24 then step v ((val v).add RM.rne (rVal (res.getD i zero))) else v
  let h := chash (bits seed 0 32) (y + bits seed 32 16) (x + bits seed 48 16)
  if bit ctl 25 && decide (h / 65536 < bits ctl 0 16) then (0, 0)
  else
    let v := if bit ctl 25 then step v ((val v).mul (.fin false 1 (bits ctl 16 4))) else v
    let q := f.pack ⟨mode, h % 65536⟩ true (val v)
    (q.1, v.2 ||| q.2)

/-- R elements that a drain takes. -/
def drainNeed (ctl : Word) : Nat := 64 * b2n (bit ctl 26) + 1024 * b2n (bit ctl 24)

/-- The tile of a drain, and its flags. -/
def drainTile (ctl seed : Word) (fm : BitVec 3) (taken : List (Fmt × Nat)) (acc : List (BitVec 32)) : Tile × Flags :=
  let fmt := (fmtOf (bits ctl 27 5)).toOption.getD .f32
  let mode := if bits ctl 32 3 = 0 then fm.toNat else bits ctl 32 3
  let k := if bit ctl 26 then 64 else 0
  let l := (List.range 1024).map (drainEl ctl seed mode (Fp.of fmt) (taken.take k) (taken.drop k) acc)
  (⟨fmt, l.map Prod.fst⟩, l.foldl (fun f p => f ||| p.2) 0)

/-! ### Commands (R223 to R230) -/

/-- The M count of a command's thread falls (R25). -/
def Dev.closeM (d : Dev) (drip : Nat) (mem : Memory) (src : From) : Dev :=
  (d.updThr src.tid (fun t => { t with cM := t.cM - 1 })).settle drip mem src.tid

/-- No older command or inquiry of the core is on its way to the array. -/
def Dev.arrayInOrder (d : Dev) (m core clus : Nat) : Bool :=
  !d.msgs.any (fun x => decide (x.id < m) && (match x.kind with
    | .command s c _ _ => s.core == core && c == clus
    | _ => false))

/-- The array accepts a command of the grant's core, while the grant is live and its run lasts; the sixteenth ends
the run, and the grant expires in the next drip (R154). -/
def Dev.acceptCommand (d : Dev) (drip clus : Nat) (src : From) (c : MCmd) (head : Word) (g : AGrant) : Dev :=
  d.updArray clus (fun a => { a with
    fifo := a.fifo ++ [⟨src, c, head, 0, g.index, g.gen, 0, none⟩]
    grant := some { g with
      left := g.left - 1
      last := if g.left ≤ 1 then some drip else none } })

/-- The word that MSTAT replies (Tables 11-4 to 11-6). -/
def Dev.mstatWord (d : Dev) (drip clus core : Nat) (s : MstatSel) : Word :=
  let a := (d.clus clus).array
  match s with
  | .layout n => wd64 (min a.confl[n.val] 0xFFFFFFFF)
  | .accSet n =>
    let nan := a.acc[n.val].any (fun v => (Fp.f32.val v.toNat).isNan)
    wd64 (b2n a.gave[n.val] * 2 ^ 33 + b2n nan * 2 ^ 32 + min a.groups[n.val] 0xFFFFFFFF)
  | .arr =>
    let run := match d.liveGrant drip clus with
      | some g => if g.core = core then some g.left else none
      | none => none
    wd64 (a.reqs.length * 2 ^ 16 + a.fifo.length * 2 ^ 11 + run.getD 0 * 2 ^ 6 + b2n run.isSome * 2 ^ 5)

/-- The format of a layout record. -/
def Layout.fmt (l : Layout) : Fmt := (fmtOf (bits l.ext 48 5)).toOption.getD .none
/-- SP, SSHR, extents and strides (Table 8-3). -/
def Layout.sp (l : Layout) : Nat := bits l.ext 54 2
def Layout.sshr (l : Layout) : Bool := bit l.ext 53
def Layout.extent (l : Layout) (k : Nat) : Nat := bits l.ext (12 * k) 12 + 1
def Layout.stride (l : Layout) (k : Nat) : Int := (BitVec.ofNat 16 (bits l.str (16 * k) 16)).toInt

/-- A descriptor breaks R225. -/
def Layout.bad (l : Layout) : Bool :=
  bits l.ext 56 8 != 0 || l.sp % 2 == 1 || !(match l.fmt with
    | .sv4 | .e4m3 | .e5m2 | .e3m2 | .e2m3 | .bf16 | .f16 | .f32 => true
    | _ => false)

/-- The descriptor at a place, its read judged under its range's guard (R225) and, where the leaf enables tags,
against its granule's tag (R79): the cause of a refusal, or 0 and the descriptor. None while the line is not to
be read yet. -/
def Dev.descriptor (d : Dev) (drip : Nat) (mem : Memory) (src : From) (p : Nat) (tag : Option (BitVec 4)) :
    Option (Nat × Layout) :=
  let no := fun c => some (c, Layout.zero)
  if !d.acked src || d.busyLine drip (lineOf p) then none
  else if d.cutOff (lineOf p) then no Cause.pathDown
  else if d.outOfUse (d.homeOf (coreDie src.core) (lineOf p)) then no Cause.leaseLapsed
  else match d.judgeRange drip src.ctx p with
  | some c => no c
  | none =>
    if tag.any (fun t => look 0 p d.tags != t) then no Cause.tagMismatch
    else if d.isExact (lineOf p) then no Cause.exactAccess
    else if d.poisoned p then no Cause.dramUncorrectable
    else
      let w := fun k => wd64 (gather (d.unitByte drip mem) ((List.range 8).map (p + 8 * k + ·)))
      some (0, ⟨w 0, w 1, w 2, w 3⟩)

/-- The MLAYs of a FIFO that can read their descriptors do, into the shadow copies (R223). -/
def Dev.readLayouts (d : Dev) (drip : Nat) (mem : Memory) (clus : Nat) : List MEntry → List MEntry × Vector Layout 8
  | [] => ([], (d.clus clus).array.shadow)
  | e :: es =>
    let r := d.readLayouts drip mem clus es
    match e.c, e.desc with
    | .mlay n p t, none => match d.descriptor drip mem e.src p t with
      | some (c, l) => ({ e with desc := some (c, l) } :: r.1, if c = 0 then r.2.set n.val l else r.2)
      | none => (e :: r.1, r.2)
    | _, _ => (e :: r.1, r.2)

/-- Descriptor reads begin in the acceptance drip (R223); a failing sector of a line read is met first (R264). -/
def Dev.readDescs (d : Dev) (drip : Nat) (mem : Memory) (clus : Nat) : Dev × List (Nat × Byte) :=
  let s := (d.clus clus).array.fifo.foldl (fun (x : Dev × List (Nat × Byte)) e => match e.c, e.desc with
    | .mlay _ p _, none =>
      let r := x.1.scrub mem (lineOf p)
      (r.1, x.2 ++ r.2)
    | _, _ => x) (d, [])
  let r := s.1.readLayouts drip mem clus (d.clus clus).array.fifo
  (s.1.updArray clus (fun a => { a with
    fifo := r.1
    shadow := r.2 }), s.2)

/-- COMMAND_ACCEPT (R223): accepted, or dropped with a report; an MSTAT inquiry is answered behind the
commands of its core (R230). -/
def execCommandAccept (m : Nat) : State → Host.Outcome State Fault Refusal :=
  run (fun drip mem d => match d.msg m with
    | some (.command src clus c head) =>
      let a := (d.clus clus).array
      if 16 ≤ a.fifo.length ∨ !d.arrayInOrder m src.core clus ∨ d.srcStopped src then .eff d []
      else
        let d := d.drop m
        let no := Res.eff ((d.closeM drip mem src).sendReport src Cause.arrayLeaseLapsed head) []
        match d.liveGrant drip clus with
        | some g =>
          if g.core = src.core ∧ g.left ≠ 0 then
            let r := (d.acceptCommand drip clus src c head g).readDescs drip mem clus
            .eff (r.1.updArray clus (fun a => a.takeStreams.advance)) r.2
          else no
        | none => no
    | some (.req src (.mstat clus s)) =>
      if !d.arrayInOrder m src.core clus then .eff d []
      else .eff ((d.drop m).reply src (d.mstatWord drip clus src.core s)) []
    | _ => .eff d [])

/-- The command at the head of the FIFO retires: its flags reach the slot (R183), its M count falls, and a
report is sent with its cause. -/
def Dev.retire (d : Dev) (drip : Nat) (mem : Memory) (clus : Nat) (report : Option Nat) : Dev :=
  match (d.clus clus).array.fifo with
  | [] => d
  | e :: rest =>
    let d := d.updArray clus (fun a => { a with fifo := rest })
    let d := match d.thr e.src.tid with
      | some t => if t.exited then d.raiseFlags d.nextTid e.src.core e.flags else d.raiseFlags e.src.tid e.src.core e.flags
      | none => d.raiseFlags d.nextTid e.src.core e.flags
    let d := (d.closeM drip mem e.src).updArray clus (fun a => a.takeStreams.advance)
    match report with
    | some c => d.sendReport e.src c e.head
    | none => d

/-- COMMAND_RETIRE (R223): the oldest command performs what it has left, and retires. -/
def execCommandRetire (clus : Nat) : State → Host.Outcome State Fault Refusal :=
  run (fun drip mem d =>
    let s := (d.updArray clus MArray.advance).readDescs drip mem clus
    let d := s.1
    let a := (d.clus clus).array
    match a.fifo with
    | [] => .eff d s.2
    | e :: rest =>
      let past := fun (d : Dev) (r : Option Nat) => Res.eff (d.retire drip mem clus r) s.2
      match e.c with
      | .mlay n _ _ => match e.desc with
        | none => .eff d s.2
        | some (c, l) =>
          if c ≠ 0 then past d (some c)
          else if l.bad then past d (some Cause.layoutInvalid)
          else past (d.updArray clus (fun a => { a with
            act := a.act.set n.val l
            confl := a.confl.set n.val 0 })) none
      | .mzero n => past (d.updArray clus (fun a => a.setAcc n accZero 0)) none
      | .mma n => match a.a, a.b with
        | sa :: _, sb :: _ =>
          if widthClass sa.fmt ≠ widthClass sb.fmt then past (d.dropSlabs clus) (some Cause.streamFormat)
          else if slabGroups sa.fmt ≤ e.group then
            past ((d.dropSlabs clus).updArray clus (fun a => { a with gave := a.gave.set n.val false })) none
          else if (sa.broken && !sa.has e.group) || (sb.broken && !sb.has e.group) then
            past ((d.dropSlabs clus).updArray clus (fun a => { a with gave := a.gave.set n.val true }))
              (some Cause.streamBroken)
          else .eff d s.2
        | _, _ => .eff d s.2
      | .mdrain n ctl seed fm =>
        let k := drainNeed ctl
        if a.d.isSome ∨ a.r.length < k then .eff d s.2
        else
          let taken := a.r.take k
          let d := d.updArray clus (fun a => { a with r := a.r.drop k })
          if taken.any (fun p => !(match p.1 with
              | .f32 | .bf16 | .f16 => true
              | _ => false)) then past d (some Cause.streamFormat)
          else
            let t := drainTile ctl seed fm taken a.acc[n.val]
            past (d.updArray clus (fun a => { a with
              d := some t.1
              fifo := { e with flags := t.2 } :: rest })) none)

/-- The command at the head of the FIFO waits for stream data (R241). -/
def MArray.waiting (a : MArray) : Bool :=
  match a.fifo with
  | [] => false
  | e :: _ => match e.c with
    | .mma _ => match a.a, a.b with
      | sa :: _, sb :: _ => widthClass sa.fmt == widthClass sb.fmt && e.group < slabGroups sa.fmt
        && !((sa.broken && !sa.has e.group) || (sb.broken && !sb.has e.group))
      | _, _ => true
    | .mdrain _ ctl .. => a.d.isSome || decide (a.r.length < drainNeed ctl)
    | _ => false

/-- The command at the head of the FIFO gives up, if it waits at or after its grant's expiry by duration
(R241). -/
def Dev.giveUp (d : Dev) (drip : Nat) (mem : Memory) (clus : Nat) : Dev :=
  match (d.clus clus).array.fifo with
  | [] => d
  | e :: _ =>
    if !(d.clus clus).array.waiting ∨ !d.grantOver drip clus e.index e.gen ∨ d.srcStopped e.src then d
    else match e.c with
    | .mma n =>
      ((d.dropSlabs clus).updArray clus (fun a => { a with gave := a.gave.set n.val true })).retire drip mem clus
        (some Cause.arrayLeaseLapsed)
    | _ => d.retire drip mem clus (some Cause.arrayLeaseLapsed)

/-- GIVE_UP (R241): in the first drip at or after its grant's expiry by duration in which it waits. -/
def execGiveUp (clus : Nat) : State → Host.Outcome State Fault Refusal :=
  run (fun drip mem d => .eff ((d.updArray clus MArray.advance).giveUp drip mem clus) [])

end Sys2Proof.Machine
end

