-- ==== Sys2Proof/Machine/Copy.lean ====
section
/-!
DEFINITION. The copy engines (spec 11 R231 to R243; 17 R358): the instructions of COPY as the core issues
them, promises and completion records, copies, feeds, and page moves.
-/
namespace Sys2Proof.Machine
open Sys2Proof

/-! ### COPY at issue -/

/-- Commands of a thread on an engine that have not completed (R240). -/
def Dev.engineOut (d : Dev) (eng tid : Nat) : Nat :=
  (d.clusters.map (fun p => ((p.2.eng eng).cmds.filter (fun e => e.src.tid == tid)).length)).sum
  + (d.msgs.filter (fun m => match m.kind with
      | .engine s _ e _ => s.tid == tid && e == eng
      | _ => false)).length

/-- A thread's result FIFO. -/
def Thread.fifo (t : Thread) (eng : Nat) : List Word := if eng = 0 then t.fifo0 else t.fifo1
/-- Put it back. -/
def Thread.setFifo (t : Thread) (eng : Nat) (l : List Word) : Thread :=
  if eng = 0 then { t with fifo0 := l } else { t with fifo1 := l }

/-- A free tag, and room for the slot (R231). -/
def In.engineRoom (i : In) (eng : Nat) : Bool :=
  let clus := coreClus i.core
  ((i.base.clus clus).eng eng).cmds.length + (i.base.msgs.filter (fun m => match m.kind with
      | .engine _ c e _ => c == clus && e == eng
      | _ => false)).length < 64
  && i.base.engineOut eng i.tid + ((i.t.fifo eng).filter (fun w => bit w 62)).length < 16

/-- Push a command: it counts in C. -/
def In.engine (i : In) (eng : Nat) (c : ECmd) : Out :=
  if i.t.acq ≠ [] ∨ !i.engineRoom eng ∨ 255 ≤ i.t.cC then .hold i.base
  else .ok ((i.dev.updThr i.tid (fun t => { t with cC := t.cC + 1 })).send
    (.engine (i.src 0 i.base.nextOp) (coreClus i.core) eng c)) []

/-- The first byte of a range: its place, in a niche or gallery. -/
def In.rangeStart (i : In) (sp : Space) (a : Word) : Nat :=
  if sp = .glob then a.toNat else (i.base.window i.tid i.t sp).1 + a.toNat

/-- CXFER (R234): length, windows, forms. -/
def execCxfer (o : CxferOp) : State → Host.Outcome State Fault Refusal :=
  run (issueS false o.g { xs := o.a :: o.b :: immRegs o.n } (fun i =>
    let n := match o.n with
      | .reg _ => i.c.toNat
      | .imm k => k.toNat
    let near := fun (sp : Space) (a : Word) => sp != .glob && decide ((i.base.window i.tid i.t sp).2 < a.toNat + n)
    if n = 0 ∨ 2 ^ 36 < n then .trap Cause.operandRange none
    else if near o.dst i.a || near o.src i.b then .trap Cause.windowRange none
    else if (o.dst = .glob ∧ !formOk i.a) ∨ (o.src = .glob ∧ !formOk i.b) then .trap Cause.addressForm none
    else i.engine o.eng.val (.xfer (i.rangeStart o.dst i.a) (i.rangeStart o.src i.b) n o.dst o.src)))

/-- CXFER.pack (R358): a page length and a slot size. -/
def execCxferPack (o : PackOp) : State → Host.Outcome State Fault Refusal :=
  run (issueS true o.g { xs := [o.a, o.b, o.c] } (fun i =>
    let n := bits i.c 0 32
    let z := bits i.c 32 32
    if (n ≠ 65536 ∧ n ≠ 2097152) ∨ z % 4096 ≠ 0 ∨ n < z then .trap Cause.operandRange none
    else if i.b.toNat % n ≠ 0 ∨ i.a.toNat % 4096 ≠ 0 then .trap Cause.misaligned none
    else if !formOk i.a || !formOk i.b then .trap Cause.addressForm none
    else i.engine o.eng.val (.pack i.a i.b n z)))

/-- CXFER.fpack (R358). -/
def execCxferFpack (o : FpackOp) : State → Host.Outcome State Fault Refusal :=
  run (issueS true o.g { xs := o.a :: o.b :: immRegs o.n } (fun i =>
    let n := match o.n with
      | .reg _ => i.c.toNat
      | .imm k => k.toNat
    if n = 0 ∨ 2 ^ 36 < n then .trap Cause.operandRange none
    else if !formOk i.a || !formOk i.b then .trap Cause.addressForm none
    else i.engine o.eng.val (.fpack i.a i.b n)))

/-- CFEED (R156, R237): reserved bits of the stream word. -/
def execCfeed (o : CfeedOp) : State → Host.Outcome State Fault Refusal :=
  run (issueS false o.g { xs := immRegs o.w } (fun i =>
    let w := match o.w with
      | .reg _ => i.a
      | .imm k => k.zeroExtend 64
    let win := i.base.window i.tid i.t .gall
    if bits w 7 57 ≠ 0 ∨ bit w 3 then .trap Cause.operandRange none
    else i.engine (bits w 2 1) (.feed ⟨bits w 4 3 % 8, Nat.mod_lt _ (by decide)⟩ (bits w 0 2) win.1 win.2)))

/-- CPOP (R239). -/
def execCpop (o : EngOp) : State → Host.Outcome State Fault Refusal :=
  run (issueS false o.g { xd := some o.d } (fun i =>
    match i.t.fifo o.e.val with
    | w :: l => .ok ((i.dev.updThr i.tid (fun t => t.setFifo o.e.val l)).putX i.tid o.d w) []
    | [] =>
      if i.base.engineOut o.e.val i.tid = 0 then .trap Cause.operandRange none else .hold i.base))

/-- CSTAT (R240, Table 11-8). -/
def execCstat (o : EngOp) : State → Host.Outcome State Fault Refusal :=
  run (issueS false o.g { xd := some o.d } (fun i =>
    let clus := coreClus i.core
    let l := ((i.base.clus clus).eng o.e.val).cmds
    let stop := match l with
      | e :: _ => e.stop.isSome
      | [] => false
    i.result o.d (wd64 ((64 - l.length) * 2 ^ 32 + i.base.engineOut o.e.val i.tid * 2 ^ 22
      + (i.t.fifo o.e.val).length * 2 ^ 16 + b2n stop))))

/-! ### Feeds: shapes and units (R155, R218, R219) -/

/-- Bytes of a unit. -/
def unitBytes : Fmt → Nat
  | .sv4 => 16
  | .f32 => 4
  | .bf16 | .f16 => 2
  | _ => 1

/-- Units that a record describes. -/
def Layout.units (l : Layout) : Nat := l.extent 0 * l.extent 1 * l.extent 2 * l.extent 3

/-- The record has the shape that its stream asks for. -/
def Layout.suits (l : Layout) (stream : Nat) : Bool :=
  match stream with
  | 2 => l.fmt != .none
  | 3 => l.extent 0 == 32 && l.extent 1 == 32 && l.extent 2 == 1 && l.extent 3 == 1 && (match l.fmt with
      | .f32 | .bf16 | .f16 | .e4m3 | .e5m2 => true
      | _ => false)
  | _ => widthClass l.fmt != 0 && l.extent 0 == rowUnits l.fmt && l.extent 1 == 32

/-- The byte offset of unit `i`. -/
def Layout.offset (l : Layout) (i : Nat) : Int :=
  let j := fun (n : Nat) (k : Nat) => ((n % l.extent k : Nat) : Int) * l.stride k
  j i 0 + j (i / l.extent 0) 1 + j (i / l.extent 0 / l.extent 1) 2 + j (i / l.extent 0 / l.extent 1 / l.extent 2) 3

/-- The address of unit `i`, and of its scale byte where its format has one. -/
def Layout.unitAt (l : Layout) (i : Nat) : Word := l.base + BitVec.ofInt 64 (l.offset i)
def Layout.scaleAt (l : Layout) (i : Nat) : Option Word :=
  match widthClass l.fmt with
  | 4 => some (if l.sshr then l.sbase else l.sbase + BitVec.ofInt 64 (l.offset i / 16))
  | 8 => some (if l.sshr then l.sbase else l.sbase + BitVec.ofInt 64 (l.offset i / 32))
  | _ => none

/-- Conflicts of the gallery cycle that moves units `i` up to `j` (R238): the words of the busiest bank, less
one. -/
def Layout.conflicts (l : Layout) (i j : Nat) : Nat :=
  let ub := unitBytes l.fmt
  let ws := (((List.range (j - i)).flatMap (fun k =>
    (List.range ub).map (fun b => ((l.unitAt (i + k)).toNat + b) / 4)))).eraseDups
  (List.range 64).foldl (fun m b => max m (ws.filter (fun w => w % 64 == b)).length) 0 - 1

/-! ### Acceptance, promises and completion (R232) -/

/-- Change an engine's commands. -/
def Dev.updEngine (d : Dev) (clus eng : Nat) (f : List EEntry → List EEntry) : Dev :=
  d.setClus clus ((d.clus clus).setEng eng ⟨f ((d.clus clus).eng eng).cmds⟩)

/-- Change the command that an engine serves. -/
def Dev.updHead (d : Dev) (clus eng : Nat) (f : EEntry → EEntry) : Dev :=
  d.updEngine clus eng (fun l => match l with
    | e :: r => f e :: r
    | [] => [])

/-- Push an element into a slot's result FIFO; it is discarded when the slot has exited. -/
def Dev.pushResult (d : Dev) (tid eng : Nat) (w : Word) : Dev :=
  d.updThr tid (fun t => if t.exited then t else t.setFifo eng (t.fifo eng ++ [w]))

/-- A completion record (Table 8-5). -/
def recordWord (stopped : Bool) (cause units : Nat) : Word :=
  wd64 (b2n stopped * 2 ^ 63 + 2 ^ 62 + cause % 1024 * 2 ^ 52 + units % 2 ^ 52)

/-- A command has ended: its record, and its C count falls. -/
def Dev.endCommand (d : Dev) (drip : Nat) (mem : Memory) (src : From) (eng : Nat) (w : Word) : Dev :=
  ((d.pushResult src.tid eng w).updThr src.tid (fun t => { t with cC := t.cC - 1 })).settle drip mem src.tid

/-- ENGINE_ACCEPT (R218, R226, R232, R237): a promise is pushed; a feed whose record does not suit it, or
whose core holds no live grant, ends at once. -/
def execEngineAccept (m : Nat) : State → Host.Outcome State Fault Refusal :=
  run (fun drip mem d => match d.msg m with
    | some (.engine src clus eng c) =>
      let older := d.msgs.any (fun x => decide (x.id < m) && (match x.kind with
        | .engine s c e _ => s.core == src.core && c == clus && e == eng
        | _ => false))
      if 64 ≤ ((d.clus clus).eng eng).cmds.length ∨ older ∨ d.srcStopped src then .eff d []
      else
        let a := (d.clus clus).array
        let p := drip + Config.promiseAhead d.fresh
        let lay := match c with
          | .feed l .. => a.act[l.val]
          | _ => Layout.zero
        let bound := match d.liveGrant drip clus with
          | some g => if g.core = src.core then some (g.index, g.gen) else none
          | none => none
        let cause := match c with
          | .feed _ s _ _ =>
            if !lay.suits s then some Cause.streamShape
            else if s < 3 && bound.isNone then some Cause.arrayLeaseLapsed
            else none
          | _ => none
        let bound := match c with
          | .feed .. => bound
          | _ => none
        let d := (d.drop m).tickFresh.pushResult src.tid eng (wd64 (p % 2 ^ 62))
        .eff (match cause with
          | some k => d.endCommand drip mem src eng (recordWord true k 0)
          | none => d.updEngine clus eng (fun l =>
              l ++ [⟨m, src, c, lay, 0, p, false, bound, none, none, false, false, none, false, false⟩])) []
    | _ => .eff d [])

/-- Units that a command moves, or bytes for a copy. -/
def EEntry.total (e : EEntry) : Nat :=
  match e.c with
  | .xfer _ _ n _ _ => n
  | .pack _ _ n _ => n
  | .fpack _ _ n => n
  | .feed .. => e.lay.units

/-- The command has moved everything. A page move ends in one piece. -/
def EEntry.finished (e : EEntry) : Bool :=
  match e.c with
  | .pack .. => e.pos != 0
  | _ => decide (e.total ≤ e.pos)

/-- Bytes that a command moves. -/
def EEntry.bytes (e : EEntry) : Nat :=
  match e.c with
  | .feed .. => e.total * unitBytes e.lay.fmt
  | _ => e.total

/-- A slab that a feed leaves incomplete is broken (R237). -/
def breakSlabs (eng : Nat) (l : List Slab) : List Slab :=
  l.map (fun (s : Slab) => if s.feed = some eng then { s with feed := none, broken := true } else s)

/-- A command has not ended by its promise, and no report of that has been sent. -/
def EEntry.late (e : EEntry) (drip : Nat) : Bool := e.promise < drip && !e.missed

/-- The report of a missed promise, with a new promise, or 0 while the command is stopped on a fault (R232). -/
def Dev.missReport (d : Dev) (drip clus eng : Nat) (e : EEntry) : Dev :=
  let p := drip + 1 + Config.promiseAhead d.fresh
  let set := fun (x : EEntry) =>
    if x.num ≠ e.num then x
    else if e.stop.isSome then { x with missed := true }
    else { x with promise := p }
  (d.tickFresh.updEngine clus eng (fun l => l.map set)).sendReport e.src Cause.promiseMissed
    (if e.stop.isSome then 0 else wd64 p)

/-- ENGINE_COMPLETION (R232, R237). -/
def execEngineCompletion (clus eng : Nat) : State → Host.Outcome State Fault Refusal :=
  run (fun drip mem d => match ((d.clus clus).eng eng).cmds with
    | [] => .eff d []
    | e :: _ =>
      if e.stop.isSome ∨ (e.fail.isNone ∧ !e.finished) then .eff d []
      else
        let d := if e.late drip then d.missReport drip clus eng e else d
        let d := d.updEngine clus eng List.tail
        let d := match e.c with
          | .feed _ s _ _ => d.updArray clus (fun a => (if s = 0 then { a with a := breakSlabs eng a.a }
              else if s = 1 then { a with b := breakSlabs eng a.b }
              else a).advance)
          | _ => d
        let d := if e.asked then d.returnLeave (leaveCopy e.num) else d
        let stopped := e.fail.any (fun c => c != Cause.compressRefused)
        .eff (d.endCommand drip mem e.src eng (recordWord stopped (e.fail.getD 0) e.pos)) [])

/-- PROMISE_MISSED (R232): a report in the drip after a promise that was missed. -/
def execPromiseMissed (clus eng : Nat) : State → Host.Outcome State Fault Refusal :=
  run (fun drip _ d =>
    match ((d.clus clus).eng eng).cmds.find? (fun e => e.late drip && !d.srcStopped e.src) with
    | none => .eff d []
    | some e => .eff (d.missReport drip clus eng e) [])

/-! ### One piece, judged at its commit point (R234, R236, R242) -/

/-- What reaching a piece comes to. -/
inductive Got where
  | ok (places : List Nat)
  | refused (cause : Nat)
  | fault (cause level : Nat) (va : Word)
  | hole (place : Nat)
  /-- Its home cannot serve it yet. -/
  | wait
  /-- Sectors of its line fail, and must be met first (R264). -/
  | failing (line : Nat)

/-- The leaf and place of an address in a context's tree. -/
def Dev.leafOf (d : Dev) (mem : Memory) (ctx : Nat) (va : Word) (k : AccK) : Except (Nat × Nat) (Word × Nat) :=
  match d.allocPlace ctx va with
  | some p => .ok (allocLeaf, p)
  | none => match walkTree mem d.ctxtb d.modNo ctx va k with
    | .ok (l, large) => .ok (l, leafPlace l large va d.modNo)
    | .error c => .error c

/-- A translation must wait: a walk of its page is in progress, which the element joins, or an entry's home
cannot give it yet (R333, R337). -/
def Dev.walkWaits (d : Dev) (drip : Nat) (mem : Memory) (src : From) (va : Word) : Bool :=
  (d.allocPlace src.ctx va).isNone && (d.walks.any (d.joins mem (coreDie src.core) src.ctx va)
    || (walkLines mem d.ctxtb src.ctx va).any (d.busyLine drip))

/-- `n` bytes within one line, as an element of a command. -/
def Dev.gotLine (d : Dev) (drip : Nat) (mem : Memory) (src : From) (k : AccK) (va : Word) (n : Nat) : Got :=
  if !formOk va then .refused Cause.addressForm
  else if d.walkWaits drip mem src va then .wait
  else match d.leafOf mem src.ctx va k with
  | .error c => .fault c.1 c.2 va
  | .ok (l, p) =>
    let line := lineOf p
    let write := k = .write
    if !keyOk p then .hole p
    else if d.cutOff line then .refused Cause.pathDown
    else if d.outOfUse (d.homeOf (coreDie src.core) line) then .refused Cause.leaseLapsed
    else match d.judgeRange drip src.ctx p with
    | some c => .refused c
    | none =>
      if leafTag l && keyAp p ≤ 0xC0
          && (List.range n).any (fun j => look 0 ((p + j) / 32 * 32) d.tags != BitVec.ofNat 4 (bits va 56 4)) then
        .refused Cause.tagMismatch
      else if d.isExact line then .refused Cause.exactAccess
      else if write && d.bundled line then .refused Cause.conflict
      else if write && !d.unitMayWrite drip line then .wait
      else if d.busyLine drip line then .wait
      else if !write && (d.badSectors.contains (sectorOf line) || d.badSectors.contains (sectorOf line + 64)) then
        .failing line
      else if !write && (d.poisoned p || d.poisoned (p + n - 1)) then .refused Cause.dramUncorrectable
      else .ok ((List.range n).map (p + ·))

/-- At most 128 bytes, in one line or across two. -/
def Dev.got (d : Dev) (drip : Nat) (mem : Memory) (src : From) (k : AccK) (va : Word) (n : Nat) : Got :=
  let r := 128 - va.toNat % 128
  if n ≤ r then d.gotLine drip mem src k va n
  else match d.gotLine drip mem src k va r with
  | .ok l => match d.gotLine drip mem src k (va + wd64 r) (n - r) with
    | .ok m => .ok (l ++ m)
    | x => x
  | x => x

/-- Bytes of a niche or gallery that a command reads. -/
def Dev.gotNear (d : Dev) (p n : Nat) : Got :=
  if (List.range n).any (fun j => d.badWords.contains ((p + j) / 8 * 8)) then .refused Cause.sramUncorrectable
  else .ok ((List.range n).map (p + ·))

/-- What a command has read or written of a line is noted at its slice (R262, R263, R298, R366). -/
def Dev.visit (d : Dev) (drip : Nat) (mem : Memory) (src : From) (line : Nat) (w : List (Nat × Byte)) : Dev :=
  let d := (d.touch src.core line).holdLine drip mem line (w != []) w
  if w = [] then d else d.snoopSets d.nextTid line

/-- A line of a global element: none of a niche or a gallery. -/
def Dev.visitRead (d : Dev) (drip : Nat) (mem : Memory) (src : From) (places : List Nat) : Dev :=
  (((places.filter (fun p => keyAp p < 0x1000)).map lineOf).eraseDups).foldl
    (fun d x => d.visit drip mem src x []) d

/-- An engine's global piece is sampled in the drip that translates it, where its leaf asks for it (R339). -/
def Dev.samplePiece (d : Dev) (drip : Nat) (mem : Memory) (src : From) (k : AccK) (va : Word) : Dev :=
  match d.leafOf mem src.ctx va k with
  | .ok (l, _) => if leafHeat l then d.sample drip (coreDie src.core) src.ctx va else d
  | .error _ => d

/-- Write bytes at places. A word that the module makes up takes the store as a message of the command's
thread, already accepted. -/
def Dev.unitStore (d : Dev) (drip : Nat) (mem : Memory) (src : From) (l : List (Nat × Byte)) : Dev × List (Nat × Byte) :=
  let made := l.filter (fun p => (d.madeWord drip p.1).isSome)
  let w := l.filter (fun p => (d.madeWord drip p.1).isNone)
  let lines := ((w.filter (fun p => keyAp p.1 < 0x1000)).map (fun p => lineOf p.1)).eraseDups
  let d := (lines.foldl (fun d x => d.visit drip mem src x (w.filter (fun p => lineOf p.1 == x))) d).clearPoison w
  let d := { d with badWords := d.badWords.filter (fun x => !(List.range 8).all (fun k => w.any (fun p => p.1 == x + k))) }
  (((made.map (fun p => lineOf p.1)).eraseDups).foldl (fun d x => d.send (.acc ⟨src,
      .store ((made.filter (fun p => lineOf p.1 == x)).map (fun p => ⟨p.1, 0xFF, p.2⟩)), x, 0, .sys, false, false, 0x51,
      0, .accepted, drip, [], false, 0, false⟩)) d, w)

/-- The command stops on a translation fault (R242). -/
def Dev.stopOn (d : Dev) (mem : Memory) (clus eng : Nat) (e : EEntry) (cause level : Nat) (k : AccK) (va : Word) : Dev :=
  let p := d.parkOn mem (clus / 32) e.src.ctx e.src.tenant cause level (eng + 1) k.code va e.src.core
    (d.slotOf e.src.tid) (.engine clus eng e.num)
  p.1.updHead clus eng (fun e => { e with
    stop := some p.2
    held := true })

/-- The command fails with a cause. -/
def Dev.failHead (d : Dev) (clus eng cause : Nat) : Dev := d.updHead clus eng (fun e => { e with fail := some cause })

/-- The command that an engine serves: not stopped, not over, its thread's earlier stores accepted (R157),
and with leave when it moves more than 1 MiB (R231). -/
def engineStep (clus eng : Nat) (f : Nat → Memory → Dev → EEntry → Res) : State → Host.Outcome State Fault Refusal :=
  run (fun drip mem d => match ((d.clus clus).eng eng).cmds with
    | [] => .eff d []
    | e :: _ =>
      if e.stop.isSome ∨ e.fail.isSome ∨ e.finished ∨ d.srcStopped e.src ∨ !d.acked e.src then .eff d []
      else if 2 ^ 20 < e.bytes ∧ !e.leave then
        .eff (if e.asked then d
          else (d.updHead clus eng (fun e => { e with asked := true })).askLeave (leaveCopy e.num) 2 clus) []
      else f drip mem d e)

/-! ### CXFER (R234 to R236) -/

/-- The copy goes downwards: the ranges overlap, and the destination does not lie below the source. -/
def copyDown (dst src n : Nat) (dsp ssp : Space) : Bool :=
  let a := fun (sp : Space) (x : Nat) => if sp = .glob then x % 2 ^ 51 else x
  dsp == ssp && meets (a dsp dst) n (a ssp src) n && decide (a ssp src ≤ a dsp dst)

/-- The next piece, `pos` bytes done: its offset and length; it crosses no line on either side. -/
def nextPiece (dst src n pos : Nat) (down : Bool) : Nat × Nat :=
  if down then
    let e := n - pos
    let k := min e (min ((src + e - 1) % 128 + 1) ((dst + e - 1) % 128 + 1))
    (e - k, k)
  else (pos, min (n - pos) (min (128 - (src + pos) % 128) (128 - (dst + pos) % 128)))

/-- Read, then write, the places of a piece. -/
def Dev.pieceGot (d : Dev) (drip : Nat) (mem : Memory) (src : From) (k : AccK) (sp : Space) (a n : Nat) : Got :=
  if sp = .glob then d.gotLine drip mem src k (wd64 a) n
  else if k = .read then d.gotNear a n
  else .ok ((List.range n).map (a + ·))

/-- Bytes beyond a stopped copy's count, which the spec calls unknown (R236): those of later pieces that
would be accepted. -/
def Dev.strew (d : Dev) (drip : Nat) (mem : Memory) (s : From) (dst src n : Nat) (dsp ssp : Space) :
    Nat → Nat → List (Nat × Byte) → List (Nat × Byte)
  | 0, _, acc => acc
  | f + 1, pos, acc =>
    if n ≤ pos then acc
    else
      let p := nextPiece dst src n pos (copyDown dst src n dsp ssp)
      match d.pieceGot drip mem s .read ssp (src + p.1) p.2, d.pieceGot drip mem s .write dsp (dst + p.1) p.2 with
      | .ok _, .ok l =>
        d.strew drip mem s dst src n dsp ssp f (pos + p.2)
          (acc ++ (l.filter (fun a => (d.madeWord drip a).isNone)).zipIdx.map
            (fun a => (a.1, Config.unknownByte (d.fresh + acc.length + a.2))))
      | _, _ => d.strew drip mem s dst src n dsp ssp f (pos + p.2) acc

/-- An engine's accesses of its cluster's gallery in this drip: each takes its banks, or all wait (R258). -/
def Dev.takeNear (d : Dev) (drip clus : Nat) : List (List Nat) → Option Dev
  | [] => some d
  | l :: ls => match d.gallery drip clus l with
    | some (d, _) => d.takeNear drip clus ls
    | none => none

/-- Move a piece from the places `rs` to `ws`. -/
def Dev.movePiece (d : Dev) (drip : Nat) (mem : Memory) (clus eng : Nat) (e : EEntry) (dst src : Word) (dsp ssp : Space)
    (rs ws : List Nat) : Res :=
  match d.takeNear drip clus [if ssp = .gall then rs else [], if dsp = .gall then ws else []] with
  | none => .eff d []
  | some d =>
    let d := d.visitRead drip mem e.src rs
    let d := if ssp = .glob then d.samplePiece drip mem e.src .read src else d
    let d := if dsp = .glob then d.samplePiece drip mem e.src .write dst else d
    let s := d.unitStore drip mem e.src (ws.zip (rs.map (d.unitByte drip mem)))
    .eff (s.1.updHead clus eng (fun x => { x with pos := e.pos + ws.length, held := false })) s.2

/-- The next piece of a CXFER. -/
def Dev.copyPiece (d : Dev) (drip : Nat) (mem : Memory) (clus eng : Nat) (e : EEntry) (dst src n : Nat)
    (dsp ssp : Space) : Res :=
  let p := nextPiece dst src n e.pos (copyDown dst src n dsp ssp)
  let bad := fun (k : AccK) (g : Got) => match g with
    | .ok _ => none
    | .wait => some (Res.eff d [])
    | .failing line => some (.eff (d.scrub mem line).1 (d.scrub mem line).2)
    | .hole p => some (.fault (.hole p))
    | .fault c lv va => some (.eff (d.stopOn mem clus eng e c lv k va) [])
    | .refused c =>
      let w := d.strew drip mem e.src dst src n dsp ssp n (e.pos + p.2) []
      some (.eff ({ d with fresh := d.fresh + w.length }.failHead clus eng c) w)
  let r := d.pieceGot drip mem e.src .read ssp (src + p.1) p.2
  match bad .read r with
  | some x => x
  | none =>
    let w := d.pieceGot drip mem e.src .write dsp (dst + p.1) p.2
    match bad .write w with
    | some x => x
    | none => match r, w with
      | .ok rs, .ok ws => d.movePiece drip mem clus eng e (wd64 (dst + p.1)) (wd64 (src + p.1)) dsp ssp rs ws
      | _, _ => .eff d []

/-! ### Feeds (R218, R219, R237) -/

/-- A unit's place, in its record's space. -/
def Dev.unitGot (d : Dev) (drip : Nat) (mem : Memory) (e : EEntry) (k : AccK) (a : Word) (n gall len : Nat) : Got :=
  if e.lay.sp = 2 then
    if len < a.toNat + n then .refused Cause.windowRange
    else if k = .read then d.gotNear (gall + a.toNat) n
    else .ok ((List.range n).map (gall + a.toNat + ·))
  else d.got drip mem e.src k a n

/-- The gallery bytes of the cycle that the units of a feed from `i` on begin; none within a cycle (R238). -/
def Layout.cycle (l : Layout) (gall i : Nat) : List Nat :=
  let per := 128 / unitBytes l.fmt
  if l.sp = 2 ∧ i % per = 0 then
    (List.range (min per (l.units - i))).flatMap (fun k =>
      (List.range (unitBytes l.fmt)).map (fun b => gall + (l.unitAt (i + k)).toNat + b))
  else []

/-- Count conflicts under a record, when the units from `i` begin a gallery cycle. -/
def Dev.countConfl (d : Dev) (clus : Nat) (lrec : Fin 8) (l : Layout) (i : Nat) : Dev :=
  let per := 128 / unitBytes l.fmt
  if l.sp = 2 ∧ i % per = 0 then
    d.updArray clus (fun a => { a with
      confl := a.confl.set lrec.val (min (a.confl[lrec.val] + l.conflicts i (min (i + per) l.units)) 0xFFFFFFFF) })
  else d

/-- Land a unit in a list of slabs: a new slab at its beginning. -/
def landIn (eng : Nat) (f : Fmt) (first last : Bool) (u : Nat × Nat) (l : List Slab) : List Slab :=
  let l := if first then l ++ [⟨f, [], some eng, false⟩] else l
  l.map (fun (s : Slab) => if s.feed = some eng then
    { s with units := s.units ++ [u], feed := if last then none else some eng } else s)

/-- Put a unit into its stream, unless it is one to discard. -/
def Dev.landUnit (d : Dev) (clus eng stream : Nat) (e : EEntry) (u : Nat × Nat) : Dev :=
  let f := e.lay.fmt
  let per := 32 * rowUnits f
  let first := e.pos % per = 0
  let last := (e.pos + 1) % per = 0
  let a := (d.clus clus).array
  let drop := if stream = 0 then a.dropA else a.dropB
  let skip := if first then drop != 0 else e.skip
  let d := d.updArray clus (fun a =>
    if stream = 2 then { a with r := a.r ++ [(f, u.1)] }
    else if skip then
      if !first then a else if stream = 0 then { a with dropA := a.dropA - 1 } else { a with dropB := a.dropB - 1 }
    else if stream = 0 then { a with a := landIn eng f first last u a.a }
    else { a with b := landIn eng f first last u a.b })
  (d.updHead clus eng (fun x => { x with
    pos := e.pos + 1
    held := false
    skip := if stream = 2 then false else skip })).updArray clus MArray.advance

/-- The stream cannot take the feed's next unit yet (R237). -/
def MArray.full (a : MArray) (stream : Nat) (e : EEntry) : Bool :=
  let first := e.pos % (32 * rowUnits e.lay.fmt) == 0
  match stream with
  | 0 => first && a.dropA == 0 && decide (2 ≤ a.a.length)
  | 1 => first && a.dropB == 0 && decide (2 ≤ a.b.length)
  | _ => decide (2048 ≤ a.r.length)

/-- Read a unit of a feed, and land it. -/
def Dev.feedUnit (d : Dev) (drip : Nat) (mem : Memory) (clus eng : Nat) (lrec : Fin 8) (stream gall : Nat) (e : EEntry)
    (rs ss : List Nat) : Res :=
  match d.takeNear drip clus [e.lay.cycle gall e.pos] with
  | none => .eff d []
  | some d =>
    let v := gather (d.unitByte drip mem)
    let d := d.visitRead drip mem e.src (rs ++ ss)
    let d := if e.lay.sp = 2 then d else d.samplePiece drip mem e.src .read (e.lay.unitAt e.pos)
    .eff ((d.countConfl clus lrec e.lay e.pos).landUnit clus eng stream e (v rs, v ss)) []

/-- STREAM_UNIT_LAND (R228, R237): the next unit of a feed into A, B or R. -/
def execStreamUnitLand (clus eng : Nat) : State → Host.Outcome State Fault Refusal :=
  engineStep clus eng (fun drip mem d e => match e.c with
    | .feed lrec stream gall len =>
      let d := d.giveUp drip mem clus
      let a := (d.clus clus).array
      let g := e.bound.getD (0, 0)
      let current := match a.grant with
        | some x => x.index == g.1 && x.gen == g.2
        | none => false
      if stream = 3 then .eff d []
      else if (a.owner ≠ some e.src.core ∧ !current) ∨ (e.held ∧ d.grantOver drip clus g.1 g.2) then
        .eff (d.failHead clus eng Cause.arrayLeaseLapsed) []
      else if a.owner ≠ some e.src.core ∨ a.full stream e then .eff d []
      else
        let bad := fun (g : Got) => match g with
          | .ok _ => none
          | .wait => some (Res.eff d [])
          | .failing line => some (.eff (d.scrub mem line).1 (d.scrub mem line).2)
          | .hole p => some (.fault (.hole p))
          | .fault c lv va => some (.eff (d.stopOn mem clus eng e c lv .read va) [])
          | .refused c => some (.eff (d.failHead clus eng c) [])
        let r := d.unitGot drip mem e .read (e.lay.unitAt e.pos) (unitBytes e.lay.fmt) gall len
        let s := match e.lay.scaleAt e.pos with
          | some sa => d.unitGot drip mem e .read sa 1 gall len
          | none => .ok []
        match bad r, bad s with
        | some x, _ => x
        | none, some x => x
        | none, none => match r, s with
          | .ok rs, .ok ss => d.feedUnit drip mem clus eng lrec stream gall e rs ss
          | _, _ => .eff d []
    | _ => .eff d [])

/-- Write units of a tile from `i` on, at most `n` of them: the writes, and what stopped them. -/
def Dev.putUnits (d : Dev) (drip : Nat) (mem : Memory) (e : EEntry) (t : Tile) (gall len : Nat) :
    Nat → Nat → List (Nat × Byte) → Nat × List (Nat × Byte) × Got
  | 0, i, w => (i, w, .ok [])
  | n + 1, i, w =>
    if 1024 ≤ i then (i, w, .ok [])
    else
      let ub := unitBytes t.fmt
      match d.unitGot drip mem e .write (e.lay.unitAt i) ub gall len with
      | .ok ps => d.putUnits drip mem e t gall len n (i + 1)
          (w ++ ps.zipIdx.map (fun p => (p.1, byteOf (t.els.getD i 0) p.2)))
      | g => (i, w, g)

/-- A D feed: it takes the tile, or waits for one while its core's grant lives; then writes it, a gallery
cycle's worth at a time. -/
def Dev.drainPiece (d : Dev) (drip : Nat) (mem : Memory) (clus eng : Nat) (e : EEntry) (lrec : Fin 8)
    (gall len : Nat) : Res :=
  let a := (d.clus clus).array
  match e.tile with
  | none => match a.d with
    | some t =>
      let d := d.updArray clus (fun a => { a with d := none })
      if t.fmt ≠ e.lay.fmt then .eff (d.failHead clus eng Cause.streamShape) []
      else .eff (d.updHead clus eng (fun x => { x with tile := some t })) []
    | none => match e.bound with
      | some g =>
        let live := match d.liveGrant drip clus with
          | some x => x.index == g.1 && x.gen == g.2
          | none => false
        .eff (if live then d else d.failHead clus eng Cause.arrayLeaseLapsed) []
      | none => match d.liveGrant drip clus with
        | some x =>
          .eff (if x.core = e.src.core then d.updHead clus eng (fun y => { y with bound := some (x.index, x.gen) }) else d) []
        | none => .eff d []
  | some t => match d.takeNear drip clus [e.lay.cycle gall e.pos] with
    | none => .eff d []
    | some d =>
    let r := d.putUnits drip mem e t gall len (128 / unitBytes t.fmt) e.pos []
    let s := d.unitStore drip mem e.src r.2.1
    let d := if e.pos = r.1 then d
      else (if e.lay.sp = 2 then s.1 else s.1.samplePiece drip mem e.src .write (e.lay.unitAt e.pos)).countConfl clus lrec
        e.lay e.pos
    let d := d.updHead clus eng (fun x => { x with
      pos := r.1
      held := false })
    match r.2.2 with
    | .ok _ | .wait | .failing _ => .eff d s.2
    | .hole p => .fault (.hole p)
    | .fault c lv va => .eff (d.stopOn mem clus eng { e with pos := r.1 } c lv .write va) s.2
    | .refused c => .eff (d.failHead clus eng c) s.2

/-! ### Page moves (R358) -/

/-- One byte into a CRC-32C. -/
def crcByte (c : Nat) (b : Byte) : Nat :=
  (List.range 8).foldl (fun c _ => if c % 2 = 1 then (c / 2) ^^^ 0x82F63B78 else c / 2) (c ^^^ b.toNat)

/-- CRC-32C. -/
def crc32c (l : List Byte) : Nat := (l.foldl crcByte 0xFFFFFFFF) ^^^ 0xFFFFFFFF

/-- The bytes of a natural. -/
def bytesOf (n v : Nat) : List Byte := (List.range n).map (byteOf v)

/-- The lowest code that represents a line exactly, and its payload (Table 17-16). -/
def packLine (v : Nat) : Nat × List Byte :=
  let w := fun i => fld v (32 * i) 32
  let q := fun i => fld v (64 * i) 64
  let d1 := fun i => (w i + 2 ^ 32 - w 0) % 2 ^ 32
  let d2 := fun i => (q i + 2 ^ 64 - q 0) % 2 ^ 64
  if v = 0 then (0, [])
  else if (List.range 32).all (fun i => decide (d1 i < 128) || decide (2 ^ 32 - 128 ≤ d1 i)) then
    (1, bytesOf 4 (w 0) ++ (List.range 32).map (fun i => BitVec.ofNat 8 (d1 i)))
  else if (List.range 16).all (fun i => decide (d2 i < 2 ^ 15) || decide (2 ^ 64 - 2 ^ 15 ≤ d2 i)) then
    (2, bytesOf 8 (q 0) ++ (List.range 16).flatMap (fun i => bytesOf 2 (d2 i)))
  else (3, bytesOf 128 v)

/-- A page's image from its lines. -/
def packImage (lines : List Nat) : List Byte :=
  let n := 128 * lines.length
  let ps := lines.map packLine
  let map := (List.range (lines.length / 4)).map (fun j =>
    BitVec.ofNat 8 ((List.range 4).foldl (fun m k => m + (ps.getD (4 * j + k) (0, [])).1 * 4 ^ k) 0))
  let body := map ++ ps.flatMap Prod.snd
  bytesOf 8 (0x5A50 + n * 2 ^ 32) ++ bytesOf 8 (crc32c body + (64 + body.length) * 2 ^ 32) ++ bytesOf 48 0 ++ body

/-- A natural from bytes, little-endian. -/
def natOf (l : List Byte) : Nat := l.foldr (fun b n => b.toNat + 256 * n) 0

/-- Expand lines from their codes and payloads. -/
def unpackLines : List Nat → List Byte → List (List Byte)
  | [], _ => []
  | c :: cs, p =>
    let k := if c = 0 then 0 else if c = 1 then 36 else if c = 2 then 40 else 128
    let s := p.take k
    (if c = 0 then bytesOf 128 0
      else if c = 1 then
        (List.range 32).flatMap (fun i =>
          bytesOf 4 ((natOf (s.take 4) + ((s.getD (4 + i) 0).signExtend 32).toNat) % 2 ^ 32))
      else if c = 2 then
        (List.range 16).flatMap (fun i =>
          bytesOf 8 ((natOf (s.take 8)
            + ((BitVec.ofNat 16 (natOf ((s.drop (8 + 2 * i)).take 2))).signExtend 64).toNat) % 2 ^ 64))
      else s) :: unpackLines cs (p.drop k)

/-- Expand an image to `n` bytes, as lines; none when it is not one. -/
def unpackImage (n : Nat) (img : List Byte) : Option (List (List Byte)) :=
  let w0 := natOf (img.take 8)
  let w1 := natOf ((img.drop 8).take 8)
  let body := img.drop 64
  if fld w0 0 16 ≠ 0x5A50 ∨ fld w0 32 32 ≠ n ∨ n % 512 ≠ 0 ∨ fld w1 32 32 ≠ img.length ∨ fld w1 0 32 ≠ crc32c body then none
  else
    let codes := (body.take (n / 512)).flatMap (fun b => (List.range 4).map (fun k => fld b.toNat (2 * k) 2))
    some (unpackLines codes (body.drop (n / 512)))

/-- Read `n` bytes from an address on, a line at a time; `acc` holds what is read so far. -/
def Dev.readAll (d : Dev) (drip : Nat) (mem : Memory) (src : From) : Nat → Word → Nat → List Nat → Got
  | 0, _, _, acc => .ok acc
  | f + 1, va, n, acc =>
    if n = 0 then .ok acc
    else
      let k := min n (128 - va.toNat % 128)
      match d.gotLine drip mem src .read va k with
      | .ok l => d.readAll drip mem src f (va + wd64 k) (n - k) (acc ++ l)
      | g => g

/-- Write bytes from an address on, a line at a time: the count of those written, the writes, and what
stopped them. -/
def Dev.writeAll (d : Dev) (drip : Nat) (mem : Memory) (src : From) : Nat → Word → List Byte → Nat → List (Nat × Byte) →
    Nat × List (Nat × Byte) × Got
  | 0, _, _, done, w => (done, w, .ok [])
  | f + 1, va, bs, done, w =>
    if bs = [] then (done, w, .ok [])
    else
      let k := min bs.length (128 - va.toNat % 128)
      match d.gotLine drip mem src .write va k with
      | .ok l => d.writeAll drip mem src f (va + wd64 k) (bs.drop k) (done + k) (w ++ l.zip bs)
      | g => (done, w, g)

/-- End a page move: the bytes to write, and the cause and units of its record when they are written. -/
def Dev.movePage (d : Dev) (drip : Nat) (mem : Memory) (clus eng : Nat) (e : EEntry) (dst : Word) (bs : List Byte)
    (cause : Option Nat) : Res :=
  let r := d.writeAll drip mem e.src (bs.length + 1) dst bs 0 []
  match r.2.2 with
  | .ok _ =>
    let s := d.unitStore drip mem e.src r.2.1
    .eff (s.1.updHead clus eng (fun x => { x with
      pos := r.1
      fail := cause })) s.2
  | .wait | .failing _ => .eff d []
  | .hole p => .fault (.hole p)
  | .fault c lv va => .eff (d.stopOn mem clus eng e c lv .write va) []
  | .refused c =>
    let s := d.unitStore drip mem e.src r.2.1
    .eff (s.1.updHead clus eng (fun x => { x with
      pos := r.1
      fail := some c })) s.2

/-- CXFER.pack. -/
def Dev.packPage (d : Dev) (drip : Nat) (mem : Memory) (clus eng : Nat) (e : EEntry) (dst src : Word) (n z : Nat) : Res :=
  match d.readAll drip mem e.src (n / 128) src n [] with
  | .wait => .eff d []
  | .failing line => .eff (d.scrub mem line).1 (d.scrub mem line).2
  | .hole p => .fault (.hole p)
  | .fault c lv va => .eff (d.stopOn mem clus eng e c lv .read va) []
  | .refused c => .eff (d.failHead clus eng c) []
  | .ok l =>
    let d := d.visitRead drip mem e.src l
    let bs := l.map (d.unitByte drip mem)
    let img := packImage ((List.range (n / 128)).map (fun k => natOf ((bs.drop (128 * k)).take 128)))
    let cmpr : Bool := match d.leafOf mem e.src.ctx src .read with
      | .ok (l, _) => leafCmpr l
      | .error _ => false
    if cmpr ∧ img.length ≤ z then d.movePage drip mem clus eng e dst img none
    else d.movePage drip mem clus eng e dst bs (some Cause.compressRefused)

/-- CXFER.fpack: the issuing core consumes the error when the image is not good (R355). -/
def Dev.unpackPage (d : Dev) (drip : Nat) (mem : Memory) (clus eng : Nat) (e : EEntry) (dst src : Word) (n : Nat) : Res :=
  let stop := fun (g : Got) => match g with
    | .ok _ | .wait => Res.eff d []
    | .failing line => .eff (d.scrub mem line).1 (d.scrub mem line).2
    | .hole p => .fault (.hole p)
    | .fault c lv va => .eff (d.stopOn mem clus eng e c lv .read va) []
    | .refused c => .eff (d.failHead clus eng c) []
  match d.readAll drip mem e.src 3 src 16 [] with
  | .ok hs =>
    let sz := natOf (((hs.map (d.unitByte drip mem)).drop 12).take 4)
    let bad := Res.eff ((d.failHead clus eng Cause.decompressCrc).consume e.src.core Cause.decompressCrc (hs.headD 0)) []
    if sz < 64 ∨ 64 + n / 512 + n < sz then bad
    else match d.readAll drip mem e.src (sz / 128 + 2) src sz [] with
    | .ok l => match unpackImage n (l.map (d.unitByte drip mem)) with
      | some ls => d.movePage drip mem clus eng e dst ls.flatten none
      | none => bad
    | g => stop g
  | g => stop g

/-- ENGINE_PIECE (R234): the next piece of the command that an engine serves. -/
def execEnginePiece (clus eng : Nat) : State → Host.Outcome State Fault Refusal :=
  engineStep clus eng (fun drip mem d e => match e.c with
    | .xfer dst src n dsp ssp => d.copyPiece drip mem clus eng e dst src n dsp ssp
    | .pack dst src n z => d.packPage drip mem clus eng e dst src n z
    | .fpack dst src n => d.unpackPage drip mem clus eng e dst src n
    | .feed lrec 3 gall len => d.drainPiece drip mem clus eng e lrec gall len
    | .feed .. => .eff d [])

end Sys2Proof.Machine
end

