-- ==== Sys2Proof/Machine/Launch.lean ====
section
/-!
DEFINITION. Launches and the frontier (spec 16 R312 to R320, R327 to R330; 15 R302 to R306): records and
headers, admission, rows and firing, DONE, and the end of a launch.
-/
namespace Sys2Proof.Machine
open Sys2Proof

/-! ### The record and the header (Tables 16-1 to 16-5) -/

/-- Dword `k` of the record. -/
def Launch.rw (l : Launch) (k : Nat) : Word := l.record.getD k 0
/-- Dword `k` of the header. -/
def Launch.hw (l : Launch) (k : Nat) : Word := l.hdr.getD k 0

def Launch.entry (l : Launch) : Word := l.rw 0
def Launch.args (l : Launch) : Word := l.rw 1
def Launch.ex (l : Launch) : Nat := bits (l.rw 2) 0 20 + 1
def Launch.ey (l : Launch) : Nat := bits (l.rw 2) 20 20 + 1
def Launch.ez (l : Launch) : Nat := bits (l.rw 2) 40 20 + 1
def Launch.ftab (l : Launch) : Word := l.rw 3
def Launch.restore (l : Launch) : Bool := bit (l.rw 7) 23
def Launch.rlease (l : Launch) : Nat := bits (l.rw 7) 10 11
def Launch.gall (l : Launch) : Nat := bits (l.rw 7) 4 6
def Launch.prio (l : Launch) : Nat := bits (l.rw 7) 0 2
def Launch.donea (l : Launch) : Word := l.rw 9
def Launch.saveh (l : Launch) : Word := l.rw 10
def Launch.cores (l : Launch) : Nat := bits (l.hw 0) 0 4 + 1
def Launch.slots (l : Launch) : Nat := bits (l.hw 0) 4 4 + 1
def Launch.space (l : Launch) : Nat := bits (l.hw 0) 9 2
def Launch.power (l : Launch) : Nat := bits (l.hw 0) 11 2
def Launch.ndep (l : Launch) : Nat := bits (l.hw 0) 14 3
/-- Park fraction in sixteenths, and budget (R307). -/
def Launch.parkf (l : Launch) : Nat := bits (l.hw 0) 17 4 + 1
def Launch.parkb (l : Launch) : Nat := bits (l.hw 0) 21 21
/-- A signed byte. -/
def sbyte (n : Nat) : Int := if n < 128 then n else (n : Int) - 256
/-- Vector `i`: dy and dx. -/
def Launch.dep (l : Launch) (i : Nat) : Int × Int := (sbyte (bits (l.hw 1) (16 * i + 8) 8), sbyte (bits (l.hw 1) (16 * i) 8))
/-- Declared depth of queue `i`, and its producers and consumers by crew index. -/
def Launch.depth (l : Launch) (i : Nat) : Nat := bits (l.hw (3 + i)) 0 9
def Launch.prod (l : Launch) (i c : Nat) : Bool :=
  l.depth i != 0 && bits (l.hw (3 + i)) 12 4 ≤ c && c ≤ bits (l.hw (3 + i)) 16 4
def Launch.cons (l : Launch) (i c : Nat) : Bool :=
  l.depth i != 0 && bits (l.hw (3 + i)) 20 4 ≤ c && c ≤ bits (l.hw (3 + i)) 24 4
/-- Declared queues: number and depth. -/
def Launch.queues (l : Launch) : List (Nat × Nat) :=
  (List.range 4).filterMap (fun i => if l.depth i = 0 then none else some (i, l.depth i))

/-- SLOTCFG of crew index `c` in slot `s` (R18, R321). -/
def Launch.slotcfg (l : Launch) (c s : Nat) : Word :=
  wd64 ((List.range 4).foldl (fun n i => n + (if l.prod i c then 2 else if l.cons i c then 1 else 0) * 4 ^ i) 0
    + bits (l.hw 2) (32 + c) 1 * 2 ^ 8 + bits (l.hw 2) (2 * c) 2 * 2 ^ 26 + s * 2 ^ 28)

/-- Who acts for a launch in its context. -/
def Launch.from (l : Launch) : From := ⟨0, 0, l.ctx, l.tenant, 0, 0⟩

/-! ### Frontier records (Table 15-3) -/

def recC (r : Word) : Nat := bits r 0 21
def recDone (r : Word) : Nat := bits r 21 16
def recFly (r : Word) : Nat := bits r 37 16
/-- A record of C and the two bitmaps. -/
def mkRec (c dn fly : Nat) : Word := wd64 (c + dn % 65536 * 2 ^ 21 + fly % 65536 * 2 ^ 37)

/-- A record is valid for rows of `ex` points (R319). -/
def recOk (ex : Nat) (r : Word) : Bool :=
  bits r 53 11 = 0 && recC r ≤ ex && recDone r &&& recFly r = 0 && recDone r % 2 = 0
  && (recDone r ||| recFly r) < 2 ^ (ex - recC r)

/-- While its lowest DONEB bit is set, a record's prefix grows (R303). -/
def recShift : Nat → Word → Word
  | 0, r => r
  | n + 1, r => if recDone r % 2 = 1 then recShift n (mkRec (recC r + 1) (recDone r / 2) (recFly r / 2)) else r

/-- The first `n` numbers from `i` on, below `stop`, that `p` admits; at most `fuel` are looked at. -/
def lowest (p : Nat → Bool) (stop : Nat) : Nat → Nat → Nat → List Nat
  | 0, _, _ => []
  | f + 1, n, i =>
    if n = 0 ∨ stop ≤ i then []
    else if p i then i :: lowest p stop f (n - 1) (i + 1)
    else lowest p stop f n (i + 1)

/-- The rows kept (R318): of the four lowest planes with an incomplete row, the 64 lowest incomplete rows. -/
def Launch.kept (l : Launch) : List Nat :=
  let done := l.doneRows.length
  let planes := lowest (fun z => (l.doneRows.filter (fun r => r / l.ey == z)).length < l.ey) l.ez (done + 4) 4 0
  planes.flatMap (fun z =>
    (lowest (fun y => !l.doneRows.contains (z * l.ey + y)) l.ey (done + 64) 64 0).map (fun y => z * l.ey + y))

/-- The record of a row as the unit holds it (R330). -/
def Launch.row (l : Launch) (r : Nat) : Word :=
  if l.doneRows.contains r then mkRec l.ex 0 0 else (find? r l.rows).getD 0

/-- A point counts as complete (R303). -/
def Launch.complete (l : Launch) (z : Nat) (y x : Int) : Bool :=
  y < 0 || l.ey ≤ y || x < 0 || l.ex ≤ x ||
    (let r := l.row (z * l.ey + y.toNat)
     x < recC r || (x < recC r + 16 && (recDone r).testBit (x.toNat - recC r)))

/-- A point may fire (R303). -/
def Launch.mayFire (l : Launch) (row k : Nat) : Bool :=
  let r := l.row row
  let x := recC r + k
  x < l.ex && !(recDone r).testBit k && !(recFly r).testBit k
  && (List.range l.ndep).all (fun i => l.complete (row / l.ey) ((row % l.ey : Nat) + (l.dep i).1) ((x : Int) + (l.dep i).2))

/-- The order of a launch's queue (R304). -/
def QPoint.before (p q : QPoint) : Bool :=
  p.drip < q.drip || (p.drip == q.drip && (p.z < q.z || (p.z == q.z && (p.y < q.y || (p.y == q.y && p.x < q.x)))))

/-- Put a point in its place in a queue. -/
def enqueue (p : QPoint) : List QPoint → List QPoint
  | [] => [p]
  | q :: l => if p.before q then p :: q :: l else q :: enqueue p l

/-- Fire every point that may fire, in drip `drip`; they may be admitted from `ready` on. A launch that has
failed fires none. -/
def Launch.fire (l : Launch) (drip ready : Nat) : Launch :=
  if l.failed.isSome then l
  else
    let pts := l.kept.flatMap (fun r => if (find? r l.rows).isSome then
      ((List.range 16).filter (l.mayFire r)).map (fun k => (r, k)) else [])
    let rows := pts.foldl (fun m p => match find? p.1 m with
      | some w => put p.1 (mkRec (recC w) (recDone w) (recFly w ||| 2 ^ p.2)) m
      | none => m) l.rows
    let q := pts.foldl (fun q p =>
      enqueue ⟨drip, p.1 / l.ey, p.1 % l.ey, recC (l.row p.1) + p.2, ready⟩ q) l.queue
    { l with
      rows := rows
      queue := q }

/-- What a unit's work that reads memory comes to. -/
inductive Work (α : Type) where
  | ok (a : α)
  | wait
  | hole (place : Nat)

/-- A launch fails with LAUNCH_REFUSED and a reason of Table 16-7. -/
def Launch.failing (l : Launch) (reason : Nat) : Launch :=
  { l with failed := some (l.failed.getD (Cause.launchRefused, reason)) }

/-- Rows enter (R318, R319): each at zero, or with its record of the table when the launch restores; points
in flight of such a record enter the queue again. -/
def Dev.enterRows (d : Dev) (drip : Nat) (mem : Memory) (ready : Nat) : Nat → Launch → Work Launch
  | 0, l => .ok l
  | n + 1, l =>
    match l.kept.find? (fun r => (find? r l.rows).isNone) with
    | none => .ok l
    | some r =>
      if !l.restore then d.enterRows drip mem ready n { l with rows := put r 0 l.rows }
      else match d.reach drip mem l.ctx .read (span (l.ftab + wd64 (8 * r)) 8) with
      | .wait => .wait
      | .hole p => .hole p
      | .refused _ _ => .ok (l.failing 9)
      | .ok ps =>
        let w := wd64 (gather (d.unitByte drip mem) ps)
        if !recOk l.ex w then .ok (l.failing 9)
        else if recC w = l.ex then d.enterRows drip mem ready n { l with doneRows := r :: l.doneRows }
        else
          let q := ((List.range 16).filter (recFly w).testBit).foldl (fun q k =>
            enqueue ⟨drip, r / l.ey, r % l.ey, recC w + k, ready⟩ q) l.queue
          d.enterRows drip mem ready n { l with
            rows := put r w l.rows
            queue := q }

/-- Every row that enters, then every point that may fire. -/
def Dev.advanceFrontier (d : Dev) (drip : Nat) (mem : Memory) (ready : Nat) (l : Launch) : Work Launch :=
  match d.enterRows drip mem ready (l.ez * l.ey + 1) l with
  | .ok l => .ok (l.fire drip ready)
  | w => w

/-! ### Writes by the units that act for a launch -/

/-- What a unit's write of words comes to. -/
inductive Wrote where
  | ok (d : Dev) (w : List (Nat × Byte))
  | refused (cause : Nat)
  | wait
  | hole (place : Nat)

/-- Write a dword in a context, under its range's guard. -/
def Dev.writeWord (d : Dev) (drip : Nat) (mem : Memory) (src : From) (va : Word) (v : Nat) : Wrote :=
  match d.reach drip mem src.ctx .write (span va 8) with
  | .wait => .wait
  | .hole p => .hole p
  | .refused c _ => .refused c
  | .ok ps =>
    if !(ps.map lineOf).eraseDups.all (d.unitMayWrite drip) then .wait
    else
      let r := d.unitStore drip mem src (ps.zipIdx.map (fun p => (p.1, byteOf v p.2)))
      .ok r.1 r.2

/-- Write dwords in order; the first refusal ends it, and nothing is written. -/
def Dev.writeWords (d : Dev) (drip : Nat) (mem : Memory) (src : From) : List (Word × Nat) → List (Nat × Byte) → Wrote
  | [], w => .ok d w
  | p :: ps, w =>
    match d.writeWord drip mem src p.1 p.2 with
    | .ok d w' => d.writeWords drip mem src ps (w ++ w')
    | r => r

/-- A completion record (Table 16-6): CAUSE, REASON, and the stamp of its write. -/
def completionWords (donea : Word) (cause reason drip : Nat) : List (Word × Nat) :=
  [(donea, 2 ^ 63 + reason % 256 * 2 ^ 40 + cause % 1024), (donea + 8, drip % 2 ^ 64)]

/-- Write a completion record at `donea`. When its guard refuses it, a log record says so (R314). Answers the
cause the work counts as having ended with. -/
def Dev.complete (d : Dev) (drip : Nat) (mem : Memory) (src : From) (donea : Word) (cause reason : Nat) :
    Work (Dev × List (Nat × Byte) × Nat) :=
  match d.writeWords drip mem src (completionWords donea cause reason drip) [] with
  | .ok d w => .ok (d, w, cause)
  | .refused c => .ok (d.fileUnitLog 0 src.tenant c donea, [], c)
  | .wait => .wait
  | .hole p => .hole p

/-! ### Admission (R316, Table 16-7) -/

/-- Check 1. -/
def Launch.badRecord (l : Launch) : Bool :=
  bits (l.rw 2) 60 4 != 0 || bits (l.rw 6) 32 32 != 0 || (List.range 3).any (fun k => l.rw (12 + k) != 0)
  || bits (l.rw 7) 24 40 != 0 || bits (l.rw 7) 21 2 != 0 || bits (l.rw 7) 2 2 != 0
  || l.gall == 0 || 32 < l.gall || l.rlease < 32 || 1024 < l.rlease
  || (l.space != 0 && ((l.space < 3 && l.ez != 1) || (l.space < 2 && l.ey != 1)))
  || l.ftab.toNat % 8 != 0 || l.donea.toNat % 16 != 0

/-- A queue declaration is inconsistent (Table 16-3; R32, R60). -/
def Launch.badQueue (l : Launch) (i : Nat) : Bool :=
  let w := l.hw (3 + i)
  if l.depth i = 0 then w != 0
  else bits w 28 36 != 0 || bits w 9 3 != 0 || 256 < l.depth i || bits w 16 4 < bits w 12 4 || bits w 24 4 < bits w 20 4
    || l.slots ≤ bits w 16 4 || l.slots ≤ bits w 24 4 || !(bits w 16 4 < bits w 20 4 || bits w 24 4 < bits w 12 4)

/-- Check 2. -/
def Launch.badHeader (l : Launch) : Bool :=
  let h := l.hw 0
  l.entry.toNat % 64 != 2 || bits h 48 16 != 0xBA5A || bits h 42 6 != 0 || bit h 8 || l.power == 3 || l.space == 0
  || l.parkb < 256 || 2 ^ 20 < l.parkb || bits (l.hw 2) 48 16 != 0 || l.hw 7 != 0
  || (List.range 4).any l.badQueue
  || bits (l.hw 2) 0 32 / 4 ^ l.slots != 0 || bits (l.hw 2) 32 16 / 2 ^ l.slots != 0

/-- Check 3. -/
def Launch.badDeps (l : Launch) : Bool :=
  4 < l.ndep || (List.range 4).any (fun i =>
    let v := l.dep i
    if l.ndep ≤ i then bits (l.hw 1) (16 * i) 16 != 0
    else v.1 < -8 || 0 < v.1 || v.2 < -8 || 8 < v.2 || !(v.1 < 0 || v.2 < 0))

/-- Check 4: some cluster of the tenant's holds enough cores that are not service cores. -/
def Dev.shapeOk (d : Dev) (mem : Memory) (l : Launch) : Bool :=
  let row := d.tenRow mem l.tenant
  (List.range 128).any (fun c => rowHolds row c
    && l.cores ≤ ((List.range 16).filter (fun i => !d.isService (clusCore c i))).length)

/-- A handle of the record names a live range of the launch's context. -/
def Dev.rangeHandle (d : Dev) (drip : Nat) (l : Launch) (h : Word) : Option Lease :=
  if hKind h ≠ 1 then none
  else match d.judged drip l.from h with
  | .ok x => some x
  | .error _ => none

/-- `n` bytes from an address lie in a range's extent. -/
def Dev.inRange (d : Dev) (mem : Memory) (ctx : Nat) (x : Lease) (va : Word) (n : Nat) : Bool :=
  match x.payload with
  | .range b size base =>
    if base ≠ 0 then base.toNat ≤ va.toNat && va.toNat + n ≤ base.toNat + size
    else match d.resolve mem ctx va .read, d.resolve mem ctx (va + wd64 (n - 1)) .read with
    | .ok p, .ok q => b ≤ p && q == p + (n - 1) && q < b + size
    | _, _ => false
  | _ => false

/-- Check 6. -/
def Dev.badLeases (d : Dev) (drip : Nat) (mem : Memory) (l : Launch) : Bool :=
  (match d.rangeHandle drip l (l.rw 4) with
    | some x => !d.inRange mem l.ctx x l.args 8
    | none => true)
  || (match d.rangeHandle drip l (l.rw 5) with
    | some x => !d.inRange mem l.ctx x l.ftab (8 * (l.ez * l.ey)) || 4 ≤ d.links x
    | none => true)
  || (l.saveh != 0 && (d.rangeHandle drip l l.saveh).isNone)

/-- The launch that a frontier handle names, in a context. -/
def Dev.launchOf (d : Dev) (drip : Nat) (src : From) (h : Word) : Except Nat (Nat × Launch) :=
  if hKind h ≠ 10 then .error Cause.genMismatch
  else match d.judged drip src h with
  | .error c => .error c
  | .ok x => match x.payload with
    | .frontier n => match d.lch n with
      | some l => .ok (n, l)
      | none => .error Cause.genMismatch
    | _ => .error Cause.genMismatch

/-- Check 7. -/
def Dev.badAfter (d : Dev) (drip : Nat) (l : Launch) : Bool :=
  l.rw 8 != 0 && (match d.launchOf drip l.from (l.rw 8) with
    | .error _ => true
    | .ok p => p.2.ended.any (· != 0))

/-- Launches that the frontier unit of a home's die holds. -/
def Dev.frontierLoad (d : Dev) (home : AgentId) : Nat :=
  (d.launches.filter (fun p => p.2.ended.isNone && p.2.agent.mod == home.mod && p.2.agent.die == home.die)).length

/-- The first check that fails, by its code; 0 when checks 1 to 8 pass. -/
def Dev.launchCheck (d : Dev) (drip : Nat) (mem : Memory) (l : Launch) : Nat :=
  if l.badRecord then 1
  else if l.badHeader then 2
  else if l.badDeps then 3
  else if !d.shapeOk mem l then 4
  else if 256 < (l.queues.map Prod.snd).sum then 5
  else if d.badLeases drip mem l then 6
  else if d.badAfter drip l then 7
  else if 32 ≤ d.frontierLoad l.agent then 8
  else 0

/-- A launch as its record and header give it, not yet judged. -/
def mkLaunch (id ctx tenant : Nat) (record hdr : List Word) (irq : Bool) : Launch where
  id := id
  ctx := ctx
  tenant := tenant
  record := record
  hdr := hdr
  agent := ⟨0, 0, 0, 0⟩
  index := 0
  gen := 0
  waited := 0
  after := none
  leave := false
  rows := []
  doneRows := []
  queue := []
  fired := false
  failed := none
  ended := none
  irq := irq
  aged := 0

/-- Dwords of a natural. -/
def dwords (n v : Nat) : List Word := (List.range n).map (fun k => wd64 (fld v (64 * k) 64))

/-- What judging a launch comes to. -/
inductive Verd where
  | accept (d : Dev) (h : Word)
  | refuse (reason : Nat)
  | wait
  | hole (place : Nat)

/-- Judge a launch (R316). At acceptance the frontier lease is granted, tethered to TABH, the first rows
enter, and leave is asked for. -/
def Dev.judgeLaunch (d : Dev) (drip : Nat) (mem : Memory) (l0 : Launch) : Verd :=
  let home : AgentId := match d.resolve mem l0.ctx l0.ftab .read with
    | .ok p => d.homeOf 0 p
    | .error _ => ⟨d.modNo, 0, 0, 0⟩
  let l : Launch := { l0 with agent := home }
  let c := d.launchCheck drip mem l
  if c ≠ 0 then .refuse c
  else match d.enterRows drip mem drip (l.ez * l.ey + 1) l with
  | .wait => .wait
  | .hole p => .hole p
  | .ok e =>
    if e.failed.isSome ∨ (e.queue ≠ [] ∧ !l.refires) then .refuse 9
    else
      let parent := match d.rangeHandle drip l (l.rw 5) with
        | some x => some (x.agent, x.index, x.gen)
        | none => none
      match d.grantLease drip home .frontier (some l.ctx) l.tenant l.ctx 0 parent (.frontier l.id) with
      | (_, none) => .refuse 6
      | (d, some h) =>
        let e : Launch := { e with
          index := hIndex h
          gen := hGen h
          after := match d.launchOf drip l.from (l.rw 8) with
            | .ok p => if l.rw 8 = 0 then none else some p.1
            | .error _ => none }
        .accept ((({ d with nextLaunch := d.nextLaunch + 1 } : Dev).setLch l.id e).askLeave (leaveLaunch l.id)
          (if l.power = 0 then 0 else if l.power = 1 then 1 else 16) 0) h

/-! ### LAUNCH, POINT, FRRD -/

/-- LAUNCH (R328). -/
def execLaunch (o : RR) : State → Host.Outcome State Fault Refusal :=
  run (issueS false o.g { xs := [o.a], late := some o.d } (fun i =>
    i.one .read i.a 128 128 (fun _ _ => i.request o.d (.launch i.a))))

/-- LAUNCH_ARRIVAL (R328): the record and the header are read under their guards, and the launch is judged;
a refusal is replied once its completion record has been written. -/
def execLaunchArrival (m : Nat) : State → Host.Outcome State Fault Refusal :=
  run (fun drip mem d => match d.msg m with
    | some (.req src (.launch a)) =>
      if !d.acked src then .eff d []
      else
        let stop := fun (c : Nat) (va : Word) => Res.eff ((d.drop m).send (.error src c va 0 none)) []
        match d.reach drip mem src.ctx .read (span a 128) with
        | .wait => .eff d []
        | .hole p => .fault (.hole p)
        | .refused c va => stop c va
        | .ok ps =>
          let rcd := dwords 16 (gather (d.unitByte drip mem) ps)
          match d.reach drip mem src.ctx .read (span (rcd.getD 0 0 - 66) 64) with
          | .wait => .eff d []
          | .hole p => .fault (.hole p)
          | .refused c va => stop c va
          | .ok hs =>
            let l := mkLaunch d.nextLaunch src.ctx src.tenant rcd (dwords 8 (gather (d.unitByte drip mem) hs)) false
            match d.judgeLaunch drip mem l with
            | .wait => .eff d []
            | .hole p => .fault (.hole p)
            | .accept d h => .eff ((d.drop m).reply src h) []
            | .refuse r => match d.complete drip mem src l.donea Cause.launchRefused r with
              | .wait => .eff d []
              | .hole p => .fault (.hole p)
              | .ok (d, w, _) => .eff ((d.drop m).refuse src Cause.launchRefused) w
    | _ => .eff d [])

/-- POINT (R329). -/
def execPoint (o : RRRx) : State → Host.Outcome State Fault Refusal :=
  run (issueS false o.g { xs := [o.a, o.b], late := some o.d } (fun i =>
    withHandle i.a (some 10) (fun _ => i.request o.d (.point i.a i.b))))

/-- The state of a point and its row's C (R329). -/
def Launch.pointWord (l : Launch) (z y x : Nat) : Word :=
  let r := l.row (z * l.ey + y)
  wd64 (recC r * 2 ^ 20 + (if x < recC r then 2
    else if 16 ≤ x - recC r then 0
    else if (recDone r).testBit (x - recC r) then 2
    else if (recFly r).testBit (x - recC r) then 1 else 0))

/-- POINT_QUERY_ARRIVAL. -/
def execPointQueryArrival (m : Nat) : State → Host.Outcome State Fault Refusal :=
  onReq m (fun drip _ d src q => match q with
    | .point h xyz => some (d.answer src (match d.launchOf drip src h with
      | .error c => .error c
      | .ok (_, l) =>
        let z := bits xyz 40 20
        let y := bits xyz 20 20
        let x := bits xyz 0 20
        if bits xyz 60 4 ≠ 0 ∨ l.ez ≤ z ∨ l.ey ≤ y ∨ l.ex ≤ x then .error Cause.operandRange
        else .ok (l.pointWord z y x)), [])
    | _ => none)

/-- FRRD (R330). -/
def execFrrd (o : RRI) : State → Host.Outcome State Fault Refusal :=
  run (issueS false o.g { xs := o.a :: immRegs o.b, late := some o.d } (fun i =>
    withHandle i.a (some 10) (fun _ => i.request o.d (.frrd i.a (immValue o.b i.b)))))

/-- FRONTIER_READ_ARRIVAL. -/
def execFrontierReadArrival (m : Nat) : State → Host.Outcome State Fault Refusal :=
  onReq m (fun drip _ d src q => match q with
    | .frrd h row => some (d.answer src (match d.launchOf drip src h with
      | .error c => .error c
      | .ok (_, l) => if l.ez * l.ey ≤ row.toNat then .error Cause.operandRange else .ok (l.row row.toNat)), [])
    | _ => none)

/-! ### DONE (R303, R305) -/

/-- DONE: sent at once, or once the block's earlier stores have been accepted; a thread of no launch and a
point that has issued DONE do nothing. -/
def execDone (o : GOp) : State → Host.Outcome State Fault Refusal :=
  run (issueS false o.g {} (fun i =>
    match i.dev.blk i.t.blk with
    | none => .ok i.dev []
    | some b =>
      if b.launch.isNone ∨ b.doneSent ∨ b.doneWait.isSome then .ok i.dev []
      else
        let tids := b.crews.flatMap Crew.tids
        let ops := (i.dev.outst.filter (fun x => !x.isL && tids.contains x.tid)).map Outst.op
        if ops = [] then .ok (i.dev.sendDone i.t.blk i.t.coreSlot.1) []
        else .ok (i.dev.setBlk i.t.blk { b with doneWait := some (i.t.coreSlot.1, ops) }) []))

/-- The frontier lease of a launch is live. -/
def Dev.frontierLive (d : Dev) (drip : Nat) (l : Launch) : Bool :=
  match d.lease l.agent l.index with
  | some e => e.gen == l.gen && !d.lapsed drip e
  | none => false

/-- A row whose C has reached EX leaves the unit (R318): its record is written to the table. -/
def Dev.rowWritten (d : Dev) (drip : Nat) (mem : Memory) (l : Launch) (row : Nat) (w : Word) : Wrote :=
  d.writeWord drip mem l.from (l.ftab + wd64 (8 * row)) w.toNat

/-- A point's DONE at its table's home (R303), judged under the frontier lease: its bits change, a complete row
is written and leaves, rows enter, and points fire. A refused DONE fails its launch (R305, Table 16-8). -/
def Dev.takeDone (d : Dev) (drip : Nat) (mem : Memory) (n z y x : Nat) : Work (Dev × List (Nat × Byte)) :=
  match d.lch n with
  | none => .ok (d, [])
  | some l =>
    let row := z * l.ey + y
    let r := l.row row
    let k := x - recC r
    if l.ended.isSome then .ok (d, [])
    else if !d.frontierLive drip l then .ok (d.failLaunch n Cause.leaseLapsed 0, [])
    else if (find? row l.rows).isNone ∨ x < recC r ∨ 16 ≤ k ∨ (recDone r).testBit k then .ok (d, [])
    else
      let s := recShift 16 (mkRec (recC r) (recDone r ||| 2 ^ k) (recFly r &&& (65535 - 2 ^ k)))
      let full := recC s = l.ex
      let l : Launch := if full then { l with
          rows := del row l.rows
          doneRows := row :: l.doneRows }
        else { l with rows := put row s l.rows }
      match (if full then d.rowWritten drip mem l row s else Wrote.ok d []) with
      | .wait => .wait
      | .hole p => .hole p
      | .refused c => .ok ((d.setLch n l).failLaunch n c 0, [])
      | .ok d w => match d.advanceFrontier drip mem (drip + l.rlease) l with
        | .wait => .wait
        | .hole p => .hole p
        | .ok l => .ok (d.setLch n l, w)

/-- DONE_ARRIVAL: a DONE sent in an earlier drip reaches its home. It also takes the end of an active message's
thread, whose completion record is written (R331). -/
def execDoneArrival (m : Nat) : State → Host.Outcome State Fault Refusal :=
  run (fun drip mem d => match d.msg m with
    | some (.req src (.done n z y x)) =>
      if d.srcStopped src ∨ d.sentNow m then .eff d []
      else match (d.drop m).takeDone drip mem n z y x with
      | .wait => .eff d []
      | .hole p => .fault (.hole p)
      | .ok r => .eff r.1 r.2
    | some (.req src (.amsgEnd donea irq cause)) =>
      match (d.drop m).complete drip mem src donea cause 0 with
      | .wait => .eff d []
      | .hole p => .fault (.hole p)
      | .ok (d, w, _) => .eff (if irq then d.signal (4 * src.tenant + 2) else d) w
    | _ => .eff d [])

/-! ### Leave, AFTER, and the end of a launch (R314, R316, R317) -/

/-- Something of a launch is in flight: once it has fired a point in its queue, a block, a DONE, or a point
to fire again. -/
def Dev.inFlight (d : Dev) (n : Nat) (l : Launch) : Bool :=
  (l.fired && l.queue != []) || d.blocks.any (fun p => p.2.launch == some n)
  || (d.msgs ++ d.stowed).any (fun m => match m.kind with
    | .req _ (.done k _ _ _) => k == n
    | _ => false)
  || d.fenced.any (fun f => f.refire.any (fun p => p.1 == n))

/-- A launch is over: its last row is complete, or it has failed and nothing of it is in flight. -/
def Dev.launchOver (d : Dev) (n : Nat) (l : Launch) : Bool :=
  l.ended.isNone && (match l.failed with
    | some _ => !d.inFlight n l
    | none => l.fired && l.doneRows.length == l.ez * l.ey)

/-- End a launch: the kept rows are written under the frontier lease, then the completion record; its leave is
given back. -/
def Dev.endLaunch (d : Dev) (drip : Nat) (mem : Memory) (n : Nat) (l : Launch) : Res :=
  let live := d.frontierLive drip l
  let rows := if live then l.rows.map (fun p => (l.ftab + wd64 (8 * p.1), p.2.toNat)) else []
  let f := l.failed.getD (0, 0)
  let finish := fun (e : Dev) (w : List (Nat × Byte)) =>
    match e.complete drip mem l.from l.donea f.1 f.2 with
    | .wait => Res.eff d []
    | .hole p => .fault (.hole p)
    | .ok (e, w', c) =>
      let e := (e.setLch n { l with
        ended := some c
        queue := [] }).returnLeave (leaveLaunch n)
      .eff (if l.irq && w' != [] then e.signal (4 * l.tenant + 2) else e) (w ++ w')
  match d.writeWords drip mem l.from rows [] with
  | .wait => .eff d []
  | .hole p => .fault (.hole p)
  | .refused _ => finish d []
  | .ok e w => finish e w

/-- AFTER_RELEASE: an accepted launch that has leave, and whose predecessor has completed, fires its first
points, under its frontier lease (Table 6-5); one whose predecessor ended otherwise ends. A launch that is over gets its completion record. -/
def execAfterRelease (n : Nat) : State → Host.Outcome State Fault Refusal :=
  run (fun drip mem d => match d.lch n with
    | none => .eff d []
    | some l =>
      if d.launchOver n l then d.endLaunch drip mem n l
      else if l.fired ∨ l.ended.isSome ∨ l.failed.isSome ∨ d.halted drip l.tenant then .eff d []
      else
        let before : Option Nat := match l.after with
          | none => some 0
          | some a => match d.lch a with
            | some p => p.ended
            | none => some Cause.leaseLapsed
        match before with
        | none => .eff d []
        | some c =>
          if c ≠ 0 then .eff (d.setLch n (l.failing 7)) []
          else if !l.leave then .eff d []
          else if !d.frontierLive drip l then .eff (d.failLaunch n Cause.leaseLapsed 0) []
          else .eff (d.setLch n { l.fire drip drip with fired := true }) [])

end Sys2Proof.Machine
end

