-- ==== Sys2Proof/Machine/Sched.lean ====
section
/-!
DEFINITION. The scheduler (spec 16 R321 to R325; 15 R304, R307; 17 R352, R353): where a block fits, block
images, admission, aging, swaps, and active messages (R331).
-/
namespace Sys2Proof.Machine
open Sys2Proof

/-! ### Where a block fits (R322) -/

/-- A place for a crew: its core, its slots by crew index, and its niche part. -/
structure CrewFit where
  core : Nat
  slots : List Nat
  niche : Nat
  deriving DecidableEq, Repr

/-- A crew of another tenant is on a core (R30). -/
def Dev.otherTenant (d : Dev) (core tenant : Nat) : Bool :=
  d.placed.any (fun b => b.tenant != tenant && b.crews.any (fun c => c.core == core))

/-- Room on one core for `s` slots of a tenant and some queues. -/
def Dev.fitCore (d : Dev) (core tenant s : Nat) (qs : List (Nat × Nat)) : Option CrewFit :=
  let c := d.core core
  let free := (List.range 16).filter (d.slotFree core)
  let held := c.q.toList.foldl (fun n q => match q with
    | some x => n + x.depth
    | none => n) 0
  if d.isService core || d.fencedCore core || d.otherTenant core tenant || free.length < s
      || qs.any (fun p => ((c.q.toList)[p.1]?.getD none).isSome) || 256 < held + (qs.map Prod.snd).sum then none
  else (d.freeNiche core (4096 * s)).map (fun p => ⟨core, free.take s, p⟩)

/-- The lowest part of `n` bytes of a cluster's gallery that no block holds. A block swapped out with no save
area keeps its part (R353). -/
def Dev.freeGall (d : Dev) (clus n : Nat) : Option Nat :=
  let used := (d.blocks.map Prod.snd).filter (fun b => b.clus == clus && (b.st != .swapped || b.area.isNone))
  ((List.range 32).map (65536 * ·)).find? (fun p =>
    p + n ≤ 2 ^ 21 && !used.any (fun b => meets p n b.gall b.gallLen))

/-- Where a block of `c` cores fits a cluster: the lowest cores that fit, and the lowest part. With a part
already held, only cores are looked for. -/
def Dev.fit (d : Dev) (tenant clus c s : Nat) (qs : List (Nat × Nat)) (gall : Nat) (own : Option Nat) :
    Option (List CrewFit × Nat) :=
  let l := ((List.range 16).map (clusCore clus)).filterMap (fun k => d.fitCore k tenant s qs)
  if l.length < c then none
  else match own with
  | some g => some (l.take c, g)
  | none => (d.freeGall clus gall).map (fun g => (l.take c, g))

/-! ### Block images (Table 17-15) -/

/-- Offset of a crew's part. -/
def Block.rankOff (b : Block) (r : Nat) : Nat := 128 + r * (2176 + 14848 * b.slots)
/-- Offset of the gallery part, and the length of an image. -/
def Block.gallOff (b : Block) : Nat := b.rankOff b.crews.length
def Block.imageLen (b : Block) : Nat := b.gallOff + b.gallLen
/-- Offset of a crew's niche part. -/
def Block.nicheOff (b : Block) (r : Nat) : Nat := b.rankOff r + 2176 + 10752 * b.slots

/-- The listed bytes of a part, by offset in the image. -/
def partOf (mem : Memory) (p n off : Nat) : List (Nat × Byte) :=
  (mem.cells.filter (fun c => p ≤ c.1 && c.1 < p + n)).map (fun c => (c.1 - p + off, c.2))

/-- The niche parts of a block, and its gallery part when it leaves too. -/
def Block.parts (b : Block) (mem : Memory) (gall : Bool) : List (Nat × Byte) :=
  b.crews.flatMap (fun c => partOf mem (nicheKey c.core c.niche) c.nicheLen (b.nicheOff c.rank))
  ++ (if gall then partOf mem (gallKey b.clus b.gall) b.gallLen b.gallOff else [])

/-- The queues that a block holds, by rank and number. -/
def Dev.queuesOf (d : Dev) (b : Block) : List (Nat × Nat × Queue) :=
  b.crews.flatMap (fun c => (d.core c.core).q.toList.zipIdx.filterMap (fun p => match p.1 with
    | some q => if q.blk = b.id then some (c.rank, p.2, q) else none
    | none => none))

/-- The queues of a block leave its cores. -/
def Dev.freeQueues (d : Dev) (b : Block) : Dev :=
  b.crews.foldl (fun d c => d.setCore c.core { d.core c.core with
    q := (d.core c.core).q.map (fun q => match q with
      | some x => if x.blk = b.id then none else some x
      | none => none) }) d

/-- Crew indices as bits. -/
def crewBits (c : Crew) (l : List Nat) : Nat :=
  c.tids.zipIdx.foldl (fun n p => if l.contains p.1 then n + 2 ^ p.2 else n) 0

/-- The frontier handle of a block's launch. -/
def Dev.blockHandle (d : Dev) (b : Block) : Word :=
  match b.launch with
  | none => 0
  | some n => match d.lch n with
    | none => 0
    | some l => match d.lease l.agent l.index with
      | some x => (d.handleOf b.tenant b.ctx x).2
      | none => 0

/-- The crews and threads of a block as they stand. -/
def Dev.snapshot (d : Dev) (b : Block) : List Crew × List (Nat × Thread) :=
  (b.crews, (b.crews.flatMap Crew.tids).filterMap (fun t => (d.thr t).map (fun x => (t, x))))

/-- The image of a saved block at `p`: its header, crew records, queues, slot images, and the parts it has
kept, of threads as they are given. -/
def Dev.blockImage (d : Dev) (b : Block) (threads : List (Nat × Thread)) (reason p : Nat) : List (Nat × Byte) :=
  bytesAt p 8 (0x5A42 + (b.crews.length - 1) * 2 ^ 16 + (b.slots - 1) * 2 ^ 20 + b.gallLen / 65536 * 2 ^ 24
    + reason * 2 ^ 32)
  ++ bytesAt (p + 8) 8 (d.blockHandle b).toNat ++ bytesAt (p + 16) 8 (b.z * 2 ^ 40 + b.y * 2 ^ 20 + b.x)
  ++ b.crews.flatMap (fun c =>
    let o := p + b.rankOff c.rank
    let mine := b.qsave.filterMap (fun q => if q.1 = c.rank then some q.2 else none)
    bytesAt o 4 (crewBits c c.arrived + crewBits c c.exited * 2 ^ 16)
    ++ mine.flatMap (fun q => bytesAt (o + 8 + 8 * q.1) 8 (q.2.depth * 2 ^ 16 + q.2.items.length)
      ++ q.2.items.zipIdx.flatMap (fun v =>
        bytesAt (o + 128 + 8 * ((mine.filter (fun x => x.1 < q.1)).foldl (fun n x => n + x.2.depth) 0 + v.2)) 8 v.1.toNat))
    ++ c.tids.zipIdx.flatMap (fun t => match find? t.1 threads with
      | some x => x.imageBytes (fun k => o + 2176 + 10752 * t.2 + k)
      | none => []))
  ++ b.kept.map (fun k => (p + k.1, k.2))

/-- The writes of a block's image up to its gallery part, or of that part too. -/
def Dev.imageWrites (d : Dev) (mem : Memory) (b : Block) (reason p : Nat) (gall : Bool) : List (Nat × Byte) :=
  zeroed mem p (if gall then b.imageLen else b.gallOff) ++ d.blockImage b (d.snapshot b).2 reason p

/-- The writes of a block's gallery part alone. -/
def Block.gallWrites (b : Block) (mem : Memory) (p : Nat) : List (Nat × Byte) :=
  zeroed mem (p + b.gallOff) b.gallLen ++ (b.kept.filter (fun k => b.gallOff ≤ k.1)).map (fun k => (p + k.1, k.2))

/-- What has changed of a saved block's crews and threads since its image showed them (R307, R352). -/
def Dev.imageChanges (d : Dev) (b : Block) : List (Nat × Byte) :=
  match b.area, b.shown with
  | some p, some s =>
    if s = d.snapshot b then []
    else
      let old := d.blockImage { b with crews := s.1 } s.2 0 p
      (d.blockImage b (d.snapshot b).2 0 p).filter (fun x => !old.contains x)
  | _, _ => []

/-- The lines of an image can be written now. -/
def Dev.areaFree (d : Dev) (drip p n : Nat) : Bool :=
  (List.range ((n + 127) / 128)).all (fun k => d.unitMayWrite drip (lineOf (p + 128 * k)))

/-! ### Stowage and save areas (R325, R353) -/

/-- Distance of two cores of a die. -/
def coreDist (a b : Nat) : Nat :=
  (max (coreRow a) (coreRow b) - min (coreRow a) (coreRow b)) + (max (coreCol a) (coreCol b) - min (coreCol a) (coreCol b))

/-- Cores by distance from one. -/
def nearest (core : Nat) (l : List Nat) : List Nat :=
  (List.range 64).flatMap (fun k => l.filter (fun c => coreDist core c == k))

/-- The slots that a core advertises. -/
def Dev.stowRoom (d : Dev) (core : Nat) : List Nat :=
  if d.isService core || d.fencedCore core then []
  else
    let used := d.placed.foldl (fun n b => (b.crews.filter (fun c => c.core == core)).foldl (fun n c => n + c.nicheLen) n) 0
    ((List.range 16).filter (d.slotFree core)).take ((65536 - used - d.stowBytes core) / stowShare)

/-- Advertised slots for `n` images, nearest first. -/
def Dev.findStow (d : Dev) : List Nat → Nat → Option (List (Nat × Nat))
  | [], n => if n = 0 then some [] else none
  | c :: cs, n =>
    let s := (d.stowRoom c).take n
    (d.findStow cs (n - s.length)).map (s.map (fun k => (c, k)) ++ ·)

/-- The lowest place for `n` bytes in a save range, clear of other blocks' areas. -/
def Dev.freeArea (d : Dev) (x : Lease) (n : Nat) : Option Nat :=
  match x.payload with
  | .range base size _ =>
    let used := d.blocks.filterMap (fun p => p.2.area.map (fun a => (a, p.2.imageLen)))
    let starts := (base + 127) / 128 * 128 :: used.map (fun u => (u.1 + u.2 + 127) / 128 * 128)
    starts.foldl (fun b p =>
      if base ≤ p && p + n ≤ base + size && !used.any (fun u => meets p n u.1 u.2) && (match b with
        | some q => p < q
        | none => true) then some p else b) none
  | _ => none

/-- Where a block's state goes: slots that take its images, and its save area. -/
structure Stowage where
  stow : List (Nat × Nat)
  area : Option Nat
  deriving DecidableEq, Repr

/-- Threads of a block that have not gone. -/
def Dev.alive (d : Dev) (b : Block) : List Nat := (b.crews.flatMap Crew.tids).filter (fun t => (d.thr t).isSome)

/-- Where a block could be saved: none when there is no room. -/
def Dev.stowage (d : Dev) (drip : Nat) (mem : Memory) (b : Block) (l : Launch) : Option Stowage :=
  let own := b.crews.map Crew.core
  let core := own.headD 0
  let clus := ((List.range 16).map (clusCore b.clus)).filter (fun c => !own.contains c)
  let n := (d.alive b).length
  if l.saveh = 0 then (d.findStow (nearest core clus) n).map (fun s => ⟨s, none⟩)
  else match d.rangeHandle drip l l.saveh with
  | none => none
  | some x => match d.freeArea x b.imageLen with
    | none => none
    | some p =>
      let die := ((List.range 512).map (coreDie core * 512 + ·)).filter (fun c =>
        coreClus c != b.clus && d.holds mem b.tenant (coreClus c))
      match d.findStow (nearest core clus ++ nearest core die) n with
      | some s => some ⟨s, some p⟩
      | none => some ⟨[], some p⟩

/-- A launch's save range can be written now (R353). -/
def Dev.saveLive (d : Dev) (drip : Nat) (b : Block) : Bool :=
  match b.launch with
  | some n => match d.lch n with
    | some l => (d.rangeHandle drip l l.saveh).isSome
    | none => false
  | none => false

/-- The images of saved blocks follow their state: a wake or a reply for a saved thread is written to its slot
image (R307, R352). Lines that cannot be written in this drip follow later. -/
def Dev.syncImages (d : Dev) (drip : Nat) : Dev × List (Nat × Byte) :=
  d.blocks.foldl (fun (r : Dev × List (Nat × Byte)) p =>
    let w := d.imageChanges p.2
    if w = [] ∨ !d.saveLive drip p.2 ∨ !w.all (fun x => d.unitMayWrite drip (lineOf x.1)) then r
    else (r.1.setBlk p.1 { p.2 with shown := some (d.snapshot p.2) }, r.2 ++ w)) (d, [])

/-- The threads of a block leave their slots, their multi-line sets empty (R298). -/
def Dev.unslot (d : Dev) (b : Block) : Dev :=
  let tids := b.crews.flatMap Crew.tids
  { d with threads := d.threads.map (fun (p : Nat × Thread) =>
      if tids.contains p.1 then (p.1, { p.2.emptySet with place := .saved }) else p) }

/-- Save a block: its parts and queues go where there is room, and what does not go to memory is kept; its
slots, niche parts and queue room become free. -/
def Dev.saveBlock (d : Dev) (mem : Memory) (b : Block) (s : Stowage) (reason : Nat) : Dev × List (Nat × Byte) :=
  let d := (d.freeQueues b).unslot b
  let k : Block := { b with
    st := .swapped
    kept := b.parts mem s.area.isSome
    qsave := d.queuesOf b
    stow := s.stow
    area := s.area
    parkSince := none }
  match s.area with
  | none => (d.setBlk b.id k, [])
  | some p =>
    if s.stow = [] then
      (d.setBlk b.id { k with
        kept := []
        qsave := []
        shown := some (d.snapshot b) }, d.imageWrites mem k reason p true)
    else (d.setBlk b.id { k with kept := b.parts mem false }, k.gallWrites mem p)

/-! ### Placing a block -/

/-- Images that stand where a block is to go, and that may move to their save areas first (R353). -/
def Dev.evictable (d : Dev) (drip : Nat) (b : Block) : Bool :=
  b.stow != [] && (match b.area with
    | some p => d.areaFree drip p b.imageLen && d.saveLive drip b
    | none => false)

/-- Without the images that may move. -/
def Dev.withoutStow (d : Dev) (drip : Nat) : Dev :=
  { d with blocks := d.blocks.map (fun (p : Nat × Block) =>
      if d.evictable drip p.2 then (p.1, { p.2 with stow := [] }) else p) }

/-- The images that stand in a core's way: in a slot it takes, or in its niche part. -/
def Dev.inWay (d : Dev) (b : Block) (f : CrewFit) (n : Nat) : Bool :=
  b.stow.any (fun s => s.1 == f.core && (f.slots.contains s.2 || (d.freeNiche f.core n).isNone))

/-- Those images move to their save areas. -/
def Dev.evict (d : Dev) (drip : Nat) (mem : Memory) (fs : List CrewFit) (n : Nat) : Dev × List (Nat × Byte) :=
  let out := (d.blocks.map Prod.snd).filter (fun b => d.evictable drip b && fs.any (fun f => d.inWay b f n))
  (out.foldl (fun d b => d.setBlk b.id { b with
      stow := []
      kept := []
      qsave := []
      shown := some (d.snapshot b) }) d,
    out.flatMap (fun b => match b.area with
      | some p => d.imageWrites mem b 0 p false
      | none => []))

/-- A core that takes a crew: its L1 holds no copy, and its queues are the block's. -/
def Dev.takeCore (d : Dev) (b : Nat) (core : Nat) (qs : List (Nat × Queue)) : Dev :=
  let c := d.core core
  d.setCore core { c with
    l1 := []
    q := qs.foldl (fun v p => if h : p.1 < 4 then v.set p.1 (some { p.2 with blk := b }) else v) c.q }

/-- A launch's first thread state (R321): crew index `c`, block index `i`. -/
def Launch.thread (l : Launch) (z y x i c slot : Nat) (core b : Nat) (anchor : Word) : Thread :=
  let n := (z * l.ey + y) * l.ex + x
  { Thread.entry l.entry l.args 0 (mkStatus l.tenant l.ctx false false) (l.rw 11) (l.slotcfg c slot)
      (BitVec.ofNat 32 (chash ((bits (l.rw 6) 0 32) ^^^ (n / 65536)) i (n % 65536))) with
    place := .slot core slot
    blk := b
    cidx := c
    anchor := anchor }

/-- A core fetches the entry line of a block before its admission completes (R43): its leaf, and its copy. One
that a store or another agent holds back, or of an unknown version, is fetched by the first head. -/
def Dev.entryLine (d : Dev) (drip : Nat) (mem : Memory) (ctx len : Nat) (pc : Word) (core : Nat) :
    Dev × List (Nat × Byte) :=
  let va := pc &&& ~~~(63 : Word)
  match walkTree mem d.ctxtb d.modNo ctx va .execute with
  | .error _ => (d, [])
  | .ok (leaf, large) =>
    let line := lineOf (leafPlace leaf large va d.modNo)
    let d := (d.setCore core ((d.core core).keepLeaf ctx va leaf large)).touch core line
    if d.busyLine drip line then (d, [])
    else match d.version line drip drip with
    | .unknown => (d, [])
    | v => d.giveCode drip mem core line len v

/-- Every core of a block fetches its entry line. -/
def Dev.entryLines (d : Dev) (drip : Nat) (mem : Memory) (ctx len : Nat) (pc : Word) (cores : List Nat) :
    Dev × List (Nat × Byte) :=
  cores.foldl (fun r c =>
    let q := r.1.entryLine drip mem ctx len pc c
    (q.1, r.2 ++ q.2)) (d, [])

/-- Admit a point as a block where it fits: its parts hold zeros (R256, R257). -/
def Dev.admitPoint (d : Dev) (drip : Nat) (mem : Memory) (n : Nat) (l : Launch) (p : QPoint) (clus : Nat)
    (fs : List CrewFit) (gall : Nat) : Dev × List (Nat × Byte) :=
  let b := d.nextBlk
  let t0 := d.nextTid
  let s := l.slots
  let anchor := d.ctxWord mem l.ctx 3
  let crews := fs.zipIdx.map (fun (f : CrewFit × Nat) => (⟨f.1.core, f.2, (List.range s).map (t0 + s * f.2 + ·), [], [],
    f.1.niche, 4096 * s, f.1.slots⟩ : Crew))
  let threads := fs.zipIdx.flatMap (fun (f : CrewFit × Nat) => f.1.slots.zipIdx.map (fun k =>
    (t0 + s * f.2 + k.2, l.thread p.z p.y p.x (s * f.2 + k.2) k.2 k.1 f.1.core b anchor)))
  let k : Block := { Block.single b 0 0 l.ctx l.tenant 0 0 with
    launch := some n
    z := p.z
    y := p.y
    x := p.x
    clus := clus
    crews := crews
    slots := s
    gall := gall
    gallLen := l.gall * 65536
    rlease := l.rlease
    admitted := drip }
  let d := fs.foldl (fun d f => d.takeCore b f.core (l.queues.map (fun q => (q.1, ⟨b, q.2, []⟩)))) d
  let e := d.entryLines drip mem l.ctx l.rlease l.entry (fs.map CrewFit.core)
  let d := e.1
  ({ d with
      nextBlk := b + 1
      nextTid := t0 + s * fs.length
      threads := d.threads ++ threads
      blocks := put b k d.blocks
      started := true },
    e.2 ++ fs.flatMap (fun f => zeroed mem (nicheKey f.core f.niche) (4096 * s)) ++ zeroed mem (gallKey clus gall) (l.gall * 65536))

/-- A saved thread as its slot image in memory gives it: as the module holds it when the image is what the
module wrote, and otherwise with what the image holds. -/
def Thread.reread (mem : Memory) (o : Nat) (t : Thread) : Thread :=
  if (t.imageBytes (o + ·)).all (fun p => mem.read p.1 == p.2) then t
  else { Thread.ofImage (mem.readN o imageSize) t 0 t.anchor with
    stopped := t.stopped
    traps := t.traps
    acq := t.acq }

/-- The members of a crew that a bitmap names, by crew index. -/
def Crew.named (c : Crew) (n : Nat) : List Nat := (c.tids.zipIdx.filter (fun p => n.testBit p.2)).map Prod.fst

/-- A crew's queues in an image. -/
def queuesAt (mem : Memory) (o blk : Nat) : List (Nat × Queue) :=
  let depth := fun i => bits (mem.read64 (o + 8 + 8 * i)) 16 16
  let start := fun i => ((List.range i).map depth).sum
  (List.range 4).filterMap (fun i => if depth i = 0 then none
    else some (i, ⟨blk, depth i, (List.range (min (bits (mem.read64 (o + 8 + 8 * i)) 0 16) (depth i))).map (fun k =>
      mem.read64 (o + 128 + 8 * (start i + k)))⟩))

/-- A saved block with what its image in the save area holds: threads, crew records, queues and parts. -/
def Dev.fromArea (d : Dev) (mem : Memory) (b : Block) : Dev × Block :=
  match b.area with
  | none => (d, b)
  | some p =>
    let gall := partOf mem (p + b.gallOff) b.gallLen b.gallOff
    if b.shown.isNone then (d, { b with kept := b.kept ++ gall })
    else
      let m := mem.writeAll (d.imageChanges b)
      let at' := fun (c : Crew) => p + b.rankOff c.rank
      (b.crews.foldl (fun d c => c.tids.zipIdx.foldl (fun d t =>
          d.updThr t.1 (Thread.reread m (at' c + 2176 + 10752 * t.2))) d) d,
        { b with
          crews := b.crews.map (fun (c : Crew) => { c with
            arrived := c.named (bits (m.read64 (at' c)) 0 16)
            exited := c.named (bits (m.read64 (at' c)) 16 16) })
          qsave := b.crews.flatMap (fun c => (queuesAt m (at' c) b.id).map (fun q => (c.rank, q)))
          kept := b.crews.flatMap (fun c => partOf m (p + b.nicheOff c.rank) c.nicheLen (b.nicheOff c.rank)) ++ gall })

/-- The barriers that threads of a block belong to know its cores as they now are (R143). -/
def Dev.moveBeats (d : Dev) (b k : Block) : Dev :=
  let mine := ((b.crews.flatMap Crew.tids).filterMap d.thr).flatMap Thread.memberOf
  let f := fun (p : Nat × Nat) => match b.crews.find? (fun (c : Crew) => c.core == p.1) with
    | some c => match k.crews.find? (fun (x : Crew) => x.rank == c.rank) with
      | some x => (x.core, p.2)
      | none => p
    | none => p
  { d with leases := d.leases.map (fun (l : Lease) => match l.payload with
    | .barrier x => if mine.contains (l.agent, l.index, l.gen) then
        { l with payload := .barrier { x with beats := (x.beats.map f).foldl (fun m p =>
            put p.1 (max p.2 (look 0 p.1 m)) m) [] } } else l
    | _ => l) }

/-- Put a saved block back: its threads take slots by crew index, its parts and queues their places. -/
def Dev.restoreBlock (d : Dev) (drip : Nat) (mem : Memory) (b : Block) (clus : Nat) (fs : List CrewFit) (gall : Nat) :
    Dev × List (Nat × Byte) :=
  let anchor := d.ctxWord mem b.ctx 3
  let moved := b.area.isSome
  let r := d.fromArea mem b
  let d := r.1
  let b := r.2
  let crews := b.crews.map (fun (c : Crew) => match fs[c.rank]? with
    | some f => { c with
      core := f.core
      niche := f.niche
      slots := f.slots }
    | none => c)
  let k : Block := { b with
    clus := clus
    crews := crews
    gall := gall
    st := .running
    parkSince := none
    doneWait := b.doneWait.map (fun w => (match b.crews.find? (fun c => c.core == w.1) with
      | some c => ((fs[c.rank]?).map CrewFit.core).getD w.1
      | none => w.1, w.2))
    stow := []
    area := none
    kept := []
    qsave := []
    shown := none
    admitted := drip }
  let d := crews.foldl (fun d c => c.tids.zipIdx.foldl (fun d t => d.updThr t.1 (fun x =>
    let slot := c.slots.getD t.2 0
    { x with
      place := .slot c.core slot
      slotcfg := (x.slotcfg &&& ~~~(0xF0000000 : Word)) ||| wd64 (slot * 2 ^ 28)
      anchor := anchor })) d) d
  let d := crews.foldl (fun d c => d.takeCore b.id c.core (b.qsave.filterMap (fun q =>
    if q.1 = c.rank then some q.2 else none))) d
  ((d.moveBeats b k).setBlk b.id k,
    crews.flatMap (fun c => zeroed mem (nicheKey c.core c.niche) c.nicheLen
      ++ (b.kept.filter (fun q => b.nicheOff c.rank ≤ q.1 && q.1 < b.nicheOff c.rank + c.nicheLen)).map (fun q =>
        (nicheKey c.core c.niche + (q.1 - b.nicheOff c.rank), q.2)))
    ++ (if moved then zeroed mem (gallKey clus gall) b.gallLen
      ++ (b.kept.filter (fun q => b.gallOff ≤ q.1)).map (fun q => (gallKey clus gall + (q.1 - b.gallOff), q.2)) else []))

/-! ### Admission (R323) -/

/-- What a launch would have admitted next: a swapped block that is ready, else its oldest point. -/
inductive Head where
  | block (b : Block)
  | point (p : QPoint)

/-- The lines of a block's image can be read now. -/
def Dev.imageReady (d : Dev) (drip : Nat) (b : Block) : Bool :=
  match b.area with
  | some p => (List.range ((b.imageLen + 127) / 128)).all (fun k => !d.busyLine drip (lineOf (p + 128 * k)))
  | none => true

/-- A swapped block is ready once none of its threads is parked (R307). -/
def Dev.swapReady (d : Dev) (b : Block) : Bool :=
  b.st == .swapped && (b.crews.flatMap Crew.tids).all (fun t => match d.thr t with
    | some x => (match x.wst with
      | .parked _ => false
      | _ => true)
    | none => true)

/-- The head of a launch's queue. -/
def Dev.headOf (d : Dev) (drip n : Nat) (l : Launch) : Option Head :=
  match (d.blocks.map Prod.snd).find? (fun b => b.launch == some n && d.swapReady b && d.imageReady drip b) with
  | some b => some (.block b)
  | none => match l.queue with
    | p :: _ => if p.ready ≤ drip then some (.point p) else none
    | [] => none

/-- Where a launch's head fits a cluster. A block whose gallery part stands in its cluster fits only there. -/
def Dev.headFit (d : Dev) (drip n : Nat) (l : Launch) (clus : Nat) : Option (Head × List CrewFit × Nat) :=
  match d.headOf drip n l with
  | none => none
  | some h =>
    let e := d.withoutStow drip
    match h with
    | .point p => (e.fit l.tenant clus l.cores l.slots l.queues (l.gall * 65536) none).map (fun r => (.point p, r))
    | .block b =>
      let e := e.setBlk b.id { b with stow := [] }
      if b.area.isNone then
        if b.clus ≠ clus then none
        else (e.fit l.tenant clus l.cores l.slots l.queues b.gallLen (some b.gall)).map (fun r => (.block b, r))
      else (e.fit l.tenant clus l.cores l.slots l.queues b.gallLen none).map (fun r => (.block b, r))

/-- Effective priority. -/
def Launch.effPrio (l : Launch) : Nat := min 3 (l.prio + l.aged)

/-- A launch that a cluster may serve. -/
def Dev.servable (d : Dev) (drip : Nat) (mem : Memory) (clus : Nat) (l : Launch) : Bool :=
  l.fired && l.ended.isNone && !d.halted drip l.tenant && d.holds mem l.tenant clus

/-- The launches whose heads fit a cluster, in order of acceptance. -/
def Dev.takers (d : Dev) (drip : Nat) (mem : Memory) (clus : Nat) : List (Nat × Launch × Head × List CrewFit × Nat) :=
  d.launches.filterMap (fun p =>
    if d.servable drip mem clus p.2 then (d.headFit drip p.1 p.2 clus).map (fun h => (p.1, p.2, h)) else none)

/-- The launch that a cluster takes: of the highest effective priority, the first after the pointer. -/
def pickTaker (rr : Nat) (l : List (Nat × Launch × Head × List CrewFit × Nat)) :
    Option (Nat × Launch × Head × List CrewFit × Nat) :=
  let top := l.foldl (fun m p => max m p.2.1.effPrio) 0
  let best := l.filter (fun p => p.2.1.effPrio == top)
  match best.find? (fun p => rr < p.1) with
  | some p => some p
  | none => best.head?

/-- A launch has risen a level that its record does not show yet (R323). -/
def Launch.agingDue (l : Launch) : Bool := l.ended.isNone && l.aged < l.waited / 2 ^ 20

/-- The array of a cluster that served another tenant is cleared (R217). -/
def Dev.arrayFor (d : Dev) (clus tenant : Nat) : Dev :=
  d.updArray clus (fun a => if a.tenant = some tenant then a
    else if a.tenant.isNone then { a with tenant := some tenant }
    else { a with
      acc := Vector.replicate 8 accZero
      groups := Vector.replicate 8 0
      gave := Vector.replicate 8 false
      act := Vector.replicate 8 Layout.zero
      shadow := Vector.replicate 8 Layout.zero
      a := []
      b := []
      r := []
      d := none
      dropA := 0
      dropB := 0
      confl := Vector.replicate 8 0
      owner := none
      tenant := some tenant })

/-- BLOCK_ADMISSION: one block for a cluster, lower clusters first, aging before selection. -/
def execBlockAdmission (clus : Nat) : State → Host.Outcome State Fault Refusal :=
  run (fun drip mem d =>
    if d.inReset ∨ d.launches.any (fun p => p.2.agingDue)
        ∨ (List.range (min clus 128)).any (fun c => !(d.takers drip mem c).isEmpty) ∨ 128 ≤ clus then .eff d []
    else match pickTaker (d.clus clus).rr (d.takers drip mem clus) with
    | none => .eff d []
    | some (n, l, h, fs, gall) =>
      let d := (d.readTen mem l.tenant).arrayFor clus l.tenant
      let c := d.clus clus
      let d := d.setClus clus { c with
        gated := false
        rr := n }
      let e := d.evict drip mem fs (4096 * l.slots)
      let d := e.1.setLch n { l with
        waited := 0
        aged := 0
        queue := match h with
          | .point _ => l.queue.drop 1
          | .block _ => l.queue }
      let r := match h with
        | .point p => d.admitPoint drip mem n l p clus fs gall
        | .block b => d.restoreBlock drip mem b clus fs gall
      .eff r.1 (e.2 ++ r.2))

/-- PRIORITY_AGING: a launch that has waited another 2^20 drips rises a level. -/
def execPriorityAging (n : Nat) : State → Host.Outcome State Fault Refusal :=
  run (fun _ _ d => match d.lch n with
    | some l => .eff (if l.agingDue then d.setLch n { l with aged := l.waited / 2 ^ 20 } else d) []
    | none => .eff d [])

/-! ### Swaps (R307, R325) -/

/-- A block's parked threads are at least its park fraction, of those that have not exited. -/
def Dev.parkedEnough (d : Dev) (b : Block) (f : Nat) : Bool :=
  let l := (d.alive b).filterMap (fun t => match d.thr t with
    | some x => if x.exited then none else some (match x.wst with
      | .parked _ => true
      | _ => false)
    | none => none)
  l != [] && f * l.length ≤ 16 * (l.filter id).length

/-- SWAP_DECISION: a block that has been parked through its budget stops, when its state has room. -/
def execSwapDecision (b : Nat) : State → Host.Outcome State Fault Refusal :=
  run (fun drip mem d => match d.blk b with
    | none => .eff d []
    | some k => match k.launch with
      | none => .eff d []
      | some n => match d.lch n with
        | none => .eff d []
        | some l =>
          if k.st ≠ .running ∨ d.halted drip k.tenant ∨ !d.parkedEnough k l.parkf
              ∨ k.parkSince.all (fun t => drip < t + l.parkb) then .eff d []
          else match d.stowage drip mem k l with
          | none => .eff (d.setBlk b { k with parkSince := none }) []
          | some _ => .eff (d.setBlk b { k with st := .swapping }) [])

/-- A command of a block's threads reaches its niche or gallery. -/
def Dev.nearCommands (d : Dev) (b : Block) : Bool :=
  let tids := b.crews.flatMap Crew.tids
  let near := fun (s : From) (c : ECmd) => tids.contains s.tid && (match c with
    | .xfer _ _ _ dsp ssp => dsp != .glob || ssp != .glob
    | .feed .. => true
    | _ => false)
  d.clusters.any (fun p => (p.2.eng0.cmds ++ p.2.eng1.cmds).any (fun e => near e.src e.c))
  || (d.msgs ++ d.stowed).any (fun m => match m.kind with
    | .engine s _ _ c => near s c
    | _ => false)

/-- SWAP_SAVE: once every store of its threads has its acknowledgement and any DONE has been sent, a block's
state goes where there is room. -/
def execSwapSave (b : Nat) : State → Host.Outcome State Fault Refusal :=
  run (fun drip mem d => match d.blk b with
    | none => .eff d []
    | some k => match k.launch with
      | none => .eff d []
      | some n => match d.lch n with
        | none => .eff d []
        | some l =>
          if k.st ≠ .swapping ∨ d.halted drip k.tenant then .eff d []
          else
            let back := Res.eff (d.setBlk b { k with
              st := .running
              parkSince := none }) []
            if !d.parkedEnough k l.parkf then back
            else if (d.alive k).any (fun t => match d.thr t with
                | some x => x.cS != 0
                | none => false) ∨ k.doneWait.isSome ∨ d.nearCommands k then .eff d []
            else match d.stowage drip mem k l with
            | none => back
            | some s =>
              if (match s.area with
                | some p => !d.areaFree drip p k.imageLen
                | none => false) then .eff d []
              else
                let r := d.saveBlock mem k s 0
                .eff r.1 r.2)

/-! ### Active messages (R331) -/

/-- AMSG: the target word's bits are checked at issue. -/
def execAmsg (o : RRRR) : State → Host.Outcome State Fault Refusal :=
  run (issueS false o.g { xs := [o.a, o.b, o.c, ⟨(o.c.val + 1) % 32, Nat.mod_lt _ (by decide)⟩], late := some o.d } (fun i =>
    if !targetOk i.a then .trap Cause.operandRange none
    else i.request o.d (.amsg i.a i.b i.c (i.vals.getD 3 0))))

/-- What judging an active message comes to. -/
inductive Started where
  | ok (d : Dev) (w : List (Nat × Byte)) (slot : Nat)
  | refused (cause : Nat)

/-- Judge an active message at its target core, and start its thread (R331). A core that still holds a crew of
another tenant (R30) is busy: DESIGN CHOICE, unsafe (log 101). SRSEED has no launch to come
from: it is free. -/
def Dev.startThread (d : Dev) (drip : Nat) (mem : Memory) (tenant ctx : Nat) (target pc a0 a1 : Word)
    (donea : Option (Word × Bool)) : Started :=
  let core := targetCore target
  let clus := coreClus core
  if d.isService core ∨ !d.holds mem tenant clus then .refused Cause.amsgTarget
  else if d.otherTenant core tenant then .refused Cause.amsgBusy
  else if !d.targetNow drip mem core ctx pc then .refused Cause.illegalTarget
  else
    let slot := if bit target 16 then (List.range 16).find? (d.slotFree core)
      else if d.slotFree core (targetSlot target) then some (targetSlot target) else none
    match slot, d.freeNiche core 4096 with
    | some s, some p =>
      let tid := d.nextTid
      let b := d.nextBlk
      let wait := (d.core core).l1.foldl (fun n e => max n e.expiry) 0
      let t : Thread := { Thread.entry pc a0 a1 (mkStatus tenant ctx false false) 0 (wd64 (s * 2 ^ 28))
          ((Config.freeWord d.fresh).truncate 32) with
        place := .slot core s
        blk := b
        anchor := d.ctxWord mem ctx 3
        notBefore := wait }
      let d := (d.readTen mem tenant).arrayFor clus tenant
      let d := d.setClus clus { d.clus clus with gated := false }
      .ok { d.tickFresh with
        nextTid := tid + 1
        nextBlk := b + 1
        threads := d.threads ++ [(tid, t)]
        blocks := put b { Block.single b tid core ctx tenant p s with
          donea := donea
          admitted := drip } d.blocks
        started := true } (zeroed mem (nicheKey core p) 4096) s
    | _, _ => .refused Cause.amsgBusy

/-- AMSG_ARRIVAL: after the drip's block admissions on the target's cluster (R323); a fenced core refuses
(R355); a stopped partition's core gets the message at its resumption (R354). -/
def execAmsgArrival (m : Nat) : State → Host.Outcome State Fault Refusal :=
  run (fun drip mem d => match d.msg m with
    | some (.req src (.amsg target pc a0 a1)) =>
      let core := targetCore target
      if !d.acked src ∨ d.sentNow m then .eff d []
      else if d.fencedCore core then
        .eff ((d.drop m).tickFresh.send (.error src Cause.contained (Config.freeWord d.fresh) 0 none)) []
      else if !(d.takers drip mem (coreClus core)).isEmpty ∨ d.haltedAt drip mem (coreClus core) then
        .eff d []
      else match (d.drop m).startThread drip mem src.tenant src.ctx target pc a0 a1 none with
      | .refused c => .eff ((d.drop m).refuse src c) []
      | .ok e w s => .eff (e.reply src (wd64 s)) w
    | _ => .eff d [])

end Sys2Proof.Machine
end

