-- ==== Sys2Proof/Machine/Gang.lean ====
section
/-!
DEFINITION. Gang pre-emption and resumption (spec 17 R354; 15 R308; 16 R320; 11 R243).
-/
namespace Sys2Proof.Machine
open Sys2Proof

/-! ### The stop -/

/-- A write by a unit that is accepted in this drip; it performs when its line allows (R123). -/
def Dev.postWrite (d : Dev) (drip : Nat) (src : From) (l : List (Nat × Byte)) : Dev :=
  ((l.map (fun p => lineOf p.1)).eraseDups).foldl (fun d x => d.send (.acc ⟨{ src with tid := d.nextTid },
    .store ((l.filter (fun p => lineOf p.1 == x)).map (fun p => ⟨p.1, 0xFF, p.2⟩)), x, 0, .sys, false, false, 0, 0,
    .accepted, drip, [], false, 0, false⟩)) d

/-- A kept row is written to the frontier table as it stands (R308), judged under its leases. -/
def Dev.saveRow (d : Dev) (drip : Nat) (mem : Memory) (l : Launch) (row : Nat) (w : Word) : Dev :=
  match d.resolve mem l.ctx (l.ftab + wd64 (8 * row)) .write with
  | .error _ => d
  | .ok p =>
    if !keyOk p ∨ (d.judgeRange drip l.ctx p).isSome then d
    else d.postWrite drip l.from (bytesAt p 8 w.toNat)

/-- A message that a tenant's routers hold: to a stopped slot, or between its cores and its arrays, engines
and frontier units (R320, R243). -/
def Dev.stows (d : Dev) (tenant : Nat) (m : Msg) : Bool :=
  let mine := fun (s : From) => s.ctx != 0 && s.tenant == tenant
  match m.kind with
  | .data s .. => mine s
  | .reply s .. => mine s
  | .error s .. => mine s
  | .ack s => mine s
  | .refused s _ => mine s
  | .command s .. => mine s
  | .engine s .. => mine s
  | .req s (.done ..) => mine s
  | .report tid _ _ => match d.thr tid with
    | some t => match d.blk t.blk with
      | some b => b.tenant == tenant && b.ctx != 0
      | none => false
    | none => false
  | _ => false

/-- A block of a tenant's partition. -/
def Block.ofTenant (b : Block) (tenant : Nat) : Bool := b.tenant == tenant && b.ctx != 0

/-- PREEMPTION_STOP: at the stamp the partition's threads stop as they stand, their multi-line sets empty, its kept rows are written, and
the messages in its routers are stowed. A swap that has not saved yet is called off (R325). -/
def execPreemptionStop (tenant : Nat) : State → Host.Outcome State Fault Refusal :=
  run (fun drip mem d =>
    if !d.stops.any (fun s => s.tenant == tenant && !s.reached && s.at' ≤ drip) then .eff d []
    else
      let d := d.launches.foldl (fun d p =>
        if p.2.tenant = tenant ∧ p.2.ended.isNone ∧ d.frontierLive drip p.2 then
          p.2.rows.foldl (fun d r => d.saveRow drip mem p.2 r.1 r.2) d
        else d) d
      let halt := d.blocks.filter (fun p => p.2.ofTenant tenant && (p.2.st == .running || p.2.st == .swapping))
      let tids := halt.flatMap (fun p => p.2.crews.flatMap Crew.tids)
      .eff { d with
        stops := d.stops.map (fun (s : Stop) => if s.tenant = tenant then { s with reached := true } else s)
        blocks := d.blocks.map (fun (p : Nat × Block) => if halt.any (fun h => h.1 == p.1) then
          (p.1, { p.2 with
            st := .stopped
            parkSince := none }) else p)
        threads := d.threads.map (fun (p : Nat × Thread) =>
          if tids.contains p.1 then (p.1, { p.2.emptySet with preempted := true }) else p)
        stowed := d.stowed ++ d.msgs.filter (d.stows tenant)
        msgs := d.msgs.filter (fun m => !d.stows tenant m) } [])

/-! ### The resumption -/

/-- A point in flight has a context: a block, a place in the queue, a DONE on its way, or a rectangle to wait
for. -/
def Dev.hasContext (d : Dev) (n : Nat) (l : Launch) (z y x : Nat) : Bool :=
  l.queue.any (fun q => q.z == z && q.y == y && q.x == x)
  || d.blocks.any (fun p => p.2.launch == some n && p.2.z == z && p.2.y == y && p.2.x == x)
  || (d.msgs ++ d.stowed).any (fun m => match m.kind with
    | .req _ (.done k a b c) => k == n && a == z && b == y && c == x
    | _ => false)
  || d.fenced.any (fun f => f.refire.any (fun p => p.1 == n && p.2.z == z && p.2.y == y && p.2.x == x))

/-- The kept rows are read again (R308). -/
def Dev.reloadRows (d : Dev) (drip : Nat) (mem : Memory) (n : Nat) : List (Nat × Word) → Launch → Work Launch
  | [], l => .ok l
  | p :: ps, l =>
    match d.reach drip mem l.ctx .read (span (l.ftab + wd64 (8 * p.1)) 8) with
    | .wait => .wait
    | .hole k => .hole k
    | .refused _ _ => .ok (l.failing 9)
    | .ok k =>
      let w := wd64 (gather (d.unitByte drip mem) k)
      if !recOk l.ex w then .ok (l.failing 9)
      else if recC w = l.ex then d.reloadRows drip mem n ps { l with
        rows := del p.1 l.rows
        doneRows := p.1 :: l.doneRows }
      else
        d.reloadRows drip mem n ps { l with rows := put p.1 w l.rows }

/-- Every launch of a tenant, its rows read again. -/
def Dev.reloadAll (d : Dev) (drip : Nat) (mem : Memory) (tenant : Nat) : List (Nat × Launch) → Work Dev
  | [] => .ok d
  | p :: ps =>
    if p.2.tenant ≠ tenant ∨ p.2.ended.isSome ∨ !d.frontierLive drip p.2 then d.reloadAll drip mem tenant ps
    else match d.reloadRows drip mem p.1 p.2.rows p.2 with
    | .ok l => (d.setLch p.1 l).reloadAll drip mem tenant ps
    | .wait => .wait
    | .hole k => .hole k

/-- The stowed DONEs of a tenant are accepted (R320). -/
def Dev.stowedDones (d : Dev) (drip : Nat) (mem : Memory) (tenant : Nat) : List Msg → List (Nat × Byte) →
    Work (Dev × List (Nat × Byte))
  | [], w => .ok (d, w)
  | m :: ms, w => match m.kind with
    | .req _ (.done n z y x) =>
      if !d.stows tenant m then d.stowedDones drip mem tenant ms w
      else match ({ d with stowed := d.stowed.filter (fun q => q.id != m.id) } : Dev).takeDone drip mem n z y x with
      | .ok r => r.1.stowedDones drip mem tenant ms (w ++ r.2)
      | .wait => .wait
      | .hole p => .hole p
    | _ => d.stowedDones drip mem tenant ms w

/-- Points in flight without a context enter their launch's queue (R308). -/
def Dev.requeuePoints (d : Dev) (drip n : Nat) (l : Launch) : Launch :=
  { l with queue := l.rows.foldl (fun q p =>
      let z := p.1 / l.ey
      let y := p.1 % l.ey
      (((List.range 16).filter (recFly p.2).testBit).filter (fun k => !d.hasContext n l z y (recC p.2 + k))).foldl
        (fun q k => enqueue ⟨drip, z, y, recC p.2 + k, drip⟩ q) q) l.queue }

/-- A partition's frontier goes on: records, then stowed DONEs, then the points without a context. -/
def Dev.resumeFrontier (d : Dev) (drip : Nat) (mem : Memory) (tenant : Nat) : Work (Dev × List (Nat × Byte)) :=
  match d.reloadAll drip mem tenant d.launches with
  | .wait => .wait
  | .hole p => .hole p
  | .ok d => match d.stowedDones drip mem tenant d.stowed [] with
    | .wait => .wait
    | .hole p => .hole p
    | .ok (d, w) => .ok (d.launches.foldl (fun d p =>
        if p.2.tenant = tenant ∧ p.2.ended.isNone ∧ p.2.failed.isNone then d.setLch p.1 (d.requeuePoints drip p.1 p.2)
        else d) d, w)

/-! ### A block that moves with its array state and its commands (R243) -/

/-- Threads of a block. -/
def Block.tids (b : Block) : List Nat := b.crews.flatMap Crew.tids

/-- A block has commands with its cluster's array or engines, or a core of it holds the array's grant. -/
def Dev.tied (d : Dev) (b : Block) : Bool :=
  (d.alive b).any (fun t => match d.thr t with
    | some x => x.cC != 0 || x.cM != 0
    | none => false)
  || (match (d.clus b.clus).array.grant with
    | some g => g.live && b.crews.any (fun c => c.core == g.core)
    | none => false)

/-- A cluster's array and engines hold nothing. -/
def Cluster.idle (c : Cluster) : Bool :=
  c.array.fifo.isEmpty && c.array.reqs.isEmpty && c.array.grant.all (fun g => !g.live)
  && c.eng0.cmds.isEmpty && c.eng1.cmds.isEmpty

/-- A block may take what it has in its cluster's array to another cluster: no other block has a command there, and
nothing stands in the way. -/
def Dev.carries (d : Dev) (b : Block) (clus : Nat) : Bool :=
  let a := (d.clus b.clus).array
  clus == b.clus || !d.tied b
  || (a.fifo.all (fun e => b.tids.contains e.src.tid) && a.grant.all (fun g => !g.live || b.tids.contains g.tid)
    && (d.clus clus).idle)

/-- Where a core of a block went. -/
def movedCore (b k : Block) (core : Nat) : Nat :=
  match b.crews.find? (fun c => c.core == core) with
  | some c => match k.crews.find? (fun x => x.rank == c.rank) with
    | some x => x.core
    | none => core
  | none => core

/-- Where a place of a block's niche or gallery parts went. -/
def movedPlace (b k : Block) (p : Nat) : Nat :=
  match b.crews.find? (fun c => nicheKey c.core c.niche ≤ p && p < nicheKey c.core c.niche + c.nicheLen) with
  | some c => match k.crews.find? (fun x => x.rank == c.rank) with
    | some x => nicheKey x.core x.niche + (p - nicheKey c.core c.niche)
    | none => p
  | none =>
    if gallKey b.clus b.gall ≤ p ∧ p < gallKey b.clus b.gall + b.gallLen then
      gallKey k.clus k.gall + (p - gallKey b.clus b.gall)
    else p

/-- A command of a moved block, with its places. -/
def movedCmd (b k : Block) : ECmd → ECmd
  | .xfer dst src n ds ss => .xfer (if ds = .glob then dst else movedPlace b k dst)
      (if ss = .glob then src else movedPlace b k src) n ds ss
  | .feed l s gall n => .feed l s (movedPlace b k gall) n
  | c => c

/-- The sender of a command of a moved block. -/
def movedFrom (b k : Block) (s : From) : From :=
  if b.tids.contains s.tid then { s with core := movedCore b k s.core } else s

/-- An accepted command of a moved block. -/
def movedEntry (b k : Block) (e : EEntry) : EEntry :=
  if b.tids.contains e.src.tid then { e with
    src := movedFrom b k e.src
    c := movedCmd b k e.c }
  else e

/-- The array of a moved block: its grant, streams and commands name the cores as they now are. -/
def movedArray (b k : Block) (a : MArray) : MArray :=
  { a with
    fifo := a.fifo.map (fun e => { e with src := movedFrom b k e.src })
    reqs := a.reqs.map (fun r => { r with src := movedFrom b k r.src })
    grant := a.grant.map (fun g => if b.tids.contains g.tid then { g with core := movedCore b k g.core } else g)
    owner := a.owner.map (movedCore b k) }

/-- A command on its way follows its block to its cluster. -/
def movedMsg (b k : Block) (x : Msg) : Msg :=
  let goes := fun (s : From) (c : Nat) => if b.tids.contains s.tid && c == b.clus then k.clus else c
  { x with kind := match x.kind with
    | .command s c m h => .command (movedFrom b k s) (goes s c) m h
    | .engine s c e m => .engine (movedFrom b k s) (goes s c) e (if b.tids.contains s.tid then movedCmd b k m else m)
    | .req s (.array c n) => .req (movedFrom b k s) (.array (goes s c) n)
    | .req s (.mstat c n) => .req (movedFrom b k s) (.mstat (goes s c) n)
    | y => y }

/-- What a block has with its array and engines goes where the block went: from `b` to `k` (R243). -/
def Dev.carry (d : Dev) (b k : Block) : Dev :=
  let mine := fun (s : From) => b.tids.contains s.tid
  let d := { d with
    msgs := d.msgs.map (movedMsg b k)
    stowed := d.stowed.map (movedMsg b k) }
  let c := d.clus b.clus
  let move := fun (e : Engine) => (⟨e.cmds.map (movedEntry b k)⟩ : Engine)
  if !d.tied b then d
  else if k.clus = b.clus then
    d.setClus b.clus { c with
      array := movedArray b k c.array
      eng0 := move c.eng0
      eng1 := move c.eng1 }
  else
    let stay := fun (e : Engine) => (⟨e.cmds.filter (fun x => !mine x.src)⟩ : Engine)
    let go := fun (e : Engine) => (⟨(move e).cmds.filter (fun x => mine x.src)⟩ : Engine)
    let a := movedArray b k c.array
    let nums := ((go c.eng0).cmds ++ (go c.eng1).cmds).map EEntry.num
    let d := (d.setClus k.clus { d.clus k.clus with
      array := { a with reqs := a.reqs.filter (fun r => mine r.src) }
      eng0 := go c.eng0
      eng1 := go c.eng1 }).setClus b.clus { c with
      array := { MArray.reset with
        reqs := c.array.reqs.filter (fun r => !mine r.src)
        tenant := c.array.tenant }
      eng0 := stay c.eng0
      eng1 := stay c.eng1 }
    { d with
      leases := d.leases.map (fun (l : Lease) =>
        if l.payload = .array b.clus ∧ a.grant.any (fun g => g.index == l.index && g.gen == l.gen) then
          { l with payload := .array k.clus } else l)
      faults := d.faults.map (fun (f : FaultRec) => { f with waiters := f.waiters.map (fun w => match w with
        | .engine x e n => .engine (if x = b.clus ∧ nums.contains n then k.clus else x) e n
        | w => w) }) }

/-! ### Placing stopped blocks (R354) -/

/-- A stopped block issues again. -/
def Dev.goOn (d : Dev) (b : Block) (st : BlkSt) : Dev :=
  let d := { d with threads := d.threads.map (fun (p : Nat × Thread) =>
      if b.tids.contains p.1 then (p.1, { p.2 with preempted := false }) else p) }
  match d.blk b.id with
  | some k => d.setBlk b.id { k with
    st := st
    admitted := b.admitted }
  | none => d

/-- Where a block's stopped state can go now. -/
def Dev.roomFor (d : Dev) (drip : Nat) (mem : Memory) (b : Block) : Option Stowage :=
  match b.launch.bind d.lch with
  | none => none
  | some l => match d.stowage drip mem b l with
    | some s => if s.area.any (fun p => !d.areaFree drip p b.imageLen) then none else some s
    | none => none

/-- The lowest cores that fit a stopped block, in the lowest cluster, with its own place free. One with no save
area keeps its gallery part (R353). -/
def Dev.placeFor (d : Dev) (drip : Nat) (mem : Memory) (b : Block) (saved : Bool) : Option (Nat × List CrewFit × Nat) :=
  let qs := match b.launch.bind d.lch with
    | some l => l.queues
    | none => []
  let e := (((d.freeQueues b).unslot b).setBlk b.id { b with st := .swapped }).withoutStow drip
  let own := if saved then none else some b.gall
  (((List.range 128).filter (fun c => (saved || c == b.clus) && d.holds mem b.tenant c && d.carries b c)).findSome?
    (fun c => (e.fit b.tenant c b.crews.length b.slots qs b.gallLen own).map (fun r => (c, r))))

/-- A place is the one a block has. -/
def Block.standsAt (b : Block) (clus : Nat) (fs : List CrewFit) (gall : Nat) : Bool :=
  b.clus == clus && b.gall == gall && fs == b.crews.map (fun c => ⟨c.core, c.slots, c.niche⟩)

/-- Place a stopped block (R354): on the lowest cores that fit, with all that stopped blocks not yet placed
hold counted as taken. One that goes elsewhere travels through stowage or its save area, its images with PREEMPT;
with room in neither, it goes on where it stands. One that fits nowhere waits as a swapped block, and stays
stopped while its state has no room. -/
def Dev.placeStopped (d : Dev) (drip : Nat) (mem : Memory) (b : Block) : Dev × List (Nat × Byte) :=
  let room := d.roomFor drip mem b
  let here := (if d.holds mem b.tenant b.clus then d.goOn b .running else d, ([] : List (Nat × Byte)))
  match room with
  | none => here
  | some s =>
    let r := d.saveBlock mem b s Cause.preempt
    let m := mem.writeAll r.2
    match d.placeFor drip mem b s.area.isSome with
    | none =>
      if d.holds mem b.tenant b.clus ∨ d.tied b then here
      else (r.1.goOn b .swapped, r.2)
    | some (c, fs, g) =>
      if b.standsAt c fs g then here
      else
        let v := r.1.evict drip m fs (4096 * b.slots)
        let q := match v.1.blk b.id with
          | some k => (v.1.arrayFor c b.tenant).restoreBlock drip (m.writeAll v.2) k c fs g
          | none => (v.1, [])
        let d := match q.1.blk b.id with
          | some k => q.1.carry b k
          | none => q.1
        (d.goOn b .running, r.2 ++ v.2 ++ q.2)

/-- Place stopped blocks in the order in which they were admitted. -/
def Dev.placeAll (d : Dev) (drip : Nat) (mem : Memory) : List Block → Dev × List (Nat × Byte)
  | [] => (d, [])
  | b :: bs =>
    let r := d.placeStopped drip mem b
    let q := r.1.placeAll drip (mem.writeAll r.2) bs
    (q.1, r.2 ++ q.2)

/-- Stopped blocks of a tenant, earliest admitted first. -/
def Dev.stoppedBlocks (d : Dev) (tenant : Nat) : List Block :=
  ((d.blocks.map Prod.snd).filter (fun b => b.ofTenant tenant && b.st == .stopped)).foldl (fun (m : List Block) b =>
    m.takeWhile (fun y => y.admitted ≤ b.admitted) ++ [b] ++ m.dropWhile (fun y => y.admitted ≤ b.admitted)) []

/-- RESUMPTION: at its stamp a stopped partition's rows are read again, its blocks placed, promises not yet
reached moved by the length of the stop, and stowed messages sent on. A block that stayed stopped is placed
when it can be. -/
def execResumption (tenant : Nat) : State → Host.Outcome State Fault Refusal :=
  run (fun drip mem d =>
    match d.stops.find? (fun s => s.tenant == tenant && s.reached && s.go.any (fun u => u ≤ drip)) with
    | none =>
      if d.tenantStopped tenant then .eff d []
      else
        let r := d.placeAll drip mem (d.stoppedBlocks tenant)
        .eff r.1 r.2
    | some st =>
      match d.resumeFrontier drip mem tenant with
      | .wait => .eff d []
      | .hole p => .fault (.hole p)
      | .ok (d, w) =>
        let r := d.placeAll drip (mem.writeAll w) (d.stoppedBlocks tenant)
        let d := r.1.mapCmds (fun (e : EEntry) =>
          if e.src.ctx ≠ 0 ∧ e.src.tenant = tenant ∧ st.at' ≤ e.promise then
            { e with promise := e.promise + (drip - st.at') } else e)
        let mine := d.stowed.filter (d.stows tenant)
        .eff { d with
          stops := d.stops.filter (fun s => s.tenant != tenant)
          stowed := d.stowed.filter (fun m => !d.stows tenant m)
          msgs := mine ++ d.msgs } (w ++ r.2))

end Sys2Proof.Machine
end

