-- ==== Sys2Proof/Machine/Lapse.lean ====
section
/-!
DEFINITION. The lapse of a lease and the fate of what it guards (spec 06 R116, Table 6-6), and the deadlock of
a ring of queues (02 R35).
-/
namespace Sys2Proof.Machine
open Sys2Proof

/-- A context's lease has lapsed: its threads stop wherever they are, and its launches end (Table 6-6). -/
def Dev.endContext (d : Dev) (ctx : Nat) : Dev :=
  let mine := (d.launches.filter (fun p => p.2.ctx == ctx && p.2.ended.isNone)).map Prod.fst
  let d := (d.blocks.filter (fun p => p.2.ctx == ctx)).foldl (fun d p => d.killBlock p.1) d
  let d := mine.foldl (fun d n => d.failLaunch n Cause.leaseLapsed 0) d
  { d with
    launches := d.launches.map (fun (p : Nat × Launch) => if mine.contains p.1 then (p.1, { p.2 with queue := [] }) else p)
    fenced := d.fenced.map (fun (f : Fence) => { f with refire := f.refire.filter (fun p => !mine.contains p.1) })
    msgs := d.msgs.filter (fun m => match m.kind with
      | .req _ (.done n _ _ _) => !mine.contains n
      | _ => true)
    stowed := d.stowed.filter (fun m => match m.kind with
      | .req _ (.done n _ _ _) => !mine.contains n
      | _ => true) }

/-- Every held BWAIT of a lapsed barrier faults (R145); no rule gives EVAL a value. -/
def Dev.faultWaits (d : Dev) (l : List (Nat × From)) : Dev :=
  l.foldl (fun d p => d.tickFresh.send (.error p.2 Cause.barrierLapsed (Config.freeWord d.fresh) 0 none)) d

/-- What the lapse of a lease does at once. -/
def Dev.expire (d : Dev) (drip : Nat) (l : Lease) : Dev :=
  let k := d.setLease { l with dead := true }
  match l.payload with
  | .lock word ws => d.handOver drip l word (d.expiry l) ws
  | .barrier b => (d.setLease { l with
      dead := true
      payload := .barrier { b with waits := [] } }).faultWaits b.waits
  | .context _ _ => match l.holder with
    | some c => k.endContext c
    | none => k
  | .anchor t _ _ => k.signal (4 * t + 3)
  | .array clus => match (d.clus clus).array.grant with
    | some g => if g.index = l.index ∧ g.gen = l.gen then k.endGrant clus else k
    | none => k
  | .retention line => match d.bline line with
    | some b => if (b.held (d.clock drip l.agent.mod)).isNone then k.setBline { b with old := none } else k
    | none => k
  | .bundle b => match b.st with
    | .opened | .doomed => k.abortBundle { l with dead := true } b
    | _ => k
  | .frontier n => k.failLaunch n Cause.leaseLapsed 0
  | .range base n _ => { k with
      exactLines := k.exactLines.filter (fun x => !(base ≤ x && x < base + n))
      exactEls := k.exactEls.filter (fun x => !(base ≤ x.1 && x.1 < base + n)) }
  | .path .. | .cap _ => k

/-- LEASE_EXPIRY: a lease has lapsed, by its own expiry or its root's. -/
def execLeaseExpiry (a : AgentId) (ix : Nat) : State → Host.Outcome State Fault Refusal :=
  run (fun drip _ d => match d.lease a ix with
    | none => .eff d []
    | some l => .eff (if l.dead || !d.lapsed drip l then d else d.expire drip l) [])

/-- The slots of a block on a core that map a queue the block holds there. -/
def Dev.ringSlots (d : Dev) (core blk : Nat) : List (Nat × Thread) :=
  d.threads.filter (fun p => p.2.blk == blk && !p.2.exited && (match p.2.place with
      | .slot c _ => c == core
      | .saved => false)
    && (List.range 4).any (fun q => bits p.2.slotcfg (2 * q) 2 != 0 && (match ((d.core core).q.toList)[q]?.getD none with
      | some x => x.blk == blk
      | none => false)))

/-- QUEUE_DEADLOCK: every slot of the ring has been queue-blocked for 2^16 drips, and each takes the trap at
its blocked instruction. No rule gives EVAL a value. -/
def execQueueDeadlock (core blk : Nat) : State → Host.Outcome State Fault Refusal :=
  run (fun drip mem d =>
    let l := d.ringSlots core blk
    if l = [] ∨ !l.all (fun p => p.2.qblk.any (fun t => t + 65536 ≤ drip)) then .eff d []
    else .eff (l.foldl (fun d p =>
      (d.tickFresh.takeTrap drip mem p.1 Cause.queueDeadlock p.2.pc (Config.freeWord d.fresh)).updThr p.1
        (fun t => { t with qblk := none })) d) [])

end Sys2Proof.Machine
end

