-- ==== Sys2Proof/Machine/Window.lean ====
section
/-!
DEFINITION. The command unit (spec 18 R364, R365; 06 R111): keepalives, arm words, and the requests that they
arm.
-/
namespace Sys2Proof.Machine
open Sys2Proof

/-- The contexts of a tenant with a live lease, oldest grant last. -/
def Dev.liveContexts (d : Dev) (drip tenant : Nat) : List Nat :=
  d.leases.filterMap (fun l => match l.payload with
    | .context t _ => if t = tenant && !d.lapsed drip l then l.holder else none
    | _ => none)

/-- The context of a tenant's windows: the spec does not say which of several it is, and the choice is
free. -/
def Dev.windowCtx (d : Dev) (drip tenant : Nat) : Option Nat :=
  match d.liveContexts drip tenant with
  | [] => none
  | [c] => some c
  | l => l[Config.windowPick tenant % l.length]?

/-- The anchor whose windows hold a place, with the window's base. -/
def Dev.anchorAt (d : Dev) (a : Nat) : Option (Lease × Nat × Nat) :=
  match d.windowOf a with
  | some l => match l.payload with
    | .anchor t w _ => some (l, t, w)
    | _ => none
  | none => none

/-- A message is a store to the dword at `base` that may perform now. -/
def Dev.storesAt (d : Dev) (drip base : Nat) (m : Msg) : Bool :=
  match m.kind with
  | .acc a => a.line == base && d.mayPerform drip m.id a && (match a.op with
    | .store b => b.any (fun x => x.addr < base + 8)
    | _ => false)
  | _ => false

/-- KEEPALIVE (R111, R365): a store to the keepalive word reaches the command unit; an anchor that is live then
is renewed by PERIOD, and nothing is stored. -/
def execKeepalive (addr : Nat) : State → Host.Outcome State Fault Refusal :=
  run (fun drip _ d =>
    match d.anchorAt addr with
    | none => .eff d []
    | some (l, _, w) =>
      match d.msgs.find? (fun m => addr == w && d.storesAt drip w m) with
      | none => .eff d []
      | some m =>
        let d := d.drop m.id
        match l.payload with
        | .anchor _ _ period =>
          let e := max l.expiry (d.clock drip l.agent.mod + (duration period).getD 0)
          if d.lapsed drip l then .eff d []
          else .eff ((d.setLease { l with expiry := e }).spreadExpiry { l with expiry := e } e) []
        | _ => .eff d [])

/-- An arm word's KIND is set, and it lies in a slot that the unit acts on: slots 1 to 255 of a command window,
or the 32 of the collective window above it (`coll`). -/
def Dev.armed (d : Dev) (mem : Memory) (addr : Nat) (coll : Bool) : Option (Lease × Nat × Word) :=
  match d.anchorAt addr with
  | none => none
  | some (l, t, w) =>
    let o := addr - w
    let v := mem.read64 addr
    if o % 128 = 120 ∧ (if coll then 32768 ≤ o else 128 ≤ o ∧ o < 32768) ∧ bits v 56 8 ≠ 0 ∧ !d.inReset
        ∧ !d.clears.any (fun p => p.1 == addr) then some (l, t, v)
    else none

/-- The arm word is acceptable: a KIND that the window knows, and no reserved bit (Table 18-4). -/
def armOk (v : Word) (kinds : List Nat) : Bool := kinds.contains (bits v 56 8) && bits v 0 55 == 0

/-- The unit has read a slot: its arm word is cleared in the drip after (R365), at the end of that drip
(`passDrip`), so that what is stored there until then is overwritten. -/
def Dev.clearLater (d : Dev) (drip addr : Nat) : Dev := { d with clears := d.clears ++ [(addr, drip)] }

/-- The record of an armed request is refused for good: its completion record, and the interrupt. -/
def Dev.armRefuse (d : Dev) (drip : Nat) (mem : Memory) (src : From) (donea : Word) (cause reason : Nat) (irq : Bool)
    (w : List (Nat × Byte)) : Work (Dev × List (Nat × Byte)) :=
  match d.complete drip mem src donea cause reason with
  | .wait => .wait
  | .hole p => .hole p
  | .ok (d, w', _) => .ok (if irq && w' != [] then d.signal (4 * src.tenant + 2) else d, w ++ w')

/-- As a result: a wait changes nothing. -/
def Work.res (d : Dev) : Work (Dev × List (Nat × Byte)) → Res
  | .ok r => .eff r.1 r.2
  | .wait => .eff d []
  | .hole p => .fault (.hole p)

/-- ARM (R365): the unit reads the slot, clears its arm word, and judges the launch (R316) or the active message
(R331). A record in a poisoned sector, and a window whose tenant has no live context, leave a log record only.
A refused header read refuses the launch with REASON HEADER and is logged. -/
def execArm (addr : Nat) : State → Host.Outcome State Fault Refusal :=
  run (fun drip mem d =>
    let line := lineOf addr
    match d.armed mem addr false with
    | none => .eff d []
    | some (l, t, v) =>
      let e := d.clearLater drip addr
      if !d.unitMayWrite drip line then .eff d []
      else if d.lapsed drip l ∨ !armOk v [1, 2] then .eff e []
      else if d.poisoned line ∨ d.poisoned (line + 64) then
        .eff (e.fileUnitLog 0 t Cause.dramUncorrectable (wd64 (keyPhys line))) []
      else match d.windowCtx drip t with
      | none => .eff (e.fileUnitLog 0 t Cause.leaseLapsed (wd64 (keyPhys line))) []
      | some c =>
        let src : From := ⟨0, 0, c, t, 0, 0⟩
        let r := dwords 16 (mem.readN line 128)
        let irq := bit v 55
        let w := fun k => r.getD k 0
        if bits v 56 8 = 1 then
          match d.reach drip mem c .read (span (w 0 - 66) 64) with
          | .wait => .eff d []
          | .hole p => .fault (.hole p)
          | .refused k a =>
            ((e.fileUnitLog 0 t k a).armRefuse drip mem src (w 9) Cause.launchRefused 2 irq []).res d
          | .ok hs =>
            match e.judgeLaunch drip mem (mkLaunch d.nextLaunch c t r (dwords 8 (gather (d.unitByte drip mem) hs)) irq) with
            | .wait => .eff d []
            | .hole p => .fault (.hole p)
            | .accept e _ => .eff e []
            | .refuse k => (e.armRefuse drip mem src (w 9) Cause.launchRefused k irq []).res d
        else
          let core := targetCore (w 0)
          let no := fun k => (e.armRefuse drip mem src (w 4) k 0 irq []).res d
          if !targetOk (w 0) ∨ (List.range 10).any (fun k => w (5 + k) != 0) then no Cause.operandRange
          else if d.fencedCore core then no Cause.contained
          else if !(d.takers drip mem (coreClus core)).isEmpty
              ∨ d.haltedAt drip mem (coreClus core) then .eff d []
          else match e.startThread drip mem t c (w 0) (w 1) (w 2) (w 3) (some (w 4, irq)) with
          | .refused k => no k
          | .ok e z _ => .eff e z)

end Sys2Proof.Machine
end

