-- ==== Sys2Proof/Machine/HostPort.lean ====
section
/-!
DEFINITION. The host's side (spec 18 R361, R362, R366, R367; 06 R124): accesses to device memory, the
permission leases of caching agents, snoops of host memory, and page requests.
-/
namespace Sys2Proof.Machine
open Sys2Proof

/-! ### Host accesses (R361) -/

/-- The place of a host offset. -/
def hostKey (h : Nat) : Nat := apKey 0 (h / dieBytes * 2 ^ 37 + h % dieBytes)

/-- A live range of any context covers a place, or a command window holds it. -/
def Dev.hostMay (d : Dev) (drip k : Nat) : Bool :=
  (d.windowOf k).isSome || d.leases.any (fun l => match l.payload with
    | .range b n _ => b ≤ k && k < b + n && !d.lapsed drip l
    | _ => false)

/-- A permission that is live. -/
def Perm.live (p : Perm) (drip : Nat) : Bool := drip < p.expiry

/-- The host's live permission on a line. -/
def Dev.hostPerm (d : Dev) (drip line : Nat) : Option Perm :=
  d.perms.find? (fun p => p.line == line && p.agent == 0 && p.live drip)

/-- Give the host a permission on a line, for 1,024 drips; what it has written is added. -/
def Dev.givePerm (d : Dev) (drip line : Nat) (write : Bool) (bytes : List (Nat × Byte)) : Dev :=
  let old := d.hostPerm drip line
  let p : Perm := {
    line := line
    agent := 0
    write := write || (match old with
      | some q => q.write
      | none => false)
    expiry := drip + 1024
    dirty := bytes.foldl (fun l b => put b.1 b.2 l) (match old with
      | some q => q.dirty
      | none => [])
    asked := match old with
      | some q => q.asked
      | none => false }
  { d with perms := p :: d.perms.filter (fun q => !(q.line == line && q.agent == 0)) }

/-- The home may give the host a line: it holds it already, or no copy, store or other agent stands in the
way. -/
def Dev.mayGive (d : Dev) (drip line : Nat) (write : Bool) : Bool :=
  let others : Dev := { d with perms := d.perms.filter (fun p => p.agent != 0) }
  if write then others.unitMayWrite drip line else !others.busyLine drip line

/-- The 64 bytes of a sector as the host reads them: the version for this drip, under what it has written. -/
def Dev.hostBytes (d : Dev) (drip : Nat) (mem : Memory) (sector : Nat) : List Byte :=
  let line := lineOf sector
  let mine := match d.hostPerm drip line with
    | some p => p.dirty
    | none => []
  let v := d.version line drip drip
  (List.range 64).map (fun k => (find? (sector + k) mine).getD (match v with
    | .old b => versionByte b line (sector + k)
    | _ => d.homeByte drip mem (sector + k)))

/-- HOST_ACCESS: a read of a 64-byte sector, or a write within one. A host that reads a line caches it; one that
writes a line has taken it for writing, and holds what it wrote until it writes it back. A window's lines are
the command unit's: the host's stores go there. -/
def execHostAccess (o : HostAccessOp) : State → Host.Outcome State Fault Refusal :=
  run (fun drip mem d =>
    let k := hostKey o.off
    let line := lineOf k
    let sector := sectorOf k
    let poison : Dev := { d with hostRead := ([], true) }
    if 4 * dieBytes ≤ o.off ∨ (o.write ∧ 64 < o.off % 64 + o.data.length) then .eff d []
    else if d.inReset then .eff (if o.write then d else poison) []
    else if !d.hostMay drip k then
      .eff { (if o.write then d else poison) with href := min (d.href + 1) (2 ^ 64 - 1) } []
    else if d.isExact line then .eff (if o.write then d else poison) []
    else if d.bundled line ∧ d.sealComing line then .eff d []
    else if !o.write then
      if !d.mayGive drip line false then .eff d []
      else
        let s := d.scrub mem line
        let d := s.1
        if d.poisoned sector ∨ d.badWords.any (fun w => sector ≤ w && w < sector + 64) then
          .eff { d with hostRead := ([], true) } s.2
        else
          let e : Dev := { d with hostRead := (d.hostBytes drip mem sector, false) }
          .eff (if d.noLease line drip || (d.windowOf line).isSome then e else e.givePerm drip line false []) s.2
    else
      let w := o.data.zipIdx.map (fun p => (k + p.2, p.1))
      if (d.windowOf line).isSome then
        .eff (d.send (.acc ⟨⟨d.nextTid, 0, 0, 0, 0, 0⟩, .store (w.map (fun p => ⟨p.1, 0xFF, p.2⟩)), line, 0, .sys, false,
          false, 0, 0, .accepted, drip, [], false, 0, false⟩)) []
      else if d.bundled line then .eff d []
      else if !d.mayGive drip line true then .eff d []
      else .eff ((d.snoopSets d.nextTid line).givePerm drip line true w) [])

/-! ### Permission leases (R124) -/

/-- The holder writes a line back and gives its lease up. -/
def Dev.writeBack (d : Dev) (p : Perm) : Dev × List (Nat × Byte) :=
  (({ d with perms := d.perms.filter (fun q => !(q.line == p.line && q.agent == p.agent)) } : Dev).clearPoison p.dirty,
    p.dirty)

/-- A slice of this module gives a peer, host or pool line up: what it has written stands at the line's home,
and the slice no longer holds the line. -/
def Dev.sliceGives (d : Dev) (line : Nat) : Dev :=
  { d with
    sliceLeases := d.sliceLeases.filter (fun p => p.line != line)
    grotto := d.grotto.filter (· != line)
    hostLines := d.hostLines.filter (fun p => p.1 != line) }

/-- A slice's lease at its renewal: given up when the home has asked for the line and no L1 copy under it is left,
and otherwise renewed, unless no link reaches the home (R369). -/
def Dev.renewSlice (d : Dev) (drip : Nat) (p : Perm) : Dev :=
  if p.asked ∧ !d.leased drip p.line then d.sliceGives p.line
  else if d.cutOff p.line then d
  else { d with sliceLeases := d.sliceLeases.map (fun (q : Perm) =>
    if q.line = p.line then { q with expiry := drip + 1024 } else q) }

/-- WRITE_BACK_REQUEST: the home asks the holders of a line to write it back. -/
def execWriteBackRequest (line : Nat) : State → Host.Outcome State Fault Refusal :=
  run (fun drip _ d =>
    let ask := fun (p : Perm) => if p.line = line ∧ p.live drip then { p with asked := true } else p
    .eff { d with
      perms := d.perms.map ask
      sliceLeases := d.sliceLeases.map ask } [])

/-- PERMISSION_LEASE_RENEWAL: a live holder that has been asked writes back and gives up; any other has another
1,024 drips. -/
def execPermissionLeaseRenewal (line : Nat) : State → Host.Outcome State Fault Refusal :=
  run (fun drip _ d =>
    let held := d.perms.filter (fun p => p.line == line && p.live drip)
    let r := (held.filter Perm.asked).foldl (fun (a : Dev × List (Nat × Byte)) p =>
      let q := a.1.writeBack p
      (q.1, a.2 ++ q.2)) (d, [])
    let e : Dev := { r.1 with perms := r.1.perms.map (fun (p : Perm) =>
      if p.line = line ∧ p.live drip then { p with expiry := drip + 1024 } else p) }
    .eff ((e.sliceLeases.filter (fun p => p.line == line && p.live drip)).foldl (fun e p => e.renewSlice drip p) e) r.2)

/-- BACK_INVALIDATE: the coherence engine recalls a line that the host caches. -/
def execBackInvalidate (line : Nat) : State → Host.Outcome State Fault Refusal :=
  run (fun drip _ d => match d.hostPerm drip line with
    | none => .eff d []
    | some p =>
      let r := d.writeBack p
      .eff r.1 r.2)

/-- The tenant whose range covers a place. -/
def Dev.tenantAt (d : Dev) (k : Nat) : Nat :=
  match d.rangeOf k with
  | some l => l.tenant
  | none => 0

/-- What a lapsed write lease leaves: the line's region has REV set, and a log record is entered. Host memory and
the pool have no regions of a module. -/
def Dev.reverted (d : Dev) (mem : Memory) (line : Nat) : Dev × List (Nat × Byte) :=
  (d.fileUnitLog (keyPhys line / 2 ^ 37 % 4) (d.tenantAt line) Cause.regionReverted (wd64 (keyPhys line)),
    if 0xC0 < keyAp line then [] else [statusSet mem line 0])

/-- WRITE_LEASE_LAPSE: a write lease that lapses without a write-back: the line stands as last written back,
its region's REV is set, and a log record is entered. What a slice wrote under such a lease is undone. Read
leases that have run out are forgotten. -/
def execWriteLeaseLapse (line : Nat) : State → Host.Outcome State Fault Refusal :=
  run (fun drip mem d =>
    let gone := d.perms.filter (fun p => p.line == line && !p.live drip)
    let mine := d.sliceLeases.filter (fun p => p.line == line && !p.live drip)
    if gone = [] ∧ mine = [] then .eff d []
    else
      let d : Dev := { d with perms := d.perms.filter (fun p => !(p.line == line && !p.live drip)) }
      let e := if mine = [] then d else d.sliceGives line
      if (gone ++ mine).any Perm.write then
        let r := e.reverted mem line
        .eff r.1 (mine.flatMap Perm.dirty ++ r.2)
      else .eff e [])

/-! ### Host memory that the device caches (R366) -/

/-- HOST_SNOOP: the slice writes a modified line back and answers; a snoop for writing also takes the line,
once the device's own read leases on it have run out, breaks the sets that hold it (R298), and the host writes
its memory. In module reset the answer is "clean, no data". -/
def execHostSnoop (o : HostSnoopOp) : State → Host.Outcome State Fault Refusal :=
  run (fun drip _ d =>
    let line := apKey 0xFE (keyPhys (lineOf o.line))
    let w := (o.data.filter (fun p => p.1 < 128)).map (fun p => (line + p.1, p.2))
    if d.inReset then .eff d (if o.inv then w else [])
    else if !o.inv then
      .eff { d with
        hostLines := d.hostLines.map (fun p => if p.1 = line then (p.1, false) else p)
        sliceLeases := d.sliceLeases.map (fun (p : Perm) => if p.line = line then { p with dirty := [] } else p) } []
    else if !d.unitMayWrite drip line then .eff d []
    else .eff ((d.sliceGives line).snoopSets d.nextTid line) w)

/-! ### Page requests (R367) -/

/-- The lowest free tag of the 512. -/
def Dev.freeTag (d : Dev) : Option Nat :=
  (List.range 512).find? (fun t => !d.prqTags.any (fun p => p.1 = t))

/-- Send a page request for a record, or queue it; none when the queue is full. -/
def Dev.pageRequest (d : Dev) (rid : Nat) : Option Dev :=
  match d.freeTag with
  | some t => if d.prqQueue = [] then some { d with prqTags := d.prqTags ++ [(t, rid)] }
    else if d.prqQueue.length < 4096 then some { d with prqQueue := d.prqQueue ++ [rid] } else none
  | none => if d.prqQueue.length < 4096 then some { d with prqQueue := d.prqQueue ++ [rid] } else none

/-- PRQ: a store to the register performs; its RID is sent to the host, queued, or held at the home. A RID that
names no waiting record sends nothing. -/
def execPrq (addr : Nat) : State → Host.Outcome State Fault Refusal :=
  run (fun drip _ d =>
    let reg := apKey 0 ioBase
    match d.msgs.find? (fun m => addr == reg && d.storesAt drip reg m) with
    | some ⟨m, .acc a⟩ =>
      match a.op with
      | .store b =>
        let rid := (List.range 8).foldr (fun k n => (mergeBytes (reg + k) b).2.toNat + 256 * n) 0
        if !d.faults.any (fun f => f.rid = rid && f.waits) then .eff (d.drop m) []
        else match (d.drop m).pageRequest rid with
        | some e => .eff e []
        | none => .eff d []
      | _ => .eff d []
    | _ => .eff d [])

/-- PAGE_RESPONSE: the tag is free, and the record's requesters are woken, or fail with HOST_PAGE_DENIED; the
oldest request that waits takes a tag. -/
def execPageResponse (tag : Nat) (ok : Bool) : State → Host.Outcome State Fault Refusal :=
  run (fun drip _ d => match d.prqTags.find? (fun p => p.1 = tag) with
    | none => .eff d []
    | some p =>
      let d : Dev := { d with prqTags := d.prqTags.filter (fun q => q.1 != tag) }
      let d := (d.wakeRecord drip p.2 (if ok then none else some Cause.hostPageDenied)).1
      .eff (match d.prqQueue with
        | [] => d
        | r :: rs => { d with
          prqQueue := rs
          prqTags := d.prqTags ++ [(tag, r)] }) [])

end Sys2Proof.Machine
end

