-- ==== Sys2Proof/Machine/Fabric.lean ====
section
/-!
DEFINITION. The Flerov fabric (spec 18 R369 to R372; 09 R187; 06 R102, R125): links and members, time, and
the collectives.
-/
namespace Sys2Proof.Machine
open Sys2Proof

/-! ### Membership -/

/-- Set RET in every agent map entry that a test picks. -/
def Dev.retireAgents (d : Dev) (f : AgentId → Bool) : Dev :=
  { d with maps := d.maps.map (fun p => (p.1, p.2.map (fun (e : MapEntry) => if f e.agent then { e with ret := true } else e))) }

/-- The agents that a test picks among those in use and not in quarantine. -/
def Dev.agentsBy (d : Dev) (f : AgentId → Bool) : List AgentId :=
  ((d.maps.flatMap (fun p => p.2.map MapEntry.agent) ++ d.leases.map Lease.agent).eraseDups).filter (fun a =>
    f a && !d.outOfUse a)

/-- Agents fail: their map entries are retired, and each is in quarantine from now (R125). -/
def Dev.failAgents (d : Dev) (drip : Nat) (l : List AgentId) : Dev :=
  let d := d.retireAgents (fun a => l.contains a)
  { d with quarantine := d.quarantine ++ l.map (fun a => (a, drip)) }

/-- LINK_FAILURE (R369): no live plane reaches a module from now on. -/
def execLinkFailure (module : Nat) : State → Host.Outcome State Fault Refusal :=
  run (fun drip _ d =>
    if module = d.modNo ∨ d.cut.any (fun p => p.1 = module) then .eff d []
    else .eff { d with cut := d.cut ++ [(module, drip)] } [])

/-- MODULE_FAILED (R369): a module unreachable for 65,536 drips is declared failed, and its agents are
retired. -/
def execModuleFailed (module : Nat) : State → Host.Outcome State Fault Refusal :=
  run (fun drip _ d =>
    if d.cut.any (fun p => p.1 = module && p.2 + 65536 ≤ drip) then
      let d := d.failAgents drip (d.agentsBy (fun a => a.mod = module))
      .eff { d.retireAgents (fun (a : AgentId) => a.mod = module) with members := d.members.filter (· != module) } []
    else .eff d [])

/-- AGENT_FAILURE (R125). -/
def execAgentFailure (agent : AgentId) : State → Host.Outcome State Fault Refusal :=
  run (fun drip _ d => if d.outOfUse agent then .eff d [] else .eff (d.failAgents drip [agent]) [])

/-- AGENT_REJOIN (R125): one longest lease after its failure was detected, an agent takes the next
incarnation number. Its next grant takes a new agent number. -/
def execAgentRejoin (agent : AgentId) : State → Host.Outcome State Fault Refusal :=
  run (fun drip _ d =>
    if d.quarantine.any (fun p => p.1 = agent && p.2 + Config.longest ≤ drip) then
      .eff { d with
        quarantine := d.quarantine.filter (fun p => p.1 != agent)
        incs := (agent, d.inc agent + 1) :: d.incs.filter (fun p => p.1 != agent) } []
    else .eff d [])

/-- Where other modules' clocks stand and are being trimmed to, relative to this module's. -/
def Dev.clocksNear (d : Dev) (module : Nat) (offset : Int) : Bool :=
  let off := fun (l : List (Nat × Int)) m => look 0 m l
  d.members.all (fun m => m == module
    || ((offset - off d.offsets m).natAbs ≤ Config.epsilon && (offset - off d.trims m).natAbs ≤ Config.epsilon))

/-- TIME_SYNC (R102, R370): what a time unit measured of a module, relative to this one. While that keeps every two
members' counters within ε, the module's clock is trimmed to it, drip by drip (`passDrip`); beyond, the module leaves
the domain. This module, when its own count is the one that has run off the root's, goes on as a domain of one, and
vector 1,026 is signalled here (Table 18-6). -/
def execTimeSync (module : Nat) (offset : Int) : State → Host.Outcome State Fault Refusal :=
  run (fun _ _ d =>
    if module = d.modNo ∨ !d.members.contains module then .eff d []
    else if d.clocksNear module offset then .eff { d with trims := put module offset d.trims } []
    else if module = d.timeRoot then .eff ({ d with members := [d.modNo] }.signal 1026) []
    else .eff { d with members := d.members.filter (· != module) } [])

/-- DOMAIN_JOIN (R102): the count of the domain, in one step, before the first admission or grant. -/
def execDomainJoin (o : JoinOp) (s : State) : Host.Outcome State Fault Refusal :=
  if s.dev.started ∨ s.dev.joined ∨ !o.members.contains o.modNo ∨ !o.members.all (· < 192) ∨ 2 ^ 64 ≤ o.count then .next s
  else .next { s with
    drip := o.count
    dev := { s.dev with
      modNo := o.modNo
      members := o.members
      joined := true } }

/-! ### Collective groups (R371) -/

/-- The place of a group entry. -/
def groupKey (tenant group : Nat) : Nat := apKey 0 (ioBase + 0x1000 + 64 * (16 * tenant + group))

/-- A group's members, in ascending module number, and its generation. -/
def groupMembers (mem : Memory) (tenant group : Nat) : List Nat :=
  (List.range 192).filter (mem.readN (groupKey tenant group) 24).testBit
def groupGen (mem : Memory) (tenant group : Nat) : Nat := mem.readN (groupKey tenant group + 24) 4

/-- The generation of a request whose group has changed under it: no entry can have it. -/
def changedGen : Word := 2 ^ 32

/-- MEMBER_FAILURE (R372): a module that has left the domain leaves every group that holds it, the groups'
generations rise, and requests in flight on them are to end. -/
def execMemberFailure (module : Nat) : State → Host.Outcome State Fault Refusal :=
  run (fun _ mem d =>
    let hit := (List.range 4096).filter (fun n => (groupMembers mem (n / 16) (n % 16)).contains module)
    if d.members.contains module ∨ hit = [] then .eff d []
    else
      .eff ({ d with colls := d.colls.map (fun (c : Coll) =>
          if hit.contains (16 * c.tenant + c.group) then { c with gen := changedGen } else c) }.signal 1025)
        (hit.flatMap (fun n =>
          let k := groupKey (n / 16) (n % 16)
          (k + module / 8, mem.read (k + module / 8) &&& ~~~(BitVec.ofNat 8 (2 ^ (module % 8))))
            :: bytesAt (k + 24) 4 ((groupGen mem (n / 16) (n % 16) + 1) % 2 ^ 32))))

/-! ### A request (Table 18-7) -/

def Coll.op (c : Coll) : Nat := bits c.opw 0 4
def Coll.fmt (c : Coll) : Option Fmt :=
  match bits c.opw 8 8 with
  | 0x0A => some .f32
  | 0x0C => some .bf16
  | 0x04 => some .s64
  | 0x08 => some .n64
  | _ => none
def Coll.rootRank (c : Coll) : Nat := bits c.opw 32 8
/-- Bytes of an element; 8 for a format that is reserved. -/
def Coll.size (c : Coll) : Nat := ((c.fmt.map Fmt.bits).getD 64) / 8

/-- A field holds a reserved value: of the record's 16 dwords, and with `n` members. -/
def Coll.reserved (c : Coll) (r : List Word) (n : Nat) : Bool :=
  c.op == 0 || 5 < c.op || c.fmt.isNone || 15 < c.group || bits c.opw 4 4 != 0 || bits c.opw 24 8 != 0
  || bits c.opw 40 24 != 0 || (if c.op = 5 then n ≤ c.rootRank else c.rootRank != 0)
  || c.count == 0 || 2 ^ 24 < c.count.toNat || c.src.toNat % c.size != 0 || c.dst.toNat % c.size != 0
  || bits (r.getD 5 0) 32 32 != 0 || (List.range 9).any (fun k => r.getD (6 + k) 0 != 0)

/-- Pair up neighbours; a last one without a neighbour passes on. -/
def pairUp (f : Nat → Nat → Nat) : List Nat → List Nat
  | a :: b :: l => f a b :: pairUp f l
  | l => l

/-- R187's binomial tree: at each level rank m takes rank m + s. -/
def collTree (f : Nat → Nat → Nat) : Nat → List Nat → Nat
  | 0, l => l.headD 0
  | n + 1, l => collTree f n (pairUp f l)

/-- One combining step of a collective on element codes (R187, R371). -/
def collStep (op : Nat) (ef : Fmt) (x y : Nat) : Nat :=
  if op = 1 ∨ op = 4 then (sumOp ef RM.rne x y).1
  else if ef.isI then (if decide (intVal ef x < intVal ef y) == (op == 3) then x else y)
  else ((Fp.of ef).minmax (op == 2) x y).1

/-- The average of a sum over `n` ranks: times round(1/n) in FP32, with one more rounding to nearest even (R187), to
an element's format. -/
def collAverage (ef : Fmt) (n s : Nat) : Nat :=
  let inv := Fp.f32.val (Fp.f32.pack RM.rne false (FVal.div (.fin false 1 0) (.fin false n 0)).1).1
  if ef.isI then wrap ef.bits ((FVal.mul (.ofInt (intVal ef s)) inv).1.toInt RM.rne (intLo ef) (intHi ef)).1
  else (packF ef RM.rne (FVal.mul ((Fp.of ef).val s) inv)).1

/-- One element of the result, from the ranks' elements. -/
def Coll.element (c : Coll) (ef : Fmt) (l : List Nat) : Nat :=
  if c.op = 5 then l.getD c.rootRank 0
  else
    let s := collTree (collStep c.op ef) 8 l
    if c.op = 4 then collAverage ef l.length s else s

/-- The request is over with a cause: its completion record, after what was written. -/
def Dev.endColl (d : Dev) (drip : Nat) (mem : Memory) (c : Coll) (cause : Nat) (w : List (Nat × Byte)) :
    Work (Dev × List (Nat × Byte)) :=
  { d with colls := d.colls.filter (fun x => x != c) }.armRefuse drip mem ⟨0, 0, c.ctx, c.tenant, 0, 0⟩ c.donea cause 0
    c.irq w

/-- Bytes of DST, written under its range's guard; `f` gives what follows, with the cause and address of a
refusal. -/
def Dev.collWrite (d : Dev) (drip : Nat) (mem : Memory) (c : Coll) (l : List Byte)
    (f : Dev → List (Nat × Byte) → Option (Nat × Word) → Work (Dev × List (Nat × Byte))) :
    Work (Dev × List (Nat × Byte)) :=
  match d.reach drip mem c.ctx .write (span c.dst l.length) with
  | .wait => .wait
  | .hole p => .hole p
  | .refused k a => f d [] (some (k, a))
  | .ok ps =>
    if !(ps.map lineOf).eraseDups.all (d.unitMayWrite drip) then .wait
    else
      let r := d.unitStore drip mem ⟨0, 0, c.ctx, c.tenant, 0, 0⟩ (ps.zip l)
      f r.1 r.2 none

/-- The request ends without a result: DST is unknown (R371). -/
def Dev.spoilColl (d : Dev) (drip : Nat) (mem : Memory) (c : Coll) (cause : Nat) : Work (Dev × List (Nat × Byte)) :=
  let n := min c.count.toNat (2 ^ 24) * c.size
  { d with fresh := d.fresh + n }.collWrite drip mem c ((List.range n).map (fun k => Config.unknownByte (d.fresh + k)))
    (fun e z _ => e.endColl drip mem c cause z)

/-- An armed request is read, and judged by itself. -/
def Dev.armColl (d : Dev) (drip : Nat) (mem : Memory) (addr t ctx : Nat) (irq : Bool) : Work (Dev × List (Nat × Byte)) :=
  let line := lineOf addr
  let r := dwords 16 (mem.readN line 128)
  let w := fun k => r.getD k 0
  let g := bits (w 0) 16 8
  let k := look 0 (16 * t + g) d.collSeq
  let c : Coll := ⟨t, ctx, g, k, line, w 0, w 1, w 2, w 3, w 4, w 5, irq⟩
  let ms := groupMembers mem t g
  let e := d.clearLater drip addr
  let e : Dev := { e with collSeq := put (16 * t + g) (k + 1) e.collSeq }
  if c.reserved r ms.length then e.spoilColl drip mem c Cause.collMismatch
  else if c.gen.toNat ≠ groupGen mem t g ∨ !ms.contains d.modNo then e.spoilColl drip mem c Cause.groupChanged
  else .ok ({ e with colls := e.colls ++ [c] }, [])

/-- The elements of SRC. -/
def Coll.elements (c : Coll) (ef : Fmt) (f : Nat → Byte) (ps : List Nat) : List Nat :=
  let v := gather f ps
  (List.range c.count.toNat).map (fun k => fld v (ef.bits * k) ef.bits)

/-- The elements at place `k` that the members bring, by rank. -/
def Dev.collParts (d : Dev) (ms : List Nat) (peers : List CollPeer) (ef : Fmt) (own : List Nat) (k : Nat) : List Nat :=
  ms.map (fun m => if m = d.modNo then own.getD k 0 else match peers.find? (fun p => p.mod == m) with
    | some p => p.data.getD k 0 % 2 ^ ef.bits
    | none => 0)

/-- A request meets its fellows of the other members. -/
def Dev.runColl (d : Dev) (drip : Nat) (mem : Memory) (c : Coll) (peers : List CollPeer) :
    Work (Dev × List (Nat × Byte)) :=
  let ms := groupMembers mem c.tenant c.group
  if c.gen.toNat ≠ groupGen mem c.tenant c.group then d.spoilColl drip mem c Cause.groupChanged
  else if peers.map CollPeer.mod ≠ ms.filter (· != d.modNo) then .wait
  else if peers.any (fun p => p.opw != c.opw || p.count != c.count || p.gen != c.gen) then
    d.spoilColl drip mem c Cause.collMismatch
  else match c.fmt with
  | none => .wait
  | some ef => match d.reach drip mem c.ctx .read (span c.src (c.count.toNat * c.size)) with
    | .wait => .wait
    | .hole p => .hole p
    | .refused k a => (d.fileUnitLog 0 c.tenant k a).endColl drip mem c k []
    | .ok ps =>
      let own := c.elements ef (d.unitByte drip mem) ps
      let out := (List.range c.count.toNat).flatMap (fun k =>
        (List.range c.size).map (byteOf (c.element ef (d.collParts ms peers ef own k))))
      d.collWrite drip mem c out (fun e z r => match r with
        | none => e.endColl drip mem c 0 z
        | some (k, a) => (e.fileUnitLog 0 c.tenant k a).endColl drip mem c k z)

/-- COLLECTIVE_REQUEST (R371): a set arm word of the collective window is acted on; with none set, the slot's
oldest request in flight meets what the other members sent. -/
def execCollectiveRequest (o : CollOp) : State → Host.Outcome State Fault Refusal :=
  run (fun drip mem d =>
    let line := lineOf o.addr
    match d.armed mem o.addr true with
    | some (l, t, v) =>
      let e := d.clearLater drip o.addr
      if !d.unitMayWrite drip line then .eff d []
      else if d.lapsed drip l ∨ !armOk v [1] then .eff e []
      else if d.poisoned line ∨ d.poisoned (line + 64) then
        .eff (e.fileUnitLog 0 t Cause.dramUncorrectable (wd64 (keyPhys line))) []
      else match d.windowCtx drip t with
      | none => .eff (e.fileUnitLog 0 t Cause.leaseLapsed (wd64 (keyPhys line))) []
      | some c => (d.armColl drip mem o.addr t c (bit v 55)).res d
    | none => match d.colls.find? (fun c => c.slot == line) with
      | some c => (d.runColl drip mem c o.peers).res d
      | none => .eff d [])

end Sys2Proof.Machine
end

