-- ==== Sys2Proof/Machine/Scalar.lean ====
section
/-!
DEFINITION. The integer, bit-field, immediate, compare and predicate instructions (spec 04 R64 to R69).
-/
namespace Sys2Proof.Machine
open Sys2Proof

/-- A w-bit result, sign-extended (R64). -/
def sext64 {w : Nat} (x : BitVec w) : Word := x.signExtend 64

/-- An integer register form (R64): the low w bits of two sources, and a w-bit result. -/
def alu (o : RRR) (f : (w : Nat) → BitVec w → BitVec w → BitVec w) : Nat → Memory → Dev → Res :=
  issueS false o.g { xs := [o.a, o.b], xd := some o.d } (fun i =>
    i.result o.d (sext64 (f o.w.bits (i.a.setWidth o.w.bits) (i.b.setWidth o.w.bits))))

/-- A one-source integer form. -/
def unary (o : RRw) (f : (w : Nat) → BitVec w → BitVec w) : Nat → Memory → Dev → Res :=
  issueS false o.g { xs := [o.a], xd := some o.d } (fun i =>
    i.result o.d (sext64 (f o.w.bits (i.a.setWidth o.w.bits))))

/-- An immediate shift or rotate (R67). -/
def shiftImm (o : ShiftIOp) (f : (w : Nat) → BitVec w → Nat → BitVec w) : Nat → Memory → Dev → Res :=
  issueS false o.g { xs := [o.a], xd := some o.d } (fun i =>
    i.result o.d (sext64 (f o.w.bits (i.a.setWidth o.w.bits) o.n.val)))

/-- Rotate right. -/
def ror (w : Nat) (x : BitVec w) (n : Nat) : BitVec w := x.rotateRight (n % w)

/-- High half of a signed product. -/
def mulHi (w : Nat) (a b : BitVec w) : BitVec w :=
  (a.signExtend (2 * w) * b.signExtend (2 * w)).extractLsb' w w
/-- High half of an unsigned product. -/
def mulHiU (w : Nat) (a b : BitVec w) : BitVec w :=
  (a.setWidth (2 * w) * b.setWidth (2 * w)).extractLsb' w w

/-- Leading zeros; w of zero. -/
def clzOf (w : Nat) (x : BitVec w) : BitVec w :=
  BitVec.ofNat w (if x = 0 then w else w - 1 - Nat.log2 x.toNat)
/-- Trailing zeros of a natural, at most `n`. -/
def ctzN : Nat → Nat → Nat
  | 0, _ => 0
  | n + 1, x => if x % 2 = 1 then 0 else 1 + ctzN n (x / 2)
/-- Trailing zeros; w of zero. -/
def ctzOf (w : Nat) (x : BitVec w) : BitVec w := BitVec.ofNat w (ctzN w x.toNat)
/-- Set bits of the low `n`. -/
def popN : Nat → Nat → Nat
  | 0, _ => 0
  | n + 1, x => x % 2 + popN n (x / 2)
/-- Set bits. -/
def popOf (w : Nat) (x : BitVec w) : BitVec w := BitVec.ofNat w (popN w x.toNat)

/-- ADD: A + B. -/
def execAdd (o : RRR) : State → Host.Outcome State Fault Refusal := run (alu o (fun _ a b => a + b))
/-- SUB: A − B. -/
def execSub (o : RRR) : State → Host.Outcome State Fault Refusal := run (alu o (fun _ a b => a - b))
/-- AND. -/
def execAnd (o : RRR) : State → Host.Outcome State Fault Refusal := run (alu o (fun _ a b => a &&& b))
/-- OR. -/
def execOr (o : RRR) : State → Host.Outcome State Fault Refusal := run (alu o (fun _ a b => a ||| b))
/-- XOR. -/
def execXor (o : RRR) : State → Host.Outcome State Fault Refusal := run (alu o (fun _ a b => a ^^^ b))
/-- ANDN: A AND NOT B. -/
def execAndn (o : RRR) : State → Host.Outcome State Fault Refusal := run (alu o (fun _ a b => a &&& ~~~b))
/-- SHL: by B mod w. -/
def execShl (o : RRR) : State → Host.Outcome State Fault Refusal :=
  run (alu o (fun w a b => a <<< (b.toNat % w)))
/-- SHR: logical, by B mod w. -/
def execShr (o : RRR) : State → Host.Outcome State Fault Refusal :=
  run (alu o (fun w a b => a >>> (b.toNat % w)))
/-- SRA: arithmetic, by B mod w. -/
def execSra (o : RRR) : State → Host.Outcome State Fault Refusal :=
  run (alu o (fun w a b => a.sshiftRight (b.toNat % w)))
/-- ROT: right, by B mod w. -/
def execRot (o : RRR) : State → Host.Outcome State Fault Refusal := run (alu o (fun w a b => ror w a b.toNat))
/-- MIN, signed. -/
def execMin (o : RRR) : State → Host.Outcome State Fault Refusal :=
  run (alu o (fun _ a b => if a.slt b then a else b))
/-- MAX, signed. -/
def execMax (o : RRR) : State → Host.Outcome State Fault Refusal :=
  run (alu o (fun _ a b => if a.slt b then b else a))
/-- MINU, unsigned. -/
def execMinu (o : RRR) : State → Host.Outcome State Fault Refusal :=
  run (alu o (fun _ a b => if a.ult b then a else b))
/-- MAXU, unsigned. -/
def execMaxu (o : RRR) : State → Host.Outcome State Fault Refusal :=
  run (alu o (fun _ a b => if a.ult b then b else a))
/-- LEA: xa + (xb << n), 64 bits. -/
def execLea (o : LeaOp) : State → Host.Outcome State Fault Refusal :=
  run (issueS false o.g { xs := [o.a, o.b], xd := some o.d } (fun i => i.result o.d (i.a + (i.b <<< o.n.val))))
/-- SEL: by bit 0 of kc. -/
def execSel (o : SelOp) : State → Host.Outcome State Fault Refusal :=
  run (issueS false o.g { xs := [o.a, o.b], xd := some o.d, ks := [o.c] } (fun i =>
    i.result o.d (if bit (i.t.regs.rk o.c) 0 then i.a else i.b)))
/-- MUL: low half. -/
def execMul (o : RRR) : State → Host.Outcome State Fault Refusal := run (alu o (fun _ a b => a * b))
/-- MULH. -/
def execMulh (o : RRR) : State → Host.Outcome State Fault Refusal := run (alu o mulHi)
/-- MULHU. -/
def execMulhu (o : RRR) : State → Host.Outcome State Fault Refusal := run (alu o mulHiU)
/-- DIV (R66): all ones by zero; the most negative by −1 is itself. -/
def execDiv (o : RRR) : State → Host.Outcome State Fault Refusal :=
  run (alu o (fun w a b => if b = 0 then BitVec.allOnes w else a.sdiv b))
/-- DIVU (R66). -/
def execDivu (o : RRR) : State → Host.Outcome State Fault Refusal :=
  run (alu o (fun w a b => if b = 0 then BitVec.allOnes w else a / b))
/-- REM (R66): A by zero; the dividend's sign. -/
def execRem (o : RRR) : State → Host.Outcome State Fault Refusal :=
  run (alu o (fun _ a b => if b = 0 then a else a.srem b))
/-- REMU (R66). -/
def execRemu (o : RRR) : State → Host.Outcome State Fault Refusal :=
  run (alu o (fun _ a b => if b = 0 then a else a % b))
/-- CLZ. -/
def execClz (o : RRw) : State → Host.Outcome State Fault Refusal := run (unary o clzOf)
/-- CTZ. -/
def execCtz (o : RRw) : State → Host.Outcome State Fault Refusal := run (unary o ctzOf)
/-- POPC. -/
def execPopc (o : RRw) : State → Host.Outcome State Fault Refusal := run (unary o popOf)

/-- Extend the low `w` bits to 64 by sg. -/
def extend {w : Nat} (s : Sign) (x : BitVec w) : Word :=
  match s with
  | .sx => x.signExtend 64
  | .zx => x.setWidth 64

/-- SEXT: A extended by sg. -/
def execSext (o : SextOp) : State → Host.Outcome State Fault Refusal :=
  run (issueS false o.g { xs := [o.a], xd := some o.d } (fun i =>
    i.result o.d (extend o.s (i.a.setWidth o.w.bits))))
/-- MOV. -/
def execMov (o : RR) : State → Host.Outcome State Fault Refusal :=
  run (issueS false o.g { xs := [o.a], xd := some o.d } (fun i => i.result o.d i.a))

/-- EXT: A[p + n − 1 : p] extended by sg. -/
def execExt (o : ExtOp) : State → Host.Outcome State Fault Refusal :=
  run (issueS false o.g { xs := [o.a], xd := some o.d } (fun i =>
    i.result o.d (extend o.s (i.a.extractLsb' o.p.val o.n.val))))
/-- INS: D with bits [p + n − 1 : p] replaced by A[n − 1 : 0]. -/
def execIns (o : InsOp) : State → Host.Outcome State Fault Refusal :=
  run (issueS false o.g { xs := [o.a, o.d], xd := some o.d } (fun i =>
    let m : Word := ((BitVec.allOnes o.n.val).setWidth 64) <<< o.p.val
    let r : Word := (i.b &&& ~~~m) ||| ((i.a <<< o.p.val) &&& m)
    i.result o.d (sext64 (r.setWidth o.w.bits))))
/-- ADDI: A + imm16, sign-extended. -/
def execAddi (o : AddiOp) : State → Host.Outcome State Fault Refusal :=
  run (issueS false o.g { xs := [o.a], xd := some o.d } (fun i =>
    i.result o.d (sext64 ((i.a + o.imm.signExtend 64).setWidth o.w.bits))))
/-- SHL by an immediate. -/
def execShlImm (o : ShiftIOp) : State → Host.Outcome State Fault Refusal := run (shiftImm o (fun _ a n => a <<< n))
/-- SHR by an immediate. -/
def execShrImm (o : ShiftIOp) : State → Host.Outcome State Fault Refusal := run (shiftImm o (fun _ a n => a >>> n))
/-- SRA by an immediate. -/
def execSraImm (o : ShiftIOp) : State → Host.Outcome State Fault Refusal :=
  run (shiftImm o (fun _ a n => a.sshiftRight n))
/-- ROT by an immediate. -/
def execRotImm (o : ShiftIOp) : State → Host.Outcome State Fault Refusal := run (shiftImm o ror)
/-- LI: imm extended by sg. -/
def execLi (o : LiOp) : State → Host.Outcome State Fault Refusal :=
  run (issueS false o.g { xd := some o.d } (fun i => i.result o.d (extend o.s o.imm)))
/-- LIH: (imm32 << 32) | xd[31:0]. -/
def execLih (o : LihOp) : State → Host.Outcome State Fault Refusal :=
  run (issueS false o.g { xs := [o.d], xd := some o.d } (fun i =>
    i.result o.d ((o.imm.setWidth 64 <<< 32) ||| (i.a.setWidth 32).setWidth 64)))

/-- A compare of two w-bit values (R68). -/
def compareBy {w : Nat} (cc : Cond) (s : Sign) (a b : BitVec w) : Bool :=
  let lt := match s with
    | .sx => a.slt b
    | .zx => a.ult b
  match cc with
  | .eq => a == b | .ne => a != b | .lt => lt | .le => lt || a == b | .gt => !(lt || a == b) | .ge => !lt

/-- CMP: every bit of kd takes the result, every bit of kd + 1 its inverse. -/
def execCmp (o : CmpOp) : State → Host.Outcome State Fault Refusal :=
  run (issueS false o.g { xs := [o.a, o.b], kd := [kpLo o.kd, kpHi o.kd] } (fun i =>
    let w := o.w.bits
    .ok (i.dev.regs i.tid (·.wpair o.kd (compareBy o.cc o.s (i.a.setWidth w) (i.b.setWidth w)))) []))
/-- CMPI: with imm16 extended by sg (sign-extended for .eq and .ne). -/
def execCmpi (o : CmpiOp) : State → Host.Outcome State Fault Refusal :=
  run (issueS false o.g { xs := [o.a], kd := [kpLo o.kd, kpHi o.kd] } (fun i =>
    let w := o.w.bits
    .ok (i.dev.regs i.tid
      (·.wpair o.kd (compareBy o.cc o.s (i.a.setWidth w) ((extend o.s o.imm).setWidth w)))) []))

/-- A two-source predicate form (R69). -/
def pred2 (o : PPP) (f : BitVec 1024 → BitVec 1024 → BitVec 1024) : Nat → Memory → Dev → Res :=
  issueS false o.g { ks := [o.a, o.b], kd := [o.d] } (fun i =>
    .ok (i.dev.regs i.tid (·.wk o.d (f (i.t.regs.rk o.a) (i.t.regs.rk o.b)))) [])
/-- A one-source predicate form. -/
def pred1 (o : PP) (f : BitVec 1024 → BitVec 1024) : Nat → Memory → Dev → Res :=
  issueS false o.g { ks := [o.a], kd := [o.d] } (fun i =>
    .ok (i.dev.regs i.tid (·.wk o.d (f (i.t.regs.rk o.a)))) [])

/-- PAND. -/
def execPand (o : PPP) : State → Host.Outcome State Fault Refusal := run (pred2 o (· &&& ·))
/-- POR. -/
def execPor (o : PPP) : State → Host.Outcome State Fault Refusal := run (pred2 o (· ||| ·))
/-- PXOR. -/
def execPxor (o : PPP) : State → Host.Outcome State Fault Refusal := run (pred2 o (· ^^^ ·))
/-- PNOT. -/
def execPnot (o : PP) : State → Host.Outcome State Fault Refusal := run (pred1 o (~~~ ·))
/-- PMOV. -/
def execPmov (o : PP) : State → Host.Outcome State Fault Refusal := run (pred1 o id)
/-- PANY: every bit is the OR of all bits. -/
def execPany (o : PP) : State → Host.Outcome State Fault Refusal := run (pred1 o (fun a => allBits (a != 0)))

end Sys2Proof.Machine
end

