-- ==== Sys2Proof/Machine/ScalarFloat.lean ====
section
/-!
DEFINITION. Scalar floating point (spec 04 R70 to R76).
-/
namespace Sys2Proof.Machine
open Sys2Proof

/-- An operand of type t: the low bits of its register (R70). -/
def fval (t : FType) (x : Word) : FVal := (Fp.ofType t).val (x.toNat % 2 ^ t.bits)

/-- A scalar result with its flags: the bits above the result are zero. -/
def In.fresult (i : In) (r : Reg) (p : Nat × Flags) : Out :=
  .ok ((i.dev.putX i.tid r (wd64 p.1)).raiseFlags i.tid i.core p.2) []

/-- An exact value rounded once to type t; the flags of both. -/
def roundTo (t : FType) (r : RM) (p : FVal × Flags) : Nat × Flags :=
  let q := (Fp.ofType t).pack r false p.1
  (q.1, p.2 ||| q.2)

/-- A two-source form (R71). -/
def fp2 (o : FRRR) (f : RM → FVal → FVal → FVal × Flags) : Nat → Memory → Dev → Res :=
  issueS false o.g { xs := [o.a, o.b], xd := some o.d } (fun i =>
    let r := i.t.rmScalar o.rs
    i.fresult o.d (roundTo o.t r (f r (fval o.t i.a) (fval o.t i.b))))

/-- FADD. -/
def execFadd (o : FRRR) : State → Host.Outcome State Fault Refusal := run (fp2 o (fun r a b => a.add r b))
/-- FSUB. -/
def execFsub (o : FRRR) : State → Host.Outcome State Fault Refusal := run (fp2 o (fun r a b => a.add r b.neg))
/-- FMUL. -/
def execFmul (o : FRRR) : State → Host.Outcome State Fault Refusal := run (fp2 o (fun _ a b => a.mul b))
/-- FMA, rounded once. -/
def execFma (o : FmaOp) : State → Host.Outcome State Fault Refusal :=
  run (issueS false o.g { xs := [o.a, o.b, o.c], xd := some o.d } (fun i =>
    let r := i.t.rmScalar o.rs
    i.fresult o.d (roundTo o.t r ((fval o.t i.a).fma r (fval o.t i.b) (fval o.t i.c)))))
/-- FDIV. -/
def execFdiv (o : FRRR) : State → Host.Outcome State Fault Refusal := run (fp2 o (fun _ a b => a.div b))
/-- FSQRT. -/
def execFsqrt (o : FRR) : State → Host.Outcome State Fault Refusal :=
  run (issueS false o.g { xs := [o.a], xd := some o.d } (fun i =>
    i.fresult o.d (roundTo o.t (i.t.rmScalar o.rs) (fval o.t i.a).sqrt)))

/-- FMIN and FMAX. -/
def fpMinMax (o : FMinOp) (isMax : Bool) : Nat → Memory → Dev → Res :=
  issueS false o.g { xs := [o.a, o.b], xd := some o.d } (fun i =>
    i.fresult o.d ((Fp.ofType o.t).minmax isMax (i.a.toNat % 2 ^ o.t.bits) (i.b.toNat % 2 ^ o.t.bits)))
/-- FMIN. -/
def execFmin (o : FMinOp) : State → Host.Outcome State Fault Refusal := run (fpMinMax o false)
/-- FMAX. -/
def execFmax (o : FMinOp) : State → Host.Outcome State Fault Refusal := run (fpMinMax o true)

/-- FCMP (R72). -/
def execFcmp (o : FCmpOp) : State → Host.Outcome State Fault Refusal :=
  run (issueS false o.g { xs := [o.a, o.b], kd := [kpLo o.kd, kpHi o.kd] } (fun i =>
    let p := fcmp o.cc (fval o.t i.a) (fval o.t i.b)
    .ok ((i.dev.regs i.tid (·.wpair o.kd p.1)).raiseFlags i.tid i.core p.2) []))

/-- The floating-point type of a conversion code; f32 for the integer codes. -/
def cvtFp : CvtTy → FType
  | .f16 => .f16 | .bf16 => .bf16 | .f64 => .f64 | _ => .f32

/-- The source of a conversion as a value (R73). -/
def cvtSource (st : CvtTy) (x : Word) : FVal :=
  match st with
  | .s32 => .ofInt (x.setWidth 32).toInt
  | .n32 => .ofInt (x.setWidth 32).toNat
  | .s64 => .ofInt x.toInt
  | .n64 => .ofInt x.toNat
  | st => fval (cvtFp st) x

/-- FCVT's result (R73): integers saturate and are written whole, sign- or zero-extended. -/
def fcvt (dt st : CvtTy) (r : RM) (x : Word) : Word × Flags :=
  let v := cvtSource st x
  let int (lo hi : Int) : Word × Flags := let p := v.toInt r lo hi; (BitVec.ofInt 64 p.1, p.2)
  match dt with
  | .s32 => int (-2 ^ 31) (2 ^ 31 - 1)
  | .n32 => int 0 (2 ^ 32 - 1)
  | .s64 => int (-2 ^ 63) (2 ^ 63 - 1)
  | .n64 => int 0 (2 ^ 64 - 1)
  | dt => let p := roundTo (cvtFp dt) r (v, sigNV [v]); (wd64 p.1, p.2)

/-- FCVT. -/
def execFcvt (o : FCvtOp) : State → Host.Outcome State Fault Refusal :=
  run (issueS false o.g { xs := [o.a], xd := some o.d } (fun i =>
    let p := fcvt o.dt o.st (i.t.rmScalar o.rs) i.a
    .ok ((i.dev.putX i.tid o.d p.1).raiseFlags i.tid i.core p.2) []))

/-- FCLASS (R74). -/
def execFclass (o : FClassOp) : State → Host.Outcome State Fault Refusal :=
  run (issueS false o.g { xs := [o.a], xd := some o.d } (fun i =>
    i.result o.d (wd64 ((Fp.ofType o.t).cls (i.a.toNat % 2 ^ o.t.bits)))))

/-- FMODE (R75): xd takes the old mode; xa from 1 to 6 sets it. -/
def execFmode (o : RR) : State → Host.Outcome State Fault Refusal :=
  run (issueS false o.g { xs := [o.a], xd := some o.d } (fun i =>
    if 6 < i.a.toNat then .trap Cause.operandRange none
    else
      let d := i.dev.putX i.tid o.d (i.t.fmode.setWidth 64)
      .ok (if i.a = 0 then d else d.updThr i.tid (fun t => { t with fmode := i.a.setWidth 3 })) []))

/-- FFLAGS (R76): xd takes the old flags; those set in xa[4:0] clear. -/
def execFflags (o : RR) : State → Host.Outcome State Fault Refusal :=
  run (issueS false o.g { xs := [o.a], xd := some o.d } (fun i =>
    .ok ((i.dev.putX i.tid o.d (i.t.fflags.setWidth 64)).updThr i.tid
      (fun t => { t with fflags := t.fflags &&& ~~~(i.a.setWidth 5) })) []))

end Sys2Proof.Machine
end

