-- ==== Sys2Proof/Machine/Startup.lean ====
section
/-!
DEFINITION. Reset, start-up, attestation and the gating of clusters (spec 18 R366, R373 to R375).
-/
namespace Sys2Proof.Machine
open Sys2Proof

/-! ### Module reset (R366, Table 18-5) -/

/-- Memory that a module reset leaves: everything but the module's own registers, niches and galleries. -/
def Memory.keptByReset (m : Memory) : Memory :=
  ⟨m.cells.filter (fun c => decide (keyAp c.1 < 0x1000) && !(decide (keyAp c.1 = 0) && (isStatus (keyPhys c.1) || isIo (keyPhys c.1))))⟩

/-- What the host holds of the device's lines comes home. -/
def Dev.hostHome (d : Dev) : List (Nat × Byte) := d.perms.flatMap Perm.dirty

/-- The units after a module reset: all as after reset, but for the module's number, what the fabric's links
and the host have seen, what the DRAM holds beside its bytes, the fused version, and the model's own counter. -/
def Dev.resetFrom (d : Dev) : Dev :=
  { Dev.reset with
    modNo := d.modNo
    members := [d.modNo]
    boot := { Boot.reset with version := d.boot.version }
    tags := d.tags
    poison := d.poison
    badSectors := d.badSectors
    vectors := d.vectors
    hostRead := d.hostRead
    fresh := d.fresh }

/-- MODULE_RESET: modified host lines are written back and the host's copies recalled; then everything takes
its reset value, and the counter counts from 0 (R15). -/
def execModuleReset (s : State) : Host.Outcome State Fault Refusal :=
  .next { s with
    drip := 0
    mem := (s.mem.writeAll s.dev.hostHome).keptByReset
    dev := s.dev.resetFrom }

/-! ### Start-up (R373, R375) -/

/-- A boot mask gives every compute die between 1 and 32 service cores. -/
def maskOk (m : List Nat) : Bool :=
  m.all (· < 2048) && (List.range 4).all (fun die =>
    let n := ((m.filter (fun c => coreDie c == die)).eraseDups).length
    1 ≤ n && n ≤ 32)

/-- A service core starts: its sixteen slots at the firmware's entry, in supervisor mode and in context 0. -/
def Dev.startService (d : Dev) (drip : Nat) (entry : Word) (core : Nat) : Dev :=
  let b := d.nextBlk
  let tids := (List.range 16).map (d.nextTid + ·)
  let t : Thread := { Thread.entry entry 0 0 (mkStatus 0 0 true true) 0 0 0 with blk := b }
  { d with
    nextTid := d.nextTid + 16
    nextBlk := b + 1
    threads := d.threads ++ tids.zipIdx.map (fun p => (p.1, { t with
      place := .slot core p.2
      slotcfg := wd64 (p.2 * 2 ^ 28)
      cidx := p.2 }))
    blocks := put b { Block.single b d.nextTid core 0 0 0 0 with
      crews := [⟨core, 0, tids, [], [], 0, 65536, List.range 16⟩]
      slots := 16
      admitted := drip } d.blocks
    started := true }

/-- BOOT_STAGE: the running stage checks the next one's image, which is none older than the fused version, and the
third also reads the boot mask. A failed
check holds the module in reset and reports the stage. When the last stage runs, the module leaves reset and
its service cores start. -/
def execBootStage (o : BootOp) : State → Host.Outcome State Fault Refusal :=
  run (fun drip _ d =>
    let b := d.boot
    if !d.inReset ∨ b.failed.isSome ∨ 4 ≤ b.stage then .eff d []
    else if !o.ok ∨ o.version < b.version ∨ (b.stage = 3 ∧ !maskOk o.mask) then
      .eff { d with boot := { b with failed := some b.stage } } []
    else
      let b : Boot := { b with
        stage := b.stage + 1
        digests := b.digests ++ [o.digest]
        mask := if b.stage = 3 then o.mask.eraseDups else b.mask
        entry := if b.stage = 2 then o.entry else b.entry }
      let d : Dev := { d with boot := b }
      if b.stage < 4 then .eff d []
      else .eff (b.mask.foldl (fun d c => d.startService drip b.entry c) { d with inReset := false }) [])

/-- SERVICE_CONTEXT_CREATION (R374): context 0, whose lease the lantern renews for as long as the module runs,
and the root capability. -/
def execServiceContextCreation : State → Host.Outcome State Fault Refusal :=
  run (fun drip _ d =>
    if d.inReset ∨ d.boot.service then .eff d []
    else
      let d : Dev := { d with boot := { d.boot with service := true } }
      let p := d.grantLease drip d.lantern .context (some 0) 0 0 (2 ^ 64 - 1) none (.context 0 0)
      let q := p.1.grantLease drip d.lantern .cap (some 0) 0 0 (drip + Config.longest) none (.cap 0x01FE)
      .eff { q.1 with rootcap := q.2.getD 0 } [])

/-- The number that stands for an attestation report's contents: digests, mask, version and nonce. -/
def Boot.contents (b : Boot) (nonce : Nat) : Nat :=
  (b.digests ++ b.mask ++ [b.version, nonce]).foldl (fun n x => n * 2 ^ 512 + x) 0

/-- ATTESTATION (R375): a report is signed and given. -/
def execAttestation (nonce : Nat) : State → Host.Outcome State Fault Refusal :=
  run (fun _ _ d => .eff { d with boot := { d.boot with
    reports := (nonce, Config.signature (d.boot.contents nonce)) :: d.boot.reports } } [])

/-! ### Gating (R366) -/

/-- A cluster has nothing to do: no block, no stored image, no command, no grant, and empty store buffers. -/
def Dev.idleCluster (d : Dev) (clus : Nat) : Bool :=
  let c := d.clus clus
  let cores := (List.range 16).map (clusCore clus)
  !d.blocks.any (fun p => (p.2.st != .swapped && p.2.crews.any (fun k => cores.contains k.core)) || p.2.stow.any (fun k => cores.contains k.1))
  && c.array.fifo.isEmpty && c.array.grant.all (fun g => !g.live) && c.eng0.cmds.isEmpty && c.eng1.cmds.isEmpty
  && cores.all (fun k => (d.core k).sb.isEmpty)

/-- CLUSTER_GATING: its L1 copies are dropped, and it is gated. An admission restores it. -/
def execClusterGating (clus : Nat) : State → Host.Outcome State Fault Refusal :=
  run (fun _ _ d =>
    if 128 ≤ clus ∨ (d.clus clus).gated ∨ !d.idleCluster clus then .eff d []
    else
      let d := ((List.range 16).map (clusCore clus)).foldl (fun (d : Dev) k =>
        if (d.core k).l1 = [] then d else d.setCore k { d.core k with l1 := [] }) d
      .eff (d.setClus clus { d.clus clus with gated := true }) [])

end Sys2Proof.Machine
end

