-- ==== Sys2Proof/Machine/Dispatch.lean ====
section
/-!
DEFINITION. Which meaning each instruction has: one arm per constructor.
-/
namespace Sys2Proof.Machine
open Sys2Proof

def exec (i : Instr) (s : State) : Host.Outcome State Fault Refusal :=
  match i with
  | .nop => Sys2Proof.Machine.execNop s
  | .nopGuarded o => Sys2Proof.Machine.execNopGuarded o s
  | .exit => Sys2Proof.Machine.execExit s
  | .exitGuarded o => Sys2Proof.Machine.execExitGuarded o s
  | .ret => Sys2Proof.Machine.execRet s
  | .retGuarded o => Sys2Proof.Machine.execRetGuarded o s
  | .cbar => Sys2Proof.Machine.execCbar s
  | .cbarGuarded o => Sys2Proof.Machine.execCbarGuarded o s
  | .tret => Sys2Proof.Machine.execTret s
  | .tretGuarded o => Sys2Proof.Machine.execTretGuarded o s
  | .halt => Sys2Proof.Machine.execHalt s
  | .haltGuarded o => Sys2Proof.Machine.execHaltGuarded o s
  | .add o => Sys2Proof.Machine.execAdd o s
  | .sub o => Sys2Proof.Machine.execSub o s
  | .and o => Sys2Proof.Machine.execAnd o s
  | .or o => Sys2Proof.Machine.execOr o s
  | .xor o => Sys2Proof.Machine.execXor o s
  | .andn o => Sys2Proof.Machine.execAndn o s
  | .shl o => Sys2Proof.Machine.execShl o s
  | .shr o => Sys2Proof.Machine.execShr o s
  | .sra o => Sys2Proof.Machine.execSra o s
  | .rot o => Sys2Proof.Machine.execRot o s
  | .min o => Sys2Proof.Machine.execMin o s
  | .max o => Sys2Proof.Machine.execMax o s
  | .minu o => Sys2Proof.Machine.execMinu o s
  | .maxu o => Sys2Proof.Machine.execMaxu o s
  | .lea o => Sys2Proof.Machine.execLea o s
  | .sel o => Sys2Proof.Machine.execSel o s
  | .mul o => Sys2Proof.Machine.execMul o s
  | .mulh o => Sys2Proof.Machine.execMulh o s
  | .mulhu o => Sys2Proof.Machine.execMulhu o s
  | .div o => Sys2Proof.Machine.execDiv o s
  | .divu o => Sys2Proof.Machine.execDivu o s
  | .rem o => Sys2Proof.Machine.execRem o s
  | .remu o => Sys2Proof.Machine.execRemu o s
  | .clz o => Sys2Proof.Machine.execClz o s
  | .ctz o => Sys2Proof.Machine.execCtz o s
  | .popc o => Sys2Proof.Machine.execPopc o s
  | .sext o => Sys2Proof.Machine.execSext o s
  | .mov o => Sys2Proof.Machine.execMov o s
  | .ext o => Sys2Proof.Machine.execExt o s
  | .ins o => Sys2Proof.Machine.execIns o s
  | .addi o => Sys2Proof.Machine.execAddi o s
  | .shlImm o => Sys2Proof.Machine.execShlImm o s
  | .shrImm o => Sys2Proof.Machine.execShrImm o s
  | .sraImm o => Sys2Proof.Machine.execSraImm o s
  | .rotImm o => Sys2Proof.Machine.execRotImm o s
  | .li o => Sys2Proof.Machine.execLi o s
  | .lih o => Sys2Proof.Machine.execLih o s
  | .cmp o => Sys2Proof.Machine.execCmp o s
  | .cmpi o => Sys2Proof.Machine.execCmpi o s
  | .pand o => Sys2Proof.Machine.execPand o s
  | .por o => Sys2Proof.Machine.execPor o s
  | .pxor o => Sys2Proof.Machine.execPxor o s
  | .pnot o => Sys2Proof.Machine.execPnot o s
  | .pmov o => Sys2Proof.Machine.execPmov o s
  | .pany o => Sys2Proof.Machine.execPany o s
  | .fadd o => Sys2Proof.Machine.execFadd o s
  | .fsub o => Sys2Proof.Machine.execFsub o s
  | .fmul o => Sys2Proof.Machine.execFmul o s
  | .fma o => Sys2Proof.Machine.execFma o s
  | .fdiv o => Sys2Proof.Machine.execFdiv o s
  | .fsqrt o => Sys2Proof.Machine.execFsqrt o s
  | .fmin o => Sys2Proof.Machine.execFmin o s
  | .fmax o => Sys2Proof.Machine.execFmax o s
  | .fcmp o => Sys2Proof.Machine.execFcmp o s
  | .fcvt o => Sys2Proof.Machine.execFcvt o s
  | .fclass o => Sys2Proof.Machine.execFclass o s
  | .fmode o => Sys2Proof.Machine.execFmode o s
  | .fflags o => Sys2Proof.Machine.execFflags o s
  | .ld o => Sys2Proof.Machine.execLd o s
  | .st o => Sys2Proof.Machine.execSt o s
  | .ldaq o => Sys2Proof.Machine.execLdaq o s
  | .strl o => Sys2Proof.Machine.execStrl o s
  | .vld o => Sys2Proof.Machine.execVld o s
  | .vlds o => Sys2Proof.Machine.execVlds o s
  | .vgth o => Sys2Proof.Machine.execVgth o s
  | .vst o => Sys2Proof.Machine.execVst o s
  | .vsct o => Sys2Proof.Machine.execVsct o s
  | .atom o => Sys2Proof.Machine.execAtom o s
  | .atomx o => Sys2Proof.Machine.execAtomx o s
  | .rdt o => Sys2Proof.Machine.execRdt o s
  | .rdid o => Sys2Proof.Machine.execRdid o s
  | .doze o => Sys2Proof.Machine.execDoze o s
  | .qstat o => Sys2Proof.Machine.execQstat o s
  | .wait o => Sys2Proof.Machine.execWait o s
  | .fence o => Sys2Proof.Machine.execFence o s
  | .fenceGuarded o => Sys2Proof.Machine.execFenceGuarded o s
  | .pref o => Sys2Proof.Machine.execPref o s
  | .br o => Sys2Proof.Machine.execBr o s
  | .call o => Sys2Proof.Machine.execCall o s
  | .loop o => Sys2Proof.Machine.execLoop o s
  | .jmp o => Sys2Proof.Machine.execJmp o s
  | .jr o => Sys2Proof.Machine.execJr o s
  | .lrenew o => Sys2Proof.Machine.execLrenew o s
  | .llife o => Sys2Proof.Machine.execLlife o s
  | .ltether o => Sys2Proof.Machine.execLtether o s
  | .linfo o => Sys2Proof.Machine.execLinfo o s
  | .lock o => Sys2Proof.Machine.execLock o s
  | .lheld o => Sys2Proof.Machine.execLheld o s
  | .binit o => Sys2Proof.Machine.execBinit o s
  | .barv o => Sys2Proof.Machine.execBarv o s
  | .badd o => Sys2Proof.Machine.execBadd o s
  | .bwait o => Sys2Proof.Machine.execBwait o s
  | .popen o => Sys2Proof.Machine.execPopen o s
  | .psend o => Sys2Proof.Machine.execPsend o s
  | .gate o => Sys2Proof.Machine.execGate o s
  | .alloc o => Sys2Proof.Machine.execAlloc o s
  | .jrnl o => Sys2Proof.Machine.execJrnl o s
  | .jack o => Sys2Proof.Machine.execJack o s
  | .bopen o => Sys2Proof.Machine.execBopen o s
  | .bst o => Sys2Proof.Machine.execBst o s
  | .bstVector o => Sys2Proof.Machine.execBstVector o s
  | .bseal o => Sys2Proof.Machine.execBseal o s
  | .bview o => Sys2Proof.Machine.execBview o s
  | .bld o => Sys2Proof.Machine.execBld o s
  | .bchk o => Sys2Proof.Machine.execBchk o s
  | .mcsld o => Sys2Proof.Machine.execMcsld o s
  | .mcsst o => Sys2Proof.Machine.execMcsst o s
  | .mcsstCommit o => Sys2Proof.Machine.execMcsstCommit o s
  | .tagst o => Sys2Proof.Machine.execTagst o s
  | .tagld o => Sys2Proof.Machine.execTagld o s
  | .launch o => Sys2Proof.Machine.execLaunch o s
  | .point o => Sys2Proof.Machine.execPoint o s
  | .done o => Sys2Proof.Machine.execDone o s
  | .frrd o => Sys2Proof.Machine.execFrrd o s
  | .amsg o => Sys2Proof.Machine.execAmsg o s
  | .trap o => Sys2Proof.Machine.execTrap o s
  | .srd o => Sys2Proof.Machine.execSrd o s
  | .swr o => Sys2Proof.Machine.execSwr o s
  | .pstop o => Sys2Proof.Machine.execPstop o s
  | .pgo o => Sys2Proof.Machine.execPgo o s
  | .tlbi o => Sys2Proof.Machine.execTlbi o s
  | .wakeRec o => Sys2Proof.Machine.execWakeRec o s
  | .wakeFail o => Sys2Proof.Machine.execWakeFail o s
  | .wakeSlot o => Sys2Proof.Machine.execWakeSlot o s
  | .wakeStop o => Sys2Proof.Machine.execWakeStop o s
  | .ctxsv o => Sys2Proof.Machine.execCtxsv o s
  | .ctxld o => Sys2Proof.Machine.execCtxld o s
  | .vadd o => Sys2Proof.Machine.execVadd o s
  | .vsub o => Sys2Proof.Machine.execVsub o s
  | .vmul o => Sys2Proof.Machine.execVmul o s
  | .vfma o => Sys2Proof.Machine.execVfma o s
  | .vfms o => Sys2Proof.Machine.execVfms o s
  | .vmin o => Sys2Proof.Machine.execVmin o s
  | .vmax o => Sys2Proof.Machine.execVmax o s
  | .vabs o => Sys2Proof.Machine.execVabs o s
  | .vneg o => Sys2Proof.Machine.execVneg o s
  | .vdiv o => Sys2Proof.Machine.execVdiv o s
  | .vsqrt o => Sys2Proof.Machine.execVsqrt o s
  | .vrsqrt o => Sys2Proof.Machine.execVrsqrt o s
  | .vrcp o => Sys2Proof.Machine.execVrcp o s
  | .vexp2 o => Sys2Proof.Machine.execVexp2 o s
  | .vlog2 o => Sys2Proof.Machine.execVlog2 o s
  | .vcvt o => Sys2Proof.Machine.execVcvt o s
  | .vqnt o => Sys2Proof.Machine.execVqnt o s
  | .vdqnt o => Sys2Proof.Machine.execVdqnt o s
  | .vwmul o => Sys2Proof.Machine.execVwmul o s
  | .vwadd o => Sys2Proof.Machine.execVwadd o s
  | .vdot4 o => Sys2Proof.Machine.execVdot4 o s
  | .vreds o => Sys2Proof.Machine.execVreds o s
  | .vredm o => Sys2Proof.Machine.execVredm o s
  | .vscan o => Sys2Proof.Machine.execVscan o s
  | .vcmp o => Sys2Proof.Machine.execVcmp o s
  | .vsel o => Sys2Proof.Machine.execVsel o s
  | .vand o => Sys2Proof.Machine.execVand o s
  | .vor o => Sys2Proof.Machine.execVor o s
  | .vxor o => Sys2Proof.Machine.execVxor o s
  | .vnot o => Sys2Proof.Machine.execVnot o s
  | .vshl o => Sys2Proof.Machine.execVshl o s
  | .vshr o => Sys2Proof.Machine.execVshr o s
  | .vsra o => Sys2Proof.Machine.execVsra o s
  | .viota o => Sys2Proof.Machine.execViota o s
  | .vbcast o => Sys2Proof.Machine.execVbcast o s
  | .vslide o => Sys2Proof.Machine.execVslide o s
  | .vperm o => Sys2Proof.Machine.execVperm o s
  | .vzip o => Sys2Proof.Machine.execVzip o s
  | .vunzip o => Sys2Proof.Machine.execVunzip o s
  | .vmovsGet o => Sys2Proof.Machine.execVmovsGet o s
  | .vmovsPut o => Sys2Proof.Machine.execVmovsPut o s
  | .vtag o => Sys2Proof.Machine.execVtag o s
  | .vclass o => Sys2Proof.Machine.execVclass o s
  | .vrand o => Sys2Proof.Machine.execVrand o s
  | .mlease o => Sys2Proof.Machine.execMlease o s
  | .mlay o => Sys2Proof.Machine.execMlay o s
  | .mzero o => Sys2Proof.Machine.execMzero o s
  | .mma o => Sys2Proof.Machine.execMma o s
  | .mdrain o => Sys2Proof.Machine.execMdrain o s
  | .mstat o => Sys2Proof.Machine.execMstat o s
  | .cxfer o => Sys2Proof.Machine.execCxfer o s
  | .cxferPack o => Sys2Proof.Machine.execCxferPack o s
  | .cxferFpack o => Sys2Proof.Machine.execCxferFpack o s
  | .cfeed o => Sys2Proof.Machine.execCfeed o s
  | .cpop o => Sys2Proof.Machine.execCpop o s
  | .cstat o => Sys2Proof.Machine.execCstat o s
  | .loadDataArrival m => Sys2Proof.Machine.execLoadDataArrival m s
  | .replyArrival m => Sys2Proof.Machine.execReplyArrival m s
  | .errorReply m => Sys2Proof.Machine.execErrorReply m s
  | .acknowledgement m => Sys2Proof.Machine.execAcknowledgement m s
  | .refusalAcknowledgement m => Sys2Proof.Machine.execRefusalAcknowledgement m s
  | .storeBufferDrain core => Sys2Proof.Machine.execStoreBufferDrain core s
  | .commitPoint m => Sys2Proof.Machine.execCommitPoint m s
  | .loadService m => Sys2Proof.Machine.execLoadService m s
  | .storePerform m => Sys2Proof.Machine.execStorePerform m s
  | .atomicService m => Sys2Proof.Machine.execAtomicService m s
  | .atomxService m => Sys2Proof.Machine.execAtomxService m s
  | .readLeaseExpiry core line => Sys2Proof.Machine.execReadLeaseExpiry core line s
  | .codeFetchArrival m => Sys2Proof.Machine.execCodeFetchArrival m s
  | .writeLeaseLapse line => Sys2Proof.Machine.execWriteLeaseLapse line s
  | .permissionLeaseRenewal line => Sys2Proof.Machine.execPermissionLeaseRenewal line s
  | .writeBackRequest line => Sys2Proof.Machine.execWriteBackRequest line s
  | .guardCopyUpdate m => Sys2Proof.Machine.execGuardCopyUpdate m s
  | .rootConsultation m => Sys2Proof.Machine.execRootConsultation m s
  | .consultationAnswer m => Sys2Proof.Machine.execConsultationAnswer m s
  | .leaseExpiry agent index => Sys2Proof.Machine.execLeaseExpiry agent index s
  | .lockDeadline m => Sys2Proof.Machine.execLockDeadline m s
  | .renewalArrival m => Sys2Proof.Machine.execRenewalArrival m s
  | .lifeInquiryArrival m => Sys2Proof.Machine.execLifeInquiryArrival m s
  | .tetherArrival m => Sys2Proof.Machine.execTetherArrival m s
  | .infoArrival m => Sys2Proof.Machine.execInfoArrival m s
  | .lockRequestArrival m => Sys2Proof.Machine.execLockRequestArrival m s
  | .lockInquiryArrival m => Sys2Proof.Machine.execLockInquiryArrival m s
  | .barrierGrant m => Sys2Proof.Machine.execBarrierGrant m s
  | .barrierArrival m => Sys2Proof.Machine.execBarrierArrival m s
  | .byteAddArrival m => Sys2Proof.Machine.execByteAddArrival m s
  | .barrierWaitArrival m => Sys2Proof.Machine.execBarrierWaitArrival m s
  | .exitNotice m => Sys2Proof.Machine.execExitNotice m s
  | .beat core agent index => Sys2Proof.Machine.execBeat core agent index s
  | .pathGrant m => Sys2Proof.Machine.execPathGrant m s
  | .pathWordArrival m => Sys2Proof.Machine.execPathWordArrival m s
  | .exact m => Sys2Proof.Machine.execExact m s
  | .heat m => Sys2Proof.Machine.execHeat m s
  | .log m => Sys2Proof.Machine.execLog m s
  | .root m => Sys2Proof.Machine.execRoot m s
  | .time m => Sys2Proof.Machine.execTime m s
  | .tenant m => Sys2Proof.Machine.execTenant m s
  | .context m => Sys2Proof.Machine.execContext m s
  | .grant m => Sys2Proof.Machine.execGrant m s
  | .allocRequestArrival m => Sys2Proof.Machine.execAllocRequestArrival m s
  | .allocGrant m => Sys2Proof.Machine.execAllocGrant m s
  | .allocDeadline m => Sys2Proof.Machine.execAllocDeadline m s
  | .bundleOpenArrival m => Sys2Proof.Machine.execBundleOpenArrival m s
  | .bundleStoreArrival m => Sys2Proof.Machine.execBundleStoreArrival m s
  | .join m => Sys2Proof.Machine.execJoin m s
  | .doom m => Sys2Proof.Machine.execDoom m s
  | .sealArrival m => Sys2Proof.Machine.execSealArrival m s
  | .sealNotice m => Sys2Proof.Machine.execSealNotice m s
  | .companionCheckArrival m => Sys2Proof.Machine.execCompanionCheckArrival m s
  | .companionReport m => Sys2Proof.Machine.execCompanionReport m s
  | .mcsDecision m => Sys2Proof.Machine.execMcsDecision m s
  | .queueDeadlock core blk => Sys2Proof.Machine.execQueueDeadlock core blk s
  | .dozeExpiry tid => Sys2Proof.Machine.execDozeExpiry tid s
  | .wakeMessage m => Sys2Proof.Machine.execWakeMessage m s
  | .walkEnd w => Sys2Proof.Machine.execWalkEnd w s
  | .faultRecordWrite die => Sys2Proof.Machine.execFaultRecordWrite die s
  | .swapDecision blk => Sys2Proof.Machine.execSwapDecision blk s
  | .swapSave blk => Sys2Proof.Machine.execSwapSave blk s
  | .blockAdmission clus => Sys2Proof.Machine.execBlockAdmission clus s
  | .priorityAging launch => Sys2Proof.Machine.execPriorityAging launch s
  | .doneArrival m => Sys2Proof.Machine.execDoneArrival m s
  | .launchArrival m => Sys2Proof.Machine.execLaunchArrival m s
  | .afterRelease launch => Sys2Proof.Machine.execAfterRelease launch s
  | .pointQueryArrival m => Sys2Proof.Machine.execPointQueryArrival m s
  | .frontierReadArrival m => Sys2Proof.Machine.execFrontierReadArrival m s
  | .amsgArrival m => Sys2Proof.Machine.execAmsgArrival m s
  | .leaveRequest m => Sys2Proof.Machine.execLeaveRequest m s
  | .leaveGrant => Sys2Proof.Machine.execLeaveGrant s
  | .suspendMessage m => Sys2Proof.Machine.execSuspendMessage m s
  | .preemptionStop tenant => Sys2Proof.Machine.execPreemptionStop tenant s
  | .resumption tenant => Sys2Proof.Machine.execResumption tenant s
  | .containment core cause addr => Sys2Proof.Machine.execContainment core cause addr s
  | .rectangleReturn n => Sys2Proof.Machine.execRectangleReturn n s
  | .arrayRequestArrival m => Sys2Proof.Machine.execArrayRequestArrival m s
  | .arrayGrant clus => Sys2Proof.Machine.execArrayGrant clus s
  | .commandAccept m => Sys2Proof.Machine.execCommandAccept m s
  | .commandRetire clus => Sys2Proof.Machine.execCommandRetire clus s
  | .streamUnitLand clus eng => Sys2Proof.Machine.execStreamUnitLand clus eng s
  | .giveUp clus => Sys2Proof.Machine.execGiveUp clus s
  | .report m => Sys2Proof.Machine.execReport m s
  | .engineAccept m => Sys2Proof.Machine.execEngineAccept m s
  | .engineCompletion clus eng => Sys2Proof.Machine.execEngineCompletion clus eng s
  | .promiseMissed clus eng => Sys2Proof.Machine.execPromiseMissed clus eng s
  | .arm addr => Sys2Proof.Machine.execArm addr s
  | .keepalive addr => Sys2Proof.Machine.execKeepalive addr s
  | .collectiveRequest o => Sys2Proof.Machine.execCollectiveRequest o s
  | .memberFailure module => Sys2Proof.Machine.execMemberFailure module s
  | .linkFailure module => Sys2Proof.Machine.execLinkFailure module s
  | .moduleFailed module => Sys2Proof.Machine.execModuleFailed module s
  | .agentRejoin agent => Sys2Proof.Machine.execAgentRejoin agent s
  | .timeSync module offset => Sys2Proof.Machine.execTimeSync module offset s
  | .domainJoin o => Sys2Proof.Machine.execDomainJoin o s
  | .prq addr => Sys2Proof.Machine.execPrq addr s
  | .pageResponse tag ok => Sys2Proof.Machine.execPageResponse tag ok s
  | .hostAccess o => Sys2Proof.Machine.execHostAccess o s
  | .backInvalidate line => Sys2Proof.Machine.execBackInvalidate line s
  | .hostSnoop o => Sys2Proof.Machine.execHostSnoop o s
  | .moduleReset => Sys2Proof.Machine.execModuleReset s
  | .bootStage o => Sys2Proof.Machine.execBootStage o s
  | .serviceContextCreation => Sys2Proof.Machine.execServiceContextCreation s
  | .attestation nonce => Sys2Proof.Machine.execAttestation nonce s
  | .agentFailure agent => Sys2Proof.Machine.execAgentFailure agent s
  | .bundleConsultation m => Sys2Proof.Machine.execBundleConsultation m s
  | .enginePiece clus eng => Sys2Proof.Machine.execEnginePiece clus eng s
  | .softError o => Sys2Proof.Machine.execSoftError o s
  | .clusterGating clus => Sys2Proof.Machine.execClusterGating clus s

end Sys2Proof.Machine
end

