-- ==== Sys2Proof/Machine/Issue.lean ====
section
/-!
DEFINITION. Which slot issues and what (spec 02 R19 to R24; 03 R38 to R45): readiness, the selector, the
fetch of a head, bundles, and the traps taken before an issue.
-/
namespace Sys2Proof.Machine
open Sys2Proof

/-- The scalar register a head names as its destination (R45). -/
def xDest : Instr → Option Reg
  | .add o | .sub o | .and o | .or o | .xor o | .andn o | .shl o | .shr o | .sra o | .rot o | .min o
  | .max o | .minu o | .maxu o | .mul o | .mulh o | .mulhu o | .div o | .divu o | .rem o | .remu o =>
    some o.d
  | .lea o => some o.d | .sel o => some o.d
  | .clz o | .ctz o | .popc o => some o.d
  | .sext o => some o.d
  | .mov o | .fmode o | .fflags o | .llife o | .lheld o | .alloc o | .bseal o | .bview o | .mcsld o
  | .tagld o | .launch o | .wakeRec o | .wakeFail o | .wakeSlot o | .wakeStop o => some o.d
  | .ext o => some o.d | .ins o => some o.d | .addi o => some o.d
  | .shlImm o | .shrImm o | .sraImm o | .rotImm o => some o.d
  | .li o => some o.d | .lih o => some o.d
  | .fadd o | .fsub o | .fmul o | .fdiv o => some o.d
  | .fma o => some o.d | .fsqrt o => some o.d
  | .fmin o | .fmax o => some o.d
  | .fcvt o => some o.d | .fclass o => some o.d
  | .ld o => some o.d | .ldaq o => some o.d | .atom o => some o.d
  | .rdt o => some o.d | .rdid o => some o.d | .qstat o => some o.d
  | .call _ => some 31
  | .loop o => some o.a
  | .jmp o => some o.d
  | .lrenew o | .binit o => some o.d
  | .ltether o | .popen o | .mcsstCommit o | .point o => some o.d
  | .linfo o => some o.d | .lock o => some o.d | .barv o => some o.d | .badd o => some o.d
  | .bwait o => some o.d
  | .gate o | .amsg o => some o.d
  | .jrnl o => some o.d
  | .bopen o | .bchk o | .frrd o => some o.d
  | .bld o => some o.d
  | .srd o => some o.d | .tlbi o => some o.d
  | .ctxsv o | .ctxld o => some o.d
  | .vmovsGet o => some o.d
  | .mlease o => some o.d | .mstat o => some o.d
  | .cpop o | .cstat o => some o.d
  | _ => none

/-- The predicates a head names as destinations. -/
def kDest : Instr → List Nat
  | .cmp o => [2 * o.kd.val, 2 * o.kd.val + 1]
  | .cmpi o => [2 * o.kd.val, 2 * o.kd.val + 1]
  | .fcmp o => [2 * o.kd.val, 2 * o.kd.val + 1]
  | .vcmp o => [2 * o.kd.val, 2 * o.kd.val + 1]
  | .bld o => [2 * o.kp.val, 2 * o.kp.val + 1]
  | .pand o | .por o | .pxor o => [o.d.val]
  | .pnot o | .pmov o | .pany o => [o.d.val]
  | _ => []

/-- Both heads name one x or k register as a destination. -/
def clash (a b : Instr) : Bool :=
  (match xDest a, xDest b with
    | some r, some q => r == q
    | _, _ => false)
  || (kDest a).any (fun k => (kDest b).contains k)

/-- A head that decodes and is well formed. -/
def headOf (l k : Nat) : Option Instr :=
  if headOk l k then
    match decode (lineHead l k) (lineTail l k) with
    | .ok i => if i.wf && i.isHead then some i else none
    | .error _ => none
  else none

/-- The pair bit of head k. -/
def headPair (l k : Nat) : Bool := fld (lineHead l k) 13 1 == 1

/-- Address of the head after head k in sequence (R43). -/
def nextPc (pc : Word) (n k : Nat) : Word :=
  if k < n then pc + 2 else (pc &&& ~~~(63 : Word)) + 66

/-- An access of more pieces than the core holds entries or miss registers for goes in passes, and the slot
waits for the last of them (R287). -/
def Dev.inPasses (d : Dev) (core tid : Nat) : Bool :=
  ((d.core core).sb.drop 64).any (fun a => a.src.tid == tid)
  || 48 < (d.msgs.filter (fun m => match m.kind with
      | .acc a => a.src.tid == tid && a.op.isLoad && !a.st.isL1
      | _ => false)).length

/-- A slot is in no waiting state of Table 2-6: a DOZE ends in the drip its stamp names (R20). -/
def Wst.awake (w : Wst) (drip : Nat) : Bool :=
  match w with
  | .ready => true
  | .doze s => s.toNat ≤ drip
  | _ => false

/-- The conditions of Table 2-6 that do not depend on the next head. The gap is the slot's, whatever thread it
holds (R23). -/
def Dev.slotReady (d : Dev) (drip tid : Nat) (t : Thread) : Bool :=
  !d.inReset && t.wst.awake drip
  && !t.stopped && !t.preempted && !t.exited && t.notBefore ≤ drip
  && (match t.place with
    | .slot c k => !d.fencedCore c && !d.inPasses c tid && look 0 k (d.core c).gaps ≤ drip
    | .saved => false)
  && (match d.blk t.blk with
    | some b => b.st == .running && !(b.ctx != 0 && d.halted drip b.tenant)
    | none => true)

/-- What trying to issue from a slot comes to: nothing issued, with what was asked for meanwhile and
whether only a queue kept it, or an outcome. -/
inductive Try where
  | no (d : Dev) (queue : Bool)
  | out (o : Host.Outcome State Fault Refusal)

/-- Begin a head. -/
def Dev.begin (d : Dev) (tid : Nat) (head next : Word) (old : Option Thread) (second : Bool) : Dev :=
  { d with cur := some tid, iss := ⟨head, next, old, second⟩, note := .none }

/-- No head is at issue. -/
def Dev.clean (d : Dev) : Dev := { d with cur := none, iss := ⟨0, 0, none, false⟩, note := .none }

/-- The slot has issued in this drip: its gap (R23) and the selector's pointer (R21). -/
def Dev.issuedBy (d : Dev) (drip core slot : Nat) : Dev :=
  let c := d.core core
  d.setCore core { c with
    ptr := slot
    lastIssue := some drip
    gaps := put slot (drip + 8) c.gaps }

/-- The state after a slot's issue. -/
def State.issued (s : State) (core slot : Nat) : State :=
  { s with dev := (s.dev.issuedBy s.drip core slot).clean }

/-- A trap at issue of a head that does not issue (R56, R44). -/
def State.illegal (s : State) (core slot tid : Nat) (pc : Word) (v : Option Word) : Try :=
  let w := v.getD (Config.freeWord s.dev.fresh)
  .out (.next ({ s with dev := s.dev.tickFresh.takeTrap s.drip s.mem tid Cause.illegalEncoding pc w }.issued core slot))

/-- Issue one head. -/
def issueOne (s : State) (core slot tid : Nat) (i : Instr) (pc next : Word) : Try :=
  match exec i { s with dev := s.dev.begin tid pc next none false } with
  | .next s' =>
    match s'.dev.note with
    | .held q => .no s'.dev.clean q
    | _ => .out (.next (s'.issued core slot))
  | o => .out o

/-- One head of a bundle, `last` when the other has gone before it; `first` names the state before both. A trap
of either undoes both, and EPC names the S head, whose address is `pc` (R45; log 12). -/
def issueSecond (first : State) (s : State) (core slot tid : Nat) (i : Instr) (pc next : Word) (t : Thread)
    (second last : Bool) (k : State → Try) : Try :=
  match exec i { s with dev := s.dev.begin tid pc next (some t) second } with
  | .next s' =>
    match s'.dev.note with
    | .held q => .no (if last then first.dev else s'.dev.clean) q
    | .trapped c _ v =>
      if last then
        .out (.next ({ first with dev := first.dev.tickFresh.takeTrap first.drip first.mem tid c pc v }.issued core slot))
      else .out (.next ({ s' with dev := s'.dev.updThr tid (fun t => if t.exited then t else { t with epc := pc }) }.issued core slot))
    | _ => k s'
  | o => .out o

/-- What a head of a bundle asks for when it cannot issue yet, by itself (R45: the slot is ready only when it is
ready for each head). -/
def heldAlone (s : State) (tid : Nat) (i : Instr) (pc next : Word) (t : Thread) (second : Bool) : Option (Dev × Bool) :=
  match exec i { s with dev := s.dev.begin tid pc next (some t) second } with
  | .next s' =>
    match s'.dev.note with
    | .held q => some (s'.dev.clean, q)
    | _ => none
  | _ => none

/-- EXIT, which takes effect after the V head of its bundle (R332). -/
def endsThread : Instr → Bool
  | .exit | .exitGuarded _ => true
  | _ => false

/-- Issue a bundle (R45): the S head, then the V head, each reading the thread as it stood; EXIT takes
effect after the V head (R332). -/
def issueBundle (s : State) (core slot tid : Nat) (a b : Instr) (pc next : Word) (t : Thread) : Try :=
  let e := endsThread a
  let x := if e then b else a
  let y := if e then a else b
  match heldAlone s tid y pc next t (!e) with
  | some (d, q) => .no d q
  | none =>
    issueSecond s s core slot tid x pc next t e false (fun s1 =>
      issueSecond s s1 core slot tid y pc next t (!e) true (fun s2 => .out (.next (s2.issued core slot))))

/-- The trap a slot takes before its next issue: an error reply or a report in arrival order (R84, R224), or
a refusal under EAGER (R18, R121). -/
def Dev.preTrap (d : Dev) (tid : Nat) (t : Thread) : Option (Dev × Nat × Word) :=
  match t.traps with
  | p :: ps => some (d.setThr tid { t with traps := ps }, p.cause, p.value)
  | [] => if bit t.slotcfg 8 then d.lapse tid t else none

/-- A thread whose DOZE has ended is awake. -/
def Thread.wake (t : Thread) : Thread :=
  match t.wst with
  | .doze _ => { t with wst := .ready }
  | _ => t

/-- Try to issue from a slot that is ready. -/
def tryIssue (s0 : State) (core slot tid : Nat) (t0 : Thread) : Try :=
  let t := t0.wake
  let s := if t = t0 then s0 else { s0 with dev := s0.dev.setThr tid t }
  match s.dev.preTrap tid t with
  | some (d, c, v) => .out (.next { s with dev := d.takeTrap s.drip s.mem tid c t.pc v })
  | none =>
    match s.dev.code s.drip core t.ctx t.pc with
    | .line l =>
      let n := lineN l
      let k := pcIdx t.pc
      if n = 0 then s.illegal core slot tid t.pc (some (wd64 (fld l 0 16)))
      else if n < k then s.illegal core slot tid t.pc none
      else match headOf l k with
      | none => s.illegal core slot tid t.pc none
      | some i =>
        if headPair l k then
          if n ≤ k ∨ i.vClass then s.illegal core slot tid t.pc none
          else match headOf l (k + 1) with
          | none => s.illegal core slot tid t.pc none
          | some j =>
            if !j.vClass || headPair l (k + 1) || clash i j then s.illegal core slot tid t.pc none
            else issueBundle s core slot tid i j t.pc (nextPc (t.pc + 2) n (k + 1)) t
        else issueOne s core slot tid i t.pc (nextPc t.pc n k)
    | r => .no (s.dev.askCode s.mem tid core t.ctx t.pc r) false

/-- Slots of a core in the selector's order: p + 1, …, p (R21). -/
def rotation (p : Nat) : List Nat := (List.range 16).map (fun i => (p + 1 + i) % 16)

/-- The first slot in the order that issues; a slot that is held or pending delays none (R24). -/
def selectFrom (core : Nat) : List Nat → State → Option (Host.Outcome State Fault Refusal) × State
  | [], s => (none, s)
  | k :: ks, s =>
    match s.dev.slotTid core k with
    | none => selectFrom core ks s
    | some tid =>
      match s.dev.thr tid with
      | none => selectFrom core ks s
      | some t =>
        if s.dev.slotReady s.drip tid t then
          match tryIssue s core k tid t with
          | .no d _ => selectFrom core ks { s with dev := d }
          | .out o => (some o, s)
        else selectFrom core ks s

/-- One drip's issue of a core (R21): at most one. -/
def issueCore (core : Nat) (s : State) : Option (Host.Outcome State Fault Refusal) × State :=
  if (s.dev.core core).lastIssue = some s.drip then (none, s)
  else selectFrom core (rotation (s.dev.core core).ptr) s

/-- Cores that hold a thread. -/
def Dev.busyCores (d : Dev) : List Nat :=
  (d.threads.filterMap (fun p => match p.2.place with
    | .slot c _ => some c
    | .saved => none)).eraseDups

/-- Cores in the order in which a cluster's gallery considers their ports in a drip (R258): the rotation starts one
requester further in each drip. DESIGN CHOICE, unsafe (log 99). -/
def inRotation (drip : Nat) (l : List Nat) : List Nat :=
  (List.range 18).flatMap (fun k => l.filter (fun c => coreInClus c == (drip + k) % 18))

/-- The first core that can issue in this drip. -/
def issueAny : List Nat → State → Option (Host.Outcome State Fault Refusal) × State
  | [], s => (none, s)
  | c :: cs, s =>
    match issueCore c s with
    | (some o, s') => (some o, s')
    | (none, s') => issueAny cs s'

/-- A thread is queue-blocked at its next head on a queue that its block holds (R33, R35), whatever else keeps it from
issuing (R19). -/
def queueBlocked (s : State) (tid : Nat) (t : Thread) : Bool :=
  match t.place with
  | .saved => false
  | .slot c k =>
    let free : Thread := { t with
      wst := .ready
      stopped := false
      preempted := false
      notBefore := 0
      pendX := 0
      pendV := 0
      pendK := 0
      traps := [] }
    !t.exited && t.wst != .halted && match tryIssue { s with dev := s.dev.setThr tid free } c k tid free with
      | .no _ q => q
      | .out _ => false

/-- Since when a block has been parked without a break (R307, R325). -/
def Dev.parkMark (d : Dev) (drip : Nat) (b : Block) : Option Nat :=
  match b.launch with
  | none => none
  | some n => match d.lch n with
    | none => none
    | some l =>
      if b.st == .running && d.parkedEnough b l.parkf then some (b.parkSince.getD drip) else none

/-- Time units trim clocks by up to 100 ppm (R370): a count in 10,000 drips, towards where they are to stand. -/
def Dev.trimmed (d : Dev) (drip : Nat) : List (Nat × Int) :=
  if drip % 10000 ≠ 0 then d.offsets
  else d.trims.foldl (fun l p =>
    let o := look 0 p.1 l
    if o = p.2 then l else put p.1 (if o < p.2 then o + 1 else o - 1) l) d.offsets

/-- A launch waits for an admission in this drip (R323). -/
def Dev.waits (d : Dev) (n : Nat) (l : Launch) : Bool :=
  l.ended.isNone && (l.queue != [] || d.blocks.any (fun b => b.2.launch == some n && d.swapReady b.2))

/-- The drip passes: the counter rises by one (R15); each slot's time in the queue-blocked condition (R35),
each block's in the parked condition (R307) and each launch's with a point in its queue (R323) is kept. The command unit's
clearing writes of arm words whose slot was read in the drip before are performed (R365), the images of saved blocks
follow their threads (R352), and the clocks of other modules are trimmed (R370). -/
def passDrip (s : State) : State :=
  let due := fun (p : Nat × Nat) => p.2 < s.drip && s.dev.unitMayWrite s.drip (lineOf p.1)
  let r := s.dev.syncImages s.drip
  { s with
    drip := s.drip + 1
    mem := s.mem.writeAll ((s.dev.clears.filter due).flatMap (fun p => bytesAt p.1 8 0) ++ r.2)
    dev := { r.1 with
      since := s.dev.nextMsg
      offsets := s.dev.trimmed (s.drip + 1)
      clears := s.dev.clears.filter (fun p => !due p)
      threads := s.dev.threads.map (fun p =>
        (p.1, { p.2 with qblk := if queueBlocked s p.1 p.2 then some (p.2.qblk.getD s.drip) else none }))
      blocks := r.1.blocks.map (fun p => (p.1, { p.2 with parkSince := s.dev.parkMark s.drip p.2 }))
      launches := s.dev.launches.map (fun p =>
        if s.dev.waits p.1 p.2 then (p.1, { p.2 with waited := p.2.waited + 1 }) else p) } }

end Sys2Proof.Machine
end

