-- ==== Sys2Proof/Machine/Schedule.lean ====
section
/-!
DEFINITION. The order the model gives the module's steps where nothing else says which comes next
(notes/assumptions/2.md), and the placing of one head for a run (notes/assumptions/5.md).
-/
namespace Sys2Proof.Machine
open Sys2Proof

/-- The data of hits and forwarded loads that are due at a core: they count in this drip's selection (R20, R260). -/
def Dev.takeHits (d : Dev) (drip : Nat) (mem : Memory) (core : Nat) : Dev :=
  d.msgs.foldl (fun d m => match m.kind with
    | .hit src vals due =>
      if src.core = core ∧ due ≤ drip ∧ !d.srcStopped src then (d.drop m.id).arrive drip mem src vals none 0 none else d
    | _ => d) d

/-- The outcome of asking a core to issue: unchanged but for what arrives and is asked for when no slot can. -/
def issueStep (c : Nat) (s : State) : Host.Outcome State Fault Refusal :=
  match issueCore c { s with dev := s.dev.takeHits s.drip s.mem c } with
  | (some o, _) => o
  | (none, s') => .next s'

/-! ### Steps that may be due -/

/-- A step of the module. -/
abbrev Act := State → Host.Outcome State Fault Refusal

/-- Steps that a request may take. -/
def Req.steps (m : Nat) : Req → List Act
  | .renew .. => [execRenewalArrival m]
  | .life _ => [execLifeInquiryArrival m]
  | .tether .. => [execTetherArrival m]
  | .info .. => [execInfoArrival m]
  | .lock .. => [execLockRequestArrival m]
  | .lheld _ => [execLockInquiryArrival m]
  | .binit .. => [execBarrierGrant m]
  | .barv .. => [execBarrierArrival m]
  | .badd .. => [execByteAddArrival m]
  | .bwait .. => [execBarrierWaitArrival m]
  | .exitNotice .. => [execExitNotice m]
  | .popen .. => [execPathGrant m]
  | .gate .. => [execExact m, execHeat m, execLog m, execRoot m, execTime m, execTenant m, execContext m, execGrant m]
  | .alloc .. => [execAllocRequestArrival m]
  | .bopen .. => [execBundleOpenArrival m]
  | .bseal _ => [execSealArrival m]
  | .bchk .. => [execCompanionCheckArrival m]
  | .mcs => [execMcsDecision m]
  | .launch _ => [execLaunchArrival m]
  | .point .. => [execPointQueryArrival m]
  | .frrd .. => [execFrontierReadArrival m]
  | .amsg .. => [execAmsgArrival m]
  | .done .. | .amsgEnd .. => [execDoneArrival m]
  | .array .. => [execArrayRequestArrival m]
  | .mstat .. => [execCommandAccept m]
  | .tlbi .. | .ctxsv .. | .wakeRec _ | .wakeFail _ | .wakeSlot .. | .wakeStop .. => [execWakeMessage m]

/-- Steps that a message may take. -/
def Msg.steps (x : Msg) : List Act :=
  match x.kind with
  | .acc a => [execCommitPoint x.id, execBundleStoreArrival x.id, execPathWordArrival x.id, execLoadService x.id,
      execAtomicService x.id, execAtomxService x.id, execKeepalive a.line, execPrq a.line, execStorePerform x.id]
  | .data .. | .hit .. => [execLoadDataArrival x.id]
  | .reply .. => [execReplyArrival x.id]
  | .error s k ea .. => [execContainment s.core k ea.toNat, execErrorReply x.id]
  | .ack _ => [execAcknowledgement x.id]
  | .refused .. => [execRefusalAcknowledgement x.id]
  | .fetch .. => [execCodeFetchArrival x.id]
  | .req _ q => q.steps x.id
  | .guard _ => [execGuardCopyUpdate x.id]
  | .consult .. => [execRootConsultation x.id]
  | .answer .. => [execConsultationAnswer x.id]
  | .join .. => [execJoin x.id]
  | .doom .. => [execDoom x.id]
  | .sealNotice .. => [execSealNotice x.id]
  | .compReport .. => [execCompanionReport x.id]
  | .bundleAsk .. => [execBundleConsultation x.id]
  | .consume c k a => [execContainment c k a]
  | .leave .. => [execLeaveRequest x.id]
  | .suspend .. => [execSuspendMessage x.id]
  | .command .. => [execCommandAccept x.id]
  | .engine .. => [execEngineAccept x.id]
  | .report .. => [execReport x.id]

/-- Steps of the leases that time brings. -/
def Dev.leaseSteps (d : Dev) (drip : Nat) : List Act :=
  d.leases.flatMap (fun l =>
    (if !l.dead && d.lapsed drip l then [execLeaseExpiry l.agent l.index] else [])
    ++ (match l.payload with
      | .lock _ ws => ws.map (fun w => execLockDeadline w.id)
      | .barrier b => if drip % 64 = 0 then b.beats.filterMap (fun p => if p.2 < drip then
          some (execBeat p.1 l.agent l.index) else none) else []
      | _ => []))
  ++ d.allocs.flatMap (fun w => [execAllocDeadline w.id, execAllocGrant w.id])

/-- Steps of the cores. -/
def Dev.coreSteps (d : Dev) (drip : Nat) : List Act :=
  d.cores.flatMap (fun p =>
    (p.2.l1.filter (fun e => e.expiry ≤ drip)).map (fun e => execReadLeaseExpiry p.1 e.line)
    ++ (if p.2.sb = [] then [] else [execStoreBufferDrain p.1]))

/-- Steps of the arrays and engines. -/
def Dev.clusterSteps (d : Dev) : List Act :=
  d.clusters.flatMap (fun p =>
    [execCommandRetire p.1, execStreamUnitLand p.1 0, execStreamUnitLand p.1 1,
      execEnginePiece p.1 0, execEnginePiece p.1 1, execEngineCompletion p.1 0, execEngineCompletion p.1 1])

/-- Steps of translation, of the fabric and of the host's copies. -/
def Dev.unitSteps (d : Dev) (drip : Nat) : List Act :=
  d.walks.map (fun w => execWalkEnd w.id)
  ++ (if d.faults = [] then [] else (List.range 4).map execFaultRecordWrite)
  ++ (if d.leaveQ = [] then [] else [execLeaveGrant])
  ++ (d.perms ++ d.sliceLeases).flatMap (fun p =>
    let wanted := d.msgs.any (fun m => match m.kind with
      | .acc a => a.line == p.line && (keyAp p.line == 0 || (d.accHome a).mod != d.modNo)
      | _ => false)
    (if wanted then [execWriteBackRequest p.line] else [])
    ++ (if p.asked || p.expiry ≤ drip + 1 then [execPermissionLeaseRenewal p.line] else []))
  ++ (if d.boot.stage = 4 then [execServiceContextCreation] else [])

/-- Steps that the spec dates to a drip, or that are taken as soon as they can be: the drip does not pass while one of
them is due. Launches age before an admission, and wakes come before swaps. -/
def Dev.promptSteps (d : Dev) (drip : Nat) : List Act :=
  d.msgs.flatMap (fun m => match m.kind with
    | .hit .. => [execLoadDataArrival m.id]
    | .consume c k a => [execContainment c k a]
    | _ => [])
  ++ d.leaseSteps drip
  ++ d.threads.flatMap (fun p => match p.2.wst with
    | .doze _ => [execDozeExpiry p.1]
    | _ => [])
  ++ d.blocks.flatMap (fun p => p.2.crews.map (fun c => execQueueDeadlock c.core p.1))
  ++ d.clusters.flatMap (fun p => [execGiveUp p.1, execArrayGrant p.1, execPromiseMissed p.1 0, execPromiseMissed p.1 1])
  ++ ((d.perms ++ d.sliceLeases).filter (fun p => !p.live drip)).map (fun p => execWriteLeaseLapse p.line)
  ++ (d.sliceLeases.filter (fun p => p.expiry ≤ drip + 1)).map (fun p => execPermissionLeaseRenewal p.line)
  ++ d.cut.flatMap (fun p => execModuleFailed p.1 ::
    if d.members.contains p.1 then [] else [execMemberFailure p.1])
  ++ d.quarantine.map (fun p => execAgentRejoin p.1)
  ++ d.stops.flatMap (fun s => [execPreemptionStop s.tenant, execResumption s.tenant])
  ++ (List.range d.fenced.length).map execRectangleReturn
  ++ d.launches.flatMap (fun p => [execAfterRelease p.1, execPriorityAging p.1])
  ++ d.blocks.flatMap (fun p => [execSwapDecision p.1, execSwapSave p.1])
  ++ (if d.launches = [] then [] else (List.range 128).map execBlockAdmission)

/-- Arm words that are set: the unit reads a slot in the drip its arming store performs (R365). -/
def Dev.armSteps (d : Dev) (mem : Memory) : List Act :=
  d.leases.flatMap (fun l => match l.payload with
    | .anchor _ w _ => (List.range 288).filterMap (fun k =>
        let a := w + 128 * k + 120
        if mem.read (a + 7) = 0 then none
        else if k < 256 then some (execArm a) else some (execCollectiveRequest ⟨a, []⟩))
    | _ => [])

/-- Every step that is taken before the drip passes. -/
def datedSteps (s : State) : List Act := s.dev.armSteps s.mem ++ s.dev.promptSteps s.drip

/-- Collective requests in flight, of this module alone. -/
def Dev.collSteps (d : Dev) : List Act := d.colls.map (fun c => execCollectiveRequest ⟨c.slot + 120, []⟩)

/-- Steps of the module that may be due, in the order they are tried. -/
def candidates (s : State) : List Act :=
  s.dev.msgs.flatMap Msg.steps ++ s.dev.coreSteps s.drip ++ s.dev.clusterSteps
    ++ s.dev.unitSteps s.drip ++ s.dev.armSteps s.mem ++ s.dev.collSteps ++ s.dev.promptSteps s.drip

/-- The first candidate that changes the state. -/
def firstDue (s : State) : List Act → Option (Host.Outcome State Fault Refusal)
  | [] => none
  | i :: is =>
    match i s with
    | .next s' => if s' = s then firstDue s is else some (.next s')
    | o => some o

/-- The first of some steps that is due, else an issue, else the drip passes. -/
def nextStep (l : List Act) (s : State) (pass : State → State) : Host.Outcome State Fault Refusal :=
  match firstDue s l with
  | some o => o
  | none =>
    match issueAny (inRotation s.drip s.dev.busyCores) s with
    | (some o, _) => o
    | (none, s') => .next (passDrip (pass s'))

/-- The module's own next step. -/
def ownStep (s : State) : Host.Outcome State Fault Refusal := nextStep (candidates s) s id

/-- A drip is to pass: what the spec dates to this drip comes first, and every core issues that can (R21); the agenda
keeps the tick until then. -/
def tickStep (rest : List Stim) (s : State) : Host.Outcome State Fault Refusal :=
  nextStep (datedSteps s) s (fun s => { s with agenda := rest })

/-! ### Placing one head -/

/-- The virtual address of the line that `placeHead` uses, its place, and the page's leaf: a small page,
readable, writable and executable. -/
def benchVa : Word := 0x10000
def benchKey : Nat := apKey 0 0x10000
def benchLeaf : Word := 0x1000F

/-- A line of one head. -/
def benchLine (head tail : Nat) : Nat :=
  0x0800 + head * 2 ^ 16 + tail * 2 ^ (8 * (64 - tailBytes (fld head 14 2)))

/-- A supervisor thread at the head, in slot 0 of core 0. -/
def benchThread : Thread :=
  { Thread.entry (benchVa + 2) 0 0 (mkStatus 0 0 true true) 0 0 0 with place := .slot 0 0 }

/-- Place one head for the next step: out of reset, a thread of the service context in slot 0 of core 0 at
the head, its line in memory and in the core's L1, and the core's turn next. -/
def placeHead (s : State) (head tail : Nat) : State :=
  let d := s.dev
  let line := benchLine head tail
  let c := { d.core 0 with
    ptr := 15
    lastIssue := none
    vbusy := 0
    tlb := [⟨0, 1, false, benchLeaf⟩]
    l1 := [⟨benchKey, s.drip + 64, BitVec.ofNat 1024 line, false⟩]
    gaps := [] }
  { s with
    agenda := [.issue 0]
    mem := s.mem.writeAll (bytesAt benchKey 64 line)
    dev := { d with
      inReset := false
      fenced := []
      readLeases := put benchKey (max (s.drip + 64) (look 0 benchKey d.readLeases)) d.readLeases
      cores := put 0 c d.cores
      threads := (d.nextTid, { benchThread with blk := d.nextBlk }) ::
        d.threads.filter (fun p => p.2.place != .slot 0 0)
      nextTid := d.nextTid + 1
      blocks := put d.nextBlk (Block.single d.nextBlk d.nextTid 0 0 0 0 0) d.blocks
      nextBlk := d.nextBlk + 1 } }

end Sys2Proof.Machine
end

