-- ==== Sys2Proof/Machine/Step.lean ====
section
/-!
DEFINITION. One step of the module, and the placing of one instruction where the next step fetches it.
-/
namespace Sys2Proof.Machine
open Sys2Proof

/-- One step: the next stimulus of the agenda, a drip passing only when nothing is due in it; with none, the module's own next step (Machine/Schedule.lean). -/
def step (s : State) : Host.Outcome State Fault Refusal :=
  match s.agenda with
  | .event i :: rest => exec i { s with agenda := rest }
  | .issue c :: rest => issueStep c { s with agenda := rest }
  | .tick :: rest => tickStep rest s
  | [] => ownStep s

/-- `s` with one head placed where the next step fetches it, as the first head of slot 0 of core 0. -/
def State.withFetchWord (s : State) (nbits w : Nat) : State :=
  placeHead s (tableHead nbits w) (tableTail nbits w)

end Sys2Proof.Machine
end

