-- ==== Sys2Proof/Safety.lean ====
section
/-!
DEFINITION. The terms in which statements about the machine are made: a head that reaches its body, what a step
leaves as it was, and the invariant that every step keeps.
-/
namespace Sys2Proof.Machine
open Sys2Proof

/-- The state with other units. -/
def State.withDev (s : State) (d : Dev) : State := { s with dev := d }

/-- Memory is in its canonical form. -/
def State.Inv (s : State) : Prop := s.mem.wf = true

/-- A byte of memory reads as before. -/
def State.SameByte (s t : State) (a : Nat) : Prop := t.mem.read a = s.mem.read a

/-- A head reaches its body, with inputs `i`: a thread is at issue; no register that the head names is pending
(R27); a privileged head has its mode (R22); the checks that come before the guard pass; no queue register is
used against its mapping (R33); the guard is true, or selects lanes (R46, R193), and no element of one lane is off
(R212); the sources, with their pops, are `i.vals`; and a push has space. `i.dev` is the module with the pops taken and the pc at the next head. -/
structure Issues (s : State) (priv lanes : Bool) (g : Guard) (u : Uses) (pre : Thread → Option Nat) (i : In) :
    Prop where
  drip : i.drip = s.drip
  mem : i.mem = s.mem
  base : i.base = s.dev
  cur : s.dev.cur = some i.tid
  thread : (s.dev.thr i.tid).map (fun t => s.dev.iss.old.getD t) = some i.t
  ready : u.pending g i.t = false
  mode : priv = true → i.t.mode = true
  checks : pre i.t = none
  mapped : u.misuse i.t.slotcfg = false
  guard : lanes = true ∨ guardTrue g i.t = true
  acts : u.off s.dev i.t = false
  sources : ∃ d, s.dev.readXs i.t u.xs = some (d, i.vals) ∧ i.dev = d.advance i.tid
    ∧ ∀ r, u.xd = some r → d.hasSpace i.t r = true

/-- An S-class head with no check of its own before the guard. -/
def IssuesS (s : State) (priv : Bool) (g : Guard) (u : Uses) (i : In) : Prop :=
  Issues s priv false g u (fun _ => none) i

/-- A vector head with its check. -/
def IssuesV (s : State) (g : Guard) (u : Uses) (pre : Thread → Option Nat) (i : In) : Prop :=
  Issues s false true g u pre i

/-! ### Scalar heads: what each writes -/

/-- The low `w` bits of a value, sign-extended (R64). -/
def low (wd : Width) (v : Word) : Word := (v.setWidth wd.bits).signExtend 64

/-- The low bits of two sources, combined and sign-extended (R64). -/
def both (wd : Width) (f : (n : Nat) → BitVec n → BitVec n → BitVec n) (i : In) : Word :=
  (f wd.bits (i.a.setWidth wd.bits) (i.b.setWidth wd.bits)).signExtend 64

/-- The low bits of one source, shifted by an immediate and sign-extended (R67). -/
def shifted (o : ShiftIOp) (f : (n : Nat) → BitVec n → Nat → BitVec n) (i : In) : Word :=
  (f o.w.bits (i.a.setWidth o.w.bits) o.n.val).signExtend 64

/-- A count of bits of the low bits of a source (R65). -/
def counted (wd : Width) (f : (n : Nat) → BitVec n → Nat) (i : In) : Word :=
  (BitVec.ofNat wd.bits (f wd.bits (i.a.setWidth wd.bits))).signExtend 64

/-- A value taken into 64 bits by a sign field (R48). -/
def widenBy {n : Nat} (s : Sign) (v : BitVec n) : Word :=
  match s with
  | .sx => v.signExtend 64
  | .zx => v.setWidth 64

/-- The registers of a register form. -/
def regUses (o : RRR) : Uses := { xs := [o.a, o.b], xd := some o.d }

/-- The scalar instructions whose whole effect is one value written to one register (R65, R67, R74, R89 to R91,
R240): guard, registers named, destination, and the value. -/
inductive ScalarForm : Instr → Guard → Uses → Reg → (In → Word) → Prop where
  | add (o : RRR) : ScalarForm (.add o) o.g (regUses o) o.d (both o.w (fun _ a b => a + b))
  | sub (o : RRR) : ScalarForm (.sub o) o.g (regUses o) o.d (both o.w (fun _ a b => a - b))
  | and (o : RRR) : ScalarForm (.and o) o.g (regUses o) o.d (both o.w (fun _ a b => a &&& b))
  | or (o : RRR) : ScalarForm (.or o) o.g (regUses o) o.d (both o.w (fun _ a b => a ||| b))
  | xor (o : RRR) : ScalarForm (.xor o) o.g (regUses o) o.d (both o.w (fun _ a b => a ^^^ b))
  | andn (o : RRR) : ScalarForm (.andn o) o.g (regUses o) o.d (both o.w (fun _ a b => a &&& ~~~b))
  | shl (o : RRR) : ScalarForm (.shl o) o.g (regUses o) o.d (both o.w (fun w a b => a <<< (b.toNat % w)))
  | shr (o : RRR) : ScalarForm (.shr o) o.g (regUses o) o.d (both o.w (fun w a b => a >>> (b.toNat % w)))
  | sra (o : RRR) : ScalarForm (.sra o) o.g (regUses o) o.d (both o.w (fun w a b => a.sshiftRight (b.toNat % w)))
  | rot (o : RRR) : ScalarForm (.rot o) o.g (regUses o) o.d (both o.w (fun w a b => a.rotateRight (b.toNat % w)))
  | min (o : RRR) : ScalarForm (.min o) o.g (regUses o) o.d (both o.w (fun _ a b => if a.slt b then a else b))
  | max (o : RRR) : ScalarForm (.max o) o.g (regUses o) o.d (both o.w (fun _ a b => if a.slt b then b else a))
  | minu (o : RRR) : ScalarForm (.minu o) o.g (regUses o) o.d (both o.w (fun _ a b => if a.ult b then a else b))
  | maxu (o : RRR) : ScalarForm (.maxu o) o.g (regUses o) o.d (both o.w (fun _ a b => if a.ult b then b else a))
  | mul (o : RRR) : ScalarForm (.mul o) o.g (regUses o) o.d (both o.w (fun _ a b => a * b))
  | mulh (o : RRR) : ScalarForm (.mulh o) o.g (regUses o) o.d
      (both o.w (fun w a b => (a.signExtend (2 * w) * b.signExtend (2 * w)).extractLsb' w w))
  | mulhu (o : RRR) : ScalarForm (.mulhu o) o.g (regUses o) o.d
      (both o.w (fun w a b => (a.setWidth (2 * w) * b.setWidth (2 * w)).extractLsb' w w))
  | div (o : RRR) : ScalarForm (.div o) o.g (regUses o) o.d
      (both o.w (fun w a b => if b = 0 then BitVec.allOnes w else a.sdiv b))
  | divu (o : RRR) : ScalarForm (.divu o) o.g (regUses o) o.d
      (both o.w (fun w a b => if b = 0 then BitVec.allOnes w else a / b))
  | rem (o : RRR) : ScalarForm (.rem o) o.g (regUses o) o.d (both o.w (fun _ a b => if b = 0 then a else a.srem b))
  | remu (o : RRR) : ScalarForm (.remu o) o.g (regUses o) o.d (both o.w (fun _ a b => if b = 0 then a else a % b))
  | lea (o : LeaOp) : ScalarForm (.lea o) o.g { xs := [o.a, o.b], xd := some o.d } o.d
      (fun i => i.a + (i.b <<< o.n.val))
  | sel (o : SelOp) : ScalarForm (.sel o) o.g { xs := [o.a, o.b], xd := some o.d, ks := [o.c] } o.d
      (fun i => if bit (i.t.regs.rk o.c) 0 then i.a else i.b)
  | clz (o : RRw) : ScalarForm (.clz o) o.g { xs := [o.a], xd := some o.d } o.d
      (counted o.w (fun w x => if x = 0 then w else w - 1 - Nat.log2 x.toNat))
  | ctz (o : RRw) : ScalarForm (.ctz o) o.g { xs := [o.a], xd := some o.d } o.d (counted o.w (fun w x => ctzN w x.toNat))
  | popc (o : RRw) : ScalarForm (.popc o) o.g { xs := [o.a], xd := some o.d } o.d (counted o.w (fun w x => popN w x.toNat))
  | sext (o : SextOp) : ScalarForm (.sext o) o.g { xs := [o.a], xd := some o.d } o.d
      (fun i => widenBy o.s (i.a.setWidth o.w.bits))
  | mov (o : RR) : ScalarForm (.mov o) o.g { xs := [o.a], xd := some o.d } o.d (fun i => i.a)
  | ext (o : ExtOp) : ScalarForm (.ext o) o.g { xs := [o.a], xd := some o.d } o.d
      (fun i => widenBy o.s (i.a.extractLsb' o.p.val o.n.val))
  | ins (o : InsOp) : ScalarForm (.ins o) o.g { xs := [o.a, o.d], xd := some o.d } o.d
      (fun i =>
        let m : Word := ((BitVec.allOnes o.n.val).setWidth 64) <<< o.p.val
        low o.w ((i.b &&& ~~~m) ||| ((i.a <<< o.p.val) &&& m)))
  | addi (o : AddiOp) : ScalarForm (.addi o) o.g { xs := [o.a], xd := some o.d } o.d
      (fun i => low o.w (i.a + o.imm.signExtend 64))
  | shlImm (o : ShiftIOp) : ScalarForm (.shlImm o) o.g { xs := [o.a], xd := some o.d } o.d
      (shifted o (fun _ a n => a <<< n))
  | shrImm (o : ShiftIOp) : ScalarForm (.shrImm o) o.g { xs := [o.a], xd := some o.d } o.d
      (shifted o (fun _ a n => a >>> n))
  | sraImm (o : ShiftIOp) : ScalarForm (.sraImm o) o.g { xs := [o.a], xd := some o.d } o.d
      (shifted o (fun _ a n => a.sshiftRight n))
  | rotImm (o : ShiftIOp) : ScalarForm (.rotImm o) o.g { xs := [o.a], xd := some o.d } o.d
      (shifted o (fun w a n => a.rotateRight (n % w)))
  | li (o : LiOp) : ScalarForm (.li o) o.g { xd := some o.d } o.d (fun _ => widenBy o.s o.imm)
  | lih (o : LihOp) : ScalarForm (.lih o) o.g { xs := [o.d], xd := some o.d } o.d
      (fun i => (o.imm.setWidth 64 <<< 32) ||| (i.a.setWidth 32).setWidth 64)
  | fclass (o : FClassOp) : ScalarForm (.fclass o) o.g { xs := [o.a], xd := some o.d } o.d
      (fun i => wd64 ((Fp.ofType o.t).cls (i.a.toNat % 2 ^ o.t.bits)))
  | rdt (o : GD) : ScalarForm (.rdt o) o.g { xd := some o.d } o.d (fun i => wd64 i.drip)
  | rdid (o : RdidOp) : ScalarForm (.rdid o) o.g { xd := some o.d } o.d (fun i => wd64 (i.ident o.sel))
  | qstat (o : QstatOp) : ScalarForm (.qstat o) o.g { xd := some o.d } o.d (fun i =>
      match i.base.queue i.t o.q with
      | none => 0
      | some q => wd64 (q.depth * 2 ^ 16 + bits i.t.slotcfg (2 * o.q.val) 2 * 2 ^ 9 + q.items.length))
  | cstat (o : EngOp) : ScalarForm (.cstat o) o.g { xd := some o.d } o.d (fun i =>
      let l := ((i.base.clus (coreClus i.core)).eng o.e.val).cmds
      wd64 ((64 - l.length) * 2 ^ 32 + i.base.engineOut o.e.val i.tid * 2 ^ 22 + (i.t.fifo o.e.val).length * 2 ^ 16
        + b2n (match l with
          | e :: _ => e.stop.isSome
          | [] => false)))

/-! ### Predicate heads, floating point, transfers, and heads that change the thread only -/

/-- The low bits of a source, compared with those of a second value (R68). -/
def compared (wd : Width) (cc : Cond) (sg : Sign) (a b : Word) : Bool :=
  let x := a.setWidth wd.bits
  let y := b.setWidth wd.bits
  let less := match sg with
    | .sx => x.slt y
    | .zx => x.ult y
  match cc with
  | .eq => x == y | .ne => x != y | .lt => less | .le => less || x == y | .gt => !(less || x == y) | .ge => !less

/-- The heads whose whole effect is on predicates (R68, R69): a compare writes a pair, the others one. -/
inductive PredForm : Instr → Guard → Uses → (In → Regs → Regs) → Prop where
  | cmp (o : CmpOp) : PredForm (.cmp o) o.g { xs := [o.a, o.b], kd := [kpLo o.kd, kpHi o.kd] }
      (fun i x => x.wpair o.kd (compared o.w o.cc o.s i.a i.b))
  | cmpi (o : CmpiOp) : PredForm (.cmpi o) o.g { xs := [o.a], kd := [kpLo o.kd, kpHi o.kd] }
      (fun i x => x.wpair o.kd (compared o.w o.cc o.s i.a (widenBy o.s o.imm)))
  | pand (o : PPP) : PredForm (.pand o) o.g { ks := [o.a, o.b], kd := [o.d] }
      (fun i x => x.wk o.d (i.t.regs.rk o.a &&& i.t.regs.rk o.b))
  | por (o : PPP) : PredForm (.por o) o.g { ks := [o.a, o.b], kd := [o.d] }
      (fun i x => x.wk o.d (i.t.regs.rk o.a ||| i.t.regs.rk o.b))
  | pxor (o : PPP) : PredForm (.pxor o) o.g { ks := [o.a, o.b], kd := [o.d] }
      (fun i x => x.wk o.d (i.t.regs.rk o.a ^^^ i.t.regs.rk o.b))
  | pnot (o : PP) : PredForm (.pnot o) o.g { ks := [o.a], kd := [o.d] } (fun i x => x.wk o.d (~~~i.t.regs.rk o.a))
  | pmov (o : PP) : PredForm (.pmov o) o.g { ks := [o.a], kd := [o.d] } (fun i x => x.wk o.d (i.t.regs.rk o.a))
  | pany (o : PP) : PredForm (.pany o) o.g { ks := [o.a], kd := [o.d] }
      (fun i x => x.wk o.d (if i.t.regs.rk o.a = 0 then 0 else BitVec.allOnes 1024))

/-- A scalar floating-point result: exact, rounded once to the type, with the flags of both (R71). -/
def rounded (t : FType) (r : RM) (p : FVal × Flags) : Word × Flags := (wd64 (roundTo t r p).1, (roundTo t r p).2)

/-- A result in code, with its flags. -/
def coded (p : Nat × Flags) : Word × Flags := (wd64 p.1, p.2)

/-- The scalar floating-point heads that write one value and raise flags (R71, R73). -/
inductive FloatForm : Instr → Guard → Uses → Reg → (In → Word × Flags) → Prop where
  | fadd (o : FRRR) : FloatForm (.fadd o) o.g { xs := [o.a, o.b], xd := some o.d } o.d (fun i =>
      rounded o.t (i.t.rmScalar o.rs) ((fval o.t i.a).add (i.t.rmScalar o.rs) (fval o.t i.b)))
  | fsub (o : FRRR) : FloatForm (.fsub o) o.g { xs := [o.a, o.b], xd := some o.d } o.d (fun i =>
      rounded o.t (i.t.rmScalar o.rs) ((fval o.t i.a).add (i.t.rmScalar o.rs) (fval o.t i.b).neg))
  | fmul (o : FRRR) : FloatForm (.fmul o) o.g { xs := [o.a, o.b], xd := some o.d } o.d (fun i =>
      rounded o.t (i.t.rmScalar o.rs) ((fval o.t i.a).mul (fval o.t i.b)))
  | fma (o : FmaOp) : FloatForm (.fma o) o.g { xs := [o.a, o.b, o.c], xd := some o.d } o.d (fun i =>
      rounded o.t (i.t.rmScalar o.rs) ((fval o.t i.a).fma (i.t.rmScalar o.rs) (fval o.t i.b) (fval o.t i.c)))
  | fdiv (o : FRRR) : FloatForm (.fdiv o) o.g { xs := [o.a, o.b], xd := some o.d } o.d (fun i =>
      rounded o.t (i.t.rmScalar o.rs) ((fval o.t i.a).div (fval o.t i.b)))
  | fsqrt (o : FRR) : FloatForm (.fsqrt o) o.g { xs := [o.a], xd := some o.d } o.d (fun i =>
      rounded o.t (i.t.rmScalar o.rs) (fval o.t i.a).sqrt)
  | fmin (o : FMinOp) : FloatForm (.fmin o) o.g { xs := [o.a, o.b], xd := some o.d } o.d (fun i =>
      coded ((Fp.ofType o.t).minmax false (i.a.toNat % 2 ^ o.t.bits) (i.b.toNat % 2 ^ o.t.bits)))
  | fmax (o : FMinOp) : FloatForm (.fmax o) o.g { xs := [o.a, o.b], xd := some o.d } o.d (fun i =>
      coded ((Fp.ofType o.t).minmax true (i.a.toNat % 2 ^ o.t.bits) (i.b.toNat % 2 ^ o.t.bits)))
  | fcvt (o : FCvtOp) : FloatForm (.fcvt o) o.g { xs := [o.a], xd := some o.d } o.d (fun i =>
      fcvt o.dt o.st (i.t.rmScalar o.rs) i.a)

/-- The address of a transfer by line delta and index from the line of its head (R55). -/
def lineTarget (head : Word) (delta : BitVec 27) (idx : Fin 32) : Word :=
  (head &&& ~~~(63 : Word)) + 64 * delta.signExtend 64 + wd64 (2 * idx.val)

/-- Transfers (R77, R351): the mode asked for, the registers, when it transfers, its target, and what else it
writes. -/
inductive TransferForm : Instr → Bool → Guard → Uses → (In → Prop) → (In → Word) → (In → Dev → Dev) → Prop where
  | br (o : RelOp) : TransferForm (.br o) false o.g {} (fun _ => True)
      (fun i => lineTarget i.base.iss.head o.delta o.idx) (fun _ => id)
  | call (o : RelOp) : TransferForm (.call o) false o.g { xd := some 31 } (fun _ => True)
      (fun i => lineTarget i.base.iss.head o.delta o.idx) (fun i d => d.putX i.tid 31 i.base.iss.next)
  | loop (o : LoopOp) : TransferForm (.loop o) false o.g { xs := [o.a], xd := some o.a } (fun i => i.a ≠ 1)
      (fun i => lineTarget i.base.iss.head o.delta o.idx) (fun i d => d.putX i.tid o.a (i.a - 1))
  | jmp (o : JmpOp) : TransferForm (.jmp o) false o.g { xs := [o.a], xd := some o.d } (fun _ => True)
      (fun i => i.a + o.imm.signExtend 64) (fun i d => d.putX i.tid o.d i.base.iss.next)
  | jr (o : GA) : TransferForm (.jr o) false o.g { xs := [o.a] } (fun _ => True) In.a (fun _ => id)
  | ret : TransferForm .ret false .always { xs := [31] } (fun _ => True) In.a (fun _ => id)
  | retGuarded (o : GOp) : TransferForm (.retGuarded o) false o.g { xs := [31] } (fun _ => True) In.a (fun _ => id)
  | tret : TransferForm .tret true .always {} (fun i => i.t.inTrap = true) (fun i => i.t.epc)
      (fun i d => d.updThr i.tid Thread.trapReturn)
  | tretGuarded (o : GOp) : TransferForm (.tretGuarded o) true o.g {} (fun i => i.t.inTrap = true) (fun i => i.t.epc)
      (fun i d => d.updThr i.tid Thread.trapReturn)

/-- The four counts of a thread are within the bounds of a WAIT; a bound of 15 is none (R86). -/
def countsMet (o : WaitOp) (t : Thread) : Prop :=
  (o.l = 15 ∨ t.cL ≤ o.l.toNat) ∧ (o.s = 15 ∨ t.cS ≤ o.s.toNat) ∧ (o.c = 15 ∨ t.cC ≤ o.c.toNat)
    ∧ (o.m = 15 ∨ t.cM ≤ o.m.toNat)

/-- What a fence leaves a thread waiting for (R281): an acquiring one holds later accesses for the loads
that have no value yet; a releasing one orders later stores after the stores issued so far, and `.acr` later
later loads too. Towards agents of the thread's own core, the only ones at `.slot` and `.core`, a store is performed
as soon as the buffer has it (R268). -/
def Thread.fenced (t : Thread) (od : FenceOd) (sc : Scope) (loads : List Nat) (next : Nat) : Thread :=
  { t with
    acq := if od = .rel then t.acq else t.acq ++ loads
    fenceRel := if od = .acq ∨ sc = .slot ∨ sc = .core then t.fenceRel else next
    fenceAcr := if od = .acr ∧ sc ≠ .slot ∧ sc ≠ .core then next else t.fenceAcr }

/-- Heads that change nothing but their thread (R75, R86, R88, R281, R351), with the condition. -/
inductive ThreadForm : Instr → Bool → Guard → Uses → (In → Prop) → (In → Thread → Thread) → Prop where
  | halt : ThreadForm .halt true .always {} (fun _ => True) (fun _ t => { t with wst := .halted })
  | haltGuarded (o : GOp) : ThreadForm (.haltGuarded o) true o.g {} (fun _ => True)
      (fun _ t => { t with wst := .halted })
  | doze (o : GA) : ThreadForm (.doze o) false o.g { xs := [o.a] } (fun _ => True)
      (fun i t => if i.a.toNat ≤ i.drip then t else { t with wst := .doze i.a })
  | wait (o : WaitOp) : ThreadForm (.wait o) false o.g {} (fun i => ¬countsMet o i.t)
      (fun i t => { t with wst := .wait o.l o.s o.c o.m i.base.iss.head })
  | fence (o : FenceOp) : ThreadForm (.fence o) false .always {} (fun _ => True)
      (fun i t => t.fenced o.od o.sc (i.base.loadOps i.tid) i.base.nextOp)
  | fenceGuarded (o : FenceGOp) : ThreadForm (.fenceGuarded o) false o.g {} (fun _ => True)
      (fun i t => t.fenced o.od o.sc (i.base.loadOps i.tid) i.base.nextOp)

/-! ### Vector heads that write lanes -/

/-- What a vector head writes: the tag, the first register and the number of registers of its destination
group, the cycles it holds the datapath (R195), whether its rounding counts in SRCTR (R179), each register's
scale file, and each lane's bits and flags. -/
structure Lanes where
  tag : Fmt
  d : VR
  r : Nat
  occ : Nat
  sr : Bool
  sx : Nat → BitVec 256
  f : Nat → Nat × Flags

/-- One register of lanes. -/
def lanes1 (occ : Nat) (tag : Fmt) (d : VR) (sr : Bool) (sx : BitVec 256) (f : Nat → Nat × Flags) : Lanes :=
  ⟨tag, d, 1, occ, sr, fun _ => sx, f⟩

/-- Element `k` of a register of format `ef`, as its bits. -/
def In.elem (i : In) (v : VR) (ef : Fmt) (k : Nat) : Nat := (i.t.regs.rv v).el ef.bits k

/-- Element `k` of a group of `r` registers as an exact value, under its scale (R176, R194). -/
def In.value (i : In) (v : VR) (r : Nat) (ef : Fmt) (k : Nat) : FVal := elVal ef (i.t.regs.gel v r ef.bits k)

/-- Lanes of one format (R199): an exact integer result wrapped, or a floating-point result. -/
def arith (occ : Nat) (d : VR) (srcs : List VR) (ef : Fmt) (sr : In → Bool) (fi : List Int → Int)
    (ff : RM → List Nat → Nat × Flags) (rs : Rs) (i : In) : Lanes :=
  lanes1 occ ef d (sr i) (unitSx ef) (fun k =>
    let xs := srcs.map (fun v => i.elem v ef k)
    if ef.isI then (wrap ef.bits (fi (xs.map (intVal ef))), 0) else ff (i.t.rmLane rs k) xs)

/-- The rounding source of a rounding form resolves to stochastic rounding (R179). -/
def srOf (ef : Fmt) (rs : Rs) (i : In) : Bool := ef.isF && i.t.rmode rs == 6

/-- The tag check of a form whose sources and destination have one format (R175). -/
def sameTags (g : Guard) (d : VR) (srcs : List VR) (ef : Fmt) : Thread → Option Nat :=
  tagPre g ef.count (srcs.map (·, ef)) [d] ef

/-- A floating-point function of two values, rounded once. -/
def fp2Lane (ef : Fmt) (f : RM → FVal → FVal → FVal × Flags) : RM → List Nat → Nat × Flags :=
  viaVal ef (fun r l => f r (f0 l) (f1 l))

/-- The heads that write vector lanes (R199 to R215): guard, registers named, tag check, and what they
write. -/
inductive LaneForm : Instr → Guard → Uses → (Thread → Option Nat) → (In → Lanes) → Prop where
  | vadd (o : VVVr) : LaneForm (.vadd o) o.g (vUses [o.a, o.b] [o.d]) (sameTags o.g o.d [o.a, o.b] o.ef)
      (arith 4 o.d [o.a, o.b] o.ef (srOf o.ef o.rs) (fun l => n0 l + n1 l) (fp2Lane o.ef (fun r a b => a.add r b)) o.rs)
  | vsub (o : VVVr) : LaneForm (.vsub o) o.g (vUses [o.a, o.b] [o.d]) (sameTags o.g o.d [o.a, o.b] o.ef)
      (arith 4 o.d [o.a, o.b] o.ef (srOf o.ef o.rs) (fun l => n0 l - n1 l)
        (fp2Lane o.ef (fun r a b => a.add r b.neg)) o.rs)
  | vmul (o : VVVr) : LaneForm (.vmul o) o.g (vUses [o.a, o.b] [o.d]) (sameTags o.g o.d [o.a, o.b] o.ef)
      (arith (mulOcc o.ef) o.d [o.a, o.b] o.ef (srOf o.ef o.rs) (fun l => n0 l * n1 l)
        (fp2Lane o.ef (fun _ a b => a.mul b)) o.rs)
  | vfma (o : VFmaOp) : LaneForm (.vfma o) o.g (vUses [o.a, o.b, o.c] [o.d])
      (sameTags o.g o.d [o.a, o.b, o.c] o.ef)
      (arith (mulOcc o.ef) o.d [o.a, o.b, o.c] o.ef (srOf o.ef o.rs) (fun l => n0 l * n1 l + n2 l)
        (viaVal o.ef (fun r l => (f0 l).fma r (f1 l) (f2 l))) o.rs)
  | vfms (o : VFmaOp) : LaneForm (.vfms o) o.g (vUses [o.a, o.b, o.c] [o.d])
      (sameTags o.g o.d [o.a, o.b, o.c] o.ef)
      (arith (mulOcc o.ef) o.d [o.a, o.b, o.c] o.ef (srOf o.ef o.rs) (fun l => n0 l * n1 l - n2 l)
        (viaVal o.ef (fun r l => (f0 l).fma r (f1 l) (f2 l).neg)) o.rs)
  | vmin (o : VVV) : LaneForm (.vmin o) o.g (vUses [o.a, o.b] [o.d]) (sameTags o.g o.d [o.a, o.b] o.ef)
      (arith 4 o.d [o.a, o.b] o.ef (fun _ => false) (fun l => min (n0 l) (n1 l))
        (fun _ xs => (Fp.of o.ef).minmax false (xs.getD 0 0) (xs.getD 1 0)) .fm)
  | vmax (o : VVV) : LaneForm (.vmax o) o.g (vUses [o.a, o.b] [o.d]) (sameTags o.g o.d [o.a, o.b] o.ef)
      (arith 4 o.d [o.a, o.b] o.ef (fun _ => false) (fun l => max (n0 l) (n1 l))
        (fun _ xs => (Fp.of o.ef).minmax true (xs.getD 0 0) (xs.getD 1 0)) .fm)
  | vabs (o : VV) : LaneForm (.vabs o) o.g (vUses [o.a] [o.d]) (sameTags o.g o.d [o.a] o.ef)
      (arith 4 o.d [o.a] o.ef (fun _ => false) (fun l => if n0 l < 0 then -(n0 l) else n0 l)
        (fun _ xs => signOnly (Fp.of o.ef) (fun x => x % (Fp.of o.ef).signBit) (xs.getD 0 0)) .fm)
  | vneg (o : VV) : LaneForm (.vneg o) o.g (vUses [o.a] [o.d]) (sameTags o.g o.d [o.a] o.ef)
      (arith 4 o.d [o.a] o.ef (fun _ => false) (fun l => -(n0 l))
        (fun _ xs => signOnly (Fp.of o.ef) (fun x => x ^^^ (Fp.of o.ef).signBit) (xs.getD 0 0)) .fm)
  | vdiv (o : VVVr) : LaneForm (.vdiv o) o.g (vUses [o.a, o.b] [o.d]) (sameTags o.g o.d [o.a, o.b] o.ef)
      (arith 8 o.d [o.a, o.b] o.ef (srOf o.ef o.rs) n0 (fp2Lane o.ef (fun _ a b => a.div b)) o.rs)
  | vsqrt (o : VVr) : LaneForm (.vsqrt o) o.g (vUses [o.a] [o.d]) (sameTags o.g o.d [o.a] o.ef)
      (arith 8 o.d [o.a] o.ef (srOf o.ef o.rs) n0 (viaVal o.ef (fun _ l => (f0 l).sqrt)) o.rs)
  | vrsqrt (o : VV) : LaneForm (.vrsqrt o) o.g (vUses [o.a] [o.d]) (sameTags o.g o.d [o.a] o.ef)
      (arith 8 o.d [o.a] o.ef (fun _ => false) n0 (fun _ xs => fRsqrt o.ef (xs.getD 0 0)) .fm)
  | vrcp (o : VV) : LaneForm (.vrcp o) o.g (vUses [o.a] [o.d]) (sameTags o.g o.d [o.a] o.ef)
      (arith 8 o.d [o.a] o.ef (fun _ => false) n0 (fun _ xs => fRcp o.ef (xs.getD 0 0)) .fm)
  | vexp2 (o : VV) : LaneForm (.vexp2 o) o.g (vUses [o.a] [o.d]) (sameTags o.g o.d [o.a] o.ef)
      (arith 8 o.d [o.a] o.ef (fun _ => false) n0 (fun _ xs => fExp2 o.ef (xs.getD 0 0)) .fm)
  | vlog2 (o : VV) : LaneForm (.vlog2 o) o.g (vUses [o.a] [o.d]) (sameTags o.g o.d [o.a] o.ef)
      (arith 8 o.d [o.a] o.ef (fun _ => false) n0 (fun _ xs => fLog2 o.ef (xs.getD 0 0)) .fm)
  | vcvt (o : VCvtOp) (rs rd : Nat)
      (hr : (rs, rd) = if o.dt.bits < o.st.bits then (fmtRatio o.dt o.st, 1) else (1, fmtRatio o.dt o.st)) :
      LaneForm (.vcvt o) o.g (vUses (grpAll o.a rs) (grpAll o.d rd))
        (tagPre o.g (max o.dt.count o.st.count) ((grpAll o.a rs).map (·, o.st)) (grpAll o.d rd) o.dt)
        (fun i => ⟨o.dt, o.d, rd, 4, !(o.dt.isI && o.st.isI) && i.t.rmode o.rs == 6,
          fun q => i.cvtSx o.g o.a rs o.dt o.st rd q, fun k =>
            if blockNanFmt o.dt && i.badBlock o.g o.a rs o.st false rd (k % rd) (k / rd / 32) then
              (0, flIf (i.value o.a rs o.st k).isNan flNV)
            else convert o.dt o.st o.sat (i.t.rmLane o.rs k) (i.t.regs.gel o.a rs o.st.bits k)⟩)
  | vqnt (o : VQntOp) : LaneForm (.vqnt o) o.g (vUses (grpAll o.a (fmtRatio o.dt o.st)) [o.d])
      (tagPre o.g o.dt.count ((grpAll o.a (fmtRatio o.dt o.st)).map (·, o.st)) [o.d] o.dt)
      (fun i =>
        let r := fmtRatio o.dt o.st
        let sc := (List.range 32).map (fun j => if 32 * j < o.dt.count then i.qntScale o r j else 0)
        lanes1 4 o.dt o.d (i.t.rmode o.rs == 6) (sxOf (fun j => sc.getD j 0)) (fun k =>
          if i.badBlock o.g o.a r o.st true 1 0 (k / 32) then (0, flNV)
          else blockCode o.dt (sc.getD (k / 32) 0) (i.t.rmLane o.rs k) true (i.value o.a r o.st k)))
  | vdqnt (o : VDqntOp) : LaneForm (.vdqnt o) o.g (vUses [o.a, o.b] (grpAll o.d (fmtRatio o.dt o.st)))
      (tagPre o.g o.st.count [(o.a, o.st), (o.b, .f32)] (grpAll o.d (fmtRatio o.dt o.st)) o.dt)
      (fun i => ⟨o.dt, o.d, fmtRatio o.dt o.st, 4, i.t.rmode o.rs == 6, fun _ => unitSx o.dt, fun k =>
        packF o.dt (i.t.rmLane o.rs k) ((i.value o.a 1 o.st k).mul (Fp.f32.val (i.elem o.b .f32 (k / 32))))⟩)
  | vwmul (o : VVVr) (tag : Fmt) (ht : tag = (widened o.ef).getD .none) :
      LaneForm (.vwmul o) o.g (vUses [o.a, o.b] (grpAll o.d 2))
        (tagPre o.g o.ef.count [(o.a, o.ef), (o.b, o.ef)] (grpAll o.d 2) tag)
        (fun i => ⟨tag, o.d, 2, 4, srOf o.ef o.rs i, fun _ => 0, fun k =>
          if o.ef.isI then (wrap tag.bits (intVal o.ef (i.elem o.a o.ef k) * intVal o.ef (i.elem o.b o.ef k)), 0)
          else packF tag (i.t.rmLane o.rs k)
            (((Fp.of o.ef).val (i.elem o.a o.ef k)).mul ((Fp.of o.ef).val (i.elem o.b o.ef k)))⟩)
  | vwadd (o : VVVr) (tag : Fmt) (ht : tag = (widened o.ef).getD .none) :
      LaneForm (.vwadd o) o.g (vUses [o.a, o.b] (grpAll o.d 2))
        (tagPre o.g o.ef.count [(o.a, o.ef), (o.b, o.ef)] (grpAll o.d 2) tag)
        (fun i => ⟨tag, o.d, 2, 4, srOf o.ef o.rs i, fun _ => 0, fun k =>
          if o.ef.isI then (wrap tag.bits (intVal o.ef (i.elem o.a o.ef k) + intVal o.ef (i.elem o.b o.ef k)), 0)
          else packF tag (i.t.rmLane o.rs k)
            (((Fp.of o.ef).val (i.elem o.a o.ef k)).add (i.t.rmLane o.rs k) ((Fp.of o.ef).val (i.elem o.b o.ef k)))⟩)
  | vdot4 (o : VVVr) (tag : Fmt) (r : Nat) (ht : tag = (dot4Tag o.ef).getD .none)
      (hr : r = if o.ef = .sv4 then 2 else 1) :
      LaneForm (.vdot4 o) o.g (vUses ([o.a, o.b] ++ grpAll o.d r) (grpAll o.d r))
        (tagPre o.g (o.ef.count / 4) ([(o.a, o.ef), (o.b, o.ef)] ++ (grpAll o.d r).map (·, tag)) (grpAll o.d r) tag)
        (fun i => ⟨tag, o.d, r, 4, !o.ef.isI && i.t.rmode o.rs == 6, fun _ => 0, fun k =>
          let d := (i.t.regs.gel o.d r 32 k).1
          if o.ef.isI then
            (wrap 32 ((List.range 4).foldl (fun s j =>
              s + intVal o.ef (i.t.regs.gel o.a 1 o.ef.bits (4 * k + j)).1
                * intVal o.ef (i.t.regs.gel o.b 1 o.ef.bits (4 * k + j)).1) (intVal tag d)), 0)
          else packF .f32 (i.t.rmLane o.rs k) ((List.range 4).foldl (fun (s : FVal × Flags) j =>
            let m := (i.value o.a 1 o.ef (4 * k + j)).mul (i.value o.b 1 o.ef (4 * k + j))
            let q := s.1.add (i.t.rmLane o.rs k) m.1
            (q.1, s.2 ||| m.2 ||| q.2)) (Fp.f32.val d, 0))⟩)
  | vreds (o : VVr) : LaneForm (.vreds o) o.g (vUses [o.a] [o.d]) (sameTags o.g o.d [o.a] o.ef) (fun i =>
      lanes1 8 o.ef o.d (srOf o.ef o.rs i) (unitSx o.ef) (fun _ =>
        tree (fun t k x y => sumOp o.ef (i.t.rmLane o.rs (1024 * t + k)) x y) (Nat.log2 o.ef.count) 0
          (i.redSrc o.g o.a o.ef (sumId o.ef)) 0))
  | vredm (o : VRedmOp) : LaneForm (.vredm o) o.g (vUses [o.a] [o.d]) (sameTags o.g o.d [o.a] o.ef) (fun i =>
      lanes1 8 o.ef o.d false (unitSx o.ef) (fun _ =>
        tree (fun _ _ x y =>
            if o.ef.isI then (if decide (intVal o.ef x < intVal o.ef y) == o.min then x else y, 0)
            else (Fp.of o.ef).minmax (!o.min) x y) (Nat.log2 o.ef.count) 0
          (i.redSrc o.g o.a o.ef (mmId o.ef o.min)) 0))
  | vscan (o : VVr) : LaneForm (.vscan o) o.g (vUses [o.a] [o.d]) (sameTags o.g o.d [o.a] o.ef) (fun i =>
      lanes1 8 o.ef o.d (srOf o.ef o.rs i) (unitSx o.ef) (fun k =>
        (scanFrom (fun k acc x =>
          if k = 0 then
            if o.ef.isF && ((Fp.of o.ef).val x).isNan then ((Fp.of o.ef).nan, sigNV [(Fp.of o.ef).val x]) else (x, 0)
          else sumOp o.ef (i.t.rmLane o.rs k) acc x) 0 0 (i.redSrc o.g o.a o.ef (sumId o.ef))).getD k (0, 0)))
  | vsel (o : VSelOp) : LaneForm (.vsel o) o.g { vs := [o.a, o.b], vd := [o.d], ks := [o.k] }
      (sameTags o.g o.d [o.a, o.b] o.ef) (fun i => lanes1 4 o.ef o.d false (unitSx o.ef) (fun k =>
        (i.elem (if bit (i.t.regs.rk o.k) k then o.a else o.b) o.ef k, 0)))
  | vand (o : VLogOp) : LaneForm (.vand o) o.g (vUses (o.a :: vregOf o.b) [o.d])
      (anyPre o.g o.ef.count (o.a :: vregOf o.b) [o.d] o.ef) (fun i =>
        lanes1 4 o.ef o.d false (keepSx (i.t.regs.rv o.a) o.ef) (fun k =>
          (i.elem o.a o.ef k &&& i.t.regs.lane2 o.b o.ef.bits k, 0)))
  | vor (o : VLogOp) : LaneForm (.vor o) o.g (vUses (o.a :: vregOf o.b) [o.d])
      (anyPre o.g o.ef.count (o.a :: vregOf o.b) [o.d] o.ef) (fun i =>
        lanes1 4 o.ef o.d false (keepSx (i.t.regs.rv o.a) o.ef) (fun k =>
          (i.elem o.a o.ef k ||| i.t.regs.lane2 o.b o.ef.bits k, 0)))
  | vxor (o : VLogOp) : LaneForm (.vxor o) o.g (vUses (o.a :: vregOf o.b) [o.d])
      (anyPre o.g o.ef.count (o.a :: vregOf o.b) [o.d] o.ef) (fun i =>
        lanes1 4 o.ef o.d false (keepSx (i.t.regs.rv o.a) o.ef) (fun k =>
          (i.elem o.a o.ef k ^^^ i.t.regs.lane2 o.b o.ef.bits k, 0)))
  | vnot (o : VV) : LaneForm (.vnot o) o.g (vUses [o.a] [o.d]) (anyPre o.g o.ef.count [o.a] [o.d] o.ef) (fun i =>
        lanes1 4 o.ef o.d false (keepSx (i.t.regs.rv o.a) o.ef) (fun k => (2 ^ o.ef.bits - 1 - i.elem o.a o.ef k, 0)))
  | vshl (o : VLogOp) : LaneForm (.vshl o) o.g (vUses (o.a :: vregOf o.b) [o.d])
      (sameTags o.g o.d (o.a :: vregOf o.b) o.ef) (fun i => lanes1 4 o.ef o.d false 0 (fun k =>
        (i.elem o.a o.ef k * 2 ^ (i.t.regs.lane2 o.b o.ef.bits k % o.ef.bits), 0)))
  | vshr (o : VLogOp) : LaneForm (.vshr o) o.g (vUses (o.a :: vregOf o.b) [o.d])
      (sameTags o.g o.d (o.a :: vregOf o.b) o.ef) (fun i => lanes1 4 o.ef o.d false 0 (fun k =>
        (i.elem o.a o.ef k / 2 ^ (i.t.regs.lane2 o.b o.ef.bits k % o.ef.bits), 0)))
  | vsra (o : VLogOp) : LaneForm (.vsra o) o.g (vUses (o.a :: vregOf o.b) [o.d])
      (sameTags o.g o.d (o.a :: vregOf o.b) o.ef) (fun i => lanes1 4 o.ef o.d false 0 (fun k =>
        (((BitVec.ofNat o.ef.bits (i.elem o.a o.ef k)).sshiftRight
          (i.t.regs.lane2 o.b o.ef.bits k % o.ef.bits)).toNat, 0)))
  | viota (o : ViotaOp) : LaneForm (.viota o) o.g { xs := [o.a], vd := [o.d] }
      (tagPre o.g o.ef.count [] [o.d] o.ef) (fun i => lanes1 4 o.ef o.d false 0 (fun k =>
        (wrap o.ef.bits (i.a.toInt + k * (match o.step with
          | some n => n.toInt
          | none => 1)), 0)))
  | vbcast (o : VbcastOp) : LaneForm (.vbcast o) o.g { xs := regOf o.a, vd := [o.d] }
      (tagPre o.g o.ef.count [] [o.d] o.ef) (fun i => lanes1 4 o.ef o.d false 0 (fun _ =>
        ((immOr o.a i.a).toNat, 0)))
  | vslide (o : VslideOp) : LaneForm (.vslide o) o.g { xs := regOf o.b, vs := [o.a], vd := [o.d] }
      (sameTags o.g o.d [o.a] o.ef) (fun i => lanes1 4 o.ef o.d false 0 (fun k =>
        let j : Int := (k : Int) + (immOr o.b i.a).toInt
        if 0 ≤ j ∧ j < o.ef.count then (i.elem o.a o.ef j.toNat, 0) else (0, 0)))
  | vperm (o : VVV) (r : Nat) (hr : r = if o.ef.count = 512 then 2 else 1) :
      LaneForm (.vperm o) o.g (vUses (o.a :: grpAll o.b r) [o.d])
        (tagPre o.g o.ef.count ((o.a, o.ef) :: (grpAll o.b r).map (·, .n16)) [o.d] o.ef) (fun i =>
        lanes1 8 o.ef o.d false 0 (fun k =>
          (i.elem o.a o.ef ((i.t.regs.gel o.b r 16 k).1 % o.ef.count), 0)))
  | vzip (o : VzipOp) : LaneForm (.vzip o) o.g (vUses [o.a, o.b] [o.d]) (sameTags o.g o.d [o.a, o.b] o.ef) (fun i =>
      lanes1 4 o.ef o.d false 0 (fun k =>
        (i.elem (if k % 2 = 0 then o.a else o.b) o.ef (b2n o.h * (o.ef.count / 2) + k / 2), 0)))
  | vunzip (o : VzipOp) : LaneForm (.vunzip o) o.g (vUses [o.a, o.b] [o.d]) (sameTags o.g o.d [o.a, o.b] o.ef)
      (fun i => lanes1 4 o.ef o.d false 0 (fun k =>
        if k < o.ef.count / 2 then (i.elem o.a o.ef (2 * k + b2n o.h), 0)
        else (i.elem o.b o.ef (2 * (k - o.ef.count / 2) + b2n o.h), 0)))
  | vclass (o : VV) (tag : Fmt) (ht : tag = if o.ef = .f32 then .n32 else .n16) :
      LaneForm (.vclass o) o.g (vUses [o.a] [o.d]) (tagPre o.g o.ef.count [(o.a, o.ef)] [o.d] tag) (fun i =>
        lanes1 4 tag o.d false 0 (fun k => ((Fp.of o.ef).cls (i.elem o.a o.ef k), 0)))
  | vrand (o : VrandOp) : LaneForm (.vrand o) o.g (vUses [] [o.d]) (tagPre o.g o.ef.count [] [o.d] o.ef) (fun i =>
      lanes1 4 o.ef o.d true 0 (fun k =>
        let h := srHash i.t.srseed i.t.srctr k
        if o.ef = .f32 then (Fp.f32.roundFin RM.rne false false (h / 256) (-24)) else (h, 0)))

/-- What a lane of a destination group holds after the head (R193): the result in an active lane, the old
bits in an inactive one. -/
def Lanes.holds (l : Lanes) (g : Guard) (i : In) (x : Regs) : Prop :=
  ∀ q < l.r, (x.rv (grp l.d q)).tag = l.tag ∧ (x.rv (grp l.d q)).sx = l.sx q
    ∧ ∀ p < l.tag.count, (x.rv (grp l.d q)).el l.tag.bits p =
      if laneOn g i.t (p * l.r + q) then (l.f (p * l.r + q)).1 % 2 ^ l.tag.bits
      else (i.t.regs.rv (grp l.d q)).el l.tag.bits p

/-! ### Heads that access memory -/

/-- One global address passes the checks of R78 and R277, and translates for its access kind to a place. -/
structure Reaches (i : In) (k : AccK) (va : Word) (align : Nat) (leaf : Word) (place : Nat) : Prop where
  aligned : va.toNat % align = 0
  form : formOk va = true
  placed : i.base.translate i.core i.t.ctx va k = some (leaf, place)
  there : keyOk place = true

/-- What a load or store head does at its addresses: what it loads and where to, or the bytes it stores. -/
inductive Access where
  | load (sc : Scope) (acq exact : Bool) (major minor : Nat) (tgt : LoadTo) (els : List VEl)
  /-- `split`: the places of elements that lie in two lines. -/
  | store (sc : Scope) (rel exact : Bool) (major minor : Nat) (bs : List VB) (split : List Word)

/-- A scalar load: one element at `ea`, extended by sg (R80). -/
def scalarLoad (sp : Space) (sc : Scope) (acq : Bool) (major : Nat) (d : Reg) (w : Width) (s : Sign) (ea : Word) :
    Access :=
  .load sc acq (w == .w) major 0 (if sp = .glob then { px := some d } else {}) [⟨ea, 0, w.bits, s == .sx, 0, .x d⟩]

/-- The parts of a VLD at `ea`: the active lanes of the image, then its scale bytes (R284, Table 14-3). -/
def imageLoad (i : In) (o : VMemOp) : List VEl :=
  (i.active o.g o.ef).flatMap (fun k => (imageParts o.ef k).map (fun p =>
      ⟨i.ea o.off + wd64 p.1, p.2.1, p.2.2.1, false, 2 * k, .lane o.v k o.ef.bits p.2.2.2⟩))
    ++ (if scaleAt o.ef o.b then i.blocks o.g o.ef else []).map (fun j =>
      ⟨i.b + wd64 j, 0, 8, false, 64 * j + 1, .scale o.v j⟩)

/-- The scales a VLD without a scale address gives its active blocks. -/
def imageUnit (i : In) (o : VMemOp) : List (Dest × Nat) :=
  (if scaleAt o.ef o.b then [] else if o.ef.hasScales then i.blocks o.g o.ef else []).map (fun j =>
    (Dest.scale o.v j, bits (unitSx o.ef) (8 * j) 8))

/-- The bytes a VST at `ea` stores. -/
def imageStore (i : In) (o : VMemOp) : List VB :=
  (i.active o.g o.ef).flatMap (fun k =>
      (imageParts o.ef k).flatMap (fun p => partBytes (i.ea o.off) p ((i.t.regs.rv o.v).el o.ef.bits k)))
    ++ (if scaleAt o.ef o.b then i.blocks o.g o.ef else []).map (fun j =>
      ⟨i.b + wd64 j, 0xFF, BitVec.ofNat 8 ((i.t.regs.rv o.v).sb j)⟩)

/-- What a VLD or VST has checked of its addresses. -/
def imageAll (i : In) (o : VMemOp) : List (Word × Nat × Nat) :=
  imageChecks o.ef (i.ea o.off) (i.active o.g o.ef)
    ++ (if scaleAt o.ef o.b then i.blocks o.g o.ef else []).map (fun j => (i.b + wd64 j, 1, 1))

/-- Elements at addresses of their own (R285, R286). -/
def spreadLoad (i : In) (g : Guard) (v : VR) (ef : Fmt) (sc : Scope) (acq : Bool) (minor : Nat)
    (addr : Nat → Word) : Access :=
  .load sc acq (ef == .f32) 0x14 minor { pv := some v, fmt := ef }
    ((i.active g ef).map (fun k => ⟨addr k, 0, ef.bits, false, 2 * k, .lane v k ef.bits 0⟩))

/-- Their checks. -/
def spreadAll (i : In) (g : Guard) (ef : Fmt) (addr : Nat → Word) : List (Word × Nat × Nat) :=
  (i.active g ef).map (fun k => (addr k, ef.bits / 8, ef.bits / 8))

/-- The load and store heads (R80, R81, R280, R284 to R287): lanes, guard, registers, tag check, address
space, the addresses with sizes and alignments that R78 checks, and the access. -/
inductive AccessForm : Instr → Bool → Guard → Uses → (Thread → Option Nat) → Space →
    (In → List (Word × Nat × Nat)) → (In → Access) → Prop where
  | ld (o : LdOp) : AccessForm (.ld o) false o.g (ldUses o.sp o.d o.a) (fun _ => none) o.sp
      (fun i => [(i.ea o.off, o.w.bytes, o.w.bytes)])
      (fun i => scalarLoad o.sp o.sc false 0x10 o.d o.w o.s (i.ea o.off))
  | st (o : StOp) : AccessForm (.st o) false o.g { xs := [o.a, o.d] } (fun _ => none) o.sp
      (fun i => [(i.ea o.off, o.w.bytes, o.w.bytes)])
      (fun i => .store o.sc false (o.w == .w) 0x11 0 (vbytes (i.ea o.off) o.w.bytes i.b.toNat) [])
  | ldaq (o : LdaqOp) : AccessForm (.ldaq o) false o.g (ldUses .glob o.d o.a) (fun _ => none) .glob
      (fun i => [(i.ea o.off, o.w.bytes, o.w.bytes)])
      (fun i => scalarLoad .glob o.sc true 0x12 o.d o.w o.s (i.ea o.off))
  | strl (o : StrlOp) : AccessForm (.strl o) false o.g { xs := [o.a, o.d] } (fun _ => none) .glob
      (fun i => [(i.ea o.off, o.w.bytes, o.w.bytes)])
      (fun i => .store o.sc true (o.w == .w) 0x13 0 (vbytes (i.ea o.off) o.w.bytes i.b.toNat) [])
  | vld (o : VMemOp) : AccessForm (.vld o) true o.g
      { xs := if scaleAt o.ef o.b then [o.a, o.b] else [o.a], vd := [o.v] } (tagPre o.g o.ef.count [] [o.v] o.ef) o.sp
      (fun i => imageAll i o)
      (fun i => .load o.sc o.ord (o.ef == .f32) 0x14 0 { pv := some o.v, fmt := o.ef, init := imageUnit i o } (imageLoad i o))
  | vlds (o : VMemOp) : AccessForm (.vlds o) true o.g { xs := [o.a, o.b], vd := [o.v] }
      (tagPre o.g o.ef.count [] [o.v] o.ef) o.sp (fun i => spreadAll i o.g o.ef (fun k => i.ea o.off + wd64 k * i.b))
      (fun i => spreadLoad i o.g o.v o.ef o.sc o.ord 1 (fun k => i.ea o.off + wd64 k * i.b))
  | vgth (o : VIdxOp) : AccessForm (.vgth o) true o.g { xs := [o.a], vs := idxGroup o.b o.ef, vd := [o.v] }
      (tagPre o.g o.ef.count ((idxGroup o.b o.ef).map (·, Fmt.s32)) [o.v] o.ef) o.sp
      (fun i => spreadAll i o.g o.ef (fun k => i.ea o.off + i.index o.b o.ef k))
      (fun i => spreadLoad i o.g o.v o.ef o.sc o.ord 2 (fun k => i.ea o.off + i.index o.b o.ef k))
  | vst (o : VMemOp) : AccessForm (.vst o) true o.g
      { xs := if scaleAt o.ef o.b then [o.a, o.b] else [o.a], vs := [o.v] }
      (tagPre o.g o.ef.count [(o.v, o.ef)] [] o.ef) o.sp (fun i => imageAll i o)
      (fun i => .store o.sc o.ord (o.ef == .f32) 0x15 0 (imageStore i o) (splitAt o.ef (i.ea o.off) (i.active o.g o.ef)))
  | vsct (o : VIdxOp) : AccessForm (.vsct o) true o.g { xs := [o.a], vs := o.v :: idxGroup o.b o.ef }
      (tagPre o.g o.ef.count ((o.v, o.ef) :: (idxGroup o.b o.ef).map (·, Fmt.s32)) [] o.ef) o.sp
      (fun i => spreadAll i o.g o.ef (fun k => i.ea o.off + i.index o.b o.ef k))
      (fun i => .store o.sc o.ord (o.ef == .f32) 0x15 1 ((i.active o.g o.ef).flatMap (fun k =>
        vbytes (i.ea o.off + i.index o.b o.ef k) (o.ef.bits / 8) ((i.t.regs.rv o.v).el o.ef.bits k))) [])

/-- A part of a load at its place. -/
def VEl.at (e : VEl) (p : Nat) : El := ⟨p, e.lo, e.n, e.sg, e.rank, e.dest⟩

/-- A byte of a store at its place. -/
def VB.at (b : VB) (p : Nat) : MByte := ⟨p, b.mask, b.val⟩

/-- The live L1 copy that serves a piece: at a scope inside the core, of elements that lie in one line (R261, R288). -/
def In.l1Hit (i : In) (sc : Scope) (pcs : List (PKey × List El)) (q : PKey × List El) : Option L1E :=
  if (sc = .slot ∨ sc = .core) ∧ sharesEl pcs q = false then (i.base.core i.core).entry q.1.line i.drip else none

/-- A global load that may issue: no older acquire or full fence holds it, its parts translate, and L has room (R26,
R280, R281). -/
structure LoadReady (i : In) (els : List VEl) (pcs : List (PKey × List El)) : Prop where
  ordered : i.ordered true = true
  parts : i.parts .read VEl.va VEl.at els [] = .ok pcs
  room : i.room true 1 = true

/-- The access of one piece of a load. -/
def In.loadAcc (i : In) (sc : Scope) (exact : Bool) (major minor : Nat) (q : PKey × List El) : Acc :=
  i.acc (.load q.2) q.1 i.dev.nextOp 0 sc exact false major minor .travelling

/-- The module with a load's operation open: `n` pieces that L counts as one, its pending bits set, and the hold of
an acquire (R25, R280). -/
def In.loadOpen (i : In) (n : Nat) (acq : Bool) (tgt : LoadTo) : Dev :=
  (((i.dev.openOp i.tid n true tgt.px tgt.pv none).1).setOp i.dev.nextOp tgt.fmt tgt.init).holdFor i.tid i.dev.nextOp acq

/-- The module once a global load has been sent: each piece is served at the core from the copy that serves it, or
goes to its home (R79, R83, R261). -/
def In.loadSent (i : In) (sc : Scope) (acq exact : Bool) (major minor : Nat) (tgt : LoadTo)
    (pcs : List (PKey × List El)) : Dev :=
  i.samples pcs (pcs.foldl (fun d q => d.sendPiece i.drip
    { i.loadAcc sc exact major minor q with joint := sharesEl pcs q } (i.l1Hit sc pcs q)) (i.loadOpen pcs.length acq tgt))

/-- The module once the store buffer has given a load all its bits: each piece has its data at the core, and the
stores that gave them stand behind the loads before it (R82, R83). -/
def In.forwarded (i : In) (sc : Scope) (acq exact : Bool) (major minor : Nat) (tgt : LoadTo)
    (pcs : List (PKey × List El)) (f : List (Nat × Byte)) : Dev :=
  let d := i.loadOpen pcs.length acq tgt
  i.samples pcs (pcs.foldl (fun d q => d.coreData i.drip (i.loadAcc sc exact major minor q) (fun a => look 0 a f))
    (d.setCore i.core ((d.core i.core).forwarded (pcs.flatMap Prod.snd) i.dev.nextOp)))

/-- A posted access may enter the store buffer (R82): S and the buffer have room. -/
def In.canPost (i : In) (n : Nat) : Prop := i.room false 1 = true ∧ i.sbRoom n = true

/-- The order of a posted access leaves it waiting for older stores: a release at a scope beyond the core, or any
behind a releasing fence with older stores out (R269, R281). -/
def In.waitsOlder (i : In) (rel : Bool) (sc : Scope) : Bool :=
  (rel && decide (sc ≠ .slot ∧ sc ≠ .core)) || i.base.storesBelow i.tid i.core i.t.fenceRel

/-- The module once a posted access has entered the store buffer: one operation that S counts, and one entry
for each piece, those of a split element joined (R82, R288). -/
def In.posted (i : In) (pcs : List (PKey × AccOp)) (sc : Scope) (rel exact : Bool) (major minor : Nat)
    (split : List Word) : Dev :=
  ((i.dev.openOp i.tid pcs.length false none none none).1).pushSb i.core (pcs.map (fun q =>
    { i.acc q.2 q.1 i.dev.nextOp 0 sc exact (i.waitsOlder rel sc) major minor .travelling with
      joint := split.any (fun a => a &&& ~~~(127 : Word) == q.1.va) }))

/-- The bytes that a near store leaves, in order: each under its mask, over what the byte held (R37). -/
def nearBytes (m : Memory) (base : Nat) (bs : List VB) : List (Nat × Byte) :=
  bs.foldl (fun w b =>
    let a := base + b.va.toNat
    let old := (w.reverse.find? (fun p => p.1 = a)).map Prod.snd
    w ++ [(a, ((old.getD (m.read a)) &&& ~~~b.mask) ||| (b.val &&& b.mask))]) []

/-- A posted access of one place (R247, R293, R299). -/
structure Post where
  key : PKey
  op : AccOp
  sc : Scope
  rel : Bool
  exact : Bool
  major : Nat
  minor : Nat
  /-- It is sampled for the heat of its region (R339). -/
  heat : Bool
  /-- The bundle that it is under (R247). -/
  bun : Option Word

/-- The posted heads of one place: mode, guard, registers, check, condition, and the access. -/
inductive PostForm : Instr → Guard → Uses → (Thread → Option Nat) → (In → Prop) → (In → Post) → Prop where
  | atomx (o : AtomxOp) (l : Word) (p : Nat) : PostForm (.atomx o) o.g { xs := [o.a, o.b] } (fun _ => none)
      (fun i => Reaches i .atomic i.a 4 l p)
      (fun i => ⟨onePiece i.a l p, .atomx p (i.b.truncate 32), o.sc, o.rel, true, 0x17, 0, true, none⟩)
  | tagst (o : AB) (l : Word) (p : Nat) : PostForm (.tagst o) o.g { xs := [o.a, o.b] } (fun _ => none)
      (fun i => Reaches i .write i.a 32 l p)
      (fun i => ⟨{ onePiece i.a l p with tag := false }, .tagst p (i.b.truncate 4), .sys, false, false, 0x2E, 0, false, none⟩)
  | psend (o : PsendOp) : PostForm (.psend o) o.g { xs := o.a :: o.b :: immRegs o.c } (fun _ => none)
      (fun i => hKind i.a = 4 ∧ i.b.toNat % 8 = 0)
      (fun i => ⟨⟨0, pathLine i.a, false, false⟩, .psend i.a i.b (immValue o.c i.c), .sys, false, false, 0x2A, 1, false, none⟩)
  | bst (o : BstOp) (l : Word) (p : Nat) : PostForm (.bst o) o.g { xs := [o.a, o.b, o.c] } (fun _ => none)
      (fun i => hKind i.a = 9 ∧ Reaches i .write (i.b + o.off.signExtend 64) 8 l p)
      (fun i => ⟨onePiece (i.b + o.off.signExtend 64) l p,
        .bst i.a ((List.range 8).map (fun j => ⟨p + j, 0xFF, byteOf i.c.toNat j⟩)), .sys, false, false, 0x2C, 1, true, some i.a⟩)
  | bstVector (o : BstVOp) (l : Word) (p n : Nat) (hn : n = 16 * 2 ^ o.size.code) :
      PostForm (.bstVector o) o.g { xs := [o.a, o.b], vs := [o.v] }
      (fun t => if (t.regs.rv o.v).tag = .none then some Cause.formatTag else none)
      (fun i => hKind i.a = 9 ∧ Reaches i .write (i.b + o.off.signExtend 64) n l p)
      (fun i => ⟨onePiece (i.b + o.off.signExtend 64) l p, .bst i.a ((List.range n).map (fun j =>
        ⟨p + j, 0xFF, byteOf ((i.t.regs.rv o.v).bits.toNat % 2 ^ (8 * n)) j⟩)), .sys, false, false, 0x2C, 1, true, some i.a⟩)

/-- The loads that are always served at their home: mode, registers, condition, the thread's change, the
access kind, address, place, bytes watched in the buffer, destinations, codes and operation (R250, R297,
R299). -/
structure HomeLoad where
  key : PKey
  at' : Nat
  n : Nat
  d : Reg
  kp : Option KP
  major : Nat
  minor : Nat
  op : AccOp

/-- The heads of such loads. -/
inductive HomeLoadForm : Instr → Bool → Guard → Uses → (In → Prop) → (In → Thread → Thread) → (In → HomeLoad) →
    Prop where
  | bld (o : BldOp) (l : Word) (p : Nat) : HomeLoadForm (.bld o) false o.g
      { xs := [o.a], late := some o.d, kd := [kpLo o.kp, kpHi o.kp] }
      (fun i => Reaches i .read (i.a + o.off.signExtend 64) 8 l p) (fun _ => id)
      (fun i => ⟨onePiece (i.a + o.off.signExtend 64) l p, p, 8, o.d, some o.kp, 0x2C, 4,
        .bld p o.d o.kp i.t.view.toNat⟩)
  | tagld (o : RR) (l : Word) (p : Nat) : HomeLoadForm (.tagld o) false o.g { xs := [o.a], late := some o.d }
      (fun i => Reaches i .read i.a 1 l p ∧ ∀ e ∈ (i.base.core i.core).sb, ∀ h v, e.op = .tagst h v → h ≠ p / 32 * 32)
      (fun _ => id)
      (fun i => ⟨{ onePiece i.a l p with tag := false }, p / 32 * 32, 0, o.d, none, 0x2E, 1,
        .tagld (p / 32 * 32) i.a o.d⟩)
  | mcsld (o : RR) (l : Word) (p : Nat) : HomeLoadForm (.mcsld o) true o.g { xs := [o.a], late := some o.d }
      (fun i => Reaches i .read i.a 8 l p ∧ leafAper l = 0xFE
        ∧ (i.t.mcsLines.contains (lineOf p) = true ∨ i.t.mcsLines.length < 4))
      (fun _ t => { t with mcsLines := if t.mcsLines.contains (lineOf p) then t.mcsLines else t.mcsLines ++ [lineOf p] })
      (fun i => ⟨onePiece i.a l p, p, 8, o.d, none, 0x2D, 0, .mcsld p o.d⟩)

/-! ### Heads that ask, command, or push -/

/-- A handle operand names a lease of one of some kinds (R97, R104). -/
def goodHandle (h : Word) (kinds : List Nat) : Prop := hKind h ∈ kinds

/-- Every kind of Table 6-2. -/
def allKinds : List Nat := [1, 2, 3, 4, 5, 6, 7, 8, 9, 10]

/-- A queue or gate's answer comes later: the heads that send one request and wait for its reply word (R96):
mode, guard, registers, condition, destination, request. -/
inductive RequestForm : Instr → Bool → Guard → Uses → (In → Prop) → Reg → (In → Req) → Prop where
  | lrenew (o : DurOp) (n : Nat) : RequestForm (.lrenew o) false o.g { xs := o.a :: durRegs o.dur, late := some o.d }
      (fun i => goodHandle i.a [1, 2, 4, 5, 6, 7, 8, 9, 10] ∧ duration (durValue o.dur i.b) = some n) o.d
      (fun i => .renew i.a n)
  | llife (o : RR) : RequestForm (.llife o) false o.g { xs := [o.a], late := some o.d }
      (fun i => goodHandle i.a [1, 2, 4, 5, 6, 7, 8, 9, 10]) o.d (fun i => .life i.a)
  | ltether (o : RRRx) : RequestForm (.ltether o) false o.g { xs := [o.a, o.b], late := some o.d }
      (fun i => goodHandle i.a [1, 2, 4, 6, 7, 8, 9, 10] ∧ goodHandle i.b allKinds) o.d (fun i => .tether i.a i.b 1 0)
  | linfo (o : LinfoOp) : RequestForm (.linfo o) false o.g { xs := [o.a], late := some o.d }
      (fun i => goodHandle i.a allKinds) o.d (fun i => .info i.a o.rec1)
  | lheld (o : RR) : RequestForm (.lheld o) false o.g { xs := [o.a], late := some o.d }
      (fun i => goodHandle i.a [2]) o.d (fun i => .lheld i.a)
  | binit (o : DurOp) (n : Nat) : RequestForm (.binit o) false o.g { xs := o.a :: durRegs o.dur, late := some o.d }
      (fun i => binitOk i.a (i.ident .bsize) = true ∧ duration (durValue o.dur i.b) = some n
        ∧ bits i.a 16 9 ≤ bits i.a 8 8 - bits i.a 0 8 + 1) o.d (fun i => .binit i.a n i.t.blk)
  | barv (o : BarvOp) : RequestForm (.barv o) false o.g { xs := [o.a], late := some o.d }
      (fun i => goodHandle i.a [3] ∧ i.t.acq = []) o.d
      (fun i => .barv i.a (i.ident .bidx) i.t.blk (decide (o.sc ≠ .slot ∧ o.sc ≠ .core)))
  | badd (o : BaddOp) : RequestForm (.badd o) false o.g { xs := o.a :: immRegs o.n, late := some o.d }
      (fun i => goodHandle i.a [3] ∧ ((immValue o.n i.b).truncate 56).signExtend 64 = immValue o.n i.b ∧ i.t.acq = [])
      o.d (fun i => .badd i.a (immValue o.n i.b).toInt (decide (o.sc ≠ .slot ∧ o.sc ≠ .core)))
  | popen (o : RRRx) (n : Option Nat) : RequestForm (.popen o) false o.g
      { xs := if o.b.val = 0 then [o.a] else [o.a, o.b], late := some o.d }
      (fun i => goodHandle i.a [1] ∧ n = (if o.b.val = 0 then none else duration (i.b.toNat % 65536))
        ∧ (o.b.val = 0 ∨ n ≠ none)) o.d (fun i => .popen i.a n)
  | gate (o : RRRR) : RequestForm (.gate o) false o.g { xs := [o.a, o.b, o.c], late := some o.d }
      (fun i => goodHandle i.a [7] ∧ i.b.toNat < 65536) o.d (fun i => .gate i.a i.b.toNat i.c)
  | alloc (o : RR) (l l' : Word) (p : Nat) : RequestForm (.alloc o) false o.g { xs := [o.a], late := some o.d }
      (fun i => Reaches i .read i.a 32 l' p ∧ Reaches i .write i.a 32 l p) o.d (fun i => .alloc p i.a)
  | bopen (o : RRI) (l : Word) (p n r : Nat) : RequestForm (.bopen o) false o.g
      { xs := o.a :: immRegs o.b, late := some o.d }
      (fun i => Reaches i .write i.a 128 l p ∧ duration (bits (immValue o.b i.b) 0 16) = some n
        ∧ duration (bits (immValue o.b i.b) 16 16) = some r) o.d (fun i => .bopen p i.a n r)
  | bseal (o : RR) : RequestForm (.bseal o) false o.g { xs := [o.a], late := some o.d }
      (fun i => goodHandle i.a [9]) o.d (fun i => .bseal i.a)
  | bchk (o : RRI) (l : Word) (p : Nat) : RequestForm (.bchk o) false o.g
      { xs := o.a :: immRegs o.b, late := some o.d }
      (fun i => Reaches i .read i.a 128 l p ∧ (immValue o.b i.b).toNat < 64) o.d
      (fun i => .bchk p (immValue o.b i.b).toNat)
  | launch (o : RR) (l : Word) (p : Nat) : RequestForm (.launch o) false o.g { xs := [o.a], late := some o.d }
      (fun i => Reaches i .read i.a 128 l p) o.d (fun i => .launch i.a)
  | point (o : RRRx) : RequestForm (.point o) false o.g { xs := [o.a, o.b], late := some o.d }
      (fun i => goodHandle i.a [10]) o.d (fun i => .point i.a i.b)
  | frrd (o : RRI) : RequestForm (.frrd o) false o.g { xs := o.a :: immRegs o.b, late := some o.d }
      (fun i => goodHandle i.a [10]) o.d (fun i => .frrd i.a (immValue o.b i.b))
  | amsg (o : RRRR) : RequestForm (.amsg o) false o.g
      { xs := [o.a, o.b, o.c, ⟨(o.c.val + 1) % 32, Nat.mod_lt _ (by decide)⟩], late := some o.d }
      (fun i => targetOk i.a = true) o.d (fun i => .amsg i.a i.b i.c (i.vals.getD 3 0))
  | tlbi (o : TlbiOp) : RequestForm (.tlbi o) true o.g { xs := if o.op = .va then [o.a] else [], late := some o.d }
      (fun _ => o.op = .tent → o.n.toNat ≤ 255) o.d
      (fun i => .tlbi o.op (if o.op = .va then i.a else 0) o.n.toNat)
  | wakeRec (o : RR) : RequestForm (.wakeRec o) true o.g { xs := [o.a], late := some o.d } (fun _ => True) o.d
      (fun i => .wakeRec i.a.toNat)
  | wakeFail (o : RR) : RequestForm (.wakeFail o) true o.g { xs := [o.a], late := some o.d } (fun _ => True) o.d
      (fun i => .wakeFail i.a.toNat)
  | wakeSlot (o : RR) : RequestForm (.wakeSlot o) true o.g { xs := [o.a], late := some o.d }
      (fun i => targetOk i.a = true) o.d (fun i => .wakeSlot (bits i.a 0 11) (bits i.a 12 4))
  | wakeStop (o : RR) : RequestForm (.wakeStop o) true o.g { xs := [o.a], late := some o.d }
      (fun i => targetOk i.a = true) o.d (fun i => .wakeStop (bits i.a 0 11) (bits i.a 12 4))
  | ctxsv (o : CtxOp) (l : List (PKey × List Nat)) : RequestForm (.ctxsv o) true o.g
      { xs := [o.a], late := some o.d }
      (fun i => o.n.val ≠ i.slot ∧ addrCheck .glob 0 [(i.a, imageSize, 128)] = none ∧ i.imageLines .write = .ok l) o.d
      (fun _ => .ctxsv o.n.val (l.flatMap Prod.snd))
  | mlease (o : MleaseOp) (n : Nat) : RequestForm (.mlease o) false o.g { xs := durRegs o.dur, late := some o.d }
      (fun i => duration (durValue o.dur i.a) = some n) o.d (fun i => .array (coreClus i.core) n)
  | mstat (o : MstatOp) : RequestForm (.mstat o) false o.g { late := some o.d } (fun _ => True) o.d
      (fun i => .mstat (coreClus i.core) o.sel)
  | mcsstCommit (o : RRRx) : RequestForm (.mcsstCommit o) true o.g { xs := [o.a, o.b], late := some o.d }
      (fun i => i.t.mcsLines = [] ∧ i.ordered false = true) o.d (fun _ => .mcs)

/-- The requests that the core itself refuses (R106, R133, R141): guard, registers, condition, destination, cause. -/
inductive CoreRefusalForm : Instr → Guard → Uses → (In → Prop) → Reg → Nat → Prop where
  | lrenew (o : DurOp) : CoreRefusalForm (.lrenew o) o.g { xs := o.a :: durRegs o.dur, late := some o.d }
      (fun i => goodHandle i.a [1, 2, 4, 5, 6, 7, 8, 9, 10] ∧ duration (durValue o.dur i.b) = none) o.d Cause.durationZero
  | lock (o : LockOp) (l : Word) (p : Nat) : CoreRefusalForm (.lock o) o.g
      { xs := if o.c.val = 0 then [o.a, o.b] else [o.a, o.b, o.c], late := some o.d }
      (fun i => Reaches i .read i.a 8 l p ∧ duration (i.b.toNat % 65536) = none) o.d Cause.durationZero
  | binit (o : DurOp) : CoreRefusalForm (.binit o) o.g { xs := o.a :: durRegs o.dur, late := some o.d }
      (fun i => binitOk i.a (i.ident .bsize) = true ∧ duration (durValue o.dur i.b) = none) o.d Cause.durationZero
  | binitCount (o : DurOp) (n : Nat) : CoreRefusalForm (.binit o) o.g { xs := o.a :: durRegs o.dur, late := some o.d }
      (fun i => binitOk i.a (i.ident .bsize) = true ∧ duration (durValue o.dur i.b) = some n
        ∧ bits i.a 8 8 - bits i.a 0 8 + 1 < bits i.a 16 9) o.d Cause.barrierCount
  | popen (o : RRRx) : CoreRefusalForm (.popen o) o.g
      { xs := if o.b.val = 0 then [o.a] else [o.a, o.b], late := some o.d }
      (fun i => goodHandle i.a [1] ∧ o.b.val ≠ 0 ∧ duration (i.b.toNat % 65536) = none) o.d Cause.durationZero
  | bopen (o : RRI) (l : Word) (p : Nat) : CoreRefusalForm (.bopen o) o.g
      { xs := o.a :: immRegs o.b, late := some o.d }
      (fun i => Reaches i .write i.a 128 l p ∧ (duration (bits (immValue o.b i.b) 0 16) = none
        ∨ duration (bits (immValue o.b i.b) 16 16) = none)) o.d Cause.durationZero
  | mlease (o : MleaseOp) : CoreRefusalForm (.mlease o) o.g { xs := durRegs o.dur, late := some o.d }
      (fun i => duration (durValue o.dur i.a) = none) o.d Cause.durationZero

/-- The module once a request has been sent (R96): one operation that L counts, the destination pending, and
the request on its way. -/
def In.asked (i : In) (r : Reg) (q : Req) : Dev :=
  (i.dev.openOp i.tid 1 true (some r) none none).1.send (.req (i.src r i.dev.nextOp) q)

/-- The heads that send a command to the matrix array (R222): guard, registers, condition, command. -/
inductive ArrayForm : Instr → Guard → Uses → (In → Prop) → (In → MCmd) → Prop where
  | mlay (o : MlayOp) (l : Word) (p : Nat) : ArrayForm (.mlay o) o.g { xs := [o.a] }
      (fun i => Reaches i .read i.a 32 l p)
      (fun i => .mlay o.l p (if leafTag l = true ∧ keyAp p ≤ 0xC0 then some (BitVec.ofNat 4 (bits i.a 56 4)) else none))
  | mzero (o : SetOp) : ArrayForm (.mzero o) o.g {} (fun _ => True) (fun _ => .mzero o.n)
  | mma (o : SetOp) : ArrayForm (.mma o) o.g {} (fun _ => True) (fun _ => .mma o.n)
  | mdrain (o : MdrainOp) : ArrayForm (.mdrain o) o.g { xs := [o.a, o.b] }
      (fun i => bits i.a 35 29 = 0 ∧ bits i.a 20 4 = 0 ∧ bits i.a 32 3 ≠ 7 ∧ drainFmt (bits i.a 27 5) = true)
      (fun i => .mdrain o.n i.a i.b i.t.fmode)

/-- A length operand: a register, or imm32. -/
def lengthOf (n : RegImm) (v : Word) : Nat :=
  match n with
  | .reg _ => v.toNat
  | .imm k => k.toNat

/-- A range of a copy lies in its window, or has a global address of the right form (R234). -/
def In.rangeOk (i : In) (sp : Space) (a : Word) (n : Nat) : Prop :=
  if sp = .glob then formOk a = true else a.toNat + n ≤ (i.base.window i.tid i.t sp).2

/-- The heads that push a command into a copy engine (R231, R234, R237, R358): mode, guard, registers,
condition, engine, command. -/
inductive EngineForm : Instr → Bool → Guard → Uses → (In → Prop) → (In → Nat) → (In → ECmd) → Prop where
  | cxfer (o : CxferOp) : EngineForm (.cxfer o) false o.g { xs := o.a :: o.b :: immRegs o.n }
      (fun i => 1 ≤ lengthOf o.n i.c ∧ lengthOf o.n i.c ≤ 2 ^ 36 ∧ i.rangeOk o.dst i.a (lengthOf o.n i.c)
        ∧ i.rangeOk o.src i.b (lengthOf o.n i.c)) (fun _ => o.eng.val)
      (fun i => .xfer (i.rangeStart o.dst i.a) (i.rangeStart o.src i.b) (lengthOf o.n i.c) o.dst o.src)
  | cxferPack (o : PackOp) : EngineForm (.cxferPack o) true o.g { xs := [o.a, o.b, o.c] }
      (fun i => (bits i.c 0 32 = 65536 ∨ bits i.c 0 32 = 2097152) ∧ bits i.c 32 32 % 4096 = 0
        ∧ bits i.c 32 32 ≤ bits i.c 0 32 ∧ i.b.toNat % bits i.c 0 32 = 0 ∧ i.a.toNat % 4096 = 0
        ∧ formOk i.a = true ∧ formOk i.b = true) (fun _ => o.eng.val)
      (fun i => .pack i.a i.b (bits i.c 0 32) (bits i.c 32 32))
  | cxferFpack (o : FpackOp) : EngineForm (.cxferFpack o) true o.g { xs := o.a :: o.b :: immRegs o.n }
      (fun i => 1 ≤ lengthOf o.n i.c ∧ lengthOf o.n i.c ≤ 2 ^ 36 ∧ formOk i.a = true ∧ formOk i.b = true)
      (fun _ => o.eng.val) (fun i => .fpack i.a i.b (lengthOf o.n i.c))
  | cfeed (o : CfeedOp) (w : In → Word)
      (hw : w = fun i => match o.w with
        | .reg _ => i.a
        | .imm k => k.zeroExtend 64) :
      EngineForm (.cfeed o) false o.g { xs := immRegs o.w }
      (fun i => bits (w i) 7 57 = 0 ∧ bit (w i) 3 = false) (fun i => bits (w i) 2 1)
      (fun i => .feed ⟨bits (w i) 4 3 % 8, Nat.mod_lt _ (by decide)⟩ (bits (w i) 0 2)
        (i.base.window i.tid i.t .gall).1 (i.base.window i.tid i.t .gall).2)

/-! ### System registers and other special heads -/

/-- The value SRD reads of each system register (Table 17-12). -/
inductive SysValue : SysReg → (In → Word) → Prop where
  | status : SysValue .status (fun i => i.t.status)
  | cause : SysValue .cause (fun i => i.t.cause)
  | epc : SysValue .epc (fun i => i.t.epc)
  | eval : SysValue .eval (fun i => i.t.eval)
  | handler : SysValue .handler (fun i => i.t.handler)
  | fmode : SysValue .fmode (fun i => i.t.fmode.setWidth 64)
  | fflags : SysValue .fflags (fun i => i.t.fflags.setWidth 64)
  | slotcfg : SysValue .slotcfg (fun i => i.t.slotcfg)
  /-- The first unreported entry, how many there are, and the refusals lost (R121). -/
  | jhead : SysValue .jhead (fun i =>
      let l := (i.base.core i.core).jrnl.toList
      wd64 (firstUnrep i.slot 0 l + 256 * (l.filter (fun e => e.v && !e.rpt && e.slot == i.slot)).length
        + 65536 * i.t.lost))
  | anchor : SysValue .anchor (fun i => i.t.anchor)
  | lstat : SysValue .lstat (fun i => i.t.lstat)
  | srseed : SysValue .srseed (fun i => i.t.srseed.setWidth 64)
  | srctr : SysValue .srctr (fun i => i.t.srctr.setWidth 64)
  | view : SysValue .view (fun i => i.t.view)
  | cflags : SysValue .cflags (fun i => (i.base.clus (coreClus i.core)).cflags.setWidth 64)
  | hkey : SysValue .hkey (fun i => (i.base.die (coreDie i.core)).hkey.setWidth 64)
  | ctxtb : SysValue .ctxtb (fun i => i.base.ctxtb)
  | tentb : SysValue .tentb (fun i => i.base.tentb)
  | pstop : SysValue .pstop (fun i => i.base.pstop)
  | pgo : SysValue .pgo (fun i => i.base.pgo)
  /-- Zero outside the service context. -/
  | rootcap : SysValue .rootcap (fun i => if bit i.t.status 3 then i.base.rootcap else 0)

/-- The registers that only a supervisor reads. -/
def privReads (r : SysReg) : Prop :=
  r = .cflags ∨ r = .hkey ∨ r = .ctxtb ∨ r = .tentb ∨ r = .pstop ∨ r = .pgo ∨ r = .rootcap ∨ ∃ n, r = .gstat n

/-- What SWR writes of each system register that it writes, and the values it takes (R348, R350, Tables 2-5 and
17-12). -/
inductive SysWrite : SysReg → (Word → Prop) → (In → Word → Dev) → Prop where
  /-- PMODE and INTRAP. -/
  | status : SysWrite .status (fun _ => True) (fun i v =>
      i.dev.updThr i.tid (fun t => { t with status := (t.status &&& ~~~(6 : Word)) ||| (v &&& 6) }))
  | cause : SysWrite .cause (fun _ => True) (fun i v => i.dev.updThr i.tid (fun t => { t with cause := v &&& 0x3FF }))
  | epc : SysWrite .epc (fun _ => True) (fun i v => i.dev.updThr i.tid (fun t => { t with epc := v }))
  | eval : SysWrite .eval (fun _ => True) (fun i v => i.dev.updThr i.tid (fun t => { t with eval := v }))
  | handler : SysWrite .handler (fun _ => True) (fun i v => i.dev.updThr i.tid (fun t => { t with handler := v }))
  | fmode : SysWrite .fmode (fun v => 1 ≤ v.toNat ∧ v.toNat ≤ 6) (fun i v =>
      i.dev.updThr i.tid (fun t => { t with fmode := v.setWidth 3 }))
  | fflags : SysWrite .fflags (fun _ => True) (fun i v => i.dev.updThr i.tid (fun t => { t with fflags := v.setWidth 5 }))
  /-- QMAP, EAGER and the two bits of Table 2-5 that software writes; no QMAP may be 3. -/
  | slotcfg : SysWrite .slotcfg (fun v => ∀ q < 4, bits v (2 * q) 2 ≠ 3) (fun i v =>
      i.dev.updThr i.tid (fun t => { t with slotcfg := (t.slotcfg &&& ~~~(0x0C0001FF : Word)) ||| (v &&& 0x0C0001FF) }))
  | srseed : SysWrite .srseed (fun _ => True) (fun i v => i.dev.updThr i.tid (fun t => { t with srseed := v.setWidth 32 }))
  | srctr : SysWrite .srctr (fun _ => True) (fun i v => i.dev.updThr i.tid (fun t => { t with srctr := v.setWidth 32 }))
  /-- Bits set in the operand clear. -/
  | cflags : SysWrite .cflags (fun _ => True) (fun i v => i.dev.setClus (coreClus i.core)
      { i.dev.clus (coreClus i.core) with cflags := (i.dev.clus (coreClus i.core)).cflags &&& ~~~(v.setWidth 5) })
  | hkey : SysWrite .hkey (fun _ => True) (fun i v =>
      i.dev.setDie (coreDie i.core) { i.dev.die (coreDie i.core) with hkey := v.setWidth 6 })
  | ctxtb : SysWrite .ctxtb (fun _ => True) (fun i v => { i.dev with ctxtb := v })
  | tentb : SysWrite .tentb (fun _ => True) (fun i v => { i.dev with tentb := v })

/-- A CTXLD that loads an image into another slot of its core (R351): the image's lines are readable, unguarded
or guarded by live leases, and free; the slot may take it; and the image is one that its context can run. -/
structure CtxReady (i : In) (o : CtxOp) (l : List (PKey × List Nat)) (v : Nat) (d : Dev) : Prop where
  other : o.n.val ≠ i.slot
  checked : addrCheck .glob 0 [(i.a, imageSize, 128)] = none
  lines : i.imageLines .read = .ok l
  room : i.canL = true
  acked : i.base.acked (i.src 0 i.base.nextOp) = true
  free : (l.flatMap Prod.snd).any (i.base.busyLine i.drip) = false
  drained : (i.base.core i.core).sb.any (fun e => e.src.tid == i.tid) = false
  guarded : (l.flatMap Prod.snd).findSome? (fun x => i.dev.judgeRange i.drip i.t.ctx x) = none
  image : v = gather (i.dev.unitByte i.drip i.mem)
    ((List.range imageSize).map (fun k => (l.flatMap Prod.snd).getD (k / 128) 0 + k % 128))
  slot : i.dev.slotTid i.core o.n.val = none ∧ i.dev.slotFree i.core o.n.val = true
    ∨ ∃ tid t, i.dev.slotTid i.core o.n.val = some tid ∧ i.dev.thr tid = some t ∧ t.atRest = true
  good : imageBad v = false
  context : bit (i.dev.ctxWord i.mem (bits (wd64 (fld v (8 * 10520) 64)) 8 16) 0) 0 = true
  serves : (i.dev.serves i.mem (coreClus i.core)).any
    (fun u => u != i.dev.ctxTenant i.mem (bits (wd64 (fld v (8 * 10520) 64)) 8 16)) = false
  tenant : bits (wd64 (fld v (8 * 10520) 64)) 24 8 = i.dev.ctxTenant i.mem (bits (wd64 (fld v (8 * 10520) 64)) 8 16)
  pc : i.base.target i.drip i.mem i.tid i.core (bits (wd64 (fld v (8 * 10520) 64)) 8 16) (wd64 (fld v (8 * 10512) 64)) = .good
  loads : (i.dev.openOp i.tid 1 true (some o.d) none none).1.loadImage i.drip i.mem i.core o.n.val v = some d

/-! ### Steps that no head issues -/

/-- A step takes the module to `d` and leaves memory, counter and agenda. -/
def Yields (i : Instr) (s : State) (d : Dev) : Prop := exec i s = .next (s.withDev d)

/-- A step takes the module to `d` and memory through the writes `w`. -/
def Writes (i : Instr) (s : State) (d : Dev) (w : List (Nat × Byte)) : Prop :=
  exec i s = .next { s with dev := d, mem := s.mem.writeAll w }

/-- A message of the module carries `k`. -/
def State.carries (s : State) (m : Nat) (k : MsgKind) : Prop := s.dev.msg m = some k

/-- A line of one version whose sectors are sound (R249, R264). -/
structure Dev.plainLine (d : Dev) (line : Nat) : Prop where
  single : d.bline line = none
  sound : d.badSectors.contains (sectorOf line) = false ∧ d.badSectors.contains (sectorOf line + 64) = false

/-- The bytes that parts take have no error (R264, R357). -/
def Dev.cleanEls (d : Dev) (els : List El) : Prop :=
  ∀ e ∈ els, ∀ b ∈ e.bytes, d.poisoned b.1 = false ∧ d.badWords.contains (b.1 / 8 * 8) = false

/-- A load is due at its home (R83, R123): accepted, no store to its line before it, no older load of its core
unserved, and no one away with its line to write. -/
structure Dev.loadDue (d : Dev) (drip m : Nat) (a : Acc) : Prop where
  accepted : a.st = .accepted
  first : d.behind m a.line = false
  here : d.heldAway drip a.line false = false
  turn : d.loadsBefore m a.src.core = false

/-- A store or atomic is due at its home (R123, R266): accepted, no store to its line before it, no read lease on
the line, no one away with the line, and nothing of its core that it must not pass. -/
structure Dev.storeDue (d : Dev) (drip m : Nat) (a : Acc) : Prop where
  accepted : a.st = .accepted
  first : d.behind m a.line = false
  here : d.recallFirst drip a = false
  leases : d.leased drip a.line = false
  turn : d.olderLeft m a = false

/-- A thread once a reply word has come: BWAIT's ends the wait (R145), ALLOC's leaves its cause in LSTAT (R128). -/
def Thread.answered (bw : Bool) (ls : Option Nat) (t : Thread) : Thread :=
  { t with wst := if bw ∧ t.wst = .bwait then .ready else t.wst, lstat := (ls.map wd64).getD t.lstat }

/-- A thread once a report has come (R84): a trap waits, and what the thread waits in is over. -/
def Thread.reported (cause : Nat) (v : Word) (t : Thread) : Thread :=
  if t.exited then t
  else { t with traps := t.traps ++ [⟨cause, v⟩], wst := match t.wst with
      | .parked r => .parked r
      | .halted => .halted
      | _ => .ready }

/-- The values of an operation in their registers (R25), with BLD's pair (R250). -/
def Dev.delivered (d : Dev) (o : Outst) (vals : List (Dest × Nat)) (kp : Option (KP × Bool)) : Dev :=
  match kp with
  | some (k, b) => (d.deliver o.tid o.pv o.fmt vals).regs o.tid (fun g => g.wpair k b)
  | none => d.deliver o.tid o.pv o.fmt vals

/-- One piece of an operation has come, and more will (R25, R278). -/
def Dev.gathered (d : Dev) (o : Outst) (vals : List (Dest × Nat)) (err : Option (Nat × Nat × Word)) : Dev :=
  { d with outst := d.outst.map (fun x =>
      if x.op = o.op then { x with left := x.left - 1, vals := vals, err := err } else x) }

/-- A request has come, and `d` is the module with it taken out (R96). -/
def State.asks (s : State) (m : Nat) (src : From) (q : Req) (d : Dev) : Prop :=
  s.dev.msg m = some (.req src q) ∧ d = s.dev.drop m

/-- A request of the lantern that its capability admits (R148). -/
def State.served (s : State) (m : Nat) (src : From) (h : Word) (code : Nat) (arg : Word) (d : Dev) : Prop :=
  s.asks m src (.gate h code arg) d ∧
    ∃ l mask, d.judged s.drip src h = .ok l ∧ l.payload = .cap mask ∧ bit mask code = true

/-- The 32 bytes of a request's record (R149). -/
def Dev.recordIs (d : Dev) (drip : Nat) (mem : Memory) (src : From) (va : Word) (r : Nat) : Prop :=
  ∃ l, d.reach drip mem src.ctx .read (span va 32) = .ok l ∧ r = gather (d.unitByte drip mem) l

/-- A record of TENANT within its limits (R149, Table 17-8). -/
structure Dev.tenantOk (d : Dev) (drip : Nat) (mem : Memory) (r : Nat) : Prop where
  tenant : fld r 0 64 < 256
  period : fld r 128 64 < 65536
  rest : fld r 192 64 = 0
  window : fld r 64 64 % 32768 = 0 ∧ fld r 64 64 < 2 ^ 52 ∧ isDram (fld r 64 64) = true
    ∧ isDram (fld r 64 64 + 36863) = true
  fresh : d.anchorOf drip (fld r 0 64) = none
  rings : ringOk (d.tenWord mem (fld r 0 64) 1) false = true ∧ ringOk (d.tenWord mem (fld r 0 64) 3) true = true

/-- A record of CONTEXT within its limits (R149, R334). -/
structure Dev.contextOk (d : Dev) (drip : Nat) (mem : Memory) (r : Nat) : Prop where
  context : fld r 0 64 < 65536
  rest : fld r 128 128 = 0
  valid : bit (d.ctxWord mem (fld r 0 64) 0) 0 = true
  fresh : d.ctxLease drip (fld r 0 64) = none
  same : d.ctxWord mem (fld r 0 64) 3 = wd64 (fld r 64 64)

/-- The host may reach a place with an access of its own (R361): in device memory, out of reset, under a live
range, the line ordinary. -/
structure State.hostReaches (s : State) (o : HostAccessOp) : Prop where
  inside : o.off < 4 * dieBytes
  up : s.dev.inReset = false
  covered : s.dev.hostMay s.drip (hostKey o.off) = true
  plain : s.dev.plainLine (lineOf (hostKey o.off))
  exact : s.dev.isExact (lineOf (hostKey o.off)) = false
  window : s.dev.windowOf (lineOf (hostKey o.off)) = none

/-- A host read that is served (R361). -/
structure State.hostReads (s : State) (o : HostAccessOp) : Prop where
  reach : s.hostReaches o
  free : s.dev.mayGive s.drip (lineOf (hostKey o.off)) false = true
  clean : s.dev.poisoned (sectorOf (hostKey o.off)) = false
    ∧ s.dev.badWords.any (fun w => sectorOf (hostKey o.off) ≤ w && w < sectorOf (hostKey o.off) + 64) = false

/-- A host write that is taken (R361). -/
structure State.hostWrites (s : State) (o : HostAccessOp) : Prop where
  reach : s.hostReaches o
  free : s.dev.mayGive s.drip (lineOf (hostKey o.off)) true = true
  fits : o.off % 64 + o.data.length ≤ 64

/-- A bundle store that its home accepts (R113, R247), `d` the module with its line's caching die known: in its turn,
its record and range live, its tag right, its line not exact; `l` is its record's lease. -/
structure State.bundleTakes (s : State) (d : Dev) (m : Nat) (a : Acc) (h : Word) (l : Lease) : Prop where
  touch : d = s.dev.touch a.src.core a.line
  turn : s.dev.bstTurn s.drip m a = true
  named : d.named a.src h = .ok l
  up : d.cutOff a.line = false ∧ d.outOfUse (d.accHome a) = false
  range : ∀ r, d.rangeOf a.line = some r →
    r.holder = some a.src.ctx ∧ d.verdict s.drip (d.accHome a) a.live r = .live
  live : d.verdict s.drip (d.accHome a) a.live l = .live
  holder : l.holder = some a.src.ctx
  tag : d.tagFault a false = none
  exact : d.isExact a.line = false

/-- A fault record is the one that its die writes next (R343). -/
def Dev.nextRecord (d : Dev) (mem : Memory) (die : Nat) (f : FaultRec) : Prop :=
  (d.faults.filter (fun g => g.die == die && !g.written)).find? (fun f =>
    !(d.faults.takeWhile (fun g => g.rid != f.rid)).any (fun g =>
      !g.written && g.tenant == f.tenant && g.log == f.log)
    && (f.log || !bit (mem.read64 ((d.ring mem f).1 + 32 * (d.ring mem f).2.2)) 63)) = some f

/-- An engine serves its oldest command (R157, R231): it is neither stopped nor over, its thread's earlier stores
have been accepted, and a large one has its leave. -/
structure Dev.servesCmd (d : Dev) (clus eng : Nat) (e : EEntry) : Prop where
  oldest : ((d.clus clus).eng eng).cmds.head? = some e
  runs : e.stop = none ∧ e.fail = none ∧ e.finished = false
  free : d.srcStopped e.src = false
  acked : d.acked e.src = true
  leave : e.bytes ≤ 2 ^ 20 ∨ e.leave = true

/-- A command reaches its engine in its turn, and a tag is free (R231). -/
structure State.reachesEngine (s : State) (m : Nat) (src : From) (clus eng : Nat) (c : ECmd) : Prop where
  carries : s.carries m (.engine src clus eng c)
  room : ((s.dev.clus clus).eng eng).cmds.length < 64
  turn : (s.dev.msgs.any (fun x => decide (x.id < m) && (match x.kind with
    | .engine t k g _ => t.core == src.core && k == clus && g == eng
    | _ => false))) = false
  free : s.dev.srcStopped src = false

/-- The grant that a feed of a core would be bound to (R237): the array's live one, if it is that core's. -/
def Dev.boundTo (d : Dev) (drip clus core : Nat) : Option (Nat × Nat) :=
  match d.liveGrant drip clus with
  | some g => if g.core = core then some (g.index, g.gen) else none
  | none => none

/-- A command reaches its array in its turn, and the FIFO has room (R222, R223). -/
structure State.reachesArray (s : State) (m : Nat) (src : From) (clus : Nat) (c : MCmd) (head : Word) : Prop where
  carries : s.carries m (.command src clus c head)
  room : (s.dev.clus clus).array.fifo.length < 16
  turn : s.dev.arrayInOrder m src.core clus = true
  free : s.dev.srcStopped src = false

/-- DONE of a point in flight has come (R303, R305): its launch runs under a live frontier lease, and its row is
kept. -/
structure State.pointDone (s : State) (m : Nat) (src : From) (n z y x : Nat) (l : Launch) (r : Word) : Prop where
  carries : s.carries m (.req src (.done n z y x))
  runs : s.dev.srcStopped src = false
  sent : s.dev.sentNow m = false
  launch : (s.dev.drop m).lch n = some l ∧ l.ended = none
  lease : (s.dev.drop m).frontierLive s.drip l = true
  kept : find? (z * l.ey + y) l.rows = some r ∧ l.doneRows.contains (z * l.ey + y) = false
  open' : recC r ≤ x ∧ x < recC r + 16 ∧ (recDone r).testBit (x - recC r) = false

/-- The record of a row once a point of it is complete (R303). -/
def pointDoneRec (r : Word) (x : Nat) : Word :=
  recShift 16 (mkRec (recC r) (recDone r ||| 2 ^ (x - recC r)) (recFly r &&& (65535 - 2 ^ (x - recC r))))

/-- LAUNCH's record and header, as its home reads them (R328). -/
def State.launchRead (s : State) (m : Nat) (src : From) (a : Word) (l : Launch) : Prop :=
  s.carries m (.req src (.launch a)) ∧ s.dev.acked src = true ∧
    ∃ ps hs, s.dev.reach s.drip s.mem src.ctx .read (span a 128) = .ok ps ∧
      let rcd := dwords 16 (gather (s.dev.unitByte s.drip s.mem) ps)
      s.dev.reach s.drip s.mem src.ctx .read (span (rcd.getD 0 0 - 66) 64) = .ok hs ∧
      l = mkLaunch s.dev.nextLaunch src.ctx src.tenant rcd (dwords 8 (gather (s.dev.unitByte s.drip s.mem) hs)) false

/-- A launch waits for its leave and its predecessor (R314, R316). -/
structure Dev.launchWaits (d : Dev) (drip n : Nat) (l : Launch) : Prop where
  launch : d.lch n = some l
  waits : l.fired = false ∧ l.ended = none ∧ l.failed = none
  up : d.halted drip l.tenant = false

/-- What a launch's predecessor ended with: 0 where it has none (R314). -/
def Dev.predecessor (d : Dev) (l : Launch) (c : Nat) : Prop :=
  (l.after = none ∧ c = 0) ∨ (∃ a p, l.after = some a ∧ d.lch a = some p ∧ p.ended = some c)

/-- A cluster may take one in (R323): the module runs, no launch has still to rise, no lower cluster has a taker. -/
structure State.mayAdmit (s : State) (clus : Nat) : Prop where
  up : s.dev.inReset = false
  aged : s.dev.launches.any (fun p => p.2.agingDue) = false
  lower : (List.range (min clus 128)).any (fun c => !(s.dev.takers s.drip s.mem c).isEmpty) = false
  cluster : clus < 128

/-- The module as a block of launch `n` is admitted on a cluster: the array cleared for the tenant, the cluster
ungated, the launch served last (R217, R323). -/
def Dev.serving (d : Dev) (mem : Memory) (clus n : Nat) (l : Launch) : Dev :=
  let e := (d.readTen mem l.tenant).arrayFor clus l.tenant
  e.setClus clus { e.clus clus with
    gated := false
    rr := n }

/-- A block that has been parked through its budget (R307, R325). -/
structure State.parkedOut (s : State) (b : Nat) (k : Block) (l : Launch) : Prop where
  block : s.dev.blk b = some k
  launch : ∃ n, k.launch = some n ∧ s.dev.lch n = some l
  up : s.dev.halted s.drip k.tenant = false
  parked : s.dev.parkedEnough k l.parkf = true

/-- A block may be saved (R325): all its stores acknowledged, any DONE sent, no command at its niche. -/
structure State.maySave (s : State) (k : Block) : Prop where
  stores : (s.dev.alive k).any (fun t => match s.dev.thr t with
    | some x => x.cS != 0
    | none => false) = false
  done : k.doneWait = none
  near : s.dev.nearCommands k = false

/-- An active message that its target core judges (R331). -/
structure State.amsgJudged (s : State) (m : Nat) (src : From) (target pc a0 a1 : Word) : Prop where
  carries : s.carries m (.req src (.amsg target pc a0 a1))
  acked : s.dev.acked src = true
  sent : s.dev.sentNow m = false
  core : s.dev.fencedCore (targetCore target) = false
  turn : (s.dev.takers s.drip s.mem (coreClus (targetCore target))).isEmpty = true
    ∧ s.dev.haltedAt s.drip s.mem (coreClus (targetCore target)) = false

/-- A store to a register of a unit that may perform: the first such message (R365, R367). -/
def State.unitStoreDue (s : State) (base : Nat) (x : Msg) : Prop :=
  s.dev.msgs.find? (fun m => s.dev.storesAt s.drip base m) = some x

/-- A slot of a command window is armed and can be read (R365): its line is free, its anchor live, its arm word
good and its sectors sound; `c` is the context and `e` the module with the arm word to be cleared. -/
structure State.slotArmed (s : State) (addr : Nat) (kinds : List Nat) (coll : Bool) (t : Nat) (v : Word) (c : Nat)
    (e : Dev) : Prop where
  armed : ∃ l, s.dev.armed s.mem addr coll = some (l, t, v) ∧ s.dev.lapsed s.drip l = false
  good : armOk v kinds = true
  free : s.dev.unitMayWrite s.drip (lineOf addr) = true
  sound : s.dev.poisoned (lineOf addr) = false ∧ s.dev.poisoned (lineOf addr + 64) = false
  context : s.dev.windowCtx s.drip t = some c
  cleared : e = s.dev.clearLater s.drip addr

/-- A collective request whose fellows of the other members have come and agree with it (R371). -/
structure State.collMet (s : State) (o : CollOp) (c : Coll) (ef : Fmt) : Prop where
  idle : s.dev.armed s.mem o.addr true = none
  oldest : s.dev.colls.find? (fun c => c.slot == lineOf o.addr) = some c
  same : c.gen.toNat = groupGen s.mem c.tenant c.group
  peers : o.peers.map CollPeer.mod = (groupMembers s.mem c.tenant c.group).filter (· != s.dev.modNo)
  agree : ∀ p ∈ o.peers, p.opw = c.opw ∧ p.count = c.count ∧ p.gen = c.gen
  format : c.fmt = some ef

/-- The registers that CAS and the other atomics name. -/
def atomUses (o : AtomInstr) : Uses := { xs := if o.op = .cas then [o.a, o.b, o.c] else [o.a, o.b], late := some o.d }

/-- What every head is checked for before its body: whether only a supervisor may run it (R54), whether its guard
selects lanes (R193), its guard, the registers it names, and the checks that come before the guard (R175, R198); `d`
is the module before it. -/
inductive HeadShape (d : Dev) : Instr → Bool → Bool → Guard → Uses → (Thread → Option Nat) → Prop where
  | scalar {x g u r f} (h : ScalarForm x g u r f) : HeadShape d x false false g u (fun _ => none)
  | pred {x g u f} (h : PredForm x g u f) : HeadShape d x false false g u (fun _ => none)
  | float {x g u r f} (h : FloatForm x g u r f) : HeadShape d x false false g u (fun _ => none)
  | fcmp (o : FCmpOp) : HeadShape d (.fcmp o) false false o.g { xs := [o.a, o.b], kd := [kpLo o.kd, kpHi o.kd] }
      (fun _ => none)
  | fmode (o : RR) : HeadShape d (.fmode o) false false o.g { xs := [o.a], xd := some o.d } (fun _ => none)
  | fflags (o : RR) : HeadShape d (.fflags o) false false o.g { xs := [o.a], xd := some o.d } (fun _ => none)
  | transfer {x p g u c a f} (h : TransferForm x p g u c a f) : HeadShape d x p false g u (fun _ => none)
  | thread {x p g u c f} (h : ThreadForm x p g u c f) : HeadShape d x p false g u (fun _ => none)
  | nop : HeadShape d .nop false false .always {} (fun _ => none)
  | nopGuarded (o : GOp) : HeadShape d (.nopGuarded o) false false o.g {} (fun _ => none)
  | exit : HeadShape d .exit false false .always {} (fun _ => none)
  | exitGuarded (o : GOp) : HeadShape d (.exitGuarded o) false false o.g {} (fun _ => none)
  | cbar : HeadShape d .cbar false false .always {} (fun _ => none)
  | cbarGuarded (o : GOp) : HeadShape d (.cbarGuarded o) false false o.g {} (fun _ => none)
  | access {x lanes g u pre sp chk acc} (h : AccessForm x lanes g u pre sp chk acc) : HeadShape d x false lanes g u pre
  | post {x g u pre c f} (h : PostForm x g u pre c f) : HeadShape d x false false g u pre
  | homeLoad {x p g u c e f} (h : HomeLoadForm x p g u c e f) : HeadShape d x p false g u (fun _ => none)
  | atom (o : AtomInstr) : HeadShape d (.atom o) false false o.g (atomUses o) (fun _ => none)
  | pref (o : PrefOp) : HeadShape d (.pref o) false false o.g { xs := [o.a] } (fun _ => none)
  | request {x p g u c r q} (h : RequestForm x p g u c r q) : HeadShape d x p false g u (fun _ => none)
  | lock (o : LockOp) : HeadShape d (.lock o) false false o.g
      { xs := if o.c.val = 0 then [o.a, o.b] else [o.a, o.b, o.c], late := some o.d } (fun _ => none)
  | bwait (o : BwaitOp) : HeadShape d (.bwait o) false false o.g { xs := [o.a, o.b], late := some o.d } (fun _ => none)
  | mcsst (o : AB) : HeadShape d (.mcsst o) true false o.g { xs := [o.a, o.b] } (fun _ => none)
  | mcsstCommit (o : RRRx) : HeadShape d (.mcsstCommit o) true false o.g { xs := [o.a, o.b], late := some o.d }
      (fun _ => none)
  | array {x g u c q} (h : ArrayForm x g u c q) : HeadShape d x false false g u (fun _ => none)
  | engine {x p g u c e q} (h : EngineForm x p g u c e q) : HeadShape d x p false g u (fun _ => none)
  | cpop (o : EngOp) : HeadShape d (.cpop o) false false o.g { xd := some o.d } (fun _ => none)
  | lane {x g u pre l} (h : LaneForm x g u pre l) : HeadShape d x false true g u pre
  | vcmp (o : VCmpOp) : HeadShape d (.vcmp o) false true o.g { vs := [o.a, o.b], kd := [kpLo o.kd, kpHi o.kd] }
      (tagPre .always o.ef.count [(o.a, o.ef), (o.b, o.ef)] [] o.ef)
  | vtag (o : VtagOp) : HeadShape d (.vtag o) false true .always (vUses (if o.scl then [o.a, o.b] else [o.a]) [o.d])
      (fun _ => none)
  | vmovsGet (o : VgetOp) : HeadShape d (.vmovsGet o) false true o.g
      { xs := regOf o.j, xd := some o.d, vs := [o.a], off := idxOff o.g [] o.j }
      (fun t => (tagPre .always o.ef.count [(o.a, o.ef)] [] o.ef t).or (idxPre d [] o.j o.ef.count t))
  | vmovsPut (o : VputOp) : HeadShape d (.vmovsPut o) false true o.g
      { xs := o.a :: regOf o.j, vs := [o.d], vd := [o.d], off := idxOff o.g [o.a] o.j }
      (fun t => (if (t.regs.rv o.d).tag = o.ef ∨ (t.regs.rv o.d).tag = .none then none
        else some Cause.formatTag).or (idxPre d [o.a] o.j o.ef.count t))
  | srd (o : SrdOp) (p : Bool) (h : p = true ↔ privReads o.reg) : HeadShape d (.srd o) p false o.g { xd := some o.d }
      (fun _ => none)
  | swr (o : SwrOp) : HeadShape d (.swr o) true false o.g { xs := [o.a] } (fun _ => none)
  | jrnl (o : JrnlOp) : HeadShape d (.jrnl o) false false o.g { xs := [o.a], xd := some o.d } (fun _ => none)
  | jack (o : GA) : HeadShape d (.jack o) false false o.g { xs := [o.a] } (fun _ => none)
  | bview (o : RR) : HeadShape d (.bview o) false false o.g { xs := [o.a], xd := some o.d } (fun _ => none)
  | done (o : GOp) : HeadShape d (.done o) false false o.g {} (fun _ => none)
  | trap (o : TrapOp) : HeadShape d (.trap o) false false o.g { xs := [o.a] } (fun _ => none)
  | pstop (o : GA) : HeadShape d (.pstop o) true false o.g { xs := [o.a] } (fun _ => none)
  | pgo (o : GA) : HeadShape d (.pgo o) true false o.g { xs := [o.a] } (fun _ => none)
  | ctxld (o : CtxOp) : HeadShape d (.ctxld o) true false o.g { xs := [o.a], late := some o.d } (fun _ => none)

/-- A thread is at issue: its number, and its state as the head reads it. -/
def State.atIssue (s : State) (k : Nat) (t : Thread) : Prop :=
  s.dev.cur = some k ∧ (s.dev.thr k).map (fun x => s.dev.iss.old.getD x) = some t

/-- The state in which the thread at issue has taken a trap at its own head, and the note of it (R346). -/
def State.trapped (s : State) (k cause : Nat) (v : Word) : State :=
  s.withDev { s.dev.tickFresh.takeTrap s.drip s.mem k cause s.dev.iss.head v with
    note := .trapped cause s.dev.iss.head v }

/-- Slot `k` of core `c` cannot issue: no thread is in it, or its thread is not ready (Table 2-6). -/
def State.slotIdle (s : State) (c k : Nat) : Prop :=
  ∀ tid t, s.dev.slotTid c k = some tid → s.dev.thr tid = some t → s.dev.slotReady s.drip tid t = false

/-- The state in which a slot whose DOZE has ended is awake (R20). -/
def State.woken (s : State) (tid : Nat) (t : Thread) : State :=
  if t.wake = t then s else s.withDev (s.dev.setThr tid t.wake)

/-- The turn is slot `k`'s of core `c` (R21): the core has not issued in this drip, each slot before it in the
rotation is idle, and it holds thread `tid`, which is ready, has no trap to take first (R84, R18), and whose code
line the core holds (R43). -/
structure State.turn (s : State) (c k tid : Nat) (t : Thread) (line : Nat) : Prop where
  once : (s.dev.core c).lastIssue ≠ some s.drip
  order : ∃ n < 16, k = ((s.dev.core c).ptr + 1 + n) % 16 ∧ ∀ m < n, s.slotIdle c (((s.dev.core c).ptr + 1 + m) % 16)
  slot : s.dev.slotTid c k = some tid
  thread : s.dev.thr tid = some t
  ready : s.dev.slotReady s.drip tid t = true
  noTrap : (s.woken tid t).dev.preTrap tid t.wake = none
  line : (s.woken tid t).dev.code s.drip c t.ctx t.pc = .line line

/-- The state in which the data of hits that are due at core `c` have come (R20, R260). -/
def State.withHits (s : State) (c : Nat) : State := s.withDev (s.dev.takeHits s.drip s.mem c)

/-- The next step asks core `c` to issue, in state `s1`: the agenda says so; or no step is due that comes first,
whether the agenda is empty or stands at a tick, and no core before it in the order of the drip can issue. -/
def State.asksCore (s : State) (c : Nat) (s1 : State) : Prop :=
  (∃ rest, s.agenda = .issue c :: rest ∧ s1 = { s with agenda := rest }.withHits c) ∨
  ((s.agenda = [] ∧ firstDue s (candidates s) = none ∨
      (∃ rest, s.agenda = .tick :: rest) ∧ firstDue s (datedSteps s) = none) ∧
    (∃ l r, inRotation s.drip s.dev.busyCores = l ++ c :: r ∧ ∀ x ∈ l, issueCore x s = (none, s)) ∧ s1 = s)

/-- Head `k` of a line is a legal instruction by itself: within the line, and no part of a bundle (R38 to R45). -/
def single (line k : Nat) (i : Instr) : Prop :=
  1 ≤ k ∧ k ≤ lineN line ∧ headOf line k = some i ∧ headPair line k = false

/-- Heads `k` and `k + 1` of a line are a legal bundle (R45). -/
structure bundled (line k : Nat) (a b : Instr) : Prop where
  inside : 1 ≤ k ∧ k + 1 ≤ lineN line
  first : headOf line k = some a ∧ headPair line k = true ∧ a.vClass = false
  second : headOf line (k + 1) = some b ∧ headPair line (k + 1) = false ∧ b.vClass = true
  apart : clash a b = false

/-- The state in which a head's meaning is asked for: the thread at issue, its head and the next one's address;
for a head of a bundle, the thread before the bundle. -/
def State.begun (s : State) (tid : Nat) (head next : Word) (old : Option Thread) (second : Bool) : State :=
  s.withDev (s.dev.begin tid head next old second)

/-- Nothing of a thread changes but its registers and its pc. -/
def Thread.moved (x y : Thread) : Prop := y = { x with regs := y.regs, pc := y.pc }

/-- What a scalar head of thread `k`, read on core `c`, leaves as it was: the counter, every byte of memory, every
other thread, and every unit but the queues of its core and the flags of the clusters. -/
structure State.keeps (s t : State) (k c : Nat) : Prop where
  drip : t.drip = s.drip
  agenda : t.agenda = s.agenda
  bytes : ∀ a, s.SameByte t a
  others : ∀ j, j ≠ k → t.dev.thr j = s.dev.thr j
  units : t.dev = { s.dev with
    threads := t.dev.threads, cores := t.dev.cores, clusters := t.dev.clusters, note := .issued }
  cores : ∀ j, t.dev.core j = { s.dev.core j with q := (t.dev.core j).q }
  queues : ∀ j x, s.dev.thr k = some x → j ≠ x.coreSlot.1 → j ≠ c → t.dev.core j = s.dev.core j
  clusters : ∀ j, t.dev.clus j = { s.dev.clus j with cflags := (t.dev.clus j).cflags }

end Sys2Proof.Machine
end

