-- ==== Sys2Proof/Certificates/Slice0/Obligations.lean ====
section
/-!
DEFINITION. The statements about the Zailith Z4 model, for the provers. Each says in its docstring which rules
of the spec it formalises.
-/
open Sys2Proof Sys2Proof.Machine

/-! ### Heads: scalar -/

/-- R65, R67, R74, R89 to R91, R240: a scalar head that reaches its body completes, writes its value to its
destination (a push where that is a producer queue, nothing for x0), and changes nothing else but the sources
it popped and the pc. -/
def Obligations.ScalarResults : Prop :=
  ∀ (x : Instr) (g : Guard) (u : Uses) (r : Reg) (f : In → Word), ScalarForm x g u r f →
    ∀ (s : State) (j : In), IssuesS s false g u j → exec x s = .next (s.withDev (j.dev.putX j.tid r (f j)))

/-- R68, R69: compares and predicate heads complete and write their predicates. -/
def Obligations.PredicateResults : Prop :=
  ∀ (x : Instr) (g : Guard) (u : Uses) (f : In → Regs → Regs), PredForm x g u f →
    ∀ (s : State) (j : In), IssuesS s false g u j → exec x s = .next (s.withDev (j.dev.regs j.tid (f j)))

/-- R71 to R76: scalar floating-point heads complete, write their result, and raise its flags in FFLAGS and
CFLAGS; FCMP writes a pair; FMODE answers the old mode and sets a mode from 1 to 6; FFLAGS answers the old
flags and clears those set in its source. -/
def Obligations.FloatResults : Prop :=
  (∀ (x : Instr) (g : Guard) (u : Uses) (r : Reg) (f : In → Word × Flags), FloatForm x g u r f →
    ∀ (s : State) (j : In), IssuesS s false g u j →
      exec x s = .next (s.withDev ((j.dev.putX j.tid r (f j).1).raiseFlags j.tid j.core (f j).2))) ∧
  (∀ (o : FCmpOp) (s : State) (j : In), IssuesS s false o.g { xs := [o.a, o.b], kd := [kpLo o.kd, kpHi o.kd] } j →
    exec (.fcmp o) s = .next (s.withDev
      ((j.dev.regs j.tid (fun x => x.wpair o.kd (fcmp o.cc (fval o.t j.a) (fval o.t j.b)).1)).raiseFlags j.tid j.core
        (fcmp o.cc (fval o.t j.a) (fval o.t j.b)).2))) ∧
  (∀ (o : RR) (s : State) (j : In), IssuesS s false o.g { xs := [o.a], xd := some o.d } j → j.a.toNat ≤ 6 →
    exec (.fmode o) s = .next (s.withDev
      (if j.a = 0 then j.dev.putX j.tid o.d (j.t.fmode.setWidth 64)
       else (j.dev.putX j.tid o.d (j.t.fmode.setWidth 64)).updThr j.tid (fun t => { t with fmode := j.a.setWidth 3 })))) ∧
  (∀ (o : RR) (s : State) (j : In), IssuesS s false o.g { xs := [o.a], xd := some o.d } j →
    exec (.fflags o) s = .next (s.withDev ((j.dev.putX j.tid o.d (j.t.fflags.setWidth 64)).updThr j.tid
      (fun t => { t with fflags := t.fflags &&& ~~~(j.a.setWidth 5) }))))

/-- R77, R351, R42: a transfer whose target passes R42, with its line at hand, completes with the pc at the target;
LOOP that counts down to 0 goes on in sequence. -/
def Obligations.Transfers : Prop :=
  (∀ (x : Instr) (p : Bool) (g : Guard) (u : Uses) (c : In → Prop) (a : In → Word) (f : In → Dev → Dev),
    TransferForm x p g u c a f → ∀ (s : State) (j : In), IssuesS s p g u j → c j →
      j.base.target j.drip j.mem j.tid j.core j.t.ctx (a j) = .good →
      exec x s = .next (s.withDev ((f j j.dev).updThr j.tid (fun t => { t with pc := a j })))) ∧
  (∀ (o : LoopOp) (s : State) (j : In), IssuesS s false o.g { xs := [o.a], xd := some o.a } j → j.a = 1 →
    exec (.loop o) s = .next (s.withDev (j.dev.putX j.tid o.a 0)))

/-- R42, R346: a transfer whose target fails R42 traps ILLEGAL_TARGET (0x002) at its own head, with the target in
EVAL. Where the spec leaves a point open, it rests on the model's choice: notes/assumptions/20.md. -/
def Obligations.BadTargetTraps : Prop :=
  ∀ (x : Instr) (p : Bool) (g : Guard) (u : Uses) (c : In → Prop) (a : In → Word) (f : In → Dev → Dev),
    TransferForm x p g u c a f → ∀ (s : State) (j : In), IssuesS s p g u j → c j →
      j.base.target j.drip j.mem j.tid j.core j.t.ctx (a j) = .bad →
      exec x s = .next (s.withDev { s.dev.tickFresh.takeTrap s.drip s.mem j.tid 0x002 s.dev.iss.head (a j) with
        note := .trapped 0x002 s.dev.iss.head (a j) })

/-- R60, R86 to R88, R281, R351: NOP, HALT, DOZE, FENCE complete; a WAIT whose counts are met, with nothing in the
journal for the slot to report, completes, and another waits. Where the spec leaves a point open, it rests on
the model's choice: notes/assumptions/37.md. -/
def Obligations.ThreadHeads : Prop :=
  (∀ (x : Instr) (p : Bool) (g : Guard) (u : Uses) (c : In → Prop) (f : In → Thread → Thread),
    ThreadForm x p g u c f → ∀ (s : State) (j : In), IssuesS s p g u j → c j →
      exec x s = .next (s.withDev (j.dev.updThr j.tid (f j)))) ∧
  (∀ (s : State) (j : In), IssuesS s false .always {} j → exec .nop s = .next (s.withDev j.dev)) ∧
  (∀ (o : GOp) (s : State) (j : In), IssuesS s false o.g {} j → exec (.nopGuarded o) s = .next (s.withDev j.dev)) ∧
  (∀ (o : WaitOp) (s : State) (j : In), IssuesS s false o.g {} j → countsMet o j.t →
    (o.s = 15 ∨ j.base.lapse j.tid j.t = none) → exec (.wait o) s = .next (s.withDev j.dev))

/-- R332, R92: EXIT completes, guarded or not: its thread is gone at once where its S count is 0, and else stays as
one that has exited, with no trap to take, which no slot issues. CBAR, guarded or not, completes: with its L count at 0
its thread arrives at its crew's barrier, else it waits to. -/
def Obligations.ThreadsEndAndMeet : Prop :=
  (∀ (x : Instr) (g : Guard), (x = .exit ∧ g = .always ∨ ∃ o : GOp, x = .exitGuarded o ∧ g = o.g) →
    ∀ (s : State) (j : In), IssuesS s false g {} j → exec x s = .next (s.withDev (j.dev.endThread s.drip j.tid))) ∧
  (∀ (d : Dev) (drip k : Nat) (t : Thread), d.thr k = some t →
    (t.cS = 0 → (d.endThread drip k).thr k = none) ∧
    (t.cS ≠ 0 → ∃ x, (d.endThread drip k).thr k = some x ∧ x.exited = true ∧ x.traps = [] ∧ x.cS = t.cS ∧
      ∀ e z, (e : Dev).slotReady z k x = false)) ∧
  (∀ (x : Instr) (g : Guard), (x = .cbar ∧ g = .always ∨ ∃ o : GOp, x = .cbarGuarded o ∧ g = o.g) →
    ∀ (s : State) (j : In), IssuesS s false g {} j → ∃ t, j.dev.thr j.tid = some t ∧ (t.exited = false →
      exec x s = .next (s.withDev (if t.cL = 0
        then (j.dev.updThr j.tid (fun t => { t with wst := .cbar false })).arriveCrew s.drip t.blk j.tid
        else j.dev.updThr j.tid (fun t => { t with wst := .cbar false })))))

/-! ### Heads: memory -/

/-- R79, R80, R82, R83, R260, R280, R284; R37, R80, R258, R259: a global load that passes R78, that no older acquire
or full fence holds and for which L has room completes: with no active element it is over; the store buffer
gives it all its bits, or none and it sends one access for each piece, when miss registers are free. A load from
the niche or the gallery that passes R78 completes with the bytes of its window delivered, when its port and
banks are free and none of its words holds an uncorrectable error. Where the spec leaves a point open, it rests
on the model's choice: notes/assumptions/27.md, notes/assumptions/32.md, notes/assumptions/35.md,
notes/assumptions/99.md, notes/assumptions/107.md. -/
def Obligations.LoadsIssue : Prop :=
  (∀ (x : Instr) (lanes : Bool) (g : Guard) (u : Uses) (pre : Thread → Option Nat)
     (chk : In → List (Word × Nat × Nat)) (acc : In → Access), AccessForm x lanes g u pre .glob chk acc →
     ∀ (s : State) (j : In) (sc : Scope) (acq exact : Bool) (major minor : Nat) (tgt : LoadTo) (els : List VEl)
       (pcs : List (PKey × List El)), Issues s false lanes g u pre j → addrCheck .glob 0 (chk j) = none →
       acc j = .load sc acq exact major minor tgt els → LoadReady j els pcs →
       ((j.base.core j.core).forward (pcs.flatMap Prod.snd) = .none →
         (pcs = [] → exec x s = .next (s.withDev (j.dev.deliver j.tid tgt.pv tgt.fmt tgt.init))) ∧
         (pcs ≠ [] → j.missRoom ((pcs.filter (fun p => (j.l1Hit sc pcs p).isNone)).map (fun p => p.1.line)) = true →
           exec x s = .next (s.withDev (j.loadSent sc acq exact major minor tgt pcs)))) ∧
       (∀ f, (j.base.core j.core).forward (pcs.flatMap Prod.snd) = .all f →
         exec x s = .next (s.withDev (j.forwarded sc acq exact major minor tgt pcs f)))) ∧
  (∀ (x : Instr) (lanes : Bool) (g : Guard) (u : Uses) (pre : Thread → Option Nat) (sp : Space)
     (chk : In → List (Word × Nat × Nat)) (acc : In → Access), AccessForm x lanes g u pre sp chk acc → sp ≠ .glob →
     ∀ (s : State) (j : In) (sc : Scope) (acq exact : Bool) (major minor : Nat) (tgt : LoadTo) (els : List VEl) (d : Dev),
       Issues s false lanes g u pre j → addrCheck sp (j.base.window j.tid j.t sp).2 (chk j) = none →
       acc j = .load sc acq exact major minor tgt els → j.ordered true = true →
       let base := (j.base.window j.tid j.t sp).1
       let at' := els.map (fun e => e.at (base + e.va.toNat))
       (∀ e ∈ at', ∀ b ∈ e.bytes, j.base.badWords.contains (b.1 / 8 * 8) = false) →
       j.near base ((at'.flatMap El.bytes).map Prod.fst) = some d →
       exec x s = .next (s.withDev (d.deliver j.tid tgt.pv tgt.fmt (tgt.init ++ readEls s.mem.read at'))))

/-- R81, R82, R280, R284; R37, R81, R258, R259: a global store that passes R78, that no older acquire holds and for
which S and the store buffer have room completes: with no active element it is over, else one entry for each
piece enters the store buffer; memory stays. A store to the niche or the gallery that passes R78, when nothing
holds it and its port and banks are free, completes: its bytes are in memory, every byte outside them reads as
before in every state whose memory is in its canonical form, and the marks of the words that it overwrites whole
are gone. Where the spec leaves a point open, it rests on the model's choice: notes/assumptions/32.md,
notes/assumptions/36.md, notes/assumptions/99.md. -/
def Obligations.StoresIssue : Prop :=
  (∀ (x : Instr) (lanes : Bool) (g : Guard) (u : Uses) (pre : Thread → Option Nat)
     (chk : In → List (Word × Nat × Nat)) (acc : In → Access), AccessForm x lanes g u pre .glob chk acc →
     ∀ (s : State) (j : In) (sc : Scope) (rel exact : Bool) (major minor : Nat) (bs : List VB) (split : List Word)
       (pcs : List (PKey × List MByte)), Issues s false lanes g u pre j → addrCheck .glob 0 (chk j) = none →
       acc j = .store sc rel exact major minor bs split → j.ordered false = true →
       j.parts .write VB.va VB.at bs [] = .ok pcs → j.canPost pcs.length →
       (pcs = [] → exec x s = .next (s.withDev j.dev)) ∧
       (pcs ≠ [] → exec x s = .next (s.withDev ({ j with dev := j.samples pcs j.dev }.posted
         (pcs.map (fun (q : PKey × List MByte) => (q.1, AccOp.store q.2))) sc rel exact major minor split)))) ∧
  (∀ (x : Instr) (lanes : Bool) (g : Guard) (u : Uses) (pre : Thread → Option Nat) (sp : Space)
     (chk : In → List (Word × Nat × Nat)) (acc : In → Access), AccessForm x lanes g u pre sp chk acc → sp ≠ .glob →
     ∀ (s : State) (j : In) (sc : Scope) (rel exact : Bool) (major minor : Nat) (bs : List VB) (split : List Word) (d : Dev),
       Issues s false lanes g u pre j → addrCheck sp (j.base.window j.tid j.t sp).2 (chk j) = none →
       acc j = .store sc rel exact major minor bs split → j.ordered false = true → j.room false 1 = true →
       j.base.storesBelow j.tid j.core j.t.fenceRel = false →
       let base := (j.base.window j.tid j.t sp).1
       j.near base (bs.map (fun b => base + b.va.toNat)) = some d →
       ∃ t, exec x s = .next t ∧ t.mem = s.mem.writeAll (nearBytes s.mem base bs) ∧
         t.dev = { d with badWords := d.badWords.filter (fun w => !(List.range 8).all (fun k =>
           bs.any (fun b => base + b.va.toNat == w + k && b.mask == 0xFF))) } ∧
         (s.Inv → ∀ a, (∀ b ∈ bs, base + b.va.toNat ≠ a) → s.SameByte t a))

/-- R82, R147, R247, R293, R295, R299: a posted head of one place that passes its checks, that no older acquire
holds and for which S and the store buffer have room completes as one entry of the store buffer; a store under a
bundle is marked with its handle. Where the spec leaves a point open, it rests on the model's choice:
notes/assumptions/40.md. -/
def Obligations.PostedHeads : Prop :=
  ∀ (x : Instr) (g : Guard) (u : Uses) (pre : Thread → Option Nat) (c : In → Prop) (f : In → Post),
    PostForm x g u pre c f → ∀ (s : State) (j : In), Issues s false false g u pre j → c j → j.ordered false = true →
      j.canPost 1 →
      let d := { j with dev := if (f j).heat then j.samples [((f j).key, [()])] j.dev else j.dev }.posted
        [((f j).key, (f j).op)] (f j).sc (f j).rel (f j).exact (f j).major (f j).minor []
      exec x s = .next (s.withDev ((f j).bun.elim d (d.underBundle j.dev.nextOp)))

/-- R250, R289, R297, R299: BLD, TAGLD and MCSLD that pass their checks, that nothing holds, that find no entry of
the store buffer over their bytes, and for which L and the miss registers have room, complete by sending their
access to its home; ATOM completes as an entry of the store buffer that returns a value, and holds later
accesses where it acquires. Where the spec leaves a point open, it rests on the model's choice:
notes/assumptions/40.md, notes/assumptions/48.md. -/
def Obligations.HomeReads : Prop :=
  (∀ (x : Instr) (p : Bool) (g : Guard) (u : Uses) (c : In → Prop) (e : In → Thread → Thread) (f : In → HomeLoad),
    HomeLoadForm x p g u c e f → ∀ (s : State) (j : In), IssuesS s p g u j → c j → j.ordered true = true →
      j.canLoad (f j).key.line = true →
      (j.base.core j.core).sb.any (fun b => b.op.overlaps (f j).at' (f j).n) = false →
      exec x s = .next (s.withDev (j.samples [((f j).key, [()])]
        (((((j.dev.updThr j.tid (e j)).openOp j.tid 1 true (some (f j).d) none (f j).kp).1).setOp j.dev.nextOp .none []).send
          (.acc (j.acc (f j).op (f j).key j.dev.nextOp (f j).d .sys false false (f j).major (f j).minor .travelling)))))) ∧
  (∀ (o : AtomInstr) (s : State) (j : In) (l : Word) (p n : Nat), n = (if o.dw then 8 else 4) →
    IssuesS s false o.g (atomUses o) j →
    Reaches j .atomic (j.a + o.off.signExtend 64) n l p → j.ordered false = true → j.room true 1 = true →
    j.sbRoom 1 = true → j.base.missUsed j.core < 48 →
    exec (.atom o) s = .next (s.withDev (j.samples [(onePiece (j.a + o.off.signExtend 64) l p, [()])]
      ((((j.dev.openOp j.tid 1 true (some o.d) none none).1).holdFor j.tid j.dev.nextOp
          (o.od == .acq || o.od == .acr)).pushSb j.core
        [j.acc (.atom o.op p n j.b j.c o.d) (onePiece (j.a + o.off.signExtend 64) l p) j.dev.nextOp o.d o.sc false
          (j.waitsOlder (o.od == .rel || o.od == .acr) o.sc) 0x16 o.op.code .travelling]))))

/-- R282: PREF completes in every state: with no effect where its address has not the form of R78, has no
translation at hand, lies where nothing is, is of a line that the L1 holds (PREF.l1), or finds no miss register;
else it sends an access for its line. Where the spec leaves a point open, it rests on the model's choice:
notes/assumptions/39.md. -/
def Obligations.Prefetches : Prop :=
  ∀ (o : PrefOp) (s : State) (j : In), IssuesS s false o.g { xs := [o.a] } j →
    (formOk (j.ea o.off) = false → exec (.pref o) s = .next (s.withDev j.dev)) ∧
    (formOk (j.ea o.off) = true →
      (j.base.translate j.core j.t.ctx (j.ea o.off) .read = none → exec (.pref o) s = .next (s.withDev j.dev)) ∧
      (∀ l p, j.base.translate j.core j.t.ctx (j.ea o.off) .read = some (l, p) →
        ((keyOk p = false ∨ (o.grot = false ∧ ((j.base.core j.core).copy (lineOf p) j.drip).isSome = true)
            ∨ j.missRoom [lineOf p] = false) → exec (.pref o) s = .next (s.withDev j.dev)) ∧
        (keyOk p = true → (o.grot = true ∨ ((j.base.core j.core).copy (lineOf p) j.drip).isSome = false) →
          j.missRoom [lineOf p] = true → exec (.pref o) s = .next (s.withDev (j.dev.send (.acc
            (j.acc (.pref o.grot) (onePiece (j.ea o.off) l p) j.base.nextOp 0 .core false false 0x1B 0 .travelling)))))))

/-! ### Heads: requests and commands -/

/-- R96, R104, R130 to R151, R220, R230, R245 to R251, R327 to R331, R338, R345, R351; R139, R145, R298: a head that
asks for a reply word completes by sending its request, its destination pending and L counted, when its operands
are good and a miss register and room in L are free. LOCK sends its request and holds back later accesses; BWAIT
waits for its reply; MCSST stages its dword for a line of the set, and one with a destination asks for the
commit. A duration of zero and a barrier of more members than its range are refused by the core itself (R106,
R141). Where the spec leaves a point open, it rests on the model's choice: notes/assumptions/48.md. -/
def Obligations.RequestsSent : Prop :=
  (∀ (x : Instr) (p : Bool) (g : Guard) (u : Uses) (c : In → Prop) (r : Reg) (q : In → Req),
     RequestForm x p g u c r q → ∀ (s : State) (j : In), IssuesS s p g u j → c j → j.canL = true →
       exec x s = .next (s.withDev (j.asked r (q j)))) ∧
  ((∀ (o : LockOp) (s : State) (j : In) (l : Word) (p n : Nat),
     IssuesS s false o.g { xs := if o.c.val = 0 then [o.a, o.b] else [o.a, o.b, o.c], late := some o.d } j →
     Reaches j .read j.a 8 l p → duration (j.b.toNat % 65536) = some n → j.canL = true →
     exec (.lock o) s = .next (s.withDev
       ((((j.dev.openOp j.tid 1 true (some o.d) none none).1).holdFor j.tid j.dev.nextOp true).send
         (.req (j.src o.d j.dev.nextOp) (.lock p n (if o.c.val = 0 then none else some j.c.toNat) o.sc))))) ∧
   (∀ (o : BwaitOp) (s : State) (j : In), IssuesS s false o.g { xs := [o.a, o.b], late := some o.d } j →
     hKind j.a = 3 → j.t.acq = [] → j.canL = true →
     exec (.bwait o) s = .next (s.withDev
       ((((j.dev.openOp j.tid 1 true none none none).1).updThr j.tid (fun t => { t with wst := .bwait })).send
         (.req (j.src o.d j.dev.nextOp) (.bwait j.a j.b))))) ∧
   (∀ (o : AB) (s : State) (j : In) (l : Word) (p : Nat), IssuesS s true o.g { xs := [o.a, o.b] } j →
     Reaches j .write j.a 8 l p → j.ordered false = true → j.t.mcsLines.contains (lineOf p) = true →
     (j.t.mcsStaged.any (fun q => q.1 == p) = true ∨ j.t.mcsStaged.length < 16) →
     exec (.mcsst o) s = .next (s.withDev
       (j.dev.updThr j.tid (fun t => { t with mcsStaged := put p j.b t.mcsStaged })))) ∧
   (∀ (o : RRRx) (s : State) (j : In) (l : Word) (p : Nat),
     IssuesS s true o.g { xs := [o.a, o.b], late := some o.d } j → j.ordered false = true → j.t.mcsLines ≠ [] →
     Reaches j .write j.a 8 l p →
     j.t.mcsLines.contains (lineOf p) = true →
     (j.t.mcsStaged.any (fun q => q.1 == p) = true ∨ j.t.mcsStaged.length < 16) → j.canL = true →
     exec (.mcsstCommit o) s = .next (s.withDev
       ({ j with dev := j.dev.updThr j.tid (fun t => { t with mcsStaged := put p j.b t.mcsStaged }) }.asked o.d .mcs)))) ∧
  (∀ (x : Instr) (g : Guard) (u : Uses) (c : In → Prop) (r : Reg) (cause : Nat), CoreRefusalForm x g u c r cause →
     ∀ (s : State) (j : In), IssuesS s false g u j → c j →
       exec x s = .next (s.withDev (j.dev.putX j.tid r (refusalWord cause))))

/-- R222, R225 to R229, R231, R234, R237, R358: a command to the matrix array counts in M and is sent with its
head's address; one to a copy engine counts in C and is sent. CPOP takes the oldest result of its FIFO (R239).
Where the spec leaves a point open, it rests on the model's choice: notes/assumptions/17.md. -/
def Obligations.CommandsSent : Prop :=
  (∀ (x : Instr) (g : Guard) (u : Uses) (c : In → Prop) (q : In → MCmd), ArrayForm x g u c q →
    ∀ (s : State) (j : In), IssuesS s false g u j → c j → j.t.acq = [] → j.base.arrayRoom (coreClus j.core) = true →
      j.t.cM < 255 →
      exec x s = .next (s.withDev ((j.dev.updThr j.tid (fun t => { t with cM := t.cM + 1 })).send
        (.command (j.src 0 j.base.nextOp) (coreClus j.core) (q j) s.dev.iss.head)))) ∧
  (∀ (x : Instr) (p : Bool) (g : Guard) (u : Uses) (c : In → Prop) (e : In → Nat) (q : In → ECmd),
    EngineForm x p g u c e q → ∀ (s : State) (j : In), IssuesS s p g u j → c j → j.t.acq = [] →
      j.engineRoom (e j) = true → j.t.cC < 255 →
      exec x s = .next (s.withDev ((j.dev.updThr j.tid (fun t => { t with cC := t.cC + 1 })).send
        (.engine (j.src 0 j.base.nextOp) (coreClus j.core) (e j) (q j))))) ∧
  (∀ (o : EngOp) (s : State) (j : In) (w : Word) (l : List Word), IssuesS s false o.g { xd := some o.d } j →
    j.t.fifo o.e.val = w :: l →
    exec (.cpop o) s = .next (s.withDev ((j.dev.updThr j.tid (fun t => t.setFifo o.e.val l)).putX j.tid o.d w)))

/-! ### Heads: vector -/

/-- R193 to R215; R207, R212, R213: a vector head that writes lanes completes when the datapath is free: each active
lane of its destination group holds its result, each inactive lane its old bits, every register of the group its
tag and scale file; no other vector register, scalar register or predicate of the thread changes. VCMP writes
the bits of a predicate pair of the active lanes, clears those past its last lane, and keeps the others; VMOVS
reads or writes one element; VTAG writes bits, tag and scales. Where the spec leaves a point open, it rests on
the model's choice: notes/assumptions/13.md, notes/assumptions/28.md. -/
def Obligations.LaneResults : Prop :=
  (∀ (x : Instr) (g : Guard) (u : Uses) (pre : Thread → Option Nat) (l : In → Lanes), LaneForm x g u pre l →
     ∀ (s : State) (j : In), IssuesV s g u pre j → j.vfree = true →
       ∃ d t0 t, exec x s = .next (s.withDev d) ∧ j.dev.thr j.tid = some t0 ∧ d.thr j.tid = some t ∧
         (l j).holds g j t.regs ∧
         (∀ v : VR, (∀ q < (l j).r, grp (l j).d q ≠ v) → t.regs.rv v = t0.regs.rv v) ∧
         t.regs.x = t0.regs.x ∧ t.regs.k = t0.regs.k ∧
         t.srctr = (if (l j).sr then t0.srctr + 1 else t0.srctr)) ∧
  ((∀ (o : VCmpOp) (s : State) (j : In), IssuesV s o.g { vs := [o.a, o.b], kd := [kpLo o.kd, kpHi o.kd] }
       (tagPre .always o.ef.count [(o.a, o.ef), (o.b, o.ef)] [] o.ef) j → j.vfree = true →
     ∃ d t, exec (.vcmp o) s = .next (s.withDev d) ∧ d.thr j.tid = some t ∧
       ∀ k < 1024, let c := (vcmpLane o.ef o.cc (j.elem o.a o.ef k) (j.elem o.b o.ef k)).1
         bit (t.regs.rk (kpLo o.kd)) k = (decide (k < o.ef.count) &&
           (if laneOn o.g j.t k then c else bit (j.t.regs.rk (kpLo o.kd)) k)) ∧
         bit (t.regs.rk (kpHi o.kd)) k = (decide (k < o.ef.count) &&
           (if laneOn o.g j.t k then !c else bit (j.t.regs.rk (kpHi o.kd)) k))) ∧
   (∀ (o : VgetOp) (s : State) (j : In),
     IssuesV s o.g { xs := regOf o.j, xd := some o.d, vs := [o.a], off := idxOff o.g [] o.j }
       (fun t => (tagPre .always o.ef.count [(o.a, o.ef)] [] o.ef t).or (idxPre s.dev [] o.j o.ef.count t)) j →
     j.vfree = true →
     exec (.vmovsGet o) s = .next (s.withDev (j.vhold 1 (j.dev.putX j.tid o.d
       (if o.ef.isSigned then
         (BitVec.ofNat o.ef.bits (j.elem o.a o.ef (immOr o.j j.a).toNat)).signExtend 64
        else wd64 (j.elem o.a o.ef (immOr o.j j.a).toNat)))))) ∧
   (∀ (o : VputOp) (s : State) (j : In),
     IssuesV s o.g { xs := o.a :: regOf o.j, vs := [o.d], vd := [o.d], off := idxOff o.g [o.a] o.j }
       (fun t => (if (t.regs.rv o.d).tag = o.ef ∨ (t.regs.rv o.d).tag = .none then none
         else some Cause.formatTag).or (idxPre s.dev [o.a] o.j o.ef.count t)) j → j.vfree = true →
     ∃ d t, exec (.vmovsPut o) s = .next (s.withDev d) ∧ d.thr j.tid = some t ∧ (t.regs.rv o.d).tag = o.ef ∧
       ∀ p < o.ef.count, (t.regs.rv o.d).el o.ef.bits p =
         if p = (immOr o.j j.b).toNat then j.a.toNat % 2 ^ o.ef.bits else j.elem o.d o.ef p) ∧
   (∀ (o : VtagOp) (s : State) (j : In),
     IssuesV s .always (vUses (if o.scl then [o.a, o.b] else [o.a]) [o.d]) (fun _ => none) j → j.vfree = true →
     exec (.vtag o) s = .next (s.withDev (j.vhold 1 (j.dev.updThr j.tid (fun t => { t with regs := (t.regs.wv o.d
       ⟨(j.t.regs.rv o.a).bits, o.ef,
         (if o.scl then
           (if o.ef = .sv4 then BitVec.ofNat 256 (bits (j.t.regs.rv o.b).bits 0 256)
            else if o.ef.isB then BitVec.ofNat 256 (bits (j.t.regs.rv o.b).bits 0 128) else 0)
         else keepSx (j.t.regs.rv o.a) o.ef)⟩) }))))))

/-! ### Heads: system -/

/-- R350, Tables 2-5, 13-1, 17-12; R151, R250, R305, R346, R351, R354: SRD writes the register's value, SWR writes
what the tables let it write. JRNL reads and JACK frees a journal entry; BVIEW sets the view to a stamp not in
the future; DONE is sent at once, or is to be sent with the last of the stores it waits for, and a second one or
one of a block of no launch does nothing; TRAP traps with its cause, the next head and its operand; PSTOP and
PGO stamp a stop and its end; CTXLD loads an image. Where the spec leaves a point open, it rests on the model's
choice: notes/assumptions/51.md, notes/assumptions/85.md, notes/assumptions/90.md. -/
def Obligations.SystemHeads : Prop :=
  ((∀ (r : SysReg) (v : In → Word), SysValue r v → ∀ (p : Bool), (p = true ↔ privReads r) →
     ∀ (o : SrdOp) (s : State) (j : In), o.reg = r → IssuesS s p o.g { xd := some o.d } j →
       exec (.srd o) s = .next (s.withDev (j.dev.putX j.tid o.d (v j)))) ∧
   (∀ (o : SrdOp) (n : Fin 32) (s : State) (j : In), o.reg = .gstat n → IssuesS s true o.g { xd := some o.d } j →
     exec (.srd o) s = .next (s.withDev (j.dev.putX j.tid o.d
       (wd64 (min (j.base.effk (coreDie j.core) n.val) 4096 * 2 ^ 32
         + (j.base.die (coreDie j.core)).corr[n.val] * 2 ^ 16 + (j.base.die (coreDie j.core)).uncr[n.val]))))) ∧
   (∀ (r : SysReg) (c : Word → Prop) (f : In → Word → Dev), SysWrite r c f →
     ∀ (o : SwrOp) (s : State) (j : In), o.reg = r → IssuesS s true o.g { xs := [o.a] } j → c j.a →
       exec (.swr o) s = .next (s.withDev (f j j.a)))) ∧
  ((∀ (o : JrnlOp) (s : State) (j : In) (h : j.a.toNat < 64), IssuesS s false o.g { xs := [o.a], xd := some o.d } j →
     exec (.jrnl o) s = .next (s.withDev (j.dev.putX j.tid o.d
       (((j.base.core j.core).jrnl[j.a.toNat]'h).word o.w.val)))) ∧
   (∀ (o : GA) (s : State) (j : In) (h : j.a.toNat < 64), IssuesS s false o.g { xs := [o.a] } j →
     let e := (j.dev.core j.core).jrnl[j.a.toNat]'h
     exec (.jack o) s = .next (s.withDev (if e.v then j.dev.setCore j.core { j.dev.core j.core with
       jrnl := (j.dev.core j.core).jrnl.set j.a.toNat { e with v := false, from' := j.drip + 1 } } else j.dev))) ∧
   (∀ (o : RR) (s : State) (j : In), IssuesS s false o.g { xs := [o.a], xd := some o.d } j → j.a.toNat ≤ j.drip →
     exec (.bview o) s = .next (s.withDev ((j.dev.updThr j.tid (fun t =>
       { t with view := if j.a = 0 then wd64 j.drip else j.a })).putX j.tid o.d (if j.a = 0 then wd64 j.drip else j.a)))) ∧
   (∀ (o : GOp) (s : State) (j : In) (b : Block), IssuesS s false o.g {} j → j.dev.blk j.t.blk = some b →
     let ops := (j.dev.outst.filter (fun x => !x.isL && (b.crews.flatMap Crew.tids).contains x.tid)).map Outst.op
     exec (.done o) s = .next (s.withDev
       (if b.launch = none ∨ b.doneSent = true ∨ b.doneWait ≠ none then j.dev
        else if ops = [] then j.dev.sendDone j.t.blk j.t.coreSlot.1
        else j.dev.setBlk j.t.blk { b with doneWait := some (j.t.coreSlot.1, ops) }))) ∧
   (∀ (o : TrapOp) (s : State) (j : In), IssuesS s false o.g { xs := [o.a] } j →
     exec (.trap o) s = .next (s.withDev
       { j.dev.tickFresh.takeTrap s.drip s.mem j.tid (0x380 + o.n.toNat) s.dev.iss.next j.a with
         note := .trapped (0x380 + o.n.toNat) s.dev.iss.next j.a })) ∧
   (∀ (o : GA) (s : State) (j : In) (t : Nat), IssuesS s true o.g { xs := [o.a] } j →
     t = stampAt j.drip j.a → j.drip + 512 ≤ t →
     j.base.stops.any (fun x => x.tenant == bits j.a 56 8) = false →
     exec (.pstop o) s = .next (s.withDev ({ j.dev with
       pstop := j.a
       stops := j.dev.stops ++ [(⟨bits j.a 56 8, t, none, false⟩ : Stop)] }.suspendAll j.drip (bits j.a 56 8) t))) ∧
   (∀ (o : GA) (s : State) (j : In) (x : Stop), IssuesS s true o.g { xs := [o.a] } j →
     j.base.stops.find? (fun x => x.tenant == bits j.a 56 8) = some x → j.drip + 512 ≤ stampAt j.drip j.a →
     x.at' + 512 ≤ stampAt j.drip j.a → (∀ g, x.go = some g → j.drip < g) →
     exec (.pgo o) s = .next (s.withDev { j.dev with
       pgo := j.a
       stops := j.dev.stops.map (fun (y : Stop) =>
         if y.tenant = bits j.a 56 8 then { y with go := some (stampAt j.drip j.a) } else y) })) ∧
   (∀ (o : CtxOp) (s : State) (j : In) (l : List (PKey × List Nat)) (v : Nat) (d : Dev),
     IssuesS s true o.g { xs := [o.a], late := some o.d } j → CtxReady j o l v d →
     exec (.ctxld o) s = .next (s.withDev (d.reply (j.src o.d j.dev.nextOp) 0))))

/-! ### Replies and accesses -/

/-- R25, R84, R96, R120, R121, R278: what reaches a slot that no stop holds. Of a value no part of which was
refused, the last part that comes is delivered and ends its operation, and an earlier one is kept; a refusal
that comes last, where no other came before it, leaves the trap of R84 waiting, unless it is an uncorrectable
error; a reply word is written and ends its operation (ALLOC's writes LSTAT too, and BWAIT's ends its wait); an
acknowledgement ends a piece; a refused posted access enters the lowest free entry of the journal, or where none
is free the lost count rises, and ends its piece; a report makes a trap wait, and ends what the thread waits in.
Where the spec leaves a point open, it rests on the model's choice: notes/assumptions/21.md,
notes/assumptions/36.md. -/
def Obligations.RepliesArrive : Prop :=
  (∀ (s : State) (m : Nat) (src : From) (vals : List (Dest × Nat)) (kp : Option (KP × Bool)) (fl : BitVec 5)
    (o : Outst) (t : Thread),
    ((∃ ln, s.carries m (.data src vals kp fl ln)) ∨
      ((∃ due ≤ s.drip, s.carries m (.hit src vals due)) ∧ kp = none ∧ fl = 0)) → s.dev.srcStopped src = false →
    s.dev.outst.find? (fun o => o.op = src.op) = some o → s.dev.thr o.tid = some t → o.err = none →
    let d := (s.dev.drop m).raiseFlags o.tid (if t.place = .saved then s.dev.crewCore t.blk o.tid else t.coreSlot.1) fl
    (o.left ≤ 1 → Yields (.loadDataArrival m) s ((d.delivered o (o.vals ++ vals) kp).closeOp s.drip s.mem o.op)) ∧
    (1 < o.left → Yields (.loadDataArrival m) s (d.gathered o (o.vals ++ vals) none))) ∧
  (∀ (s : State) (m : Nat) (src : From) (v : Word) (bw : Bool) (ls : Option Nat) (o : Outst),
    s.carries m (.reply src v bw ls) → s.dev.srcStopped src = false →
    s.dev.outst.find? (fun o => o.op = src.op) = some o → o.left ≤ 1 → o.err = none →
    Yields (.replyArrival m) s
      ((((s.dev.drop m).updThr src.tid (Thread.answered bw ls)).delivered o (o.vals ++ [(.x src.d, v.toNat)]) none).closeOp
        s.drip s.mem o.op)) ∧
  (∀ (s : State) (m : Nat) (src : From) (c rank : Nat) (ea : Word) (ln : Option Nat) (o : Outst),
    s.carries m (.error src c ea rank ln) → s.dev.srcStopped src = false → c ≠ Cause.sramUncorrectable →
    c ≠ Cause.dramUncorrectable → s.dev.outst.find? (fun o => o.op = src.op) = some o → o.left ≤ 1 → o.err = none →
    Yields (.errorReply m) s ((((s.dev.drop m).updThr src.tid (Thread.answered true none)).updThr o.tid
      (fun t => { t with traps := t.traps ++ [(⟨c, ea⟩ : PendTrap)] })).closeOp s.drip s.mem o.op)) ∧
  (∀ (s : State) (m : Nat) (src : From), s.carries m (.ack src) → s.dev.srcStopped src = false →
    Yields (.acknowledgement m) s ((s.dev.drop m).pieceDone s.drip s.mem src.op)) ∧
  (∀ (s : State) (m : Nat) (src : From) (j : JEntry) (t : Thread), s.carries m (.refused src j) →
    s.dev.srcStopped src = false → s.dev.thr src.tid = some t →
    (∀ i, freeEntry s.drip 0 (s.dev.core t.coreSlot.1).jrnl.toList = some i → Yields (.refusalAcknowledgement m) s
      (((s.dev.drop m).setCore t.coreSlot.1 { s.dev.core t.coreSlot.1 with
        jrnl := (s.dev.core t.coreSlot.1).jrnl.setIfInBounds i { j with slot := t.coreSlot.2, v := true, rpt := false }
        }).pieceDone s.drip s.mem src.op)) ∧
    (freeEntry s.drip 0 (s.dev.core t.coreSlot.1).jrnl.toList = none → Yields (.refusalAcknowledgement m) s
      (((s.dev.drop m).setThr src.tid { t with lost := min (t.lost + 1) 0xFFFF }).pieceDone s.drip s.mem src.op))) ∧
  (∀ (s : State) (m tid c : Nat) (v : Word), s.carries m (.report tid c v) →
    s.dev.threads.any (fun p => p.1 == tid && p.2.preempted) = false →
    Yields (.report m) s ((s.dev.drop m).updThr tid (Thread.reported c v)))

/-- R82, R83, R112, R113, R122, R123, R261, R266, R290, R293: the oldest store leaves its buffer, a release once the
core's older stores have performed; an access that names no handle is judged at its home in its turn, and
accepted, refused or made to wait for its lease's root; a load whose elements lie each in one line, and that is
due, is served with the bytes of its line, and fills the L1 where its scope is the core's; a hit that no older
load stands before takes the data its core holds, or goes to its home where the copy has run out and a miss
register is free; a store whose elements lie each in one line performs when it is due, by writing its bytes; an
atomic replies the old value and writes the new; an exact add goes into its element; a TAGST sets its tag; an L1
copy whose lease has run out is dropped; a code line is given to the L1. The lines are of one version and sound,
none is exact but ATOMX's, and the store's is no command window's and no I/O die register's. Where the spec
leaves a point open, it rests on the model's choice: notes/assumptions/9.md, notes/assumptions/26.md,
notes/assumptions/27.md, notes/assumptions/86.md, notes/assumptions/92.md, notes/assumptions/107.md. -/
def Obligations.AccessesAtHome : Prop :=
  (∀ (s : State) (core : Nat) (a : Acc) (rest : List Acc), (s.dev.core core).sb = a :: rest →
    s.dev.seenDone core = true → (a.rel = false ∨ s.dev.unperf core = []) →
    Yields (.storeBufferDrain core) s
      ((s.dev.setCore core { (s.dev.core core).drainL1 s.drip a with sb := rest }).send (.acc a))) ∧
  (∀ (s : State) (m : Nat) (a : Acc), s.carries m (.acc a) → (∀ h l, a.op ≠ .bst h l) → (∀ h o v, a.op ≠ .psend h o v) →
    a.st = .travelling → s.dev.inOrder m a = true →
    let d := s.dev.touch a.src.core a.line
    (d.judgeAcc s.drip (d.accHome a) a = .accept → Yields (.commitPoint m) s (d.acceptAcc s.drip m a)) ∧
    (∀ c r ea, d.judgeAcc s.drip (d.accHome a) a = .refuse c r ea → Yields (.commitPoint m) s
      ((if c = Cause.conflict then d.askBundle (d.accHome a) a.line else d).refuseAcc s.drip m a c r ea)) ∧
    (∀ l, d.judgeAcc s.drip (d.accHome a) a = .consult l →
      Yields (.commitPoint m) s (d.consultFor s.drip m (d.accHome a) a l))) ∧
  (∀ (s : State) (m : Nat) (a : Acc) (els : List El), s.carries m (.acc a) → a.op = .load els → a.joint = false →
    s.dev.loadDue s.drip m a → s.dev.plainLine a.line → s.dev.isExact a.line = false → s.dev.cleanEls els →
    let d := (s.dev.drop m).holdLine s.drip s.mem a.line false []
    let e := if nearOnly a.scope ∧ s.dev.madeWord s.drip a.line = none ∧ s.dev.poisonedLine a.line = false then
      d.fillL1 s.drip a.src.core a.line (d.rleaseOf a.src.tid) (BitVec.ofNat 1024 (s.mem.readN a.line 128)) else d
    Yields (.loadService m) s ((e.send (.data a.src (readEls (s.dev.homeByte s.drip s.mem) els) none 0
      (some a.line))).afterLoad s.drip a.src.core)) ∧
  (∀ (s : State) (m n until' : Nat) (a : Acc) (els : List El) (b : BitVec 1024), a.op = .load els →
    s.carries m (.acc a) → a.st = .l1 b until' → s.dev.loadsBefore m a.src.core = false →
    s.dev.oldestLoad a.src.core = some (m, a) → s.dev.msgs.length = n + 1 →
    (s.drip < until' → Yields (.loadService m) s
      (((s.dev.drop m).coreData s.drip a (versionByte b a.line)).settleHits s.drip a.src.core n)) ∧
    (until' ≤ s.drip → s.dev.missUsed a.src.core < 48 → Yields (.loadService m) s
      (s.dev.reMsg m (.acc { a with st := .travelling })))) ∧
  (∀ (s : State) (m : Nat) (a : Acc) (l : List MByte), s.carries m (.acc a) → a.op = .store l → a.joint = false →
    s.dev.storeDue s.drip m a → s.dev.isExact a.line = false → s.dev.windowOf a.line = none →
    ¬(keyAp a.line = 0 ∧ keyPhys a.line = ioBase) →
    let w := s.dev.homeWrite s.drip s.mem l
    Writes (.storePerform m) s
      ((((s.dev.drop m).snoopSets a.src.tid a.line).holdLine s.drip s.mem a.line true w).clearPoison w) w) ∧
  (∀ (s : State) (m : Nat) (a : Acc) (f : AtomFn) (p n : Nat) (b c : Word) (r : Reg), s.carries m (.acc a) →
    a.op = .atom f p n b c r → s.dev.storeDue s.drip m a → s.dev.plainLine a.line → s.dev.poisoned p = false →
    let old := bitsFrom (s.dev.homeByte s.drip s.mem) p 0 (8 * n)
    let new := atomNew f (8 * n) old (b.toNat % 2 ^ (8 * n)) (c.toNat % 2 ^ (8 * n))
    let w := s.dev.homeWrite s.drip s.mem ((List.range n).map (fun k => ⟨p + k, 0xFF, byteOf new.1 k⟩))
    let d := (s.dev.drop m).snoopSets a.src.tid a.line
    Writes (.atomicService m) s
      ((if (s.dev.accHome a).mod = s.dev.modNo then d.holdLine s.drip s.mem a.line true w else d).send
        (.data a.src [(.x r, atomReply f (8 * n) old)] none new.2 none)) w) ∧
  (∀ (s : State) (m : Nat) (a : Acc) (p : Nat) (v : BitVec 32), s.carries m (.acc a) → a.op = .atomx p v →
    s.dev.storeDue s.drip m a →
    Yields (.atomxService m) s { (s.dev.drop m).snoopSets a.src.tid a.line with
      exactEls := put p ((s.dev.exactEl p).1 + (exactOf v.toNat).1, (s.dev.exactEl p).2 ||| (exactOf v.toNat).2)
        s.dev.exactEls }) ∧
  (∀ (s : State) (m p : Nat) (a : Acc) (t : BitVec 4), s.carries m (.acc a) → a.op = .tagst p t →
    s.dev.storeDue s.drip m a → keyAp p ≤ 0xC0 →
    Yields (.storePerform m) s { s.dev.drop m with
      tags := if t = 0 then del p s.dev.tags else put p t s.dev.tags }) ∧
  (∀ (s : State) (core line : Nat), (s.dev.core core).l1.any (fun e => e.line = line && e.expiry ≤ s.drip) = true →
    Yields (.readLeaseExpiry core line) s (s.dev.setCore core { s.dev.core core with
      l1 := (s.dev.core core).l1.filter (fun e => !(e.line = line && e.expiry ≤ s.drip)) })) ∧
  (∀ (s : State) (m core line len : Nat), s.carries m (.fetch core line len) →
    s.dev.msgs.any (fun x => x.kind.storeAt line) = false →
    s.dev.heldAway s.drip line false = false → s.dev.plainLine line →
    ∃ d, Yields (.codeFetchArrival m) s d ∧ d.msg m = none ∧ (d.core core).fetching.contains line = false ∧
      (0 < len → (d.core core).copy line s.drip = some (BitVec.ofNat 1024 (s.mem.readN line 128))))

/-! ### The host and the leases -/

/-- R124, R361, R366: an access of the host to a place that a live range covers, in an ordinary line that no one
else holds: a read answers its sector and takes read permission, a write takes write permission and holds its
bytes; a read of an offset that no live range covers answers poison and is counted; a request to write back
reaches every live holder; a holder that was asked writes its bytes back and gives the line up, and any other
has another 1,024 drips; a recalled line is written back; a write lease that lapses undoes what a slice wrote
under it and sets the region's REV; a snoop for reading leaves the line clean, and one for writing takes the
line, where no one's lease is left on it, and writes host memory. Where the spec leaves a point open, it rests
on the model's choice: notes/assumptions/68.md. -/
def Obligations.HostTraffic : Prop :=
  (∀ (s : State) (off : Nat) (data : List Byte), s.hostReads ⟨off, false, data⟩ →
    let k := hostKey off
    Yields (.hostAccess ⟨off, false, data⟩) s (({ s.dev with
      hostRead := (s.dev.hostBytes s.drip s.mem (sectorOf k), false) }).givePerm s.drip (lineOf k) false [])) ∧
  (∀ (s : State) (off : Nat) (data : List Byte), s.hostWrites ⟨off, true, data⟩ →
    let k := hostKey off
    Yields (.hostAccess ⟨off, true, data⟩) s ((s.dev.snoopSets s.dev.nextTid (lineOf k)).givePerm s.drip (lineOf k)
      true (data.zipIdx.map (fun p => (k + p.2, p.1))))) ∧
  (∀ (s : State) (off : Nat) (data : List Byte), off < 4 * dieBytes → s.dev.inReset = false →
    s.dev.hostMay s.drip (hostKey off) = false →
    Yields (.hostAccess ⟨off, false, data⟩) s { s.dev with hostRead := ([], true), href := min (s.dev.href + 1) (2 ^ 64 - 1) }) ∧
  (∀ (s : State) (line : Nat), let ask := fun (p : Perm) => if p.line = line ∧ p.live s.drip then { p with asked := true } else p
    Yields (.writeBackRequest line) s { s.dev with
      perms := s.dev.perms.map ask
      sliceLeases := s.dev.sliceLeases.map ask }) ∧
  (∀ (s : State) (line : Nat), s.dev.perms.filter (fun p => p.line == line && p.live s.drip && p.asked) = [] →
    s.dev.sliceLeases.filter (fun p => p.line == line && p.live s.drip) = [] →
    Yields (.permissionLeaseRenewal line) s { s.dev with perms := s.dev.perms.map (fun p =>
      if p.line = line ∧ p.live s.drip then { p with expiry := s.drip + 1024 } else p) }) ∧
  (∀ (s : State) (p : Perm), s.dev.perms.filter (fun q => q.line == p.line && q.live s.drip) = [p] → p.asked = true →
    s.dev.sliceLeases.filter (fun q => q.line == p.line && q.live s.drip) = [] →
    ∃ d, Writes (.permissionLeaseRenewal p.line) s d p.dirty ∧ d.heldAway s.drip p.line true = false) ∧
  (∀ (s : State) (p : Perm), s.dev.perms.filter (fun q => q.line == p.line && q.live s.drip) = [] →
    s.dev.sliceLeases.filter (fun q => q.line == p.line && q.live s.drip) = [p] → ∃ d,
    Yields (.permissionLeaseRenewal p.line) s d ∧
      (p.asked = true → s.dev.leased s.drip p.line = false → ∀ q ∈ d.sliceLeases, q.line ≠ p.line) ∧
      (p.asked = false → s.dev.cutOff p.line = false → ∀ q ∈ d.sliceLeases, q.line = p.line → q.expiry = s.drip + 1024)) ∧
  (∀ (s : State) (line : Nat) (p : Perm), s.dev.hostPerm s.drip line = some p →
    Writes (.backInvalidate line) s (({ s.dev with perms := s.dev.perms.filter (fun q =>
      !(q.line == p.line && q.agent == p.agent)) } : Dev).clearPoison p.dirty) p.dirty) ∧
  (∀ (s : State) (line : Nat), let gone := s.dev.perms.filter (fun p => p.line == line && !p.live s.drip)
    let mine := s.dev.sliceLeases.filter (fun p => p.line == line && !p.live s.drip)
    (gone ++ mine).any Perm.write = true →
    let d : Dev := { s.dev with perms := s.dev.perms.filter (fun p => !(p.line == line && !p.live s.drip)) }
    Writes (.writeLeaseLapse line) s ((if mine = [] then d else d.sliceGives line).fileUnitLog
        (keyPhys line / 2 ^ 37 % 4) (s.dev.tenantAt line) Cause.regionReverted (wd64 (keyPhys line)))
      (mine.flatMap Perm.dirty ++ if 0xC0 < keyAp line then [] else [statusSet s.mem line 0])) ∧
  (∀ (s : State) (o : HostSnoopOp) (line : Nat), line = apKey 0xFE (keyPhys (lineOf o.line)) → s.dev.inReset = false →
    (o.inv = false → Yields (.hostSnoop o) s { s.dev with
      hostLines := s.dev.hostLines.map (fun p => if p.1 = line then (p.1, false) else p)
      sliceLeases := s.dev.sliceLeases.map (fun (p : Perm) => if p.line = line then { p with dirty := [] } else p) }) ∧
    (o.inv = true → s.dev.unitMayWrite s.drip line = true → Writes (.hostSnoop o) s
      ((s.dev.sliceGives line).snoopSets s.dev.nextTid line)
      ((o.data.filter (fun p => p.1 < 128)).map (fun p => (line + p.1, p.2)))))

/-- R108, R109, R110, R112, R116, R126, R136, R137, R138: each where the handle names a record of its holder that
has not lapsed and, for a lock, is not being handed on. Renewal moves the expiry of a root that is no array
grant, never back; a life inquiry answers the life left by the root's clock; tethering asks the lease's home,
then the parent's for the depth, then gives the lease its parent; LINFO reports a record, or a map entry; a root
answers a consultation by its expiry, and the operation that waits goes on; a copy of a lease's expiry is
replaced, unless a lapse is known; a suspended lease is extended; a lease that has lapsed is dead, and what it
guards takes its fate: a lock with no waiter is free, a barrier's waits fault, a launch fails, an anchor
signals. Where the spec leaves a point open, it rests on the model's choice: notes/assumptions/46.md,
notes/assumptions/71.md, notes/assumptions/95.md. -/
def Obligations.LeasesAtHome : Prop :=
  (∀ (s : State) (d : Dev) (m n : Nat) (src : From) (h : Word) (l r : Lease), s.asks m src (.renew h n) d →
    d.named src h = .ok l → d.handsOn s.drip l = false → l.holder = some src.ctx → d.root l = some r →
    d.lapsed s.drip r = false →
    (l.parent.isSome = true ∨ d.lapsed s.drip l = false) → (∀ c, r.payload ≠ .array c) →
    let e := max r.expiry (d.clock s.drip r.agent.mod + n)
    Yields (.renewalArrival m) s (((d.setExpiry r e).spreadExpiry r e).reply src (wd64 e))) ∧
  (∀ (s : State) (d : Dev) (m : Nat) (src : From) (h : Word) (l r : Lease), s.asks m src (.life h) d →
    d.named src h = .ok l → d.root l = some r → d.handsOn s.drip l = false → l.holder = some src.ctx →
    d.lapsedAt l (d.clock s.drip r.agent.mod) = false →
    Yields (.lifeInquiryArrival m) s (d.reply src (wd64 (d.expiry l - d.clock s.drip r.agent.mod)))) ∧
  (∀ (s : State) (d : Dev) (m re : Nat) (src : From) (h p : Word) (l pl r : Lease) (a : AgentId),
    (s.asks m src (.tether h p 1 re) d → d.judged s.drip src h = .ok l → l.parent = none →
      Yields (.tetherArrival m) s (d.send (.req src (.tether h p 2 0)))) ∧
    (s.asks m src (.tether h p 2 re) d → d.judged s.drip src p = .ok pl → d.named src h = .ok l → d.root pl = some r →
      d.links pl + 1 + d.height l ≤ 4 → (r.agent ≠ l.agent ∨ r.index ≠ l.index) →
      Yields (.tetherArrival m) s (d.send (.req src (.tether h p 3 r.expiry)))) ∧
    (s.asks m src (.tether h p 3 re) d → d.named src h = .ok l → d.agentOf src.tenant src.ctx (hAgent p) = some a →
      d.lapsed s.drip l = false → l.parent = none → d.expiry l ≤ re →
      Yields (.tetherArrival m) s ((d.setLease { l with parent := some (a, hIndex p, hGen p) }).reply src (wd64 re)))) ∧
  (∀ (s : State) (d : Dev) (m : Nat) (src : From) (h : Word) (l : Lease), s.asks m src (.info h true) d →
    d.named src h = .ok l → l.holder = some src.ctx → Yields (.infoArrival m) s (d.reply src (d.infoWord s.drip l))) ∧
  (∀ (s : State) (d : Dev) (m : Nat) (src : From) (h : Word), s.asks m src (.info h false) d →
    Yields (.infoArrival m) s (d.reply src
      (((look [] (mapNo src.tenant src.ctx) d.maps)[hAgent h]?.map (fun e => wd64 e.word)).getD 0))) ∧
  (∀ (s : State) (m q ix g t : Nat) (home ag : AgentId) (l : Lease), s.carries m (.consult q home ag ix g t) →
    s.dev.lease ag ix = some l → l.gen = g → Yields (.rootConsultation m) s
      ((s.dev.drop m).send (.answer q home ag ix g (s.dev.lapsedBy l t) (s.dev.expiry l)))) ∧
  (∀ (s : State) (m q ix g e : Nat) (home ag : AgentId) (lapsed : Bool) (a : Acc) (d : Dev),
    s.carries m (.answer q home ag ix g lapsed e) →
    d = (s.dev.drop m).setGuard ⟨home, ag, ix, g, if lapsed then none else some e⟩ → d.msg q = some (.acc a) →
    a.st = .waiting → Yields (.consultationAnswer m) s (d.resumeAcc s.drip q a (ag, ix, g) lapsed)) ∧
  (∀ (s : State) (m : Nat) (c x : GuardCopy), s.carries m (.guard c) →
    s.dev.guards.find? (fun x => x.home = c.home && x.agent = c.agent && x.index = c.index && x.gen = c.gen) = some x →
    (x.expiry = none → Yields (.guardCopyUpdate m) s (s.dev.drop m)) ∧
    (x.expiry ≠ none → Yields (.guardCopyUpdate m) s { s.dev.drop m with guards := c :: s.dev.guards.filter (fun x =>
      !(x.home = c.home && x.agent = c.agent && x.index = c.index && x.gen = c.gen)) })) ∧
  (∀ (s : State) (m ix g e : Nat) (ag : AgentId) (l : Lease), s.carries m (.suspend ag ix g e) →
    s.dev.lease ag ix = some l → l.gen = g → s.dev.lapsed s.drip l = false → l.expiry < e →
    Yields (.suspendMessage m) s (((s.dev.drop m).setExpiry l e).spreadExpiry l ((s.dev.drop m).expiry { l with expiry := e }))) ∧
  (∀ (s : State) (ag : AgentId) (ix : Nat) (l : Lease), s.dev.lease ag ix = some l → l.dead = false →
    s.dev.lapsed s.drip l = true →
    Yields (.leaseExpiry ag ix) s (s.dev.expire s.drip l) ∧
    (∀ w, l.payload = .lock w [] → Yields (.leaseExpiry ag ix) s (s.dev.setLease { l with dead := true })) ∧
    (∀ b, l.payload = .barrier b → Yields (.leaseExpiry ag ix) s ((s.dev.setLease { l with
      dead := true, payload := .barrier { b with waits := [] } }).faultWaits b.waits)) ∧
    (∀ n, l.payload = .frontier n → Yields (.leaseExpiry ag ix) s
      ((s.dev.setLease { l with dead := true }).failLaunch n Cause.leaseLapsed 0)) ∧
    (∀ t w p, l.payload = .anchor t w p → Yields (.leaseExpiry ag ix) s
      ((s.dev.setLease { l with dead := true }).signal (4 * t + 3))))

/-- R139, R140, R141, R142, R143, R144, R145: a lock whose word a live range of its context or none covers is
granted where no record stands, or a lapsed one with no waiter; where a live one stands the request waits, and
fails at its deadline; LHELD answers its waiters and life. A barrier is granted where its members run and each
is in fewer than 8; at a live barrier that is not spent, a member that has not yet come arrives and bytes are
added, a wait of this episode is held and one of an episode before is answered; a member that ends counts as
exited; a core with a member beats. Where the spec leaves a point open, it rests on the model's choice:
notes/assumptions/23.md, notes/assumptions/71.md, notes/assumptions/96.md. -/
def Obligations.LocksAndBarriers : Prop :=
  (∀ (s : State) (d : Dev) (m word n : Nat) (src : From) (dl : Option Nat) (sc : Scope),
    s.asks m src (.lock word n dl sc) (s.dev.drop m) → d = (s.dev.drop m).touch src.core (lineOf word) →
    d.cutOff word = false → d.outOfUse (d.homeOf (coreDie src.core) word) = false →
    d.judgeRange s.drip src.ctx word = none →
    (d.lockOf word = none → Yields (.lockRequestArrival m) s
      (d.grantLock s.drip (d.homeOf (coreDie src.core) word) word src n)) ∧
    (∀ l w ws, d.lockOf word = some l → l.payload = .lock w ws →
      (ws = [] → d.lapsed s.drip l = true → Yields (.lockRequestArrival m) s
        (d.grantLock s.drip (d.homeOf (coreDie src.core) word) word src n)) ∧
      (d.lapsed s.drip l = false →
        dl.any (fun t => t ≤ d.clock s.drip (d.homeOf (coreDie src.core) word).mod) = false →
        Yields (.lockRequestArrival m) s
          (d.setLease { l with payload := .lock word (ws ++ [⟨m, src, n, dl, sc⟩]) })))) ∧
  (∀ (s : State) (m word : Nat) (l : Lease) (ws : List LockWait) (w : LockWait), l ∈ s.dev.leases →
    l.payload = .lock word ws → ws.find? (fun w => w.id = m) = some w →
    (∀ x ∈ s.dev.leases, ∀ k vs, x.payload = .lock k vs → (∃ v ∈ vs, v.id = m) → x = l) →
    w.deadline.any (fun t => t ≤ s.dev.clock s.drip l.agent.mod) = true →
    (s.dev.lapsed s.drip l = true → ws.head?.map LockWait.id ≠ some m) →
    Yields (.lockDeadline m) s ((s.dev.setLease { l with payload := .lock word (ws.filter (fun x => x.id != m)) }).refuse
      w.src Cause.allocDeadline)) ∧
  (∀ (s : State) (d : Dev) (m word : Nat) (src : From) (h : Word) (l : Lease) (ws : List LockWait),
    s.asks m src (.lheld h) d → d.judged s.drip src h = .ok l → l.payload = .lock word ws →
    Yields (.lockInquiryArrival m) s (d.reply src (wd64 (min ws.length 0x7FFF * 2 ^ 48
      + min (d.expiry l - d.clock s.drip l.agent.mod) 0xFFFFFFFFFFFF)))) ∧
  (∀ (s : State) (d e : Dev) (m w k : Nat) (cfg : Word) (src : From) (b : Block) (h : Word)
    (home : AgentId) (mine : List Nat), s.asks m src (.binit cfg w k) d → d.blk k = some b →
    home = ⟨d.modNo, coreDie src.core, 0, bits cfg 25 5⟩ → d.outOfUse home = false →
    mine = (b.members.filter (fun p => bits cfg 0 8 ≤ p.1 && p.1 ≤ bits cfg 8 8)).map Prod.snd →
    (∀ i ∈ mine, ∃ t, d.thr i = some t ∧ t.memberOf.length < 8) →
    d.grantLease s.drip home .barrier (some src.ctx) src.tenant src.ctx (d.clock s.drip home.mod + w) none
      (.barrier ⟨k, bits cfg 0 8, bits cfg 8 8, bits cfg 16 9, w, 0, [], [], 0, false,
        ((b.crews.filter (fun c => c.tids.any mine.contains)).map Crew.core).map (·, d.clock s.drip home.mod), []⟩)
      = (e, some h) →
    Yields (.barrierGrant m) s ((mine.foldl (fun d i => d.updThr i (fun th =>
      { th with memberOf := (home, hIndex h, hGen h) :: th.memberOf })) e).reply src h)) ∧
  (∀ (s : State) (d : Dev) (m i k : Nat) (src : From) (h : Word) (rel : Bool) (l : Lease) (b : Barrier),
    s.asks m src (.barv h i k rel) d → d.sentNow m = false → (rel = true → d.released src = true) → d.judged s.drip src h = .ok l → l.payload = .barrier b →
    b.blk = k → b.mlo ≤ i → i ≤ b.mhi → b.spent = false → b.arrived.contains i = false → b.exited.contains i = false →
    Yields (.barrierArrival m) s ((d.reply src b.word).tryComplete l { b with arrived := i :: b.arrived })) ∧
  (∀ (s : State) (d : Dev) (m : Nat) (n : Int) (src : From) (h : Word) (rel : Bool) (l : Lease) (b : Barrier),
    s.asks m src (.badd h n rel) d → d.sentNow m = false → (rel = true → d.released src = true) → d.judged s.drip src h = .ok l → l.payload = .barrier b →
    -(2 ^ 55) ≤ b.bytes + n → b.bytes + n < 2 ^ 55 →
    Yields (.byteAddArrival m) s ((d.reply src (wd64 ((b.bytes + n) % (2 ^ 56 : Nat)).toNat)).tryComplete l
      { b with bytes := b.bytes + n })) ∧
  (∀ (s : State) (d : Dev) (m : Nat) (src : From) (h e : Word) (l : Lease) (b : Barrier),
    s.asks m src (.bwait h e) d → d.judged s.drip src h = .ok l → l.payload = .barrier b → b.spent = false →
    (e.toNat % 2 ^ 32 = b.episode → Yields (.barrierWaitArrival m) s
      (d.setLease { l with payload := .barrier { b with waits := b.waits ++ [(m, src)] } })) ∧
    (2 ^ 31 ≤ (e.toNat % 2 ^ 32 + 2 ^ 32 - b.episode) % 2 ^ 32 → Yields (.barrierWaitArrival m) s
      (d.send (.reply src b.word true none)))) ∧
  (∀ (s : State) (d : Dev) (m ix g i : Nat) (src : From) (ag : AgentId) (l : Lease) (b : Barrier),
    s.asks m src (.exitNotice ag ix g i) d → d.sentNow m = false → d.lease ag ix = some l → l.payload = .barrier b → l.gen = g →
    d.lapsed s.drip l = false → b.exited.contains i = false → d.coreMember src.core ag ix g = true →
    Yields (.exitNotice m) s (d.tryComplete { l with expiry := b.expiry l.expiry } { b with exited := i :: b.exited })) ∧
  (∀ (s : State) (core ix : Nat) (ag : AgentId) (l : Lease) (b : Barrier), s.dev.lease ag ix = some l →
    l.payload = .barrier b → s.dev.lapsed s.drip l = false → s.dev.coreMember core ag ix l.gen = true →
    s.dev.fencedCore core = false →
    let c : Barrier := { b with beats := put core s.drip b.beats }
    Yields (.beat core ag ix) s (s.dev.setLease { l with payload := .barrier c, expiry := c.expiry l.expiry }))

/-- R144: an episode completes when enough members have arrived or exited and no bytes are pending: its number
rises, arrivals are counted afresh, and every held wait is answered with the new number and the old spent flag; else
the barrier is kept. -/
def Obligations.BarrierEpisodes : Prop :=
  ∀ (d : Dev) (l : Lease) (b : Barrier),
    (b.bytes = 0 → b.expect ≤ (b.arrived ++ b.exited).eraseDups.length →
      let c : Barrier := { b with
        episode := (b.episode + 1) % 2 ^ 32, arrived := [], spent := b.expect ≤ b.exited.length, waits := [] }
      (d.tryComplete l b).msgs.map Msg.kind = d.msgs.map Msg.kind ++ b.waits.map (fun p => .reply p.2 ({ c with spent := b.spent } : Barrier).word true none) ∧
      (d.tryComplete l b).leases = (d.setLease { l with payload := .barrier c }).leases) ∧
    ((b.bytes ≠ 0 ∨ (b.arrived ++ b.exited).eraseDups.length < b.expect) →
      d.tryComplete l b = d.setLease { l with payload := .barrier b })

/-- R146, R147: POPEN of a live range's holder grants a path to the range, tethered to it unless a length is given; a
word of PSEND, in its turn, on a live path to a live range becomes a store into the range, or is refused where its
offset does not fit. -/
def Obligations.Paths : Prop :=
  (∀ (s : State) (d e : Dev) (m : Nat) (src : From) (h p : Word) (l : Lease) (n : Option Nat),
    s.asks m src (.popen h n) d → d.judged s.drip src h = .ok l → (n = none → d.links l + 1 ≤ 4) →
    d.grantLease s.drip l.agent .path (some src.ctx) src.tenant src.ctx
      (n.elim 0 (d.clock s.drip l.agent.mod + ·)) (n.elim (some (l.agent, l.index, l.gen)) (fun _ => none))
      (.path l.agent l.index l.gen) = (e, some p) →
    Yields (.pathGrant m) s (e.reply src p)) ∧
  (∀ (s : State) (m ix g base size : Nat) (a : Acc) (h off v va : Word) (l r : Lease) (ag : AgentId),
    s.carries m (.acc a) → a.op = .psend h off v → a.st = .travelling → s.dev.inOrder m a = true →
    s.dev.named a.src h = .ok l → l.payload = .path ag ix g → s.dev.lease ag ix = some r → r.gen = g →
    s.dev.lapsed s.drip l = false → s.dev.lapsed s.drip r = false → l.holder = some a.src.ctx →
    r.payload = .range base size va →
    (off.toNat + 8 ≤ size → Yields (.pathWordArrival m) s (s.dev.acceptAcc s.drip m { a with
      after' := 0
      op := .store ((List.range 8).map (fun k => ⟨base + off.toNat + k, 0xFF, byteOf v.toNat k⟩)),
      line := lineOf (base + off.toNat) })) ∧
    (size < off.toNat + 8 → Yields (.pathWordArrival m) s (s.dev.refuseAcc s.drip m a Cause.windowRange 0 0)))

/-- R148, R149, R292, R334, R339, R342: a request at the lantern is refused where its capability fails R107, where
its code is no service, and where the mask lacks its code. One that these admit is served: EXACT of 1 to 64
lines that the die has room for grants a range of exact lines; HEAT reports and clears a counter; LOG files a
record; ROOT of a context with a live lease renews it; TIME answers the counter; TENANT of a record within its
limits grants an anchor and zeroes its windows; CONTEXT of one within its limits grants the context's lease;
GRANT grants a capability with no right that the issuing one lacks, for its duration or under the context's
lease. Where the spec leaves a point open, it rests on the model's choice: notes/assumptions/15.md,
notes/assumptions/25.md, notes/assumptions/44.md, notes/assumptions/45.md, notes/assumptions/47.md,
notes/assumptions/97.md, notes/assumptions/98.md. -/
def Obligations.LanternServices : Prop :=
  (∀ (s : State) (d : Dev) (m : Nat) (src : From) (h arg : Word), s.served m src h 5 arg d →
    Yields (.time m) s (d.reply src (wd64 s.drip))) ∧
  (∀ (s : State) (d : Dev) (m : Nat) (src : From) (h arg : Word), s.served m src h 2 arg d →
    let mine := fun (x : Heat) => x.ctx == src.ctx && x.region == bits arg 23 28
    Yields (.heat m) s ({ d with heats := d.heats.filter (fun x => !mine x) }.reply src
      (wd64 (((d.heats.find? mine).map Heat.count).getD 0)))) ∧
  (∀ (s : State) (d : Dev) (m : Nat) (src : From) (h arg : Word), s.served m src h 3 arg d →
    ∃ c, Yields (.log m) s ((d.tickFresh.fileLog (coreDie src.core) src.tenant c 6 arg src.core
      (d.slotOf src.tid)).reply src 0)) ∧
  (∀ (s : State) (d : Dev) (m n : Nat) (src : From) (h arg : Word) (l : Lease), s.served m src h 4 arg d →
    duration (bits arg 0 16) = some n → d.ctxLease s.drip src.ctx = some l →
    Yields (.root m) s ((d.renewRoot s.drip l n).1.answer src (d.renewRoot s.drip l n).2)) ∧
  (∀ (s : State) (d e : Dev) (m p : Nat) (src : From) (h arg x : Word) (l : Lease), s.served m src h 1 arg d →
    arg ≠ 0 → arg.toNat ≤ 64 →
    (d.exactLines.filter (fun l => keyPhys l / 2 ^ 37 = coreDie src.core && keyAp l = 0)).length + arg.toNat ≤ 4096 →
    d.ctxLease s.drip src.ctx = some l →
    d.pickPlace s.drip (128 * arg.toNat) 0 (fun a => a.die == coreDie src.core) = some p →
    d.grantRange s.drip src p (128 * arg.toNat) none (some l) = (e, some x) →
    Yields (.exact m) s ({ e with
      exactLines := e.exactLines ++ (List.range arg.toNat).map (fun j => p + 128 * j)
      exactEls := e.exactEls.filter (fun x => !(p ≤ x.1 && x.1 < p + 128 * arg.toNat)) }.reply src x)) ∧
  (∀ (s : State) (d e : Dev) (m r n : Nat) (src : From) (h arg x : Word), s.served m src h 6 arg d →
    d.recordIs s.drip s.mem src arg r → d.tenantOk s.drip s.mem r → duration (fld r 128 64) = some n →
    d.grantLease s.drip d.cmdUnit .context none (fld r 0 64) 1 (s.drip + n) none
      (.anchor (fld r 0 64) (apKey 0 (fld r 64 64)) (fld r 128 64)) = (e, some x) →
    Writes (.tenant m) s (e.reply src x) (zeroed s.mem (apKey 0 (fld r 64 64)) 36864
      ++ bytesAt (apKey 0 (fld r 64 64) + 16) 8 (fld r 128 64))) ∧
  (∀ (s : State) (d e : Dev) (m r : Nat) (src : From) (h arg x : Word) (a : Lease), s.served m src h 7 arg d →
    d.recordIs s.drip s.mem src arg r → d.contextOk s.drip s.mem r →
    d.anchorOf s.drip (d.ctxTenant s.mem (fld r 0 64)) = some a →
    (d.handleOf (d.ctxTenant s.mem (fld r 0 64)) 1 a).2 = wd64 (fld r 64 64) →
    (d.handleOf (d.ctxTenant s.mem (fld r 0 64)) 1 a).1.grantLease s.drip d.lantern .context (some (fld r 0 64))
      (d.ctxTenant s.mem (fld r 0 64)) (fld r 0 64) 0 (some (a.agent, a.index, a.gen))
      (.context (d.ctxTenant s.mem (fld r 0 64)) (d.ctxWord s.mem (fld r 0 64) 2).toNat) = (e, some x) →
    Yields (.context m) s (e.reply src x)) ∧
  (∀ (s : State) (d e : Dev) (m r : Nat) (src : From) (h arg x : Word) (mask : BitVec 16) (l : Lease) (till : Nat)
    (up : Option (AgentId × Nat × Nat)),
    s.asks m src (.gate h 8 arg) d → d.judged s.drip src h = .ok l → l.payload = .cap mask → bit mask 8 = true →
    d.recordIs s.drip s.mem src arg r → fld r 0 64 < 65536 → fld r 64 64 < 65536 → fld r 128 64 < 65536 →
    fld r 192 64 = 0 → fld r 0 64 &&& mask.toNat = fld r 0 64 →
    ((∃ n, duration (fld r 128 64) = some n ∧ till = s.drip + n ∧ up = none) ∨
      (fld r 128 64 = 0 ∧ till = 0 ∧ ∃ c, d.ctxLease s.drip (fld r 64 64) = some c ∧
        up = some (c.agent, c.index, c.gen))) →
    d.grantLease s.drip d.lantern .cap (some (fld r 64 64)) (d.ctxTenant s.mem (fld r 64 64)) (fld r 64 64) till up
      (.cap (BitVec.ofNat 16 (fld r 0 64))) = (e, some x) →
    Yields (.grant m) s (e.reply src x)) ∧
  (∀ (s : State) (d : Dev) (m code : Nat) (src : From) (h arg : Word), s.asks m src (.gate h code arg) d →
    ∀ x ∈ [(1, Instr.exact m), (2, .heat m), (3, .log m), (4, .root m), (5, .time m), (6, .tenant m), (7, .context m),
      (8, .grant m)],
      (∀ c, d.judged s.drip src h = .error c → Yields x.2 s (d.refuse src c)) ∧
      (∀ l, d.judged s.drip src h = .ok l →
        (code = 0 ∨ 8 < code → Yields x.2 s (d.refuse src Cause.gateService)) ∧
        (∀ mask, l.payload = .cap mask → bit mask code = false → code = x.1 →
          Yields x.2 s (d.refuse src Cause.gateDenied))))

/-- R128, R150: an ALLOC whose record may be read and written, within the limits of Table 7-8, that can be met is
granted, with its base in the record; one that cannot fails at once, or is kept to its deadline where it says
so, and fails then; the earliest kept one that can be met is granted. One outside the limits fails at once.
Where the spec leaves a point open, it rests on the model's choice: notes/assumptions/15.md,
notes/assumptions/38.md, notes/assumptions/94.md. -/
def Obligations.Allocation : Prop :=
  (∀ (s : State) (d : Dev) (m rec : Nat) (src : From) (va : Word) (w : Nat → Word), s.asks m src (.alloc rec va) d →
    d.cutOff (lineOf rec) = false → d.outOfUse (d.homeOf (coreDie src.core) (lineOf rec)) = false →
    d.judgeRange s.drip src.ctx rec = none → d.isExact (lineOf rec) = false →
    d.unitMayWrite s.drip (lineOf rec) = true → d.plainLine (lineOf rec) → d.poisoned rec = false →
    (∀ k, w k = wd64 (gather (d.unitByte s.drip s.mem) ((List.range 8).map (rec + 8 * k + ·)))) →
    let fails := fun (c : Nat) => Writes (.allocRequestArrival m) s
      ((d.holdLine s.drip s.mem (lineOf rec) true (bytesAt (rec + 24) 8 0)).send (.reply src 0 false (some c)))
      (bytesAt (rec + 24) 8 0)
    (d.allocOk s.drip src (w 0) (w 2) = false → fails Cause.allocExhausted) ∧
    (d.allocOk s.drip src (w 0) (w 2) = true →
      (∀ r, d.tryAlloc s.drip s.mem src rec (w 0) (w 2) = some r → Writes (.allocRequestArrival m) s r.1 r.2) ∧
      (d.tryAlloc s.drip s.mem src rec (w 0) (w 2) = none →
        (bit (w 0) 6 = true → s.drip < (w 1).toNat → Yields (.allocRequestArrival m) s
          { d with allocs := d.allocs ++ [⟨m, src, rec, va, w 0, w 2, (w 1).toNat⟩] }) ∧
        ((bit (w 0) 6 = false ∨ (w 1).toNat ≤ s.drip) → fails (d.allocCause s.drip src (w 0)))))) ∧
  (∀ (d e : Dev) (drip : Nat) (mem : Memory) (rec p n : Nat) (src : From) (req dur h : Word),
    duration dur.toNat = some n → dur ≠ 0 → d.overQuota drip src.tenant (2 ^ bits req 0 6) = false →
    d.pickPlace drip (2 ^ bits req 0 6) (d.placement req (coreDie src.core)).1 (d.placement req (coreDie src.core)).2 = some p →
    d.grantRange drip src p (2 ^ bits req 0 6) (some n) (d.ctxLease drip src.ctx) = (e, some h) →
    let w := bytesAt (rec + 24) 8 (mapBase p).toNat
    d.tryAlloc drip mem src rec req dur
      = some ((e.holdLine drip mem (lineOf rec) true w).send (.reply src h false (some 0)), w)) ∧
  (∀ (s : State) (m : Nat) (w : AllocWait) (r : Dev × List (Nat × Byte)),
    s.dev.allocs.find? (fun w => (s.dev.tryAlloc s.drip s.mem w.src w.record w.req w.dur).isSome) = some w → w.id = m →
    s.drip < w.deadline → s.dev.unitMayWrite s.drip (lineOf w.record) = true →
    s.dev.tryAlloc s.drip s.mem w.src w.record w.req w.dur = some r →
    Writes (.allocGrant m) s { r.1 with allocs := r.1.allocs.filter (fun x => x.id != m) } r.2) ∧
  (∀ (s : State) (m : Nat) (w : AllocWait), s.dev.allocs.find? (fun w => w.id = m) = some w → w.deadline ≤ s.drip →
    s.dev.unitMayWrite s.drip (lineOf w.record) = true →
    let z := bytesAt (w.record + 24) 8 0
    Writes (.allocDeadline m) s (({ s.dev with allocs := s.dev.allocs.filter (fun x => x.id != m) }.holdLine s.drip
      s.mem (lineOf w.record) true z).send (.reply w.src 0 false (some Cause.allocDeadline))) z)

/-! ### Bundles and sets -/

/-- R246, R247, R295, R296: BOPEN of a line that keys no record makes one there. A bundle store that its home may
take leaves the version it finds readable, makes a pending one and joins its record; a later one of the bundle
changes the pending version, and one after the seal the line itself; where another bundle is not yet sealed, or its
old version is still held, the store dooms its own bundle. An open record takes a companion once, up to 64 lines and
16 homes, and is doomed by one more; a sealed or aborted record refuses. A doom is recorded before its refusal goes. -/
def Obligations.BundlesGather : Prop :=
  (∀ (s : State) (d e : Dev) (m line n r : Nat) (src : From) (va h : Word),
    s.asks m src (.bopen line va n r) (s.dev.drop m) → d = (s.dev.drop m).touch src.core line → d.cutOff line = false →
    d.outOfUse (d.homeOf (coreDie src.core) line) = false → d.judgeRange s.drip src.ctx line = none →
    d.keyed line = none →
    d.grantLease s.drip (d.homeOf (coreDie src.core) line) .bundle (some src.ctx) src.tenant src.ctx
      (d.clock s.drip (d.homeOf (coreDie src.core) line).mod + n) none (.bundle ⟨line, va, r, .opened, [], []⟩)
      = (e, some h) → Yields (.bundleOpenArrival m) s (e.reply src h)) ∧
  (∀ (s : State) (d : Dev) (m : Nat) (a : Acc) (h : Word) (bytes : List MByte) (l : Lease), s.carries m (.acc a) →
    a.op = .bst h bytes → s.bundleTakes d m a h l →
    let now : BitVec 1024 := BitVec.ofNat 1024 (s.mem.readN a.line 128)
    let e := (d.holdLine s.drip s.mem a.line true []).drop m
    let t := d.clock s.drip (d.accHome a).mod
    let first := fun prev oc => Yields (.bundleStoreArrival m) s
      ((e.setBline ⟨a.line, some (l.agent, l.index, l.gen), none, patch a.line bytes now, some (now, oc, none), prev,
        false⟩).send (.join a.src l.agent l.index l.gen a.line a.va a))
    (d.bline a.line = none → first none 0) ∧
    (∀ b, d.bline a.line = some b → b.nb = some (l.agent, l.index, l.gen) → b.known = none →
      Yields (.bundleStoreArrival m) s
        ((e.setBline { b with pending := patch a.line bytes b.pending }).send (.ack a.src))) ∧
    (∀ b c, d.bline a.line = some b → b.nb = some (l.agent, l.index, l.gen) → b.known = some c →
      Writes (.bundleStoreArrival m) s (e.send (.ack a.src))
        ((d.holdLine s.drip s.mem a.line true []).homeWrite s.drip s.mem bytes)) ∧
    (∀ b r c, d.bline a.line = some b → b.nb = some r → r ≠ (l.agent, l.index, l.gen) → b.known = some c →
      (b.held t = none → first (some (b.nb, b.known)) c) ∧
      (b.held t ≠ none → Yields (.bundleStoreArrival m) s (d.doomFirst m a l Cause.conflict))) ∧
    (∀ b r, d.bline a.line = some b → b.nb = some r → r ≠ (l.agent, l.index, l.gen) → b.known = none →
      Yields (.bundleStoreArrival m) s (((d.holdLine s.drip s.mem a.line true []).askBundle (d.accHome a) a.line).doomFirst
        m a l Cause.conflict))) ∧
  (∀ (s : State) (m ix g line : Nat) (ag : AgentId) (src : From) (va : Word) (a : Acc) (l : Lease) (b : Bundle),
    s.carries m (.join src ag ix g line va a) → (s.dev.drop m).record (ag, ix, g) = some (l, b) →
    let no := fun (d : Dev) => Yields (.join m) s ((if d.names line (ag, ix, g) then d.restoreLine line else d).refuseAcc
      s.drip m { a with src := src } Cause.conflict 0 0)
    (b.st = .opened →
      (b.comps.any (fun p => p.1 = line) = true → Yields (.join m) s ((s.dev.drop m).send (.ack src))) ∧
      (b.comps.any (fun p => p.1 = line) = false → b.comps.length < 64 →
        (b.naming.contains ((s.dev.drop m).lineHome line) = true ∨ b.naming.length < 16) →
        ∃ nm, Yields (.join m) s (((s.dev.drop m).setRecord l { b with comps := b.comps ++ [(line, va)], naming := nm }).send
          (.ack src)) ∧ nm.contains ((s.dev.drop m).lineHome line) = true ∧ ∀ x ∈ b.naming, x ∈ nm) ∧
      (b.comps.any (fun p => p.1 = line) = false → 64 ≤ b.comps.length ∨
        (b.naming.contains ((s.dev.drop m).lineHome line) = false ∧ 16 ≤ b.naming.length) →
        no ((s.dev.drop m).setRecord l { b with st := .doomed }))) ∧
    ((b.st = .aborted ∨ ∃ c, b.st = .sealed c) → no (s.dev.drop m))) ∧
  (∀ (s : State) (m ix g c : Nat) (ag : AgentId) (src : From) (a : Acc) (l : Lease) (b : Bundle),
    s.carries m (.doom src ag ix g a c) → s.dev.record (ag, ix, g) = some (l, b) → b.st = .opened →
    Yields (.doom m) s ((s.dev.setRecord l { b with st := .doomed }).refuseAcc s.drip m { a with src := src } c 0 0))

/-- R248, R249, R251, R275: once the bundle's stores have been acknowledged, a seal gives an open bundle its stamp and
tells every home that names it, answers the stamp of a sealed one, aborts a doomed one and refuses an aborted one; a
home that learns a stamp makes its pending versions current, of a seal notice or of an answer of the record, which
otherwise lets the waiting loads take a version from before it; a companion check by the holder reads the record; a
home's report is taken, and the last one frees a sealed record. -/
def Obligations.BundlesSeal : Prop :=
  (∀ (s : State) (d : Dev) (m : Nat) (src : From) (h : Word) (l : Lease) (b : Bundle), s.asks m src (.bseal h) d →
    d.bundleAcked src h = true → d.judged s.drip src h = .ok l → l.payload = .bundle b →
    (b.st = .opened → let c := d.clock s.drip l.agent.mod + Config.epsilon + 1
      Yields (.sealArrival m) s ((b.naming.foldl (fun d x => d.send (.sealNotice x l.agent l.index l.gen c (c + b.retain)))
        (d.setRecord l { b with st := .sealed c })).reply src (wd64 c))) ∧
    (∀ c, b.st = .sealed c → Yields (.sealArrival m) s (d.reply src (wd64 c))) ∧
    (b.st = .doomed → Yields (.sealArrival m) s ((d.abortBundle l b).refuse src Cause.conflict)) ∧
    (b.st = .aborted → Yields (.sealArrival m) s (d.refuse src Cause.conflict))) ∧
  (∀ (s : State) (m ix g c rx : Nat) (home ag : AgentId), s.carries m (.sealNotice home ag ix g c rx) →
    Writes (.sealNotice m) s ((s.dev.drop m).learn s.drip s.mem home (ag, ix, g) c rx).1
      ((s.dev.drop m).learn s.drip s.mem home (ag, ix, g) c rx).2) ∧
  (∀ (s : State) (m ix g : Nat) (home ag : AgentId) (l : Lease) (b : Bundle), s.carries m (.bundleAsk home ag ix g) →
    (s.dev.drop m).record (ag, ix, g) = some (l, b) →
    (∀ c, b.st = .sealed c →
      let r := (s.dev.drop m).learn s.drip s.mem home (ag, ix, g) c (c + b.retain)
      let u := r.1.serveBefore s.drip s.mem (r.1.unknownLines home (ag, ix, g) false)
      Writes (.bundleConsultation m) s u.1 (r.2 ++ u.2)) ∧
    ((∀ c, b.st ≠ .sealed c) →
      let u := (s.dev.drop m).serveBefore s.drip s.mem ((s.dev.drop m).unknownLines home (ag, ix, g) true
        ++ (s.dev.drop m).unknownLines home (ag, ix, g) false)
      Writes (.bundleConsultation m) s u.1 u.2)) ∧
  (∀ (s : State) (d : Dev) (m line i : Nat) (src : From) (l : Lease) (b : Bundle), s.asks m src (.bchk line i) d →
    d.keyed line = some (l, b) → l.holder = some src.ctx →
    Yields (.companionCheckArrival m) s (d.reply src ((b.comps[i]?.map (fun p => wd64 (p.2.toNat % 2 ^ 51))).getD 0))) ∧
  (∀ (s : State) (m ix g : Nat) (home ag : AgentId) (l : Lease) (b : Bundle), s.carries m (.compReport home ag ix g) →
    (s.dev.drop m).record (ag, ix, g) = some (l, b) →
    (b.naming.filter (fun h => h != home) ≠ [] → Yields (.companionReport m) s
      ((s.dev.drop m).setRecord l { b with naming := b.naming.filter (fun h => h != home) })) ∧
    (∀ c, b.naming.filter (fun h => h != home) = [] → b.st = .sealed c → Yields (.companionReport m) s
      ((s.dev.drop m).setLease { l with payload := .cap 0 })))

/-- R249: which version a load under a view takes: the current one of a line that no bundle names, or whose
stamp is not later than the view; else the old one while it is held and not later; else the fracture. -/
def Obligations.ViewsChooseVersions : Prop :=
  (∀ (b : BLine) (t v : Nat), b.nb = none → b.version t v = .current) ∧
  (∀ (b : BLine) (r : AgentId × Nat × Nat) (t v c : Nat), b.nb = some r → b.known = some c →
    (c ≤ v → b.version t v = .current) ∧
    (∀ o oc, v < c → b.held t = some (o, oc) → oc ≤ v → b.version t v = .old o) ∧
    (∀ o oc, v < c → b.held t = some (o, oc) → v < oc → b.version t v = .fracture r) ∧
    (v < c → b.held t = none → b.version t v = .fracture r))

/-- R298: a commit whose thread's stores have performed, whose own loads of the set are over, and whose lines no
read lease and no store before it is left on, writes the whole staged set or nothing: it is refused when the set
is empty, has been broken, or is older than 4,096 drips; either way the set is empty after it. Where the spec
leaves a point open, it rests on the model's choice: notes/assumptions/48.md. -/
def Obligations.SetsCommitWhole : Prop :=
  ∀ (s : State) (m : Nat) (src : From) (t : Thread), s.carries m (.req src .mcs) → s.dev.thr src.tid = some t →
    s.dev.released src = true → t.mcsLines.all (s.dev.setLineFree s.drip) = true →
    (s.dev.msgs.any (fun x => match x.kind with
      | .acc a => a.src.tid == src.tid && (match a.op with
        | .mcsld .. => true
        | _ => false)
      | _ => false)) = false →
    let d := (s.dev.drop m).updThr src.tid Thread.emptySet
    (t.mcsLines = [] → Yields (.mcsDecision m) s (d.refuse src Cause.mcsBroken)) ∧
    (∀ c, t.mcsLines ≠ [] → t.mcsBroken = some c → Yields (.mcsDecision m) s (d.refuse src c)) ∧
    (∀ t0, t.mcsLines ≠ [] → t.mcsBroken = none → t.mcsSince = some t0 → t0 + 4096 < s.drip →
      Yields (.mcsDecision m) s (d.refuse src Cause.mcsTimeout)) ∧
    (∀ t0, t.mcsLines ≠ [] → t.mcsBroken = none → t.mcsSince = some t0 → s.drip ≤ t0 + 4096 →
      ∃ u w, Writes (.mcsDecision m) s u w ∧
        w = (t.mcsStaged.flatMap (fun p => bytesAt p.1 8 p.2.toNat)).filter (fun p => s.mem.read p.1 != p.2) ∧
        u.msgs.map Msg.kind = d.msgs.map Msg.kind ++ [.reply src 0 false none])

/-! ### Walks, faults, wakes and containment -/

/-- R336, R337, R338, R343, R344, R345: a walk ends when what its entries' loads would wait for is over: for every
joiner, unless a TLBI has met the walk. A joiner whose tree allows it puts the leaf first in its core's cache;
one whose tree faults, still at its head, parks on a fault record of the cause. The oldest record of a die whose
place in its tenant's ring is free is written there, and its vector signalled. TLBI's reply comes once it has
removed what it hits, after what has used it. Where the spec leaves a point open, it rests on the model's
choice: notes/assumptions/32.md, notes/assumptions/49.md, notes/assumptions/70.md. -/
def Obligations.WalksAndRecords : Prop :=
  (∀ (s : State) (w : Walk), s.dev.walks.find? (fun x => x.id = w.id) = some w →
    (walkLines s.mem s.dev.ctxtb w.ctx w.va).any (s.dev.busyLine s.drip) = false →
    let d := { s.dev with walks := s.dev.walks.filter (fun y => y.id != w.id) }
    (w.stale = true → Yields (.walkEnd w.id) s d) ∧
    (w.stale = false → Yields (.walkEnd w.id) s (w.joiners.foldl (fun d j => d.joinerEnd s.mem w j) d))) ∧
  (∀ (d : Dev) (mem : Memory) (w : Walk) (tid acc : Nat) (pc va : Word) (t : Thread), d.thr tid = some t →
    (∀ l large, walkTree mem d.ctxtb d.modNo w.ctx va (AccK.ofCode acc) = .ok (l, large) →
      ((d.joinerEnd mem w (.thread tid acc pc va)).core t.coreSlot.1).tlb.head? =
        some ⟨w.ctx, if large then bits va 16 35 / 32 * 32 else bits va 16 35, large, l⟩) ∧
    (∀ c level, walkTree mem d.ctxtb d.modNo w.ctx va (AccK.ofCode acc) = .error (c, level) →
      t.pc = pc → t.wst = .ready → t.exited = false → t.traps = [] →
      ∃ n x, (d.joinerEnd mem w (.thread tid acc pc va)).thr tid = some x ∧ x.wst = .parked n ∧
        (d.joinerEnd mem w (.thread tid acc pc va)).faults.any (fun f => f.rid = n && f.cause = c && f.waits) = true)) ∧
  (∀ (s : State) (die : Nat) (f : FaultRec), s.dev.nextRecord s.mem die f →
    let r := s.dev.ring s.mem f
    s.dev.unitMayWrite s.drip (lineOf (r.1 + 32 * r.2.2)) = true →
    bit (s.mem.read64 (r.1 + 32 * r.2.2)) 63 = false →
    ∃ u, Writes (.faultRecordWrite die) s u ((f.words s.dev.modNo).zipIdx.flatMap (fun p =>
        bytesAt (r.1 + 32 * r.2.2 + 8 * p.2) 8 p.1)) ∧ (4 * f.tenant + b2n f.log) ∈ u.vectors ∧
      (f.log = true → u.flNext = put f.tenant ((r.2.2 + 1) % r.2.1) s.dev.flNext) ∧
      (f.log = false → u.fqNext = put f.tenant ((r.2.2 + 1) % r.2.1) s.dev.fqNext)) ∧
  (∀ (s : State) (m n : Nat) (src : From) (op : TlbiFn) (va : Word) (d : Dev), s.carries m (.req src (.tlbi op va n)) →
    s.dev.doTlbi s.mem src op va n = some d → Yields (.replyArrival m) s ((d.drop m).reply src 0) ∧
    ∀ p ∈ d.cores, ∀ e ∈ p.2.tlb, tlbiHits s.mem s.dev op va n e.ctx (wd64 (e.page * 65536)) e.large = false)

/-- R19, R20, R88, R324, R345: in a drip after that of its issue, a wake of a record wakes its requesters or, where
it says so, fails them; a wake that the slot's router lets pass ends its stop, its halt or its sleep, and a stop
stops it; what names nothing that waits is refused; one that the router drops is refused with TENANT_ROUTE. DOZE
ends at its stamp. Where the spec leaves a point open, it rests on the model's choice: notes/assumptions/50.md,
notes/assumptions/65.md. -/
def Obligations.Wakes : Prop :=
  (∀ (s : State) (d : Dev) (m rid : Nat) (src : From), d.sentNow m = false →
    (s.asks m src (.wakeRec rid) d →
      ((d.wakeRecord s.drip rid none).2 = true →
        Yields (.wakeMessage m) s ((d.wakeRecord s.drip rid none).1.reply src 0)) ∧
      ((d.wakeRecord s.drip rid none).2 = false → Yields (.wakeMessage m) s (d.refuse src Cause.operandRange))) ∧
    (s.asks m src (.wakeFail rid) d → ∀ f, d.faults.find? (fun f => f.rid = rid) = some f →
      (d.wakeRecord s.drip rid (some f.cause)).2 = true →
      Yields (.wakeMessage m) s ((d.wakeRecord s.drip rid (some f.cause)).1.reply src 0))) ∧
  (∀ (s : State) (d : Dev) (m c k tid : Nat) (src : From) (t : Thread), s.asks m src (.wakeSlot c k) d →
    d.sentNow m = false → d.routes s.mem src c = true →
    d.slotTid c k = some tid → d.thr tid = some t → t.exited = false →
    (t.stopped = true → Yields (.wakeMessage m) s ((d.setThr tid { t with stopped := false }).reply src 0)) ∧
    (t.stopped = false → (t.wst = .halted ∨ ∃ z, t.wst = .doze z) →
      Yields (.wakeMessage m) s ((d.setThr tid { t with wst := .ready }).reply src 0))) ∧
  (∀ (s : State) (d : Dev) (m c k tid : Nat) (src : From) (t : Thread), s.asks m src (.wakeStop c k) d →
    d.sentNow m = false → d.routes s.mem src c = true →
    d.slotTid c k = some tid → d.thr tid = some t → t.exited = false → t.stopped = false → t.wst ≠ .halted →
    (∀ u, d.thr src.tid = some u → u.place ≠ .slot c k) →
    Yields (.wakeMessage m) s ((d.setThr tid { t with stopped := true }).reply src 0)) ∧
  (∀ (s : State) (d : Dev) (m c k : Nat) (src : From),
    (s.asks m src (.wakeSlot c k) d ∨ s.asks m src (.wakeStop c k) d) → d.sentNow m = false →
    (d.routes s.mem src c = false → Yields (.wakeMessage m) s (d.dropRoute src c)) ∧
    (d.routes s.mem src c = true → d.slotTid c k = none →
      Yields (.wakeMessage m) s (d.refuse src Cause.operandRange))) ∧
  (∀ (s : State) (tid : Nat) (t : Thread) (z : Word), s.dev.thr tid = some t → t.wst = .doze z → z.toNat ≤ s.drip →
    Yields (.dozeExpiry tid) s (s.dev.setThr tid { t with wst := .ready }))

/-- R35, R264, R355, R356, R357: an error that a core which is not fenced consumes fences and resets its rectangle;
the rectangle returns after 65,536 drips; a soft error of a DRAM sector leaves it bad, and one that cannot be
corrected leaves a bad word and a log record, drops an L1 copy, or is consumed by the core whose word it is; a
ring of slots that have all been blocked for 2^16 drips takes its traps. Where the spec leaves a point open, it
rests on the model's choice: notes/assumptions/41.md, notes/assumptions/60.md. -/
def Obligations.ErrorsAreContained : Prop :=
  (∀ (s : State) (core cause addr : Nat), s.dev.msgs.any (fun m => m.kind = .consume core cause addr) = true →
    s.dev.fencedCore core = false →
    Writes (.containment core cause addr) s (s.dev.contain s.drip s.mem core cause addr).1
      (s.dev.contain s.drip s.mem core cause addr).2 ∧
    (∀ c ∈ s.dev.rectangle s.mem core, (s.dev.contain s.drip s.mem core cause addr).1.fencedCore c = true) ∧
    1024 ∈ (s.dev.contain s.drip s.mem core cause addr).1.vectors) ∧
  (∀ (s : State) (n : Nat) (f : Fence), s.dev.fenced[n]? = some f → f.since + 65536 ≤ s.drip →
    ∃ d, Yields (.rectangleReturn n) s d ∧ d.fenced = s.dev.fenced.eraseIdx n) ∧
  (∀ (s : State) (o : SoftErrorOp),
    (o.place = 0 → keyAp o.addr ≤ 0xC0 → isDram (keyPhys o.addr) = true → Yields (.softError o) s { s.dev with
      badSectors := s.dev.badSectors ++ List.replicate (if o.multi then 2 else 1) (sectorOf o.addr) }) ∧
    (o.place = 1 → o.multi = true → s.dev.badWords.contains (o.addr / 8 * 8) = false → Yields (.softError o) s
      ((s.dev.logWord s.mem o.addr).poisonWord o.addr)) ∧
    (2 ≤ o.place → o.place < 4096 → o.multi = true →
      let c := s.dev.core (o.place - 2)
      Yields (.softError o) s (s.dev.setCore (o.place - 2) { c with l1 := c.l1.filter (fun e => e.line != lineOf o.addr) })) ∧
    (4096 ≤ o.place → o.multi = true →
      Yields (.softError o) s (s.dev.consume (o.place - 4096) Cause.sramUncorrectable o.addr)) ∧
    (o.place ≠ 0 → o.multi = false → Yields (.softError o) s s.dev)) ∧
  (∀ (s : State) (core blk : Nat), s.dev.ringSlots core blk ≠ [] →
    (∀ p ∈ s.dev.ringSlots core blk, ∃ b, p.2.qblk = some b ∧ b + 65536 ≤ s.drip) →
    Yields (.queueDeadlock core blk) s ((s.dev.ringSlots core blk).foldl (fun d p =>
      (d.tickFresh.takeTrap s.drip s.mem p.1 Cause.queueDeadlock p.2.pc (Config.freeWord d.fresh)).updThr p.1
        (fun t => { t with qblk := none })) s.dev))

/-! ### The matrix array and the copy engines -/

/-- R154, R220, R221, R376: a request for the array is queued and asks for leave, once a thread; leave is asked for
in order and given in that order while the pool of 1,200 units has room; the head request is granted a lease
once it has leave, no grant of the array lives, and its record names no grant on another array. Where the spec
leaves a point open, it rests on the model's choice: notes/assumptions/100.md. -/
def Obligations.ArrayAndLeave : Prop :=
  (∀ (s : State) (d : Dev) (m clus n : Nat) (src : From), s.asks m src (.array clus n) d →
    (((d.clus clus).array.reqs.any (fun r => r.src.tid == src.tid)) = false → Yields (.arrayRequestArrival m) s
      ((d.updArray clus (fun a => { a with reqs := a.reqs ++ [⟨m, src, n, false⟩] })).send (.leave (leaveArray m) 9 clus))) ∧
    (((d.clus clus).array.reqs.any (fun r => r.src.tid == src.tid)) = true → Yields (.arrayRequestArrival m) s
      (d.refuse src Cause.arrayRequest))) ∧
  (∀ (s : State) (clus : Nat) (r : AReq) (rs : List AReq) (d e : Dev) (h : Word),
    (s.dev.clus clus).array.reqs = r :: rs → r.leave = true → s.dev.liveGrant s.drip clus = none →
    s.dev.recordAway s.drip clus = false → s.dev.srcStopped r.src = false →
    d = (s.dev.endGrant clus).updArray clus (fun a => { a with
      reqs := rs
      ends := match a.grant with
        | some g => put (g.index * 2 ^ 24 + g.gen) (((s.dev.grantOf clus g).map s.dev.byDuration).getD 0) a.ends
        | none => a.ends }) →
    d.grantLease s.drip (d.arrayAgent clus) .array (some r.src.ctx) r.src.tenant r.src.ctx (s.drip + r.dur) none
      (.array clus) = (e, some h) →
    Yields (.arrayGrant clus) s ((e.updArray clus (fun a =>
      { a with grant := some ⟨r.id, r.src.core, r.src.tid, hIndex h, hGen h, 16, none, true⟩ }.takeStreams)).reply r.src h)) ∧
  (∀ (s : State) (m who units clus : Nat), s.carries m (.leave who units clus) →
    Yields (.leaveRequest m) s { s.dev.drop m with leaveQ := s.dev.leaveQ ++ [⟨who, units, clus⟩] }) ∧
  (∀ (s : State) (r : LeaveReq) (q : List LeaveReq), s.dev.leaveQ = r :: q →
    (s.dev.leaveHeld.foldl (fun n x => n + x.units) 0 + r.units ≤ 1200 → Yields .leaveGrant s
      (({ s.dev with leaveQ := q, leaveHeld := s.dev.leaveHeld ++ [r] } : Dev).giveLeave r)) ∧
    (1200 < s.dev.leaveHeld.foldl (fun n x => n + x.units) 0 + r.units → Yields .leaveGrant s s.dev))

/-- R223, R230, R241: in its turn, the array takes a command of its grant's core while the grant lives and its run
lasts, and an MLAY begins to read its descriptor; it drops any other with a report; it answers an inquiry in its
turn; and an MMA or MDRAIN that waits for stream data when its grant is over gives up. Where the spec leaves a
point open, it rests on the model's choice: notes/assumptions/54.md. -/
def Obligations.ArrayAccepts : Prop :=
  (∀ (s : State) (m clus : Nat) (src : From) (c : MCmd) (head : Word), s.reachesArray m src clus c head →
    (∀ g, (s.dev.drop m).liveGrant s.drip clus = some g → g.core = src.core → g.left ≠ 0 →
      let r := ((s.dev.drop m).acceptCommand s.drip clus src c head g).readDescs s.drip s.mem clus
      Writes (.commandAccept m) s (r.1.updArray clus (fun a => a.takeStreams.advance)) r.2) ∧
    ((∀ g, (s.dev.drop m).liveGrant s.drip clus = some g → g.core ≠ src.core ∨ g.left = 0) →
      Yields (.commandAccept m) s
        (((s.dev.drop m).closeM s.drip s.mem src).send (.report src.tid Cause.arrayLeaseLapsed head)))) ∧
  (∀ (s : State) (m clus : Nat) (src : From) (x : MstatSel), s.carries m (.req src (.mstat clus x)) →
    s.dev.arrayInOrder m src.core clus = true → Yields (.commandAccept m) s
      ((s.dev.drop m).reply src ((s.dev.drop m).mstatWord s.drip clus src.core x))) ∧
  (∀ (s : State) (clus : Nat) (d : Dev) (e : MEntry) (rest : List MEntry),
    d = s.dev.updArray clus MArray.advance → (d.clus clus).array.fifo = e :: rest →
    (d.clus clus).array.waiting = true → d.grantOver s.drip clus e.index e.gen = true → d.srcStopped e.src = false →
    (∀ n, e.c = .mma n → Yields (.giveUp clus) s (((d.dropSlabs clus).updArray clus (fun a =>
      { a with gave := a.gave.set n.val true })).retire s.drip s.mem clus (some Cause.arrayLeaseLapsed))) ∧
    (∀ n ctl seed fm, e.c = .mdrain n ctl seed fm →
      Yields (.giveUp clus) s (d.retire s.drip s.mem clus (some Cause.arrayLeaseLapsed))))

/-- R223, R225, R228, R229: the oldest command of the array retires: MLAY, its descriptor read, makes its shadow
copy active and clears its record's conflicts, or reports what refused the read or an invalid descriptor; MMA
ends when its slabs' groups have been added, reports slabs of two width classes, and a slab that will never be
whole; MDRAIN puts its tile into the D stream, or reports an R element of a format outside Table 11-2. Where the
spec leaves a point open, it rests on the model's choice: notes/assumptions/54.md. -/
def Obligations.ArrayRetires : Prop :=
  ∀ (s : State) (clus : Nat) (d : Dev) (w : List (Nat × Byte)) (e : MEntry) (rest : List MEntry),
    (s.dev.updArray clus MArray.advance).readDescs s.drip s.mem clus = (d, w) → (d.clus clus).array.fifo = e :: rest →
    (∀ n p t c l, e.c = .mlay n p t → e.desc = some (c, l) →
      (c ≠ 0 → Writes (.commandRetire clus) s (d.retire s.drip s.mem clus (some c)) w) ∧
      (c = 0 → l.bad = true → Writes (.commandRetire clus) s
        (d.retire s.drip s.mem clus (some Cause.layoutInvalid)) w) ∧
      (c = 0 → l.bad = false → Writes (.commandRetire clus) s ((d.updArray clus (fun a => { a with
        act := a.act.set n.val l, confl := a.confl.set n.val 0 })).retire s.drip s.mem clus none) w)) ∧
    (∀ n x y xs ys, e.c = .mma n → (d.clus clus).array.a = x :: xs → (d.clus clus).array.b = y :: ys →
      (widthClass x.fmt ≠ widthClass y.fmt → Writes (.commandRetire clus) s
        ((d.dropSlabs clus).retire s.drip s.mem clus (some Cause.streamFormat)) w) ∧
      (widthClass x.fmt = widthClass y.fmt → slabGroups x.fmt ≤ e.group → Writes (.commandRetire clus) s
        (((d.dropSlabs clus).updArray clus (fun a => { a with gave := a.gave.set n.val false })).retire
          s.drip s.mem clus none) w) ∧
      (widthClass x.fmt = widthClass y.fmt → e.group < slabGroups x.fmt →
        (x.broken = true ∧ x.has e.group = false) ∨ (y.broken = true ∧ y.has e.group = false) →
        Writes (.commandRetire clus) s
          (((d.dropSlabs clus).updArray clus (fun a => { a with gave := a.gave.set n.val true })).retire
            s.drip s.mem clus (some Cause.streamBroken)) w)) ∧
    (∀ n ctl seed fm, e.c = .mdrain n ctl seed fm → (d.clus clus).array.d = none →
      drainNeed ctl ≤ (d.clus clus).array.r.length →
      let k := d.updArray clus (fun a => { a with r := a.r.drop (drainNeed ctl) })
      let taken := (d.clus clus).array.r.take (drainNeed ctl)
      ((∃ p ∈ taken, p.1 ≠ .f32 ∧ p.1 ≠ .bf16 ∧ p.1 ≠ .f16) → Writes (.commandRetire clus) s
        (k.retire s.drip s.mem clus (some Cause.streamFormat)) w) ∧
      ((∀ p ∈ taken, p.1 = .f32 ∨ p.1 = .bf16 ∨ p.1 = .f16) →
        let t := drainTile ctl seed fm taken (d.clus clus).array.acc[n.val]
        Writes (.commandRetire clus) s ((k.updArray clus (fun a => { a with
          d := some t.1, fifo := { e with flags := t.2 } :: rest })).retire s.drip s.mem clus none) w))

/-- R227: MZERO sets all 1,024 elements of its set to +0, takes nothing of any stream, and raises no flag: all that
its retirement does besides is what the end of a command does (R223). -/
def Obligations.MzeroClears : Prop :=
  (∀ (s : State) (clus : Nat) (d : Dev) (w : List (Nat × Byte)) (e : MEntry) (rest : List MEntry) (n : Fin 8),
    (s.dev.updArray clus MArray.advance).readDescs s.drip s.mem clus = (d, w) → (d.clus clus).array.fifo = e :: rest →
    e.c = .mzero n → e.flags = 0 →
    Writes (.commandRetire clus) s ((((d.updArray clus (fun a => a.setAcc n (List.replicate 1024 0) 0)).updArray clus
      (fun a => { a with fifo := rest })).closeM s.drip s.mem e.src).updArray clus (fun a => a.takeStreams.advance)) w) ∧
  (∀ (a : MArray) (n : Fin 8), let b := a.setAcc n (List.replicate 1024 0) 0
    b.acc[n.val] = List.replicate 1024 0 ∧ (∀ k : Fin 8, k ≠ n → b.acc[k.val] = a.acc[k.val]) ∧
    b.a = a.a ∧ b.b = a.b ∧ b.r = a.r ∧ b.d = a.d)

/-- R228, R184: the arithmetic of one group of an MMA: each element of the set takes the exact sum of 32 products,
begun at -0, and is rounded once to FP32, to nearest even. -/
def Obligations.MmaAddsGroups : Prop :=
  ∀ (acc : List (BitVec 32)) (x y : Slab) (g i : Nat) (v : BitVec 32), acc[i]? = some v →
    (addGroup acc x y g).1[i]? = some (BitVec.ofNat 32
      (r32 ((Fp.f32.val v.toNat).add RM.rne (groupSum x y (i / 32) (i % 32) g).1)).1)

/-- R218, R226, R231, R232, R234, R237, R239: an engine accepts a command in its turn with a promise, a feed with
its record as it stands and bound to its core's live grant, or ends a feed at once whose record does not suit
its stream or that has no grant to be bound to; it moves a piece of a copy that it has reached, lands a unit
that it has reached in its stream, ends a feed whose grant has lost the streams or whose unit is refused, and
takes a tile for a D feed; it reports a promise it has missed; and it ends a command with a record, giving its
leave back. Where the spec leaves a point open, it rests on the model's choice: notes/assumptions/14.md,
notes/assumptions/54.md, notes/assumptions/99.md, notes/assumptions/105.md. -/
def Obligations.EnginesMove : Prop :=
  (∀ (s : State) (m clus eng : Nat) (src : From) (c : ECmd), s.reachesEngine m src clus eng c →
    ∃ p, s.drip ≤ p ∧
      let d := (s.dev.drop m).tickFresh.pushResult src.tid eng (wd64 (p % 2 ^ 62))
      let takes := fun (l : Layout) (b : Option (Nat × Nat)) => Yields (.engineAccept m) s (d.updEngine clus eng (fun q =>
        q ++ [⟨m, src, c, l, 0, p, false, b, none, none, false, false, none, false, false⟩]))
      let ends := fun (k : Nat) => Yields (.engineAccept m) s
        (d.endCommand s.drip s.mem src eng (recordWord true k 0))
      ((∀ r st g n, c ≠ .feed r st g n) → takes Layout.zero none) ∧
      (∀ r st g n, c = .feed r st g n →
        let l := (s.dev.clus clus).array.act[r.val]
        (l.suits st = false → ends Cause.streamShape) ∧
        (l.suits st = true → st < 3 → s.dev.boundTo s.drip clus src.core = none → ends Cause.arrayLeaseLapsed) ∧
        (l.suits st = true → (st < 3 → s.dev.boundTo s.drip clus src.core ≠ none) →
          takes l (s.dev.boundTo s.drip clus src.core)))) ∧
  (∀ (s : State) (clus eng dst src n : Nat) (dsp ssp : Space) (e : EEntry) (rs ws : List Nat) (d : Dev),
    s.dev.servesCmd clus eng e → e.c = .xfer dst src n dsp ssp →
    let p := nextPiece dst src n e.pos (copyDown dst src n dsp ssp)
    s.dev.pieceGot s.drip s.mem e.src .read ssp (src + p.1) p.2 = .ok rs →
    s.dev.pieceGot s.drip s.mem e.src .write dsp (dst + p.1) p.2 = .ok ws →
    s.dev.takeNear s.drip clus [if ssp = .gall then rs else [], if dsp = .gall then ws else []] = some d →
    let d := d.visitRead s.drip s.mem e.src rs
    let d := if ssp = .glob then d.samplePiece s.drip s.mem e.src .read (wd64 (src + p.1)) else d
    let d := if dsp = .glob then d.samplePiece s.drip s.mem e.src .write (wd64 (dst + p.1)) else d
    let w := d.unitStore s.drip s.mem e.src (ws.zip (rs.map (d.unitByte s.drip s.mem)))
    Writes (.enginePiece clus eng) s
      (w.1.updHead clus eng (fun x => { x with pos := e.pos + ws.length, held := false })) w.2) ∧
  (∀ (s : State) (clus eng stream gall len : Nat) (lrec : Fin 8) (e : EEntry) (k : Dev),
    s.dev.servesCmd clus eng e → e.c = .feed lrec stream gall len → stream ≠ 3 → k = s.dev.giveUp s.drip s.mem clus →
    let a := (k.clus clus).array
    let g := e.bound.getD (0, 0)
    (a.owner ≠ some e.src.core → (∀ x, a.grant = some x → (x.index, x.gen) ≠ g) →
      Yields (.streamUnitLand clus eng) s (k.failHead clus eng Cause.arrayLeaseLapsed)) ∧
    (a.owner = some e.src.core → (e.held = true → k.grantOver s.drip clus g.1 g.2 = false) → a.full stream e = false →
      (∀ c, k.unitGot s.drip s.mem e .read (e.lay.unitAt e.pos) (unitBytes e.lay.fmt) gall len = .refused c →
        Yields (.streamUnitLand clus eng) s (k.failHead clus eng c)) ∧
      (∀ rs ss d, k.unitGot s.drip s.mem e .read (e.lay.unitAt e.pos) (unitBytes e.lay.fmt) gall len = .ok rs →
        (e.lay.scaleAt e.pos).elim (Got.ok []) (fun a => k.unitGot s.drip s.mem e .read a 1 gall len) = .ok ss →
        k.takeNear s.drip clus [e.lay.cycle gall e.pos] = some d →
        let v := gather (d.unitByte s.drip s.mem)
        let d := d.visitRead s.drip s.mem e.src (rs ++ ss)
        let d := if e.lay.sp = 2 then d else d.samplePiece s.drip s.mem e.src .read (e.lay.unitAt e.pos)
        Yields (.streamUnitLand clus eng) s
          ((d.countConfl clus lrec e.lay e.pos).landUnit clus eng stream e (v rs, v ss))))) ∧
  (∀ (s : State) (clus eng gall len : Nat) (lrec : Fin 8) (e : EEntry) (t : Tile),
    s.dev.servesCmd clus eng e → e.c = .feed lrec 3 gall len → e.tile = none → (s.dev.clus clus).array.d = some t →
    let d := s.dev.updArray clus (fun a => { a with d := none })
    (t.fmt = e.lay.fmt → Yields (.enginePiece clus eng) s (d.updHead clus eng (fun x => { x with tile := some t }))) ∧
    (t.fmt ≠ e.lay.fmt → Yields (.enginePiece clus eng) s (d.failHead clus eng Cause.streamShape))) ∧
  (∀ (s : State) (clus eng : Nat) (e : EEntry), ((s.dev.clus clus).eng eng).cmds.find? (fun e =>
      e.late s.drip && !s.dev.srcStopped e.src) = some e →
    ∃ p, s.drip < p ∧ Yields (.promiseMissed clus eng) s ((s.dev.tickFresh.updEngine clus eng (fun l => l.map (fun x =>
      if x.num ≠ e.num then x else if e.stop.isSome then { x with missed := true } else { x with promise := p }))).send
      (.report e.src.tid Cause.promiseMissed (if e.stop.isSome then 0 else wd64 p)))) ∧
  (∀ (s : State) (clus eng : Nat) (e : EEntry) (rest : List EEntry) (d k : Dev),
    ((s.dev.clus clus).eng eng).cmds = e :: rest → e.stop = none → (e.fail = none → e.finished = true) →
    d = (if e.late s.drip then s.dev.missReport s.drip clus eng e else s.dev).updEngine clus eng List.tail →
    ((∀ r st g n, e.c ≠ .feed r st g n) → k = d) →
    (∀ r st g n, e.c = .feed r st g n → k = d.updArray clus (fun a =>
      (if st = 0 then { a with a := breakSlabs eng a.a } else if st = 1 then { a with b := breakSlabs eng a.b } else a :
        MArray).advance)) →
    Yields (.engineCompletion clus eng) s ((if e.asked then k.returnLeave (leaveCopy e.num) else k).endCommand
      s.drip s.mem e.src eng (recordWord (e.fail.any (fun c => c != Cause.compressRefused)) (e.fail.getD 0) e.pos)))

/-- R235: the pieces of a copy: each lies within what is left, crosses no line of either range, and moves at least
one byte; where the ranges overlap and the destination does not lie below the source, they go downwards. Where
the spec leaves a point open, it rests on the model's choice: notes/assumptions/56.md. -/
def Obligations.CopyPieces : Prop :=
  ∀ (dst src n pos : Nat) (down : Bool), pos < n →
    let p := nextPiece dst src n pos down
    0 < p.2 ∧ p.1 + p.2 ≤ n ∧ (down = false → p.1 = pos) ∧ (down = true → p.1 + p.2 = n - pos) ∧
      (src + p.1) / 128 = (src + p.1 + p.2 - 1) / 128 ∧ (dst + p.1) / 128 = (dst + p.1 + p.2 - 1) / 128

/-! ### Launches, the scheduler, stops -/

/-- R312, R316, R317, R328, R329, R330: LAUNCH replies the handle of what is accepted, and a refusal once its record
has been written; a query reads a point and a row, or is refused outside the launch's points; a launch that
waits fires its first points once it has leave and its predecessor has completed, under its frontier lease, and
fails where that lease has lapsed or the predecessor ended otherwise; and a launch that is over has its kept
rows and then its completion record written, and gives its leave back. Where the spec leaves a point open, it
rests on the model's choice: notes/assumptions/58.md, notes/assumptions/59.md, notes/assumptions/62.md. -/
def Obligations.LaunchesRun : Prop :=
  (∀ (s : State) (m : Nat) (src : From) (a : Word) (l : Launch), s.launchRead m src a l →
    (∀ d h, s.dev.judgeLaunch s.drip s.mem l = .accept d h → Yields (.launchArrival m) s ((d.drop m).reply src h)) ∧
    (∀ r d w c, s.dev.judgeLaunch s.drip s.mem l = .refuse r →
      s.dev.complete s.drip s.mem src l.donea Cause.launchRefused r = .ok (d, w, c) →
      Writes (.launchArrival m) s ((d.drop m).refuse src Cause.launchRefused) w)) ∧
  (∀ (s : State) (d : Dev) (m n : Nat) (src : From) (h : Word) (l : Launch), d.launchOf s.drip src h = .ok (n, l) →
    (∀ xyz, s.asks m src (.point h xyz) d →
      let z := bits xyz 40 20
      let y := bits xyz 20 20
      let x := bits xyz 0 20
      (bits xyz 60 4 = 0 → z < l.ez → y < l.ey → x < l.ex →
        Yields (.pointQueryArrival m) s (d.reply src (l.pointWord z y x))) ∧
      (bits xyz 60 4 ≠ 0 ∨ l.ez ≤ z ∨ l.ey ≤ y ∨ l.ex ≤ x →
        Yields (.pointQueryArrival m) s (d.refuse src Cause.operandRange))) ∧
    (∀ row, s.asks m src (.frrd h row) d →
      (row.toNat < l.ez * l.ey → Yields (.frontierReadArrival m) s (d.reply src (l.row row.toNat))) ∧
      (l.ez * l.ey ≤ row.toNat → Yields (.frontierReadArrival m) s (d.refuse src Cause.operandRange)))) ∧
  (∀ (s : State) (n c : Nat) (l : Launch), s.dev.launchWaits s.drip n l → s.dev.predecessor l c →
    (c = 0 → l.leave = true → s.dev.frontierLive s.drip l = true →
      Yields (.afterRelease n) s (s.dev.setLch n { l.fire s.drip s.drip with fired := true })) ∧
    (c = 0 → l.leave = true → s.dev.frontierLive s.drip l = false →
      Yields (.afterRelease n) s (s.dev.failLaunch n Cause.leaseLapsed 0)) ∧
    (c ≠ 0 → Yields (.afterRelease n) s (s.dev.setLch n { l with failed := some (Cause.launchRefused, 7) }))) ∧
  (∀ (s : State) (n c : Nat) (l : Launch) (d k : Dev) (v w : List (Nat × Byte)), s.dev.lch n = some l → l.ended = none →
    (l.failed = none → l.fired = true ∧ l.doneRows.length = l.ez * l.ey) →
    (l.failed ≠ none → s.dev.inFlight n l = false) →
    s.dev.writeWords s.drip s.mem l.from (if s.dev.frontierLive s.drip l = true then
      l.rows.map (fun p => (l.ftab + wd64 (8 * p.1), p.2.toNat)) else []) [] = .ok k v →
    k.complete s.drip s.mem l.from l.donea (l.failed.getD (0, 0)).1 (l.failed.getD (0, 0)).2 = .ok (d, w, c) →
    let e := (d.setLch n { l with
      ended := some c
      queue := [] }).returnLeave (leaveLaunch n)
    Writes (.afterRelease n) s (if l.irq && w != [] then e.signal (4 * l.tenant + 2) else e) (v ++ w))

/-- R303, R305, R318, R331: DONE of a point in flight, sent in an earlier drip, makes it complete, and the points
that may fire then do; a row whose last point is complete is written to the table and leaves; a lapsed frontier
lease fails the launch. The end of an active message's thread writes its completion record. Where the spec
leaves a point open, it rests on the model's choice: notes/assumptions/60.md, notes/assumptions/63.md. -/
def Obligations.PointsComplete : Prop :=
  (∀ (s : State) (m n z y x : Nat) (src : From) (l l' : Launch) (r : Word), s.pointDone m src n z y x l r →
    let row := z * l.ey + y
    let q := pointDoneRec r x
    (recC q ≠ l.ex → (s.dev.drop m).advanceFrontier s.drip s.mem (s.drip + l.rlease) { l with rows := put row q l.rows }
      = .ok l' → Yields (.doneArrival m) s ((s.dev.drop m).setLch n l')) ∧
    (∀ d w, recC q = l.ex → (s.dev.drop m).rowWritten s.drip s.mem l row q = .ok d w →
      d.advanceFrontier s.drip s.mem (s.drip + l.rlease) { l with
        rows := del row l.rows
        doneRows := row :: l.doneRows } = .ok l' → Writes (.doneArrival m) s (d.setLch n l') w)) ∧
  (∀ (s : State) (m n z y x : Nat) (src : From) (l : Launch), s.carries m (.req src (.done n z y x)) →
    s.dev.srcStopped src = false → s.dev.sentNow m = false → (s.dev.drop m).lch n = some l → l.ended = none →
    (s.dev.drop m).frontierLive s.drip l = false →
    Yields (.doneArrival m) s ((s.dev.drop m).failLaunch n Cause.leaseLapsed 0)) ∧
  (∀ (s : State) (m c c' : Nat) (src : From) (va : Word) (irq : Bool) (d : Dev) (w : List (Nat × Byte)),
    s.carries m (.req src (.amsgEnd va irq c)) → (s.dev.drop m).complete s.drip s.mem src va c 0 = .ok (d, w, c') →
    Writes (.doneArrival m) s (if irq then d.signal (4 * src.tenant + 2) else d) w)

/-- R323, R325, R331: admission on a cluster, where no lower cluster has a taker and no launch has still to rise,
takes the launch that the pointer and the priorities pick, its oldest point or its swapped block; a waiting
launch rises; a block parked through its budget stops when there is room for its state, begins a new budget
where there is none, and is saved once its stores have been acknowledged; an active message that its target core
judges starts a thread or is refused. Where the spec leaves a point open, it rests on the model's choice:
notes/assumptions/52.md, notes/assumptions/53.md, notes/assumptions/61.md, notes/assumptions/65.md,
notes/assumptions/101.md. -/
def Obligations.BlocksAreScheduled : Prop :=
  (∀ (s : State) (clus n gall : Nat) (l : Launch) (fs : List CrewFit), s.mayAdmit clus →
    let d := s.dev.serving s.mem clus n l
    let e := d.evict s.drip s.mem fs (4096 * l.slots)
    (∀ p, pickTaker (s.dev.clus clus).rr (s.dev.takers s.drip s.mem clus) = some (n, l, .point p, fs, gall) →
      let r := (e.1.setLch n { l with
        waited := 0
        aged := 0
        queue := l.queue.drop 1 }).admitPoint s.drip s.mem n l p clus fs gall
      Writes (.blockAdmission clus) s r.1 (e.2 ++ r.2)) ∧
    (∀ b, pickTaker (s.dev.clus clus).rr (s.dev.takers s.drip s.mem clus) = some (n, l, .block b, fs, gall) →
      let r := (e.1.setLch n { l with
        waited := 0
        aged := 0 }).restoreBlock s.drip s.mem b clus fs gall
      Writes (.blockAdmission clus) s r.1 (e.2 ++ r.2))) ∧
  (∀ (s : State) (n : Nat) (l : Launch), s.dev.lch n = some l → l.ended = none → l.aged < l.waited / 2 ^ 20 →
    Yields (.priorityAging n) s (s.dev.setLch n { l with aged := l.waited / 2 ^ 20 })) ∧
  (∀ (s : State) (b t : Nat) (k : Block) (l : Launch), s.parkedOut b k l → k.st = .running → k.parkSince = some t →
    t + l.parkb ≤ s.drip →
    (∀ g, s.dev.stowage s.drip s.mem k l = some g → Yields (.swapDecision b) s (s.dev.setBlk b { k with st := .swapping })) ∧
    (s.dev.stowage s.drip s.mem k l = none → Yields (.swapDecision b) s (s.dev.setBlk b { k with parkSince := none }))) ∧
  (∀ (s : State) (b : Nat) (k : Block) (l : Launch) (g : Stowage), s.parkedOut b k l → k.st = .swapping → s.maySave k →
    s.dev.stowage s.drip s.mem k l = some g → (∀ p, g.area = some p → s.dev.areaFree s.drip p k.imageLen = true) →
    Writes (.swapSave b) s (s.dev.saveBlock s.mem k g 0).1 (s.dev.saveBlock s.mem k g 0).2) ∧
  (∀ (s : State) (m : Nat) (src : From) (target pc a0 a1 : Word), s.amsgJudged m src target pc a0 a1 →
    (∀ d w n, (s.dev.drop m).startThread s.drip s.mem src.tenant src.ctx target pc a0 a1 none = .ok d w n →
      Writes (.amsgArrival m) s (d.reply src (wd64 n)) w) ∧
    (∀ c, (s.dev.drop m).startThread s.drip s.mem src.tenant src.ctx target pc a0 a1 none = .refused c →
      Yields (.amsgArrival m) s ((s.dev.drop m).refuse src c)))

/-- R308, R354: at its stamp every block of a stopped partition stops as it stands, with its threads, their
multi-line sets empty, and no message of the partition's stays in the fabric. At its go its rows are read again
and its stowed DONEs accepted, its blocks placed, promises not reached moved by the length of the stop, and its
messages sent on. Where the spec leaves a point open, it rests on the model's choice: notes/assumptions/66.md,
notes/assumptions/100.md. -/
def Obligations.GangsStop : Prop :=
  (∀ (s : State) (tenant : Nat), s.dev.stops.any (fun x => x.tenant == tenant && !x.reached && x.at' ≤ s.drip) = true →
    ∃ d, Yields (.preemptionStop tenant) s d ∧
      (∀ x ∈ d.stops, x.tenant = tenant → x.reached = true) ∧
      (∀ p ∈ d.blocks, p.2.ofTenant tenant = true → p.2.st ≠ .running ∧ p.2.st ≠ .swapping) ∧
      (∀ p ∈ s.dev.blocks, p.2.ofTenant tenant = true → p.2.st = .running → ∀ x ∈ p.2.crews.flatMap Crew.tids,
        ∀ q ∈ d.threads, q.1 = x → q.2.preempted = true ∧ q.2.mcsLines = [] ∧ q.2.mcsStaged = []) ∧
      (∀ m ∈ s.dev.msgs, s.dev.stows tenant m = true → m ∈ d.stowed ∧ m ∉ d.msgs) ∧
      d.leases = s.dev.leases ∧ d.launches = s.dev.launches ∧ d.cores = s.dev.cores ∧ d.clusters = s.dev.clusters) ∧
  (∀ (s : State) (tenant : Nat) (x : Stop) (d : Dev) (w : List (Nat × Byte)), s.dev.stops.find? (fun x =>
      x.tenant == tenant && x.reached && x.go.any (fun u => u ≤ s.drip)) = some x →
    s.dev.resumeFrontier s.drip s.mem tenant = .ok (d, w) →
    let r := d.placeAll s.drip (s.mem.writeAll w) (d.stoppedBlocks tenant)
    let e := r.1.mapCmds (fun c => if c.src.ctx ≠ 0 ∧ c.src.tenant = tenant ∧ x.at' ≤ c.promise then
      { c with promise := c.promise + (s.drip - x.at') } else c)
    Writes (.resumption tenant) s { e with
      stops := e.stops.filter (fun x => x.tenant != tenant)
      stowed := e.stowed.filter (fun m => !e.stows tenant m)
      msgs := e.stowed.filter (e.stows tenant) ++ e.msgs } (w ++ r.2))

/-! ### The command unit, the fabric, start-up -/

/-- R111, R316, R331, R365: a store to the keepalive word renews a live anchor by PERIOD and is not stored; an armed
slot of KIND LAUNCH has its launch judged, and a refusal is written to its completion record; one of KIND AMSG
whose core can judge it starts a thread; the arm word is to be cleared. Where the spec leaves a point open, it
rests on the model's choice: notes/assumptions/67.md, notes/assumptions/73.md. -/
def Obligations.WindowsAct : Prop :=
  (∀ (s : State) (base t p : Nat) (x : Msg) (l : Lease), s.dev.anchorAt base = some (l, t, base) →
    l.payload = .anchor t base p → s.unitStoreDue base x →
    (s.dev.lapsed s.drip l = false →
      let n := max l.expiry (s.dev.clock s.drip l.agent.mod + (duration p).getD 0)
      Yields (.keepalive base) s (((s.dev.drop x.id).setLease { l with expiry := n }).spreadExpiry { l with expiry := n } n)) ∧
    (s.dev.lapsed s.drip l = true → Yields (.keepalive base) s (s.dev.drop x.id))) ∧
  (∀ (s : State) (addr t c : Nat) (v : Word) (e : Dev) (hs : List Nat), s.slotArmed addr [1, 2] false t v c e →
    bits v 56 8 = 1 → let r := dwords 16 (s.mem.readN (lineOf addr) 128)
    s.dev.reach s.drip s.mem c .read (span (r.getD 0 0 - 66) 64) = .ok hs →
    let l := mkLaunch s.dev.nextLaunch c t r (dwords 8 (gather (s.dev.unitByte s.drip s.mem) hs)) (bit v 55)
    (∀ d h, e.judgeLaunch s.drip s.mem l = .accept d h → Yields (.arm addr) s d) ∧
    (∀ n d w, e.judgeLaunch s.drip s.mem l = .refuse n →
      e.armRefuse s.drip s.mem ⟨0, 0, c, t, 0, 0⟩ (r.getD 9 0) Cause.launchRefused n (bit v 55) [] = .ok (d, w) →
      Writes (.arm addr) s d w)) ∧
  (∀ (s : State) (addr t c : Nat) (v : Word) (e d : Dev) (w : List (Nat × Byte)) (n : Nat),
    s.slotArmed addr [1, 2] false t v c e → bits v 56 8 = 2 → let r := dwords 16 (s.mem.readN (lineOf addr) 128)
    let core := targetCore (r.getD 0 0)
    targetOk (r.getD 0 0) = true → (∀ k < 10, r.getD (5 + k) 0 = 0) → s.dev.fencedCore core = false →
    (s.dev.takers s.drip s.mem (coreClus core)).isEmpty = true →
    s.dev.haltedAt s.drip s.mem (coreClus core) = false →
    e.startThread s.drip s.mem t c (r.getD 0 0) (r.getD 1 0) (r.getD 2 0) (r.getD 3 0) (some (r.getD 4 0, bit v 55))
      = .ok d w n → Writes (.arm addr) s d w)

/-- R367: a store to PRQ sends the page request of a waiting record under a free tag, or queues it, or waits, and
that of a record that does not wait sends nothing; a response frees its tag, wakes the record's requesters or
ends them, and passes the tag to the oldest in the queue. Where the spec leaves a point open, it rests on the
model's choice: notes/assumptions/69.md, notes/assumptions/70.md. -/
def Obligations.PagesAreRequested : Prop :=
  (∀ (s : State) (m rid : Nat) (a : Acc) (b : List MByte), s.unitStoreDue (apKey 0 ioBase) ⟨m, .acc a⟩ → a.op = .store b →
    rid = (List.range 8).foldr (fun k n => (mergeBytes (apKey 0 ioBase + k) b).2.toNat + 256 * n) 0 →
    (s.dev.faults.any (fun f => f.rid = rid && f.waits) = false → Yields (.prq (apKey 0 ioBase)) s (s.dev.drop m)) ∧
    (s.dev.faults.any (fun f => f.rid = rid && f.waits) = true →
      (∀ t, s.dev.freeTag = some t → s.dev.prqQueue = [] → Yields (.prq (apKey 0 ioBase)) s
        { s.dev.drop m with prqTags := s.dev.prqTags ++ [(t, rid)] }) ∧
      (s.dev.freeTag = none ∨ s.dev.prqQueue ≠ [] → s.dev.prqQueue.length < 4096 → Yields (.prq (apKey 0 ioBase)) s
        { s.dev.drop m with prqQueue := s.dev.prqQueue ++ [rid] }) ∧
      (4096 ≤ s.dev.prqQueue.length → Yields (.prq (apKey 0 ioBase)) s s.dev))) ∧
  (∀ (s : State) (tag : Nat) (ok : Bool) (p : Nat × Nat), s.dev.prqTags.find? (fun p => p.1 = tag) = some p →
    let d := (({ s.dev with prqTags := s.dev.prqTags.filter (fun q => q.1 != tag) } : Dev).wakeRecord s.drip p.2
      (if ok then none else some Cause.hostPageDenied)).1
    (d.prqQueue = [] → Yields (.pageResponse tag ok) s d) ∧
    (∀ r rs, d.prqQueue = r :: rs → Yields (.pageResponse tag ok) s { d with
      prqQueue := rs
      prqTags := d.prqTags ++ [(tag, r)] }))

/-- R187, R371, R372: an armed request is read and judged; once its fellows of all the other members have come and
agree, the elements of all members are combined along the binomial tree and written to DST, and the request is
completed. A member that has left the domain leaves its groups, their generations rise, and requests in flight
on them are to end. Where the spec leaves a point open, it rests on the model's choice: notes/assumptions/74.md,
notes/assumptions/75.md, notes/assumptions/76.md, notes/assumptions/77.md. -/
def Obligations.CollectivesRun : Prop :=
  (∀ (s : State) (o : CollOp) (t c : Nat) (v : Word) (e d : Dev) (w : List (Nat × Byte)),
    s.slotArmed o.addr [1] true t v c e → s.dev.armColl s.drip s.mem o.addr t c (bit v 55) = .ok (d, w) →
    Writes (.collectiveRequest o) s d w) ∧
  (∀ (s : State) (o : CollOp) (c : Coll) (ef : Fmt) (ps qs : List Nat) (d : Dev) (w : List (Nat × Byte)), s.collMet o c ef →
    s.dev.reach s.drip s.mem c.ctx .read (span c.src (c.count.toNat * c.size)) = .ok ps →
    let own := c.elements ef (s.dev.unitByte s.drip s.mem) ps
    let out := (List.range c.count.toNat).flatMap (fun k =>
      (List.range c.size).map (byteOf (c.element ef (s.dev.collParts (groupMembers s.mem c.tenant c.group) o.peers ef own k))))
    s.dev.reach s.drip s.mem c.ctx .write (span c.dst out.length) = .ok qs →
    (∀ x ∈ (qs.map lineOf).eraseDups, s.dev.unitMayWrite s.drip x = true) →
    let r := s.dev.unitStore s.drip s.mem ⟨0, 0, c.ctx, c.tenant, 0, 0⟩ (qs.zip out)
    r.1.endColl s.drip s.mem c 0 r.2 = .ok (d, w) → Writes (.collectiveRequest o) s d w) ∧
  (∀ (f : Nat → Nat → Nat) (a b c d : Nat), collTree f 8 [a, b, c, d] = f (f a b) (f c d) ∧
    collTree f 8 [a, b, c] = f (f a b) c ∧ collTree f 8 [a] = a) ∧
  (∀ (s : State) (module : Nat), s.dev.members.contains module = false →
    let hit := (List.range 4096).filter (fun n => (groupMembers s.mem (n / 16) (n % 16)).contains module)
    hit ≠ [] → Writes (.memberFailure module) s
      (({ s.dev with colls := s.dev.colls.map (fun c => if hit.contains (16 * c.tenant + c.group) then
        { c with gen := changedGen } else c) } : Dev).signal 1025)
      (hit.flatMap (fun n => let k := groupKey (n / 16) (n % 16)
        (k + module / 8, s.mem.read (k + module / 8) &&& ~~~(BitVec.ofNat 8 (2 ^ (module % 8))))
          :: bytesAt (k + 24) 4 ((groupGen s.mem (n / 16) (n % 16) + 1) % 2 ^ 32))))

/-- R102, R125, R369, R370: a link that fails is noted; a module cut off for 65,536 drips is declared failed, and
its agents are retired; a failed agent is in quarantine until one longest lease has passed, and comes back under
the next incarnation; a clock that keeps every two members within ε is trimmed to what was measured, and one
that does not ends the membership; a join sets the count, once, before the first admission or grant. Where the
spec leaves a point open, it rests on the model's choice: notes/assumptions/78.md, notes/assumptions/79.md. -/
def Obligations.MembersComeAndGo : Prop :=
  (∀ (s : State) (k : Nat), k ≠ s.dev.modNo → s.dev.cut.any (fun p => p.1 = k) = false →
    Yields (.linkFailure k) s { s.dev with cut := s.dev.cut ++ [(k, s.drip)] }) ∧
  (∀ (s : State) (k : Nat), s.dev.cut.any (fun p => p.1 = k && p.2 + 65536 ≤ s.drip) = true →
    ∃ d, Yields (.moduleFailed k) s d ∧ d.members = s.dev.members.filter (· != k) ∧
      (∀ p ∈ d.maps, ∀ e ∈ p.2, e.agent.mod = k → e.ret = true) ∧
      (∀ l ∈ s.dev.leases, l.agent.mod = k → d.outOfUse l.agent = true) ∧
      d.leases = s.dev.leases ∧ d.threads = s.dev.threads) ∧
  (∀ (s : State) (a : AgentId), s.dev.outOfUse a = false → ∃ d, Yields (.agentFailure a) s d ∧
    d.quarantine = s.dev.quarantine ++ [(a, s.drip)] ∧ (∀ p ∈ d.maps, ∀ e ∈ p.2, e.agent = a → e.ret = true)) ∧
  (∀ (s : State) (a : AgentId), s.dev.quarantine.any (fun p => p.1 = a && p.2 + Config.longest ≤ s.drip) = true →
    Yields (.agentRejoin a) s { s.dev with
      quarantine := s.dev.quarantine.filter (fun p => p.1 != a)
      incs := (a, s.dev.inc a + 1) :: s.dev.incs.filter (fun p => p.1 != a) }) ∧
  (∀ (s : State) (k : Nat) (x : Int), k ≠ s.dev.modNo → s.dev.members.contains k = true →
    (s.dev.clocksNear k x = true → Yields (.timeSync k x) s { s.dev with trims := put k x s.dev.trims }) ∧
    (s.dev.clocksNear k x = false → k ≠ s.dev.timeRoot →
      Yields (.timeSync k x) s { s.dev with members := s.dev.members.filter (· != k) }) ∧
    (s.dev.clocksNear k x = false → k = s.dev.timeRoot →
      Yields (.timeSync k x) s (({ s.dev with members := [s.dev.modNo] } : Dev).signal 1026))) ∧
  (∀ (s : State) (o : JoinOp), s.dev.started = false → s.dev.joined = false → o.members.contains o.modNo = true →
    o.members.all (· < 192) = true → o.count < 2 ^ 64 → exec (.domainJoin o) s = .next { s with
      drip := o.count
      dev := { s.dev with
        modNo := o.modNo
        members := o.members
        joined := true } })

/-- R15, R366, R373, R374, R375: module reset starts the counter at 0 with no thread, lease or launch, and keeps the
bytes of DRAM; each boot stage checks the next, and a failure, or an image below the fused version, holds the
module in reset; the last one starts the service cores in supervisor mode in context 0; then context 0's lease
and the root capability are made; a report is signed; an idle cluster is gated with no line in its L1s. Where
the spec leaves a point open, it rests on the model's choice: notes/assumptions/80.md, notes/assumptions/81.md,
notes/assumptions/82.md, notes/assumptions/83.md, notes/assumptions/84.md, notes/assumptions/109.md. -/
def Obligations.StartsUp : Prop :=
  (∀ (s : State), ∃ t, exec .moduleReset s = .next t ∧ t.drip = 0 ∧ t.dev.threads = [] ∧ t.dev.leases = [] ∧
    t.dev.launches = [] ∧ t.dev.blocks = [] ∧ t.dev.msgs = [] ∧ t.dev.inReset = true ∧ t.dev.members = [s.dev.modNo] ∧
    (s.mem.wf = true → (∀ a, keyAp a = 0 → isStatus (keyPhys a) = false → isIo (keyPhys a) = false →
      t.mem.read a = (s.mem.writeAll s.dev.hostHome).read a) ∧
    (∀ a, 0x1000 ≤ keyAp a → t.mem.read a = 0))) ∧
  (∀ (s : State) (o : BootOp), s.dev.inReset = true → s.dev.boot.failed = none → s.dev.boot.stage < 4 →
    (o.ok = false ∨ o.version < s.dev.boot.version ∨ (s.dev.boot.stage = 3 ∧ maskOk o.mask = false) → Yields (.bootStage o) s
      { s.dev with boot := { s.dev.boot with failed := some s.dev.boot.stage } }) ∧
    (o.ok = true → s.dev.boot.version ≤ o.version → s.dev.boot.stage < 3 → Yields (.bootStage o) s { s.dev with boot := { s.dev.boot with
      stage := s.dev.boot.stage + 1
      digests := s.dev.boot.digests ++ [o.digest]
      entry := if s.dev.boot.stage = 2 then o.entry else s.dev.boot.entry } }) ∧
    (o.ok = true → s.dev.boot.version ≤ o.version → s.dev.boot.stage = 3 → maskOk o.mask = true → ∃ d, Yields (.bootStage o) s d ∧ d.inReset = false ∧
      d.boot.mask = o.mask.eraseDups ∧ d.boot.stage = 4 ∧ d.threads.length = s.dev.threads.length + 16 * d.boot.mask.length ∧
      ∀ p ∈ d.threads, p ∈ s.dev.threads ∨ (p.2.pc = s.dev.boot.entry ∧ p.2.status = mkStatus 0 0 true true))) ∧
  (∀ (s : State) (d e : Dev) (h : Option Word) (g : Option Word), s.dev.inReset = false → s.dev.boot.service = false →
    ({ s.dev with boot := { s.dev.boot with service := true } } : Dev).grantLease s.drip s.dev.lantern .context (some 0)
      0 0 (2 ^ 64 - 1) none (.context 0 0) = (d, g) →
    d.grantLease s.drip s.dev.lantern .cap (some 0) 0 0 (s.drip + Config.longest) none (.cap 0x01FE) = (e, h) →
    Yields .serviceContextCreation s { e with rootcap := h.getD 0 }) ∧
  (∀ (s : State) (n : Nat), Yields (.attestation n) s { s.dev with boot := { s.dev.boot with
    reports := (n, Config.signature (s.dev.boot.contents n)) :: s.dev.boot.reports } }) ∧
  (∀ (s : State) (clus : Nat), clus < 128 → (s.dev.clus clus).gated = false → s.dev.idleCluster clus = true →
    ∃ d, Yields (.clusterGating clus) s d ∧ (d.clus clus).gated = true ∧
      (∀ k < 16, (d.core (clusCore clus k)).l1 = []) ∧ d.threads = s.dev.threads ∧ d.leases = s.dev.leases)


/-! ### Encodings, steps and traps -/

/-- What the spec gives for reset: the counter reads 0 (R15), the selector pointers stand at 15 and nothing is in a
slot, a cache, a buffer, a queue or a journal (Table 2-3), CFLAGS, HKEY, CORR and UNCR read 0 (Tables 9-6, 13-1,
17-12), the module is held in reset with stage 1 to run (R375), and no core issues. That no byte of memory is
listed, so that each reads 0, is the model's choice (notes/assumptions/4.md). -/
def Obligations.ResetValues : Prop :=
  State.reset.drip = 0 ∧ State.reset.dev.threads = [] ∧ State.reset.dev.leases = [] ∧
  State.reset.dev.inReset = true ∧ State.reset.dev.boot.stage = 1 ∧ State.reset.dev.boot.service = false ∧
  (∀ a, State.reset.mem.read a = 0) ∧
  (∀ c, let k := State.reset.dev.core c
    k.ptr = 15 ∧ k.lastIssue = none ∧ k.l1 = [] ∧ k.sb = [] ∧ (∀ q : Fin 4, k.q[q.val] = none) ∧
      (∀ e : Fin 64, k.jrnl[e.val].v = false) ∧ issueStep c State.reset = .next State.reset) ∧
  (∀ n, (State.reset.dev.die n).hkey = 0 ∧ ∀ i : Fin 32, (State.reset.dev.die n).corr[i.val] = 0 ∧
    (State.reset.dev.die n).uncr[i.val] = 0) ∧
  (∀ c, (State.reset.dev.clus c).cflags = 0)

/-- The invariant holds after reset: memory is in its canonical form. Where the spec leaves a point open, it rests
on the model's choice: notes/assumptions/4.md. -/
def Obligations.ResetHolds : Prop := State.reset.Inv

/-- R38 to R59: encoding and decoding agree. Every well-formed head has an encoding: a head word of 16 bits with its
pair bit 0, whose length code gives the tail's length, and a tail of that length; and the decoder reads the same
head from it, with every operand. Where the spec leaves a point open, it rests on the model's choice:
notes/assumptions/18.md, notes/assumptions/19.md, notes/assumptions/88.md. -/
def Obligations.EncodingsDecode : Prop :=
  ∀ i : Instr, i.wf = true → i.isHead = true →
    ∃ w : Words, encode i = some w ∧ w.head < 2 ^ 16 ∧ fld w.head 13 1 = 0 ∧ w.len = tailBytes (fld w.head 14 2) ∧
      w.tail < 2 ^ (8 * w.len) ∧ decode w.head w.tail = .ok i

/-- Table 3-2, and words laid out by Tables 3-3 to 3-9: what the decoder reads from them. -/
def Obligations.WordsDecode : Prop :=
  decode 0x814C 0xC5E10003 = .ok (.shlImm ⟨.always, 12, 11, .d, 3⟩) ∧
  decode 0x804D 0xC2B01800 = .ok (.add ⟨.always, 13, 5, 12, .d⟩) ∧
  decode 0x840E 0xC6E08000 = .ok (.ld ⟨.always, 14, 13, .d, .sx, .glob, .core, 0⟩) ∧
  decode 0x814F 0xC7610020 = .ok (.shlImm ⟨.always, 15, 14, .d, 32⟩) ∧
  decode 0x0000 0 = .ok .nop ∧ decode 0x0001 0 = .ok .exit ∧ decode 0x0004 0 = .ok .tret

/-- A step runs the head that the slot whose turn it is stands at (R21, R43, R45): the meaning of that head, then
the selector's mark. An agenda's event is run as it is; a tick passes the drip once no step that is dated to it
is due and no core issues. A bundle's two heads run together, each reading the thread as it stood; a trap of
either undoes both (R45); EXIT takes effect last (R332). The agenda is the model's own (notes/assumptions/2.md).
Where the spec leaves a point open, it rests on the model's choice: notes/assumptions/2.md,
notes/assumptions/12.md. -/
def Obligations.StepRunsHead : Prop :=
  (∀ (s : State) (i : Instr) (rest : List Stim), s.agenda = .event i :: rest →
    step s = exec i { s with agenda := rest }) ∧
  (∀ (s : State) (rest : List Stim), s.agenda = .tick :: rest →
    (∀ o, firstDue s (datedSteps s) = some o → step s = o) ∧
    (firstDue s (datedSteps s) = none → ∀ s',
      (∀ o, issueAny (inRotation s.drip s.dev.busyCores) s = (some o, s') → step s = o) ∧
      (issueAny (inRotation s.drip s.dev.busyCores) s = (none, s') →
        step s = .next (passDrip { s' with agenda := rest })))) ∧
  (∀ (s s0 : State) (c k tid : Nat) (t : Thread) (line : Nat) (i : Instr), s.asksCore c s0 → s0.turn c k tid t line →
    single line (pcIdx t.pc) i →
    let o := exec i ((s0.woken tid t).begun tid t.pc (nextPc t.pc (lineN line) (pcIdx t.pc)) none false)
    (∀ s', o = .next s' → (∀ q, s'.dev.note ≠ .held q) → step s = .next (s'.issued c k)) ∧
    (∀ f, o = .fault f → step s = .fault f) ∧ (∀ r, o = .refused r → step s = .refused r)) ∧
  (∀ (s s0 : State) (c k tid : Nat) (t : Thread) (line : Nat) (a b : Instr), s.asksCore c s0 →
    s0.turn c k tid t line → bundled line (pcIdx t.pc) a b →
    let s1 := s0.woken tid t
    let p0 := t.pc
    let n := nextPc (t.pc + 2) (lineN line) (pcIdx t.pc + 1)
    let at' := fun (s : State) (v : Bool) => s.begun tid t.pc n (some t.wake) v
    let undone := fun (cause : Nat) (v : Word) =>
      (s1.withDev (s1.dev.tickFresh.takeTrap s1.drip s1.mem tid cause t.pc v)).issued c k
    ∀ (x y : Instr) (e : Bool),
      ((a ≠ .exit ∧ (∀ o, a ≠ .exitGuarded o)) ∧ x = a ∧ y = b ∧ e = false ∨
        (a = .exit ∨ ∃ o, a = .exitGuarded o) ∧ x = b ∧ y = a ∧ e = true) →
      (∀ u q, exec y (at' s1 (!e)) = .next u → u.dev.note ≠ .held q) →
      (∀ u, exec x (at' s1 e) = .next u →
        (∀ cause p v, u.dev.note = .trapped cause p v → step s = .next ((u.withDev (u.dev.updThr tid (fun t =>
          if t.exited then t else { t with epc := p0 }))).issued c k)) ∧
        (u.dev.note = .issued →
          (∀ w, exec y (at' u (!e)) = .next w → w.dev.note = .issued → step s = .next (w.issued c k)) ∧
          (∀ w cause p v, exec y (at' u (!e)) = .next w → w.dev.note = .trapped cause p v →
            step s = .next (undone cause v)))))

/-- R19, R20, R21, R23, R375: a core that has issued in a drip issues nothing more in it, and one with no slot ready
issues nothing, its pointer unchanged; an issue by slot `k` sets the pointer to `k` and holds the slot, whatever
thread it holds, for 8 drips, and holds no other slot; no slot issues in reset, and a thread that is stopped or
has exited, or waits, or sleeps before its stamp, or whose slot's gap is not over, is not ready. Where the spec
leaves a point open, it rests on the model's choice: notes/assumptions/99.md. -/
def Obligations.SelectorTakesTurns : Prop :=
  (∀ (s : State) (c : Nat), ((s.withHits c).dev.core c).lastIssue = some s.drip →
    issueStep c s = .next (s.withHits c)) ∧
  (∀ (s : State) (c : Nat), (∀ k < 16, (s.withHits c).slotIdle c k) → issueStep c s = .next (s.withHits c)) ∧
  (∀ (s : State) (c k : Nat), ((s.issued c k).dev.core c).ptr = k ∧
    ((s.issued c k).dev.core c).lastIssue = some s.drip ∧
    (∀ j, look 0 j ((s.issued c k).dev.core c).gaps = if j = k then s.drip + 8 else look 0 j (s.dev.core c).gaps) ∧
    (∀ j ≠ c, (s.issued c k).dev.core j = s.dev.core j) ∧ (s.issued c k).dev.threads = s.dev.threads) ∧
  (∀ (s : State) (tid : Nat) (t : Thread), s.dev.slotReady s.drip tid t = true →
    s.dev.inReset = false ∧ (t.wst = .ready ∨ ∃ x, t.wst = .doze x ∧ x.toNat ≤ s.drip) ∧ t.stopped = false ∧
      t.preempted = false ∧ t.exited = false ∧ t.notBefore ≤ s.drip ∧
      ∃ c k, t.place = .slot c k ∧ s.dev.fencedCore c = false ∧ look 0 k (s.dev.core c).gaps ≤ s.drip)

/-- Every step keeps the invariant: memory stays in its canonical form, in every state that has it. Where the spec
leaves a point open, it rests on the model's choice: notes/assumptions/4.md. -/
def Obligations.StepKeepsMemory : Prop := ∀ s t : State, s.Inv → step s = .next t → t.Inv

/-- R15, R102: no step moves the counter but the passing of a drip, by one, the joining of a domain and a module
reset; no event but the last two moves it; and while the agenda stands at a tick, each step either leaves the
counter and the agenda, or passes the drip and takes the tick off. Where the spec leaves a point open, it rests
on the model's choice: notes/assumptions/22.md. -/
def Obligations.CountsTime : Prop :=
  (∀ s t : State, step s = .next t → (∀ o, s.agenda.head? ≠ some (.event (.domainJoin o))) →
    s.agenda.head? ≠ some (.event .moduleReset) → t.drip = s.drip ∨ t.drip = s.drip + 1) ∧
  (∀ (s : State) (rest : List Stim) (i : Instr) (t : State), s.agenda = .event i :: rest → step s = .next t →
    (∀ o, i ≠ .domainJoin o) → i ≠ .moduleReset → t.drip = s.drip) ∧
  (∀ (s : State) (rest : List Stim) (t : State), s.agenda = .tick :: rest → step s = .next t →
    (t.drip = s.drip ∧ t.agenda = s.agenda) ∨ (t.drip = s.drip + 1 ∧ t.agenda = rest))

/-- R346: a trap saves its cause, return point and value, saves the mode, enters supervisor mode with INTRAP set,
and goes to the handler; registers, pending bits, counts and every other thread stay. TRET's change returns to
the return point and the saved mode (R351). With INTRAP set, or a handler that fails R42, a record is filed, the
block fails and the thread ends instead, with cause DOUBLE_TRAP (0x3F2) where INTRAP was set. Where the spec
leaves a point open, it rests on the model's choice: notes/assumptions/20.md, notes/assumptions/30.md. -/
def Obligations.TrapsTaken : Prop :=
  (∀ (d : Dev) (drip : Nat) (mem : Memory) (k cause : Nat) (p v : Word) (t : Thread), d.thr k = some t →
    t.inTrap = false → d.targetNow drip mem t.coreSlot.1 t.ctx t.handler = true →
    ∃ y, (d.takeTrap drip mem k cause p v) = d.setThr k y ∧ y.pc = t.handler ∧ y.cause = wd64 cause ∧ y.epc = p ∧
      y.eval = v ∧ y.mode = true ∧ y.inTrap = true ∧ bit y.status 1 = t.mode ∧
      (∀ i, 3 ≤ i → bit y.status i = bit t.status i) ∧ y.regs = t.regs ∧ y.pendX = t.pendX ∧ y.pendV = t.pendV ∧
      y.pendK = t.pendK ∧ y.cL = t.cL ∧ y.cS = t.cS ∧ y.cC = t.cC ∧ y.cM = t.cM ∧ y.slotcfg = t.slotcfg ∧
      y.handler = t.handler ∧ y.fflags = t.fflags ∧ y.trapReturn.pc = p ∧ y.trapReturn.mode = t.mode ∧
      y.trapReturn.inTrap = false ∧ ∀ j ≠ k, (d.takeTrap drip mem k cause p v).thr j = d.thr j) ∧
  (∀ (d : Dev) (drip : Nat) (mem : Memory) (k cause : Nat) (p v : Word) (t : Thread), d.thr k = some t →
    (t.inTrap = true ∨ d.targetNow drip mem t.coreSlot.1 t.ctx t.handler = false) →
    let c := if t.inTrap then 0x3F2 else cause
    d.takeTrap drip mem k cause p v = (((d.fileFault (coreDie t.coreSlot.1) t.ctx t.tenant c 0 0 0 v
      t.coreSlot.1 t.coreSlot.2 [] false).1.failBlock t.blk c).endThread drip k) ∧
      ∀ x, (d.takeTrap drip mem k cause p v).thr k = some x → x.exited = true)

/-- R22, R27, R33, R46, R54, R175, R193, R212: what comes before a head's body, in order. A head waits while a
register it names is pending, whatever its guard. A privileged head in user mode traps PRIVILEGED (0x003); then
its own checks trap; a queue register used against its mapping traps QUEUE_MISUSE; a false guard, or an element
of one lane that is off, then leaves only the pc moved; and a pop of an empty queue or a push to a full one
keeps the slot. EVAL is free where the raising rule gives none (notes/assumptions/24.md). Where the spec leaves
a point open, it rests on the model's choice: notes/assumptions/24.md, notes/assumptions/102.md. -/
def Obligations.ChecksBeforeIssue : Prop :=
  ∀ (s : State) (x : Instr) (p lanes : Bool) (g : Guard) (u : Uses) (pre : Thread → Option Nat),
    HeadShape s.dev x p lanes g u pre →
    ∀ (k : Nat) (t : Thread), s.atIssue k t →
      let v := Config.freeWord s.dev.fresh
      let held := fun (b : Bool) => exec x s = .next (s.withDev { s.dev with note := .held b })
      (u.pending g t = true → held false) ∧
      (u.pending g t = false →
        (p = true → t.mode = false → exec x s = .next (s.trapped k 0x003 v)) ∧
        ((p = true → t.mode = true) →
          (∀ c, pre t = some c → exec x s = .next (s.trapped k c v)) ∧
          (pre t = none →
            (u.misuse t.slotcfg = true → exec x s = .next (s.trapped k Cause.queueMisuse v)) ∧
            (u.misuse t.slotcfg = false →
              ((lanes = false ∧ guardTrue g t = false) ∨ u.off s.dev t = true →
                exec x s = .next (s.withDev (s.dev.advance k))) ∧
              (lanes = true ∨ guardTrue g t = true → u.off s.dev t = false →
                (s.dev.readXs t u.xs = none → held (s.dev.ringBlocks t u)) ∧
                (∀ d vals r, s.dev.readXs t u.xs = some (d, vals) → u.xd = some r →
                  d.hasSpace t r = false → held (s.dev.ringBlocks t u)))))))

/-- R66: division never traps, with the results it gives for a zero divisor and for the most negative number over
minus one. -/
def Obligations.Division : Prop :=
  ∀ (o : RRR) (s : State) (j : In), IssuesS s false o.g (regUses o) j →
    let r := o.w.bits
    let a := j.a.setWidth r
    let b := j.b.setWidth r
    let writes := fun (x : Instr) (v : BitVec r) =>
      exec x s = .next (s.withDev (j.dev.putX j.tid o.d (v.signExtend 64)))
    ((∃ v, writes (.div o) v) ∧ (∃ v, writes (.divu o) v) ∧ (∃ v, writes (.rem o) v) ∧ (∃ v, writes (.remu o) v)) ∧
    (b = 0 → writes (.div o) (BitVec.allOnes r) ∧ writes (.divu o) (BitVec.allOnes r) ∧ writes (.rem o) a ∧
      writes (.remu o) a) ∧
    (a = BitVec.intMin r → b = BitVec.allOnes r → writes (.div o) a ∧ writes (.rem o) 0)

/-- R22, R65 to R76: the frame of the scalar, predicate and floating-point heads. Each completes; every byte of
memory, every other thread and every unit but queues and flags stays; of its thread only the destination, the pc
and, for floating point, FFLAGS change, and no flag that was set clears. x0 discards its write (R16). -/
def Obligations.HeadFrames : Prop :=
  (∀ (x : Instr) (g : Guard) (u : Uses) (r : Reg) (f : In → Word), ScalarForm x g u r f →
    ∀ (s : State) (j : In), IssuesS s false g u j →
      ∃ t y z, exec x s = .next t ∧ s.keeps t j.tid j.core ∧ s.dev.thr j.tid = some y ∧ t.dev.thr j.tid = some z ∧
        z = { y with regs := z.regs, pc := z.pc } ∧ (∀ c, (t.dev.clus c).cflags = (s.dev.clus c).cflags) ∧
        (∀ q, q ≠ r → z.regs.rx q = y.regs.rx q) ∧ z.regs.rx 0 = 0 ∧ z.regs.v = y.regs.v ∧ z.regs.k = y.regs.k) ∧
  (∀ (x : Instr) (g : Guard) (u : Uses) (f : In → Regs → Regs), PredForm x g u f →
    ∀ (s : State) (j : In), IssuesS s false g u j →
      ∃ t y z, exec x s = .next t ∧ s.keeps t j.tid j.core ∧ s.dev.thr j.tid = some y ∧ t.dev.thr j.tid = some z ∧
        z = { y with regs := z.regs, pc := z.pc } ∧ (∀ c, (t.dev.clus c).cflags = (s.dev.clus c).cflags) ∧
        (∀ q, q ∉ u.kd → z.regs.rk q = y.regs.rk q) ∧ z.regs.v = y.regs.v ∧ z.regs.x = y.regs.x) ∧
  (∀ (x : Instr) (g : Guard) (u : Uses) (r : Reg) (f : In → Word × Flags), FloatForm x g u r f →
    ∀ (s : State) (j : In), IssuesS s false g u j →
      ∃ t y z, exec x s = .next t ∧ s.keeps t j.tid j.core ∧ s.dev.thr j.tid = some y ∧ t.dev.thr j.tid = some z ∧
        z = { y with regs := z.regs, pc := z.pc, fflags := z.fflags } ∧ y.fflags &&& z.fflags = y.fflags ∧
        (∀ c, (s.dev.clus c).cflags &&& (t.dev.clus c).cflags = (s.dev.clus c).cflags) ∧
        (∀ q, q ≠ r → z.regs.rx q = y.regs.rx q) ∧ z.regs.rx 0 = 0 ∧ z.regs.v = y.regs.v ∧ z.regs.k = y.regs.k)
end

