-- ==== Sys2Proof/Laws/State.lean ====
section
/-!
SUPPORT. What each update of the module's record leaves in each of its fields.
-/
namespace Sys2Proof.Machine
open Sys2Proof

/-! ### `Dev.setThr` -/

@[simp] theorem Dev.setThr_threads (d : Dev) (k : Nat) (v : Thread) : (d.setThr k v).threads = put k v d.threads := rfl
@[simp] theorem Dev.setThr_nextTid (d : Dev) (k : Nat) (v : Thread) : (d.setThr k v).nextTid = d.nextTid := rfl
@[simp] theorem Dev.setThr_cur (d : Dev) (k : Nat) (v : Thread) : (d.setThr k v).cur = d.cur := rfl
@[simp] theorem Dev.setThr_iss (d : Dev) (k : Nat) (v : Thread) : (d.setThr k v).iss = d.iss := rfl
@[simp] theorem Dev.setThr_note (d : Dev) (k : Nat) (v : Thread) : (d.setThr k v).note = d.note := rfl
@[simp] theorem Dev.setThr_cores (d : Dev) (k : Nat) (v : Thread) : (d.setThr k v).cores = d.cores := rfl
@[simp] theorem Dev.setThr_clusters (d : Dev) (k : Nat) (v : Thread) : (d.setThr k v).clusters = d.clusters := rfl
@[simp] theorem Dev.setThr_dies (d : Dev) (k : Nat) (v : Thread) : (d.setThr k v).dies = d.dies := rfl
@[simp] theorem Dev.setThr_msgs (d : Dev) (k : Nat) (v : Thread) : (d.setThr k v).msgs = d.msgs := rfl
@[simp] theorem Dev.setThr_nextMsg (d : Dev) (k : Nat) (v : Thread) : (d.setThr k v).nextMsg = d.nextMsg := rfl
@[simp] theorem Dev.setThr_since (d : Dev) (k : Nat) (v : Thread) : (d.setThr k v).since = d.since := rfl
@[simp] theorem Dev.setThr_outst (d : Dev) (k : Nat) (v : Thread) : (d.setThr k v).outst = d.outst := rfl
@[simp] theorem Dev.setThr_nextOp (d : Dev) (k : Nat) (v : Thread) : (d.setThr k v).nextOp = d.nextOp := rfl
@[simp] theorem Dev.setThr_leases (d : Dev) (k : Nat) (v : Thread) : (d.setThr k v).leases = d.leases := rfl
@[simp] theorem Dev.setThr_guards (d : Dev) (k : Nat) (v : Thread) : (d.setThr k v).guards = d.guards := rfl
@[simp] theorem Dev.setThr_maps (d : Dev) (k : Nat) (v : Thread) : (d.setThr k v).maps = d.maps := rfl
@[simp] theorem Dev.setThr_blocks (d : Dev) (k : Nat) (v : Thread) : (d.setThr k v).blocks = d.blocks := rfl
@[simp] theorem Dev.setThr_nextBlk (d : Dev) (k : Nat) (v : Thread) : (d.setThr k v).nextBlk = d.nextBlk := rfl
@[simp] theorem Dev.setThr_launches (d : Dev) (k : Nat) (v : Thread) : (d.setThr k v).launches = d.launches := rfl
@[simp] theorem Dev.setThr_nextLaunch (d : Dev) (k : Nat) (v : Thread) : (d.setThr k v).nextLaunch = d.nextLaunch := rfl
@[simp] theorem Dev.setThr_walks (d : Dev) (k : Nat) (v : Thread) : (d.setThr k v).walks = d.walks := rfl
@[simp] theorem Dev.setThr_faults (d : Dev) (k : Nat) (v : Thread) : (d.setThr k v).faults = d.faults := rfl
@[simp] theorem Dev.setThr_fqNext (d : Dev) (k : Nat) (v : Thread) : (d.setThr k v).fqNext = d.fqNext := rfl
@[simp] theorem Dev.setThr_flNext (d : Dev) (k : Nat) (v : Thread) : (d.setThr k v).flNext = d.flNext := rfl
@[simp] theorem Dev.setThr_leaveHeld (d : Dev) (k : Nat) (v : Thread) : (d.setThr k v).leaveHeld = d.leaveHeld := rfl
@[simp] theorem Dev.setThr_leaveQ (d : Dev) (k : Nat) (v : Thread) : (d.setThr k v).leaveQ = d.leaveQ := rfl
@[simp] theorem Dev.setThr_perms (d : Dev) (k : Nat) (v : Thread) : (d.setThr k v).perms = d.perms := rfl
@[simp] theorem Dev.setThr_sliceLeases (d : Dev) (k : Nat) (v : Thread) : (d.setThr k v).sliceLeases = d.sliceLeases := rfl
@[simp] theorem Dev.setThr_readLeases (d : Dev) (k : Nat) (v : Thread) : (d.setThr k v).readLeases = d.readLeases := rfl
@[simp] theorem Dev.setThr_grotto (d : Dev) (k : Nat) (v : Thread) : (d.setThr k v).grotto = d.grotto := rfl
@[simp] theorem Dev.setThr_hostLines (d : Dev) (k : Nat) (v : Thread) : (d.setThr k v).hostLines = d.hostLines := rfl
@[simp] theorem Dev.setThr_foreign (d : Dev) (k : Nat) (v : Thread) : (d.setThr k v).foreign = d.foreign := rfl
@[simp] theorem Dev.setThr_blines (d : Dev) (k : Nat) (v : Thread) : (d.setThr k v).blines = d.blines := rfl
@[simp] theorem Dev.setThr_tags (d : Dev) (k : Nat) (v : Thread) : (d.setThr k v).tags = d.tags := rfl
@[simp] theorem Dev.setThr_exactLines (d : Dev) (k : Nat) (v : Thread) : (d.setThr k v).exactLines = d.exactLines := rfl
@[simp] theorem Dev.setThr_exactEls (d : Dev) (k : Nat) (v : Thread) : (d.setThr k v).exactEls = d.exactEls := rfl
@[simp] theorem Dev.setThr_poison (d : Dev) (k : Nat) (v : Thread) : (d.setThr k v).poison = d.poison := rfl
@[simp] theorem Dev.setThr_badWords (d : Dev) (k : Nat) (v : Thread) : (d.setThr k v).badWords = d.badWords := rfl
@[simp] theorem Dev.setThr_badSectors (d : Dev) (k : Nat) (v : Thread) : (d.setThr k v).badSectors = d.badSectors := rfl
@[simp] theorem Dev.setThr_tenCache (d : Dev) (k : Nat) (v : Thread) : (d.setThr k v).tenCache = d.tenCache := rfl
@[simp] theorem Dev.setThr_ctxtb (d : Dev) (k : Nat) (v : Thread) : (d.setThr k v).ctxtb = d.ctxtb := rfl
@[simp] theorem Dev.setThr_tentb (d : Dev) (k : Nat) (v : Thread) : (d.setThr k v).tentb = d.tentb := rfl
@[simp] theorem Dev.setThr_pstop (d : Dev) (k : Nat) (v : Thread) : (d.setThr k v).pstop = d.pstop := rfl
@[simp] theorem Dev.setThr_pgo (d : Dev) (k : Nat) (v : Thread) : (d.setThr k v).pgo = d.pgo := rfl
@[simp] theorem Dev.setThr_rootcap (d : Dev) (k : Nat) (v : Thread) : (d.setThr k v).rootcap = d.rootcap := rfl
@[simp] theorem Dev.setThr_href (d : Dev) (k : Nat) (v : Thread) : (d.setThr k v).href = d.href := rfl
@[simp] theorem Dev.setThr_heats (d : Dev) (k : Nat) (v : Thread) : (d.setThr k v).heats = d.heats := rfl
@[simp] theorem Dev.setThr_allocs (d : Dev) (k : Nat) (v : Thread) : (d.setThr k v).allocs = d.allocs := rfl
@[simp] theorem Dev.setThr_quotas (d : Dev) (k : Nat) (v : Thread) : (d.setThr k v).quotas = d.quotas := rfl
@[simp] theorem Dev.setThr_stops (d : Dev) (k : Nat) (v : Thread) : (d.setThr k v).stops = d.stops := rfl
@[simp] theorem Dev.setThr_stowed (d : Dev) (k : Nat) (v : Thread) : (d.setThr k v).stowed = d.stowed := rfl
@[simp] theorem Dev.setThr_fenced (d : Dev) (k : Nat) (v : Thread) : (d.setThr k v).fenced = d.fenced := rfl
@[simp] theorem Dev.setThr_colls (d : Dev) (k : Nat) (v : Thread) : (d.setThr k v).colls = d.colls := rfl
@[simp] theorem Dev.setThr_clears (d : Dev) (k : Nat) (v : Thread) : (d.setThr k v).clears = d.clears := rfl
@[simp] theorem Dev.setThr_collSeq (d : Dev) (k : Nat) (v : Thread) : (d.setThr k v).collSeq = d.collSeq := rfl
@[simp] theorem Dev.setThr_prqTags (d : Dev) (k : Nat) (v : Thread) : (d.setThr k v).prqTags = d.prqTags := rfl
@[simp] theorem Dev.setThr_prqQueue (d : Dev) (k : Nat) (v : Thread) : (d.setThr k v).prqQueue = d.prqQueue := rfl
@[simp] theorem Dev.setThr_modNo (d : Dev) (k : Nat) (v : Thread) : (d.setThr k v).modNo = d.modNo := rfl
@[simp] theorem Dev.setThr_members (d : Dev) (k : Nat) (v : Thread) : (d.setThr k v).members = d.members := rfl
@[simp] theorem Dev.setThr_offsets (d : Dev) (k : Nat) (v : Thread) : (d.setThr k v).offsets = d.offsets := rfl
@[simp] theorem Dev.setThr_trims (d : Dev) (k : Nat) (v : Thread) : (d.setThr k v).trims = d.trims := rfl
@[simp] theorem Dev.setThr_cut (d : Dev) (k : Nat) (v : Thread) : (d.setThr k v).cut = d.cut := rfl
@[simp] theorem Dev.setThr_incs (d : Dev) (k : Nat) (v : Thread) : (d.setThr k v).incs = d.incs := rfl
@[simp] theorem Dev.setThr_quarantine (d : Dev) (k : Nat) (v : Thread) : (d.setThr k v).quarantine = d.quarantine := rfl
@[simp] theorem Dev.setThr_started (d : Dev) (k : Nat) (v : Thread) : (d.setThr k v).started = d.started := rfl
@[simp] theorem Dev.setThr_joined (d : Dev) (k : Nat) (v : Thread) : (d.setThr k v).joined = d.joined := rfl
@[simp] theorem Dev.setThr_boot (d : Dev) (k : Nat) (v : Thread) : (d.setThr k v).boot = d.boot := rfl
@[simp] theorem Dev.setThr_inReset (d : Dev) (k : Nat) (v : Thread) : (d.setThr k v).inReset = d.inReset := rfl
@[simp] theorem Dev.setThr_vectors (d : Dev) (k : Nat) (v : Thread) : (d.setThr k v).vectors = d.vectors := rfl
@[simp] theorem Dev.setThr_hostRead (d : Dev) (k : Nat) (v : Thread) : (d.setThr k v).hostRead = d.hostRead := rfl
@[simp] theorem Dev.setThr_fresh (d : Dev) (k : Nat) (v : Thread) : (d.setThr k v).fresh = d.fresh := rfl

/-! ### `Dev.setCore` -/

@[simp] theorem Dev.setCore_threads (d : Dev) (k : Nat) (v : Core) : (d.setCore k v).threads = d.threads := rfl
@[simp] theorem Dev.setCore_nextTid (d : Dev) (k : Nat) (v : Core) : (d.setCore k v).nextTid = d.nextTid := rfl
@[simp] theorem Dev.setCore_cur (d : Dev) (k : Nat) (v : Core) : (d.setCore k v).cur = d.cur := rfl
@[simp] theorem Dev.setCore_iss (d : Dev) (k : Nat) (v : Core) : (d.setCore k v).iss = d.iss := rfl
@[simp] theorem Dev.setCore_note (d : Dev) (k : Nat) (v : Core) : (d.setCore k v).note = d.note := rfl
@[simp] theorem Dev.setCore_cores (d : Dev) (k : Nat) (v : Core) : (d.setCore k v).cores = put k v d.cores := rfl
@[simp] theorem Dev.setCore_clusters (d : Dev) (k : Nat) (v : Core) : (d.setCore k v).clusters = d.clusters := rfl
@[simp] theorem Dev.setCore_dies (d : Dev) (k : Nat) (v : Core) : (d.setCore k v).dies = d.dies := rfl
@[simp] theorem Dev.setCore_msgs (d : Dev) (k : Nat) (v : Core) : (d.setCore k v).msgs = d.msgs := rfl
@[simp] theorem Dev.setCore_nextMsg (d : Dev) (k : Nat) (v : Core) : (d.setCore k v).nextMsg = d.nextMsg := rfl
@[simp] theorem Dev.setCore_since (d : Dev) (k : Nat) (v : Core) : (d.setCore k v).since = d.since := rfl
@[simp] theorem Dev.setCore_outst (d : Dev) (k : Nat) (v : Core) : (d.setCore k v).outst = d.outst := rfl
@[simp] theorem Dev.setCore_nextOp (d : Dev) (k : Nat) (v : Core) : (d.setCore k v).nextOp = d.nextOp := rfl
@[simp] theorem Dev.setCore_leases (d : Dev) (k : Nat) (v : Core) : (d.setCore k v).leases = d.leases := rfl
@[simp] theorem Dev.setCore_guards (d : Dev) (k : Nat) (v : Core) : (d.setCore k v).guards = d.guards := rfl
@[simp] theorem Dev.setCore_maps (d : Dev) (k : Nat) (v : Core) : (d.setCore k v).maps = d.maps := rfl
@[simp] theorem Dev.setCore_blocks (d : Dev) (k : Nat) (v : Core) : (d.setCore k v).blocks = d.blocks := rfl
@[simp] theorem Dev.setCore_nextBlk (d : Dev) (k : Nat) (v : Core) : (d.setCore k v).nextBlk = d.nextBlk := rfl
@[simp] theorem Dev.setCore_launches (d : Dev) (k : Nat) (v : Core) : (d.setCore k v).launches = d.launches := rfl
@[simp] theorem Dev.setCore_nextLaunch (d : Dev) (k : Nat) (v : Core) : (d.setCore k v).nextLaunch = d.nextLaunch := rfl
@[simp] theorem Dev.setCore_walks (d : Dev) (k : Nat) (v : Core) : (d.setCore k v).walks = d.walks := rfl
@[simp] theorem Dev.setCore_faults (d : Dev) (k : Nat) (v : Core) : (d.setCore k v).faults = d.faults := rfl
@[simp] theorem Dev.setCore_fqNext (d : Dev) (k : Nat) (v : Core) : (d.setCore k v).fqNext = d.fqNext := rfl
@[simp] theorem Dev.setCore_flNext (d : Dev) (k : Nat) (v : Core) : (d.setCore k v).flNext = d.flNext := rfl
@[simp] theorem Dev.setCore_leaveHeld (d : Dev) (k : Nat) (v : Core) : (d.setCore k v).leaveHeld = d.leaveHeld := rfl
@[simp] theorem Dev.setCore_leaveQ (d : Dev) (k : Nat) (v : Core) : (d.setCore k v).leaveQ = d.leaveQ := rfl
@[simp] theorem Dev.setCore_perms (d : Dev) (k : Nat) (v : Core) : (d.setCore k v).perms = d.perms := rfl
@[simp] theorem Dev.setCore_sliceLeases (d : Dev) (k : Nat) (v : Core) : (d.setCore k v).sliceLeases = d.sliceLeases := rfl
@[simp] theorem Dev.setCore_readLeases (d : Dev) (k : Nat) (v : Core) : (d.setCore k v).readLeases = d.readLeases := rfl
@[simp] theorem Dev.setCore_grotto (d : Dev) (k : Nat) (v : Core) : (d.setCore k v).grotto = d.grotto := rfl
@[simp] theorem Dev.setCore_hostLines (d : Dev) (k : Nat) (v : Core) : (d.setCore k v).hostLines = d.hostLines := rfl
@[simp] theorem Dev.setCore_foreign (d : Dev) (k : Nat) (v : Core) : (d.setCore k v).foreign = d.foreign := rfl
@[simp] theorem Dev.setCore_blines (d : Dev) (k : Nat) (v : Core) : (d.setCore k v).blines = d.blines := rfl
@[simp] theorem Dev.setCore_tags (d : Dev) (k : Nat) (v : Core) : (d.setCore k v).tags = d.tags := rfl
@[simp] theorem Dev.setCore_exactLines (d : Dev) (k : Nat) (v : Core) : (d.setCore k v).exactLines = d.exactLines := rfl
@[simp] theorem Dev.setCore_exactEls (d : Dev) (k : Nat) (v : Core) : (d.setCore k v).exactEls = d.exactEls := rfl
@[simp] theorem Dev.setCore_poison (d : Dev) (k : Nat) (v : Core) : (d.setCore k v).poison = d.poison := rfl
@[simp] theorem Dev.setCore_badWords (d : Dev) (k : Nat) (v : Core) : (d.setCore k v).badWords = d.badWords := rfl
@[simp] theorem Dev.setCore_badSectors (d : Dev) (k : Nat) (v : Core) : (d.setCore k v).badSectors = d.badSectors := rfl
@[simp] theorem Dev.setCore_tenCache (d : Dev) (k : Nat) (v : Core) : (d.setCore k v).tenCache = d.tenCache := rfl
@[simp] theorem Dev.setCore_ctxtb (d : Dev) (k : Nat) (v : Core) : (d.setCore k v).ctxtb = d.ctxtb := rfl
@[simp] theorem Dev.setCore_tentb (d : Dev) (k : Nat) (v : Core) : (d.setCore k v).tentb = d.tentb := rfl
@[simp] theorem Dev.setCore_pstop (d : Dev) (k : Nat) (v : Core) : (d.setCore k v).pstop = d.pstop := rfl
@[simp] theorem Dev.setCore_pgo (d : Dev) (k : Nat) (v : Core) : (d.setCore k v).pgo = d.pgo := rfl
@[simp] theorem Dev.setCore_rootcap (d : Dev) (k : Nat) (v : Core) : (d.setCore k v).rootcap = d.rootcap := rfl
@[simp] theorem Dev.setCore_href (d : Dev) (k : Nat) (v : Core) : (d.setCore k v).href = d.href := rfl
@[simp] theorem Dev.setCore_heats (d : Dev) (k : Nat) (v : Core) : (d.setCore k v).heats = d.heats := rfl
@[simp] theorem Dev.setCore_allocs (d : Dev) (k : Nat) (v : Core) : (d.setCore k v).allocs = d.allocs := rfl
@[simp] theorem Dev.setCore_quotas (d : Dev) (k : Nat) (v : Core) : (d.setCore k v).quotas = d.quotas := rfl
@[simp] theorem Dev.setCore_stops (d : Dev) (k : Nat) (v : Core) : (d.setCore k v).stops = d.stops := rfl
@[simp] theorem Dev.setCore_stowed (d : Dev) (k : Nat) (v : Core) : (d.setCore k v).stowed = d.stowed := rfl
@[simp] theorem Dev.setCore_fenced (d : Dev) (k : Nat) (v : Core) : (d.setCore k v).fenced = d.fenced := rfl
@[simp] theorem Dev.setCore_colls (d : Dev) (k : Nat) (v : Core) : (d.setCore k v).colls = d.colls := rfl
@[simp] theorem Dev.setCore_clears (d : Dev) (k : Nat) (v : Core) : (d.setCore k v).clears = d.clears := rfl
@[simp] theorem Dev.setCore_collSeq (d : Dev) (k : Nat) (v : Core) : (d.setCore k v).collSeq = d.collSeq := rfl
@[simp] theorem Dev.setCore_prqTags (d : Dev) (k : Nat) (v : Core) : (d.setCore k v).prqTags = d.prqTags := rfl
@[simp] theorem Dev.setCore_prqQueue (d : Dev) (k : Nat) (v : Core) : (d.setCore k v).prqQueue = d.prqQueue := rfl
@[simp] theorem Dev.setCore_modNo (d : Dev) (k : Nat) (v : Core) : (d.setCore k v).modNo = d.modNo := rfl
@[simp] theorem Dev.setCore_members (d : Dev) (k : Nat) (v : Core) : (d.setCore k v).members = d.members := rfl
@[simp] theorem Dev.setCore_offsets (d : Dev) (k : Nat) (v : Core) : (d.setCore k v).offsets = d.offsets := rfl
@[simp] theorem Dev.setCore_trims (d : Dev) (k : Nat) (v : Core) : (d.setCore k v).trims = d.trims := rfl
@[simp] theorem Dev.setCore_cut (d : Dev) (k : Nat) (v : Core) : (d.setCore k v).cut = d.cut := rfl
@[simp] theorem Dev.setCore_incs (d : Dev) (k : Nat) (v : Core) : (d.setCore k v).incs = d.incs := rfl
@[simp] theorem Dev.setCore_quarantine (d : Dev) (k : Nat) (v : Core) : (d.setCore k v).quarantine = d.quarantine := rfl
@[simp] theorem Dev.setCore_started (d : Dev) (k : Nat) (v : Core) : (d.setCore k v).started = d.started := rfl
@[simp] theorem Dev.setCore_joined (d : Dev) (k : Nat) (v : Core) : (d.setCore k v).joined = d.joined := rfl
@[simp] theorem Dev.setCore_boot (d : Dev) (k : Nat) (v : Core) : (d.setCore k v).boot = d.boot := rfl
@[simp] theorem Dev.setCore_inReset (d : Dev) (k : Nat) (v : Core) : (d.setCore k v).inReset = d.inReset := rfl
@[simp] theorem Dev.setCore_vectors (d : Dev) (k : Nat) (v : Core) : (d.setCore k v).vectors = d.vectors := rfl
@[simp] theorem Dev.setCore_hostRead (d : Dev) (k : Nat) (v : Core) : (d.setCore k v).hostRead = d.hostRead := rfl
@[simp] theorem Dev.setCore_fresh (d : Dev) (k : Nat) (v : Core) : (d.setCore k v).fresh = d.fresh := rfl

/-! ### `Dev.setClus` -/

@[simp] theorem Dev.setClus_threads (d : Dev) (k : Nat) (v : Cluster) : (d.setClus k v).threads = d.threads := rfl
@[simp] theorem Dev.setClus_nextTid (d : Dev) (k : Nat) (v : Cluster) : (d.setClus k v).nextTid = d.nextTid := rfl
@[simp] theorem Dev.setClus_cur (d : Dev) (k : Nat) (v : Cluster) : (d.setClus k v).cur = d.cur := rfl
@[simp] theorem Dev.setClus_iss (d : Dev) (k : Nat) (v : Cluster) : (d.setClus k v).iss = d.iss := rfl
@[simp] theorem Dev.setClus_note (d : Dev) (k : Nat) (v : Cluster) : (d.setClus k v).note = d.note := rfl
@[simp] theorem Dev.setClus_cores (d : Dev) (k : Nat) (v : Cluster) : (d.setClus k v).cores = d.cores := rfl
@[simp] theorem Dev.setClus_clusters (d : Dev) (k : Nat) (v : Cluster) : (d.setClus k v).clusters = put k v d.clusters := rfl
@[simp] theorem Dev.setClus_dies (d : Dev) (k : Nat) (v : Cluster) : (d.setClus k v).dies = d.dies := rfl
@[simp] theorem Dev.setClus_msgs (d : Dev) (k : Nat) (v : Cluster) : (d.setClus k v).msgs = d.msgs := rfl
@[simp] theorem Dev.setClus_nextMsg (d : Dev) (k : Nat) (v : Cluster) : (d.setClus k v).nextMsg = d.nextMsg := rfl
@[simp] theorem Dev.setClus_since (d : Dev) (k : Nat) (v : Cluster) : (d.setClus k v).since = d.since := rfl
@[simp] theorem Dev.setClus_outst (d : Dev) (k : Nat) (v : Cluster) : (d.setClus k v).outst = d.outst := rfl
@[simp] theorem Dev.setClus_nextOp (d : Dev) (k : Nat) (v : Cluster) : (d.setClus k v).nextOp = d.nextOp := rfl
@[simp] theorem Dev.setClus_leases (d : Dev) (k : Nat) (v : Cluster) : (d.setClus k v).leases = d.leases := rfl
@[simp] theorem Dev.setClus_guards (d : Dev) (k : Nat) (v : Cluster) : (d.setClus k v).guards = d.guards := rfl
@[simp] theorem Dev.setClus_maps (d : Dev) (k : Nat) (v : Cluster) : (d.setClus k v).maps = d.maps := rfl
@[simp] theorem Dev.setClus_blocks (d : Dev) (k : Nat) (v : Cluster) : (d.setClus k v).blocks = d.blocks := rfl
@[simp] theorem Dev.setClus_nextBlk (d : Dev) (k : Nat) (v : Cluster) : (d.setClus k v).nextBlk = d.nextBlk := rfl
@[simp] theorem Dev.setClus_launches (d : Dev) (k : Nat) (v : Cluster) : (d.setClus k v).launches = d.launches := rfl
@[simp] theorem Dev.setClus_nextLaunch (d : Dev) (k : Nat) (v : Cluster) : (d.setClus k v).nextLaunch = d.nextLaunch := rfl
@[simp] theorem Dev.setClus_walks (d : Dev) (k : Nat) (v : Cluster) : (d.setClus k v).walks = d.walks := rfl
@[simp] theorem Dev.setClus_faults (d : Dev) (k : Nat) (v : Cluster) : (d.setClus k v).faults = d.faults := rfl
@[simp] theorem Dev.setClus_fqNext (d : Dev) (k : Nat) (v : Cluster) : (d.setClus k v).fqNext = d.fqNext := rfl
@[simp] theorem Dev.setClus_flNext (d : Dev) (k : Nat) (v : Cluster) : (d.setClus k v).flNext = d.flNext := rfl
@[simp] theorem Dev.setClus_leaveHeld (d : Dev) (k : Nat) (v : Cluster) : (d.setClus k v).leaveHeld = d.leaveHeld := rfl
@[simp] theorem Dev.setClus_leaveQ (d : Dev) (k : Nat) (v : Cluster) : (d.setClus k v).leaveQ = d.leaveQ := rfl
@[simp] theorem Dev.setClus_perms (d : Dev) (k : Nat) (v : Cluster) : (d.setClus k v).perms = d.perms := rfl
@[simp] theorem Dev.setClus_sliceLeases (d : Dev) (k : Nat) (v : Cluster) : (d.setClus k v).sliceLeases = d.sliceLeases := rfl
@[simp] theorem Dev.setClus_readLeases (d : Dev) (k : Nat) (v : Cluster) : (d.setClus k v).readLeases = d.readLeases := rfl
@[simp] theorem Dev.setClus_grotto (d : Dev) (k : Nat) (v : Cluster) : (d.setClus k v).grotto = d.grotto := rfl
@[simp] theorem Dev.setClus_hostLines (d : Dev) (k : Nat) (v : Cluster) : (d.setClus k v).hostLines = d.hostLines := rfl
@[simp] theorem Dev.setClus_foreign (d : Dev) (k : Nat) (v : Cluster) : (d.setClus k v).foreign = d.foreign := rfl
@[simp] theorem Dev.setClus_blines (d : Dev) (k : Nat) (v : Cluster) : (d.setClus k v).blines = d.blines := rfl
@[simp] theorem Dev.setClus_tags (d : Dev) (k : Nat) (v : Cluster) : (d.setClus k v).tags = d.tags := rfl
@[simp] theorem Dev.setClus_exactLines (d : Dev) (k : Nat) (v : Cluster) : (d.setClus k v).exactLines = d.exactLines := rfl
@[simp] theorem Dev.setClus_exactEls (d : Dev) (k : Nat) (v : Cluster) : (d.setClus k v).exactEls = d.exactEls := rfl
@[simp] theorem Dev.setClus_poison (d : Dev) (k : Nat) (v : Cluster) : (d.setClus k v).poison = d.poison := rfl
@[simp] theorem Dev.setClus_badWords (d : Dev) (k : Nat) (v : Cluster) : (d.setClus k v).badWords = d.badWords := rfl
@[simp] theorem Dev.setClus_badSectors (d : Dev) (k : Nat) (v : Cluster) : (d.setClus k v).badSectors = d.badSectors := rfl
@[simp] theorem Dev.setClus_tenCache (d : Dev) (k : Nat) (v : Cluster) : (d.setClus k v).tenCache = d.tenCache := rfl
@[simp] theorem Dev.setClus_ctxtb (d : Dev) (k : Nat) (v : Cluster) : (d.setClus k v).ctxtb = d.ctxtb := rfl
@[simp] theorem Dev.setClus_tentb (d : Dev) (k : Nat) (v : Cluster) : (d.setClus k v).tentb = d.tentb := rfl
@[simp] theorem Dev.setClus_pstop (d : Dev) (k : Nat) (v : Cluster) : (d.setClus k v).pstop = d.pstop := rfl
@[simp] theorem Dev.setClus_pgo (d : Dev) (k : Nat) (v : Cluster) : (d.setClus k v).pgo = d.pgo := rfl
@[simp] theorem Dev.setClus_rootcap (d : Dev) (k : Nat) (v : Cluster) : (d.setClus k v).rootcap = d.rootcap := rfl
@[simp] theorem Dev.setClus_href (d : Dev) (k : Nat) (v : Cluster) : (d.setClus k v).href = d.href := rfl
@[simp] theorem Dev.setClus_heats (d : Dev) (k : Nat) (v : Cluster) : (d.setClus k v).heats = d.heats := rfl
@[simp] theorem Dev.setClus_allocs (d : Dev) (k : Nat) (v : Cluster) : (d.setClus k v).allocs = d.allocs := rfl
@[simp] theorem Dev.setClus_quotas (d : Dev) (k : Nat) (v : Cluster) : (d.setClus k v).quotas = d.quotas := rfl
@[simp] theorem Dev.setClus_stops (d : Dev) (k : Nat) (v : Cluster) : (d.setClus k v).stops = d.stops := rfl
@[simp] theorem Dev.setClus_stowed (d : Dev) (k : Nat) (v : Cluster) : (d.setClus k v).stowed = d.stowed := rfl
@[simp] theorem Dev.setClus_fenced (d : Dev) (k : Nat) (v : Cluster) : (d.setClus k v).fenced = d.fenced := rfl
@[simp] theorem Dev.setClus_colls (d : Dev) (k : Nat) (v : Cluster) : (d.setClus k v).colls = d.colls := rfl
@[simp] theorem Dev.setClus_clears (d : Dev) (k : Nat) (v : Cluster) : (d.setClus k v).clears = d.clears := rfl
@[simp] theorem Dev.setClus_collSeq (d : Dev) (k : Nat) (v : Cluster) : (d.setClus k v).collSeq = d.collSeq := rfl
@[simp] theorem Dev.setClus_prqTags (d : Dev) (k : Nat) (v : Cluster) : (d.setClus k v).prqTags = d.prqTags := rfl
@[simp] theorem Dev.setClus_prqQueue (d : Dev) (k : Nat) (v : Cluster) : (d.setClus k v).prqQueue = d.prqQueue := rfl
@[simp] theorem Dev.setClus_modNo (d : Dev) (k : Nat) (v : Cluster) : (d.setClus k v).modNo = d.modNo := rfl
@[simp] theorem Dev.setClus_members (d : Dev) (k : Nat) (v : Cluster) : (d.setClus k v).members = d.members := rfl
@[simp] theorem Dev.setClus_offsets (d : Dev) (k : Nat) (v : Cluster) : (d.setClus k v).offsets = d.offsets := rfl
@[simp] theorem Dev.setClus_trims (d : Dev) (k : Nat) (v : Cluster) : (d.setClus k v).trims = d.trims := rfl
@[simp] theorem Dev.setClus_cut (d : Dev) (k : Nat) (v : Cluster) : (d.setClus k v).cut = d.cut := rfl
@[simp] theorem Dev.setClus_incs (d : Dev) (k : Nat) (v : Cluster) : (d.setClus k v).incs = d.incs := rfl
@[simp] theorem Dev.setClus_quarantine (d : Dev) (k : Nat) (v : Cluster) : (d.setClus k v).quarantine = d.quarantine := rfl
@[simp] theorem Dev.setClus_started (d : Dev) (k : Nat) (v : Cluster) : (d.setClus k v).started = d.started := rfl
@[simp] theorem Dev.setClus_joined (d : Dev) (k : Nat) (v : Cluster) : (d.setClus k v).joined = d.joined := rfl
@[simp] theorem Dev.setClus_boot (d : Dev) (k : Nat) (v : Cluster) : (d.setClus k v).boot = d.boot := rfl
@[simp] theorem Dev.setClus_inReset (d : Dev) (k : Nat) (v : Cluster) : (d.setClus k v).inReset = d.inReset := rfl
@[simp] theorem Dev.setClus_vectors (d : Dev) (k : Nat) (v : Cluster) : (d.setClus k v).vectors = d.vectors := rfl
@[simp] theorem Dev.setClus_hostRead (d : Dev) (k : Nat) (v : Cluster) : (d.setClus k v).hostRead = d.hostRead := rfl
@[simp] theorem Dev.setClus_fresh (d : Dev) (k : Nat) (v : Cluster) : (d.setClus k v).fresh = d.fresh := rfl

/-! ### `Dev.setDie` -/

@[simp] theorem Dev.setDie_threads (d : Dev) (k : Nat) (v : Die) : (d.setDie k v).threads = d.threads := rfl
@[simp] theorem Dev.setDie_nextTid (d : Dev) (k : Nat) (v : Die) : (d.setDie k v).nextTid = d.nextTid := rfl
@[simp] theorem Dev.setDie_cur (d : Dev) (k : Nat) (v : Die) : (d.setDie k v).cur = d.cur := rfl
@[simp] theorem Dev.setDie_iss (d : Dev) (k : Nat) (v : Die) : (d.setDie k v).iss = d.iss := rfl
@[simp] theorem Dev.setDie_note (d : Dev) (k : Nat) (v : Die) : (d.setDie k v).note = d.note := rfl
@[simp] theorem Dev.setDie_cores (d : Dev) (k : Nat) (v : Die) : (d.setDie k v).cores = d.cores := rfl
@[simp] theorem Dev.setDie_clusters (d : Dev) (k : Nat) (v : Die) : (d.setDie k v).clusters = d.clusters := rfl
@[simp] theorem Dev.setDie_dies (d : Dev) (k : Nat) (v : Die) : (d.setDie k v).dies = put k v d.dies := rfl
@[simp] theorem Dev.setDie_msgs (d : Dev) (k : Nat) (v : Die) : (d.setDie k v).msgs = d.msgs := rfl
@[simp] theorem Dev.setDie_nextMsg (d : Dev) (k : Nat) (v : Die) : (d.setDie k v).nextMsg = d.nextMsg := rfl
@[simp] theorem Dev.setDie_since (d : Dev) (k : Nat) (v : Die) : (d.setDie k v).since = d.since := rfl
@[simp] theorem Dev.setDie_outst (d : Dev) (k : Nat) (v : Die) : (d.setDie k v).outst = d.outst := rfl
@[simp] theorem Dev.setDie_nextOp (d : Dev) (k : Nat) (v : Die) : (d.setDie k v).nextOp = d.nextOp := rfl
@[simp] theorem Dev.setDie_leases (d : Dev) (k : Nat) (v : Die) : (d.setDie k v).leases = d.leases := rfl
@[simp] theorem Dev.setDie_guards (d : Dev) (k : Nat) (v : Die) : (d.setDie k v).guards = d.guards := rfl
@[simp] theorem Dev.setDie_maps (d : Dev) (k : Nat) (v : Die) : (d.setDie k v).maps = d.maps := rfl
@[simp] theorem Dev.setDie_blocks (d : Dev) (k : Nat) (v : Die) : (d.setDie k v).blocks = d.blocks := rfl
@[simp] theorem Dev.setDie_nextBlk (d : Dev) (k : Nat) (v : Die) : (d.setDie k v).nextBlk = d.nextBlk := rfl
@[simp] theorem Dev.setDie_launches (d : Dev) (k : Nat) (v : Die) : (d.setDie k v).launches = d.launches := rfl
@[simp] theorem Dev.setDie_nextLaunch (d : Dev) (k : Nat) (v : Die) : (d.setDie k v).nextLaunch = d.nextLaunch := rfl
@[simp] theorem Dev.setDie_walks (d : Dev) (k : Nat) (v : Die) : (d.setDie k v).walks = d.walks := rfl
@[simp] theorem Dev.setDie_faults (d : Dev) (k : Nat) (v : Die) : (d.setDie k v).faults = d.faults := rfl
@[simp] theorem Dev.setDie_fqNext (d : Dev) (k : Nat) (v : Die) : (d.setDie k v).fqNext = d.fqNext := rfl
@[simp] theorem Dev.setDie_flNext (d : Dev) (k : Nat) (v : Die) : (d.setDie k v).flNext = d.flNext := rfl
@[simp] theorem Dev.setDie_leaveHeld (d : Dev) (k : Nat) (v : Die) : (d.setDie k v).leaveHeld = d.leaveHeld := rfl
@[simp] theorem Dev.setDie_leaveQ (d : Dev) (k : Nat) (v : Die) : (d.setDie k v).leaveQ = d.leaveQ := rfl
@[simp] theorem Dev.setDie_perms (d : Dev) (k : Nat) (v : Die) : (d.setDie k v).perms = d.perms := rfl
@[simp] theorem Dev.setDie_sliceLeases (d : Dev) (k : Nat) (v : Die) : (d.setDie k v).sliceLeases = d.sliceLeases := rfl
@[simp] theorem Dev.setDie_readLeases (d : Dev) (k : Nat) (v : Die) : (d.setDie k v).readLeases = d.readLeases := rfl
@[simp] theorem Dev.setDie_grotto (d : Dev) (k : Nat) (v : Die) : (d.setDie k v).grotto = d.grotto := rfl
@[simp] theorem Dev.setDie_hostLines (d : Dev) (k : Nat) (v : Die) : (d.setDie k v).hostLines = d.hostLines := rfl
@[simp] theorem Dev.setDie_foreign (d : Dev) (k : Nat) (v : Die) : (d.setDie k v).foreign = d.foreign := rfl
@[simp] theorem Dev.setDie_blines (d : Dev) (k : Nat) (v : Die) : (d.setDie k v).blines = d.blines := rfl
@[simp] theorem Dev.setDie_tags (d : Dev) (k : Nat) (v : Die) : (d.setDie k v).tags = d.tags := rfl
@[simp] theorem Dev.setDie_exactLines (d : Dev) (k : Nat) (v : Die) : (d.setDie k v).exactLines = d.exactLines := rfl
@[simp] theorem Dev.setDie_exactEls (d : Dev) (k : Nat) (v : Die) : (d.setDie k v).exactEls = d.exactEls := rfl
@[simp] theorem Dev.setDie_poison (d : Dev) (k : Nat) (v : Die) : (d.setDie k v).poison = d.poison := rfl
@[simp] theorem Dev.setDie_badWords (d : Dev) (k : Nat) (v : Die) : (d.setDie k v).badWords = d.badWords := rfl
@[simp] theorem Dev.setDie_badSectors (d : Dev) (k : Nat) (v : Die) : (d.setDie k v).badSectors = d.badSectors := rfl
@[simp] theorem Dev.setDie_tenCache (d : Dev) (k : Nat) (v : Die) : (d.setDie k v).tenCache = d.tenCache := rfl
@[simp] theorem Dev.setDie_ctxtb (d : Dev) (k : Nat) (v : Die) : (d.setDie k v).ctxtb = d.ctxtb := rfl
@[simp] theorem Dev.setDie_tentb (d : Dev) (k : Nat) (v : Die) : (d.setDie k v).tentb = d.tentb := rfl
@[simp] theorem Dev.setDie_pstop (d : Dev) (k : Nat) (v : Die) : (d.setDie k v).pstop = d.pstop := rfl
@[simp] theorem Dev.setDie_pgo (d : Dev) (k : Nat) (v : Die) : (d.setDie k v).pgo = d.pgo := rfl
@[simp] theorem Dev.setDie_rootcap (d : Dev) (k : Nat) (v : Die) : (d.setDie k v).rootcap = d.rootcap := rfl
@[simp] theorem Dev.setDie_href (d : Dev) (k : Nat) (v : Die) : (d.setDie k v).href = d.href := rfl
@[simp] theorem Dev.setDie_heats (d : Dev) (k : Nat) (v : Die) : (d.setDie k v).heats = d.heats := rfl
@[simp] theorem Dev.setDie_allocs (d : Dev) (k : Nat) (v : Die) : (d.setDie k v).allocs = d.allocs := rfl
@[simp] theorem Dev.setDie_quotas (d : Dev) (k : Nat) (v : Die) : (d.setDie k v).quotas = d.quotas := rfl
@[simp] theorem Dev.setDie_stops (d : Dev) (k : Nat) (v : Die) : (d.setDie k v).stops = d.stops := rfl
@[simp] theorem Dev.setDie_stowed (d : Dev) (k : Nat) (v : Die) : (d.setDie k v).stowed = d.stowed := rfl
@[simp] theorem Dev.setDie_fenced (d : Dev) (k : Nat) (v : Die) : (d.setDie k v).fenced = d.fenced := rfl
@[simp] theorem Dev.setDie_colls (d : Dev) (k : Nat) (v : Die) : (d.setDie k v).colls = d.colls := rfl
@[simp] theorem Dev.setDie_clears (d : Dev) (k : Nat) (v : Die) : (d.setDie k v).clears = d.clears := rfl
@[simp] theorem Dev.setDie_collSeq (d : Dev) (k : Nat) (v : Die) : (d.setDie k v).collSeq = d.collSeq := rfl
@[simp] theorem Dev.setDie_prqTags (d : Dev) (k : Nat) (v : Die) : (d.setDie k v).prqTags = d.prqTags := rfl
@[simp] theorem Dev.setDie_prqQueue (d : Dev) (k : Nat) (v : Die) : (d.setDie k v).prqQueue = d.prqQueue := rfl
@[simp] theorem Dev.setDie_modNo (d : Dev) (k : Nat) (v : Die) : (d.setDie k v).modNo = d.modNo := rfl
@[simp] theorem Dev.setDie_members (d : Dev) (k : Nat) (v : Die) : (d.setDie k v).members = d.members := rfl
@[simp] theorem Dev.setDie_offsets (d : Dev) (k : Nat) (v : Die) : (d.setDie k v).offsets = d.offsets := rfl
@[simp] theorem Dev.setDie_trims (d : Dev) (k : Nat) (v : Die) : (d.setDie k v).trims = d.trims := rfl
@[simp] theorem Dev.setDie_cut (d : Dev) (k : Nat) (v : Die) : (d.setDie k v).cut = d.cut := rfl
@[simp] theorem Dev.setDie_incs (d : Dev) (k : Nat) (v : Die) : (d.setDie k v).incs = d.incs := rfl
@[simp] theorem Dev.setDie_quarantine (d : Dev) (k : Nat) (v : Die) : (d.setDie k v).quarantine = d.quarantine := rfl
@[simp] theorem Dev.setDie_started (d : Dev) (k : Nat) (v : Die) : (d.setDie k v).started = d.started := rfl
@[simp] theorem Dev.setDie_joined (d : Dev) (k : Nat) (v : Die) : (d.setDie k v).joined = d.joined := rfl
@[simp] theorem Dev.setDie_boot (d : Dev) (k : Nat) (v : Die) : (d.setDie k v).boot = d.boot := rfl
@[simp] theorem Dev.setDie_inReset (d : Dev) (k : Nat) (v : Die) : (d.setDie k v).inReset = d.inReset := rfl
@[simp] theorem Dev.setDie_vectors (d : Dev) (k : Nat) (v : Die) : (d.setDie k v).vectors = d.vectors := rfl
@[simp] theorem Dev.setDie_hostRead (d : Dev) (k : Nat) (v : Die) : (d.setDie k v).hostRead = d.hostRead := rfl
@[simp] theorem Dev.setDie_fresh (d : Dev) (k : Nat) (v : Die) : (d.setDie k v).fresh = d.fresh := rfl

/-! ### `Dev.setBlk` -/

@[simp] theorem Dev.setBlk_threads (d : Dev) (k : Nat) (v : Block) : (d.setBlk k v).threads = d.threads := rfl
@[simp] theorem Dev.setBlk_nextTid (d : Dev) (k : Nat) (v : Block) : (d.setBlk k v).nextTid = d.nextTid := rfl
@[simp] theorem Dev.setBlk_cur (d : Dev) (k : Nat) (v : Block) : (d.setBlk k v).cur = d.cur := rfl
@[simp] theorem Dev.setBlk_iss (d : Dev) (k : Nat) (v : Block) : (d.setBlk k v).iss = d.iss := rfl
@[simp] theorem Dev.setBlk_note (d : Dev) (k : Nat) (v : Block) : (d.setBlk k v).note = d.note := rfl
@[simp] theorem Dev.setBlk_cores (d : Dev) (k : Nat) (v : Block) : (d.setBlk k v).cores = d.cores := rfl
@[simp] theorem Dev.setBlk_clusters (d : Dev) (k : Nat) (v : Block) : (d.setBlk k v).clusters = d.clusters := rfl
@[simp] theorem Dev.setBlk_dies (d : Dev) (k : Nat) (v : Block) : (d.setBlk k v).dies = d.dies := rfl
@[simp] theorem Dev.setBlk_msgs (d : Dev) (k : Nat) (v : Block) : (d.setBlk k v).msgs = d.msgs := rfl
@[simp] theorem Dev.setBlk_nextMsg (d : Dev) (k : Nat) (v : Block) : (d.setBlk k v).nextMsg = d.nextMsg := rfl
@[simp] theorem Dev.setBlk_since (d : Dev) (k : Nat) (v : Block) : (d.setBlk k v).since = d.since := rfl
@[simp] theorem Dev.setBlk_outst (d : Dev) (k : Nat) (v : Block) : (d.setBlk k v).outst = d.outst := rfl
@[simp] theorem Dev.setBlk_nextOp (d : Dev) (k : Nat) (v : Block) : (d.setBlk k v).nextOp = d.nextOp := rfl
@[simp] theorem Dev.setBlk_leases (d : Dev) (k : Nat) (v : Block) : (d.setBlk k v).leases = d.leases := rfl
@[simp] theorem Dev.setBlk_guards (d : Dev) (k : Nat) (v : Block) : (d.setBlk k v).guards = d.guards := rfl
@[simp] theorem Dev.setBlk_maps (d : Dev) (k : Nat) (v : Block) : (d.setBlk k v).maps = d.maps := rfl
@[simp] theorem Dev.setBlk_blocks (d : Dev) (k : Nat) (v : Block) : (d.setBlk k v).blocks = put k v d.blocks := rfl
@[simp] theorem Dev.setBlk_nextBlk (d : Dev) (k : Nat) (v : Block) : (d.setBlk k v).nextBlk = d.nextBlk := rfl
@[simp] theorem Dev.setBlk_launches (d : Dev) (k : Nat) (v : Block) : (d.setBlk k v).launches = d.launches := rfl
@[simp] theorem Dev.setBlk_nextLaunch (d : Dev) (k : Nat) (v : Block) : (d.setBlk k v).nextLaunch = d.nextLaunch := rfl
@[simp] theorem Dev.setBlk_walks (d : Dev) (k : Nat) (v : Block) : (d.setBlk k v).walks = d.walks := rfl
@[simp] theorem Dev.setBlk_faults (d : Dev) (k : Nat) (v : Block) : (d.setBlk k v).faults = d.faults := rfl
@[simp] theorem Dev.setBlk_fqNext (d : Dev) (k : Nat) (v : Block) : (d.setBlk k v).fqNext = d.fqNext := rfl
@[simp] theorem Dev.setBlk_flNext (d : Dev) (k : Nat) (v : Block) : (d.setBlk k v).flNext = d.flNext := rfl
@[simp] theorem Dev.setBlk_leaveHeld (d : Dev) (k : Nat) (v : Block) : (d.setBlk k v).leaveHeld = d.leaveHeld := rfl
@[simp] theorem Dev.setBlk_leaveQ (d : Dev) (k : Nat) (v : Block) : (d.setBlk k v).leaveQ = d.leaveQ := rfl
@[simp] theorem Dev.setBlk_perms (d : Dev) (k : Nat) (v : Block) : (d.setBlk k v).perms = d.perms := rfl
@[simp] theorem Dev.setBlk_sliceLeases (d : Dev) (k : Nat) (v : Block) : (d.setBlk k v).sliceLeases = d.sliceLeases := rfl
@[simp] theorem Dev.setBlk_readLeases (d : Dev) (k : Nat) (v : Block) : (d.setBlk k v).readLeases = d.readLeases := rfl
@[simp] theorem Dev.setBlk_grotto (d : Dev) (k : Nat) (v : Block) : (d.setBlk k v).grotto = d.grotto := rfl
@[simp] theorem Dev.setBlk_hostLines (d : Dev) (k : Nat) (v : Block) : (d.setBlk k v).hostLines = d.hostLines := rfl
@[simp] theorem Dev.setBlk_foreign (d : Dev) (k : Nat) (v : Block) : (d.setBlk k v).foreign = d.foreign := rfl
@[simp] theorem Dev.setBlk_blines (d : Dev) (k : Nat) (v : Block) : (d.setBlk k v).blines = d.blines := rfl
@[simp] theorem Dev.setBlk_tags (d : Dev) (k : Nat) (v : Block) : (d.setBlk k v).tags = d.tags := rfl
@[simp] theorem Dev.setBlk_exactLines (d : Dev) (k : Nat) (v : Block) : (d.setBlk k v).exactLines = d.exactLines := rfl
@[simp] theorem Dev.setBlk_exactEls (d : Dev) (k : Nat) (v : Block) : (d.setBlk k v).exactEls = d.exactEls := rfl
@[simp] theorem Dev.setBlk_poison (d : Dev) (k : Nat) (v : Block) : (d.setBlk k v).poison = d.poison := rfl
@[simp] theorem Dev.setBlk_badWords (d : Dev) (k : Nat) (v : Block) : (d.setBlk k v).badWords = d.badWords := rfl
@[simp] theorem Dev.setBlk_badSectors (d : Dev) (k : Nat) (v : Block) : (d.setBlk k v).badSectors = d.badSectors := rfl
@[simp] theorem Dev.setBlk_tenCache (d : Dev) (k : Nat) (v : Block) : (d.setBlk k v).tenCache = d.tenCache := rfl
@[simp] theorem Dev.setBlk_ctxtb (d : Dev) (k : Nat) (v : Block) : (d.setBlk k v).ctxtb = d.ctxtb := rfl
@[simp] theorem Dev.setBlk_tentb (d : Dev) (k : Nat) (v : Block) : (d.setBlk k v).tentb = d.tentb := rfl
@[simp] theorem Dev.setBlk_pstop (d : Dev) (k : Nat) (v : Block) : (d.setBlk k v).pstop = d.pstop := rfl
@[simp] theorem Dev.setBlk_pgo (d : Dev) (k : Nat) (v : Block) : (d.setBlk k v).pgo = d.pgo := rfl
@[simp] theorem Dev.setBlk_rootcap (d : Dev) (k : Nat) (v : Block) : (d.setBlk k v).rootcap = d.rootcap := rfl
@[simp] theorem Dev.setBlk_href (d : Dev) (k : Nat) (v : Block) : (d.setBlk k v).href = d.href := rfl
@[simp] theorem Dev.setBlk_heats (d : Dev) (k : Nat) (v : Block) : (d.setBlk k v).heats = d.heats := rfl
@[simp] theorem Dev.setBlk_allocs (d : Dev) (k : Nat) (v : Block) : (d.setBlk k v).allocs = d.allocs := rfl
@[simp] theorem Dev.setBlk_quotas (d : Dev) (k : Nat) (v : Block) : (d.setBlk k v).quotas = d.quotas := rfl
@[simp] theorem Dev.setBlk_stops (d : Dev) (k : Nat) (v : Block) : (d.setBlk k v).stops = d.stops := rfl
@[simp] theorem Dev.setBlk_stowed (d : Dev) (k : Nat) (v : Block) : (d.setBlk k v).stowed = d.stowed := rfl
@[simp] theorem Dev.setBlk_fenced (d : Dev) (k : Nat) (v : Block) : (d.setBlk k v).fenced = d.fenced := rfl
@[simp] theorem Dev.setBlk_colls (d : Dev) (k : Nat) (v : Block) : (d.setBlk k v).colls = d.colls := rfl
@[simp] theorem Dev.setBlk_clears (d : Dev) (k : Nat) (v : Block) : (d.setBlk k v).clears = d.clears := rfl
@[simp] theorem Dev.setBlk_collSeq (d : Dev) (k : Nat) (v : Block) : (d.setBlk k v).collSeq = d.collSeq := rfl
@[simp] theorem Dev.setBlk_prqTags (d : Dev) (k : Nat) (v : Block) : (d.setBlk k v).prqTags = d.prqTags := rfl
@[simp] theorem Dev.setBlk_prqQueue (d : Dev) (k : Nat) (v : Block) : (d.setBlk k v).prqQueue = d.prqQueue := rfl
@[simp] theorem Dev.setBlk_modNo (d : Dev) (k : Nat) (v : Block) : (d.setBlk k v).modNo = d.modNo := rfl
@[simp] theorem Dev.setBlk_members (d : Dev) (k : Nat) (v : Block) : (d.setBlk k v).members = d.members := rfl
@[simp] theorem Dev.setBlk_offsets (d : Dev) (k : Nat) (v : Block) : (d.setBlk k v).offsets = d.offsets := rfl
@[simp] theorem Dev.setBlk_trims (d : Dev) (k : Nat) (v : Block) : (d.setBlk k v).trims = d.trims := rfl
@[simp] theorem Dev.setBlk_cut (d : Dev) (k : Nat) (v : Block) : (d.setBlk k v).cut = d.cut := rfl
@[simp] theorem Dev.setBlk_incs (d : Dev) (k : Nat) (v : Block) : (d.setBlk k v).incs = d.incs := rfl
@[simp] theorem Dev.setBlk_quarantine (d : Dev) (k : Nat) (v : Block) : (d.setBlk k v).quarantine = d.quarantine := rfl
@[simp] theorem Dev.setBlk_started (d : Dev) (k : Nat) (v : Block) : (d.setBlk k v).started = d.started := rfl
@[simp] theorem Dev.setBlk_joined (d : Dev) (k : Nat) (v : Block) : (d.setBlk k v).joined = d.joined := rfl
@[simp] theorem Dev.setBlk_boot (d : Dev) (k : Nat) (v : Block) : (d.setBlk k v).boot = d.boot := rfl
@[simp] theorem Dev.setBlk_inReset (d : Dev) (k : Nat) (v : Block) : (d.setBlk k v).inReset = d.inReset := rfl
@[simp] theorem Dev.setBlk_vectors (d : Dev) (k : Nat) (v : Block) : (d.setBlk k v).vectors = d.vectors := rfl
@[simp] theorem Dev.setBlk_hostRead (d : Dev) (k : Nat) (v : Block) : (d.setBlk k v).hostRead = d.hostRead := rfl
@[simp] theorem Dev.setBlk_fresh (d : Dev) (k : Nat) (v : Block) : (d.setBlk k v).fresh = d.fresh := rfl

/-! ### `Dev.setLch` -/

@[simp] theorem Dev.setLch_threads (d : Dev) (k : Nat) (v : Launch) : (d.setLch k v).threads = d.threads := rfl
@[simp] theorem Dev.setLch_nextTid (d : Dev) (k : Nat) (v : Launch) : (d.setLch k v).nextTid = d.nextTid := rfl
@[simp] theorem Dev.setLch_cur (d : Dev) (k : Nat) (v : Launch) : (d.setLch k v).cur = d.cur := rfl
@[simp] theorem Dev.setLch_iss (d : Dev) (k : Nat) (v : Launch) : (d.setLch k v).iss = d.iss := rfl
@[simp] theorem Dev.setLch_note (d : Dev) (k : Nat) (v : Launch) : (d.setLch k v).note = d.note := rfl
@[simp] theorem Dev.setLch_cores (d : Dev) (k : Nat) (v : Launch) : (d.setLch k v).cores = d.cores := rfl
@[simp] theorem Dev.setLch_clusters (d : Dev) (k : Nat) (v : Launch) : (d.setLch k v).clusters = d.clusters := rfl
@[simp] theorem Dev.setLch_dies (d : Dev) (k : Nat) (v : Launch) : (d.setLch k v).dies = d.dies := rfl
@[simp] theorem Dev.setLch_msgs (d : Dev) (k : Nat) (v : Launch) : (d.setLch k v).msgs = d.msgs := rfl
@[simp] theorem Dev.setLch_nextMsg (d : Dev) (k : Nat) (v : Launch) : (d.setLch k v).nextMsg = d.nextMsg := rfl
@[simp] theorem Dev.setLch_since (d : Dev) (k : Nat) (v : Launch) : (d.setLch k v).since = d.since := rfl
@[simp] theorem Dev.setLch_outst (d : Dev) (k : Nat) (v : Launch) : (d.setLch k v).outst = d.outst := rfl
@[simp] theorem Dev.setLch_nextOp (d : Dev) (k : Nat) (v : Launch) : (d.setLch k v).nextOp = d.nextOp := rfl
@[simp] theorem Dev.setLch_leases (d : Dev) (k : Nat) (v : Launch) : (d.setLch k v).leases = d.leases := rfl
@[simp] theorem Dev.setLch_guards (d : Dev) (k : Nat) (v : Launch) : (d.setLch k v).guards = d.guards := rfl
@[simp] theorem Dev.setLch_maps (d : Dev) (k : Nat) (v : Launch) : (d.setLch k v).maps = d.maps := rfl
@[simp] theorem Dev.setLch_blocks (d : Dev) (k : Nat) (v : Launch) : (d.setLch k v).blocks = d.blocks := rfl
@[simp] theorem Dev.setLch_nextBlk (d : Dev) (k : Nat) (v : Launch) : (d.setLch k v).nextBlk = d.nextBlk := rfl
@[simp] theorem Dev.setLch_launches (d : Dev) (k : Nat) (v : Launch) : (d.setLch k v).launches = put k v d.launches := rfl
@[simp] theorem Dev.setLch_nextLaunch (d : Dev) (k : Nat) (v : Launch) : (d.setLch k v).nextLaunch = d.nextLaunch := rfl
@[simp] theorem Dev.setLch_walks (d : Dev) (k : Nat) (v : Launch) : (d.setLch k v).walks = d.walks := rfl
@[simp] theorem Dev.setLch_faults (d : Dev) (k : Nat) (v : Launch) : (d.setLch k v).faults = d.faults := rfl
@[simp] theorem Dev.setLch_fqNext (d : Dev) (k : Nat) (v : Launch) : (d.setLch k v).fqNext = d.fqNext := rfl
@[simp] theorem Dev.setLch_flNext (d : Dev) (k : Nat) (v : Launch) : (d.setLch k v).flNext = d.flNext := rfl
@[simp] theorem Dev.setLch_leaveHeld (d : Dev) (k : Nat) (v : Launch) : (d.setLch k v).leaveHeld = d.leaveHeld := rfl
@[simp] theorem Dev.setLch_leaveQ (d : Dev) (k : Nat) (v : Launch) : (d.setLch k v).leaveQ = d.leaveQ := rfl
@[simp] theorem Dev.setLch_perms (d : Dev) (k : Nat) (v : Launch) : (d.setLch k v).perms = d.perms := rfl
@[simp] theorem Dev.setLch_sliceLeases (d : Dev) (k : Nat) (v : Launch) : (d.setLch k v).sliceLeases = d.sliceLeases := rfl
@[simp] theorem Dev.setLch_readLeases (d : Dev) (k : Nat) (v : Launch) : (d.setLch k v).readLeases = d.readLeases := rfl
@[simp] theorem Dev.setLch_grotto (d : Dev) (k : Nat) (v : Launch) : (d.setLch k v).grotto = d.grotto := rfl
@[simp] theorem Dev.setLch_hostLines (d : Dev) (k : Nat) (v : Launch) : (d.setLch k v).hostLines = d.hostLines := rfl
@[simp] theorem Dev.setLch_foreign (d : Dev) (k : Nat) (v : Launch) : (d.setLch k v).foreign = d.foreign := rfl
@[simp] theorem Dev.setLch_blines (d : Dev) (k : Nat) (v : Launch) : (d.setLch k v).blines = d.blines := rfl
@[simp] theorem Dev.setLch_tags (d : Dev) (k : Nat) (v : Launch) : (d.setLch k v).tags = d.tags := rfl
@[simp] theorem Dev.setLch_exactLines (d : Dev) (k : Nat) (v : Launch) : (d.setLch k v).exactLines = d.exactLines := rfl
@[simp] theorem Dev.setLch_exactEls (d : Dev) (k : Nat) (v : Launch) : (d.setLch k v).exactEls = d.exactEls := rfl
@[simp] theorem Dev.setLch_poison (d : Dev) (k : Nat) (v : Launch) : (d.setLch k v).poison = d.poison := rfl
@[simp] theorem Dev.setLch_badWords (d : Dev) (k : Nat) (v : Launch) : (d.setLch k v).badWords = d.badWords := rfl
@[simp] theorem Dev.setLch_badSectors (d : Dev) (k : Nat) (v : Launch) : (d.setLch k v).badSectors = d.badSectors := rfl
@[simp] theorem Dev.setLch_tenCache (d : Dev) (k : Nat) (v : Launch) : (d.setLch k v).tenCache = d.tenCache := rfl
@[simp] theorem Dev.setLch_ctxtb (d : Dev) (k : Nat) (v : Launch) : (d.setLch k v).ctxtb = d.ctxtb := rfl
@[simp] theorem Dev.setLch_tentb (d : Dev) (k : Nat) (v : Launch) : (d.setLch k v).tentb = d.tentb := rfl
@[simp] theorem Dev.setLch_pstop (d : Dev) (k : Nat) (v : Launch) : (d.setLch k v).pstop = d.pstop := rfl
@[simp] theorem Dev.setLch_pgo (d : Dev) (k : Nat) (v : Launch) : (d.setLch k v).pgo = d.pgo := rfl
@[simp] theorem Dev.setLch_rootcap (d : Dev) (k : Nat) (v : Launch) : (d.setLch k v).rootcap = d.rootcap := rfl
@[simp] theorem Dev.setLch_href (d : Dev) (k : Nat) (v : Launch) : (d.setLch k v).href = d.href := rfl
@[simp] theorem Dev.setLch_heats (d : Dev) (k : Nat) (v : Launch) : (d.setLch k v).heats = d.heats := rfl
@[simp] theorem Dev.setLch_allocs (d : Dev) (k : Nat) (v : Launch) : (d.setLch k v).allocs = d.allocs := rfl
@[simp] theorem Dev.setLch_quotas (d : Dev) (k : Nat) (v : Launch) : (d.setLch k v).quotas = d.quotas := rfl
@[simp] theorem Dev.setLch_stops (d : Dev) (k : Nat) (v : Launch) : (d.setLch k v).stops = d.stops := rfl
@[simp] theorem Dev.setLch_stowed (d : Dev) (k : Nat) (v : Launch) : (d.setLch k v).stowed = d.stowed := rfl
@[simp] theorem Dev.setLch_fenced (d : Dev) (k : Nat) (v : Launch) : (d.setLch k v).fenced = d.fenced := rfl
@[simp] theorem Dev.setLch_colls (d : Dev) (k : Nat) (v : Launch) : (d.setLch k v).colls = d.colls := rfl
@[simp] theorem Dev.setLch_clears (d : Dev) (k : Nat) (v : Launch) : (d.setLch k v).clears = d.clears := rfl
@[simp] theorem Dev.setLch_collSeq (d : Dev) (k : Nat) (v : Launch) : (d.setLch k v).collSeq = d.collSeq := rfl
@[simp] theorem Dev.setLch_prqTags (d : Dev) (k : Nat) (v : Launch) : (d.setLch k v).prqTags = d.prqTags := rfl
@[simp] theorem Dev.setLch_prqQueue (d : Dev) (k : Nat) (v : Launch) : (d.setLch k v).prqQueue = d.prqQueue := rfl
@[simp] theorem Dev.setLch_modNo (d : Dev) (k : Nat) (v : Launch) : (d.setLch k v).modNo = d.modNo := rfl
@[simp] theorem Dev.setLch_members (d : Dev) (k : Nat) (v : Launch) : (d.setLch k v).members = d.members := rfl
@[simp] theorem Dev.setLch_offsets (d : Dev) (k : Nat) (v : Launch) : (d.setLch k v).offsets = d.offsets := rfl
@[simp] theorem Dev.setLch_trims (d : Dev) (k : Nat) (v : Launch) : (d.setLch k v).trims = d.trims := rfl
@[simp] theorem Dev.setLch_cut (d : Dev) (k : Nat) (v : Launch) : (d.setLch k v).cut = d.cut := rfl
@[simp] theorem Dev.setLch_incs (d : Dev) (k : Nat) (v : Launch) : (d.setLch k v).incs = d.incs := rfl
@[simp] theorem Dev.setLch_quarantine (d : Dev) (k : Nat) (v : Launch) : (d.setLch k v).quarantine = d.quarantine := rfl
@[simp] theorem Dev.setLch_started (d : Dev) (k : Nat) (v : Launch) : (d.setLch k v).started = d.started := rfl
@[simp] theorem Dev.setLch_joined (d : Dev) (k : Nat) (v : Launch) : (d.setLch k v).joined = d.joined := rfl
@[simp] theorem Dev.setLch_boot (d : Dev) (k : Nat) (v : Launch) : (d.setLch k v).boot = d.boot := rfl
@[simp] theorem Dev.setLch_inReset (d : Dev) (k : Nat) (v : Launch) : (d.setLch k v).inReset = d.inReset := rfl
@[simp] theorem Dev.setLch_vectors (d : Dev) (k : Nat) (v : Launch) : (d.setLch k v).vectors = d.vectors := rfl
@[simp] theorem Dev.setLch_hostRead (d : Dev) (k : Nat) (v : Launch) : (d.setLch k v).hostRead = d.hostRead := rfl
@[simp] theorem Dev.setLch_fresh (d : Dev) (k : Nat) (v : Launch) : (d.setLch k v).fresh = d.fresh := rfl

/-! ### `Dev.tickFresh` -/

@[simp] theorem Dev.tickFresh_threads (d : Dev) : (d.tickFresh).threads = d.threads := rfl
@[simp] theorem Dev.tickFresh_nextTid (d : Dev) : (d.tickFresh).nextTid = d.nextTid := rfl
@[simp] theorem Dev.tickFresh_cur (d : Dev) : (d.tickFresh).cur = d.cur := rfl
@[simp] theorem Dev.tickFresh_iss (d : Dev) : (d.tickFresh).iss = d.iss := rfl
@[simp] theorem Dev.tickFresh_note (d : Dev) : (d.tickFresh).note = d.note := rfl
@[simp] theorem Dev.tickFresh_cores (d : Dev) : (d.tickFresh).cores = d.cores := rfl
@[simp] theorem Dev.tickFresh_clusters (d : Dev) : (d.tickFresh).clusters = d.clusters := rfl
@[simp] theorem Dev.tickFresh_dies (d : Dev) : (d.tickFresh).dies = d.dies := rfl
@[simp] theorem Dev.tickFresh_msgs (d : Dev) : (d.tickFresh).msgs = d.msgs := rfl
@[simp] theorem Dev.tickFresh_nextMsg (d : Dev) : (d.tickFresh).nextMsg = d.nextMsg := rfl
@[simp] theorem Dev.tickFresh_since (d : Dev) : (d.tickFresh).since = d.since := rfl
@[simp] theorem Dev.tickFresh_outst (d : Dev) : (d.tickFresh).outst = d.outst := rfl
@[simp] theorem Dev.tickFresh_nextOp (d : Dev) : (d.tickFresh).nextOp = d.nextOp := rfl
@[simp] theorem Dev.tickFresh_leases (d : Dev) : (d.tickFresh).leases = d.leases := rfl
@[simp] theorem Dev.tickFresh_guards (d : Dev) : (d.tickFresh).guards = d.guards := rfl
@[simp] theorem Dev.tickFresh_maps (d : Dev) : (d.tickFresh).maps = d.maps := rfl
@[simp] theorem Dev.tickFresh_blocks (d : Dev) : (d.tickFresh).blocks = d.blocks := rfl
@[simp] theorem Dev.tickFresh_nextBlk (d : Dev) : (d.tickFresh).nextBlk = d.nextBlk := rfl
@[simp] theorem Dev.tickFresh_launches (d : Dev) : (d.tickFresh).launches = d.launches := rfl
@[simp] theorem Dev.tickFresh_nextLaunch (d : Dev) : (d.tickFresh).nextLaunch = d.nextLaunch := rfl
@[simp] theorem Dev.tickFresh_walks (d : Dev) : (d.tickFresh).walks = d.walks := rfl
@[simp] theorem Dev.tickFresh_faults (d : Dev) : (d.tickFresh).faults = d.faults := rfl
@[simp] theorem Dev.tickFresh_fqNext (d : Dev) : (d.tickFresh).fqNext = d.fqNext := rfl
@[simp] theorem Dev.tickFresh_flNext (d : Dev) : (d.tickFresh).flNext = d.flNext := rfl
@[simp] theorem Dev.tickFresh_leaveHeld (d : Dev) : (d.tickFresh).leaveHeld = d.leaveHeld := rfl
@[simp] theorem Dev.tickFresh_leaveQ (d : Dev) : (d.tickFresh).leaveQ = d.leaveQ := rfl
@[simp] theorem Dev.tickFresh_perms (d : Dev) : (d.tickFresh).perms = d.perms := rfl
@[simp] theorem Dev.tickFresh_sliceLeases (d : Dev) : (d.tickFresh).sliceLeases = d.sliceLeases := rfl
@[simp] theorem Dev.tickFresh_readLeases (d : Dev) : (d.tickFresh).readLeases = d.readLeases := rfl
@[simp] theorem Dev.tickFresh_grotto (d : Dev) : (d.tickFresh).grotto = d.grotto := rfl
@[simp] theorem Dev.tickFresh_hostLines (d : Dev) : (d.tickFresh).hostLines = d.hostLines := rfl
@[simp] theorem Dev.tickFresh_foreign (d : Dev) : (d.tickFresh).foreign = d.foreign := rfl
@[simp] theorem Dev.tickFresh_blines (d : Dev) : (d.tickFresh).blines = d.blines := rfl
@[simp] theorem Dev.tickFresh_tags (d : Dev) : (d.tickFresh).tags = d.tags := rfl
@[simp] theorem Dev.tickFresh_exactLines (d : Dev) : (d.tickFresh).exactLines = d.exactLines := rfl
@[simp] theorem Dev.tickFresh_exactEls (d : Dev) : (d.tickFresh).exactEls = d.exactEls := rfl
@[simp] theorem Dev.tickFresh_poison (d : Dev) : (d.tickFresh).poison = d.poison := rfl
@[simp] theorem Dev.tickFresh_badWords (d : Dev) : (d.tickFresh).badWords = d.badWords := rfl
@[simp] theorem Dev.tickFresh_badSectors (d : Dev) : (d.tickFresh).badSectors = d.badSectors := rfl
@[simp] theorem Dev.tickFresh_tenCache (d : Dev) : (d.tickFresh).tenCache = d.tenCache := rfl
@[simp] theorem Dev.tickFresh_ctxtb (d : Dev) : (d.tickFresh).ctxtb = d.ctxtb := rfl
@[simp] theorem Dev.tickFresh_tentb (d : Dev) : (d.tickFresh).tentb = d.tentb := rfl
@[simp] theorem Dev.tickFresh_pstop (d : Dev) : (d.tickFresh).pstop = d.pstop := rfl
@[simp] theorem Dev.tickFresh_pgo (d : Dev) : (d.tickFresh).pgo = d.pgo := rfl
@[simp] theorem Dev.tickFresh_rootcap (d : Dev) : (d.tickFresh).rootcap = d.rootcap := rfl
@[simp] theorem Dev.tickFresh_href (d : Dev) : (d.tickFresh).href = d.href := rfl
@[simp] theorem Dev.tickFresh_heats (d : Dev) : (d.tickFresh).heats = d.heats := rfl
@[simp] theorem Dev.tickFresh_allocs (d : Dev) : (d.tickFresh).allocs = d.allocs := rfl
@[simp] theorem Dev.tickFresh_quotas (d : Dev) : (d.tickFresh).quotas = d.quotas := rfl
@[simp] theorem Dev.tickFresh_stops (d : Dev) : (d.tickFresh).stops = d.stops := rfl
@[simp] theorem Dev.tickFresh_stowed (d : Dev) : (d.tickFresh).stowed = d.stowed := rfl
@[simp] theorem Dev.tickFresh_fenced (d : Dev) : (d.tickFresh).fenced = d.fenced := rfl
@[simp] theorem Dev.tickFresh_colls (d : Dev) : (d.tickFresh).colls = d.colls := rfl
@[simp] theorem Dev.tickFresh_clears (d : Dev) : (d.tickFresh).clears = d.clears := rfl
@[simp] theorem Dev.tickFresh_collSeq (d : Dev) : (d.tickFresh).collSeq = d.collSeq := rfl
@[simp] theorem Dev.tickFresh_prqTags (d : Dev) : (d.tickFresh).prqTags = d.prqTags := rfl
@[simp] theorem Dev.tickFresh_prqQueue (d : Dev) : (d.tickFresh).prqQueue = d.prqQueue := rfl
@[simp] theorem Dev.tickFresh_modNo (d : Dev) : (d.tickFresh).modNo = d.modNo := rfl
@[simp] theorem Dev.tickFresh_members (d : Dev) : (d.tickFresh).members = d.members := rfl
@[simp] theorem Dev.tickFresh_offsets (d : Dev) : (d.tickFresh).offsets = d.offsets := rfl
@[simp] theorem Dev.tickFresh_trims (d : Dev) : (d.tickFresh).trims = d.trims := rfl
@[simp] theorem Dev.tickFresh_cut (d : Dev) : (d.tickFresh).cut = d.cut := rfl
@[simp] theorem Dev.tickFresh_incs (d : Dev) : (d.tickFresh).incs = d.incs := rfl
@[simp] theorem Dev.tickFresh_quarantine (d : Dev) : (d.tickFresh).quarantine = d.quarantine := rfl
@[simp] theorem Dev.tickFresh_started (d : Dev) : (d.tickFresh).started = d.started := rfl
@[simp] theorem Dev.tickFresh_joined (d : Dev) : (d.tickFresh).joined = d.joined := rfl
@[simp] theorem Dev.tickFresh_boot (d : Dev) : (d.tickFresh).boot = d.boot := rfl
@[simp] theorem Dev.tickFresh_inReset (d : Dev) : (d.tickFresh).inReset = d.inReset := rfl
@[simp] theorem Dev.tickFresh_vectors (d : Dev) : (d.tickFresh).vectors = d.vectors := rfl
@[simp] theorem Dev.tickFresh_hostRead (d : Dev) : (d.tickFresh).hostRead = d.hostRead := rfl
@[simp] theorem Dev.tickFresh_fresh (d : Dev) : (d.tickFresh).fresh = d.fresh + 1 := rfl

/-! ### `Dev.send` -/

@[simp] theorem Dev.send_threads (d : Dev) (k : MsgKind) : (d.send k).threads = d.threads := rfl
@[simp] theorem Dev.send_nextTid (d : Dev) (k : MsgKind) : (d.send k).nextTid = d.nextTid := rfl
@[simp] theorem Dev.send_cur (d : Dev) (k : MsgKind) : (d.send k).cur = d.cur := rfl
@[simp] theorem Dev.send_iss (d : Dev) (k : MsgKind) : (d.send k).iss = d.iss := rfl
@[simp] theorem Dev.send_note (d : Dev) (k : MsgKind) : (d.send k).note = d.note := rfl
@[simp] theorem Dev.send_cores (d : Dev) (k : MsgKind) : (d.send k).cores = d.cores := rfl
@[simp] theorem Dev.send_clusters (d : Dev) (k : MsgKind) : (d.send k).clusters = d.clusters := rfl
@[simp] theorem Dev.send_dies (d : Dev) (k : MsgKind) : (d.send k).dies = d.dies := rfl
@[simp] theorem Dev.send_msgs (d : Dev) (k : MsgKind) : (d.send k).msgs = d.msgs ++ [⟨d.nextMsg, k⟩] := rfl
@[simp] theorem Dev.send_nextMsg (d : Dev) (k : MsgKind) : (d.send k).nextMsg = d.nextMsg + 1 := rfl
@[simp] theorem Dev.send_since (d : Dev) (k : MsgKind) : (d.send k).since = d.since := rfl
@[simp] theorem Dev.send_outst (d : Dev) (k : MsgKind) : (d.send k).outst = d.outst := rfl
@[simp] theorem Dev.send_nextOp (d : Dev) (k : MsgKind) : (d.send k).nextOp = d.nextOp := rfl
@[simp] theorem Dev.send_leases (d : Dev) (k : MsgKind) : (d.send k).leases = d.leases := rfl
@[simp] theorem Dev.send_guards (d : Dev) (k : MsgKind) : (d.send k).guards = d.guards := rfl
@[simp] theorem Dev.send_maps (d : Dev) (k : MsgKind) : (d.send k).maps = d.maps := rfl
@[simp] theorem Dev.send_blocks (d : Dev) (k : MsgKind) : (d.send k).blocks = d.blocks := rfl
@[simp] theorem Dev.send_nextBlk (d : Dev) (k : MsgKind) : (d.send k).nextBlk = d.nextBlk := rfl
@[simp] theorem Dev.send_launches (d : Dev) (k : MsgKind) : (d.send k).launches = d.launches := rfl
@[simp] theorem Dev.send_nextLaunch (d : Dev) (k : MsgKind) : (d.send k).nextLaunch = d.nextLaunch := rfl
@[simp] theorem Dev.send_walks (d : Dev) (k : MsgKind) : (d.send k).walks = d.walks := rfl
@[simp] theorem Dev.send_faults (d : Dev) (k : MsgKind) : (d.send k).faults = d.faults := rfl
@[simp] theorem Dev.send_fqNext (d : Dev) (k : MsgKind) : (d.send k).fqNext = d.fqNext := rfl
@[simp] theorem Dev.send_flNext (d : Dev) (k : MsgKind) : (d.send k).flNext = d.flNext := rfl
@[simp] theorem Dev.send_leaveHeld (d : Dev) (k : MsgKind) : (d.send k).leaveHeld = d.leaveHeld := rfl
@[simp] theorem Dev.send_leaveQ (d : Dev) (k : MsgKind) : (d.send k).leaveQ = d.leaveQ := rfl
@[simp] theorem Dev.send_perms (d : Dev) (k : MsgKind) : (d.send k).perms = d.perms := rfl
@[simp] theorem Dev.send_sliceLeases (d : Dev) (k : MsgKind) : (d.send k).sliceLeases = d.sliceLeases := rfl
@[simp] theorem Dev.send_readLeases (d : Dev) (k : MsgKind) : (d.send k).readLeases = d.readLeases := rfl
@[simp] theorem Dev.send_grotto (d : Dev) (k : MsgKind) : (d.send k).grotto = d.grotto := rfl
@[simp] theorem Dev.send_hostLines (d : Dev) (k : MsgKind) : (d.send k).hostLines = d.hostLines := rfl
@[simp] theorem Dev.send_foreign (d : Dev) (k : MsgKind) : (d.send k).foreign = d.foreign := rfl
@[simp] theorem Dev.send_blines (d : Dev) (k : MsgKind) : (d.send k).blines = d.blines := rfl
@[simp] theorem Dev.send_tags (d : Dev) (k : MsgKind) : (d.send k).tags = d.tags := rfl
@[simp] theorem Dev.send_exactLines (d : Dev) (k : MsgKind) : (d.send k).exactLines = d.exactLines := rfl
@[simp] theorem Dev.send_exactEls (d : Dev) (k : MsgKind) : (d.send k).exactEls = d.exactEls := rfl
@[simp] theorem Dev.send_poison (d : Dev) (k : MsgKind) : (d.send k).poison = d.poison := rfl
@[simp] theorem Dev.send_badWords (d : Dev) (k : MsgKind) : (d.send k).badWords = d.badWords := rfl
@[simp] theorem Dev.send_badSectors (d : Dev) (k : MsgKind) : (d.send k).badSectors = d.badSectors := rfl
@[simp] theorem Dev.send_tenCache (d : Dev) (k : MsgKind) : (d.send k).tenCache = d.tenCache := rfl
@[simp] theorem Dev.send_ctxtb (d : Dev) (k : MsgKind) : (d.send k).ctxtb = d.ctxtb := rfl
@[simp] theorem Dev.send_tentb (d : Dev) (k : MsgKind) : (d.send k).tentb = d.tentb := rfl
@[simp] theorem Dev.send_pstop (d : Dev) (k : MsgKind) : (d.send k).pstop = d.pstop := rfl
@[simp] theorem Dev.send_pgo (d : Dev) (k : MsgKind) : (d.send k).pgo = d.pgo := rfl
@[simp] theorem Dev.send_rootcap (d : Dev) (k : MsgKind) : (d.send k).rootcap = d.rootcap := rfl
@[simp] theorem Dev.send_href (d : Dev) (k : MsgKind) : (d.send k).href = d.href := rfl
@[simp] theorem Dev.send_heats (d : Dev) (k : MsgKind) : (d.send k).heats = d.heats := rfl
@[simp] theorem Dev.send_allocs (d : Dev) (k : MsgKind) : (d.send k).allocs = d.allocs := rfl
@[simp] theorem Dev.send_quotas (d : Dev) (k : MsgKind) : (d.send k).quotas = d.quotas := rfl
@[simp] theorem Dev.send_stops (d : Dev) (k : MsgKind) : (d.send k).stops = d.stops := rfl
@[simp] theorem Dev.send_stowed (d : Dev) (k : MsgKind) : (d.send k).stowed = d.stowed := rfl
@[simp] theorem Dev.send_fenced (d : Dev) (k : MsgKind) : (d.send k).fenced = d.fenced := rfl
@[simp] theorem Dev.send_colls (d : Dev) (k : MsgKind) : (d.send k).colls = d.colls := rfl
@[simp] theorem Dev.send_clears (d : Dev) (k : MsgKind) : (d.send k).clears = d.clears := rfl
@[simp] theorem Dev.send_collSeq (d : Dev) (k : MsgKind) : (d.send k).collSeq = d.collSeq := rfl
@[simp] theorem Dev.send_prqTags (d : Dev) (k : MsgKind) : (d.send k).prqTags = d.prqTags := rfl
@[simp] theorem Dev.send_prqQueue (d : Dev) (k : MsgKind) : (d.send k).prqQueue = d.prqQueue := rfl
@[simp] theorem Dev.send_modNo (d : Dev) (k : MsgKind) : (d.send k).modNo = d.modNo := rfl
@[simp] theorem Dev.send_members (d : Dev) (k : MsgKind) : (d.send k).members = d.members := rfl
@[simp] theorem Dev.send_offsets (d : Dev) (k : MsgKind) : (d.send k).offsets = d.offsets := rfl
@[simp] theorem Dev.send_trims (d : Dev) (k : MsgKind) : (d.send k).trims = d.trims := rfl
@[simp] theorem Dev.send_cut (d : Dev) (k : MsgKind) : (d.send k).cut = d.cut := rfl
@[simp] theorem Dev.send_incs (d : Dev) (k : MsgKind) : (d.send k).incs = d.incs := rfl
@[simp] theorem Dev.send_quarantine (d : Dev) (k : MsgKind) : (d.send k).quarantine = d.quarantine := rfl
@[simp] theorem Dev.send_started (d : Dev) (k : MsgKind) : (d.send k).started = d.started := rfl
@[simp] theorem Dev.send_joined (d : Dev) (k : MsgKind) : (d.send k).joined = d.joined := rfl
@[simp] theorem Dev.send_boot (d : Dev) (k : MsgKind) : (d.send k).boot = d.boot := rfl
@[simp] theorem Dev.send_inReset (d : Dev) (k : MsgKind) : (d.send k).inReset = d.inReset := rfl
@[simp] theorem Dev.send_vectors (d : Dev) (k : MsgKind) : (d.send k).vectors = d.vectors := rfl
@[simp] theorem Dev.send_hostRead (d : Dev) (k : MsgKind) : (d.send k).hostRead = d.hostRead := rfl
@[simp] theorem Dev.send_fresh (d : Dev) (k : MsgKind) : (d.send k).fresh = d.fresh := rfl

/-! ### `Dev.drop` -/

@[simp] theorem Dev.drop_threads (d : Dev) (m : Nat) : (d.drop m).threads = d.threads := rfl
@[simp] theorem Dev.drop_nextTid (d : Dev) (m : Nat) : (d.drop m).nextTid = d.nextTid := rfl
@[simp] theorem Dev.drop_cur (d : Dev) (m : Nat) : (d.drop m).cur = d.cur := rfl
@[simp] theorem Dev.drop_iss (d : Dev) (m : Nat) : (d.drop m).iss = d.iss := rfl
@[simp] theorem Dev.drop_note (d : Dev) (m : Nat) : (d.drop m).note = d.note := rfl
@[simp] theorem Dev.drop_cores (d : Dev) (m : Nat) : (d.drop m).cores = d.cores := rfl
@[simp] theorem Dev.drop_clusters (d : Dev) (m : Nat) : (d.drop m).clusters = d.clusters := rfl
@[simp] theorem Dev.drop_dies (d : Dev) (m : Nat) : (d.drop m).dies = d.dies := rfl
@[simp] theorem Dev.drop_msgs (d : Dev) (m : Nat) : (d.drop m).msgs = d.msgs.filter (fun x => x.id != m) := rfl
@[simp] theorem Dev.drop_nextMsg (d : Dev) (m : Nat) : (d.drop m).nextMsg = d.nextMsg := rfl
@[simp] theorem Dev.drop_since (d : Dev) (m : Nat) : (d.drop m).since = d.since := rfl
@[simp] theorem Dev.drop_outst (d : Dev) (m : Nat) : (d.drop m).outst = d.outst := rfl
@[simp] theorem Dev.drop_nextOp (d : Dev) (m : Nat) : (d.drop m).nextOp = d.nextOp := rfl
@[simp] theorem Dev.drop_leases (d : Dev) (m : Nat) : (d.drop m).leases = d.leases := rfl
@[simp] theorem Dev.drop_guards (d : Dev) (m : Nat) : (d.drop m).guards = d.guards := rfl
@[simp] theorem Dev.drop_maps (d : Dev) (m : Nat) : (d.drop m).maps = d.maps := rfl
@[simp] theorem Dev.drop_blocks (d : Dev) (m : Nat) : (d.drop m).blocks = d.blocks := rfl
@[simp] theorem Dev.drop_nextBlk (d : Dev) (m : Nat) : (d.drop m).nextBlk = d.nextBlk := rfl
@[simp] theorem Dev.drop_launches (d : Dev) (m : Nat) : (d.drop m).launches = d.launches := rfl
@[simp] theorem Dev.drop_nextLaunch (d : Dev) (m : Nat) : (d.drop m).nextLaunch = d.nextLaunch := rfl
@[simp] theorem Dev.drop_walks (d : Dev) (m : Nat) : (d.drop m).walks = d.walks := rfl
@[simp] theorem Dev.drop_faults (d : Dev) (m : Nat) : (d.drop m).faults = d.faults := rfl
@[simp] theorem Dev.drop_fqNext (d : Dev) (m : Nat) : (d.drop m).fqNext = d.fqNext := rfl
@[simp] theorem Dev.drop_flNext (d : Dev) (m : Nat) : (d.drop m).flNext = d.flNext := rfl
@[simp] theorem Dev.drop_leaveHeld (d : Dev) (m : Nat) : (d.drop m).leaveHeld = d.leaveHeld := rfl
@[simp] theorem Dev.drop_leaveQ (d : Dev) (m : Nat) : (d.drop m).leaveQ = d.leaveQ := rfl
@[simp] theorem Dev.drop_perms (d : Dev) (m : Nat) : (d.drop m).perms = d.perms := rfl
@[simp] theorem Dev.drop_sliceLeases (d : Dev) (m : Nat) : (d.drop m).sliceLeases = d.sliceLeases := rfl
@[simp] theorem Dev.drop_readLeases (d : Dev) (m : Nat) : (d.drop m).readLeases = d.readLeases := rfl
@[simp] theorem Dev.drop_grotto (d : Dev) (m : Nat) : (d.drop m).grotto = d.grotto := rfl
@[simp] theorem Dev.drop_hostLines (d : Dev) (m : Nat) : (d.drop m).hostLines = d.hostLines := rfl
@[simp] theorem Dev.drop_foreign (d : Dev) (m : Nat) : (d.drop m).foreign = d.foreign := rfl
@[simp] theorem Dev.drop_blines (d : Dev) (m : Nat) : (d.drop m).blines = d.blines := rfl
@[simp] theorem Dev.drop_tags (d : Dev) (m : Nat) : (d.drop m).tags = d.tags := rfl
@[simp] theorem Dev.drop_exactLines (d : Dev) (m : Nat) : (d.drop m).exactLines = d.exactLines := rfl
@[simp] theorem Dev.drop_exactEls (d : Dev) (m : Nat) : (d.drop m).exactEls = d.exactEls := rfl
@[simp] theorem Dev.drop_poison (d : Dev) (m : Nat) : (d.drop m).poison = d.poison := rfl
@[simp] theorem Dev.drop_badWords (d : Dev) (m : Nat) : (d.drop m).badWords = d.badWords := rfl
@[simp] theorem Dev.drop_badSectors (d : Dev) (m : Nat) : (d.drop m).badSectors = d.badSectors := rfl
@[simp] theorem Dev.drop_tenCache (d : Dev) (m : Nat) : (d.drop m).tenCache = d.tenCache := rfl
@[simp] theorem Dev.drop_ctxtb (d : Dev) (m : Nat) : (d.drop m).ctxtb = d.ctxtb := rfl
@[simp] theorem Dev.drop_tentb (d : Dev) (m : Nat) : (d.drop m).tentb = d.tentb := rfl
@[simp] theorem Dev.drop_pstop (d : Dev) (m : Nat) : (d.drop m).pstop = d.pstop := rfl
@[simp] theorem Dev.drop_pgo (d : Dev) (m : Nat) : (d.drop m).pgo = d.pgo := rfl
@[simp] theorem Dev.drop_rootcap (d : Dev) (m : Nat) : (d.drop m).rootcap = d.rootcap := rfl
@[simp] theorem Dev.drop_href (d : Dev) (m : Nat) : (d.drop m).href = d.href := rfl
@[simp] theorem Dev.drop_heats (d : Dev) (m : Nat) : (d.drop m).heats = d.heats := rfl
@[simp] theorem Dev.drop_allocs (d : Dev) (m : Nat) : (d.drop m).allocs = d.allocs := rfl
@[simp] theorem Dev.drop_quotas (d : Dev) (m : Nat) : (d.drop m).quotas = d.quotas := rfl
@[simp] theorem Dev.drop_stops (d : Dev) (m : Nat) : (d.drop m).stops = d.stops := rfl
@[simp] theorem Dev.drop_stowed (d : Dev) (m : Nat) : (d.drop m).stowed = d.stowed := rfl
@[simp] theorem Dev.drop_fenced (d : Dev) (m : Nat) : (d.drop m).fenced = d.fenced := rfl
@[simp] theorem Dev.drop_colls (d : Dev) (m : Nat) : (d.drop m).colls = d.colls := rfl
@[simp] theorem Dev.drop_clears (d : Dev) (m : Nat) : (d.drop m).clears = d.clears := rfl
@[simp] theorem Dev.drop_collSeq (d : Dev) (m : Nat) : (d.drop m).collSeq = d.collSeq := rfl
@[simp] theorem Dev.drop_prqTags (d : Dev) (m : Nat) : (d.drop m).prqTags = d.prqTags := rfl
@[simp] theorem Dev.drop_prqQueue (d : Dev) (m : Nat) : (d.drop m).prqQueue = d.prqQueue := rfl
@[simp] theorem Dev.drop_modNo (d : Dev) (m : Nat) : (d.drop m).modNo = d.modNo := rfl
@[simp] theorem Dev.drop_members (d : Dev) (m : Nat) : (d.drop m).members = d.members := rfl
@[simp] theorem Dev.drop_offsets (d : Dev) (m : Nat) : (d.drop m).offsets = d.offsets := rfl
@[simp] theorem Dev.drop_trims (d : Dev) (m : Nat) : (d.drop m).trims = d.trims := rfl
@[simp] theorem Dev.drop_cut (d : Dev) (m : Nat) : (d.drop m).cut = d.cut := rfl
@[simp] theorem Dev.drop_incs (d : Dev) (m : Nat) : (d.drop m).incs = d.incs := rfl
@[simp] theorem Dev.drop_quarantine (d : Dev) (m : Nat) : (d.drop m).quarantine = d.quarantine := rfl
@[simp] theorem Dev.drop_started (d : Dev) (m : Nat) : (d.drop m).started = d.started := rfl
@[simp] theorem Dev.drop_joined (d : Dev) (m : Nat) : (d.drop m).joined = d.joined := rfl
@[simp] theorem Dev.drop_boot (d : Dev) (m : Nat) : (d.drop m).boot = d.boot := rfl
@[simp] theorem Dev.drop_inReset (d : Dev) (m : Nat) : (d.drop m).inReset = d.inReset := rfl
@[simp] theorem Dev.drop_vectors (d : Dev) (m : Nat) : (d.drop m).vectors = d.vectors := rfl
@[simp] theorem Dev.drop_hostRead (d : Dev) (m : Nat) : (d.drop m).hostRead = d.hostRead := rfl
@[simp] theorem Dev.drop_fresh (d : Dev) (m : Nat) : (d.drop m).fresh = d.fresh := rfl

/-! ### `State` -/

@[simp] theorem State.mem_of_dev (s : State) (d : Dev) : ({ s with dev := d } : State).mem = s.mem := rfl
@[simp] theorem State.drip_of_dev (s : State) (d : Dev) : ({ s with dev := d } : State).drip = s.drip := rfl
@[simp] theorem State.agenda_of_dev (s : State) (d : Dev) : ({ s with dev := d } : State).agenda = s.agenda := rfl

end Sys2Proof.Machine
end

