-- ==== Sys2Proof/Laws/Threads.lean ====
section
/-!
SUPPORT. Which thread an update of the module's record leaves under each number.
-/
namespace Sys2Proof.Machine
open Sys2Proof

theorem find?_put {α : Type} (k j : Nat) (v : α) (m : List (Nat × α)) :
    find? j (put k v m) = if j = k then some v else find? j m := by
  induction m with
  | nil => simp [put, find?, eq_comm]
  | cons p m ih =>
    obtain ⟨a, w⟩ := p
    by_cases ha : a = k
    · subst ha
      by_cases hj : a = j
      · simp [put, find?, hj]
      · simp [put, find?, hj, Ne.symm hj]
    · by_cases hj : a = j
      · subst hj; simp [put, find?, ha]
      · simp [put, find?, ha, hj, ih]

/-- Reading a map after writing one key. -/
theorem look_put {α : Type} (e : α) (k j : Nat) (v : α) (m : List (Nat × α)) :
    look e j (put k v m) = if j = k then v else look e j m := by
  induction m with
  | nil => simp [put, look, eq_comm]
  | cons p m ih =>
    obtain ⟨a, w⟩ := p
    by_cases ha : a = k
    · subst ha
      by_cases hj : a = j
      · simp [put, look, hj]
      · simp [put, look, hj, Ne.symm hj]
    · by_cases hj : a = j
      · subst hj; simp [put, look, ha]
      · simp [put, look, ha, hj, ih]

theorem Dev.core_setCore (d : Dev) (k j : Nat) (x : Core) :
    (d.setCore k x).core j = if j = k then x else d.core j := look_put _ k j x d.cores

theorem Dev.clus_setClus (d : Dev) (k j : Nat) (x : Cluster) :
    (d.setClus k x).clus j = if j = k then x else d.clus j := look_put _ k j x d.clusters

theorem Dev.die_setDie (d : Dev) (k j : Nat) (x : Die) :
    (d.setDie k x).die j = if j = k then x else d.die j := look_put _ k j x d.dies

theorem Dev.blk_setBlk (d : Dev) (k j : Nat) (x : Block) :
    (d.setBlk k x).blk j = if j = k then some x else d.blk j := find?_put k j x d.blocks

theorem Dev.lch_setLch (d : Dev) (k j : Nat) (x : Launch) :
    (d.setLch k x).lch j = if j = k then some x else d.lch j := find?_put k j x d.launches

/-- A message that has been taken out is gone. -/
theorem Dev.msg_drop (d : Dev) (m : Nat) : (d.drop m).msg m = none := by
  simp [Dev.msg, Dev.drop]

theorem Dev.thr_setThr (d : Dev) (k j : Nat) (t : Thread) :
    (d.setThr k t).thr j = if j = k then some t else d.thr j := find?_put k j t d.threads

theorem Dev.thr_updThr (d : Dev) (k j : Nat) (f : Thread → Thread) :
    (d.updThr k f).thr j = if j = k then (d.thr k).map f else d.thr j := by
  unfold Dev.updThr
  cases h : d.thr k with
  | none => by_cases e : j = k <;> simp [e, h]
  | some t => simp [Dev.thr_setThr]

/-- Raising flags changes no register. -/
theorem Dev.thr_raiseFlags (d : Dev) (k core j : Nat) (fl : Flags) :
    (d.raiseFlags k core fl).thr j
      = if j = k then (d.thr k).map (fun t => { t with fflags := t.fflags ||| fl }) else d.thr j := by
  unfold Dev.raiseFlags
  by_cases h : fl = 0
  · subst h
    by_cases e : j = k
    · subst e; cases h : d.thr j <;> simp [h]
    · simp [e]
  · simp only [h, if_false]
    exact Dev.thr_updThr d k j _

/-! ### The end of a thread -/

/-- Sending a point's DONE changes no thread. -/
theorem sendDone_threads (d : Dev) (b core : Nat) : (d.sendDone b core).threads = d.threads := by
  unfold Dev.sendDone
  split <;> try rfl
  split <;> try rfl
  split <;> rfl

/-- A fold of updates that change no thread changes none. -/
theorem foldl_threads {α : Type} {f : Dev → α → Dev} (hf : ∀ d a, (f d a).threads = d.threads) (l : List α) :
    ∀ d : Dev, (l.foldl f d).threads = d.threads := by
  induction l with
  | nil => intro d; rfl
  | cons a l ih => intro d; exact (ih _).trans (hf d a)

/-- The end of a block changes no thread. -/
theorem endBlock_threads (d : Dev) (b core : Nat) : (d.endBlock b core).threads = d.threads := by
  unfold Dev.endBlock
  split
  · rfl
  · next k _ =>
    simp only
    refine (foldl_threads (by intros; rfl) _ _).trans ?_
    split
    · exact sendDone_threads d b core
    · exact sendDone_threads d b core

/-- A key that was deleted is gone. -/
theorem find?_del {α : Type} (k : Nat) (m : List (Nat × α)) : find? k (del k m) = none := by
  induction m with
  | nil => rfl
  | cons p m ih =>
    obtain ⟨a, w⟩ := p
    by_cases h : a = k
    · subst h; simpa [del] using ih
    · simp only [del, bne_iff_ne, ne_eq, h, not_false_eq_true, List.filter_cons_of_pos, find?, if_false] at ih ⊢
      simpa [h, find?] using ih

/-- A thread that is gone stays gone when its block ends. -/
theorem endBlock_gone (e : Dev) (k b : Nat) (he : e.thr k = none) (o : Option Block) (c : Block → Bool)
    (w : Block → Nat) :
    (match o with
      | some y => if c y then e.endBlock b (w y) else e
      | none => e).thr k = none := by
  cases o with
  | none => exact he
  | some y =>
    cases hc : c y with
    | false => simpa [hc] using he
    | true => simp only [hc, if_true]; unfold Dev.thr at he ⊢; rw [endBlock_threads, he]

/-- A thread that is still there after its slot could be freed has not exited, or has stores out. -/
theorem finishExit_thr (d : Dev) (k : Nat) (x : Thread) (hx : (d.finishExit k).thr k = some x) :
    d.thr k = some x ∧ (x.exited && x.cS == 0) = false := by
  unfold Dev.finishExit at hx
  split at hx
  · next h => rw [h] at hx; cases hx
  · next t h =>
    split at hx
    · refine absurd ((endBlock_gone _ k _ ?_ _ _ _).symm.trans hx) (by simp)
      exact find?_del k _
    · next h2 =>
      have := h.symm.trans hx
      cases this
      exact ⟨h, by simpa using h2⟩

/-- A change of a crew changes no thread. -/
theorem Dev.updCrew_threads (d : Dev) (b k : Nat) (f : Crew → Crew) : (d.updCrew b k f).threads = d.threads := by
  unfold Dev.updCrew
  split <;> rfl

/-- Completing a crew barrier releases threads and changes nothing else of them. -/
theorem crewCheck_thr (d : Dev) (drip b core k : Nat) (x : Thread) (hx : (d.crewCheck drip b core).thr k = some x) :
    ∃ t, d.thr k = some t ∧ x = { t with wst := x.wst, notBefore := x.notBefore } := by
  have rel : ∀ (l : List Nat) (e : Dev) (x : Thread), (l.foldl (fun d i => d.updThr i (fun t => match t.wst with
          | .cbar true => { t with wst := .ready, notBefore := max t.notBefore (drip + 1) }
          | _ => t)) e).thr k = some x → ∃ t, e.thr k = some t ∧ x = { t with wst := x.wst, notBefore := x.notBefore } := by
    intro l
    induction l with
    | nil => intro e x h; exact ⟨x, h, rfl⟩
    | cons i l ih =>
      intro e x h
      obtain ⟨t, h1, h2⟩ := ih _ x h
      rw [Dev.thr_updThr] at h1
      by_cases hi : k = i
      · subst hi
        rw [if_pos rfl] at h1
        cases he : e.thr k with
        | none => rw [he] at h1; cases h1
        | some u =>
          rw [he] at h1
          refine ⟨u, rfl, ?_⟩
          simp only [Option.map_some, Option.some.injEq] at h1
          rw [h2, ← h1]
          split <;> rfl
      · rw [if_neg hi] at h1
        exact ⟨t, h1, h2⟩
  unfold Dev.crewCheck at hx
  split at hx
  · exact ⟨x, hx, rfl⟩
  · split at hx
    · exact ⟨x, hx, rfl⟩
    · split at hx
      · exact rel _ _ x hx
      · exact ⟨x, hx, rfl⟩

/-- A thread that EXIT has ended and that is still there has stores out. -/
theorem endThread_thr (d : Dev) (drip k : Nat) (t x : Thread) (h : d.thr k = some t)
    (hx : (d.endThread drip k).thr k = some x) : x.exited = true ∧ x.traps = [] ∧ x.cS ≠ 0 := by
  unfold Dev.endThread at hx
  simp only [h] at hx
  obtain ⟨h1, h2⟩ := finishExit_thr _ _ _ hx
  obtain ⟨u, h3, h4⟩ := crewCheck_thr _ _ _ _ _ _ h1
  unfold Dev.thr at h3
  rw [Dev.updCrew_threads] at h3
  have h5 := (Dev.thr_setThr d k k _).symm.trans h3
  rw [if_pos rfl] at h5
  cases h5
  rw [h4] at h2 ⊢
  simpa using h2
end Sys2Proof.Machine
end

