-- ==== Sys2Proof/Laws/Issue.lean ====
section
/-!
SUPPORT. What a body comes to: the outcome of `run`, and of a head whose inputs are known.
-/
namespace Sys2Proof.Machine
open Sys2Proof

/-- A body's effect is the next state. -/
theorem run_eff {b : Nat → Memory → Dev → Res} {s : State} {d : Dev} {w : List (Nat × Byte)}
    (h : b s.drip s.mem s.dev = .eff d w) : run b s = .next { s with dev := d, mem := s.mem.writeAll w } := by
  simp only [run, h, Res.run]

/-- What a next state of a body can be: the counter and the agenda stay, and memory takes the body's writes. -/
theorem run_next {b : Nat → Memory → Dev → Res} {s t : State} (h : run b s = .next t) :
    ∃ d w, b s.drip s.mem s.dev = .eff d w ∧ t = { s with dev := d, mem := s.mem.writeAll w } := by
  unfold run at h
  cases hb : b s.drip s.mem s.dev with
  | eff d w => rw [hb] at h; exact ⟨d, w, rfl, by cases h; rfl⟩
  | fault f => rw [hb] at h; cases h
  | refuse r => rw [hb] at h; cases h

/-- A head whose inputs are `i` comes to what its body comes to. -/
theorem issue_of {s : State} {priv lanes : Bool} {g : Guard} {u : Uses} {pre : Thread → Option Nat} {i : In}
    (h : Issues s priv lanes g u pre i) (f : In → Out) :
    issue priv lanes g u pre f s.drip s.mem s.dev = (f i).res s.drip s.mem s.dev i.tid := by
  obtain ⟨hdrip, hmem, hbase, hcur, hthr, hready, hmode, hchk, hmap, hguard, hacts, d, hread, hdev, hspace⟩ := h
  obtain ⟨drip, mem, base, dev, tid, t, vals⟩ := i
  simp only at *
  subst hdrip hmem hbase hdev
  cases ht : s.dev.thr tid with
  | none => rw [ht] at hthr; cases hthr
  | some t0 =>
    rw [ht] at hthr
    simp only [Option.map_some, Option.some.injEq] at hthr
    unfold issue
    have hm : (priv && !t.mode) = false := by
      cases priv with
      | false => rfl
      | true => simp [hmode rfl]
    have hg : (!lanes && !guardTrue g t) = false := by
      rcases hguard with h | h <;> simp [h]
    simp only [hcur, ht, hthr, hready, hm, hchk, hmap, hg, hacts, hread, Bool.false_eq_true, Bool.or_false, if_false]
    cases hx : u.xd with
    | none => simp
    | some r => simp [hspace r hx]

/-- A head whose body goes on has the body's effect for its next state. -/
theorem issue_ok {s : State} {priv lanes : Bool} {g : Guard} {u : Uses} {pre : Thread → Option Nat} {i : In}
    (h : Issues s priv lanes g u pre i) {f : In → Out} {d : Dev} {w : List (Nat × Byte)} (hf : f i = .ok d w) :
    run (issue priv lanes g u pre f) s = .next { s with dev := d, mem := s.mem.writeAll w } :=
  run_eff (by rw [issue_of h f, hf]; rfl)

/-- A head whose body goes on without a store. -/
theorem issue_dev {s : State} {priv lanes : Bool} {g : Guard} {u : Uses} {pre : Thread → Option Nat} {i : In}
    (h : Issues s priv lanes g u pre i) {f : In → Out} {d : Dev} (hf : f i = .ok d []) :
    run (issue priv lanes g u pre f) s = .next (s.withDev d) :=
  issue_ok h hf

/-- A head whose body traps takes the trap (R346): at its own head, with a free value where its rule gives none. -/
theorem issue_trap {s : State} {priv lanes : Bool} {g : Guard} {u : Uses} {pre : Thread → Option Nat} {i : In}
    (h : Issues s priv lanes g u pre i) {f : In → Out} {c : Nat} {v : Option Word} (hf : f i = .trap c v) :
    run (issue priv lanes g u pre f) s = .next (s.withDev
      { s.dev.tickFresh.takeTrap s.drip s.mem i.tid c s.dev.iss.head (v.getD (Config.freeWord s.dev.fresh)) with
        note := .trapped c s.dev.iss.head (v.getD (Config.freeWord s.dev.fresh)) }) :=
  run_eff (w := []) (by rw [issue_of h f, hf]; rfl)

/-- An S-class head whose body goes on without a store. -/
theorem issueS_ok {s : State} {priv : Bool} {g : Guard} {u : Uses} {i : In} {f : In → Out} {d : Dev}
    (h : IssuesS s priv g u i) (hf : f i = .ok d []) : run (issueS priv g u f) s = .next (s.withDev d) :=
  issue_ok h hf

/-- An S-class head that writes one scalar result. -/
theorem result_ok {s : State} {priv : Bool} {g : Guard} {u : Uses} {i : In} {r : Reg} {v : In → Word}
    (h : IssuesS s priv g u i) :
    run (issueS priv g u (fun i => i.result r (v i))) s = .next (s.withDev (i.dev.putX i.tid r (v i))) :=
  issueS_ok h rfl

/-- A vector head whose body goes on without a store. -/
theorem issueV_ok {s : State} {g : Guard} {u : Uses} {pre : Thread → Option Nat} {i : In} {f : In → Out} {d : Dev}
    (h : IssuesV s g u pre i) (hf : f i = .ok d []) : run (issueV g u pre f) s = .next (s.withDev d) :=
  issue_ok h hf

/-- An integer register form. -/
theorem alu_ok {s : State} {o : RRR} {i : In} (f : (w : Nat) → BitVec w → BitVec w → BitVec w)
    (h : IssuesS s false o.g { xs := [o.a, o.b], xd := some o.d } i) :
    run (alu o f) s = .next (s.withDev (i.dev.putX i.tid o.d
      ((f o.w.bits (i.a.setWidth o.w.bits) (i.b.setWidth o.w.bits)).signExtend 64))) :=
  result_ok h

/-- A one-source integer form. -/
theorem unary_ok {s : State} {o : RRw} {i : In} (f : (w : Nat) → BitVec w → BitVec w)
    (h : IssuesS s false o.g { xs := [o.a], xd := some o.d } i) :
    run (unary o f) s = .next (s.withDev (i.dev.putX i.tid o.d
      ((f o.w.bits (i.a.setWidth o.w.bits)).signExtend 64))) :=
  result_ok h

/-- An immediate shift or rotate. -/
theorem shiftImm_ok {s : State} {o : ShiftIOp} {i : In} (f : (w : Nat) → BitVec w → Nat → BitVec w)
    (h : IssuesS s false o.g { xs := [o.a], xd := some o.d } i) :
    run (shiftImm o f) s = .next (s.withDev (i.dev.putX i.tid o.d
      ((f o.w.bits (i.a.setWidth o.w.bits) o.n.val).signExtend 64))) :=
  result_ok h

/-! ### What the inputs of a head are -/

/-- Reading sources changes the queues of a core and nothing else. -/
theorem readXs_frame (t : Thread) : ∀ (l : List Reg) (d d' : Dev) (vs : List Word),
    d.readXs t l = some (d', vs) → d' = { d with cores := d'.cores } := by
  intro l
  induction l with
  | nil => intro d d' vs h; cases h; rfl
  | cons r l ih =>
    intro d d' vs h
    unfold Dev.readXs at h
    split at h
    · split at h
      · split at h
        · split at h
          · next h' => cases h; rw [ih _ _ _ h']; rfl
          · cases h
        · cases h
      · cases h
    · split at h
      · next h' => cases h; exact ih _ _ _ h'
      · cases h

/-- With no source mapped as a consumer, reading takes nothing from a queue and gives the registers. -/
theorem readXs_plain (t : Thread) (d : Dev) : ∀ l : List Reg, (∀ r ∈ l, qmap t.slotcfg r ≠ 1) →
    d.readXs t l = some (d, l.map t.regs.rx) := by
  intro l
  induction l with
  | nil => intro _; rfl
  | cons r l ih =>
    intro h
    simp only [Dev.readXs, h r (by simp), if_false, ih (fun q hq => h q (by simp [hq])), List.map_cons]

/-- What advancing leaves: the mark, and the pc of the thread. -/
theorem advance_thr (d : Dev) (k j : Nat) : (d.advance k).thr j
    = if j = k ∧ d.iss.second = false then (d.thr k).map (fun t => { t with pc := d.iss.next }) else d.thr j := by
  cases h : d.iss.second with
  | true =>
    rw [show d.advance k = { d with note := .issued } from if_pos h, if_neg (by simp)]
    rfl
  | false =>
    rw [show d.advance k = ({ d with note := .issued } : Dev).updThr k (fun t => { t with pc := d.iss.next }) from
      if_neg (by simp [h]), Dev.thr_updThr]
    simp only [and_true]
    rfl

/-- The module that a head's body starts from differs from the one before it only in threads, queues and the
mark of the issue. -/
theorem Issues.frame {s : State} {priv lanes : Bool} {g : Guard} {u : Uses} {pre : Thread → Option Nat} {i : In}
    (h : Issues s priv lanes g u pre i) :
    i.dev = { s.dev with threads := i.dev.threads, cores := i.dev.cores, note := .issued } ∧
    (∀ j, i.dev.thr j = if j = i.tid ∧ s.dev.iss.second = false then
        (s.dev.thr i.tid).map (fun t => { t with pc := s.dev.iss.next }) else s.dev.thr j) ∧
    ∃ t0, s.dev.thr i.tid = some t0 := by
  obtain ⟨d, hread, hdev, -⟩ := h.sources
  have hf := readXs_frame _ _ _ _ _ hread
  refine ⟨?_, ?_, ?_⟩
  · rw [hdev, hf]
    unfold Dev.advance Dev.updThr
    simp only
    split
    · rfl
    · split <;> rfl
  · intro j
    rw [hdev, advance_thr, hf]
    rfl
  · have := h.thread
    cases ht : s.dev.thr i.tid with
    | none => rw [ht] at this; cases this
    | some t => exact ⟨t, rfl⟩

/-- The issuing thread is there for the body. -/
theorem Issues.thr {s : State} {priv lanes : Bool} {g : Guard} {u : Uses} {pre : Thread → Option Nat} {i : In}
    (h : Issues s priv lanes g u pre i) : ∃ t, i.dev.thr i.tid = some t := by
  obtain ⟨-, h2, t0, h3⟩ := h.frame
  rw [h2, h3]
  by_cases e : s.dev.iss.second = false <;> simp [e]

end Sys2Proof.Machine
end

