-- ==== Sys2Proof/Laws/Heads.lean ====
section
/-!
SUPPORT. What the shared parts of heads' bodies come to when nothing stands in their way: one address, handle
operands, requests, commands.
-/
namespace Sys2Proof.Machine
open Sys2Proof

/-- An address that reaches its place goes on with it. -/
theorem one_ok {i : In} {k : AccK} {va : Word} {n al : Nat} {l : Word} {p : Nat} (h : Reaches i k va al l p)
    (f : Word → Nat → Out) : i.one k va n al f = f l p := by
  have : addrCheck .glob 0 [(va, n, al)] = none := by simp [addrCheck, h.aligned, h.form]
  simp only [In.one, this, In.spot, h.placed, h.there, if_true]

/-- A handle of a kind of Table 6-2 passes the checks of an operand. -/
theorem handle_ok {h : Word} {ks : List Nat} (hk : ∀ k ∈ ks, 1 ≤ k ∧ k ≤ 10) (hg : goodHandle h ks) :
    handleCheck h = none := by
  have := hk _ hg
  have h0 : h ≠ 0 := by rintro rfl; simp [hKind, bits, fld] at this
  have h1 : hKind h ≠ 0 := by omega
  have h2 : ¬ 11 ≤ hKind h := by omega
  unfold handleCheck
  rw [if_neg h0, if_neg (by simp [h1, h2])]

/-- One handle operand of a right kind. -/
theorem kinds_ok1 {h : Word} {ks : List Nat} (hk : ∀ k ∈ ks, 1 ≤ k ∧ k ≤ 10) (hg : goodHandle h ks)
    (f : Unit → Out) : withKinds [(h, ks)] f = f () := by
  have := handle_ok hk hg
  simp only [withKinds, List.findSome?_cons, this, List.findSome?_nil]
  refine if_neg ?_
  simpa [goodHandle] using hg

/-- Two handle operands of right kinds. -/
theorem kinds_ok2 {h h' : Word} {ks ks' : List Nat} (hk : ∀ k ∈ ks, 1 ≤ k ∧ k ≤ 10) (hg : goodHandle h ks)
    (hk' : ∀ k ∈ ks', 1 ≤ k ∧ k ≤ 10) (hg' : goodHandle h' ks') (f : Unit → Out) :
    withKinds [(h, ks), (h', ks')] f = f () := by
  have h1 := handle_ok hk hg
  have h2 := handle_ok hk' hg'
  simp only [withKinds, List.findSome?_cons, h1, h2, List.findSome?_nil]
  refine if_neg ?_
  simp only [List.any_cons, List.any_nil, Bool.or_false, Bool.or_eq_true, Bool.not_eq_true', not_or,
    Bool.not_eq_false]
  exact ⟨by simpa [goodHandle] using hg, by simpa [goodHandle] using hg'⟩

/-- A handle operand of the one kind its entry names. -/
theorem handle1_ok {h : Word} {k : Nat} (hk : 1 ≤ k ∧ k ≤ 10) (hg : hKind h = k) (f : Unit → Out) :
    withHandle h (some k) f = f () := by
  have h1 : handleCheck h = none := handle_ok (ks := [k]) (by simpa using hk) (by simpa [goodHandle] using hg)
  simp [withHandle, h1, hg]

/-- A request with a miss register and room in L is sent. -/
theorem request_ok {i : In} (h : i.canL = true) (r : Reg) (q : Req) : i.request r q = .ok (i.asked r q) [] := by
  simp only [In.request, h, if_true]; rfl

/-- A matrix command with room in the FIFO and in M, and no acquire out, is sent. -/
theorem command_ok {i : In} (c : MCmd) (h1 : i.t.acq = []) (h2 : i.base.arrayRoom (coreClus i.core) = true)
    (h3 : i.t.cM < 255) :
    i.command c = .ok ((i.dev.updThr i.tid (fun t => { t with cM := t.cM + 1 })).send
      (.command (i.src 0 i.base.nextOp) (coreClus i.core) c i.base.iss.head)) [] := by
  have : ¬ 255 ≤ i.t.cM := by omega
  simp only [In.command, h1, h2, this]
  rfl

/-- A copy command with a tag and room in the result FIFO and in C, and no acquire out, is sent. -/
theorem engine_ok {i : In} (e : Nat) (c : ECmd) (h1 : i.t.acq = []) (h2 : i.engineRoom e = true)
    (h3 : i.t.cC < 255) :
    i.engine e c = .ok ((i.dev.updThr i.tid (fun t => { t with cC := t.cC + 1 })).send
      (.engine (i.src 0 i.base.nextOp) (coreClus i.core) e c)) [] := by
  have : ¬ 255 ≤ i.t.cC := by omega
  simp only [In.engine, h1, h2, this]
  rfl

/-- A posted access with room in S and in the store buffer enters it. -/
theorem post_ok {i : In} (pcs : List (PKey × AccOp)) (sc : Scope) (rel exact : Bool) (major minor : Nat)
    (split : List Word) (h : i.canPost pcs.length) (hp : pcs ≠ []) :
    i.post pcs sc rel exact major minor split = .ok (i.posted pcs sc rel exact major minor split) [] := by
  have hr : i.releases rel sc = i.waitsOlder rel sc := by cases sc <;> rfl
  unfold In.post
  rw [if_neg (by simp [h.1, h.2]), if_neg hp, hr]
  rfl

/-- An event's effect is the next state. -/
theorem event_ok {b : Nat → Memory → Dev → Res} {s : State} {d : Dev} (h : b s.drip s.mem s.dev = .eff d []) :
    run b s = .next (s.withDev d) := run_eff h

/-- What a home makes of a request is the next state. -/
theorem onReq_ok {s : State} {m : Nat} {src : From} {q : Req} {d : Dev} (h : s.asks m src q d)
    {f : Nat → Memory → Dev → From → Req → Option (Dev × List (Nat × Byte))} {r : Dev × List (Nat × Byte)}
    (hf : f s.drip s.mem d src q = some r) :
    onReq m f s = .next { s with dev := r.1, mem := s.mem.writeAll r.2 } :=
  run_eff (by simp only [h.1, ← h.2, hf])

/-- The same for a request that may meet a place where the spec puts nothing. -/
theorem onReqR_ok {s : State} {m : Nat} {src : From} {q : Req} {d : Dev} (h : s.asks m src q d)
    {f : Nat → Memory → Dev → From → Req → Option Res} {e : Dev} {w : List (Nat × Byte)}
    (hf : f s.drip s.mem d src q = some (.eff e w)) :
    onReqR m f s = .next { s with dev := e, mem := s.mem.writeAll w } :=
  run_eff (by simp only [h.1, ← h.2, hf, Option.getD_some])

/-- A service that its capability admits does what it does. -/
theorem gateStep_ok {s : State} {m n : Nat} {src : From} {h arg : Word} {d : Dev} {l : Lease} {mask : BitVec 16}
    (ha : s.asks m src (.gate h n arg) d) (hj : d.judged s.drip src h = .ok l) (hl : l.payload = .cap mask)
    (hb : bit mask n = true) (hn : 1 ≤ n ∧ n ≤ 8)
    {f : Nat → Memory → Dev → From → BitVec 16 → Word → Option Res} {e : Dev} {w : List (Nat × Byte)}
    (hf : f s.drip s.mem d src mask arg = some (.eff e w)) :
    gateStep n m f s = .next { s with dev := e, mem := s.mem.writeAll w } := by
  refine onReqR_ok ha ?_
  simp only [hj, hl]
  rw [if_neg (by omega), if_neg (by simp), if_neg (by simp [hb]), hf]

/-- A request that writes no memory. -/
theorem onReq_dev {s : State} {m : Nat} {src : From} {q : Req} {d : Dev} (h : s.asks m src q d)
    {f : Nat → Memory → Dev → From → Req → Option (Dev × List (Nat × Byte))} {e : Dev}
    (hf : f s.drip s.mem d src q = some (e, [])) : onReq m f s = .next (s.withDev e) :=
  onReq_ok h hf

/-- The same. -/
theorem onReqR_dev {s : State} {m : Nat} {src : From} {q : Req} {d : Dev} (h : s.asks m src q d)
    {f : Nat → Memory → Dev → From → Req → Option Res} {e : Dev} (hf : f s.drip s.mem d src q = some (.eff e [])) :
    onReqR m f s = .next (s.withDev e) :=
  onReqR_ok h hf

/-- A service that writes no memory. -/
theorem gateStep_dev {s : State} {m n : Nat} {src : From} {h arg : Word} {d : Dev} {l : Lease} {mask : BitVec 16}
    (ha : s.asks m src (.gate h n arg) d) (hj : d.judged s.drip src h = .ok l) (hl : l.payload = .cap mask)
    (hb : bit mask n = true) (hn : 1 ≤ n ∧ n ≤ 8)
    {f : Nat → Memory → Dev → From → BitVec 16 → Word → Option Res} {e : Dev}
    (hf : f s.drip s.mem d src mask arg = some (.eff e [])) : gateStep n m f s = .next (s.withDev e) :=
  gateStep_ok ha hj hl hb hn hf

end Sys2Proof.Machine
end

