-- ==== Sys2Proof/Laws/Accesses.lean ====
section
/-!
SUPPORT. What loads and stores come to at the core when nothing stands in their way.
-/
namespace Sys2Proof.Machine
open Sys2Proof

/-- The copy that serves a piece, as the machine looks it up. -/
theorem l1Hit_eq (i : In) (sc : Scope) (pcs : List (PKey × List El)) (q : PKey × List El) :
    (if nearOnly sc && !sharesEl pcs q then (i.base.core i.core).entry q.1.line i.drip else none) = i.l1Hit sc pcs q := by
  unfold In.l1Hit
  cases sc <;> cases sharesEl pcs q <;> rfl

/-- A global load that may issue: with no active element it is over at once; else it is sent, or served from the store
buffer. -/
theorem load_glob {i : In} {sc acq exact major minor tgt els pcs} (h : LoadReady i els pcs) :
    ((i.base.core i.core).forward (pcs.flatMap Prod.snd) = .none →
      (pcs = [] → i.load sc acq exact major minor tgt els = .ok (i.dev.deliver i.tid tgt.pv tgt.fmt tgt.init) []) ∧
      (pcs ≠ [] → i.missRoom ((pcs.filter (fun p => (i.l1Hit sc pcs p).isNone)).map (fun p => p.1.line)) = true →
        i.load sc acq exact major minor tgt els = .ok (i.loadSent sc acq exact major minor tgt pcs) [])) ∧
    ∀ f, (i.base.core i.core).forward (pcs.flatMap Prod.snd) = .all f →
      i.load sc acq exact major minor tgt els = .ok (i.forwarded sc acq exact major minor tgt pcs f) [] := by
  have hp : i.parts .read VEl.va (fun e p => (⟨p, e.lo, e.n, e.sg, e.rank, e.dest⟩ : El)) els [] = .ok pcs := h.parts
  refine ⟨fun hf => ⟨?_, fun h0 hm => ?_⟩, fun f hf => ?_⟩
  · rintro rfl
    unfold In.load
    simp only [h.ordered, hp, h.room, hf, Bool.not_true, Bool.false_eq_true, if_false, if_true]
  · unfold In.load
    simp only [h.ordered, hp, h.room, hf, h0, l1Hit_eq, hm, Bool.not_true, Bool.false_eq_true, if_false]
    rfl
  · unfold In.load
    simp only [h.ordered, hp, h.room, hf, Bool.not_true, Bool.false_eq_true, if_false]
    rfl

/-- A load from a window whose port and banks are free. -/
theorem near_load {i : In} {base tgt els d} (h : i.ordered true = true)
    (hb : ∀ e ∈ els, ∀ b ∈ (e.at (base + e.va.toNat)).bytes, i.base.badWords.contains (b.1 / 8 * 8) = false)
    (hd : i.near base (((els.map (fun e => VEl.at e (base + e.va.toNat))).flatMap El.bytes).map Prod.fst) = some d) :
    i.nearLoad base tgt els = .ok (d.deliver i.tid tgt.pv tgt.fmt
      (tgt.init ++ readEls i.mem.read (els.map (fun e => VEl.at e (base + e.va.toNat))))) [] := by
  have hbad : (((els.map (fun e => (⟨base + e.va.toNat, e.lo, e.n, e.sg, e.rank, e.dest⟩ : El))).flatMap El.bytes).map
      Prod.fst).find? (fun b => i.base.badWords.contains (b / 8 * 8)) = none := by
    rw [List.find?_eq_none]
    intro a ha
    obtain ⟨b, hm, rfl⟩ := List.mem_map.mp ha
    obtain ⟨e', he', hb'⟩ := List.mem_flatMap.mp hm
    obtain ⟨e, he, rfl⟩ := List.mem_map.mp he'
    rw [hb e he b hb']
    decide
  unfold In.nearLoad
  simp only [h, hbad, Bool.not_true, Bool.false_eq_true, if_false]
  rw [show i.near base (((els.map (fun e => (⟨base + e.va.toNat, e.lo, e.n, e.sg, e.rank, e.dest⟩ : El))).flatMap
    El.bytes).map Prod.fst) = some d from hd]
  rfl

/-- A global store that may enter the store buffer. -/
theorem store_glob {i : In} {sc rel exact major minor bs split pcs} (ho : i.ordered false = true)
    (hp : i.parts .write VB.va VB.at bs [] = .ok pcs) (hne : pcs ≠ []) (hc : i.canPost pcs.length) :
    i.store sc rel exact major minor bs split = .ok ({ i with dev := i.samples pcs i.dev }.posted
      (pcs.map (fun (q : PKey × List MByte) => (q.1, AccOp.store q.2))) sc rel exact major minor split) [] := by
  have hp : i.parts .write VB.va (fun (b : VB) p => (⟨p, b.mask, b.val⟩ : MByte)) bs [] = .ok pcs := hp
  unfold In.store
  simp only [ho, hp, Bool.not_true, Bool.false_eq_true, if_false]
  exact post_ok _ _ _ _ _ _ _ (by rw [List.length_map]; exact hc) (by simpa using hne)

/-- A store to a window whose port and banks are free. -/
theorem near_store {i : In} {base bs d} (ho : i.ordered false = true) (hr : i.room false 1 = true)
    (hs : i.base.storesBelow i.tid i.core i.t.fenceRel = false)
    (hd : i.near base (bs.map (fun b => base + b.va.toNat)) = some d) :
    ∃ e, i.nearStore base bs = .ok e (nearBytes i.mem base bs) ∧ e = { d with badWords := e.badWords } := by
  unfold In.nearStore
  simp only [ho, hr, hs, hd, Bool.not_true, Bool.false_eq_true, or_self, if_false]
  exact ⟨_, rfl, rfl⟩

/-! ### Lines at their slices -/

/-- Taking a line into its slice changes the grotto and what it holds of other homes' lines (R263). -/
theorem Dev.intoSlice_frame (d : Dev) (mem : Memory) (line : Nat) (w : List (Nat × Byte)) :
    d.intoSlice mem line w = { d with
      grotto := (d.intoSlice mem line w).grotto
      sliceLeases := (d.intoSlice mem line w).sliceLeases
      hostLines := (d.intoSlice mem line w).hostLines } := by
  unfold Dev.intoSlice
  split
  · rfl
  · dsimp only
    split <;> rfl

/-- A slice's lease changes nothing else (R124). -/
theorem Dev.takeLease_frame (d : Dev) (drip : Nat) (mem : Memory) (line : Nat) (write : Bool) (w : List (Nat × Byte)) :
    d.takeLease drip mem line write w = { d with sliceLeases := (d.takeLease drip mem line write w).sliceLeases } := by
  unfold Dev.takeLease
  split <;> rfl

/-- A line served at its slice changes what the slices hold, and nothing else (R262, R263). -/
theorem Dev.holdLine_frame (d : Dev) (drip : Nat) (mem : Memory) (line : Nat) (write : Bool) (w : List (Nat × Byte)) :
    d.holdLine drip mem line write w = { d with
      grotto := (d.holdLine drip mem line write w).grotto
      sliceLeases := (d.holdLine drip mem line write w).sliceLeases
      hostLines := (d.holdLine drip mem line write w).hostLines } := by
  unfold Dev.holdLine
  rw [Dev.takeLease_frame, Dev.intoSlice_frame]
  dsimp only
  split
  · rfl
  · split <;> rfl

end Sys2Proof.Machine
end

