-- ==== Sys2Proof/Laws/Encoding.lean ====
section
/-!
SUPPORT. The parts of an encoding (spec 03 R38 to R59): the fields of heads and tails, and each field's code,
read back.
-/
namespace Sys2Proof

/-! ### Guards, heads and tails -/

/-- A guard takes four bits. -/
theorem Guard.code_lt (g : Guard) : g.code < 16 := by cases g with
  | k n => have := n.isLt; simp only [Guard.code]; omega
  | always => decide

/-- A guard's code reads back. -/
theorem guardOf_code (g : Guard) : guardOf g.code = .ok g := by
  cases g with
  | k n => simp [guardOf, Guard.code, n.isLt]
  | always => rfl

/-- The fields of a head without a tail. -/
theorem head_none (major f : Nat) (hM : major < 128) (hf : f < 64) : fld (major * 64 + f) 0 6 = f ∧
    fld (major * 64 + f) 6 7 = major ∧ fld (major * 64 + f) 14 2 = 0 := by
  simp only [fld]; omega

/-- The fields of a head with a two-byte tail. -/
theorem head_two (major f : Nat) (hM : major < 128) (hf : f < 64) : fld (0x4000 + major * 64 + f) 0 6 = f ∧
    fld (0x4000 + major * 64 + f) 6 7 = major ∧ fld (0x4000 + major * 64 + f) 14 2 = 1 := by
  simp only [fld]; omega

/-- The fields of a head with a four-byte tail. -/
theorem head_four (major f : Nat) (hM : major < 128) (hf : f < 64) : fld (0x8000 + major * 64 + f) 0 6 = f ∧
    fld (0x8000 + major * 64 + f) 6 7 = major ∧ fld (0x8000 + major * 64 + f) 14 2 = 2 := by
  simp only [fld]; omega

/-- The fields of a head with an eight-byte tail. -/
theorem head_eight (major f : Nat) (hM : major < 128) (hf : f < 64) : fld (0xC000 + major * 64 + f) 0 6 = f ∧
    fld (0xC000 + major * 64 + f) 6 7 = major ∧ fld (0xC000 + major * 64 + f) 14 2 = 3 := by
  simp only [fld]; omega

/-- The parts of an E tail. -/
theorem tail_eight (t n : Nat) (ht : t < 2 ^ 32) (hn : n < 2 ^ 32) : Tail.ofNat 3
      (t * 2 ^ 32 + n) = ⟨3, t, some n⟩ := by
  have h1 : fld (t * 2 ^ 32 + n) 32 32 = t := by simp only [fld]; omega
  have h2 : fld (t * 2 ^ 32 + n) 0 32 = n := by simp only [fld]; omega
  simp only [Tail.ofNat, if_true, h1, h2]

/-- The fields of an H tail. -/
theorem fields_H (g : Guard) (a b mn : Nat) (ha : a < 32) (hb : b < 32) (hm : mn < 4) :
    fld (g.code * 2 ^ 12 + a * 2 ^ 7 + b * 2 ^ 2 + mn) 12 4 = g.code ∧ fld
      (g.code * 2 ^ 12 + a * 2 ^ 7 + b * 2 ^ 2 + mn) 7 5 = a ∧
    fld (g.code * 2 ^ 12 + a * 2 ^ 7 + b * 2 ^ 2 + mn) 2 5 = b ∧ fld
      (g.code * 2 ^ 12 + a * 2 ^ 7 + b * 2 ^ 2 + mn) 0 2 = mn ∧
    fld (g.code * 2 ^ 12 + a * 2 ^ 7 + b * 2 ^ 2 + mn) 0 7 = b % 32 * 4 + mn ∧
    fld (g.code * 2 ^ 12 + a * 2 ^ 7 + b * 2 ^ 2 + mn) 0 12 = a * 128 + b * 4 + mn := by
  have := g.code_lt
  simp only [fld]
  generalize g.code = x at *
  omega

/-- The fields of a W tail. -/
theorem fields_W (g : Guard) (a b c wd sg mn sc md : Nat) (ha : a < 32) (hb : b < 32) (hc : c < 32) (hw : wd < 4)
      (hs : sg < 2)
    (hm : mn < 16) (hsc : sc < 8) (hmd : md < 8) :
    fld (tW g a b c wd sg mn sc md) 28 4 = g.code ∧ fld (tW g a b c wd sg mn sc md) 23 5 = a ∧
    fld (tW g a b c wd sg mn sc md) 18 5 = b ∧ fld (tW g a b c wd sg mn sc md) 13 5 = c ∧
    fld (tW g a b c wd sg mn sc md) 11 2 = wd ∧ fld (tW g a b c wd sg mn sc md) 10 1 = sg ∧
    fld (tW g a b c wd sg mn sc md) 6 4 = mn ∧ fld (tW g a b c wd sg mn sc md) 3 3 = sc ∧
    fld (tW g a b c wd sg mn sc md) 0 3 = md ∧ tW g a b c wd sg mn sc md < 2 ^ 32 := by
  have := g.code_lt
  simp only [fld, tW]
  generalize g.code = x at *
  refine ⟨?_, ?_, ?_, ?_, ?_, ?_, ?_, ?_, ?_, ?_⟩ <;> omega

/-- The fields of an I tail. -/
theorem fields_I (g : Guard) (a wd sg mn imm : Nat) (ha : a < 32) (hw : wd < 4) (hs : sg < 2)
    (hm : mn < 16) (hi : imm < 65536) :
    fld (tI g a wd sg mn imm) 28 4 = g.code ∧ fld (tI g a wd sg mn imm) 23 5 = a ∧
    fld (tI g a wd sg mn imm) 21 2 = wd ∧ fld (tI g a wd sg mn imm) 20 1 = sg ∧
    fld (tI g a wd sg mn imm) 16 4 = mn ∧ fld (tI g a wd sg mn imm) 0 16 = imm ∧
    (∀ p n, p + n ≤ 16 → fld (tI g a wd sg mn imm) p n = fld imm p n) ∧ tI g a wd sg mn imm < 2 ^ 32 := by
  have := g.code_lt
  have hmod : tI g a wd sg mn imm % 65536 = imm := by simp only [tI]; omega
  refine ⟨?_, ?_, ?_, ?_, ?_, ?_, ?_, ?_⟩
  rotate_left 6
  · intro p n hpn
    simp only [fld]
    apply Nat.eq_of_testBit_eq
    intro i
    rw [Nat.testBit_mod_two_pow, Nat.testBit_mod_two_pow, Nat.testBit_div_two_pow, Nat.testBit_div_two_pow]
    by_cases hi : i < n
    · have : (tI g a wd sg mn imm % 2 ^ 16).testBit (i + p) = imm.testBit (i + p) := by
        rw [show (2:Nat) ^ 16 = 65536 from rfl, hmod]
      rw [Nat.testBit_mod_two_pow] at this
      simp only [hi, decide_true, Bool.true_and]
      rw [← this]; simp; omega
    · simp [hi]
  all_goals (simp only [fld, tI]; generalize g.code = x at *; omega)

/-- The fields of an M tail. -/
theorem fields_M (g : Guard) (a wd sg sp sc od off : Nat) (ha : a < 32) (hw : wd < 4) (hs : sg < 2) (hsp : sp < 4)
      (hsc : sc < 8)
    (ho : od < 8) (hf : off < 4096) :
    fld (tM g a wd sg sp sc od off) 28 4 = g.code ∧ fld (tM g a wd sg sp sc od off) 23 5 = a ∧
    fld (tM g a wd sg sp sc od off) 21 2 = wd ∧ fld (tM g a wd sg sp sc od off) 20 1 = sg ∧
    fld (tM g a wd sg sp sc od off) 18 2 = sp ∧ fld (tM g a wd sg sp sc od off) 15 3 = sc ∧
    fld (tM g a wd sg sp sc od off) 12 3 = od ∧ fld (tM g a wd sg sp sc od off) 0 12 = off ∧
    tM g a wd sg sp sc od off < 2 ^ 32 := by
  have := g.code_lt
  simp only [fld, tM]
  generalize g.code = x at *
  refine ⟨?_, ?_, ?_, ?_, ?_, ?_, ?_, ?_, ?_⟩ <;> omega

/-- The fields of a VM tail. -/
theorem fields_VM (g : Guard) (a b ef sp sc od mn : Nat) (ha : a < 32) (hb : b < 32) (he : ef < 32) (hsp : sp < 4)
      (hsc : sc < 8)
    (ho : od < 8) (hm : mn < 32) :
    fld (tVM g a b ef sp sc od mn) 28 4 = g.code ∧ fld (tVM g a b ef sp sc od mn) 23 5 = a ∧
    fld (tVM g a b ef sp sc od mn) 18 5 = b ∧ fld (tVM g a b ef sp sc od mn) 13 5 = ef ∧
    fld (tVM g a b ef sp sc od mn) 11 2 = sp ∧ fld (tVM g a b ef sp sc od mn) 8 3 = sc ∧
    fld (tVM g a b ef sp sc od mn) 5 3 = od ∧ fld (tVM g a b ef sp sc od mn) 0 5 = mn ∧
    tVM g a b ef sp sc od mn < 2 ^ 32 := by
  have := g.code_lt
  simp only [fld, tVM]
  generalize g.code = x at *
  refine ⟨?_, ?_, ?_, ?_, ?_, ?_, ?_, ?_, ?_⟩ <;> omega

/-- The fields of a V tail. -/
theorem fields_V (g : Guard) (a b c ef rs mn : Nat) (ha : a < 32) (hb : b < 32) (hc : c < 32) (he : ef < 32)
    (ho : rs < 8) (hm : mn < 32) :
    fld (tV g a b c ef rs mn) 28 4 = g.code ∧ fld (tV g a b c ef rs mn) 23 5 = a ∧
    fld (tV g a b c ef rs mn) 18 5 = b ∧ fld (tV g a b c ef rs mn) 13 5 = c ∧
    fld (tV g a b c ef rs mn) 8 5 = ef ∧ fld (tV g a b c ef rs mn) 5 3 = rs ∧ fld (tV g a b c ef rs mn) 0 5 = mn ∧
    tV g a b c ef rs mn < 2 ^ 32 := by
  have := g.code_lt
  simp only [fld, tV]
  generalize g.code = x at *
  refine ⟨?_, ?_, ?_, ?_, ?_, ?_, ?_, ?_⟩ <;> omega

/-! ### Registers -/

/-- A register's number reads back. -/
theorem dX_val (r : Reg) : dX r.val = .ok r := by simp [dX, r.isLt]

/-- The same for vr. -/
theorem vr_val (r : VR) : vr r.val = .ok r := by simp [vr, r.isLt]

/-- The same for kr. -/
theorem kr_val (r : KR) : kr r.val = .ok r := by simp [kr, r.isLt]

/-- The same for kp. -/
theorem kp_val (r : KP) : kp (2 * r.val) = .ok r := by
  have := r.isLt
  have h : 2 * r.val < 12 ∧ 2 * r.val % 2 = 0 := by omega
  simp [kp, h]

/-- The same for xr. -/
theorem xr_val (r : Reg) : xr r.val = r := by ext; simp [xr, Nat.mod_eq_of_lt r.isLt]

/-- The same for small. -/
theorem small_val {m : Nat} (n : Fin m) : small m n.val = .ok n := by simp [small, n.isLt]

/-! ### Codes of fields -/

/-- Each code of Table 3-5 reads back. -/
theorem widthOf_code (w : Width) : widthOf w.code = w := by cases w <;> rfl

/-- The same for signOf. -/
theorem signOf_code (s : Sign) : signOf s.code = s := by cases s <;> rfl

/-- The same for spaceOf. -/
theorem spaceOf_code (s : Space) : spaceOf s.code = .ok s := by cases s <;> rfl

/-- The same for scopeOf. -/
theorem scopeOf_code (s : Scope) : scopeOf s.code = s := by cases s <;> rfl

/-- The same for orderOf. -/
theorem orderOf_code (s : Order) : orderOf s.code = .ok s := by cases s <;> rfl

/-- The same for rsOf. -/
theorem rsOf_code (s : Rs) : rsOf s.code = .ok s := by cases s <;> rfl

/-- The same for fmtOf. -/
theorem fmtOf_code (s : Fmt) (h : s ≠ .none) : fmtOf s.code = .ok s := by cases s <;> first | rfl | exact absurd rfl h

/-- The same for condOf. -/
theorem condOf_code (s : Cond) : condOf s.code = .ok s := by cases s <;> rfl

/-- The same for fcondOf. -/
theorem fcondOf_code (s : FCond) : fcondOf s.code = .ok s := by cases s <;> rfl

/-- The same for ftypeOf. -/
theorem ftypeOf_code (s : FType) : ftypeOf s.wd s.sg = .ok s := by cases s <;> rfl

/-- The same for cvtTyOf. -/
theorem cvtTyOf_code (s : CvtTy) : cvtTyOf s.code = .ok s := by cases s <;> rfl

/-- The same for atomFnOf. -/
theorem atomFnOf_code (s : AtomFn) : atomFnOf s.code = .ok s := by cases s <;> rfl

/-- The same for idSelOf. -/
theorem idSelOf_code (s : IdSel) : idSelOf s.code = .ok s := by cases s <;> rfl

/-- The same for fenceOdOf. -/
theorem fenceOdOf_code (s : FenceOd) : fenceOdOf s.code = .ok s := by cases s <;> rfl

/-- The same for sysRegOf. -/
theorem sysRegOf_code (s : SysReg) : sysRegOf s.code = .ok s := by
  cases s <;> try rfl
  rename_i n
  have := n.isLt
  have h : 0x20 ≤ 0x20 + n.val ∧ 0x20 + n.val < 0x40 := by omega
  show (if h : 0x20 ≤ 0x20 + n.val ∧ 0x20 + n.val < 0x40 then (.ok
      (.gstat ⟨0x20 + n.val - 0x20, by omega⟩) : Dec SysReg) else _) = _
  rw [dif_pos h]
  congr 2; apply Fin.ext; simp

/-! ### Sizes of codes -/

/-- Each code fits its field. -/
theorem Width.code_lt (w : Width) : w.code < 4 := by cases w <;> decide

/-- The same for Sign. -/
theorem Sign.code_lt (w : Sign) : w.code < 2 := by cases w <;> decide

/-- The same for Space. -/
theorem Space.code_lt (w : Space) : w.code < 4 := by cases w <;> decide

/-- The same for Scope. -/
theorem Scope.code_lt (w : Scope) : w.code < 8 := by cases w <;> decide

/-- The same for Order. -/
theorem Order.code_lt (w : Order) : w.code < 8 := by cases w <;> decide

/-- The same for Rs. -/
theorem Rs.code_lt (w : Rs) : w.code < 8 := by cases w <;> decide

/-- The same for Fmt. -/
theorem Fmt.code_lt (w : Fmt) : w.code < 32 := by cases w <;> decide

/-- The same for Cond. -/
theorem Cond.code_lt (w : Cond) : w.code < 16 := by cases w <;> decide

/-- The same for FCond. -/
theorem FCond.code_lt (w : FCond) : w.code < 32 := by cases w <;> decide

/-- The same for CvtTy. -/
theorem CvtTy.code_lt (w : CvtTy) : w.code < 32 := by cases w <;> decide

/-- The same for AtomFn. -/
theorem AtomFn.code_lt (w : AtomFn) : w.code < 16 := by cases w <;> decide

/-- The same for IdSel. -/
theorem IdSel.code_lt (w : IdSel) : w.code < 32 := by cases w <;> decide

/-- The same for FenceOd. -/
theorem FenceOd.code_lt (w : FenceOd) : w.code < 8 := by cases w <;> decide

/-- The same for FType. -/
theorem FType.wd_lt (w : FType) : w.wd < 4 := by cases w <;> decide

/-- The same for FType. -/
theorem FType.sg_lt (w : FType) : w.sg < 2 := by cases w <;> decide

/-- The same for SysReg. -/
theorem SysReg.code_lt (w : SysReg) : w.code < 65536 := by
  cases w <;> try decide
  rename_i n
  have := n.isLt
  simp only [SysReg.code]; omega

/-- The same for RegImm. -/
theorem RegImm.fld_lt (x : RegImm) : x.fld < 32 := by cases x with
  | reg r => exact r.isLt
  | imm n => exact (by decide : 0 < 32)

/-- The same for Dur. -/
theorem Dur.fld_lt (x : Dur) : x.fld < 32 := by cases x with
  | reg r => exact r.isLt
  | imm n => exact (by decide : 0 < 32)

/-- The same for VRegImm. -/
theorem VRegImm.fld_lt (x : VRegImm) : x.fld < 32 := by cases x with
  | reg r => exact Nat.lt_of_lt_of_le r.isLt (by decide)
  | imm n => exact (by decide : 0 < 32)

end Sys2Proof
end

