-- ==== Sys2Proof/Laws/Lanes.lean ====
section
/-!
SUPPORT. What writing the lanes of a destination group comes to (R193, R194, R196).
-/
namespace Sys2Proof.Machine
open Sys2Proof

/-- A field of a natural cut to `m` bits. -/
theorem fld_mod {n m a b : Nat} (h : a + b ≤ m) : fld (n % 2 ^ m) a b = fld n a b := by
  unfold fld
  apply Nat.eq_of_testBit_eq
  intro i
  simp only [Nat.testBit_mod_two_pow, Nat.testBit_div_two_pow]
  by_cases hi : i < b
  · have : i + a < m := by omega
    simp [hi, this]
  · simp [hi]

/-- The lowest element of a packed value, and the others. -/
theorem fld_cons {v w n : Nat} (hv : v < 2 ^ w) (p : Nat) :
    fld (v + 2 ^ w * n) (w * 0) w = v ∧ fld (v + 2 ^ w * n) (w * (p + 1)) w = fld n (w * p) w := by
  unfold fld
  constructor
  · rw [Nat.mul_zero, Nat.pow_zero, Nat.div_one, Nat.add_mul_mod_self_left, Nat.mod_eq_of_lt hv]
  · rw [Nat.mul_succ, Nat.add_comm (w * p) w, Nat.pow_add, ← Nat.div_div_eq_div_mul,
      Nat.add_mul_div_left _ _ (Nat.two_pow_pos w), Nat.div_eq_of_lt hv, Nat.zero_add]

/-- The elements of a packed list. -/
theorem packFrom_el (w old : Nat) (l : List (Option (Nat × Flags))) : ∀ (i p : Nat) (hp : p < l.length),
    fld (packFrom w old i l) (w * p) w = ((l[p]).map (fun q => q.1 % 2 ^ w)).getD (fld old (w * (i + p)) w) := by
  induction l with
  | nil => intro i p hp; cases hp
  | cons x l ih =>
    intro i p hp
    have hv : ∀ n, n % 2 ^ w < 2 ^ w := fun n => Nat.mod_lt _ (Nat.two_pow_pos w)
    cases p with
    | zero => cases x <;> exact (fld_cons (hv _) 0).1
    | succ p =>
      have e := ih (i + 1) p (by simpa using hp)
      have f : i + 1 + p = i + (p + 1) := by omega
      rw [f] at e
      simp only [List.getElem_cons_succ, ← e]
      cases x <;> exact (fld_cons (hv _) p).2

/-- Two registers of a group of at most 16 differ. -/
theorem grp_ne {d : VR} {a b : Nat} (ha : a < 16) (hb : b < 16) (h : a ≠ b) : grp d a ≠ grp d b := by
  intro e
  have : (d.val + a) % 16 = (d.val + b) % 16 := congrArg Fin.val e
  omega

@[simp] theorem Regs.rv_wv (g : Regs) (r : VR) (v : VReg) : (g.wv r v).rv r = v := by
  simp [Regs.rv, Regs.wv]

theorem Regs.rv_wv_ne (g : Regs) {r q : VR} (v : VReg) (h : r ≠ q) : (g.wv r v).rv q = g.rv q := by
  have : r.val ≠ q.val := fun e => h (Fin.ext e)
  simp [Regs.rv, Regs.wv, Vector.getElem_set_ne, this]

/-- Writes of the registers of a group: each takes its value, any other register stays, and so do the scalar
registers and the predicates. -/
theorem wv_group (d : VR) (v : Nat → VReg) (g : Regs) : ∀ r ≤ 16,
    let x := (List.range r).foldl (fun x q => x.wv (grp d q) (v q)) g
    (∀ q < r, x.rv (grp d q) = v q) ∧ (∀ u : VR, (∀ q < r, grp d q ≠ u) → x.rv u = g.rv u)
      ∧ x.x = g.x ∧ x.k = g.k := by
  intro r
  induction r with
  | zero => intro _; simp
  | succ r ih =>
    intro hr
    obtain ⟨h1, h2, h3, h4⟩ := ih (by omega)
    simp only [List.range_succ, List.foldl_append, List.foldl_cons, List.foldl_nil]
    refine ⟨?_, ?_, h3, h4⟩
    · intro q hq
      by_cases e : q = r
      · subst e; simp
      · rw [Regs.rv_wv_ne _ _ (grp_ne (by omega) (by omega) (Ne.symm e))]
        exact h1 q (by omega)
    · intro u hu
      rw [Regs.rv_wv_ne _ _ (hu r (by omega))]
      exact h2 u (fun q hq => hu q (by omega))

/-- The lanes of a tag fit a register. -/
theorem Fmt.count_bits (f : Fmt) : f.count * f.bits ≤ 4096 := by cases f <;> decide

/-- What a head that writes lanes comes to, when the datapath is free. -/
theorem lanes_ok {i : In} {g : Guard} {l : Lanes} {t : Thread} (hv : i.vfree = true) (ht : i.dev.thr i.tid = some t)
    (hr : l.r ≤ 16) :
    ∃ d x, i.lanes l.occ g l.tag l.d l.r l.sr l.sx l.f = .ok d [] ∧ d.thr i.tid = some x ∧ l.holds g i x.regs
      ∧ (∀ u : VR, (∀ q < l.r, grp l.d q ≠ u) → x.regs.rv u = t.regs.rv u) ∧ x.regs.x = t.regs.x
      ∧ x.regs.k = t.regs.k ∧ x.srctr = (if l.sr then t.srctr + 1 else t.srctr) := by
  obtain ⟨tag, dst, r, occ, sr, sx, f⟩ := l
  simp only at hr
  unfold In.lanes
  simp only [hv, Bool.not_true, Bool.false_eq_true, if_false, List.foldl_map]
  let fl := (List.range r).foldl (fun a q => a ||| laneFlags (i.lanesOf g tag.count r q f)) 0
  refine ⟨_, { t with
    regs := (List.range r).foldl (fun x q => x.wv (grp dst q)
      ⟨BitVec.ofNat 4096 (packFrom tag.bits (i.t.regs.rv (grp dst q)).bits.toNat 0
        (i.lanesOf g tag.count r q f)), tag, sx q⟩) t.regs
    srctr := if sr then t.srctr + 1 else t.srctr
    fflags := t.fflags ||| fl }, rfl, ?_, ?_⟩
  · rw [Dev.thr_raiseFlags, if_pos rfl]
    simp only [In.vhold]
    rw [show ∀ (d : Dev) (c : Nat) (x : Core) (k : Nat), (d.setCore c x).thr k = d.thr k from fun _ _ _ _ => rfl,
      Dev.thr_updThr, if_pos rfl, ht]
    rfl
  · obtain ⟨h1, h2, h3, h4⟩ := wv_group dst
      (fun q => ⟨BitVec.ofNat 4096 (packFrom tag.bits (i.t.regs.rv (grp dst q)).bits.toNat 0
        (i.lanesOf g tag.count r q f)), tag, sx q⟩) t.regs r hr
    refine ⟨?_, h2, h3, h4, rfl⟩
    intro q hq
    simp only
    rw [h1 q hq]
    refine ⟨rfl, rfl, ?_⟩
    intro p hp
    simp only [VReg.el, Sys2Proof.bits, BitVec.toNat_ofNat]
    have hfit : tag.bits * p + tag.bits ≤ 4096 := by
      have := Fmt.count_bits tag
      calc tag.bits * p + tag.bits = (p + 1) * tag.bits := by rw [Nat.add_mul, Nat.mul_comm, Nat.one_mul]
        _ ≤ tag.count * tag.bits := Nat.mul_le_mul_right _ hp
        _ ≤ 4096 := this
    rw [fld_mod hfit, packFrom_el _ _ _ 0 p (by simpa [In.lanesOf] using hp)]
    by_cases ho : laneOn g i.t (p * r + q) = true
    · simp [In.lanesOf, ho]
    · simp [In.lanesOf, ho]

/-! ### Predicates and single elements -/

/-- A bit of a predicate made from a list. -/
theorem predOf_bit (l : List Bool) (k : Nat) (hk : k < 1024) : bit (predOf l) k = l.getD k false := by
  have : ∀ (l : List Bool) k, (l.foldr (fun b acc => b2n b + 2 * acc) 0).testBit k = l.getD k false := by
    intro l
    induction l with
    | nil => intro k; simp
    | cons b l ih =>
      intro k
      cases k with
      | zero => cases b <;> simp [b2n, Nat.testBit_zero, Nat.add_mul_mod_self_left] 
      | succ k =>
        rw [List.foldr_cons, Nat.testBit_succ]
        have : (b2n b + 2 * l.foldr (fun b acc => b2n b + 2 * acc) 0) / 2 = l.foldr (fun b acc => b2n b + 2 * acc) 0 := by
          cases b <;> simp [b2n] <;> omega
        rw [this, ih]
        simp
  simp only [bit, predOf, BitVec.getLsbD_ofNat, hk, decide_true, Bool.true_and, this]

/-- Replacing one element of a register. -/
theorem el_set (old : BitVec 4096) (w j p v : Nat) (hp : w * p + w ≤ 4096) :
    Sys2Proof.bits ((old &&& ~~~(BitVec.ofNat 4096 ((2 ^ w - 1) * 2 ^ (w * j)))) ||| BitVec.ofNat 4096 (v % 2 ^ w * 2 ^ (w * j)))
      (w * p) w = if p = j then v % 2 ^ w else Sys2Proof.bits old (w * p) w := by
  apply Nat.eq_of_testBit_eq
  intro i
  have hsplit : (if p = j then v % 2 ^ w else Sys2Proof.bits old (w * p) w).testBit i
    = if p = j then (v % 2 ^ w).testBit i else (Sys2Proof.bits old (w * p) w).testBit i := by split <;> rfl
  rw [hsplit]
  simp only [Sys2Proof.bits, fld, Nat.testBit_mod_two_pow, Nat.testBit_div_two_pow]
  by_cases hi : i < w
  · have hb : i + w * p < 4096 := by omega
    rw [← BitVec.getLsbD, ← BitVec.getLsbD]
    simp only [BitVec.getLsbD_or, BitVec.getLsbD_and, BitVec.getLsbD_not, BitVec.getLsbD_ofNat, hb, hi, decide_true, Bool.true_and,
      Nat.testBit_mul_two_pow, Nat.testBit_two_pow_sub_one, Nat.testBit_mod_two_pow]
    by_cases e : p = j
    · subst e
      have h1 : w * p ≤ i + w * p := by omega
      have h2 : i + w * p - w * p = i := by omega
      simp [h1, h2, hi]
    · have : ¬ (w * j ≤ i + w * p ∧ i + w * p - w * j < w) := by
        rintro ⟨a, b⟩
        apply e
        rcases Nat.lt_or_gt_of_ne e with h | h
        · have : w * (p + 1) ≤ w * j := Nat.mul_le_mul_left _ h
          rw [Nat.mul_succ] at this; omega
        · have : w * (j + 1) ≤ w * p := Nat.mul_le_mul_left _ h
          rw [Nat.mul_succ] at this; omega
      by_cases a : w * j ≤ i + w * p
      · have b : ¬ (i + w * p - w * j < w) := fun b => this ⟨a, b⟩
        simp [a, b, e]
      · simp [a, e]
  · simp [hi]
end Sys2Proof.Machine
end

