-- ==== Sys2Proof/Laws/Memory.lean ====
section
/-!
SUPPORT. Memory: a read after a write, and the canonical form kept by every operation.
-/
namespace Sys2Proof.Machine
open Sys2Proof

/-- Every cell lies above `a`, in order, and holds something. -/
def Above (a : Nat) : List Host.Cell → Prop
  | [] => True
  | (b, v) :: m => a < b ∧ v ≠ Memory.dflt ∧ Above b m

theorem above_mono {a b : Nat} (h : a ≤ b) : ∀ {m : List Host.Cell}, Above b m → Above a m
  | [], _ => trivial
  | (_, _) :: _, ⟨h1, h2, h3⟩ => ⟨by omega, h2, h3⟩

theorem wf_cons (a : Nat) (v : Byte) : ∀ (m : List Host.Cell),
    Memory.wfCells ((a, v) :: m) = true ↔ v ≠ Memory.dflt ∧ Above a m
  | [] => by simp [Memory.wfCells, Above]
  | (b, w) :: m => by
    have ih := wf_cons b w m
    simp only [Memory.wfCells, Above, Bool.and_eq_true, decide_eq_true_eq, bne_iff_ne, ne_eq] at *
    rw [ih]
    constructor
    · rintro ⟨⟨h1, h2⟩, h3, h4⟩; exact ⟨h1, h2, h3, h4⟩
    · rintro ⟨h1, h2, h3, h4⟩; exact ⟨⟨h1, h2⟩, h3, h4⟩

/-- A memory is in canonical form when its first cell holds something and the rest lies above it. -/
theorem wf_iff (m : List Host.Cell) : Memory.wfCells m = true ↔
    (match m with
    | [] => True
    | (a, v) :: r => v ≠ Memory.dflt ∧ Above a r) := by
  cases m with
  | nil => simp [Memory.wfCells]
  | cons c r => exact wf_cons c.1 c.2 r

theorem writeCells_above (a : Nat) (v : Byte) : ∀ (k : Nat) (m : List Host.Cell), k < a → Above k m →
    Above k (Memory.writeCells a v m)
  | k, [], h, _ => by
    unfold Memory.writeCells
    split
    · trivial
    · exact ⟨h, by assumption, trivial⟩
  | k, (b, w) :: m, h, ⟨h1, h2, h3⟩ => by
    unfold Memory.writeCells
    split
    · split
      · exact ⟨h1, h2, h3⟩
      · exact ⟨h, by assumption, by omega, h2, h3⟩
    · split
      · rename_i h5
        subst h5
        split
        · exact above_mono (by omega) h3
        · exact ⟨h1, by assumption, h3⟩
      · exact ⟨h1, h2, writeCells_above a v b m (by omega) h3⟩

theorem write_wf (m : Memory) (a : Nat) (v : Byte) (h : m.wf = true) : (m.write a v).wf = true := by
  obtain ⟨cells⟩ := m
  unfold Memory.wf Memory.write at *
  simp only at *
  rw [wf_iff] at *
  cases cells with
  | nil =>
    unfold Memory.writeCells
    split
    · trivial
    · rename_i hv
      split at hv <;> simp_all [Above]
  | cons c r =>
    obtain ⟨b, w⟩ := c
    obtain ⟨h1, h2⟩ := h
    unfold Memory.writeCells
    by_cases hab : a < b
    · by_cases hv : v = Memory.dflt <;> simp [hab, hv, h1, h2, Above]
    · by_cases hba : b = a
      · by_cases hv : v = Memory.dflt
        · cases r with
          | nil => simp [hba, hv]
          | cons d r => simpa [hba, hv] using ⟨h2.2.1, h2.2.2⟩
        · simpa [hba, hv] using hba ▸ h2
      · simp only [hab, hba, if_false]
        exact ⟨h1, writeCells_above a v b r (by omega) h2⟩

/-- Writing any bytes keeps the canonical form. -/
theorem writeAll_wf (l : List (Nat × Byte)) : ∀ (m : Memory), m.wf = true → (m.writeAll l).wf = true := by
  induction l with
  | nil => exact fun m h => h
  | cons c l ih => exact fun m h => ih _ (write_wf m c.1 c.2 h)

theorem readCells_above {a k : Nat} (h : a ≤ k) : ∀ {m : List Host.Cell}, Above k m → Memory.readCells a m = Memory.dflt
  | [], _ => rfl
  | (b, w) :: m, ⟨h1, _, _⟩ => by
    have h2 : ¬ b = a := by omega
    have h3 : a < b := by omega
    simp [Memory.readCells, h2, h3]

theorem readCells_writeCells (a : Nat) (v : Byte) (b : Nat) : ∀ (m : List Host.Cell), Memory.wfCells m = true →
    Memory.readCells b (Memory.writeCells a v m) = if b = a then v else Memory.readCells b m
  | [], _ => by
    unfold Memory.writeCells
    by_cases hv : v = Memory.dflt <;> by_cases hb : b = a
    · simp [hv, hb, Memory.readCells]
    · simp [hv, hb, Memory.readCells]
    · simp [hv, hb, Memory.readCells]
    · simp [hv, hb, Memory.readCells, Ne.symm hb]
  | (c, w) :: m, h => by
    obtain ⟨h1, h2⟩ := (wf_cons c w m).1 h
    have hm : Memory.wfCells m = true := by
      rw [wf_iff]
      cases m with
      | nil => trivial
      | cons d r => exact ⟨h2.2.1, h2.2.2⟩
    have ih := readCells_writeCells a v b m hm
    unfold Memory.writeCells
    by_cases hac : a < c
    · by_cases hv : v = Memory.dflt
      · simp only [hac, hv, if_true]
        by_cases hb : b = a
        · have h4 : ¬ c = b := by omega
          have h5 : b < c := by omega
          simp [hb, Memory.readCells, show ¬ c = a by omega, hac]
        · simp [hb]
      · simp only [hac, hv, if_true, if_false]
        by_cases hb : b = a
        · simp [hb, Memory.readCells]
        · by_cases hlt : b < a
          · have h4 : ¬ c = b := by omega
            have h5 : b < c := by omega
            simp [Memory.readCells, hb, Ne.symm hb, hlt, h4, h5]
          · have hn : ¬ a = b := by omega
            simp [Memory.readCells, hb, hn, show ¬ b < a by omega]
    · by_cases hca : c = a
      · have hcc : ¬ a < a := by omega
        by_cases hv : v = Memory.dflt
        · simp only [hca, hv, hcc, if_true, if_false]
          subst hca
          by_cases hb : b = c
          · simp [hb, readCells_above (Nat.le_refl c) h2]
          · by_cases hlt : b < c
            · simp [hb, Memory.readCells, Ne.symm hb, hlt, readCells_above (Nat.le_of_lt hlt) h2]
            · simp [hb, Memory.readCells, Ne.symm hb, hlt]
        · simp only [hca, hv, hcc, if_true, if_false]
          by_cases hb : b = a <;> simp [Memory.readCells, hb, Ne.symm]
      · simp only [hac, hca, if_false]
        by_cases hcb : c = b
        · have hba : ¬ b = a := by omega
          simp [Memory.readCells, hcb, hba]
        · by_cases hlt : b < c
          · have hba : ¬ b = a := by omega
            simp [Memory.readCells, hcb, hlt, hba]
          · simp [Memory.readCells, hcb, hlt, ih]

/-- A read after a write: the byte written there, and every other byte as before. -/
theorem read_write (m : Memory) (a b : Nat) (v : Byte) (h : m.wf = true) :
    (m.write a v).read b = if b = a then v else m.read b := readCells_writeCells a v b m.cells h

/-- Bytes not written keep their value. -/
theorem read_writeAll_other (b : Nat) : ∀ (l : List (Nat × Byte)) (m : Memory), m.wf = true →
    (∀ p ∈ l, p.1 ≠ b) → (m.writeAll l).read b = m.read b := by
  intro l
  induction l with
  | nil => intro m _ _; rfl
  | cons c l ih =>
    intro m hm h
    have h1 : (m.write c.1 c.2).read b = m.read b := by
      rw [read_write m c.1 b c.2 hm]
      have := h c (by simp)
      simp [Ne.symm this]
    exact (ih _ (write_wf m c.1 c.2 hm) (fun p hp => h p (by simp [hp]))).trans h1

theorem filter_above (p : Host.Cell → Bool) : ∀ {a : Nat} {m : List Host.Cell}, Above a m → Above a (m.filter p)
  | _, [], _ => trivial
  | a, (b, w) :: m, ⟨h1, h2, h3⟩ => by
    rw [List.filter_cons]
    split
    · exact ⟨h1, h2, filter_above p h3⟩
    · exact above_mono (by omega) (filter_above p h3)

theorem above_wf : ∀ {k : Nat} {m : List Host.Cell}, Above k m → Memory.wfCells m = true
  | _, [], _ => rfl
  | _, (a, v) :: m, ⟨_, h2, h3⟩ => (wf_cons a v m).2 ⟨h2, h3⟩

/-- Taking cells out keeps the canonical form. -/
theorem filter_wf (p : Host.Cell → Bool) (m : Memory) (h : m.wf = true) : (⟨m.cells.filter p⟩ : Memory).wf = true := by
  obtain ⟨c⟩ := m
  cases c with
  | nil => rfl
  | cons a r =>
    obtain ⟨h1, h2⟩ := (wf_cons a.1 a.2 r).1 h
    unfold Memory.wf
    simp only [List.filter_cons]
    split
    · exact (wf_cons a.1 a.2 _).2 ⟨h1, filter_above p h2⟩
    · exact above_wf (filter_above p h2)

theorem readCells_filter_above (q : Nat → Bool) (a : Nat) : ∀ {k : Nat} {m : List Host.Cell}, Above k m →
    Memory.readCells a (m.filter (fun c => q c.1)) = if q a then Memory.readCells a m else Memory.dflt
  | _, [], _ => by simp [Memory.readCells]
  | _, (b, w) :: m, ⟨_, _, h3⟩ => by
    have ih := readCells_filter_above q a h3
    rw [List.filter_cons]
    by_cases hb : b = a
    · subst hb
      by_cases hq : q b = true
      · simp [Memory.readCells, hq]
      · rw [if_neg hq, ih, if_neg hq, if_neg hq]
    · by_cases hlt : a < b
      · have hz : Memory.readCells a ((b, w) :: m) = Memory.dflt := by simp [Memory.readCells, hb, hlt]
        have hn : Memory.readCells a m = Memory.dflt := readCells_above (by omega) h3
        rw [hz]
        split
        · simp [Memory.readCells, hb, hlt]
        · rw [ih, hn]
      · have hz : Memory.readCells a ((b, w) :: m) = Memory.readCells a m := by simp [Memory.readCells, hb, hlt]
        rw [hz, ← ih]
        split
        · simp [Memory.readCells, hb, hlt]
        · rfl

/-- What is left after cells have been taken out by their address reads as before, the rest as unlisted. -/
theorem read_filter (q : Nat → Bool) (m : Memory) (a : Nat) (h : m.wf = true) :
    (⟨m.cells.filter (fun c => q c.1)⟩ : Memory).read a = if q a then m.read a else Memory.dflt := by
  obtain ⟨c⟩ := m
  cases c with
  | nil => simp [Memory.read, Memory.readCells]
  | cons b r =>
    have h := (wf_cons b.1 b.2 r).1 h
    have hb : Above b.1 r := h.2
    by_cases h0 : b.1 = 0
    · unfold Memory.read
      simp only [List.filter_cons]
      have ih := readCells_filter_above q a hb
      by_cases ha : b.1 = a
      · subst ha
        by_cases hq : q b.1 = true
        · simp [Memory.readCells, hq]
        · rw [if_neg hq, ih, if_neg hq, if_neg hq]
      · have hz : Memory.readCells a (b :: r) = Memory.readCells a r := by
          simp only [Memory.readCells]; rw [if_neg ha, if_neg (by omega)]
        rw [hz, ← ih]
        split
        · simp only [Memory.readCells]; rw [if_neg ha, if_neg (by omega)]
        · rfl
    · exact readCells_filter_above q a (k := 0) (show Above 0 (b :: r) from ⟨by omega, h.1, hb⟩)

end Sys2Proof.Machine
end

