-- ==== Sys2Proof/Laws/Steps.lean ====
section
/-!
SUPPORT. What the meaning of any instruction leaves as it was.
-/
namespace Sys2Proof.Machine
open Sys2Proof

/-- The counter and the agenda stay, and memory changes by writes of bytes. -/
structure Quiet (s t : State) : Prop where
  drip : t.drip = s.drip
  agenda : t.agenda = s.agenda
  mem : ∃ w, t.mem = s.mem.writeAll w

/-- The next state of a body. -/
theorem run_quiet {b : Nat → Memory → Dev → Res} {s t : State} (h : run b s = .next t) : Quiet s t := by
  obtain ⟨d, w, -, rfl⟩ := run_next h
  exact ⟨rfl, rfl, w, rfl⟩

/-- The next state of any instruction but the joining of a domain and a module reset. -/
theorem exec_quiet (i : Instr) (s t : State) (h : exec i s = .next t) (h1 : ∀ o, i ≠ .domainJoin o)
    (h2 : i ≠ .moduleReset) : Quiet s t := by
  cases i
  case domainJoin o => exact absurd rfl (h1 o)
  case moduleReset => exact absurd rfl h2
  case acknowledgement m =>
    replace h : execAcknowledgement m s = .next t := h
    unfold execAcknowledgement  at h
    exact run_quiet h
  case afterRelease launch =>
    replace h : execAfterRelease launch s = .next t := h
    unfold execAfterRelease  at h
    exact run_quiet h
  case agentFailure agent =>
    replace h : execAgentFailure agent s = .next t := h
    unfold execAgentFailure  at h
    exact run_quiet h
  case agentRejoin agent =>
    replace h : execAgentRejoin agent s = .next t := h
    unfold execAgentRejoin  at h
    exact run_quiet h
  case allocDeadline m =>
    replace h : execAllocDeadline m s = .next t := h
    unfold execAllocDeadline  at h
    exact run_quiet h
  case allocGrant m =>
    replace h : execAllocGrant m s = .next t := h
    unfold execAllocGrant  at h
    exact run_quiet h
  case allocRequestArrival m =>
    replace h : execAllocRequestArrival m s = .next t := h
    unfold execAllocRequestArrival onReq at h
    exact run_quiet h
  case amsgArrival m =>
    replace h : execAmsgArrival m s = .next t := h
    unfold execAmsgArrival  at h
    exact run_quiet h
  case arm addr =>
    replace h : execArm addr s = .next t := h
    unfold execArm  at h
    exact run_quiet h
  case arrayGrant clus =>
    replace h : execArrayGrant clus s = .next t := h
    unfold execArrayGrant  at h
    exact run_quiet h
  case arrayRequestArrival m =>
    replace h : execArrayRequestArrival m s = .next t := h
    unfold execArrayRequestArrival onReq at h
    exact run_quiet h
  case atomicService m =>
    replace h : execAtomicService m s = .next t := h
    unfold execAtomicService  at h
    exact run_quiet h
  case atomxService m =>
    replace h : execAtomxService m s = .next t := h
    unfold execAtomxService  at h
    exact run_quiet h
  case attestation nonce =>
    replace h : execAttestation nonce s = .next t := h
    unfold execAttestation  at h
    exact run_quiet h
  case backInvalidate line =>
    replace h : execBackInvalidate line s = .next t := h
    unfold execBackInvalidate  at h
    exact run_quiet h
  case barrierArrival m =>
    replace h : execBarrierArrival m s = .next t := h
    unfold execBarrierArrival onReq at h
    exact run_quiet h
  case barrierGrant m =>
    replace h : execBarrierGrant m s = .next t := h
    unfold execBarrierGrant onReq at h
    exact run_quiet h
  case barrierWaitArrival m =>
    replace h : execBarrierWaitArrival m s = .next t := h
    unfold execBarrierWaitArrival  at h
    exact run_quiet h
  case beat core agent index =>
    replace h : execBeat core agent index s = .next t := h
    unfold execBeat  at h
    exact run_quiet h
  case blockAdmission clus =>
    replace h : execBlockAdmission clus s = .next t := h
    unfold execBlockAdmission  at h
    exact run_quiet h
  case bootStage o =>
    replace h : execBootStage o s = .next t := h
    unfold execBootStage  at h
    exact run_quiet h
  case bundleConsultation m =>
    replace h : execBundleConsultation m s = .next t := h
    unfold execBundleConsultation  at h
    exact run_quiet h
  case bundleOpenArrival m =>
    replace h : execBundleOpenArrival m s = .next t := h
    unfold execBundleOpenArrival onReq at h
    exact run_quiet h
  case bundleStoreArrival m =>
    replace h : execBundleStoreArrival m s = .next t := h
    unfold execBundleStoreArrival  at h
    exact run_quiet h
  case byteAddArrival m =>
    replace h : execByteAddArrival m s = .next t := h
    unfold execByteAddArrival onReq at h
    exact run_quiet h
  case clusterGating clus =>
    replace h : execClusterGating clus s = .next t := h
    unfold execClusterGating  at h
    exact run_quiet h
  case codeFetchArrival m =>
    replace h : execCodeFetchArrival m s = .next t := h
    unfold execCodeFetchArrival  at h
    exact run_quiet h
  case collectiveRequest o =>
    replace h : execCollectiveRequest o s = .next t := h
    unfold execCollectiveRequest  at h
    exact run_quiet h
  case commandAccept m =>
    replace h : execCommandAccept m s = .next t := h
    unfold execCommandAccept  at h
    exact run_quiet h
  case commandRetire clus =>
    replace h : execCommandRetire clus s = .next t := h
    unfold execCommandRetire  at h
    exact run_quiet h
  case commitPoint m =>
    replace h : execCommitPoint m s = .next t := h
    unfold execCommitPoint  at h
    exact run_quiet h
  case companionCheckArrival m =>
    replace h : execCompanionCheckArrival m s = .next t := h
    unfold execCompanionCheckArrival onReq at h
    exact run_quiet h
  case companionReport m =>
    replace h : execCompanionReport m s = .next t := h
    unfold execCompanionReport  at h
    exact run_quiet h
  case consultationAnswer m =>
    replace h : execConsultationAnswer m s = .next t := h
    unfold execConsultationAnswer  at h
    exact run_quiet h
  case containment core cause addr =>
    replace h : execContainment core cause addr s = .next t := h
    unfold execContainment  at h
    exact run_quiet h
  case context m =>
    replace h : execContext m s = .next t := h
    unfold execContext gateStep onReqR at h
    exact run_quiet h
  case doneArrival m =>
    replace h : execDoneArrival m s = .next t := h
    unfold execDoneArrival  at h
    exact run_quiet h
  case doom m =>
    replace h : execDoom m s = .next t := h
    unfold execDoom  at h
    exact run_quiet h
  case dozeExpiry tid =>
    replace h : execDozeExpiry tid s = .next t := h
    unfold execDozeExpiry  at h
    exact run_quiet h
  case engineAccept m =>
    replace h : execEngineAccept m s = .next t := h
    unfold execEngineAccept  at h
    exact run_quiet h
  case engineCompletion clus eng =>
    replace h : execEngineCompletion clus eng s = .next t := h
    unfold execEngineCompletion  at h
    exact run_quiet h
  case enginePiece clus eng =>
    replace h : execEnginePiece clus eng s = .next t := h
    unfold execEnginePiece engineStep at h
    exact run_quiet h
  case errorReply m =>
    replace h : execErrorReply m s = .next t := h
    unfold execErrorReply  at h
    exact run_quiet h
  case exact m =>
    replace h : execExact m s = .next t := h
    unfold execExact gateStep onReqR at h
    exact run_quiet h
  case exitNotice m =>
    replace h : execExitNotice m s = .next t := h
    unfold execExitNotice onReq at h
    exact run_quiet h
  case faultRecordWrite die =>
    replace h : execFaultRecordWrite die s = .next t := h
    unfold execFaultRecordWrite  at h
    exact run_quiet h
  case frontierReadArrival m =>
    replace h : execFrontierReadArrival m s = .next t := h
    unfold execFrontierReadArrival onReq at h
    exact run_quiet h
  case giveUp clus =>
    replace h : execGiveUp clus s = .next t := h
    unfold execGiveUp  at h
    exact run_quiet h
  case grant m =>
    replace h : execGrant m s = .next t := h
    unfold execGrant gateStep onReqR at h
    exact run_quiet h
  case guardCopyUpdate m =>
    replace h : execGuardCopyUpdate m s = .next t := h
    unfold execGuardCopyUpdate  at h
    exact run_quiet h
  case heat m =>
    replace h : execHeat m s = .next t := h
    unfold execHeat gateStep onReqR at h
    exact run_quiet h
  case hostAccess o =>
    replace h : execHostAccess o s = .next t := h
    unfold execHostAccess  at h
    exact run_quiet h
  case hostSnoop o =>
    replace h : execHostSnoop o s = .next t := h
    unfold execHostSnoop  at h
    exact run_quiet h
  case infoArrival m =>
    replace h : execInfoArrival m s = .next t := h
    unfold execInfoArrival onReq at h
    exact run_quiet h
  case join m =>
    replace h : execJoin m s = .next t := h
    unfold execJoin  at h
    exact run_quiet h
  case keepalive addr =>
    replace h : execKeepalive addr s = .next t := h
    unfold execKeepalive  at h
    exact run_quiet h
  case launchArrival m =>
    replace h : execLaunchArrival m s = .next t := h
    unfold execLaunchArrival  at h
    exact run_quiet h
  case leaseExpiry agent index =>
    replace h : execLeaseExpiry agent index s = .next t := h
    unfold execLeaseExpiry  at h
    exact run_quiet h
  case leaveGrant  =>
    replace h : execLeaveGrant  s = .next t := h
    unfold execLeaveGrant  at h
    exact run_quiet h
  case leaveRequest m =>
    replace h : execLeaveRequest m s = .next t := h
    unfold execLeaveRequest  at h
    exact run_quiet h
  case lifeInquiryArrival m =>
    replace h : execLifeInquiryArrival m s = .next t := h
    unfold execLifeInquiryArrival onReq at h
    exact run_quiet h
  case linkFailure module =>
    replace h : execLinkFailure module s = .next t := h
    unfold execLinkFailure  at h
    exact run_quiet h
  case loadDataArrival m =>
    replace h : execLoadDataArrival m s = .next t := h
    unfold execLoadDataArrival  at h
    exact run_quiet h
  case loadService m =>
    replace h : execLoadService m s = .next t := h
    unfold execLoadService  at h
    exact run_quiet h
  case lockDeadline m =>
    replace h : execLockDeadline m s = .next t := h
    unfold execLockDeadline  at h
    exact run_quiet h
  case lockInquiryArrival m =>
    replace h : execLockInquiryArrival m s = .next t := h
    unfold execLockInquiryArrival onReq at h
    exact run_quiet h
  case lockRequestArrival m =>
    replace h : execLockRequestArrival m s = .next t := h
    unfold execLockRequestArrival onReq at h
    exact run_quiet h
  case log m =>
    replace h : execLog m s = .next t := h
    unfold execLog gateStep onReqR at h
    exact run_quiet h
  case mcsDecision m =>
    replace h : execMcsDecision m s = .next t := h
    unfold execMcsDecision  at h
    exact run_quiet h
  case memberFailure module =>
    replace h : execMemberFailure module s = .next t := h
    unfold execMemberFailure  at h
    exact run_quiet h
  case moduleFailed module =>
    replace h : execModuleFailed module s = .next t := h
    unfold execModuleFailed  at h
    exact run_quiet h
  case pageResponse tag ok =>
    replace h : execPageResponse tag ok s = .next t := h
    unfold execPageResponse  at h
    exact run_quiet h
  case pathGrant m =>
    replace h : execPathGrant m s = .next t := h
    unfold execPathGrant onReq at h
    exact run_quiet h
  case pathWordArrival m =>
    replace h : execPathWordArrival m s = .next t := h
    unfold execPathWordArrival  at h
    exact run_quiet h
  case permissionLeaseRenewal line =>
    replace h : execPermissionLeaseRenewal line s = .next t := h
    unfold execPermissionLeaseRenewal  at h
    exact run_quiet h
  case pointQueryArrival m =>
    replace h : execPointQueryArrival m s = .next t := h
    unfold execPointQueryArrival onReq at h
    exact run_quiet h
  case preemptionStop tenant =>
    replace h : execPreemptionStop tenant s = .next t := h
    unfold execPreemptionStop  at h
    exact run_quiet h
  case priorityAging launch =>
    replace h : execPriorityAging launch s = .next t := h
    unfold execPriorityAging  at h
    exact run_quiet h
  case promiseMissed clus eng =>
    replace h : execPromiseMissed clus eng s = .next t := h
    unfold execPromiseMissed  at h
    exact run_quiet h
  case prq addr =>
    replace h : execPrq addr s = .next t := h
    unfold execPrq  at h
    exact run_quiet h
  case queueDeadlock core blk =>
    replace h : execQueueDeadlock core blk s = .next t := h
    unfold execQueueDeadlock  at h
    exact run_quiet h
  case readLeaseExpiry core line =>
    replace h : execReadLeaseExpiry core line s = .next t := h
    unfold execReadLeaseExpiry  at h
    exact run_quiet h
  case rectangleReturn n =>
    replace h : execRectangleReturn n s = .next t := h
    unfold execRectangleReturn  at h
    exact run_quiet h
  case refusalAcknowledgement m =>
    replace h : execRefusalAcknowledgement m s = .next t := h
    unfold execRefusalAcknowledgement  at h
    exact run_quiet h
  case renewalArrival m =>
    replace h : execRenewalArrival m s = .next t := h
    unfold execRenewalArrival onReq at h
    exact run_quiet h
  case replyArrival m =>
    replace h : execReplyArrival m s = .next t := h
    unfold execReplyArrival  at h
    exact run_quiet h
  case report m =>
    replace h : execReport m s = .next t := h
    unfold execReport  at h
    exact run_quiet h
  case resumption tenant =>
    replace h : execResumption tenant s = .next t := h
    unfold execResumption  at h
    exact run_quiet h
  case root m =>
    replace h : execRoot m s = .next t := h
    unfold execRoot gateStep onReqR at h
    exact run_quiet h
  case rootConsultation m =>
    replace h : execRootConsultation m s = .next t := h
    unfold execRootConsultation  at h
    exact run_quiet h
  case sealArrival m =>
    replace h : execSealArrival m s = .next t := h
    unfold execSealArrival onReq at h
    exact run_quiet h
  case sealNotice m =>
    replace h : execSealNotice m s = .next t := h
    unfold execSealNotice  at h
    exact run_quiet h
  case serviceContextCreation  =>
    replace h : execServiceContextCreation  s = .next t := h
    unfold execServiceContextCreation  at h
    exact run_quiet h
  case softError o =>
    replace h : execSoftError o s = .next t := h
    unfold execSoftError  at h
    exact run_quiet h
  case storeBufferDrain core =>
    replace h : execStoreBufferDrain core s = .next t := h
    unfold execStoreBufferDrain  at h
    exact run_quiet h
  case storePerform m =>
    replace h : execStorePerform m s = .next t := h
    unfold execStorePerform  at h
    exact run_quiet h
  case streamUnitLand clus eng =>
    replace h : execStreamUnitLand clus eng s = .next t := h
    unfold execStreamUnitLand engineStep at h
    exact run_quiet h
  case suspendMessage m =>
    replace h : execSuspendMessage m s = .next t := h
    unfold execSuspendMessage  at h
    exact run_quiet h
  case swapDecision blk =>
    replace h : execSwapDecision blk s = .next t := h
    unfold execSwapDecision  at h
    exact run_quiet h
  case swapSave blk =>
    replace h : execSwapSave blk s = .next t := h
    unfold execSwapSave  at h
    exact run_quiet h
  case tenant m =>
    replace h : execTenant m s = .next t := h
    unfold execTenant gateStep onReqR at h
    exact run_quiet h
  case tetherArrival m =>
    replace h : execTetherArrival m s = .next t := h
    unfold execTetherArrival onReq at h
    exact run_quiet h
  case time m =>
    replace h : execTime m s = .next t := h
    unfold execTime gateStep onReqR at h
    exact run_quiet h
  case timeSync module offset =>
    replace h : execTimeSync module offset s = .next t := h
    unfold execTimeSync  at h
    exact run_quiet h
  case wakeMessage m =>
    replace h : execWakeMessage m s = .next t := h
    unfold execWakeMessage onReq at h
    exact run_quiet h
  case walkEnd w =>
    replace h : execWalkEnd w s = .next t := h
    unfold execWalkEnd  at h
    exact run_quiet h
  case writeBackRequest line =>
    replace h : execWriteBackRequest line s = .next t := h
    unfold execWriteBackRequest  at h
    exact run_quiet h
  case writeLeaseLapse line =>
    replace h : execWriteLeaseLapse line s = .next t := h
    unfold execWriteLeaseLapse  at h
    exact run_quiet h
  all_goals exact run_quiet h

end Sys2Proof.Machine
end

