-- ==== Sys2Proof/Tests/Slice0.lean ====
section
/-!
SUPPORT. The model's own tests: words of each family, written out from the spec's encodings, and what the decoder
reads from them; for every statement of Certificates/Slice0/Obligations.lean that has hypotheses, a state and operands
that meet them (`witness_<Name>`); an ill-formed term for each check of `Instr.wf`; and a few single steps whose
results were worked out by hand from the rules.
-/
namespace Sys2Proof.Tests
open Sys2Proof Sys2Proof.Machine
set_option Elab.async false

theorem test_decode_misc :
    decode 0x0000 0 = .ok .nop ∧
    decode 0x4000 0x5000 = .ok (.nopGuarded ⟨.k 5⟩) ∧
    decode 0x0001 0 = .ok .exit ∧
    decode 0x4001 0x5000 = .ok (.exitGuarded ⟨.k 5⟩) ∧
    decode 0x0002 0 = .ok .ret ∧
    decode 0x4002 0x5000 = .ok (.retGuarded ⟨.k 5⟩) ∧
    decode 0x0003 0 = .ok .cbar ∧
    decode 0x4003 0x5000 = .ok (.cbarGuarded ⟨.k 5⟩) ∧
    decode 0x0004 0 = .ok .tret ∧
    decode 0x4004 0x5000 = .ok (.tretGuarded ⟨.k 5⟩) ∧
    decode 0x0005 0 = .ok .halt ∧
    decode 0x4005 0x5000 = .ok (.haltGuarded ⟨.k 5⟩) := by
  refine ⟨?_, ?_, ?_, ?_, ?_, ?_, ?_, ?_, ?_, ?_, ?_, ?_⟩ <;> rfl

theorem test_decode_alu :
    decode 0x8051 0x02B00000 = .ok (.add ⟨.k 0, 17, 5, 12, .b⟩) ∧
    decode 0x8052 0xC2B00840 = .ok (.sub ⟨.always, 18, 5, 12, .h⟩) ∧
    decode 0x8053 0x22B01080 = .ok (.and ⟨.k 2, 19, 5, 12, .w⟩) ∧
    decode 0x8054 0xC2B018C0 = .ok (.or ⟨.always, 20, 5, 12, .d⟩) ∧
    decode 0x8051 0x42B00100 = .ok (.xor ⟨.k 4, 17, 5, 12, .b⟩) ∧
    decode 0x8052 0xC2B00940 = .ok (.andn ⟨.always, 18, 5, 12, .h⟩) ∧
    decode 0x8053 0x62B01180 = .ok (.shl ⟨.k 6, 19, 5, 12, .w⟩) ∧
    decode 0x8054 0xC2B019C0 = .ok (.shr ⟨.always, 20, 5, 12, .d⟩) ∧
    decode 0x8051 0x82B00200 = .ok (.sra ⟨.k 8, 17, 5, 12, .b⟩) ∧
    decode 0x8052 0xC2B00A40 = .ok (.rot ⟨.always, 18, 5, 12, .h⟩) ∧
    decode 0x8053 0xA2B01280 = .ok (.min ⟨.k 10, 19, 5, 12, .w⟩) ∧
    decode 0x8054 0xC2B01AC0 = .ok (.max ⟨.always, 20, 5, 12, .d⟩) ∧
    decode 0x8051 0x02B00300 = .ok (.minu ⟨.k 0, 17, 5, 12, .b⟩) ∧
    decode 0x8052 0xC2B00B40 = .ok (.maxu ⟨.always, 18, 5, 12, .h⟩) ∧
    decode 0x8049 0xC1F8C380 = .ok (.lea ⟨.always, 9, 3, 30, 6⟩) ∧
    decode 0x8049 0x11F963C0 = .ok (.sel ⟨.k 1, 9, 3, 30, 11⟩) := by
  refine ⟨?_, ?_, ?_, ?_, ?_, ?_, ?_, ?_, ?_, ?_, ?_, ?_, ?_, ?_, ?_, ?_⟩ <;> rfl

theorem test_decode_mulDiv :
    decode 0x8082 0xCE901800 = .ok (.mul ⟨.always, 2, 29, 4, .d⟩) ∧
    decode 0x8083 0xCE901040 = .ok (.mulh ⟨.always, 3, 29, 4, .w⟩) ∧
    decode 0x8084 0xCE900880 = .ok (.mulhu ⟨.always, 4, 29, 4, .h⟩) ∧
    decode 0x8085 0xCE9000C0 = .ok (.div ⟨.always, 5, 29, 4, .b⟩) ∧
    decode 0x8086 0xCE901900 = .ok (.divu ⟨.always, 6, 29, 4, .d⟩) ∧
    decode 0x8087 0xCE901140 = .ok (.rem ⟨.always, 7, 29, 4, .w⟩) ∧
    decode 0x8088 0xCE900980 = .ok (.remu ⟨.always, 8, 29, 4, .h⟩) := by
  refine ⟨?_, ?_, ?_, ?_, ?_, ?_, ?_⟩ <;> rfl

theorem test_decode_unary :
    decode 0x80C7 0xBA800800 = .ok (.clz ⟨.k 11, 7, 21, .h⟩) ∧
    decode 0x80C7 0xBA801040 = .ok (.ctz ⟨.k 11, 7, 21, .w⟩) ∧
    decode 0x80C7 0xBA801880 = .ok (.popc ⟨.k 11, 7, 21, .d⟩) ∧
    decode 0x80C7 0xCA800CC0 = .ok (.sext ⟨.always, 7, 21, .h, .zx⟩) ∧
    decode 0x80C7 0xCA800100 = .ok (.mov ⟨.always, 7, 21⟩) := by
  refine ⟨?_, ?_, ?_, ?_, ?_⟩ <;> rfl

theorem test_decode_bitField :
    decode 0x8106 0xC15001D0 = .ok (.ext ⟨.always, 6, 2, .w, .zx, 16, 8⟩) ∧
    decode 0x8106 0xC1610FC0 = .ok (.ins ⟨.always, 6, 2, .d, 0, 64⟩) := by
  refine ⟨?_, ?_⟩ <;> rfl

theorem test_decode_aluImm :
    decode 0x814D 0xC360FFF0 = .ok (.addi ⟨.always, 13, 6, .d, 0xFFF0⟩) ∧
    decode 0x814D 0xC3010003 = .ok (.shlImm ⟨.always, 13, 6, .b, 3⟩) ∧
    decode 0x814D 0xC3220004 = .ok (.shrImm ⟨.always, 13, 6, .h, 4⟩) ∧
    decode 0x814D 0xC3430005 = .ok (.sraImm ⟨.always, 13, 6, .w, 5⟩) ∧
    decode 0x814D 0xC3640006 = .ok (.rotImm ⟨.always, 13, 6, .d, 6⟩) ∧
    decode 0x8188 0xC0008000 = .ok (.li ⟨.always, 8, .sx, 0xFFFF8000⟩) ∧
    decode 0x8188 0xC0108000 = .ok (.li ⟨.always, 8, .zx, 0x00008000⟩) ∧
    decode 0xC188 0xC010000089ABCDEF = .ok (.li ⟨.always, 8, .zx, 0x89ABCDEF⟩) ∧
    decode 0xC188 0x2001000012345678 = .ok (.lih ⟨.k 2, 8, 0x12345678⟩) := by
  refine ⟨?_, ?_, ?_, ?_, ?_, ?_, ?_, ?_, ?_⟩ <;> rfl

theorem test_decode_compare :
    decode 0x81C0 0xC5901800 = .ok (.cmp ⟨.always, 0, 11, 4, .d, .sx, .eq⟩) ∧
    decode 0x81C2 0xC5901840 = .ok (.cmp ⟨.always, 1, 11, 4, .d, .sx, .ne⟩) ∧
    decode 0x81C4 0xC5901880 = .ok (.cmp ⟨.always, 2, 11, 4, .d, .sx, .lt⟩) ∧
    decode 0x81C6 0xC5901CC0 = .ok (.cmp ⟨.always, 3, 11, 4, .d, .zx, .le⟩) ∧
    decode 0x81C8 0xC5901900 = .ok (.cmp ⟨.always, 4, 11, 4, .d, .sx, .gt⟩) ∧
    decode 0x81CA 0xC5901D40 = .ok (.cmp ⟨.always, 5, 11, 4, .d, .zx, .ge⟩) ∧
    decode 0x820A 0xC5B2FFFE = .ok (.cmpi ⟨.always, 5, 11, .h, .zx, .lt, 0xFFFE⟩) := by
  refine ⟨?_, ?_, ?_, ?_, ?_, ?_, ?_⟩ <;> rfl

theorem test_decode_predicate :
    decode 0x824B 0x30A80000 = .ok (.pand ⟨.k 3, 11, 1, 10⟩) ∧
    decode 0x824B 0x30A80040 = .ok (.por ⟨.k 3, 11, 1, 10⟩) ∧
    decode 0x824B 0x30A80080 = .ok (.pxor ⟨.k 3, 11, 1, 10⟩) ∧
    decode 0x824B 0x308000C0 = .ok (.pnot ⟨.k 3, 11, 1⟩) ∧
    decode 0x824B 0x30800100 = .ok (.pmov ⟨.k 3, 11, 1⟩) ∧
    decode 0x824B 0x30800140 = .ok (.pany ⟨.k 3, 11, 1⟩) := by
  refine ⟨?_, ?_, ?_, ?_, ?_, ?_⟩ <;> rfl

theorem test_decode_floatArith :
    decode 0x8283 0xC2640801 = .ok (.fadd ⟨.always, 3, 4, 25, .f16, .rne⟩) ∧
    decode 0x8283 0xC2640C42 = .ok (.fsub ⟨.always, 3, 4, 25, .bf16, .rtz⟩) ∧
    decode 0x8283 0xC2641083 = .ok (.fmul ⟨.always, 3, 4, 25, .f32, .rup⟩) ∧
    decode 0x8283 0xC214D0C2 = .ok (.fma ⟨.always, 3, 4, 5, 6, .f32, .rtz⟩) ∧
    decode 0x8283 0xC2141904 = .ok (.fdiv ⟨.always, 3, 4, 5, .f64, .rdn⟩) ∧
    decode 0x8283 0xC2001146 = .ok (.fsqrt ⟨.always, 3, 4, .f32, .sr⟩) ∧
    decode 0x8283 0xC2140D80 = .ok (.fmin ⟨.always, 3, 4, 5, .bf16⟩) ∧
    decode 0x8283 0xC21419C0 = .ok (.fmax ⟨.always, 3, 4, 5, .f64⟩) := by
  refine ⟨?_, ?_, ?_, ?_, ?_, ?_, ?_, ?_⟩ <;> rfl

theorem test_decode_floatConvert :
    decode 0x82C8 0xC214D000 = .ok (.fcmp ⟨.always, 4, 4, 5, .f32, .uno⟩) ∧
    decode 0x82C8 0xC20CA045 = .ok (.fcvt ⟨.always, 8, 4, .f64, .n32, .rna⟩) ∧
    decode 0x82C8 0xC2000880 = .ok (.fclass ⟨.always, 8, 4, .f16⟩) ∧
    decode 0x82C8 0xC20000C0 = .ok (.fmode ⟨.always, 8, 4⟩) ∧
    decode 0x82C8 0xC2000100 = .ok (.fflags ⟨.always, 8, 4⟩) := by
  refine ⟨?_, ?_, ?_, ?_, ?_⟩ <;> rfl

theorem test_decode_loadStore :
    decode 0x840E 0xC6E08000 = .ok (.ld ⟨.always, 14, 13, .d, .sx, .glob, .core, 0⟩) ∧
    decode 0xC40E 0xC6B78000FFFFFFFC = .ok (.ld ⟨.always, 14, 13, .h, .zx, .nich, .sys, 0xFFFFFFFC⟩) ∧
    decode 0x8454 0xC3E08088 = .ok (.st ⟨.always, 20, 7, .d, .glob, .core, 136⟩) ∧
    decode 0x8485 0xC4221002 = .ok (.ldaq ⟨.always, 5, 8, .h, .sx, .mod, 2⟩) ∧
    decode 0x84C9 0xC4422000 = .ok (.strl ⟨.always, 9, 8, .w, .mod, 0⟩) := by
  refine ⟨?_, ?_, ?_, ?_, ?_⟩ <;> rfl

theorem test_decode_vectorMemory :
    decode 0x8502 0xC4018100 = .ok (.vld ⟨.always, 2, 8, 0, .bf16, .glob, .core, false, 0⟩) ∧
    decode 0x8505 0xC4244101 = .ok (.vlds ⟨.always, 5, 8, 9, .s16, .glob, .core, false, 0⟩) ∧
    decode 0x8503 0xC4114102 = .ok (.vgth ⟨.always, 3, 8, 4, .f32, .glob, .core, false, 0⟩) ∧
    decode 0x8546 0xC4264100 = .ok (.vst ⟨.always, 6, 8, 9, .sv4, .glob, .core, false, 0⟩) ∧
    decode 0xC546 0x4420E441FFFFFFC0 = .ok (.vsct ⟨.k 4, 6, 8, 8, .n32, .glob, .mod, true, 0xFFFFFFC0⟩) := by
  refine ⟨?_, ?_, ?_, ?_, ?_⟩ <;> rfl

theorem test_decode_atomic :
    decode 0x8580 0xC4241020 = .ok (.atom ⟨.always, 0, 8, 9, 0, .add, false, .rlx, .mod, 0⟩) ∧
    decode 0x8583 0xC4255A63 = .ok (.atom ⟨.always, 3, 8, 9, 10, .cas, true, .acr, .mod, 0⟩) ∧
    decode 0xC583 0xC424107900000010 = .ok (.atom ⟨.always, 3, 8, 9, 0, .and, false, .acq, .sys, 16⟩) ∧
    decode 0xC583 0xC42410BA00000020 = .ok (.atom ⟨.always, 3, 8, 9, 0, .or, false, .rel, .sys, 32⟩) ∧
    decode 0xC583 0xC42410FB00000030 = .ok (.atom ⟨.always, 3, 8, 9, 0, .xor, false, .acr, .sys, 48⟩) ∧
    decode 0xC583 0xC424113800000040 = .ok (.atom ⟨.always, 3, 8, 9, 0, .min, false, .rlx, .sys, 64⟩) ∧
    decode 0xC583 0xC424117900000050 = .ok (.atom ⟨.always, 3, 8, 9, 0, .max, false, .acq, .sys, 80⟩) ∧
    decode 0xC583 0xC42411BA00000060 = .ok (.atom ⟨.always, 3, 8, 9, 0, .minu, false, .rel, .sys, 96⟩) ∧
    decode 0xC583 0xC42411FB00000070 = .ok (.atom ⟨.always, 3, 8, 9, 0, .maxu, false, .acr, .sys, 112⟩) ∧
    decode 0xC583 0xC424123800000080 = .ok (.atom ⟨.always, 3, 8, 9, 0, .xchg, false, .rlx, .sys, 128⟩) ∧
    decode 0xC583 0xC42412BA000000A0 = .ok (.atom ⟨.always, 3, 8, 9, 0, .fadd, false, .rel, .sys, 160⟩) ∧
    decode 0x85C0 0xC4240022 = .ok (.atomx ⟨.always, 8, 9, true, .mod⟩) := by
  refine ⟨?_, ?_, ?_, ?_, ?_, ?_, ?_, ?_, ?_, ?_, ?_, ?_⟩ <;> rfl

theorem test_decode_timeAndFence :
    decode 0x4607 0xC000 = .ok (.rdt ⟨.always, 7⟩) ∧
    decode 0x4602 0xC001 = .ok (.rdid ⟨.always, 2, .slot⟩) ∧
    decode 0x4602 0xC081 = .ok (.rdid ⟨.always, 2, .ccl⟩) ∧
    decode 0x4602 0xC101 = .ok (.rdid ⟨.always, 2, .core⟩) ∧
    decode 0x4602 0xC181 = .ok (.rdid ⟨.always, 2, .clus⟩) ∧
    decode 0x4602 0xC201 = .ok (.rdid ⟨.always, 2, .cidx⟩) ∧
    decode 0x4602 0xC281 = .ok (.rdid ⟨.always, 2, .csize⟩) ∧
    decode 0x4602 0xC301 = .ok (.rdid ⟨.always, 2, .bidx⟩) ∧
    decode 0x4602 0xC381 = .ok (.rdid ⟨.always, 2, .bsize⟩) ∧
    decode 0x4602 0xC401 = .ok (.rdid ⟨.always, 2, .px⟩) ∧
    decode 0x4602 0xC481 = .ok (.rdid ⟨.always, 2, .py⟩) ∧
    decode 0x4602 0xC501 = .ok (.rdid ⟨.always, 2, .pz⟩) ∧
    decode 0x4602 0xC581 = .ok (.rdid ⟨.always, 2, .modl⟩) ∧
    decode 0x4602 0xC601 = .ok (.rdid ⟨.always, 2, .tent⟩) ∧
    decode 0x4600 0xC982 = .ok (.doze ⟨.always, 19⟩) ∧
    decode 0x4613 0xC183 = .ok (.qstat ⟨.always, 19, 3⟩) ∧
    decode 0x8640 0xC000F0FF = .ok (.wait ⟨.always, 15, 0, 15, 15⟩) ∧
    decode 0x069A 0 = .ok (.fence ⟨.die, .rel⟩) ∧
    decode 0x068B 0 = .ok (.fence ⟨.core, .acr⟩) ∧
    decode 0x469A 0x5000 = .ok (.fenceGuarded ⟨.k 5, .die, .rel⟩) ∧
    decode 0x86C0 0xC4000100 = .ok (.pref ⟨.always, false, 8, 256⟩) ∧
    decode 0x86C1 0xC4000FC0 = .ok (.pref ⟨.always, true, 8, 0xFFFFFFC0⟩) := by
  refine ⟨?_, ?_, ?_, ?_, ?_, ?_, ?_, ?_, ?_, ?_, ?_, ?_, ?_, ?_, ?_, ?_, ?_, ?_, ?_, ?_, ?_, ?_⟩ <;> rfl

theorem test_decode_transfer :
    decode 0x8800 0xC000FFC3 = .ok (.br ⟨.always, 0x7FFFFFE, 3⟩) ∧
    decode 0xC800 0x100000008000001F = .ok (.br ⟨.k 1, 0x4000000, 31⟩) ∧
    decode 0x8840 0xC00000A4 = .ok (.call ⟨.always, 5, 4⟩) ∧
    decode 0x8880 0xC900FFE1 = .ok (.loop ⟨.always, 18, 0x7FFFFFF, 1⟩) ∧
    decode 0x88C1 0xC900FFFE = .ok (.jmp ⟨.always, 1, 18, 0xFFFE⟩) ∧
    decode 0x4900 0xC900 = .ok (.jr ⟨.always, 18⟩) := by
  refine ⟨?_, ?_, ?_, ?_, ?_, ?_⟩ <;> rfl

theorem test_decode_leases :
    decode 0x8A14 0xC5C40000 = .ok (.lrenew ⟨.always, 20, 11, .reg 17⟩) ∧
    decode 0xCA14 0xC580000000006001 = .ok (.lrenew ⟨.always, 20, 11, .imm 0x6001⟩) ∧
    decode 0x8A14 0xC5800040 = .ok (.llife ⟨.always, 20, 11⟩) ∧
    decode 0x8A14 0xC5B00080 = .ok (.ltether ⟨.always, 20, 11, 12⟩) ∧
    decode 0x8A14 0xC58400C0 = .ok (.linfo ⟨.always, 20, 11, true⟩) ∧
    decode 0x8A14 0xC5B1A120 = .ok (.lock ⟨.always, 20, 11, 12, 13, .mod⟩) ∧
    decode 0x8A14 0xC5800140 = .ok (.lheld ⟨.always, 20, 11⟩) ∧
    decode 0x8A43 0xC5C40000 = .ok (.binit ⟨.always, 3, 11, .reg 17⟩) ∧
    decode 0x8A45 0xC4000050 = .ok (.barv ⟨.always, 5, 8, .clus⟩) ∧
    decode 0xCA45 0xC400009000001000 = .ok (.badd ⟨.always, 5, 8, .imm 4096, .clus⟩) ∧
    decode 0x8A45 0xC42400D0 = .ok (.bwait ⟨.always, 5, 8, 9, .clus⟩) ∧
    decode 0x8A84 0xC5B00000 = .ok (.popen ⟨.always, 4, 11, 12⟩) ∧
    decode 0x8A80 0xC5358040 = .ok (.psend ⟨.always, 10, 13, .reg 12⟩) ∧
    decode 0x8A84 0xC5B1A080 = .ok (.gate ⟨.always, 4, 11, 12, 13⟩) ∧
    decode 0x8A84 0xC58000C0 = .ok (.alloc ⟨.always, 4, 11⟩) ∧
    decode 0x8AD5 0xCA0C0000 = .ok (.jrnl ⟨.always, 21, 20, 3⟩) ∧
    decode 0x8AC0 0xCA000040 = .ok (.jack ⟨.always, 20⟩) := by
  refine ⟨?_, ?_, ?_, ?_, ?_, ?_, ?_, ?_, ?_, ?_, ?_, ?_, ?_, ?_, ?_, ?_, ?_⟩ <;> rfl

theorem test_decode_bundles :
    decode 0x8B08 0xC2140000 = .ok (.bopen ⟨.always, 8, 4, .reg 5⟩) ∧
    decode 0xCB08 0xC200000058016001 = .ok (.bopen ⟨.always, 8, 4, .imm 0x58016001⟩) ∧
    decode 0x8B00 0xC428C040 = .ok (.bst ⟨.always, 8, 10, 6, 0⟩) ∧
    decode 0xCB00 0xC428C04000000040 = .ok (.bst ⟨.always, 8, 10, 6, 64⟩) ∧
    decode 0x8B00 0xC4287440 = .ok (.bstVector ⟨.always, 8, 10, 3, .w, 0⟩) ∧
    decode 0x8B10 0xC4000080 = .ok (.bseal ⟨.always, 16, 8⟩) ∧
    decode 0x8B09 0xC28000C0 = .ok (.bview ⟨.always, 9, 5⟩) ∧
    decode 0xCB0F 0xC508010000000008 = .ok (.bld ⟨.always, 15, 10, 1, 8⟩) ∧
    decode 0x8B16 0xCA540140 = .ok (.bchk ⟨.always, 22, 20, .reg 21⟩) ∧
    decode 0x8B44 0xC4000000 = .ok (.mcsld ⟨.always, 4, 8⟩) ∧
    decode 0x8B40 0xC4240040 = .ok (.mcsst ⟨.always, 8, 9⟩) ∧
    decode 0x8B45 0xC4240040 = .ok (.mcsstCommit ⟨.always, 5, 8, 9⟩) ∧
    decode 0x8B80 0xC4240000 = .ok (.tagst ⟨.always, 8, 9⟩) ∧
    decode 0x8B84 0xC4000040 = .ok (.tagld ⟨.always, 4, 8⟩) := by
  refine ⟨?_, ?_, ?_, ?_, ?_, ?_, ?_, ?_, ?_, ?_, ?_, ?_, ?_, ?_⟩ <;> rfl

theorem test_decode_scheduling :
    decode 0x8C03 0xC4000000 = .ok (.launch ⟨.always, 3, 8⟩) ∧
    decode 0x8C04 0xC4240040 = .ok (.point ⟨.always, 4, 8, 9⟩) ∧
    decode 0x8C00 0xC0000080 = .ok (.done ⟨.always⟩) ∧
    decode 0xCC05 0xC40000C000000003 = .ok (.frrd ⟨.always, 5, 8, .imm 3⟩) ∧
    decode 0x8C06 0xC52D8100 = .ok (.amsg ⟨.always, 6, 10, 11, 12⟩) := by
  refine ⟨?_, ?_, ?_, ?_, ?_⟩ <;> rfl

theorem test_decode_system :
    decode 0x8E00 0xC4800007 = .ok (.trap ⟨.always, 9, 7⟩) ∧
    decode 0x8E14 0xC0010003 = .ok (.srd ⟨.always, 20, .eval⟩) ∧
    decode 0xCE14 0xC00100000000003F = .ok (.srd ⟨.always, 20, .gstat 31⟩) ∧
    decode 0x8E00 0xC2820004 = .ok (.swr ⟨.always, .handler, 5⟩) ∧
    decode 0x8E00 0xC2820014 = .ok (.pstop ⟨.always, 5⟩) ∧
    decode 0x8E00 0xC2820015 = .ok (.pgo ⟨.always, 5⟩) ∧
    decode 0x8E03 0xC403002A = .ok (.tlbi ⟨.always, 3, 8, .va, 42⟩) ∧
    decode 0x8E03 0xC023002A = .ok (.tlbi ⟨.always, 3, 0, .ctx, 42⟩) ∧
    decode 0x8E04 0xC4040000 = .ok (.wakeRec ⟨.always, 4, 8⟩) ∧
    decode 0x8E04 0xC4240000 = .ok (.wakeFail ⟨.always, 4, 8⟩) ∧
    decode 0x8E04 0xC4440000 = .ok (.wakeSlot ⟨.always, 4, 8⟩) ∧
    decode 0x8E04 0xC4640000 = .ok (.wakeStop ⟨.always, 4, 8⟩) ∧
    decode 0x8E05 0xC4050009 = .ok (.ctxsv ⟨.always, 5, 8, 9⟩) ∧
    decode 0x8E05 0xC4060003 = .ok (.ctxld ⟨.always, 5, 8, 3⟩) := by
  refine ⟨?_, ?_, ?_, ?_, ?_, ?_, ?_, ?_, ?_, ?_, ?_, ?_, ?_, ?_⟩ <;> rfl

theorem test_decode_vectorArith :
    decode 0x9006 0x40040A60 = .ok (.vadd ⟨.k 4, 6, 0, 1, .f32, .rup⟩) ∧
    decode 0x9006 0x40040B81 = .ok (.vsub ⟨.k 4, 6, 0, 1, .f16, .rdn⟩) ∧
    decode 0x9006 0x40040CC2 = .ok (.vmul ⟨.k 4, 6, 0, 1, .bf16, .sr⟩) ∧
    decode 0x9006 0x40040AA9 = .ok (.vdiv ⟨.k 4, 6, 0, 1, .f32, .rna⟩) ∧
    decode 0x9006 0x40044C43 = .ok (.vfma ⟨.k 4, 6, 0, 1, 2, .bf16, .rtz⟩) ∧
    decode 0x9006 0x40044304 = .ok (.vfms ⟨.k 4, 6, 0, 1, 2, .s32, .fm⟩) ∧
    decode 0x900F 0xC3B80505 = .ok (.vmin ⟨.always, 15, 7, 14, .n8⟩) ∧
    decode 0x900F 0xC3B80406 = .ok (.vmax ⟨.always, 15, 7, 14, .s64⟩) ∧
    decode 0x900F 0xC3800207 = .ok (.vabs ⟨.always, 15, 7, .s16⟩) ∧
    decode 0x900F 0xC3800A08 = .ok (.vneg ⟨.always, 15, 7, .f32⟩) ∧
    decode 0x900F 0xC3800A0B = .ok (.vrsqrt ⟨.always, 15, 7, .f32⟩) ∧
    decode 0x900F 0xC3800B0C = .ok (.vrcp ⟨.always, 15, 7, .f16⟩) ∧
    decode 0x900F 0xC3800C0D = .ok (.vexp2 ⟨.always, 15, 7, .bf16⟩) ∧
    decode 0x900F 0xC3800A0E = .ok (.vlog2 ⟨.always, 15, 7, .f32⟩) ∧
    decode 0x900F 0xC3800B2A = .ok (.vsqrt ⟨.always, 15, 7, .f16, .rne⟩) := by
  refine ⟨?_, ?_, ?_, ?_, ?_, ?_, ?_, ?_, ?_, ?_, ?_, ?_, ?_, ?_, ?_⟩ <;> rfl

theorem test_decode_vectorConvert :
    decode 0x9044 0xC3054C40 = .ok (.vcvt ⟨.always, 4, 6, .bf16, .f32, true, .rtz⟩) ∧
    decode 0x9044 0xC40992C1 = .ok (.vqnt ⟨.always, 4, 8, .sv4, .bf16, 2, .sr⟩) ∧
    decode 0x9044 0xC3A5AC02 = .ok (.vdqnt ⟨.always, 4, 7, 9, .bf16, .e4m3, .fm⟩) ∧
    decode 0x9044 0xC3A40203 = .ok (.vwmul ⟨.always, 4, 7, 9, .s16, .fm⟩) ∧
    decode 0x9044 0xC3A40B64 = .ok (.vwadd ⟨.always, 4, 7, 9, .f16, .rup⟩) ∧
    decode 0x9044 0xC3A40505 = .ok (.vdot4 ⟨.always, 4, 7, 9, .n8, .fm⟩) := by
  refine ⟨?_, ?_, ?_, ?_, ?_, ?_⟩ <;> rfl

theorem test_decode_vectorReduce :
    decode 0x9084 0x03800A20 = .ok (.vreds ⟨.k 0, 4, 7, .f32, .rne⟩) ∧
    decode 0x9084 0xC3802801 = .ok (.vredm ⟨.always, 4, 7, .n64, true⟩) ∧
    decode 0x9084 0xC3800102 = .ok (.vscan ⟨.always, 4, 7, .s8, .fm⟩) := by
  refine ⟨?_, ?_, ?_⟩ <;> rfl

theorem test_decode_vectorSelect :
    decode 0x90C6 0xC3A08600 = .ok (.vcmp ⟨.always, 3, 7, 8, .n16, .gt⟩) ∧
    decode 0x90C6 0xC3A17101 = .ok (.vsel ⟨.always, 6, 7, 8, 11, .e8m0⟩) := by
  refine ⟨?_, ?_⟩ <;> rfl

theorem test_decode_vectorLogic :
    decode 0x9106 0xC3A00100 = .ok (.vand ⟨.always, 6, 7, .reg 8, .s8⟩) ∧
    decode 0xD106 0xC3800701DEADBEEF = .ok (.vor ⟨.always, 6, 7, .imm 0xDEADBEEF, .n32⟩) ∧
    decode 0x9106 0xC3A01202 = .ok (.vxor ⟨.always, 6, 7, .reg 8, .sv4⟩) ∧
    decode 0x9106 0xC3800903 = .ok (.vnot ⟨.always, 6, 7, .f64⟩) ∧
    decode 0xD106 0xC38006040000000F = .ok (.vshl ⟨.always, 6, 7, .imm 15, .n16⟩) ∧
    decode 0xD106 0xC38007050000001F = .ok (.vshr ⟨.always, 6, 7, .imm 31, .n32⟩) ∧
    decode 0xD106 0xC38004060000003F = .ok (.vsra ⟨.always, 6, 7, .imm 63, .s64⟩) := by
  refine ⟨?_, ?_, ?_, ?_, ?_, ?_, ?_⟩ <;> rfl

theorem test_decode_vectorMove :
    decode 0xD146 0xC8800300FFFFFFFF = .ok (.viota ⟨.always, 6, 17, .s32, some 0xFFFFFFFF⟩) ∧
    decode 0x9146 0xC8800800 = .ok (.viota ⟨.always, 6, 17, .n64, none⟩) ∧
    decode 0x9146 0xC8800B01 = .ok (.vbcast ⟨.always, 6, .reg 17, .f16⟩) ∧
    decode 0x9146 0xC3C40902 = .ok (.vslide ⟨.always, 6, 7, .reg 17, .f64⟩) ∧
    decode 0x9146 0xC3A00503 = .ok (.vperm ⟨.always, 6, 7, 8, .n8⟩) ∧
    decode 0x9146 0xC3A02204 = .ok (.vzip ⟨.always, 6, 7, 8, true, .s16⟩) ∧
    decode 0x9146 0xC3A00205 = .ok (.vunzip ⟨.always, 6, 7, 8, false, .s16⟩) ∧
    decode 0x9156 0xC3C80A06 = .ok (.vmovsGet ⟨.always, 22, 7, .reg 18, .f32⟩) ∧
    decode 0xD146 0xCB002A060000007F = .ok (.vmovsPut ⟨.always, 6, 22, .imm 127, .f32⟩) := by
  refine ⟨?_, ?_, ?_, ?_, ?_, ?_, ?_, ?_, ?_⟩ <;> rfl

theorem test_decode_vectorMisc :
    decode 0x9186 0xC3A02E00 = .ok (.vtag ⟨6, 7, 8, true, .e5m2⟩) ∧
    decode 0x9186 0xC3800C01 = .ok (.vclass ⟨.always, 6, 7, .bf16⟩) ∧
    decode 0x9186 0x90000702 = .ok (.vrand ⟨.k 9, 6, .n32⟩) := by
  refine ⟨?_, ?_, ?_⟩ <;> rfl

theorem test_decode_matrix :
    decode 0x9414 0xC8800000 = .ok (.mlease ⟨.always, 20, .reg 17⟩) ∧
    decode 0xD414 0xC000000000005801 = .ok (.mlease ⟨.always, 20, .imm 0x5801⟩) ∧
    decode 0x9405 0xC2800040 = .ok (.mlay ⟨.always, 5, 5⟩) ∧
    decode 0x9400 0xC0000080 = .ok (.mzero ⟨.always, 0⟩) ∧
    decode 0x9407 0xC00000C0 = .ok (.mma ⟨.always, 7⟩) ∧
    decode 0x9400 0xC4240100 = .ok (.mdrain ⟨.always, 0, 8, 9⟩) ∧
    decode 0x9416 0xC1800140 = .ok (.mstat ⟨.always, 22, .layout 3⟩) ∧
    decode 0x9416 0xC1040140 = .ok (.mstat ⟨.always, 22, .accSet 2⟩) ∧
    decode 0x9416 0xC0080140 = .ok (.mstat ⟨.always, 22, .arr⟩) := by
  refine ⟨?_, ?_, ?_, ?_, ?_, ?_, ?_, ?_, ?_⟩ <;> rfl

theorem test_decode_copy :
    decode 0x9440 0xC190B400 = .ok (.cxfer ⟨.always, 3, 4, .reg 5, .gall, .glob, 1⟩) ∧
    decode 0xD440 0xC190000100001000 = .ok (.cxfer ⟨.always, 3, 4, .imm 4096, .glob, .nich, 0⟩) ∧
    decode 0x9440 0xC190B800 = .ok (.cxferPack ⟨.always, 3, 4, 5, 0⟩) ∧
    decode 0x9440 0xC190A403 = .ok (.cxferFpack ⟨.always, 3, 4, .reg 5, 1⟩) ∧
    decode 0x9440 0xC5000040 = .ok (.cfeed ⟨.always, .reg 10⟩) ∧
    decode 0xD440 0xC000004000000033 = .ok (.cfeed ⟨.always, .imm 0x33⟩) ∧
    decode 0x944D 0xC0000080 = .ok (.cpop ⟨.always, 13, 0⟩) ∧
    decode 0x9447 0xC00400C0 = .ok (.cstat ⟨.always, 7, 1⟩) := by
  refine ⟨?_, ?_, ?_, ?_, ?_, ?_, ?_, ?_⟩ <;> rfl

/-! ### A bench: one thread at issue in slot 0 of core 0 of a module out of reset -/

/-- Scalar registers of the bench thread: x5 a readable and writable address, x6 1, x7 a length, x8 4,096; x11 to
x20 a handle of each kind from 1 to 10. -/
def benchX : Vector Word 32 := Vector.ofFn (fun k =>
  if k.val = 5 then 0x10100 else if k.val = 6 then 1 else if k.val = 7 then 256 else if k.val = 8 then 4096
  else if 11 ≤ k.val ∧ k.val ≤ 20 then mkHandle (k.val - 10) 0 0 1 else 0)

/-- Tags of its vector registers. -/
def benchV : Vector VReg 16 := Vector.ofFn (fun k =>
  ⟨0, [Fmt.f32, .f32, .f32, .s32, .s32, .n16, .bf16, .bf16, .e4m3, .sv4, .n8, .s16, .f16, .n32, .none, .none].getD k.val .none, 0⟩)

/-- Its predicates are all ones, so that every guard is true. -/
def benchRegs : Regs := ⟨benchX, benchV, Vector.replicate 12 (BitVec.allOnes 1024)⟩

/-- The bench thread. -/
def benchT : Thread := { benchThread with regs := benchRegs }

/-- A core that holds the bench's page and code line. -/
def benchCore : Core :=
  { Core.reset with
    tlb := [⟨0, 1, false, benchLeaf⟩]
    l1 := [⟨benchKey, 1000, BitVec.ofNat 1024 (benchLine 0x0000 0), false⟩] }

/-- The units of the bench. -/
def benchDev (t : Thread) : Dev :=
  { Dev.reset with
    inReset := false
    threads := [(0, t)]
    nextTid := 1
    cur := some 0
    iss := ⟨0x10002, 0x10004, none, false⟩
    cores := [(0, benchCore)]
    blocks := [(0, Block.single 0 0 0 0 0 0 0)]
    nextBlk := 1 }

/-- A module at drip 100. -/
def sys (d : Dev) : State := ⟨100, [], ⟨[]⟩, d⟩

/-- The inputs of a head of thread 0 that names the sources `xs`. -/
def inOf (s : State) (t : Thread) (xs : List Reg) : In :=
  ⟨s.drip, s.mem, s.dev, s.dev.advance 0, 0, t, xs.map t.regs.rx⟩

/-- A thread with nothing pending and no queue register. -/
def Calm (t : Thread) : Prop := t.pendX = 0 ∧ t.pendV = 0 ∧ t.pendK = 0 ∧ t.slotcfg = 0

theorem qmap_calm (r : Reg) : qmap (BitVec.ofNat 64 0) r = 0 := by revert r; decide

theorem readXs_calm (d : Dev) (t : Thread) (h : t.slotcfg = 0) :
    ∀ xs : List Reg, d.readXs t xs = some (d, xs.map t.regs.rx) := by
  intro xs
  induction xs with
  | nil => rfl
  | cons r l ih =>
    have : qmap t.slotcfg r = 0 := h ▸ qmap_calm r
    simp [Dev.readXs, this, ih]

/-- A judgement is good, or bad, where the kernel finds it so. -/
theorem good_of {j : Judge} (h : (match j with
    | .good => true
    | _ => false) = true) : j = .good := by cases j <;> first | rfl | cases h

theorem bad_of {j : Judge} (h : (match j with
    | .bad => true
    | _ => false) = true) : j = .bad := by cases j <;> first | rfl | cases h

/-- Every head of a calm thread whose guard is true, whose checks pass and whose mode is right reaches its body. -/
theorem calm_issues {s : State} {t : Thread} {priv lanes : Bool} {g : Guard} {u : Uses} {pre : Thread → Option Nat}
    (hc : s.dev.cur = some 0) (ht : (s.dev.thr 0).map (fun x => s.dev.iss.old.getD x) = some t) (calm : Calm t)
    (hm : t.mode = true) (hp : pre t = none) (ho : u.off s.dev t = false) (hg : lanes = true ∨ guardTrue g t = true) :
    Issues s priv lanes g u pre (inOf s t u.xs) where
  drip := rfl
  mem := rfl
  base := rfl
  cur := hc
  thread := ht
  ready := by
    obtain ⟨hx, hv, hk, -⟩ := calm
    have hb : ∀ {w : Nat} (n : Nat), bit (BitVec.ofNat w 0) n = false := by intro w n; simp [bit]
    show u.pending g t = false
    unfold Uses.pending
    rw [hx, hv, hk]
    cases g <;> cases u.xd <;> cases u.late <;> simp [hb]
  mode := fun _ => hm
  checks := hp
  mapped := by
    show u.misuse t.slotcfg = false
    unfold Uses.misuse
    rw [calm.2.2.2]
    cases u.xd <;> cases u.late <;> simp [qmap_calm]
  guard := hg
  acts := ho
  sources := ⟨s.dev, readXs_calm s.dev t calm.2.2.2 u.xs, rfl, by
    intro r _
    have : qmap t.slotcfg r = 0 := calm.2.2.2 ▸ qmap_calm r
    show s.dev.hasSpace t r = true
    simp [Dev.hasSpace, this]⟩

/-- Every predicate of the bench thread is all ones. -/
theorem bench_guard (g : Guard) : guardTrue g benchT = true := by
  cases g with
  | always => rfl
  | k n => revert n; decide +kernel

/-- The bench. -/
def bench : State := sys (benchDev benchT)

theorem bench_calm : Calm benchT := ⟨rfl, rfl, rfl, rfl⟩

/-- On the bench every head reaches its body whose own check passes. -/
theorem bench_issues {priv lanes : Bool} {g : Guard} {u : Uses} {pre : Thread → Option Nat} (hp : pre benchT = none)
    (ho : u.off bench.dev benchT = false := by rfl) : Issues bench priv lanes g u pre (inOf bench benchT u.xs) :=
  calm_issues rfl rfl bench_calm rfl hp ho (.inr (bench_guard g))

/-! ### Witnesses: states and operands that meet the hypotheses of the statements about heads -/

/-- Every form of ScalarResults, and so of HeadFrames' first clause, reaches its body on the bench. -/
theorem witness_ScalarResults : ∀ (x : Instr) (g : Guard) (u : Uses) (r : Reg) (f : In → Word), ScalarForm x g u r f →
    IssuesS bench false g u (inOf bench benchT u.xs) := fun _ _ _ _ _ h => by cases h <;> exact bench_issues rfl

theorem witness_PredicateResults : ∀ (x : Instr) (g : Guard) (u : Uses) (f : In → Regs → Regs), PredForm x g u f →
    IssuesS bench false g u (inOf bench benchT u.xs) := fun _ _ _ _ h => by cases h <;> exact bench_issues rfl

theorem witness_FloatResults :
    (∀ (x : Instr) (g : Guard) (u : Uses) (r : Reg) (f : In → Word × Flags), FloatForm x g u r f →
      IssuesS bench false g u (inOf bench benchT u.xs)) ∧
    (∀ (g : Guard) (a b : Reg) (p q : KR), IssuesS bench false g { xs := [a, b], kd := [p, q] } (inOf bench benchT [a, b])) ∧
    (∀ (g : Guard) (a d : Reg), IssuesS bench false g { xs := [a], xd := some d } (inOf bench benchT [a])) ∧
    (inOf bench benchT [6]).a.toNat ≤ 6 ∧ (inOf bench benchT [0]).a.toNat ≤ 6 :=
  ⟨fun _ _ _ _ _ h => by cases h <;> exact bench_issues rfl, fun _ _ _ _ _ => bench_issues rfl, fun _ _ _ => bench_issues rfl,
    by decide, by decide⟩

/-- HeadFrames: the three families. -/
theorem witness_HeadFrames :
    (∃ x u f, ScalarForm x .always u 3 f ∧ IssuesS bench false .always u (inOf bench benchT u.xs)) ∧
    (∃ x u f, PredForm x .always u f ∧ IssuesS bench false .always u (inOf bench benchT u.xs)) ∧
    (∃ x u f, FloatForm x .always u 3 f ∧ IssuesS bench false .always u (inOf bench benchT u.xs)) :=
  ⟨⟨_, _, _, .mov ⟨.always, 3, 5⟩, bench_issues rfl⟩, ⟨_, _, _, .pnot ⟨.always, 3, 5⟩, bench_issues rfl⟩,
    ⟨_, _, _, .fadd ⟨.always, 3, 5, 6, .f32, .fm⟩, bench_issues rfl⟩⟩

/-- Division: a zero divisor, and the most negative number over minus one. -/
theorem witness_Division :
    IssuesS bench false .always (regUses ⟨.always, 3, 5, 0, .d⟩) (inOf bench benchT [5, 0]) ∧
    (inOf bench benchT [5, 0]).b.setWidth 64 = 0 ∧
    (let t := { benchT with regs := (benchRegs.wx 9 0x8000000000000000).wx 10 0xFFFFFFFFFFFFFFFF }
     let s := sys (benchDev t)
     IssuesS s false .always (regUses ⟨.always, 3, 9, 10, .d⟩) (inOf s t [9, 10]) ∧
       (inOf s t [9, 10]).a.setWidth 64 = BitVec.intMin 64 ∧ (inOf s t [9, 10]).b.setWidth 64 = BitVec.allOnes 64) :=
  ⟨bench_issues rfl, by decide, calm_issues rfl rfl ⟨rfl, rfl, rfl, rfl⟩ rfl rfl rfl (.inr rfl), by decide, by decide⟩

/-- A bench whose thread is in a trap that came from the head at 0x10002. -/
def trapT : Thread := { benchT with status := setModes benchT.status true false true, epc := 0x10002 }

theorem witness_Transfers :
    (∃ c a f, TransferForm (.br ⟨.always, 0, 1⟩) false .always {} c a f ∧
      IssuesS bench false .always {} (inOf bench benchT []) ∧ c (inOf bench benchT []) ∧
      bench.dev.target 100 ⟨[]⟩ 0 0 0 (a (inOf bench benchT [])) = .good) ∧
    (∃ c a f, TransferForm .tret true .always {} c a f ∧
      IssuesS (sys (benchDev trapT)) true .always {} (inOf (sys (benchDev trapT)) trapT []) ∧
      c (inOf (sys (benchDev trapT)) trapT []) ∧
      (sys (benchDev trapT)).dev.target 100 ⟨[]⟩ 0 0 0 (a (inOf (sys (benchDev trapT)) trapT [])) = .good) ∧
    (IssuesS bench false .always { xs := [6], xd := some 6 } (inOf bench benchT [6]) ∧ (inOf bench benchT [6]).a = 1) :=
  ⟨⟨_, _, _, .br _, bench_issues rfl, trivial, good_of (by decide +kernel)⟩,
    ⟨_, _, _, .tret, calm_issues rfl rfl ⟨rfl, rfl, rfl, rfl⟩ rfl rfl rfl (.inr rfl), by decide, good_of (by decide +kernel)⟩, bench_issues rfl, by decide⟩

/-- A target whose head index is past N. -/
theorem witness_BadTargetTraps : ∃ c a f, TransferForm (.br ⟨.always, 0, 2⟩) false .always {} c a f ∧
    IssuesS bench false .always {} (inOf bench benchT []) ∧ c (inOf bench benchT []) ∧
    bench.dev.target 100 ⟨[]⟩ 0 0 0 (a (inOf bench benchT [])) = .bad :=
  ⟨_, _, _, .br _, bench_issues rfl, trivial, bad_of (by decide +kernel)⟩

theorem witness_ThreadHeads :
    (∃ c f, ThreadForm .halt true .always {} c f ∧ IssuesS bench true .always {} (inOf bench benchT []) ∧
      c (inOf bench benchT [])) ∧
    (let t := { benchT with cL := 1 }
     let s := sys (benchDev t)
     ∃ c f, ThreadForm (.wait ⟨.always, 0, 15, 15, 15⟩) false .always {} c f ∧ IssuesS s false .always {} (inOf s t []) ∧
       c (inOf s t [])) ∧
    (∀ g, IssuesS bench false g {} (inOf bench benchT [])) ∧
    countsMet ⟨.always, 0, 0, 0, 15⟩ benchT ∧ bench.dev.lapse 0 benchT = none := by
  refine ⟨⟨_, _, .halt, bench_issues rfl, trivial⟩,
    ⟨_, _, .wait _, calm_issues rfl rfl ⟨rfl, rfl, rfl, rfl⟩ rfl rfl rfl (.inr rfl), ?_⟩, fun _ => bench_issues rfl, ?_, rfl⟩
  · intro h; exact absurd h.1 (by decide)
  · unfold countsMet; decide

theorem witness_ThreadsEndAndMeet :
    (∀ g, IssuesS bench false g {} (inOf bench benchT [])) ∧
    (∃ t x, bench.dev.thr 0 = some t ∧ ({ t with cS := 1 } : Thread).exited = false ∧
      ((benchDev { benchT with cS := 1 }).endThread 100 0).thr 0 = some x) ∧
    (∃ t, (inOf bench benchT []).dev.thr 0 = some t ∧ t.exited = false ∧ t.cL = 0) ∧
    (let y := { benchT with cL := 2 }
     let s := sys (benchDev y)
     IssuesS s false .always {} (inOf s y []) ∧ ∃ t, (inOf s y []).dev.thr 0 = some t ∧ t.exited = false ∧ t.cL ≠ 0) :=
  ⟨fun _ => bench_issues rfl, ⟨_, _, rfl, rfl, rfl⟩, ⟨_, rfl, rfl, rfl⟩,
    calm_issues rfl rfl ⟨rfl, rfl, rfl, rfl⟩ rfl rfl rfl (.inr rfl), ⟨_, rfl, rfl, by decide⟩⟩

theorem parts_ok {α : Type} {p : Parts α} {f : List (PKey × List α) → Bool} (h : (match p with
    | .ok l => f l
    | _ => false) = true) : ∃ l, p = .ok l ∧ f l = true := by
  cases p with
  | ok l => exact ⟨l, rfl, h⟩
  | ask d => cases h
  | hole p => cases h

theorem all_of {w : Fwd} (h : (match w with
    | .all _ => true
    | _ => false) = true) : ∃ f, w = .all f := by
  cases w with
  | all f => exact ⟨f, rfl⟩
  | none => cases h
  | hold => cases h

/-- x5's address reaches its place for an access kind. -/
theorem bench_reaches {k : AccK} {va : Word} {n p : Nat} (i : In) (h : (va.toNat % n = 0 ∧ formOk va = true ∧
    i.base.translate i.core i.t.ctx va k = some (benchLeaf, p)) ∧ keyOk p = true) : Reaches i k va n benchLeaf p :=
  ⟨h.1.1, h.1.2.1, h.1.2.2, h.2⟩

/-- A bench thread whose k0 is zero. -/
def offT : Thread := { benchT with regs := { benchRegs with k := benchRegs.k.set 0 0 } }

/-- The parts of `LDAQ x3, [x5]`. -/
def ldaqEls : List VEl := [⟨(inOf bench benchT [5]).ea 0, 0, 64, true, 0, .x 3⟩]

/-- A bench whose store buffer holds a store to x5's dword. -/
def storedDev : Dev := (benchDev benchT).setCore 0 { benchCore with
  sb := [⟨⟨0, 0, 0, 0, 0, 0⟩, .store ((List.range 8).map (fun k => ⟨0x10100 + k, 0xFF, 7⟩)), 0x10100, 0x10100, .core, false,
    false, 0x11, 0, .travelling, 0, [], false, 0, false⟩] }

theorem witness_LoadsIssue :
    (∃ u pre chk acc pcs, AccessForm (.ldaq ⟨.always, 3, 5, .d, .sx, .mod, 0⟩) false .always u pre .glob chk acc ∧
      Issues bench false false .always u pre (inOf bench benchT [5]) ∧
      addrCheck .glob 0 (chk (inOf bench benchT [5])) = none ∧
      acc (inOf bench benchT [5]) = .load .mod true false 0x12 0 { px := some 3 } ldaqEls ∧
      LoadReady (inOf bench benchT [5]) ldaqEls pcs ∧ pcs ≠ [] ∧
      (inOf bench benchT [5]).missRoom ((pcs.filter (fun p => ((inOf bench benchT [5]).l1Hit .mod pcs p).isNone)).map
        (fun p => p.1.line)) = true ∧
      ((inOf bench benchT [5]).base.core 0).forward (pcs.flatMap Prod.snd) = .none) ∧
    (∃ u pre chk acc els, AccessForm (.vld ⟨.k 0, 0, 5, 0, .f32, .glob, .core, false, 0⟩) true (.k 0) u pre .glob chk acc ∧
      Issues (sys (benchDev offT)) false true (.k 0) u pre (inOf (sys (benchDev offT)) offT [5]) ∧
      addrCheck .glob 0 (chk (inOf (sys (benchDev offT)) offT [5])) = none ∧
      acc (inOf (sys (benchDev offT)) offT [5]) = .load .core false true 0x14 0 { pv := some 0, fmt := .f32 } els ∧
      LoadReady (inOf (sys (benchDev offT)) offT [5]) els []) ∧
    (∃ pcs f, LoadReady (inOf (sys storedDev) benchT [5]) ldaqEls pcs ∧
      (storedDev.core 0).forward (pcs.flatMap Prod.snd) = .all f) ∧
    (∃ u pre chk acc els d, AccessForm (.ld ⟨.always, 3, 7, .d, .sx, .nich, .core, 3840 - 8⟩) false .always u pre .nich chk acc ∧
      Issues bench false false .always u pre (inOf bench benchT [7]) ∧
      addrCheck .nich (bench.dev.window 0 benchT .nich).2 (chk (inOf bench benchT [7])) = none ∧
      acc (inOf bench benchT [7]) = .load .core false false 0x10 0 {} els ∧ (inOf bench benchT [7]).ordered true = true ∧
      (∀ e ∈ els, ∀ b ∈ (e.at ((bench.dev.window 0 benchT .nich).1 + e.va.toNat)).bytes,
        bench.dev.badWords.contains (b.1 / 8 * 8) = false) ∧
      (inOf bench benchT [7]).near (bench.dev.window 0 benchT .nich).1 (((els.map (fun e =>
        e.at ((bench.dev.window 0 benchT .nich).1 + e.va.toNat))).flatMap El.bytes).map Prod.fst) = some d) := by
  refine ⟨?_, ?_, ?_, ⟨_, _, _, _, _, _, .ld _, bench_issues rfl, by decide +kernel, rfl, rfl, fun _ _ _ _ => rfl, rfl⟩⟩
  · obtain ⟨pcs, h, hf⟩ := parts_ok (p := (inOf bench benchT [5]).parts .read VEl.va VEl.at ldaqEls [])
      (f := fun l => !l.isEmpty && (inOf bench benchT [5]).missRoom
        ((l.filter (fun p => ((inOf bench benchT [5]).l1Hit .mod l p).isNone)).map (fun p => p.1.line))) (by decide +kernel)
    simp only [Bool.and_eq_true, Bool.not_eq_true', List.isEmpty_eq_false_iff] at hf
    exact ⟨_, _, _, _, pcs, .ldaq _, bench_issues rfl, by decide +kernel, rfl, ⟨rfl, h, rfl⟩, hf.1, hf.2, rfl⟩
  · obtain ⟨pcs, h, hf⟩ := parts_ok (p := (inOf (sys (benchDev offT)) offT [5]).parts .read VEl.va VEl.at
        (imageLoad (inOf (sys (benchDev offT)) offT [5]) ⟨.k 0, 0, 5, 0, .f32, .glob, .core, false, 0⟩) [])
      (f := List.isEmpty) (by decide +kernel)
    cases List.isEmpty_iff.mp hf
    exact ⟨_, _, _, _, _, .vld _, calm_issues rfl rfl ⟨rfl, rfl, rfl, rfl⟩ rfl (by decide +kernel) rfl (.inl rfl), by decide +kernel, rfl,
      ⟨rfl, h, rfl⟩⟩
  · obtain ⟨pcs, h, hf⟩ := parts_ok (p := (inOf (sys storedDev) benchT [5]).parts .read VEl.va VEl.at ldaqEls [])
      (f := fun l => match (storedDev.core 0).forward (l.flatMap Prod.snd) with
          | .all _ => true
          | _ => false) (by decide +kernel)
    obtain ⟨f, hff⟩ := all_of hf
    exact ⟨pcs, f, ⟨by decide +kernel, h, by decide +kernel⟩, hff⟩

/-- A store of one byte to x5's address, a vector store with no lane on, and a store to the niche's last byte. -/
theorem witness_StoresIssue :
    (∃ u pre chk acc bs pcs, AccessForm (.st ⟨.always, 6, 5, .b, .glob, .core, 0⟩) false .always u pre .glob chk acc ∧
      Issues bench false false .always u pre (inOf bench benchT [5, 6]) ∧
      addrCheck .glob 0 (chk (inOf bench benchT [5, 6])) = none ∧
      acc (inOf bench benchT [5, 6]) = .store .core false false 0x11 0 bs [] ∧ (inOf bench benchT [5, 6]).ordered false = true ∧
      (inOf bench benchT [5, 6]).parts .write VB.va VB.at bs [] = .ok pcs ∧ pcs ≠ [] ∧
      (inOf bench benchT [5, 6]).canPost pcs.length) ∧
    (inOf bench benchT [5]).canPost 0 ∧
    (∃ u pre chk acc bs d, AccessForm (.st ⟨.always, 6, 7, .b, .nich, .core, 3839⟩) false .always u pre .nich chk acc ∧
      Issues bench false false .always u pre (inOf bench benchT [7, 6]) ∧
      addrCheck .nich (bench.dev.window 0 benchT .nich).2 (chk (inOf bench benchT [7, 6])) = none ∧
      acc (inOf bench benchT [7, 6]) = .store .core false false 0x11 0 bs [] ∧ (inOf bench benchT [7, 6]).ordered false = true ∧
      (inOf bench benchT [7, 6]).room false 1 = true ∧
      bench.dev.storesBelow 0 0 benchT.fenceRel = false ∧
      (inOf bench benchT [7, 6]).near (bench.dev.window 0 benchT .nich).1 (bs.map (fun b =>
        (bench.dev.window 0 benchT .nich).1 + b.va.toNat)) = some d ∧ bench.Inv) := by
  refine ⟨?_, ⟨rfl, rfl⟩, ⟨_, _, _, _, _, _, .st _, bench_issues rfl, by decide +kernel, rfl, rfl, rfl, rfl, rfl, rfl⟩⟩
  obtain ⟨pcs, h, hf⟩ := parts_ok (p := (inOf bench benchT [5, 6]).parts .write VB.va VB.at
      (vbytes ((inOf bench benchT [5, 6]).ea 0) 1 (inOf bench benchT [5, 6]).b.toNat) [])
    (f := fun l => !l.isEmpty && (inOf bench benchT [5, 6]).sbRoom l.length) (by decide +kernel)
  simp only [Bool.and_eq_true, Bool.not_eq_true', List.isEmpty_eq_false_iff] at hf
  exact ⟨_, _, _, _, _, pcs, .st _, bench_issues rfl, by decide +kernel, rfl, rfl, h, hf.1, rfl, hf.2⟩

/-- A posted head that passes its checks on the bench. -/
def posts (x : Instr) (xs : List Reg) : Prop :=
  ∃ g u pre c f, PostForm x g u pre c f ∧ u.xs = xs ∧ Issues bench false false g u pre (inOf bench benchT u.xs) ∧
    c (inOf bench benchT xs) ∧ (inOf bench benchT xs).ordered false = true ∧ (inOf bench benchT xs).canPost 1

theorem witness_PostedHeads :
    posts (.atomx ⟨.always, 5, 6, false, .mod⟩) [5, 6] ∧ posts (.tagst ⟨.always, 5, 6⟩) [5, 6] ∧
    posts (.psend ⟨.always, 14, 7, .reg 6⟩) [14, 7, 6] ∧ posts (.bst ⟨.always, 19, 5, 6, 0⟩) [19, 5, 6] ∧
    posts (.bstVector ⟨.always, 19, 5, 0, .w, 0⟩) [19, 5] := by
  refine ⟨⟨_, _, _, _, _, .atomx _ benchLeaf 0x10100, rfl, bench_issues rfl, bench_reaches _ (by decide +kernel),
      rfl, ⟨rfl, rfl⟩⟩,
    ⟨_, _, _, _, _, .tagst _ benchLeaf 0x10100, rfl, bench_issues rfl, bench_reaches _ (by decide +kernel),
      rfl, ⟨rfl, rfl⟩⟩,
    ⟨_, _, _, _, _, .psend _, rfl, bench_issues rfl, by decide +kernel, rfl, ⟨rfl, rfl⟩⟩,
    ⟨_, _, _, _, _, .bst _ benchLeaf 0x10100, rfl, bench_issues rfl,
      ⟨by decide +kernel, bench_reaches _ (by decide +kernel)⟩, rfl, ⟨rfl, rfl⟩⟩,
    ⟨_, _, _, _, _, .bstVector _ benchLeaf 0x10100 _ rfl, rfl, bench_issues (by decide +kernel),
      ⟨by decide +kernel, bench_reaches _ (by decide +kernel)⟩, rfl, ⟨rfl, rfl⟩⟩⟩

/-- A bench whose page is host memory. -/
def hostDev : Dev := (benchDev benchT).setCore 0 { benchCore with tlb := [⟨0, 1, false, 0xFE0000000001000F⟩] }

theorem witness_HomeReads :
    (∃ c e f, HomeLoadForm (.bld ⟨.always, 3, 5, 1, 8⟩) false .always { xs := [5], late := some 3, kd := [kpLo 1, kpHi 1] } c e f ∧
      IssuesS bench false .always { xs := [5], late := some 3, kd := [kpLo 1, kpHi 1] } (inOf bench benchT [5]) ∧
      c (inOf bench benchT [5]) ∧ (inOf bench benchT [5]).ordered true = true ∧
      (inOf bench benchT [5]).canLoad (f (inOf bench benchT [5])).key.line = true) ∧
    (∃ c e f, HomeLoadForm (.tagld ⟨.always, 3, 5⟩) false .always { xs := [5], late := some 3 } c e f ∧
      c (inOf bench benchT [5]) ∧ (inOf bench benchT [5]).canLoad (f (inOf bench benchT [5])).key.line = true) ∧
    (∃ c e f, HomeLoadForm (.mcsld ⟨.always, 3, 5⟩) true .always { xs := [5], late := some 3 } c e f ∧
      c (inOf (sys hostDev) benchT [5]) ∧
      (inOf (sys hostDev) benchT [5]).canLoad (f (inOf (sys hostDev) benchT [5])).key.line = true) ∧
    (IssuesS bench false .always { xs := [5, 6, 7], late := some 3 } (inOf bench benchT [5, 6, 7]) ∧
      Reaches (inOf bench benchT [5, 6, 7]) .atomic ((inOf bench benchT [5, 6, 7]).a + (0 : BitVec 32).signExtend 64) 8
        benchLeaf 0x10100 ∧
      (inOf bench benchT [5, 6, 7]).room true 1 = true ∧ (inOf bench benchT [5, 6, 7]).sbRoom 1 = true ∧
      bench.dev.missUsed 0 < 48) := by
  refine ⟨⟨_, _, _, .bld _ benchLeaf 0x10108, bench_issues rfl, bench_reaches _ (by decide +kernel), rfl,
      by decide +kernel⟩,
    ⟨_, _, _, .tagld _ benchLeaf 0x10100, ⟨bench_reaches _ (by decide +kernel), fun _ he => by cases he⟩, by decide +kernel⟩,
    ⟨_, _, _, .mcsld _ 0xFE0000000001000F 0xFE0000000010100, ⟨⟨by decide +kernel, by decide +kernel, by decide +kernel,
      by decide +kernel⟩, by decide +kernel, .inr (by decide)⟩, by decide +kernel⟩,
    bench_issues rfl, bench_reaches _ (by decide +kernel), rfl, rfl, by decide +kernel⟩

/-- PREF: an address of a bad form, a prefetch into the grotto, and a line that can be asked for. -/
theorem witness_Prefetches : IssuesS bench false .always { xs := [5] } (inOf bench benchT [5]) ∧
    formOk ((inOf bench benchT [11]).ea 0) = false ∧
    Reaches (inOf bench benchT [5]) .read ((inOf bench benchT [5]).ea 0) 1 benchLeaf 0x10100 ∧
    ((bench.dev.core 0).copy (lineOf 0x10100) 100).isSome = false ∧
    (inOf bench benchT [5]).missRoom [lineOf 0x10100] = true :=
  ⟨bench_issues rfl, by decide +kernel, bench_reaches _ (by decide +kernel), by decide +kernel, by decide +kernel⟩

/-- A head that asks for a reply word, on the bench. -/
def asksOn (s : State) (t : Thread) (x : Instr) (xs : List Reg) : Prop :=
  ∃ p g u c r q, RequestForm x p g u c r q ∧ u.xs = xs ∧ IssuesS s p g u (inOf s t u.xs) ∧ c (inOf s t xs) ∧
    (inOf s t xs).canL = true

/-- RequestsSent, first clause: every form, with operands that pass its checks. -/
theorem witness_requests_leases :
    asksOn bench benchT (.lrenew ⟨.always, 3, 11, .imm 0x801⟩) [11] ∧ asksOn bench benchT (.llife ⟨.always, 3, 12⟩) [12] ∧
    asksOn bench benchT (.ltether ⟨.always, 3, 11, 15⟩) [11, 15] ∧ asksOn bench benchT (.linfo ⟨.always, 3, 20, true⟩) [20] ∧
    asksOn bench benchT (.lheld ⟨.always, 3, 12⟩) [12] ∧ asksOn bench benchT (.barv ⟨.always, 3, 13, .clus⟩) [13] ∧
    asksOn bench benchT (.badd ⟨.always, 3, 13, .reg 7, .clus⟩) [13, 7] ∧
    asksOn bench benchT (.popen ⟨.always, 3, 11, 0⟩) [11] ∧ asksOn bench benchT (.popen ⟨.always, 3, 11, 6⟩) [11, 6] ∧
    asksOn bench benchT (.gate ⟨.always, 3, 17, 6, 7⟩) [17, 6, 7] ∧ asksOn bench benchT (.alloc ⟨.always, 3, 5⟩) [5] ∧
    (let t := { benchT with regs := benchRegs.wx 9 0x10000 }
     asksOn (sys (benchDev t)) t (.binit ⟨.always, 3, 9, .imm 1⟩) [9]) :=
  ⟨⟨_, _, _, _, _, _, .lrenew _ 256, rfl, bench_issues rfl, ⟨by unfold goodHandle; decide +kernel, by decide +kernel⟩, rfl⟩,
    ⟨_, _, _, _, _, _, .llife _, rfl, bench_issues rfl, by unfold goodHandle; decide +kernel, rfl⟩,
    ⟨_, _, _, _, _, _, .ltether _, rfl, bench_issues rfl, by unfold goodHandle; decide +kernel, rfl⟩,
    ⟨_, _, _, _, _, _, .linfo _, rfl, bench_issues rfl, by unfold goodHandle; decide +kernel, rfl⟩,
    ⟨_, _, _, _, _, _, .lheld _, rfl, bench_issues rfl, by unfold goodHandle; decide +kernel, rfl⟩,
    ⟨_, _, _, _, _, _, .barv _, rfl, bench_issues rfl, by unfold goodHandle; decide +kernel, rfl⟩,
    ⟨_, _, _, _, _, _, .badd _, rfl, bench_issues rfl, by unfold goodHandle; decide +kernel, rfl⟩,
    ⟨_, _, _, _, _, _, .popen _ none, rfl, bench_issues rfl, by unfold goodHandle; decide +kernel, rfl⟩,
    ⟨_, _, _, _, _, _, .popen _ (some 256), rfl, bench_issues rfl, by unfold goodHandle; decide +kernel, rfl⟩,
    ⟨_, _, _, _, _, _, .gate _, rfl, bench_issues rfl, by unfold goodHandle; decide +kernel, rfl⟩,
    ⟨_, _, _, _, _, _, .alloc _ benchLeaf benchLeaf 0x10100, rfl, bench_issues rfl, ⟨bench_reaches _ (by decide +kernel),
      bench_reaches _ (by decide +kernel)⟩, rfl⟩,
    ⟨_, _, _, _, _, _, .binit _ 256, rfl, calm_issues rfl rfl ⟨rfl, rfl, rfl, rfl⟩ rfl rfl rfl (.inr rfl), by decide +kernel, rfl⟩⟩

theorem witness_requests_system :
    asksOn bench benchT (.bopen ⟨.always, 3, 5, .imm 0x00010001⟩) [5] ∧ asksOn bench benchT (.bseal ⟨.always, 3, 19⟩) [19] ∧
    asksOn bench benchT (.bchk ⟨.always, 3, 5, .imm 63⟩) [5] ∧ asksOn bench benchT (.launch ⟨.always, 3, 5⟩) [5] ∧
    asksOn bench benchT (.point ⟨.always, 3, 20, 0⟩) [20, 0] ∧ asksOn bench benchT (.frrd ⟨.always, 3, 20, .imm 0⟩) [20] ∧
    asksOn bench benchT (.amsg ⟨.always, 3, 0, 5, 6⟩) [0, 5, 6, 7] ∧
    asksOn bench benchT (.tlbi ⟨.always, 3, 5, .va, 42⟩) [5] ∧ asksOn bench benchT (.tlbi ⟨.always, 3, 0, .tent, 255⟩) [] ∧
    asksOn bench benchT (.wakeRec ⟨.always, 3, 6⟩) [6] ∧ asksOn bench benchT (.wakeFail ⟨.always, 3, 6⟩) [6] ∧
    asksOn bench benchT (.wakeSlot ⟨.always, 3, 8⟩) [8] ∧ asksOn bench benchT (.wakeStop ⟨.always, 3, 8⟩) [8] ∧
    asksOn bench benchT (.mlease ⟨.always, 3, .imm 1⟩) [] ∧ asksOn bench benchT (.mstat ⟨.always, 3, .arr⟩) [] ∧
    asksOn bench benchT (.mcsstCommit ⟨.always, 3, 5, 6⟩) [5, 6] ∧
    asksOn bench benchT (.ctxsv ⟨.always, 3, 5, 1⟩) [5] := by
  refine ⟨⟨_, _, _, _, _, _, .bopen _ benchLeaf 0x10100 256 256, rfl, bench_issues rfl,
      ⟨bench_reaches _ (by decide +kernel), by decide +kernel, by decide +kernel⟩, rfl⟩,
    ⟨_, _, _, _, _, _, .bseal _, rfl, bench_issues rfl, by unfold goodHandle; decide +kernel, rfl⟩,
    ⟨_, _, _, _, _, _, .bchk _ benchLeaf 0x10100, rfl, bench_issues rfl,
      ⟨bench_reaches _ (by decide +kernel), by decide +kernel⟩, rfl⟩,
    ⟨_, _, _, _, _, _, .launch _ benchLeaf 0x10100, rfl, bench_issues rfl, bench_reaches _ (by decide +kernel), rfl⟩,
    ⟨_, _, _, _, _, _, .point _, rfl, bench_issues rfl, by unfold goodHandle; decide +kernel, rfl⟩,
    ⟨_, _, _, _, _, _, .frrd _, rfl, bench_issues rfl, by unfold goodHandle; decide +kernel, rfl⟩,
    ⟨_, _, _, _, _, _, .amsg _, rfl, bench_issues rfl, by decide +kernel, rfl⟩,
    ⟨_, _, _, _, _, _, .tlbi _, rfl, bench_issues rfl, by decide, rfl⟩,
    ⟨_, _, _, _, _, _, .tlbi _, rfl, bench_issues rfl, by decide, rfl⟩,
    ⟨_, _, _, _, _, _, .wakeRec _, rfl, bench_issues rfl, trivial, rfl⟩,
    ⟨_, _, _, _, _, _, .wakeFail _, rfl, bench_issues rfl, trivial, rfl⟩,
    ⟨_, _, _, _, _, _, .wakeSlot _, rfl, bench_issues rfl, by decide +kernel, rfl⟩,
    ⟨_, _, _, _, _, _, .wakeStop _, rfl, bench_issues rfl, by decide +kernel, rfl⟩,
    ⟨_, _, _, _, _, _, .mlease _ 256, rfl, bench_issues rfl, by decide +kernel, rfl⟩,
    ⟨_, _, _, _, _, _, .mstat _, rfl, bench_issues rfl, trivial, rfl⟩,
    ⟨_, _, _, _, _, _, .mcsstCommit _, rfl, bench_issues rfl, ⟨rfl, rfl⟩, rfl⟩, ?_⟩
  obtain ⟨l, h, -⟩ := parts_ok (p := (inOf bench benchT [5]).imageLines .write) (f := fun _ => true) (by decide +kernel)
  exact ⟨_, _, _, _, _, _, .ctxsv _ l, rfl, bench_issues rfl, ⟨by decide, by decide +kernel, h⟩, rfl⟩

/-- A head whose request the core itself refuses, on the bench. -/
def refusedOn (s : State) (t : Thread) (x : Instr) (xs : List Reg) (cause : Nat) : Prop :=
  ∃ g u c r, CoreRefusalForm x g u c r cause ∧ u.xs = xs ∧ IssuesS s false g u (inOf s t u.xs) ∧ c (inOf s t xs)

/-- RequestsSent, last clause: every form. -/
theorem witness_core_refusals :
    refusedOn bench benchT (.lrenew ⟨.always, 3, 11, .reg 0⟩) [11, 0] Cause.durationZero ∧
    refusedOn bench benchT (.lock ⟨.always, 3, 5, 0, 0, .core⟩) [5, 0] Cause.durationZero ∧
    refusedOn bench benchT (.popen ⟨.always, 3, 11, 1⟩) [11, 1] Cause.durationZero ∧
    refusedOn bench benchT (.bopen ⟨.always, 3, 5, .imm 0x00010000⟩) [5] Cause.durationZero ∧
    refusedOn bench benchT (.bopen ⟨.always, 3, 5, .imm 0x00000001⟩) [5] Cause.durationZero ∧
    refusedOn bench benchT (.mlease ⟨.always, 3, .reg 0⟩) [0] Cause.durationZero ∧
    (let t := { benchT with regs := (benchRegs.wx 9 0x10000).wx 10 0x20000 }
     refusedOn (sys (benchDev t)) t (.binit ⟨.always, 3, 9, .reg 0⟩) [9, 0] Cause.durationZero ∧
     refusedOn (sys (benchDev t)) t (.binit ⟨.always, 3, 10, .imm 1⟩) [10] Cause.barrierCount) :=
  ⟨⟨_, _, _, _, .lrenew _, rfl, bench_issues rfl, by unfold goodHandle; decide +kernel, by decide +kernel⟩,
    ⟨_, _, _, _, .lock _ benchLeaf 0x10100, rfl, bench_issues rfl, bench_reaches _ (by decide +kernel), by decide +kernel⟩,
    ⟨_, _, _, _, .popen _, rfl, bench_issues rfl, by unfold goodHandle; decide +kernel⟩,
    ⟨_, _, _, _, .bopen _ benchLeaf 0x10100, rfl, bench_issues rfl, bench_reaches _ (by decide +kernel), by decide +kernel⟩,
    ⟨_, _, _, _, .bopen _ benchLeaf 0x10100, rfl, bench_issues rfl, bench_reaches _ (by decide +kernel), by decide +kernel⟩,
    ⟨_, _, _, _, .mlease _, rfl, bench_issues rfl, by decide +kernel⟩,
    ⟨_, _, _, _, .binit _, rfl, calm_issues rfl rfl ⟨rfl, rfl, rfl, rfl⟩ rfl rfl rfl (.inr rfl), by decide +kernel⟩,
    ⟨_, _, _, _, .binitCount _ 256, rfl, calm_issues rfl rfl ⟨rfl, rfl, rfl, rfl⟩ rfl rfl rfl (.inr rfl), by decide +kernel⟩⟩

/-- A thread with a line of host memory in its set. -/
def setT : Thread := { benchT with mcsLines := [lineOf 0xFE0000000010100], mcsSince := some 90 }
def setDev : Dev := { hostDev with threads := [(0, setT)] }

theorem witness_RequestsSent :
    asksOn bench benchT (.llife ⟨.always, 3, 12⟩) [12] ∧
    (IssuesS bench false .always { xs := [5, 6], late := some 3 } (inOf bench benchT [5, 6]) ∧
      Reaches (inOf bench benchT [5, 6]) .read (inOf bench benchT [5, 6]).a 8 benchLeaf 0x10100 ∧
      duration ((inOf bench benchT [5, 6]).b.toNat % 65536) = some 256 ∧ (inOf bench benchT [5, 6]).canL = true) ∧
    (IssuesS bench false .always { xs := [13, 0], late := some 3 } (inOf bench benchT [13, 0]) ∧
      hKind (inOf bench benchT [13, 0]).a = 3 ∧ benchT.acq = [] ∧ (inOf bench benchT [13, 0]).canL = true) ∧
    (∀ g, IssuesS (sys setDev) true g { xs := [5, 6] } (inOf (sys setDev) setT [5, 6])) ∧
    (∀ g, IssuesS (sys setDev) true g { xs := [5, 6], late := some 3 } (inOf (sys setDev) setT [5, 6])) ∧
    Reaches (inOf (sys setDev) setT [5, 6]) .write (inOf (sys setDev) setT [5, 6]).a 8 0xFE0000000001000F 0xFE0000000010100 ∧
    (inOf (sys setDev) setT [5, 6]).ordered false = true ∧ setT.mcsLines ≠ [] ∧ setT.mcsLines.contains (lineOf 0xFE0000000010100) = true ∧ setT.mcsStaged.length < 16 ∧
    (inOf (sys setDev) setT [5, 6]).canL = true := by
  have hg : ∀ g, guardTrue g setT = true := fun g => bench_guard g
  exact ⟨witness_requests_leases.2.1, ⟨bench_issues rfl, bench_reaches _ (by decide +kernel), by decide +kernel, rfl⟩,
    ⟨bench_issues rfl, by decide +kernel, rfl, rfl⟩,
    fun g => calm_issues rfl rfl ⟨rfl, rfl, rfl, rfl⟩ rfl rfl rfl (.inr (hg g)),
    fun g => calm_issues rfl rfl ⟨rfl, rfl, rfl, rfl⟩ rfl rfl rfl (.inr (hg g)),
    ⟨by decide +kernel, by decide +kernel, by decide +kernel, by decide +kernel⟩, rfl, by decide +kernel, by decide +kernel,
    by decide +kernel, rfl⟩

/-- A thread with a result in each FIFO, and operands for MDRAIN and CFEED. -/
def fifoT : Thread := { benchT with fifo0 := [5], fifo1 := [7], regs := (benchRegs.wx 9 0x58000000).wx 10 0x33 }
def fifoS : State := sys (benchDev fifoT)

theorem fifo_issues {p : Bool} {xs : List Reg} {xd : Option Reg} :
    IssuesS fifoS p .always { xs := xs, xd := xd } (inOf fifoS fifoT xs) :=
  calm_issues (u := { xs := xs, xd := xd }) rfl rfl ⟨rfl, rfl, rfl, rfl⟩ rfl rfl rfl (.inr rfl)

/-- CommandsSent: every form. -/
theorem witness_CommandsSent :
    (fifoT.acq = [] ∧ fifoS.dev.arrayRoom 0 = true ∧ fifoT.cM < 255 ∧ fifoT.cC < 255 ∧
      ∀ e, e < 2 → (inOf fifoS fifoT [5]).engineRoom e = true) ∧
    (∀ p xs xd, IssuesS fifoS p .always { xs := xs, xd := xd } (inOf fifoS fifoT xs)) ∧
    (∃ u c q, ArrayForm (.mlay ⟨.always, 5, 5⟩) .always u c q ∧ c (inOf fifoS fifoT [5])) ∧
    (∃ u c q, ArrayForm (.mzero ⟨.always, 7⟩) .always u c q ∧ c (inOf fifoS fifoT [])) ∧
    (∃ u c q, ArrayForm (.mma ⟨.always, 0⟩) .always u c q ∧ c (inOf fifoS fifoT [])) ∧
    (∃ u c q, ArrayForm (.mdrain ⟨.always, 0, 9, 6⟩) .always u c q ∧ c (inOf fifoS fifoT [9, 6])) ∧
    (∃ u c e q, EngineForm (.cxfer ⟨.always, 5, 7, .reg 6, .glob, .nich, 0⟩) false .always u c e q ∧
      c (inOf fifoS fifoT [5, 7, 6])) ∧
    (∃ u c e q, EngineForm (.cxferPack ⟨.always, 0, 0, 9, 1⟩) true .always u c e q ∧
      c (inOf fifoS { fifoT with regs := benchRegs.wx 9 0x10000 } [0, 0, 9])) ∧
    (∃ u c e q, EngineForm (.cxferFpack ⟨.always, 5, 5, .imm 0xFFFFFFFF, 1⟩) true .always u c e q ∧
      c (inOf fifoS fifoT [5, 5])) ∧
    (∃ u c e q, EngineForm (.cfeed ⟨.always, .reg 10⟩) false .always u c e q ∧ c (inOf fifoS fifoT [10])) ∧
    fifoT.fifo 0 = [5] ∧ fifoT.fifo 1 = [7] :=
  ⟨⟨rfl, rfl, by decide +kernel, by decide +kernel, by decide +kernel⟩, fun _ _ _ => fifo_issues,
    ⟨_, _, _, .mlay _ benchLeaf 0x10100, bench_reaches _ (by decide +kernel)⟩, ⟨_, _, _, .mzero _, trivial⟩,
    ⟨_, _, _, .mma _, trivial⟩, ⟨_, _, _, .mdrain _, by decide +kernel⟩,
    ⟨_, _, _, _, .cxfer _, by unfold In.rangeOk; decide +kernel⟩, ⟨_, _, _, _, .cxferPack _, by decide +kernel⟩,
    ⟨_, _, _, _, .cxferFpack _, by decide +kernel⟩, ⟨_, _, _, _, .cfeed _ _ rfl, by decide +kernel⟩, rfl, rfl⟩

/-- A lane head that reaches its body on the bench, the datapath free. -/
def lanesOn (x : Instr) : Prop :=
  ∃ g u pre l, LaneForm x g u pre l ∧ IssuesV bench g u pre (inOf bench benchT u.xs) ∧ (inOf bench benchT u.xs).vfree = true

theorem witness_lanes_arith :
    lanesOn (.vadd ⟨.k 4, 14, 0, 1, .f32, .rup⟩) ∧
    lanesOn (.vsub ⟨.always, 14, 3, 4, .s32, .fm⟩) ∧
    lanesOn (.vmul ⟨.always, 14, 5, 5, .n16, .fm⟩) ∧
    lanesOn (.vfma ⟨.always, 2, 0, 1, 2, .f32, .sr⟩) ∧
    lanesOn (.vfms ⟨.always, 2, 0, 1, 2, .f32, .fm⟩) ∧
    lanesOn (.vmin ⟨.always, 14, 0, 1, .f32⟩) ∧
    lanesOn (.vmax ⟨.always, 14, 10, 10, .n8⟩) ∧
    lanesOn (.vabs ⟨.always, 14, 11, .s16⟩) ∧
    lanesOn (.vneg ⟨.always, 14, 12, .f16⟩) ∧
    lanesOn (.vdiv ⟨.always, 14, 0, 1, .f32, .rne⟩) ∧
    lanesOn (.vsqrt ⟨.always, 14, 0, .f32, .rne⟩) ∧
    lanesOn (.vrsqrt ⟨.always, 14, 0, .f32⟩) ∧
    lanesOn (.vrcp ⟨.always, 14, 12, .f16⟩) ∧
    lanesOn (.vexp2 ⟨.always, 14, 7, .bf16⟩) ∧
    lanesOn (.vlog2 ⟨.always, 14, 0, .f32⟩) :=
  ⟨⟨_, _, _, _, .vadd _, bench_issues (by decide +kernel), by decide +kernel⟩,
    ⟨_, _, _, _, .vsub _, bench_issues (by decide +kernel), by decide +kernel⟩,
    ⟨_, _, _, _, .vmul _, bench_issues (by decide +kernel), by decide +kernel⟩,
    ⟨_, _, _, _, .vfma _, bench_issues (by decide +kernel), by decide +kernel⟩,
    ⟨_, _, _, _, .vfms _, bench_issues (by decide +kernel), by decide +kernel⟩,
    ⟨_, _, _, _, .vmin _, bench_issues (by decide +kernel), by decide +kernel⟩,
    ⟨_, _, _, _, .vmax _, bench_issues (by decide +kernel), by decide +kernel⟩,
    ⟨_, _, _, _, .vabs _, bench_issues (by decide +kernel), by decide +kernel⟩,
    ⟨_, _, _, _, .vneg _, bench_issues (by decide +kernel), by decide +kernel⟩,
    ⟨_, _, _, _, .vdiv _, bench_issues (by decide +kernel), by decide +kernel⟩,
    ⟨_, _, _, _, .vsqrt _, bench_issues (by decide +kernel), by decide +kernel⟩,
    ⟨_, _, _, _, .vrsqrt _, bench_issues (by decide +kernel), by decide +kernel⟩,
    ⟨_, _, _, _, .vrcp _, bench_issues (by decide +kernel), by decide +kernel⟩,
    ⟨_, _, _, _, .vexp2 _, bench_issues (by decide +kernel), by decide +kernel⟩,
    ⟨_, _, _, _, .vlog2 _, bench_issues (by decide +kernel), by decide +kernel⟩⟩

theorem witness_lanes_convert :
    lanesOn (.vcvt ⟨.always, 14, 0, .bf16, .f32, false, .rne⟩) ∧
    lanesOn (.vqnt ⟨.always, 14, 6, .e4m3, .bf16, 0, .rne⟩) ∧
    lanesOn (.vdqnt ⟨.always, 14, 8, 0, .bf16, .e4m3, .fm⟩) ∧
    lanesOn (.vwmul ⟨.always, 14, 10, 10, .n8, .fm⟩) ∧
    lanesOn (.vwadd ⟨.always, 14, 11, 11, .s16, .fm⟩) ∧
    lanesOn (.vdot4 ⟨.always, 13, 10, 10, .n8, .fm⟩) ∧
    lanesOn (.vreds ⟨.always, 14, 0, .f32, .rne⟩) ∧
    lanesOn (.vredm ⟨.always, 14, 3, .s32, true⟩) ∧
    lanesOn (.vscan ⟨.always, 14, 11, .s16, .fm⟩) :=
  ⟨⟨_, _, _, _, .vcvt _ _ _ rfl, bench_issues (by decide +kernel), by decide +kernel⟩,
    ⟨_, _, _, _, .vqnt _, bench_issues (by decide +kernel), by decide +kernel⟩,
    ⟨_, _, _, _, .vdqnt _, bench_issues (by decide +kernel), by decide +kernel⟩,
    ⟨_, _, _, _, .vwmul _ _ rfl, bench_issues (by decide +kernel), by decide +kernel⟩,
    ⟨_, _, _, _, .vwadd _ _ rfl, bench_issues (by decide +kernel), by decide +kernel⟩,
    ⟨_, _, _, _, .vdot4 _ _ _ rfl rfl, bench_issues (by decide +kernel), by decide +kernel⟩,
    ⟨_, _, _, _, .vreds _, bench_issues (by decide +kernel), by decide +kernel⟩,
    ⟨_, _, _, _, .vredm _, bench_issues (by decide +kernel), by decide +kernel⟩,
    ⟨_, _, _, _, .vscan _, bench_issues (by decide +kernel), by decide +kernel⟩⟩

theorem witness_lanes_move :
    lanesOn (.vsel ⟨.always, 14, 0, 1, 11, .f32⟩) ∧
    lanesOn (.vand ⟨.always, 14, 9, .imm 5, .sv4⟩) ∧
    lanesOn (.vor ⟨.always, 14, 0, .reg 3, .n32⟩) ∧
    lanesOn (.vxor ⟨.always, 14, 5, .reg 5, .n16⟩) ∧
    lanesOn (.vnot ⟨.always, 14, 8, .e4m3⟩) ∧
    lanesOn (.vshl ⟨.always, 14, 13, .imm 31, .n32⟩) ∧
    lanesOn (.vshr ⟨.always, 14, 5, .reg 5, .n16⟩) ∧
    lanesOn (.vsra ⟨.always, 14, 11, .imm 15, .s16⟩) ∧
    lanesOn (.viota ⟨.always, 14, 6, .n64, none⟩) ∧
    lanesOn (.vbcast ⟨.always, 14, .reg 6, .f64⟩) ∧
    lanesOn (.vslide ⟨.always, 14, 0, .imm 0xFFFFFFFF, .f32⟩) ∧
    lanesOn (.vperm ⟨.always, 14, 0, 5, .f32⟩) ∧
    lanesOn (.vzip ⟨.always, 14, 0, 1, true, .f32⟩) ∧
    lanesOn (.vunzip ⟨.always, 14, 0, 1, false, .f32⟩) ∧
    lanesOn (.vclass ⟨.always, 14, 7, .bf16⟩) ∧
    lanesOn (.vrand ⟨.k 9, 14, .n32⟩) :=
  ⟨⟨_, _, _, _, .vsel _, bench_issues (by decide +kernel), by decide +kernel⟩,
    ⟨_, _, _, _, .vand _, bench_issues (by decide +kernel), by decide +kernel⟩,
    ⟨_, _, _, _, .vor _, bench_issues (by decide +kernel), by decide +kernel⟩,
    ⟨_, _, _, _, .vxor _, bench_issues (by decide +kernel), by decide +kernel⟩,
    ⟨_, _, _, _, .vnot _, bench_issues (by decide +kernel), by decide +kernel⟩,
    ⟨_, _, _, _, .vshl _, bench_issues (by decide +kernel), by decide +kernel⟩,
    ⟨_, _, _, _, .vshr _, bench_issues (by decide +kernel), by decide +kernel⟩,
    ⟨_, _, _, _, .vsra _, bench_issues (by decide +kernel), by decide +kernel⟩,
    ⟨_, _, _, _, .viota _, bench_issues (by decide +kernel), by decide +kernel⟩,
    ⟨_, _, _, _, .vbcast _, bench_issues (by decide +kernel), by decide +kernel⟩,
    ⟨_, _, _, _, .vslide _, bench_issues (by decide +kernel), by decide +kernel⟩,
    ⟨_, _, _, _, .vperm _ _ rfl, bench_issues (by decide +kernel), by decide +kernel⟩,
    ⟨_, _, _, _, .vzip _, bench_issues (by decide +kernel), by decide +kernel⟩,
    ⟨_, _, _, _, .vunzip _, bench_issues (by decide +kernel), by decide +kernel⟩,
    ⟨_, _, _, _, .vclass _ _ rfl, bench_issues (by decide +kernel), by decide +kernel⟩,
    ⟨_, _, _, _, .vrand _, bench_issues (by decide +kernel), by decide +kernel⟩⟩


/-- LaneResults' other clauses: VCMP, VMOVS of the last element, VTAG with and without scales. -/
theorem witness_LaneResults :
    lanesOn (.vadd ⟨.k 4, 14, 0, 1, .f32, .rup⟩) ∧
    (IssuesV bench .always { vs := [0, 1], kd := [kpLo 5, kpHi 5] } (tagPre .always 128 [(0, .f32), (1, .f32)] [] .f32)
      (inOf bench benchT []) ∧ (inOf bench benchT []).vfree = true) ∧
    (IssuesV bench .always { xs := regOf (.imm 127), xd := some 3, vs := [0], off := idxOff .always [] (.imm 127) }
        (fun t => (tagPre .always 128 [(0, .f32)] [] .f32 t).or (idxPre bench.dev [] (.imm 127) 128 t))
        (inOf bench benchT []) ∧ (inOf bench benchT []).vfree = true) ∧
    (IssuesV bench (.k 3) { xs := 5 :: regOf (.reg 6), vs := [14], vd := [14], off := idxOff (.k 3) [5] (.reg 6) }
        (fun t => (if (t.regs.rv 14).tag = .n8 ∨ (t.regs.rv 14).tag = .none then none else some Cause.formatTag).or
          (idxPre bench.dev [5] (.reg 6) 512 t)) (inOf bench benchT [5, 6]) ∧ (inOf bench benchT [5, 6]).vfree = true) ∧
    (∀ vs vd, IssuesV bench .always (vUses vs vd) (fun _ => none) (inOf bench benchT [])) :=
  ⟨witness_lanes_arith.1, ⟨bench_issues (by decide +kernel), by decide +kernel⟩,
    ⟨bench_issues (by decide +kernel) (by decide +kernel), by decide +kernel⟩,
    ⟨bench_issues (by decide +kernel) (by decide +kernel), by decide +kernel⟩, fun _ _ => bench_issues rfl⟩

/-- A thread of a point of launch 0, and a second slot that is free; x9 a stamp for tenant 0, x10 the same later. -/
def sysT : Thread := { benchT with regs := (benchRegs.wx 9 100000).wx 10 200000 }
def sysDev : Dev := { benchDev sysT with
  blocks := [(0, { Block.single 0 0 0 0 0 0 0 with launch := some 0 })] }

theorem sys_issues {p : Bool} {xs : List Reg} {xd late : Option Reg} :
    IssuesS (sys sysDev) p .always { xs := xs, xd := xd, late := late } (inOf (sys sysDev) sysT xs) :=
  calm_issues (u := { xs := xs, xd := xd, late := late }) rfl rfl ⟨rfl, rfl, rfl, rfl⟩ rfl rfl rfl (.inr rfl)

/-- A stop of tenant 0 that has a stamp. -/
def stopDev : Dev := { sysDev with stops := [⟨0, 100000, none, false⟩] }

theorem witness_SystemHeads :
    (∀ p xs xd late, IssuesS (sys sysDev) p .always { xs := xs, xd := xd, late := late } (inOf (sys sysDev) sysT xs)) ∧
    (∃ v, SysValue .status v) ∧ ¬privReads .status ∧ privReads .rootcap ∧ privReads (.gstat 31) ∧
    (∃ c f, SysWrite .fmode c f ∧ c 1 ∧ c 6) ∧ (∃ c f, SysWrite .slotcfg c f ∧ c 0 ∧ c 2) ∧
    (inOf (sys sysDev) sysT [6]).a.toNat < 64 ∧ (inOf (sys sysDev) sysT [6]).a.toNat ≤ 100 ∧
    (∃ b, (inOf (sys sysDev) sysT []).dev.blk sysT.blk = some b ∧ b.launch.isSome = true ∧ b.doneSent = false ∧
      b.doneWait = none) ∧
    (stampAt 100 (inOf (sys sysDev) sysT [9]).a = 100000 ∧ sysDev.stops.any (fun x => x.tenant == 0) = false) ∧
    (IssuesS (sys stopDev) true .always { xs := [10] } (inOf (sys stopDev) sysT [10]) ∧
      stopDev.stops.find? (fun x => x.tenant == bits (inOf (sys stopDev) sysT [10]).a 56 8) = some ⟨0, 100000, none, false⟩ ∧
      100000 + 512 ≤ stampAt 100 (inOf (sys stopDev) sysT [10]).a) := by
  refine ⟨fun _ _ _ _ => sys_issues, ⟨_, .status⟩, ?_, .inr (.inr (.inr (.inr (.inr (.inr (.inl rfl)))))),
    .inr (.inr (.inr (.inr (.inr (.inr (.inr ⟨31, rfl⟩)))))), ⟨_, _, .fmode, by decide +kernel, by decide +kernel⟩,
    ⟨_, _, .slotcfg, by decide +kernel, by decide +kernel⟩, by decide +kernel, by decide +kernel,
    ⟨_, rfl, rfl, rfl, rfl⟩, ⟨by decide +kernel, rfl⟩,
    calm_issues rfl rfl ⟨rfl, rfl, rfl, rfl⟩ rfl rfl rfl (.inr rfl), by decide +kernel, by decide +kernel⟩
  rintro (h | h | h | h | h | h | h | ⟨n, h⟩) <;> cases h

/-- ChecksBeforeIssue: each clause's head and thread. -/
theorem witness_ChecksBeforeIssue :
    (let t := { benchT with pendX := 8 }
     HeadShape (benchDev t) (.jr ⟨.always, 3⟩) false false .always { xs := [3] } (fun _ => none) ∧
     (sys (benchDev t)).atIssue 0 t ∧ Uses.pending { xs := [3] } .always t = true) ∧
    (let t := { benchT with status := setModes benchT.status false false false }
     HeadShape (benchDev t) .halt true false .always {} (fun _ => none) ∧
     (sys (benchDev t)).atIssue 0 t ∧ Uses.pending {} .always t = false ∧ t.mode = false) ∧
    (HeadShape bench.dev (.vabs ⟨.always, 14, 3, .f32⟩) false true .always (vUses [3] [14]) (sameTags .always 14 [3] .f32) ∧
      bench.atIssue 0 benchT ∧ Uses.pending (vUses [3] [14]) .always benchT = false ∧
      sameTags .always 14 [3] .f32 benchT = some Cause.formatTag) ∧
    (let t := { benchT with slotcfg := 2 }
     HeadShape (benchDev t) (.jr ⟨.always, 24⟩) false false .always { xs := [24] } (fun _ => none) ∧
     (sys (benchDev t)).atIssue 0 t ∧ Uses.pending { xs := [24] } .always t = false ∧ Uses.misuse { xs := [24] } t.slotcfg = true) ∧
    (let t := { benchT with regs := { benchRegs with k := Vector.replicate 12 0 } }
     HeadShape (benchDev t) (.nopGuarded ⟨.k 3⟩) false false (.k 3) {} (fun _ => none) ∧
     (sys (benchDev t)).atIssue 0 t ∧ Uses.pending {} (.k 3) t = false ∧ guardTrue (.k 3) t = false) ∧
    (HeadShape (benchDev offT) (.vmovsGet ⟨.k 0, 3, 0, .imm 0, .f32⟩) false true (.k 0)
        { xs := [], xd := some 3, vs := [0], off := idxOff (.k 0) [] (.imm 0) }
        (fun t => (tagPre .always 128 [(0, .f32)] [] .f32 t).or (idxPre (benchDev offT) [] (.imm 0) 128 t)) ∧
      (sys (benchDev offT)).atIssue 0 offT ∧ idxOff (.k 0) [] (.imm 0) (benchDev offT) offT = true) ∧
    (let t := { benchT with slotcfg := 1 }
     (sys (benchDev t)).atIssue 0 t ∧ Uses.pending { xs := [24] } .always t = false ∧
       Uses.misuse { xs := [24] } t.slotcfg = false ∧ (benchDev t).readXs t [24] = none) ∧
    (let t := { benchT with slotcfg := 2 }
     HeadShape (benchDev t) (.rdt ⟨.always, 24⟩) false false .always { xd := some 24 } (fun _ => none) ∧
     (sys (benchDev t)).atIssue 0 t ∧ Uses.pending { xd := some 24 } .always t = false ∧
       Uses.misuse { xd := some 24 } t.slotcfg = false ∧
       (benchDev t).readXs t [] = some (benchDev t, []) ∧ (benchDev t).hasSpace t 24 = false) :=
  ⟨⟨.transfer (.jr _), ⟨rfl, rfl⟩, by decide +kernel⟩, ⟨.thread .halt, ⟨rfl, rfl⟩, by decide +kernel, by decide +kernel⟩,
    ⟨.lane (.vabs _), ⟨rfl, rfl⟩, by decide +kernel, by decide +kernel⟩,
    ⟨.transfer (.jr _), ⟨rfl, rfl⟩, by decide +kernel, by decide +kernel⟩,
    ⟨.nopGuarded _, ⟨rfl, rfl⟩, by decide +kernel, by decide +kernel⟩,
    ⟨.vmovsGet _, ⟨rfl, rfl⟩, by decide +kernel⟩,
    ⟨⟨rfl, rfl⟩, by decide +kernel, by decide +kernel, by decide +kernel⟩,
    ⟨.scalar (.rdt _), ⟨rfl, rfl⟩, by decide +kernel, by decide +kernel, rfl, by decide +kernel⟩⟩

/-- CTXLD: an image of a thread at 0x10002 in context 0, for slot 1; context 0 is valid. -/
def imageS : State := { bench with
  mem := (⟨[]⟩ : Memory).writeAll (bytesAt 0 8 1 ++ bytesAt (0x10100 + 10512) 8 0x10002 ++ bytesAt (0x10100 + 10520) 8 9
    ++ bytesAt (0x10100 + 10560) 8 1) }

/-- The image's lines, and its value. -/
def imageL : List Nat := (List.range 84).map (fun k => 0x10100 + 128 * k)
def imageV : Nat := 0x10002 * 2 ^ (8 * 10512) + 9 * 2 ^ (8 * 10520) + 2 ^ (8 * 10560)

theorem gather_congr (f g : Nat → Byte) : ∀ l : List Nat, (∀ a ∈ l, f a = g a) → gather f l = gather g l := by
  intro l
  induction l with
  | nil => intro _; rfl
  | cons a l ih =>
    intro h
    have := ih (fun b hb => h b (List.mem_cons_of_mem _ hb))
    simp only [gather, List.foldr_cons] at this ⊢
    rw [this, h a List.mem_cons_self]

theorem gather_range (m : Memory) : ∀ (n a : Nat), gather m.read ((List.range n).map (a + ·)) = m.readN a n := by
  intro n
  induction n with
  | zero => intro _; rfl
  | succ n ih =>
    intro a
    have := ih (a + 1)
    simp only [gather] at this
    simp only [List.range_succ_eq_map, List.map_cons, List.map_map, gather, List.foldr_cons, Memory.readN, Nat.add_zero]
    rw [← this]
    congr 3
    apply List.map_congr_left
    intro x _
    simp only [Function.comp_apply]
    omega

theorem readN_add (m : Memory) : ∀ (n k a : Nat), m.readN a (n + k) = m.readN a n + 256 ^ n * m.readN (a + n) k := by
  intro n
  induction n with
  | zero => intro k a; simp [Memory.readN]
  | succ n ih =>
    intro k a
    rw [Nat.succ_add]
    simp only [Memory.readN]
    rw [ih k (a + 1), Nat.pow_succ, Nat.mul_add, ← Nat.mul_assoc, show a + 1 + n = a + (n + 1) by omega,
      Nat.mul_comm (256 ^ n) 256]
    omega

theorem readN_zero (m : Memory) : ∀ (n a : Nat), (∀ k, k < n → m.read (a + k) = 0) → m.readN a n = 0 := by
  intro n
  induction n with
  | zero => intro _ _; rfl
  | succ n ih =>
    intro a h
    simp only [Memory.readN, ih (a + 1) (fun k hk => by rw [Nat.add_assoc, Nat.add_comm 1 k]; exact h (k + 1) (by omega))]
    have := h 0 (by omega)
    rw [Nat.add_zero] at this
    rw [this]
    rfl

theorem image_cells : imageS.mem.cells = [(0, 1), (0x10100 + 10512, 2), (0x10100 + 10514, 1), (0x10100 + 10520, 9),
    (0x10100 + 10560, 1)] := by decide +kernel

theorem image_read (a : Nat) (h : a ≠ 0 ∧ a ≠ 0x10100 + 10512 ∧ a ≠ 0x10100 + 10514 ∧ a ≠ 0x10100 + 10520 ∧
    a ≠ 0x10100 + 10560) : imageS.mem.read a = 0 := by
  simp only [Memory.read, image_cells, Memory.readCells, Memory.dflt]
  repeat' split
  all_goals first | rfl | omega

theorem image_home (a : Nat) (h : a < 2 ^ 30) : bench.dev.homeByte 100 imageS.mem a = imageS.mem.read a := by
  have h1 : isIo (keyPhys a) = false := by
    have : ¬0x8000000000 ≤ a % 2 ^ 52 := by omega
    unfold isIo keyPhys ioBase
    rw [decide_eq_false this, Bool.false_and]
  have h2 : bench.dev.windowOf a = none := rfl
  simp [Dev.homeByte, Dev.madeWord, h1, h2]

theorem image_addr (k : Nat) (h : k < 10752) : imageL.getD (k / 128) 0 + k % 128 = 0x10100 + k := by
  have : k / 128 < 84 := by omega
  simp only [imageL, List.getD_eq_getElem?_getD, List.getElem?_map, List.getElem?_range this, Option.map_some,
    Option.getD_some]
  omega

theorem image_value : gather (bench.dev.homeByte 100 imageS.mem)
    ((List.range imageSize).map (fun k => imageL.getD (k / 128) 0 + k % 128)) = imageV := by
  have e : (List.range imageSize).map (fun k => imageL.getD (k / 128) 0 + k % 128)
      = (List.range imageSize).map (0x10100 + ·) :=
    List.map_congr_left (fun k hk => image_addr k (List.mem_range.mp hk))
  rw [e, gather_congr _ imageS.mem.read, gather_range, show imageSize = 10512 + (49 + 191) from rfl, readN_add, readN_add,
    readN_zero _ 10512, readN_zero _ 191]
  · decide +kernel
  · intro k _; exact image_read _ (by omega)
  · intro k _; exact image_read _ (by omega)
  · intro a ha
    obtain ⟨k, hk, rfl⟩ := List.mem_map.mp ha
    have : k < 10752 := List.mem_range.mp hk
    exact image_home _ (by omega)

theorem image_unit : bench.dev.unitByte 100 imageS.mem = bench.dev.homeByte 100 imageS.mem := by
  funext a
  have : bench.dev.bline (lineOf a) = none := rfl
  unfold Dev.unitByte Dev.version
  rw [this]

theorem opt_ok {α : Type} {o : Option α} (h : o.isSome = true) : ∃ a, o = some a := by
  cases o with
  | some a => exact ⟨a, rfl⟩
  | none => cases h

theorem witness_CtxReady : ∃ l v d, CtxReady (inOf imageS benchT [5]) ⟨.always, 3, 5, 1⟩ l v d := by
  obtain ⟨l, h, hf⟩ := parts_ok (p := (inOf imageS benchT [5]).imageLines .read)
    (f := fun l => l.flatMap Prod.snd == imageL) (by decide +kernel)
  rw [beq_iff_eq] at hf
  obtain ⟨d, hd⟩ := opt_ok (o := ((inOf imageS benchT [5]).dev.openOp 0 1 true (some 3) none none).1.loadImage 100 imageS.mem 0 1
    imageV) (by decide +kernel)
  refine ⟨l, imageV, d, ⟨by decide, by decide +kernel, h, rfl, rfl, ?_, rfl, ?_, ?_, .inl ⟨rfl, by decide +kernel⟩, by decide +kernel,
    by decide +kernel, by decide +kernel, by decide +kernel, good_of (by decide +kernel), hd⟩⟩
  · rw [hf]; decide +kernel
  · rw [hf]; decide +kernel
  · rw [hf]; exact image_value.symm.trans (by rw [← image_unit]; rfl)

/-- TrapsTaken: a handler that passes R42, one that fails it, and a thread that is in a trap. -/
theorem witness_TrapsTaken :
    (let t := { benchT with handler := 0x10002 }
     (benchDev t).thr 0 = some t ∧ t.inTrap = false ∧ (benchDev t).targetNow 100 ⟨[]⟩ t.coreSlot.1 t.ctx t.handler = true) ∧
    ((benchDev benchT).thr 0 = some benchT ∧
      (benchDev benchT).targetNow 100 ⟨[]⟩ benchT.coreSlot.1 benchT.ctx 0x10001 = false) ∧
    ((benchDev trapT).thr 0 = some trapT ∧ trapT.inTrap = true) :=
  ⟨⟨rfl, by decide +kernel, by decide +kernel⟩, ⟨rfl, by decide +kernel⟩, rfl, by decide +kernel⟩

/-! ### Witnesses: the module's own steps -/

/-- The bench with one message, number 7. -/
def mail (d : Dev) (k : MsgKind) : Dev := { d with msgs := [⟨7, k⟩], nextMsg := 8, since := 8 }

/-- Thread 0 asks for a value in x3, by operation 5. -/
def src0 : From := ⟨0, 0, 0, 0, 3, 5⟩

/-- Its operation, of `n` pieces. -/
def op5 (n : Nat) : Outst := ⟨5, 0, n, true, some 3, none, none, .none, [], none, false, none⟩

/-- The bench with the operation outstanding. -/
def waitDev (n : Nat) : Dev := { benchDev benchT with outst := [op5 n] }

theorem ok_of {ε α : Type} {e : Except ε α} {p : α → Bool} (h : (match e with
    | .ok x => p x
    | .error _ => false) = true) : ∃ x, e = .ok x ∧ p x = true := by
  cases e with
  | ok x => exact ⟨x, rfl, h⟩
  | error _ => cases h

theorem witness_RepliesArrive :
    ((sys (mail (waitDev 1) (.data src0 [(.x 3, 9)] none 0 (some 0x10100)))).carries 7
        (.data src0 [(.x 3, 9)] none 0 (some 0x10100)) ∧
      (waitDev 1).srcStopped src0 = false ∧ (waitDev 1).outst.find? (fun o => o.op = src0.op) = some (op5 1) ∧
      (waitDev 1).thr 0 = some benchT ∧ (op5 1).err = none ∧ (op5 1).left ≤ 1) ∧
    ((sys (mail (waitDev 2) (.hit src0 [(.x 3, 9)] 100))).carries 7 (.hit src0 [(.x 3, 9)] 100) ∧ 100 ≤ (sys (waitDev 2)).drip ∧
      (waitDev 2).outst.find? (fun o => o.op = src0.op) = some (op5 2) ∧ 1 < (op5 2).left) ∧
    (sys (mail (waitDev 1) (.reply src0 9 false none))).carries 7 (.reply src0 9 false none) ∧
    ((sys (mail (waitDev 1) (.error src0 0x100 0 0 none))).carries 7 (.error src0 0x100 0 0 none) ∧
      (0x100 : Nat) ≠ Cause.sramUncorrectable ∧ (0x100 : Nat) ≠ Cause.dramUncorrectable) ∧
    (sys (mail (waitDev 1) (.ack src0))).carries 7 (.ack src0) ∧
    ((sys (mail (waitDev 1) (.refused src0 JEntry.free))).carries 7 (.refused src0 JEntry.free) ∧
      freeEntry 100 0 ((mail (waitDev 1) (.refused src0 JEntry.free)).core benchT.coreSlot.1).jrnl.toList = some 0 ∧
      freeEntry 100 0 (List.replicate 64 { JEntry.free with from' := 101 }) = none) ∧
    ((sys (mail (waitDev 1) (.report 0 0x200 0))).carries 7 (.report 0 0x200 0) ∧
      (mail (waitDev 1) (.report 0 0x200 0)).threads.any (fun p => p.1 == 0 && p.2.preempted) = false) :=
  ⟨⟨rfl, rfl, rfl, rfl, rfl, by decide⟩, ⟨rfl, by decide, rfl, by decide⟩, rfl, ⟨rfl, by decide, by decide⟩, rfl,
    ⟨rfl, by decide +kernel, by decide +kernel⟩, rfl, rfl⟩

/-- An access of thread 0 to the dword at 0x10100. -/
def accAt (op : AccOp) (st : AccSt) : Acc :=
  ⟨src0, op, 0x10100, 0x10100, .mod, false, true, 0x10, 0, st, 100, [], false, 6, false⟩

def loadOp : AccOp := .load [⟨0x10100, 0, 64, true, 0, .x 3⟩]
def storeOp : AccOp := .store [⟨0x10100, 0xFF, 7⟩]

/-- A module with one access on its way, or accepted. -/
def accDev (op : AccOp) (st : AccSt) : Dev := mail (waitDev 1) (.acc (accAt op st))

theorem judged_ok {j : Judged} (h : (match j with
    | .accept => true
    | _ => false) = true) : j = .accept := by cases j <;> first | rfl | cases h

theorem judged_no {j : Judged} (h : (match j with
    | .refuse c _ _ => c != Cause.conflict
    | _ => false) = true) : ∃ c r ea, j = .refuse c r ea ∧ c ≠ Cause.conflict := by
  cases j with
  | refuse c r ea => exact ⟨c, r, ea, rfl, by simpa using h⟩
  | accept => cases h
  | _ => cases h

/-- A due load, and a due store or atomic. -/
theorem acc_load (op : AccOp) : (accDev op .accepted).loadDue 100 7 (accAt op .accepted) := ⟨rfl, rfl, rfl, rfl⟩

/-- A store, an atomic, an exact add and a TAGST. -/
def storeOps : List AccOp := [storeOp, .atom .add 0x10100 8 1 0 3, .atomx 0x10100 1, .tagst 0x10100 1]

theorem acc_store : ∀ op ∈ storeOps, (accDev op .accepted).storeDue 100 7 (accAt op .accepted) := by
  intro op h
  simp only [storeOps, List.mem_cons, List.not_mem_nil, or_false] at h
  obtain rfl | rfl | rfl | rfl := h <;> exact ⟨rfl, rfl, by decide +kernel, rfl, rfl⟩

theorem acc_plain (op : AccOp) (st : AccSt) : (accDev op st).plainLine 0x10100 := ⟨rfl, rfl, rfl⟩

/-- The range lease of index 0 at the home of 0x10100. -/
def home0 : AgentId := ⟨0, 0, 0, 18⟩
def leaseOf (k : Kind) (p : Payload) : Lease := ⟨home0, 0, 1, k, some 0, 0, 1000, none, p, false⟩
def rangeL : Lease := leaseOf .range (.range 0x10000 65536 0)

/-- A module whose core holds the data of a hit until drip `e`. -/
def hitDev (e : Nat) : Dev := accDev loadOp (.l1 (BitVec.ofNat 1024 7) e)

theorem witness_AccessesAtHome :
    ((storedDev.core 0).sb ≠ [] ∧ (∀ a ∈ (storedDev.core 0).sb, a.rel = false) ∧ storedDev.seenDone 0 = true ∧
      storedDev.unperf 0 = []) ∧
    ((sys (accDev loadOp .travelling)).carries 7 (.acc (accAt loadOp .travelling)) ∧
      (accDev loadOp .travelling).inOrder 7 (accAt loadOp .travelling) = true ∧
      let d := (accDev loadOp .travelling).touch 0 0x10100
      d.judgeAcc 100 (d.accHome (accAt loadOp .travelling)) (accAt loadOp .travelling) = .accept) ∧
    (let s := sys { accDev storeOp .travelling with leases := [{ rangeL with expiry := 100 }] }
     s.carries 7 (.acc (accAt storeOp .travelling)) ∧ s.dev.inOrder 7 (accAt storeOp .travelling) = true ∧
       let d := s.dev.touch 0 0x10100
       ∃ c r ea, d.judgeAcc 100 (d.accHome (accAt storeOp .travelling)) (accAt storeOp .travelling) = .refuse c r ea ∧
         c ≠ Cause.conflict) ∧
    (∀ op, (accDev op .accepted).loadDue 100 7 (accAt op .accepted)) ∧
    (∀ op ∈ storeOps, (accDev op .accepted).storeDue 100 7 (accAt op .accepted)) ∧
    (∀ op st, (sys (accDev op st)).carries 7 (.acc (accAt op st)) ∧ (accDev op st).plainLine 0x10100 ∧
      (accDev op st).isExact 0x10100 = false ∧ (accDev op st).windowOf 0x10100 = none ∧ (accAt op st).joint = false ∧
      (accDev op st).poisoned 0x10100 = false) ∧
    (accDev loadOp .accepted).cleanEls [⟨0x10100, 0, 64, true, 0, .x 3⟩] ∧
    ((hitDev 101).loadsBefore 7 0 = false ∧ (hitDev 101).oldestLoad 0 = some (7, accAt loadOp (.l1 (BitVec.ofNat 1024 7) 101)) ∧
      (hitDev 101).msgs.length = 1 ∧ (sys (hitDev 101)).drip < 101 ∧ (100 ≤ (sys (hitDev 100)).drip ∧
        (hitDev 100).missUsed 0 < 48)) ∧
    ¬(keyAp 0x10100 = 0 ∧ keyPhys 0x10100 = ioBase) ∧ keyAp 0x10100 ≤ 0xC0 ∧
    ((benchDev benchT).core 0).l1.any (fun e => e.line = benchKey && e.expiry ≤ 1000) = true ∧
    (let s := sys (mail (benchDev benchT) (.fetch 0 0x10100 64))
     s.carries 7 (.fetch 0 0x10100 64) ∧ s.dev.msgs.any (fun x => x.kind.storeAt 0x10100) = false ∧
       s.dev.heldAway 100 0x10100 false = false ∧ s.dev.plainLine 0x10100) :=
  ⟨⟨by decide, by decide, rfl, rfl⟩, ⟨rfl, rfl, judged_ok (by decide +kernel)⟩, ⟨rfl, rfl, judged_no (by decide +kernel)⟩,
    acc_load, acc_store, fun op st => ⟨rfl, acc_plain op st, rfl, rfl, rfl, rfl⟩, fun _ _ _ _ => ⟨rfl, rfl⟩,
    ⟨by decide +kernel, rfl, rfl, by decide, by decide, by decide +kernel⟩, by decide, by decide, by decide +kernel,
    rfl, rfl, rfl, ⟨rfl, rfl, rfl⟩⟩

/-- A module with a range lease over the bench's page. -/
def rangeDev : Dev := { benchDev benchT with leases := [rangeL], maps := [(256, [⟨home0, 0, false⟩])] }

/-- A permission of the host on the line at 0x10100. -/
def perm0 (e : Nat) : Perm := ⟨0x10100, 0, true, e, [(0x10100, 7)], true⟩

/-- Nothing is bundled and nothing failed. -/
theorem acc_plain' (d : Dev) (h : d.blines = []) (h' : d.badSectors = []) {line : Nat} : d.plainLine line :=
  ⟨by simp [Dev.bline, h], by simp [h']⟩

theorem range_reach : (sys rangeDev).hostReaches ⟨0x10100, false, []⟩ :=
  ⟨by decide +kernel, rfl, by decide +kernel, acc_plain' rangeDev rfl rfl, by decide +kernel, by decide +kernel⟩

theorem witness_HostTraffic :
    (sys rangeDev).hostReads ⟨0x10100, false, []⟩ ∧ (sys rangeDev).hostWrites ⟨0x10100 + 63, true, [7]⟩ ∧
    (4 * dieBytes - 1 < 4 * dieBytes ∧ rangeDev.inReset = false ∧ rangeDev.hostMay 100 (hostKey (4 * dieBytes - 1)) = false) ∧
    (rangeDev.perms.filter (fun p => p.line == 0x10100 && p.live 100 && p.asked) = [] ∧
      rangeDev.sliceLeases.filter (fun p => p.line == 0x10100 && p.live 100) = []) ∧
    (let d := { rangeDev with perms := [perm0 101] }
     d.perms.filter (fun q => q.line == (perm0 101).line && q.live 100) = [perm0 101] ∧ (perm0 101).asked = true ∧
       d.hostPerm 100 0x10100 = some (perm0 101)) ∧
    (∀ asked, let q := { perm0 101 with asked := asked }
     let d := { rangeDev with sliceLeases := [q] }
     d.perms.filter (fun q => q.line == 0x10100 && q.live 100) = [] ∧
       d.sliceLeases.filter (fun q => q.line == 0x10100 && q.live 100) = [q] ∧ d.leased 100 0x10100 = false ∧
       d.cutOff 0x10100 = false) ∧
    (let gone := [perm0 100].filter (fun p => p.line == 0x10100 && !p.live 100)
     gone ≠ [] ∧ (gone ++ ([] : List Perm)).any Perm.write = true) ∧
    (0xFE0000000010100 = apKey 0xFE (keyPhys (lineOf 0x10100)) ∧ rangeDev.unitMayWrite 100 0xFE0000000010100 = true) :=
  ⟨⟨range_reach, by decide +kernel, by decide +kernel⟩,
    ⟨⟨by decide +kernel, rfl, by decide +kernel, acc_plain' rangeDev rfl rfl,
      by decide +kernel, by decide +kernel⟩, by decide +kernel, by decide +kernel⟩, ⟨by decide, rfl, by decide +kernel⟩,
    ⟨rfl, rfl⟩, ⟨by decide +kernel, rfl, by decide +kernel⟩, fun a => by cases a <;> decide +kernel, by decide +kernel,
    by decide +kernel, by decide +kernel⟩

/-! ### Witnesses: leases, locks, barriers, paths -/

/-- The module with one request of thread 0 on its way. -/
def reqS (d : Dev) (q : Req) : State := sys (mail d (.req src0 q))

/-- The module once the request has come. -/
def reqD (d : Dev) (q : Req) : Dev := (reqS d q).dev.drop 7

/-- The bench with lease records, its context's agent map naming their home. -/
def leasedDev (ls : List Lease) : Dev := { benchDev benchT with leases := ls, maps := [(256, [⟨home0, 0, false⟩])] }

theorem ok_eq {ε α : Type} [DecidableEq α] {e : Except ε α} {x : α} (h : (match e with
    | .ok y => decide (y = x)
    | .error _ => false) = true) : e = .ok x := by
  cases e with
  | ok y => exact congrArg Except.ok (of_decide_eq_true h)
  | error _ => cases h

theorem pair_eq {α β : Type} {p : α × Option β} (h : p.2.isSome = true) : ∃ e x, p = (e, some x) := by
  obtain ⟨e, o⟩ := p
  cases o with
  | some x => exact ⟨e, x, rfl⟩
  | none => cases h

/-- A record that is tethered to it, another of a fresh chain, and an anchor. -/
def childL : Lease := { rangeL with index := 1, parent := some (home0, 0, 1) }
def freeL : Lease := { rangeL with index := 2 }

/-- Their handles. -/
def rangeH : Word := mkHandle 1 0 0 1
def freeH : Word := mkHandle 1 0 2 1

/-- Each request is judged by the module that it came to. -/
def treeDev : Dev := leasedDev [rangeL, childL, freeL]

/-- The line's access, waiting at its home for an answer. -/
def waitAcc : Acc := accAt loadOp .waiting

/-- A barrier of block 0 with one member that expects one arrival. -/
def bar : Barrier := ⟨0, 0, 0, 1, 256, 5, [], [], 0, false, [], []⟩

theorem witness_LeasesAtHome :
    (let d := reqD treeDev (.renew rangeH 256)
     (reqS treeDev (.renew rangeH 256)).asks 7 src0 (.renew rangeH 256) d ∧ d.named src0 rangeH = .ok rangeL ∧
       d.handsOn 100 rangeL = false ∧ rangeL.holder = some src0.ctx ∧ d.root rangeL = some rangeL ∧ d.lapsed 100 rangeL = false ∧
       ∀ c, rangeL.payload ≠ .array c) ∧
    (let d := reqD treeDev (.life (mkHandle 1 0 1 1))
     (reqS treeDev (.life (mkHandle 1 0 1 1))).asks 7 src0 (.life (mkHandle 1 0 1 1)) d ∧
       d.named src0 (mkHandle 1 0 1 1) = .ok childL ∧ d.root childL = some rangeL ∧ d.handsOn 100 childL = false ∧
       childL.holder = some src0.ctx ∧ d.lapsedAt childL 100 = false ∧ d.clock 100 rangeL.agent.mod = 100) ∧
    (let d := reqD treeDev (.tether freeH rangeH 1 0)
     (reqS treeDev (.tether freeH rangeH 1 0)).asks 7 src0 (.tether freeH rangeH 1 0) d ∧
       d.judged 100 src0 freeH = .ok freeL ∧ freeL.parent = none) ∧
    (let d := reqD treeDev (.tether freeH rangeH 2 0)
     (reqS treeDev (.tether freeH rangeH 2 0)).asks 7 src0 (.tether freeH rangeH 2 0) d ∧
       d.judged 100 src0 rangeH = .ok rangeL ∧ d.named src0 freeH = .ok freeL ∧ d.root rangeL = some rangeL ∧
       d.links rangeL + 1 + d.height freeL ≤ 4 ∧ (rangeL.agent ≠ freeL.agent ∨ rangeL.index ≠ freeL.index)) ∧
    (let d := reqD treeDev (.tether freeH rangeH 3 1000)
     (reqS treeDev (.tether freeH rangeH 3 1000)).asks 7 src0 (.tether freeH rangeH 3 1000) d ∧
       d.named src0 freeH = .ok freeL ∧ d.agentOf src0.tenant src0.ctx (hAgent rangeH) = some home0 ∧
       d.lapsed 100 freeL = false ∧ freeL.parent = none ∧ d.expiry freeL ≤ 1000) ∧
    (let d := reqD treeDev (.info rangeH true)
     (reqS treeDev (.info rangeH true)).asks 7 src0 (.info rangeH true) d ∧ d.named src0 rangeH = .ok rangeL ∧
       rangeL.holder = some src0.ctx) ∧
    (reqS treeDev (.info rangeH false)).asks 7 src0 (.info rangeH false) (reqD treeDev (.info rangeH false)) ∧
    (let s := sys (mail treeDev (.consult 3 home0 home0 0 1 100))
     s.carries 7 (.consult 3 home0 home0 0 1 100) ∧ s.dev.lease home0 0 = some rangeL ∧ rangeL.gen = 1) ∧
    (let s := sys { mail treeDev (.answer 3 home0 home0 0 1 true 100) with
        msgs := [⟨3, .acc waitAcc⟩, ⟨7, .answer 3 home0 home0 0 1 true 100⟩] }
     s.carries 7 (.answer 3 home0 home0 0 1 true 100) ∧
       ((s.dev.drop 7).setGuard ⟨home0, home0, 0, 1, none⟩).msg 3 = some (.acc waitAcc) ∧ waitAcc.st = .waiting) ∧
    (∀ e, let s := sys { mail treeDev (.guard ⟨home0, home0, 0, 1, some 2000⟩) with guards := [⟨home0, home0, 0, 1, e⟩] }
     s.carries 7 (.guard ⟨home0, home0, 0, 1, some 2000⟩) ∧ s.dev.guards.find? (fun x => x.home = home0 &&
       x.agent = home0 && x.index = 0 && x.gen = 1) = some ⟨home0, home0, 0, 1, e⟩) ∧
    (let s := sys (mail treeDev (.suspend home0 0 1 1001))
     s.carries 7 (.suspend home0 0 1 1001) ∧ s.dev.lease home0 0 = some rangeL ∧ s.dev.lapsed 100 rangeL = false ∧
       rangeL.expiry < 1001) ∧
    (∀ p ∈ [Payload.range 0x10000 65536 0, .lock 0x10100 [], .barrier bar, .frontier 0, .anchor 1 0x10000 4096, .cap 1],
     let l := { leaseOf .range p with expiry := 100 }
     (leasedDev [l]).lease home0 0 = some l ∧ l.dead = false ∧ (leasedDev [l]).lapsed 100 l = true) :=
  ⟨⟨⟨rfl, rfl⟩, ok_eq (by decide +kernel), by decide +kernel, rfl, by decide +kernel, by decide +kernel, fun _ h => by cases h⟩,
    ⟨⟨rfl, rfl⟩, ok_eq (by decide +kernel), by decide +kernel, by decide +kernel, rfl, by decide +kernel, by decide +kernel⟩,
    ⟨⟨rfl, rfl⟩, ok_eq (by decide +kernel), rfl⟩,
    ⟨⟨rfl, rfl⟩, ok_eq (by decide +kernel), ok_eq (by decide +kernel), by decide +kernel, by decide +kernel, by decide +kernel⟩,
    ⟨⟨rfl, rfl⟩, ok_eq (by decide +kernel), by decide +kernel, by decide +kernel, rfl, by decide +kernel⟩,
    ⟨⟨rfl, rfl⟩, ok_eq (by decide +kernel), rfl⟩, ⟨rfl, rfl⟩, ⟨rfl, by decide +kernel, rfl⟩, ⟨rfl, rfl, rfl⟩, fun _ => ⟨rfl, rfl⟩,
    ⟨rfl, by decide +kernel, by decide +kernel, by decide⟩, by decide +kernel⟩

/-- A waiter on the lock word at 0x10100, and the lock. -/
def waiter (dl : Option Nat) : LockWait := ⟨7, src0, 256, dl, .mod⟩
def lockL (ws : List LockWait) : Lease := leaseOf .lock (.lock 0x10100 ws)

/-- The barrier's record and handle. -/
def barL (b : Barrier) : Lease := leaseOf .barrier (.barrier b)
def barH : Word := mkHandle 3 0 0 1

/-- The bench with the barrier, its thread a recorded member. -/
def barDev (b : Barrier) : Dev :=
  { leasedDev [barL b] with threads := [(0, { benchT with memberOf := [(home0, 0, 1)] })] }

theorem witness_LocksAndBarriers :
    (let d := reqD (leasedDev []) (.lock 0x10100 256 none .mod)
     let e := d.touch 0 0x10100
     (reqS (leasedDev []) (.lock 0x10100 256 none .mod)).asks 7 src0 (.lock 0x10100 256 none .mod) d ∧
       e.cutOff 0x10100 = false ∧ e.outOfUse (e.homeOf (coreDie 0) 0x10100) = false ∧ e.judgeRange 100 0 0x10100 = none ∧
       e.lockOf 0x10100 = none) ∧
    (let d := (reqD (leasedDev [{ lockL [] with expiry := 100 }]) (.lock 0x10100 256 none .mod)).touch 0 0x10100
     d.judgeRange 100 0 0x10100 = none ∧ d.lockOf 0x10100 = some { lockL [] with expiry := 100 } ∧
       d.lapsed 100 { lockL [] with expiry := 100 } = true) ∧
    (let d := (reqD (leasedDev [lockL []]) (.lock 0x10100 256 (some 101) .mod)).touch 0 0x10100
     d.judgeRange 100 0 0x10100 = none ∧ d.lockOf 0x10100 = some (lockL []) ∧ d.lapsed 100 (lockL []) = false ∧
       (some 101).any (fun t => t ≤ d.clock 100 (d.homeOf 0 0x10100).mod) = false) ∧
    (let d := leasedDev [lockL [waiter (some 100)]]
     lockL [waiter (some 100)] ∈ d.leases ∧ [waiter (some 100)].find? (fun w => w.id = 7) = some (waiter (some 100)) ∧
       (∀ x ∈ d.leases, ∀ k vs, x.payload = .lock k vs → (∃ v ∈ vs, v.id = 7) → x = lockL [waiter (some 100)]) ∧
       (waiter (some 100)).deadline.any (fun t => t ≤ d.clock 100 0) = true ∧
       d.lapsed 100 (lockL [waiter (some 100)]) = false) ∧
    (let d := reqD (leasedDev [lockL []]) (.lheld (mkHandle 2 0 0 1))
     (reqS (leasedDev [lockL []]) (.lheld (mkHandle 2 0 0 1))).asks 7 src0 (.lheld (mkHandle 2 0 0 1)) d ∧
       d.judged 100 src0 (mkHandle 2 0 0 1) = .ok (lockL [])) ∧
    (let d := reqD (leasedDev []) (.binit 0x10000 256 0)
     let b := Block.single 0 0 0 0 0 0 0
     (reqS (leasedDev []) (.binit 0x10000 256 0)).asks 7 src0 (.binit 0x10000 256 0) d ∧ d.blk 0 = some b ∧
       d.outOfUse ⟨0, 0, 0, 0⟩ = false ∧
       (b.members.filter (fun p => bits (0x10000 : Word) 0 8 ≤ p.1 && p.1 ≤ bits (0x10000 : Word) 8 8)).map Prod.snd = [0] ∧
       (∃ t, d.thr 0 = some t ∧ t.memberOf = []) ∧
       ∃ e h, d.grantLease 100 ⟨0, 0, 0, 0⟩ .barrier (some 0) 0 0 (d.clock 100 0 + 256) none (.barrier ⟨0, 0, 0, 1, 256, 0, [], [],
         0, false, ((b.crews.filter (fun c => c.tids.any [0].contains)).map Crew.core).map (·, d.clock 100 0), []⟩)
         = (e, some h)) ∧
    (let d := reqD (barDev bar) (.barv barH 0 0 true)
     (reqS (barDev bar) (.barv barH 0 0 true)).asks 7 src0 (.barv barH 0 0 true) d ∧ d.sentNow 7 = false ∧ d.released src0 = true ∧
       d.judged 100 src0 barH = .ok (barL bar) ∧ bar.blk = 0 ∧ bar.mlo ≤ 0 ∧ 0 ≤ bar.mhi ∧ bar.spent = false ∧
       bar.arrived.contains 0 = false ∧ bar.exited.contains 0 = false) ∧
    (let d := reqD (barDev bar) (.badd barH (-(2 ^ 55)) true)
     (reqS (barDev bar) (.badd barH (-(2 ^ 55)) true)).asks 7 src0 (.badd barH (-(2 ^ 55)) true) d ∧ d.sentNow 7 = false ∧ d.released src0 = true ∧
       d.judged 100 src0 barH = .ok (barL bar) ∧ -(2 ^ 55 : Int) ≤ bar.bytes + -(2 ^ 55) ∧
       bar.bytes + -(2 ^ 55) < 2 ^ 55) ∧
    ((reqD (barDev bar) (.bwait barH 5)).judged 100 src0 barH = .ok (barL bar) ∧
      (5 : Word).toNat % 2 ^ 32 = bar.episode ∧
      2 ^ 31 ≤ ((4 : Word).toNat % 2 ^ 32 + 2 ^ 32 - bar.episode) % 2 ^ 32) ∧
    (let d := reqD (barDev bar) (.exitNotice home0 0 1 0)
     (reqS (barDev bar) (.exitNotice home0 0 1 0)).asks 7 src0 (.exitNotice home0 0 1 0) d ∧ d.sentNow 7 = false ∧ bar.exited = [] ∧
       d.lease home0 0 = some (barL bar) ∧ d.lapsed 100 (barL bar) = false ∧ bar.exited.contains 0 = false ∧
       d.coreMember src0.core home0 0 1 = true) ∧
    ((barDev bar).lease home0 0 = some (barL bar) ∧ (barDev bar).lapsed 100 (barL bar) = false ∧
      (barDev bar).coreMember 0 home0 0 1 = true ∧ (barDev bar).fencedCore 0 = false) := by
  refine ⟨⟨⟨rfl, rfl⟩, rfl, by decide +kernel, rfl, by decide +kernel⟩,
    ⟨by decide +kernel, by decide +kernel, by decide +kernel⟩,
    ⟨by decide +kernel, by decide +kernel, by decide +kernel, by decide +kernel⟩,
    ⟨by decide +kernel, by decide +kernel, ?_, by decide +kernel, by decide +kernel⟩,
    ⟨⟨rfl, rfl⟩, ok_eq (by decide +kernel)⟩,
    ⟨⟨rfl, rfl⟩, rfl, by decide +kernel, by decide +kernel, ⟨_, rfl, rfl⟩, pair_eq (by decide +kernel)⟩,
    ⟨⟨rfl, rfl⟩, by decide +kernel, by decide +kernel, ok_eq (by decide +kernel), rfl, by decide, by decide, rfl, rfl, rfl⟩,
    ⟨⟨rfl, rfl⟩, by decide +kernel, by decide +kernel, ok_eq (by decide +kernel), by decide, by decide⟩,
    ⟨ok_eq (by decide +kernel), by decide, by decide⟩,
    ⟨⟨rfl, rfl⟩, by decide +kernel, rfl, by decide +kernel, by decide +kernel, rfl, by decide +kernel⟩,
    ⟨by decide +kernel, by decide +kernel, by decide +kernel, by decide +kernel⟩⟩
  intro x hx _ _ _ _
  exact List.mem_singleton.mp hx

theorem witness_BarrierEpisodes :
    (({ bar with arrived := [0] }).bytes = 0 ∧ bar.expect ≤ ((0 : Nat) :: bar.exited).eraseDups.length) ∧
    (({ bar with bytes := 1 }).bytes ≠ 0) ∧ (bar.arrived ++ bar.exited).eraseDups.length < bar.expect := by
  decide +kernel

/-- A path to the range of index 0, and its word at offset 8. -/
def pathL : Lease := { leaseOf .path (.path home0 0 1) with index := 1 }
def pathH : Word := mkHandle 4 0 1 1
def pathAcc (off : Word) : Acc := accAt (.psend pathH off 9) .travelling
def pathS (off : Word) : State := sys (mail (leasedDev [rangeL, pathL]) (.acc (pathAcc off)))

theorem witness_Paths :
    (∀ n : Option Nat, let d := reqD (leasedDev [rangeL]) (.popen rangeH n)
     (reqS (leasedDev [rangeL]) (.popen rangeH n)).asks 7 src0 (.popen rangeH n) d ∧
       d.judged 100 src0 rangeH = .ok rangeL ∧ d.links rangeL + 1 ≤ 4 ∧
       ∃ e p, d.grantLease 100 home0 .path (some 0) 0 0 (n.elim 0 (d.clock 100 0 + ·))
         (n.elim (some (home0, 0, 1)) (fun _ => none)) (.path home0 0 1) = (e, some p)) ∧
    (∀ off, (pathS off).carries 7 (.acc (pathAcc off)) ∧ (pathAcc off).op = .psend pathH off 9 ∧
      (pathAcc off).st = .travelling ∧ (pathS off).dev.inOrder 7 (pathAcc off) = true ∧
      (pathS off).dev.named src0 pathH = .ok pathL ∧ (pathS off).dev.lease home0 0 = some rangeL ∧
      (pathS off).dev.lapsed 100 pathL = false ∧ (pathS off).dev.lapsed 100 rangeL = false) ∧
    (65528 : Word).toNat + 8 ≤ 65536 ∧ 65536 < (65536 : Word).toNat + 8 :=
  ⟨fun n => by
      cases n <;> exact ⟨⟨rfl, rfl⟩, ok_eq rfl, by show (0 : Nat) + 1 ≤ 4; decide, pair_eq rfl⟩,
    fun _ => ⟨rfl, rfl, rfl, rfl, ok_eq rfl, rfl, rfl, rfl⟩, by decide, by decide⟩

/-! ### Witnesses: the lantern and ALLOC -/

/-- A capability with every right at the lantern, the service context's lease, and a range that its context maps at
2^48 + 0x10000. -/
def lant0 : AgentId := ⟨0, 4, 2, 0⟩
def capL : Lease := ⟨lant0, 0, 1, .cap, some 0, 0, 1000, none, .cap 0xFFFF, false⟩
def ctxL : Lease := ⟨lant0, 1, 1, .context, some 0, 0, 1000, none, .context 0 0, false⟩
def mapL : Lease := leaseOf .range (.range 0x10000 65536 0x1000000010000)
def capH : Word := mkHandle 7 0 0 1

/-- An anchor of tenant 1. -/
def ankL : Lease := ⟨⟨0, 4, 3, 0⟩, 0, 1, .context, none, 1, 1000, none, .anchor 1 0x8000 1, false⟩

def lantDev : Dev := { benchDev benchT with leases := [capL, ctxL, mapL, ankL], maps := [(256, [⟨lant0, 0, false⟩])] }

/-- The address of a record, at 0x10100. -/
def recVa : Word := 0x1000000010100

/-- Memory with a record of four dwords there, entries for tenants 1 and 2, and one for context 5 of tenant 1 whose
anchor is `h`. -/
def recMem (h : Word) (w : List Nat) : Memory :=
  (⟨[]⟩ : Memory).writeAll (bytesAt (512 * 2 + 8) 8 4 ++ bytesAt (512 * 2 + 24) 8 16 ++ bytesAt (32 * 5) 8 1
    ++ bytesAt (32 * 5 + 8) 8 1 ++ bytesAt (32 * 5 + 16) 8 7 ++ bytesAt (32 * 5 + 24) 8 h.toNat
    ++ bytesAt 0x10100 8 (w.getD 0 0) ++ bytesAt 0x10108 8 (w.getD 1 0) ++ bytesAt 0x10110 8 (w.getD 2 0)
    ++ bytesAt 0x10118 8 (w.getD 3 0))

def lantS (mem : Memory) (c : Nat) (arg : Word) : State := { reqS lantDev (.gate capH c arg) with mem := mem }
def lantD (c : Nat) (arg : Word) : Dev := reqD lantDev (.gate capH c arg)

theorem lant_served (mem : Memory) (c : Nat) (arg : Word) (h : bit (0xFFFF : BitVec 16) c = true) :
    (lantS mem c arg).served 7 src0 capH c arg (lantD c arg) :=
  ⟨⟨rfl, rfl⟩, capL, 0xFFFF, rfl, rfl, h⟩

theorem rec_of {d : Dev} {mem : Memory} {va : Word} {r : Nat} (h : (match d.reach 100 mem src0.ctx .read (span va 32) with
    | .ok l => decide (r = gather (d.unitByte 100 mem) l)
    | _ => false) = true) : d.recordIs 100 mem src0 va r := by
  revert h
  unfold Dev.recordIs
  cases d.reach 100 mem src0.ctx .read (span va 32) with
  | ok l => intro h; exact ⟨l, rfl, of_decide_eq_true h⟩
  | _ => intro h; cases h

theorem free_le {d : Dev} {a : AgentId} {t : Nat} : ∀ n i, d.freeIndex a t n i ≤ i + n := by
  intro n
  induction n with
  | zero => intro i; exact Nat.le_refl _
  | succ n ih =>
    intro i
    have := ih (i + 1)
    have h : ∀ c : Bool, (if c = true then i else d.freeIndex a t n (i + 1)) ≤ i + (n + 1) := by
      intro c
      cases c
      · rw [if_neg Bool.false_ne_true]; omega
      · rw [if_pos rfl]; omega
    unfold Dev.freeIndex
    split
    · omega
    · exact h _

/-- A home with few records has a record number left. -/
theorem rec_small {d : Dev} {t : Nat} {a : AgentId} {w : Payload} (hn : d.leases.length < 2 ^ 24)
    (hi : ∀ l ∈ d.leases, l.index < 2 ^ 24) : (d.recordFor t a w).1 < 2 ^ 24 := by
  have hf := free_le (d := d) (a := a) (t := t) d.leases.length 0
  unfold Dev.recordFor
  dsimp only
  split
  · split
    · rename_i l hl
      have := hi l (List.mem_of_find?_eq_some hl)
      split
      · exact this
      · exact Nat.mod_lt _ (by decide)
    · decide
  · split
    · rename_i l hl
      exact hi l (List.mem_of_find?_eq_some hl)
    · dsimp only; omega
  · dsimp only; omega

theorem grant_some {d : Dev} {t : Nat} {a : AgentId} {k : Kind} {h : Option Nat} {n c e : Nat}
    {p : Option (AgentId × Nat × Nat)} {w : Payload} (ho : d.outOfUse a = false) (hi : (d.recordFor t a w).1 < 2 ^ 24)
    (hl : (look [] (mapNo n c) d.maps).length < 4096) : ∃ e' x, d.grantLease t a k h n c e p w = (e', some x) := by
  have hn : ∃ d' i, d.agentNo n c a = (d', some i) := by
    unfold Dev.agentNo
    dsimp only
    split
    · exact ⟨_, _, rfl⟩
    · rw [if_pos hl]; exact ⟨_, _, rfl⟩
  obtain ⟨d', i, hn⟩ := hn
  unfold Dev.grantLease
  simp only [ho, Bool.false_eq_true, false_or]
  rw [if_neg (Nat.not_le.mpr hi), hn]
  exact ⟨_, _, rfl⟩

theorem fold_some {f : Nat → Bool} {g : Option Nat → Nat → Bool} (hg : ∀ x, g none x = true) : ∀ (l : List Nat) (b : Option Nat),
    b.isSome = true ∨ (∃ x ∈ l, f x = true) →
    (l.foldl (fun b p => if (f p && g b p) = true then some p else b) b).isSome = true := by
  intro l
  induction l with
  | nil => intro b h; exact h.elim id (fun ⟨_, hx, _⟩ => by cases hx)
  | cons a l ih =>
    intro b h
    refine ih _ ?_
    rcases h with h | ⟨x, hx, hf⟩
    · left; dsimp only; split <;> first | rfl | exact h
    · rcases List.mem_cons.mp hx with rfl | hx
      · left
        cases b with
        | none => dsimp only; rw [hf, hg]; rfl
        | some q => dsimp only; split <;> rfl
      · exact .inr ⟨x, hx, hf⟩

/-- A place is found for a range that may start at 0. -/
theorem pick_some {d : Dev} {t n : Nat} {ok : AgentId → Bool} (h : d.mayStart t n ok 0 = true) :
    ∃ p, d.pickPlace t n 0 ok = some p := by
  unfold Dev.pickPlace
  dsimp only
  split
  · exact ⟨_, rfl⟩
  · refine opt_ok (fold_some (g := fun b p => match b with
      | some q => decide (p < q)
      | none => true) (fun _ => rfl) _ _ (.inr ⟨0, ?_, h⟩))
    unfold Dev.starts
    refine List.mem_flatMap.mpr ⟨0, ?_, List.mem_map.mpr ⟨0, by simp, rfl⟩⟩
    exact List.mem_append_left _ (List.mem_append_left _ (List.mem_map.mpr ⟨0, by simp, rfl⟩))

/-- The dwords of TENANT's, CONTEXT's and GRANT's records. -/
def tenRec : List Nat := [2, 0x40000, 1, 0]
def ankH : Word := ((lantD 7 recVa).handleOf 1 1 ankL).2
def ctxRec : List Nat := [5, ankH.toNat, 0, 0]
def capRec : List Nat := [0x00FE, 5, 1, 0]

theorem witness_LanternServices :
    (lantS ⟨[]⟩ 5 0).served 7 src0 capH 5 0 (lantD 5 0) ∧ (lantS ⟨[]⟩ 2 0).served 7 src0 capH 2 0 (lantD 2 0) ∧
    (lantS ⟨[]⟩ 3 0).served 7 src0 capH 3 0 (lantD 3 0) ∧
    ((lantS ⟨[]⟩ 4 1).served 7 src0 capH 4 1 (lantD 4 1) ∧ duration (bits (1 : Word) 0 16) = some 256 ∧
      (lantD 4 1).ctxLease 100 0 = some ctxL) ∧
    ((lantS ⟨[]⟩ 1 64).served 7 src0 capH 1 64 (lantD 1 64) ∧
      ((lantD 1 64).exactLines.filter (fun l => keyPhys l / 2 ^ 37 = coreDie src0.core && keyAp l = 0)).length
        + (64 : Word).toNat ≤ 4096 ∧ (lantD 1 64).ctxLease 100 0 = some ctxL ∧
      ∃ p, (lantD 1 64).pickPlace 100 (128 * 64) 0 (fun a => a.die == coreDie src0.core) = some p ∧
        ∃ e x, (lantD 1 64).grantRange 100 src0 p (128 * 64) none (some ctxL) = (e, some x)) ∧
    ((lantS (recMem 0 tenRec) 6 recVa).served 7 src0 capH 6 recVa (lantD 6 recVa) ∧
      ∃ r, (lantD 6 recVa).recordIs 100 (recMem 0 tenRec) src0 recVa r ∧ (lantD 6 recVa).tenantOk 100 (recMem 0 tenRec) r ∧
        duration (fld r 128 64) = some 256 ∧ ∃ e x, (lantD 6 recVa).grantLease 100 (lantD 6 recVa).cmdUnit .context none
          (fld r 0 64) 1 (100 + 256) none (.anchor (fld r 0 64) (apKey 0 (fld r 64 64)) (fld r 128 64)) = (e, some x)) ∧
    ((lantS (recMem ankH ctxRec) 7 recVa).served 7 src0 capH 7 recVa (lantD 7 recVa) ∧
      ∃ r, (lantD 7 recVa).recordIs 100 (recMem ankH ctxRec) src0 recVa r ∧
        (lantD 7 recVa).contextOk 100 (recMem ankH ctxRec) r ∧
        (lantD 7 recVa).anchorOf 100 ((lantD 7 recVa).ctxTenant (recMem ankH ctxRec) (fld r 0 64)) = some ankL ∧
        ((lantD 7 recVa).handleOf ((lantD 7 recVa).ctxTenant (recMem ankH ctxRec) (fld r 0 64)) 1 ankL).2
          = wd64 (fld r 64 64) ∧
        ∃ e x, ((lantD 7 recVa).handleOf ((lantD 7 recVa).ctxTenant (recMem ankH ctxRec) (fld r 0 64)) 1 ankL).1.grantLease
          100 (lantD 7 recVa).lantern .context (some (fld r 0 64))
          ((lantD 7 recVa).ctxTenant (recMem ankH ctxRec) (fld r 0 64)) (fld r 0 64) 0 (some (ankL.agent, ankL.index, ankL.gen))
          (.context ((lantD 7 recVa).ctxTenant (recMem ankH ctxRec) (fld r 0 64))
            ((lantD 7 recVa).ctxWord (recMem ankH ctxRec) (fld r 0 64) 2).toNat) = (e, some x)) ∧
    ((lantS (recMem 0 capRec) 8 recVa).served 7 src0 capH 8 recVa (lantD 8 recVa) ∧
      ∃ r, (lantD 8 recVa).recordIs 100 (recMem 0 capRec) src0 recVa r ∧ fld r 0 64 < 65536 ∧ fld r 64 64 < 65536 ∧
        fld r 128 64 < 65536 ∧ fld r 192 64 = 0 ∧ fld r 128 64 ≠ 0 ∧ duration (fld r 128 64) = some 256 ∧
        fld r 0 64 &&& (0xFFFF : BitVec 16).toNat = fld r 0 64 ∧
        ∃ e x, (lantD 8 recVa).grantLease 100 (lantD 8 recVa).lantern .cap (some (fld r 64 64))
          ((lantD 8 recVa).ctxTenant (recMem 0 capRec) (fld r 64 64)) (fld r 64 64) (100 + 256) none
          (.cap (BitVec.ofNat 16 (fld r 0 64))) = (e, some x)) ∧
    (let c := { capL with payload := .cap 0 }
     let d := reqD { lantDev with leases := [c] } (.gate capH 8 0)
     d.judged 100 src0 capH = .ok c ∧ bit (0 : BitVec 16) 8 = false) := by
  refine ⟨lant_served _ _ _ (by decide), lant_served _ _ _ (by decide), lant_served _ _ _ (by decide),
    ⟨lant_served _ _ _ (by decide), by decide +kernel, by decide +kernel⟩,
    ⟨lant_served _ _ _ (by decide), by decide +kernel, by decide +kernel, ?_⟩,
    ⟨lant_served _ _ _ (by decide), _, rec_of (r := 2 + 2 ^ 64 * 0x40000 + 2 ^ 128) (by decide +kernel),
      ⟨by decide +kernel, by decide +kernel, by decide +kernel, by decide +kernel, by decide +kernel, by decide +kernel⟩,
      by decide +kernel, pair_eq (by decide +kernel)⟩,
    ⟨lant_served _ _ _ (by decide), _, rec_of (r := 5 + 2 ^ 64 * ankH.toNat) (by decide +kernel),
      ⟨by decide +kernel, by decide +kernel, by decide +kernel, by decide +kernel, by decide +kernel⟩,
      by decide +kernel, by decide +kernel, pair_eq (by decide +kernel)⟩,
    ⟨lant_served _ _ _ (by decide), _, rec_of (r := 0xFE + 2 ^ 64 * 5 + 2 ^ 128) (by decide +kernel),
      by decide +kernel, by decide +kernel, by decide +kernel, by decide +kernel, by decide +kernel, by decide +kernel,
      by decide +kernel, pair_eq (by decide +kernel)⟩, ok_eq (by decide +kernel), by decide⟩
  obtain ⟨p, hp⟩ := pick_some (d := lantD 1 64) (t := 100) (n := 128 * 64)
    (ok := fun a => a.die == coreDie src0.core) (by decide +kernel)
  exact ⟨p, hp, grant_some rfl (rec_small (by show (4 : Nat) < _; decide)
    (by show ∀ l ∈ lantDev.leases, _; decide)) (by show (1 : Nat) < 4096; decide)⟩

/-- ALLOC of 2^12 bytes anywhere, for a quantum, with or without a deadline. -/
def allocReq (dl : Bool) : Word := 12 + (if dl then 64 else 0)
def allocMem (req : Word) : Memory :=
  (⟨[]⟩ : Memory).writeAll (bytesAt 0x10100 8 req.toNat ++ bytesAt 0x10108 8 5000 ++ bytesAt 0x10110 8 1)
def allocS (req : Word) : State := { reqS lantDev (.alloc 0x10100 0x10100) with mem := allocMem req }
def allocD : Dev := reqD lantDev (.alloc 0x10100 0x10100)
def allocA (a : List AllocWait) : Dev := { allocD with allocs := a }

/-- The dwords of the record. -/
def allocW (req : Word) (k : Nat) : Word := wd64 (gather (allocD.unitByte 100 (allocMem req)) ((List.range 8).map (0x10100 + 8 * k + ·)))

theorem witness_Allocation :
    (∀ r ∈ [allocReq true, allocReq false],
      (allocS r).asks 7 src0 (.alloc 0x10100 0x10100) allocD ∧ allocD.busyLine 100 (lineOf 0x10100) = false ∧
      allocD.unitMayWrite 100 (lineOf 0x10100) = true ∧ allocD.cutOff (lineOf 0x10100) = false ∧
      allocD.outOfUse (allocD.homeOf (coreDie src0.core) (lineOf 0x10100)) = false ∧
      allocD.judgeRange 100 src0.ctx 0x10100 = none ∧ allocD.isExact (lineOf 0x10100) = false ∧
      allocD.plainLine (lineOf 0x10100) ∧ allocD.poisoned 0x10100 = false ∧ allocD.allocOk 100 src0 (allocW r 0) (allocW r 2) = true) ∧
    (∃ r, allocD.tryAlloc 100 (allocMem (allocReq true)) src0 0x10100 (allocW (allocReq true) 0) (allocW (allocReq true) 2) = some r) ∧
    (duration (1 : Word).toNat = some 256 ∧ (1 : Word) ≠ 0 ∧
      allocD.overQuota 100 src0.tenant (2 ^ bits (allocReq true) 0 6) = false ∧ ∃ p, allocD.pickPlace 100 (2 ^ bits (allocReq true) 0 6)
      (allocD.placement (allocReq true) (coreDie src0.core)).1 (allocD.placement (allocReq true) (coreDie src0.core)).2 = some p ∧
      ∃ e h, allocD.grantRange 100 src0 p (2 ^ bits (allocReq true) 0 6) (some 256) (allocD.ctxLease 100 src0.ctx) = (e, some h)) ∧
    (bit (allocReq true) 6 = true ∧ 100 < (allocW (allocReq true) 1).toNat ∧ bit (allocReq false) 6 = false) ∧
    (let w : AllocWait := ⟨7, src0, 0x10100, 0x10100, allocReq true, 1, 101⟩
     let d := allocA [w]
     d.allocs.find? (fun w => (d.tryAlloc 100 (allocMem (allocReq true)) w.src w.record w.req w.dur).isSome) = some w ∧ w.id = 7 ∧
       d.unitMayWrite 100 (lineOf w.record) = true ∧ ∃ r, d.tryAlloc 100 (allocMem (allocReq true)) w.src w.record w.req w.dur = some r) ∧
    (let w : AllocWait := ⟨7, src0, 0x10100, 0x10100, allocReq true, 1, 100⟩
     let d := allocA [w]
     d.allocs.find? (fun w => w.id = 7) = some w ∧ d.unitMayWrite 100 (lineOf w.record) = true) := by
  have hp : ∀ a, ∃ p, (allocA a).pickPlace 100 (2 ^ 12) 0 (fun _ => true) = some p :=
    fun a => pick_some rfl
  have hg : ∀ a p, ∃ e h, (allocA a).grantRange 100 src0 p (2 ^ 12) (some 256) (some ctxL) = (e, some h) :=
    fun a p => grant_some rfl (rec_small (by show (4 : Nat) < _; decide)
      (by show ∀ l ∈ lantDev.leases, _; decide)) (by show (1 : Nat) < 4096; decide)
  have ht : ∀ a, ∃ r, (allocA a).tryAlloc 100 (allocMem (allocReq true)) src0 0x10100 (allocReq true) 1 = some r := by
    intro a
    obtain ⟨p, hp⟩ := hp a
    obtain ⟨e, h, hg⟩ := hg a p
    have hc : (allocA a).ctxLease 100 src0.ctx = some ctxL := rfl
    have hl : (allocA a).placement (allocReq true) (coreDie src0.core) = (0, fun _ => true) := rfl
    have hb : bits (allocReq true) 0 6 = 12 := by decide
    have hd : duration (1 : Word).toNat = some 256 := by decide
    unfold Dev.tryAlloc
    dsimp only
    have hq : ¬((1 : Word) = 0 ∧ (some ctxL).isNone = true ∨ (allocA a).overQuota 100 src0.tenant (2 ^ 12) = true) := by
      rintro (⟨h, -⟩ | h)
      · exact absurd h (by decide)
      · exact absurd (show (false = true) from h) (by decide)
    rw [hc, hl, hb, hd, hp, if_neg hq]
    exact ⟨_, by dsimp only; rw [hg]⟩
  have hw : allocW (allocReq true) 0 = allocReq true ∧ allocW (allocReq true) 2 = 1 := by decide +kernel
  refine ⟨?_, ?_, ⟨by decide, by decide, rfl, ?_⟩, ⟨by decide, by decide +kernel, by decide⟩, ⟨?_, rfl, by decide +kernel, ht _⟩,
    by decide +kernel, by decide +kernel⟩
  · intro r hr
    simp only [List.mem_cons, List.not_mem_nil, or_false] at hr
    rcases hr with rfl | rfl <;>
      exact ⟨⟨rfl, rfl⟩, by decide +kernel, by decide +kernel, by decide +kernel, rfl, by decide +kernel, rfl,
        acc_plain' allocD rfl rfl, rfl, by decide +kernel⟩
  · rw [hw.1, hw.2]; exact ht allocD.allocs
  · obtain ⟨p, hp⟩ := hp allocD.allocs
    exact ⟨p, hp, hg allocD.allocs p⟩
  · obtain ⟨r, h⟩ := ht [⟨7, src0, 0x10100, 0x10100, allocReq true, 1, 101⟩]
    show List.find? _ [_] = _
    rw [List.find?_cons_of_pos]
    show Option.isSome (Dev.tryAlloc _ _ _ _ _ _ _) = true
    rw [show (allocA [⟨7, src0, 0x10100, 0x10100, allocReq true, 1, 101⟩]).tryAlloc 100 (allocMem (allocReq true)) src0 0x10100 (allocReq true) 1 = some r from h]
    rfl

/-- A range over all of memory, and a module in which it is held. -/
def wholeL : Lease := leaseOf .range (.range 0 (2 ^ 39) 0)
def fullDev : Dev := reqD { lantDev with leases := [capL, ctxL, mapL, wholeL] } (.alloc 0x10100 0x10100)

theorem unheld_false {d : Dev} {t p n b m : Nat} {v : Word} {l : Lease} (hm : l ∈ d.leases) (hp : l.payload = .range b m v)
    (hl : d.lapsed t l = false) (h : meets p n b m = true) : d.unheld t p n = false := by
  unfold Dev.unheld
  have : d.leases.any (fun l => match l.payload with
      | .range b m _ => !d.lapsed t l && meets p n b m
      | .anchor _ w _ => !d.lapsed t l && meets p n w 36864
      | _ => false) = true := List.any_eq_true.mpr ⟨l, hm, by rw [hp, hl]; show (!false && meets p n b m) = true; rw [h]; rfl⟩
  simp only [Bool.and_eq_false_imp, Bool.not_eq_true']
  intro h
  exact absurd (this.symm.trans h) (by decide)

theorem full_may (ok : AgentId → Bool) (p : Nat) (hp : p < 2 ^ 52) : fullDev.mayStart 100 (4096) ok p = false := by
  have hk : keyPhys p = p := Nat.mod_eq_of_lt hp
  unfold Dev.mayStart
  dsimp only
  rw [hk]
  by_cases h : p < 2 ^ 39
  · rw [unheld_false (l := wholeL) (by show wholeL ∈ [capL, ctxL, mapL, wholeL]; simp) rfl (by decide +kernel)
      (b := 0) (m := 2 ^ 39) (by simp only [meets, Bool.and_eq_true, decide_eq_true_eq]; omega)]
    simp
  · have : isDram p = false := by
      have : ¬p / 2 ^ 37 < 4 := by omega
      unfold isDram
      rw [decide_eq_false this, Bool.false_and]
    rw [this]; simp

theorem fold_none {f : Nat → Bool} {g : Option Nat → Nat → Bool} : ∀ l : List Nat, (∀ x ∈ l, f x = false) →
    l.foldl (fun b p => if (f p && g b p) = true then some p else b) none = none := by
  intro l
  induction l with
  | nil => intro _; rfl
  | cons a l ih =>
    intro h
    rw [List.foldl_cons, h a List.mem_cons_self, Bool.false_and, if_neg Bool.false_ne_true]
    exact ih (fun p hp => h p (List.mem_cons_of_mem _ hp))

theorem starts_lt {d : Dev} (hb : ∀ l ∈ d.leases, ∀ b m v, l.payload = .range b m v → b + m ≤ 2 ^ 39)
    (ha : ∀ l ∈ d.leases, ∀ t w n, l.payload = .anchor t w n → w ≤ 2 ^ 39) (he : d.exactLines = []) :
    ∀ p ∈ d.starts 0, p < 2 ^ 52 := by
  intro p hp
  unfold Dev.starts at hp
  obtain ⟨q, hq, hp⟩ := List.mem_flatMap.mp hp
  obtain ⟨j, hj, rfl⟩ := List.mem_map.mp hp
  have hj := List.mem_range.mp hj
  have : q ≤ 2 ^ 41 := by
    rcases List.mem_append.mp hq with hq | hq
    · rcases List.mem_append.mp hq with hq | hq
      · obtain ⟨k, hk, rfl⟩ := List.mem_map.mp hq
        have := List.mem_range.mp hk
        unfold apKey; omega
      · obtain ⟨l, hl, h⟩ := List.mem_filterMap.mp hq
        split at h
        · rename_i b m v hv
          have := hb l hl b m v hv
          split at h <;> cases h
          omega
        · rename_i t w n hv
          have := ha l hl t w n hv
          split at h <;> cases h
          omega
        · cases h
    · rw [he] at hq; cases hq
  omega

theorem full_place (ok : AgentId → Bool) : fullDev.pickPlace 100 (4096) 0 ok = none := by
  have hl : ∀ l ∈ fullDev.leases, l ∈ [capL, ctxL, mapL, wholeL] := fun _ h => h
  have hs : ∀ p ∈ fullDev.starts 0, p < 2 ^ 52 := by
    refine starts_lt ?_ ?_ rfl
    · intro l h b m v e
      have h := hl l h
      simp only [List.mem_cons, List.not_mem_nil, or_false] at h
      rcases h with rfl | rfl | rfl | rfl <;> cases e <;> decide
    · intro l h t w n e
      have h := hl l h
      simp only [List.mem_cons, List.not_mem_nil, or_false] at h
      rcases h with rfl | rfl | rfl | rfl <;> cases e
  have hf := full_may ok (apKey 0 (Config.allocPlace fullDev.fresh % 2 ^ 52))
    (by unfold apKey; have := Nat.mod_lt (Config.allocPlace fullDev.fresh) (show 2 ^ 52 > 0 by decide); omega)
  have hz := fold_none (g := fun b p => match b with
    | some q => decide (p < q)
    | none => true) (fullDev.starts 0) (fun p hp => full_may ok p (hs p hp))
  unfold Dev.pickPlace
  dsimp only
  rw [hf, if_neg Bool.false_ne_true]
  exact hz

/-- An ALLOC that cannot be met. -/
theorem full_ok (b : Bool) : allocW (allocReq b) 0 = allocReq b ∧ allocW (allocReq b) 2 = 1 ∧
    fullDev.allocOk 100 src0 (allocReq b) 1 = true ∧ 100 < (allocW (allocReq b) 1).toNat := by
  cases b <;> decide +kernel

theorem full_where (b : Bool) : bits (allocReq b) 0 6 = 12 ∧ fullDev.placement (allocReq b) 0 = (0, fun _ => true) := by
  cases b <;> exact ⟨by decide, rfl⟩

theorem witness_Allocation_none (b : Bool) : let r := allocReq b
    (allocW r 0 = r ∧ allocW r 2 = 1) ∧ fullDev.allocOk 100 src0 r 1 = true ∧ fullDev.tryAlloc 100 (allocMem (allocReq true)) src0 0x10100 r 1 = none ∧
      fullDev.judgeRange 100 0 0x10100 = none ∧ 100 < (allocW r 1).toNat := by
  intro r
  have hb : bits r 0 6 = 12 ∧ fullDev.placement r 0 = (0, fun _ => true) := full_where b
  obtain ⟨h0, h2, ho, ht⟩ := full_ok b
  refine ⟨⟨h0, h2⟩, ho, ?_, by decide +kernel, ht⟩
  have hn : fullDev.pickPlace 100 (2 ^ bits r 0 6) (fullDev.placement r (coreDie src0.core)).1
      (fullDev.placement r (coreDie src0.core)).2 = none := by
    rw [hb.1, show (2 : Nat) ^ 12 = 4096 from rfl, show coreDie src0.core = 0 from rfl, hb.2]
    exact full_place _
  unfold Dev.tryAlloc
  dsimp only
  have hq : ¬((1 : Word) = 0 ∧ (fullDev.ctxLease 100 src0.ctx).isNone = true ∨
      fullDev.overQuota 100 src0.tenant (2 ^ bits r 0 6) = true) := by
    rintro (⟨h, -⟩ | h)
    · exact absurd h (by decide)
    · exact absurd (show (false = true) from h) (by decide)
  rw [if_neg hq, hn]

/-! ### Witnesses: bundles, views, sets, walks, wakes, containment -/

/-- A bundle record whose own line is 0x20000, its lease, its handle, and a store of a dword at 0x10100 under it. -/
def bunB (st : BunSt) (comps : List (Nat × Word)) (naming : List AgentId) : Bundle := ⟨0x20000, 0x20000, 256, st, comps, naming⟩
def bunL (b : Bundle) : Lease := leaseOf .bundle (.bundle b)
def bunH : Word := mkHandle 9 0 0 1
def bunDev (b : Bundle) (ls : List BLine) : Dev := { leasedDev [bunL b] with blines := ls }
def bstAcc : Acc := accAt (.bst bunH [⟨0x10100, 0xFF, 7⟩]) .travelling
def bstS (ls : List BLine) : State := sys (mail (bunDev (bunB .opened [] []) ls) (.acc bstAcc))

/-- The line at 0x10100 with a bundle `nb` whose stamp is `known`, and an old version. -/
def bl (nb : Option (AgentId × Nat × Nat)) (known : Option Nat) : BLine :=
  ⟨0x10100, nb, known, 5, some (4, 0, none), none, false⟩

/-- The module once the store's line has its caching die. -/
def bstD (ls : List BLine) : Dev := (bstS ls).dev.touch 0 bstAcc.line

theorem bst_takes (ls : List BLine) : (bstS ls).bundleTakes (bstD ls) 7 bstAcc bunH (bunL (bunB .opened [] [])) where
  touch := rfl
  turn := rfl
  named := ok_eq rfl
  up := ⟨rfl, rfl⟩
  range := fun _ h => by cases h
  live := rfl
  holder := rfl
  tag := rfl
  exact := rfl

/-- A join of the line at 0x10100 to a record with `n` companions elsewhere, or with it. -/
def joinS (comps : List (Nat × Word)) (naming : List AgentId) : State :=
  sys (mail (bunDev (bunB .opened comps naming) []) (.join src0 home0 0 1 0x10100 0x10100 bstAcc))

theorem witness_BundlesGather :
    (let q : Dev := reqD (leasedDev []) (.bopen 0x20000 0x20000 256 256)
     let d := q.touch 0 0x20000
     (reqS (leasedDev []) (.bopen 0x20000 0x20000 256 256)).asks 7 src0 (.bopen 0x20000 0x20000 256 256) q ∧
       d.cutOff 0x20000 = false ∧ d.outOfUse (d.homeOf 0 0x20000) = false ∧ d.judgeRange 100 0 0x20000 = none ∧ d.keyed 0x20000 = none ∧
       ∃ e h, d.grantLease 100 (d.homeOf 0 0x20000) .bundle (some 0) 0 0 (d.clock 100 (d.homeOf 0 0x20000).mod + 256) none
         (.bundle ⟨0x20000, 0x20000, 256, .opened, [], []⟩) = (e, some h)) ∧
    (∀ ls, (bstS ls).carries 7 (.acc bstAcc) ∧ bstAcc.op = .bst bunH [⟨0x10100, 0xFF, 7⟩] ∧
      (bstS ls).bundleTakes (bstD ls) 7 bstAcc bunH (bunL (bunB .opened [] []))) ∧
    (bstD []).bline bstAcc.line = none ∧
    (∀ nb known, (bstD [bl nb known]).bline bstAcc.line = some (bl nb known)) ∧
    ((home0, 5, 1) ≠ (home0, 0, 1) ∧ (bl (some (home0, 5, 1)) (some 9)).held
      ((bstD []).clock 100 ((bstD []).accHome bstAcc).mod) ≠ none ∧ ({ bl (some (home0, 5, 1)) (some 9) with old := none } : BLine).held 100 = none) ∧
    (∀ comps naming, (joinS comps naming).carries 7 (.join src0 home0 0 1 0x10100 0x10100 bstAcc) ∧
      ((joinS comps naming).dev.drop 7).record (home0, 0, 1)
        = some (bunL (bunB .opened comps naming), bunB .opened comps naming)) ∧
    ([((0x10100 : Nat), (0x10100 : Word))].any (fun p => p.1 = 0x10100) = true) ∧
    ((List.replicate 63 ((0x30000 : Nat), (0x30000 : Word))).any (fun p => p.1 = 0x10100) = false ∧
      (List.replicate 63 ((0x30000 : Nat), (0x30000 : Word))).length < 64 ∧ (List.replicate 15 home0).length < 16) ∧
    ((List.replicate 64 ((0x30000 : Nat), (0x30000 : Word))).any (fun p => p.1 = 0x10100) = false ∧
      64 ≤ (List.replicate 64 ((0x30000 : Nat), (0x30000 : Word))).length) ∧
    (let s := sys (mail (bunDev (bunB .opened [] []) []) (.doom src0 home0 0 1 bstAcc Cause.conflict))
     s.carries 7 (.doom src0 home0 0 1 bstAcc Cause.conflict) ∧
       s.dev.record (home0, 0, 1) = some (bunL (bunB .opened [] []), bunB .opened [] [])) := by
  refine ⟨⟨⟨rfl, rfl⟩, by decide +kernel, rfl, by decide +kernel, rfl, pair_eq rfl⟩,
    fun _ => ⟨rfl, rfl, bst_takes _⟩, rfl, fun _ _ => rfl, ⟨by decide, by decide, by decide⟩, fun _ _ => ⟨rfl, rfl⟩, by decide,
    ⟨by decide +kernel, by decide, by decide⟩, ⟨by decide +kernel, by decide⟩, rfl, rfl⟩

def sealD (st : BunSt) : Dev := reqD (bunDev (bunB st [(0x10100, 0x10100)] [home0]) []) (.bseal bunH)

theorem witness_BundlesSeal :
    (∀ st, (reqS (bunDev (bunB st [(0x10100, 0x10100)] [home0]) []) (.bseal bunH)).asks 7 src0 (.bseal bunH) (sealD st) ∧
      (sealD st).bundleAcked src0 bunH = true ∧ (sealD st).judged 100 src0 bunH = .ok (bunL (bunB st [(0x10100, 0x10100)] [home0]))) ∧
    (sys (mail (benchDev benchT) (.sealNotice home0 home0 0 1 50 306))).carries 7 (.sealNotice home0 home0 0 1 50 306) ∧
    (let s := sys (mail (bunDev (bunB (.sealed 50) [] []) []) (.bundleAsk home0 home0 0 1))
     s.carries 7 (.bundleAsk home0 home0 0 1) ∧
       (s.dev.drop 7).record (home0, 0, 1) = some (bunL (bunB (.sealed 50) [] []), bunB (.sealed 50) [] [])) ∧
    (let d := reqD (bunDev (bunB .opened [(0x10100, 0x10100)] []) []) (.bchk 0x20000 0)
     (reqS (bunDev (bunB .opened [(0x10100, 0x10100)] []) []) (.bchk 0x20000 0)).asks 7 src0 (.bchk 0x20000 0) d ∧
       d.keyed 0x20000 = some (bunL (bunB .opened [(0x10100, 0x10100)] []), bunB .opened [(0x10100, 0x10100)] []) ∧
       (bunL (bunB .opened [(0x10100, 0x10100)] [])).holder = some src0.ctx) ∧
    (∀ nm, let b := bunB (.sealed 50) [(0x10100, 0x10100)] nm
     let s := sys (mail (bunDev b []) (.compReport home0 home0 0 1))
     s.carries 7 (.compReport home0 home0 0 1) ∧ (s.dev.drop 7).record (home0, 0, 1) = some (bunL b, b)) ∧
    ([home0, lant0].filter (fun h => h != home0) ≠ [] ∧ [home0].filter (fun h => h != home0) = []) := by
  refine ⟨fun _ => ⟨⟨rfl, rfl⟩, rfl, ok_eq ?_⟩, rfl, ⟨rfl, rfl⟩, ⟨⟨rfl, rfl⟩, rfl, rfl⟩, fun _ => ⟨rfl, rfl⟩, by decide, by decide⟩
  exact decide_eq_true rfl

/-- ViewsChooseVersions: a line that no bundle names, and stamps on either side of a view. -/
theorem witness_ViewsChooseVersions :
    (bl none none).nb = none ∧ (bl (some (home0, 0, 1)) (some 50)).known = some 50 ∧
    ((49 : Nat) < 50 ∧ (bl (some (home0, 0, 1)) (some 50)).held 100 = some (4, 0)) ∧
    (let b : BLine := ⟨0x10100, some (home0, 0, 1), some 50, 5, some (4, 30, some 101), none, false⟩
     b.held 100 = some (4, 30) ∧ (29 : Nat) < 30 ∧ b.held 101 = none) := by decide +kernel

/-- A commit of thread 0 whose set is `t`. -/
def mcsS (t : Thread) : State := sys (mail (benchDev t) (.req src0 .mcs))

theorem witness_SetsCommitWhole :
    (∀ t : Thread, (mcsS t).carries 7 (.req src0 .mcs) ∧ (mcsS t).dev.thr src0.tid = some t ∧
      (mcsS t).dev.released src0 = true ∧
      (∀ l, (mcsS t).dev.setLineFree 100 l = true) ∧ (mcsS t).dev.msgs.any (fun x => match x.kind with
        | .acc a => a.src.tid == src0.tid && (match a.op with
          | .mcsld .. => true
          | _ => false)
        | _ => false) = false) ∧
    benchT.mcsLines = [] ∧ ({ setT with mcsBroken := some 9 } : Thread).mcsBroken = some 9 ∧
    (setT.mcsLines ≠ [] ∧ setT.mcsBroken = none ∧ setT.mcsSince = some 90 ∧ (100 : Nat) ≤ 90 + 4096 ∧ 90 + 4096 < 4187) :=
  ⟨fun _ => ⟨rfl, rfl, rfl, fun _ => rfl, rfl⟩, rfl, rfl, by decide, rfl, rfl, by decide, by decide⟩

/-- A walk of context 0 for thread 0's page, stale or not. -/
def walk0 (stale : Bool) : Walk := ⟨3, 0, 0, 0x10100, [.thread 0 1 0x10002 0x10100], stale⟩
def walkDev (stale : Bool) : Dev := { benchDev benchT with walks := [walk0 stale], iss := ⟨0x10002, 0x10004, none, false⟩ }

/-- Memory with an entry and a tree of one page for context 0: directories at 0x2000, 0x4000, 0x6000, a node at 0x8000. -/
def treeMem : Memory := (⟨[]⟩ : Memory).writeAll (bytesAt 0 8 0x2001 ++ bytesAt 0x2000 8 0x4001 ++ bytesAt 0x4000 8 0x6001
  ++ bytesAt 0x6000 8 0x8001 ++ bytesAt 0x8008 8 0x1000F)

/-- A fault record of a die, which its ring can take: tenant 0's fault queue at 0x40000, of 16 records. -/
def fault0 (log : Bool) : FaultRec := ⟨4, 0, 0, 0, Cause.notPresent, 1, 0, 1, 0x10100, 0, 0, [], 0, false, !log, log⟩
def ringMem : Memory := (⟨[]⟩ : Memory).writeAll (bytesAt 0 8 0x40000 ++ bytesAt 8 8 4 ++ bytesAt 16 8 0x50000 ++ bytesAt 24 8 4)
def faultDev (log : Bool) : Dev := { benchDev benchT with faults := [fault0 log] }

theorem witness_WalksAndRecords :
    (∀ b, (walkDev b).walks.find? (fun x => x.id = 3) = some (walk0 b) ∧
      (walkLines treeMem (walkDev b).ctxtb 0 0x10100).any ((walkDev b).busyLine 100) = false) ∧
    ((walk0 false).joiners = [.thread 0 1 0x10002 0x10100] ∧ (walkDev false).thr 0 = some benchT ∧
      (∃ r, walkTree treeMem 0 0 0 0x10100 (AccK.ofCode 1) = .ok r) ∧
      (∃ e, walkTree ⟨[]⟩ 0 0 0 0x10100 (AccK.ofCode 1) = .error e) ∧
      benchT.pc = 0x10002 ∧ benchT.wst = .ready ∧ benchT.exited = false ∧ benchT.traps = []) ∧
    (∀ log, (faultDev log).nextRecord ringMem 0 (fault0 log) ∧
      (let r := (faultDev log).ring ringMem (fault0 log)
       (faultDev log).unitMayWrite 100 (lineOf (r.1 + 32 * r.2.2)) = true ∧
         bit (ringMem.read64 (r.1 + 32 * r.2.2)) 63 = false)) ∧
    (∀ op : TlbiFn, let s := sys (mail (benchDev benchT) (.req src0 (.tlbi op 0x10100 0)))
     s.carries 7 (.req src0 (.tlbi op 0x10100 0)) ∧ (s.dev.doTlbi ⟨[]⟩ src0 op 0x10100 0).isSome = true) := by
  refine ⟨fun b => ⟨rfl, by cases b <;> decide +kernel⟩, ⟨rfl, rfl, ?_, ?_, rfl, rfl, rfl, rfl⟩, ?_, fun _ => ⟨rfl, rfl⟩⟩
  · exact (ok_of (p := fun _ => true) (by decide +kernel)).imp (fun _ h => h.1)
  · exact ⟨_, rfl⟩
  · intro log; cases log <;> exact ⟨by unfold Dev.nextRecord; decide +kernel, by decide +kernel⟩

/-- A record on which thread 0 is parked. -/
def parkT : Thread := { benchT with wst := .parked 4 }

/-- A sender of context 1, which the router holds to its tenant's rectangles. -/
def src1 : From := { src0 with ctx := 1 }

theorem witness_Wakes :
    (let d := { benchDev parkT with faults := [fault0 false] }
     (reqD d (.wakeRec 4)).sentNow 7 = false ∧ (reqS d (.wakeFail 4)).asks 7 src0 (.wakeFail 4) (reqD d (.wakeFail 4)) ∧
       (reqD d (.wakeFail 4)).faults.find? (fun f => f.rid = 4) = some (fault0 false) ∧
       ((reqD d (.wakeFail 4)).wakeRecord 100 4 (some (fault0 false).cause)).2 = true ∧ (reqS d (.wakeRec 4)).asks 7 src0 (.wakeRec 4) (reqD d (.wakeRec 4)) ∧
       ((reqD d (.wakeRec 4)).wakeRecord 100 4 none).2 = true ∧ ((reqD d (.wakeRec 5)).wakeRecord 100 5 none).2 = false) ∧
    (∀ t : Thread, t.place = .slot 0 0 → (reqS (benchDev t) (.wakeSlot 0 0)).asks 7 src0 (.wakeSlot 0 0) (reqD (benchDev t) (.wakeSlot 0 0)) ∧
      (reqS (benchDev t) (.wakeStop 0 0)).asks 7 src0 (.wakeStop 0 0) (reqD (benchDev t) (.wakeStop 0 0)) ∧
      (reqD (benchDev t) (.wakeSlot 0 0)).sentNow 7 = false ∧ (reqD (benchDev t) (.wakeSlot 0 0)).routes ⟨[]⟩ src0 0 = true ∧
      (benchDev t).slotTid 0 0 = some 0 ∧ (benchDev t).thr 0 = some t) ∧
    (benchT.place = .slot 0 0 ∧ benchT.exited = false ∧ benchT.stopped = false ∧ benchT.wst ≠ .halted) ∧
    (let d := { benchDev benchT with threads := [(0, benchT), (1, { benchT with place := .slot 0 1 })] }
     d.slotTid 0 1 = some 1 ∧ ∀ u, d.thr src0.tid = some u → u.place ≠ .slot 0 1) ∧
    (let s := sys (mail (benchDev benchT) (.req src1 (.wakeSlot 0 1)))
     s.asks 7 src1 (.wakeSlot 0 1) (s.dev.drop 7) ∧ (s.dev.drop 7).sentNow 7 = false ∧ (s.dev.drop 7).routes s.mem src1 0 = false) ∧
    ((reqD (benchDev benchT) (.wakeSlot 0 1)).routes ⟨[]⟩ src0 0 = true ∧
      (reqD (benchDev benchT) (.wakeSlot 0 1)).slotTid 0 1 = none) ∧
    (∃ t : Thread, t.wst = .doze 100 ∧ (100 : Word).toNat ≤ 100) := by
  refine ⟨⟨rfl, ⟨rfl, rfl⟩, rfl, by decide +kernel, ⟨rfl, rfl⟩, by decide +kernel, by decide +kernel⟩, ?_, ⟨rfl, rfl, rfl, by decide⟩,
    ⟨rfl, ?_⟩, ⟨⟨rfl, rfl⟩, rfl, by decide +kernel⟩, ⟨rfl, rfl⟩,
    { benchT with wst := .doze 100 }, rfl, by decide⟩
  · intro t h
    refine ⟨⟨rfl, rfl⟩, ⟨rfl, rfl⟩, rfl, rfl, ?_, rfl⟩
    show Option.map Prod.fst (List.find? (fun p : Nat × Thread => decide (p.2.place = .slot 0 0)) [(0, t)]) = _
    rw [List.find?_cons_of_pos (by simpa using h)]
    rfl
  · intro u hu
    cases hu
    decide

theorem witness_ErrorsAreContained :
    (let d := mail (benchDev benchT) (.consume 0 Cause.sramUncorrectable 0x10100)
     d.msgs.any (fun m => m.kind = .consume 0 Cause.sramUncorrectable 0x10100) = true ∧ d.fencedCore 0 = false) ∧
    (let f : Fence := ⟨[0], 0, Cause.sramUncorrectable, []⟩
     [f][0]? = some f ∧ f.since + 65536 ≤ 65536) ∧
    ((keyAp 0x10100 ≤ 0xC0 ∧ isDram (keyPhys 0x10100) = true) ∧
      (benchDev benchT).badWords.contains (0x10100 / 8 * 8) = false) ∧
    (let t := { benchT with slotcfg := 1, qblk := some 0 }
     let d := { benchDev t with
       cores := [(0, { benchCore with q := #v[some ⟨0, 4, []⟩, none, none, none] })] }
     d.ringSlots 0 0 = [(0, t)] ∧ t.qblk = some 0 ∧ 0 + 65536 ≤ 65536) :=
  ⟨⟨by decide +kernel, rfl⟩, ⟨rfl, by decide⟩, ⟨⟨by decide, by decide +kernel⟩, rfl⟩, by decide +kernel, rfl, by decide⟩

/-! ### Witnesses: the array and the copy engines -/

/-- The bench with cluster 0's array changed. -/
def arrDev (f : MArray → MArray) : Dev :=
  { benchDev benchT with clusters := [(0, { Cluster.reset with array := f MArray.reset })] }

/-- Cluster 0's array, a grant of it to thread 0, and the grant's lease. -/
def arr0 : AgentId := ⟨0, 0, 1, 0⟩
def grant0 (left : Nat) : AGrant := ⟨3, 0, 0, 0, 1, left, none, true⟩
def grantL : Lease := ⟨arr0, 0, 1, .array, some 0, 0, 1000, none, .array 0, false⟩
def grantDev (left : Nat) : Dev := { arrDev (fun a => { a with grant := some (grant0 left) }) with leases := [grantL] }

theorem witness_ArrayAndLeave :
    (∀ rs : List AReq, let d := arrDev (fun a => { a with reqs := rs })
     (reqS d (.array 0 256)).asks 7 src0 (.array 0 256) (reqD d (.array 0 256)) ∧
       ((reqD d (.array 0 256)).clus 0).array.reqs = rs) ∧
    ((([] : List AReq).any (fun r => r.src.tid == src0.tid)) = false ∧
      ([(⟨3, src0, 256, false⟩ : AReq)].any (fun r => r.src.tid == src0.tid)) = true) ∧
    (let r : AReq := ⟨3, src0, 256, true⟩
     let d := arrDev (fun a => { a with reqs := [r] })
     (d.clus 0).array.reqs = [r] ∧ d.liveGrant 100 0 = none ∧ d.recordAway 100 0 = false ∧ d.srcStopped src0 = false ∧
       let e := (d.endGrant 0).updArray 0 (fun a => { a with reqs := [], ends := a.ends })
       ∃ f h, e.grantLease 100 (e.arrayAgent 0) .array (some 0) 0 0 (100 + 256) none (.array 0) = (f, some h)) ∧
    (sys (mail (benchDev benchT) (.leave 3 9 0))).carries 7 (.leave 3 9 0) ∧
    (∀ held, let d := { benchDev benchT with leaveQ := [⟨3, 9, 0⟩], leaveHeld := held }
     d.leaveQ = [⟨3, 9, 0⟩] ∧ d.leaveHeld = held) ∧
    ([(⟨4, 1191, 0⟩ : LeaveReq)].foldl (fun n x => n + x.units) 0 + 9 ≤ 1200 ∧
      1200 < [(⟨4, 1192, 0⟩ : LeaveReq)].foldl (fun n x => n + x.units) 0 + 9) :=
  ⟨fun _ => ⟨⟨rfl, rfl⟩, rfl⟩, by decide, ⟨rfl, rfl, rfl, rfl, pair_eq rfl⟩, rfl, fun _ => ⟨rfl, rfl⟩, by decide, by decide⟩

/-- A command that waits: an MMA with no slab, of a grant whose lease is over. -/
def mmaE (g : Nat) : MEntry := ⟨src0, .mma 0, 0x10002, g, 0, 1, 0, none⟩
def giveDev : Dev := arrDev (fun a => { a with fifo := [mmaE 0] })

theorem witness_ArrayAccepts :
    (∀ d : Dev, d.msgs = [⟨7, .command src0 0 (.mma 0) 0x10002⟩] → (d.clus 0).array.fifo.length < 16 → d.tenantStopped 0 = false →
      (sys d).reachesArray 7 src0 0 (.mma 0) 0x10002) ∧
    (∀ n, let d := mail (grantDev n) (.command src0 0 (.mma 0) 0x10002)
     d.msgs = [⟨7, .command src0 0 (.mma 0) 0x10002⟩] ∧ (d.clus 0).array.fifo.length < 16 ∧ d.tenantStopped 0 = false ∧
       (d.drop 7).liveGrant 100 0 = some (grant0 n) ∧ (grant0 n).core = src0.core ∧ (grant0 n).left = n) ∧
    (let d := mail (benchDev benchT) (.command src0 0 (.mma 0) 0x10002)
     (d.clus 0).array.fifo.length < 16 ∧ d.tenantStopped 0 = false ∧ (d.drop 7).liveGrant 100 0 = none) ∧
    (let s := sys (mail (benchDev benchT) (.req src0 (.mstat 0 .arr)))
     s.carries 7 (.req src0 (.mstat 0 .arr)) ∧ s.dev.arrayInOrder 7 0 0 = true) ∧
    (let d := giveDev.updArray 0 MArray.advance
     (d.clus 0).array.fifo = [mmaE 0] ∧ (mmaE 0).c = .mma 0 ∧ (d.clus 0).array.waiting = true ∧
       d.grantOver 100 0 0 1 = true ∧ d.srcStopped src0 = false) := by
  refine ⟨?_, fun _ => ⟨rfl, by show (0 : Nat) < 16; decide, rfl, rfl, rfl, rfl⟩, ⟨by decide, rfl, rfl⟩, ⟨rfl, rfl⟩, rfl, rfl, rfl, rfl, rfl⟩
  intro d hm hl ht
  exact ⟨by show d.msg 7 = _; unfold Dev.msg; rw [hm]; rfl, hl, by show d.arrayInOrder 7 0 0 = true; unfold Dev.arrayInOrder; rw [hm]; rfl, rfl⟩

/-- Slabs of two width classes, and of one. -/
def slab (f : Fmt) (n : Nat) : Slab := ⟨f, List.replicate n (0, 0), none, false⟩

/-- A descriptor of 32-bit units at 0x10100, and memory that holds it. -/
def lay0 : Layout := ⟨0x10100, 0, 0x000B000000000000, 0⟩
def layMem : Memory := (⟨[]⟩ : Memory).writeAll (bytesAt 0x10100 8 0x10100 ++ bytesAt 0x10110 8 0x000B000000000000)
def mlayE (c : Nat) (l : Layout) : MEntry := ⟨src0, .mlay 0 0x10100 none, 0x10002, 0, 0, 1, 0, some (c, l)⟩
def drainE : MEntry := ⟨src0, .mdrain 0 0x59000000 0 1, 0x10002, 0, 0, 1, 0, none⟩

theorem read_ok {o : Option (Nat × Layout)} (h : (match o with
    | some (0, l) => !l.bad
    | _ => false) = true) : ∃ l, o = some (0, l) ∧ l.bad = false := by
  rcases o with _ | ⟨_ | n, l⟩
  · cases h
  · exact ⟨l, rfl, by simpa using h⟩
  · cases h

/-- Cluster 0's array at its oldest command, with what its streams hold. -/
def retD (f : MArray → MArray) : Dev × List (Nat × Byte) := ((arrDev f).updArray 0 MArray.advance).readDescs 100 ⟨[]⟩ 0

theorem witness_ArrayRetires :
    (∀ c l, (retD (fun a => { a with fifo := [mlayE c l] })).2 = [] ∧
      ((retD (fun a => { a with fifo := [mlayE c l] })).1.clus 0).array.fifo = [mlayE c l] ∧
      (mlayE c l).c = .mlay 0 0x10100 none ∧ (mlayE c l).desc = some (c, l)) ∧
    (lay0.bad = false ∧ Layout.zero.bad = true) ∧
    (∃ l, ((arrDev (fun a => { a with fifo := [mlayE 0 Layout.zero] })).descriptor 100 layMem src0 0x10100 none) = some (0, l) ∧
      l.bad = false) ∧
    (let x := slab .bf16 0
     let y := slab .e4m3 0
     let d := (retD (fun a => { a with fifo := [mmaE 0], a := [x], b := [y] })).1
     (d.clus 0).array.fifo = [mmaE 0] ∧ (d.clus 0).array.a = [x] ∧ (d.clus 0).array.b = [y] ∧ widthClass x.fmt ≠ widthClass y.fmt) ∧
    (let x := slab .bf16 0
     let y := slab .f16 0
     let d := (retD (fun a => { a with fifo := [mmaE 2], a := [x], b := [y] })).1
     (d.clus 0).array.fifo = [mmaE 2] ∧ (d.clus 0).array.a = [x] ∧ (d.clus 0).array.b = [y] ∧
       widthClass x.fmt = widthClass y.fmt ∧ slabGroups x.fmt ≤ (mmaE 2).group) ∧
    (let x := { slab .bf16 0 with broken := true }
     let y := slab .f16 0
     let d := (retD (fun a => { a with fifo := [mmaE 0], a := [x], b := [y] })).1
     (d.clus 0).array.fifo = [mmaE 0] ∧ (d.clus 0).array.a = [x] ∧ (d.clus 0).array.b = [y] ∧
       widthClass x.fmt = widthClass y.fmt ∧ (mmaE 0).group < slabGroups x.fmt ∧ x.broken = true ∧ x.has (mmaE 0).group = false) ∧
    (∀ f, let d := (retD (fun a => { a with fifo := [drainE], r := List.replicate 1024 (f, 0) })).1
     (d.clus 0).array.fifo = [drainE] ∧ (d.clus 0).array.d = none ∧ (d.clus 0).array.r = List.replicate 1024 (f, 0)) ∧
    drainNeed 0x59000000 ≤ (List.replicate 1024 (Fmt.f32, 0)).length := by
  refine ⟨fun _ _ => ⟨rfl, rfl, rfl, rfl⟩, by decide +kernel, (read_ok (by decide +kernel)), ⟨rfl, rfl, rfl, by decide⟩,
    ⟨rfl, rfl, rfl, rfl, by decide⟩, ⟨rfl, rfl, rfl, rfl, by decide, rfl, rfl⟩, fun _ => ⟨rfl, rfl, rfl⟩, by decide +kernel⟩

theorem witness_MzeroClears : let e : MEntry := ⟨src0, .mzero 7, 0x10002, 0, 0, 1, 0, none⟩
    let d := arrDev (fun a => { a with fifo := [e, mmaE 0] })
    (d.clus 0).array.fifo = [e, mmaE 0] ∧ e.c = .mzero 7 ∧ e.flags = 0 := ⟨rfl, rfl, rfl⟩

theorem witness_MmaAddsGroups : accZero[0]? = some 0 ∧ accZero[1023]? = some 0 := by decide +kernel

/-- A command of an engine. -/
def cmd0 (c : ECmd) (l : Layout) (pos : Nat) (fail : Option Nat) (bound : Option (Nat × Nat)) : EEntry :=
  ⟨3, src0, c, l, pos, 99, false, bound, none, fail, false, false, none, false, false⟩

/-- The bench with commands of engine 0 of cluster 0, which belongs to core 0, and mapL's range. -/
def engDev (es : List EEntry) : Dev :=
  { lantDev with clusters := [(0, { Cluster.reset with
      eng0 := ⟨es⟩
      array := { MArray.reset with owner := some 0 } })] }

/-- A copy of 300 bytes from memory to a niche, and a feed of R from the gallery. -/
def xfer0 : ECmd := .xfer (nicheKey 0 0) 0x1000000010100 300 .nich .glob
def feedLay : Layout := ⟨0, 0, 0x008B000000000FFF, 0⟩
def feed0 : ECmd := .feed 0 2 (gallKey 0 0) 65536

theorem eng_serves (e : EEntry) (es : List EEntry) (hs : e.stop = none) (hf : e.fail = none) (hn : e.finished = false)
    (hq : e.src = src0) (hb : e.bytes ≤ 2 ^ 20) : (engDev (e :: es)).servesCmd 0 0 e where
  oldest := rfl
  runs := ⟨hs, hf, hn⟩
  free := by rw [hq]; rfl
  acked := by rw [hq]; rfl
  leave := .inl hb

theorem got_ok {g : Got} (h : (match g with
    | .ok _ => true
    | _ => false) = true) : ∃ l, g = .ok l := by cases g <;> first | exact ⟨_, rfl⟩ | cases h

theorem near_ok {o : Option Dev} (h : o.isSome = true) : ∃ d, o = some d := Option.isSome_iff_exists.mp h

theorem got_no {g : Got} (h : (match g with
    | .refused _ => true
    | _ => false) = true) : ∃ c, g = .refused c := by cases g <;> first | exact ⟨_, rfl⟩ | cases h

theorem witness_EnginesMove :
    (∀ c, let s := sys (mail (benchDev benchT) (.engine src0 0 0 c))
     s.carries 7 (.engine src0 0 0 c) ∧ ((s.dev.clus 0).eng 0).cmds.length < 64 ∧ s.dev.msgs = [⟨7, .engine src0 0 0 c⟩] ∧
       s.dev.srcStopped src0 = false) ∧
    (((benchDev benchT).clus 0).array.act[0].suits 2 = false ∧ feedLay.suits 2 = true ∧ (2 : Nat) < 3 ∧
      (benchDev benchT).boundTo 100 0 0 = none ∧ (grantDev 16).boundTo 100 0 0 = some (0, 1)) ∧
    (let e := cmd0 xfer0 Layout.zero 256 none none
     (engDev [e]).servesCmd 0 0 e ∧ ∃ rs ws,
       (engDev [e]).pieceGot 100 ⟨[]⟩ src0 .read .glob (0x1000000010100 + 256) 44 = .ok rs ∧
       (engDev [e]).pieceGot 100 ⟨[]⟩ src0 .write .nich (nicheKey 0 0 + 256) 44 = .ok ws ∧
       ∃ d, (engDev [e]).takeNear 100 0 [[], []] = some d) ∧
    nextPiece (nicheKey 0 0) 0x1000000010100 300 256 (copyDown (nicheKey 0 0) 0x1000000010100 300 .nich .glob) = (256, 44) ∧
    (let e := cmd0 feed0 feedLay 0 none (some (0, 1))
     let k := (engDev [e]).giveUp 100 ⟨[]⟩ 0
     (engDev [e]).servesCmd 0 0 e ∧ (k.clus 0).array.owner = some e.src.core ∧ e.held = false ∧
       (k.clus 0).array.full 2 e = false ∧
       (∃ rs, k.unitGot 100 ⟨[]⟩ e .read (feedLay.unitAt 0) (unitBytes feedLay.fmt) (gallKey 0 0) 65536 = .ok rs) ∧
       feedLay.scaleAt 0 = none ∧ ∃ d, k.takeNear 100 0 [feedLay.cycle (gallKey 0 0) 0] = some d) ∧
    (let e := cmd0 (.feed 0 2 (gallKey 0 0) 0) feedLay 0 none (some (0, 1))
     let k := (engDev [e]).giveUp 100 ⟨[]⟩ 0
     (engDev [e]).servesCmd 0 0 e ∧ ∃ c, k.unitGot 100 ⟨[]⟩ e .read (feedLay.unitAt 0) (unitBytes feedLay.fmt) (gallKey 0 0) 0
       = .refused c) ∧
    (let e := cmd0 feed0 feedLay 0 none (some (0, 1))
     let d := { engDev [e] with clusters := [(0, { Cluster.reset with eng0 := ⟨[e]⟩ })] }
     let k := d.giveUp 100 ⟨[]⟩ 0
     d.servesCmd 0 0 e ∧ (k.clus 0).array.owner ≠ some e.src.core ∧ (k.clus 0).array.grant = none) ∧
    (∀ f, let e := cmd0 (.feed 0 3 (gallKey 0 0) 65536) feedLay 0 none none
     let d := { engDev [e] with clusters := [(0, { Cluster.reset with
      eng0 := ⟨[e]⟩
      array := { MArray.reset with d := some ⟨f, []⟩ } })] }
     d.servesCmd 0 0 e ∧ e.tile = none ∧ (d.clus 0).array.d = some ⟨f, []⟩) ∧
    (let e := cmd0 xfer0 Layout.zero 0 none none
     ((engDev [e]).clus 0).eng0.cmds.find? (fun e => e.late 100 && !(engDev [e]).srcStopped e.src) = some e) ∧
    (∀ f, let e := cmd0 xfer0 Layout.zero 300 f none
     (((engDev [e]).clus 0).eng 0).cmds = [e] ∧ e.c = xfer0 ∧ e.stop = none ∧ e.fail = f ∧ e.finished = true) :=
  ⟨fun _ => ⟨rfl, by show (0 : Nat) < 64; decide, rfl, rfl⟩, by decide +kernel,
    ⟨eng_serves _ _ rfl rfl (by decide +kernel) rfl (by decide +kernel),
      let ⟨_, h⟩ := got_ok (by decide +kernel); let ⟨_, k⟩ := got_ok (by decide +kernel); ⟨_, _, h, k, near_ok (by decide +kernel)⟩⟩,
    by decide +kernel,
    ⟨eng_serves _ _ rfl rfl (by decide +kernel) rfl (by decide +kernel), rfl, rfl, by decide +kernel, got_ok (by decide +kernel),
      by decide +kernel, near_ok (by decide +kernel)⟩,
    ⟨eng_serves _ _ rfl rfl (by decide +kernel) rfl (by decide +kernel), got_no (by decide +kernel)⟩,
    ⟨⟨rfl, ⟨rfl, rfl, by decide +kernel⟩, rfl, rfl, .inl (by decide +kernel)⟩, by decide +kernel, by decide +kernel⟩,
    fun _ => ⟨⟨rfl, ⟨rfl, rfl, by decide +kernel⟩, rfl, rfl, .inl (by decide +kernel)⟩, rfl, rfl⟩,
    rfl, fun _ => ⟨rfl, rfl, rfl, rfl, rfl⟩⟩

theorem witness_CopyPieces : (0 : Nat) < 1 ∧ (299 : Nat) < 300 := by decide

/-! ### Witnesses: launches, the scheduler, stops -/

/-- A record of one point at 0x10100, with GALL as given: its header at 0x10200, its arguments, table and completion
record in mapL's range. -/
def recW (gall : Nat) : List Word :=
  [0x1000000010242, 0x1000000010300, 0, 0x1000000010400, rangeH, rangeH, 0, wd64 (0x8000 + 16 * gall), 0, 0x1000000010500,
    0, 0, 0, 0, 0, 0]
def hdrW : List Word := [0xBA5A000020000600, 0, 0, 0, 0, 0, 0, 0]
def launMem (gall : Nat) : Memory := (⟨[]⟩ : Memory).writeAll
  ((recW gall).zipIdx.flatMap (fun p => bytesAt (0x10100 + 8 * p.2) 8 p.1.toNat)
    ++ hdrW.zipIdx.flatMap (fun p => bytesAt (0x10200 + 8 * p.2) 8 p.1.toNat))

/-- Tenant 0 holds all clusters of die 0. -/
def rowW : List Word := (List.range 52).map (fun k => if k = 4 then 0x80000338 else 0)

/-- A module that may take a launch of thread 0. -/
def launDev : Dev := { leasedDev [mapL] with tenCache := [(0, rowW)] }
def launS (gall : Nat) : State := { reqS launDev (.launch recVa) with mem := launMem gall }

/-- That launch as its home reads it. -/
def L0 (gall : Nat) : Launch := mkLaunch 0 0 0 (recW gall) hdrW false

theorem reach_ok {r : Reach} {p : List Nat → Bool} (h : (match r with
    | .ok l => p l
    | _ => false) = true) : ∃ l, r = .ok l ∧ p l = true := by cases r <;> first | exact ⟨_, rfl, h⟩ | cases h

theorem verd_accept {v : Verd} (h : (match v with
    | .accept _ _ => true
    | _ => false) = true) : ∃ d w, v = .accept d w := by cases v <;> first | exact ⟨_, _, rfl⟩ | cases h

theorem verd_refuse {v : Verd} {n : Nat} (h : (match v with
    | .refuse k => decide (k = n)
    | _ => false) = true) : v = .refuse n := by
  cases v <;> first | exact congrArg Verd.refuse (of_decide_eq_true h) | cases h

theorem work_ok {α : Type} {w : Work α} (h : (match w with
    | .ok _ => true
    | _ => false) = true) : ∃ a, w = .ok a := by cases w <;> first | exact ⟨_, rfl⟩ | cases h

theorem wrote_ok {w : Wrote} (h : (match w with
    | .ok _ _ => true
    | _ => false) = true) : ∃ d l, w = .ok d l := by cases w <;> first | exact ⟨_, _, rfl⟩ | cases h

theorem laun_read (gall : Nat) (hg : gall = 0 ∨ gall = 1) : (launS gall).launchRead 7 src0 recVa (L0 gall) := by
  have h : ∃ ps, (launS gall).dev.reach 100 (launMem gall) 0 .read (span recVa 128) = .ok ps ∧
      decide (dwords 16 (gather ((launS gall).dev.unitByte 100 (launMem gall)) ps) = recW gall) = true :=
    reach_ok (by rcases hg with rfl | rfl <;> decide +kernel)
  obtain ⟨ps, hp, hr⟩ := h
  have hr := of_decide_eq_true hr
  have k : ∃ hs, (launS gall).dev.reach 100 (launMem gall) 0 .read (span ((recW gall).getD 0 0 - 66) 64) = .ok hs ∧
      decide (dwords 8 (gather ((launS gall).dev.unitByte 100 (launMem gall)) hs) = hdrW) = true :=
    reach_ok (by rcases hg with rfl | rfl <;> decide +kernel)
  obtain ⟨hs, hh, he⟩ := k
  refine ⟨rfl, rfl, ps, hs, hp, ?_⟩
  have hr : dwords 16 (gather ((launS gall).dev.unitByte (launS gall).drip (launS gall).mem) ps) = recW gall := hr
  have he : dwords 8 (gather ((launS gall).dev.unitByte (launS gall).drip (launS gall).mem) hs) = hdrW := of_decide_eq_true he
  dsimp only
  rw [hr, he]
  exact ⟨hh, rfl⟩

/-- It was accepted: its lease, and the module with it and a second launch. -/
def frL : Lease := { leaseOf .frontier (.frontier 0) with index := 1 }
def Lq : Launch := { L0 1 with agent := home0, index := 1, gen := 1, leave := true }
def launchedDev (l : Launch) : Dev := { leasedDev [mapL, frL] with launches := [(0, l), (1, { Lq with ended := some 5 })], tenCache := [(0, rowW)] }

theorem witness_LaunchesRun :
    ((launS 1).launchRead 7 src0 recVa (L0 1) ∧ ∃ d h, (launS 1).dev.judgeLaunch 100 (launMem 1) (L0 1) = .accept d h) ∧
    ((launS 0).launchRead 7 src0 recVa (L0 0) ∧ (launS 0).dev.judgeLaunch 100 (launMem 0) (L0 0) = .refuse 1 ∧
      ∃ a, (launS 0).dev.complete 100 (launMem 0) src0 (L0 0).donea Cause.launchRefused 1 = .ok a) ∧
    (∀ q, (reqS (launchedDev Lq) q).asks 7 src0 q (reqD (launchedDev Lq) q) ∧
      (reqD (launchedDev Lq) q).launchOf 100 src0 (mkHandle 10 0 1 1) = .ok (0, Lq)) ∧
    (bits (0 : Word) 60 4 = 0 ∧ bits (0 : Word) 40 20 < Lq.ez ∧ bits (0 : Word) 20 20 < Lq.ey ∧ bits (0 : Word) 0 20 < Lq.ex ∧
      (0 : Word).toNat < Lq.ez * Lq.ey) ∧
    ((launchedDev Lq).launchWaits 100 0 Lq ∧ (launchedDev Lq).predecessor Lq 0 ∧ Lq.leave = true ∧
      (launchedDev Lq).frontierLive 100 Lq = true) ∧
    (let d := { launchedDev Lq with leases := [mapL, { frL with expiry := 100 }] }
     d.launchWaits 100 0 Lq ∧ d.predecessor Lq 0 ∧ d.frontierLive 100 Lq = false) ∧
    (let l : Launch := { Lq with after := some 1 }
     (launchedDev l).launchWaits 100 0 l ∧ (launchedDev l).predecessor l 5) ∧
    (let l : Launch := { Lq with fired := true, doneRows := [0] }
     (launchedDev l).lch 0 = some l ∧ l.doneRows.length = l.ez * l.ey ∧
       ∃ k v, (launchedDev l).writeWords 100 ⟨[]⟩ l.from [] [] = .ok k v ∧
         ∃ a, k.complete 100 ⟨[]⟩ l.from l.donea 0 0 = .ok a) ∧
    (let l : Launch := { Lq with failed := some (Cause.launchRefused, 7) }
     (launchedDev l).lch 0 = some l ∧ l.ended = none ∧ (launchedDev l).inFlight 0 l = false) :=
  ⟨⟨laun_read 1 (.inr rfl), verd_accept (by decide +kernel)⟩, ⟨laun_read 0 (.inl rfl), verd_refuse (by decide +kernel),
    work_ok (by decide +kernel)⟩, fun _ => ⟨⟨rfl, rfl⟩, rfl⟩, by decide +kernel,
    ⟨⟨rfl, ⟨rfl, rfl, rfl⟩, rfl⟩, .inl ⟨rfl, rfl⟩, rfl, by decide +kernel⟩,
    ⟨⟨rfl, ⟨rfl, rfl, rfl⟩, rfl⟩, .inl ⟨rfl, rfl⟩, by decide +kernel⟩,
    ⟨⟨rfl, ⟨rfl, rfl, rfl⟩, rfl⟩, .inr ⟨1, _, rfl, rfl, rfl⟩⟩, ⟨rfl, by decide +kernel, _, _, rfl, work_ok (by decide +kernel)⟩,
    rfl, rfl, by decide +kernel⟩

/-- A launch of `ex` points whose point 0 is in flight. -/
def Lf (ex : Nat) : Launch :=
  { Lq with record := (recW 1).set 2 (wd64 (ex - 1)), fired := true, rows := [(0, mkRec 0 0 1)] }
def doneS (ex : Nat) : State := sys (mail (launchedDev (Lf ex)) (.req src0 (.done 0 0 0 0)))

theorem point_done (ex : Nat) : (doneS ex).pointDone 7 src0 0 0 0 0 (Lf ex) (mkRec 0 0 1) where
  carries := rfl
  runs := rfl
  sent := rfl
  launch := ⟨rfl, rfl⟩
  lease := rfl
  kept := ⟨by simp only [Nat.zero_mul]; rfl, rfl⟩
  open' := by decide +kernel

theorem witness_PointsComplete :
    ((doneS 2).pointDone 7 src0 0 0 0 0 (Lf 2) (mkRec 0 0 1) ∧ recC (pointDoneRec (mkRec 0 0 1) 0) ≠ (Lf 2).ex ∧
      ∃ l', ((doneS 2).dev.drop 7).advanceFrontier 100 ⟨[]⟩ (100 + (Lf 2).rlease)
        { Lf 2 with rows := put 0 (pointDoneRec (mkRec 0 0 1) 0) (Lf 2).rows } = .ok l') ∧
    ((doneS 1).pointDone 7 src0 0 0 0 0 (Lf 1) (mkRec 0 0 1) ∧ recC (pointDoneRec (mkRec 0 0 1) 0) = (Lf 1).ex ∧
      ∃ d w, ((doneS 1).dev.drop 7).rowWritten 100 ⟨[]⟩ (Lf 1) 0 (pointDoneRec (mkRec 0 0 1) 0) = .ok d w) ∧
    (∀ d : Dev, ∃ l', d.advanceFrontier 100 ⟨[]⟩ (100 + (Lf 1).rlease) { Lf 1 with
      rows := del 0 (Lf 1).rows
      doneRows := 0 :: (Lf 1).doneRows } = .ok l') ∧
    (let s := sys (mail { launchedDev (Lf 1) with leases := [mapL, { frL with expiry := 100 }] } (.req src0 (.done 0 0 0 0)))
     s.carries 7 (.req src0 (.done 0 0 0 0)) ∧ s.dev.srcStopped src0 = false ∧ s.dev.sentNow 7 = false ∧
       (s.dev.drop 7).lch 0 = some (Lf 1) ∧ (Lf 1).ended = none ∧ (s.dev.drop 7).frontierLive 100 (Lf 1) = false) ∧
    (let s := sys (mail launDev (.req src0 (.amsgEnd 0x1000000010500 true 5)))
     s.carries 7 (.req src0 (.amsgEnd 0x1000000010500 true 5)) ∧
       ∃ a, (s.dev.drop 7).complete 100 ⟨[]⟩ src0 0x1000000010500 5 0 = .ok a) :=
  ⟨⟨point_done 2, by decide +kernel, work_ok (by decide +kernel)⟩, ⟨point_done 1, by decide +kernel, wrote_ok (by decide +kernel)⟩,
    fun _ => work_ok rfl, ⟨rfl, rfl, rfl, rfl, rfl, by decide +kernel⟩, rfl, work_ok (by decide +kernel)⟩

/-- A launch with a point in its queue, and one whose block has been swapped out and is ready. -/
def Lp : Launch := { Lf 1 with queue := [⟨90, 0, 0, 0, 100⟩] }
def swB : Block := { Block.single 0 0 0 0 0 0 0 with launch := some 0, st := .swapped, gallLen := 65536 }
def swT : Thread := { benchT with place := .saved }
def taken (l : List Nat) : List (Nat × Launch) → Bool := fun x => (x.map Prod.fst) == l

/-- A parked block that may be saved. -/
def pkB (st : BlkSt) : Block := { Block.single 0 0 0 0 0 0 0 with launch := some 0, st := st, parkSince := some 0 }
def pkDev (st : BlkSt) : Dev := { launchedDev (Lf 1) with
  threads := [(0, { benchT with wst := .parked 4 })]
  blocks := [(0, pkB st)] }

/-- A parked block whose cluster has no free slot near it: all its cores are service cores. -/
def fullCl : Dev := { pkDev .running with boot := { Boot.reset with mask := (List.range 512) } }

/-- An active message for slot 1 of core 0. -/
def amsgS (pc : Word) : State := sys (mail launDev (.req src0 (.amsg 0x1000 pc 5 6)))

theorem head_of {o : Option (Nat × Launch × Head × List CrewFit × Nat)} {n : Nat} {l : Launch} {pt : Bool}
    (h : (match o with
      | some (k, x, .point _, _) => decide (k = n ∧ x = l ∧ pt = true)
      | some (k, x, .block _, _) => decide (k = n ∧ x = l ∧ pt = false)
      | none => false) = true) :
    ∃ hd fs g, o = some (n, l, hd, fs, g) ∧ (pt = true → ∃ p, hd = .point p) ∧ (pt = false → ∃ b, hd = .block b) := by
  match o, h with
  | some (k, x, .point p, fs, g), h =>
    obtain ⟨rfl, rfl, rfl⟩ := of_decide_eq_true h
    exact ⟨_, fs, g, rfl, fun _ => ⟨p, rfl⟩, fun h => by cases h⟩
  | some (k, x, .block b, fs, g), h =>
    obtain ⟨rfl, rfl, rfl⟩ := of_decide_eq_true h
    exact ⟨_, fs, g, rfl, (fun h => by cases h), fun _ => ⟨b, rfl⟩⟩

theorem started_ok {r : Started} (h : (match r with
    | .ok _ _ _ => true
    | _ => false) = true) : ∃ d w n, r = .ok d w n := by cases r <;> first | exact ⟨_, _, _, rfl⟩ | cases h

theorem started_no {r : Started} (h : (match r with
    | .refused _ => true
    | _ => false) = true) : ∃ c, r = .refused c := by cases r <;> first | exact ⟨_, rfl⟩ | cases h

theorem witness_BlocksAreScheduled :
    ((sys (launchedDev Lp)).mayAdmit 0 ∧ ∃ hd fs g, pickTaker ((launchedDev Lp).clus 0).rr ((launchedDev Lp).takers 100 ⟨[]⟩ 0)
      = some (0, Lp, hd, fs, g) ∧ (true = true → ∃ p, hd = .point p) ∧ (true = false → ∃ b, hd = .block b)) ∧
    (let d := { launchedDev Lp with threads := [(0, swT)], blocks := [(0, swB)] }
     (sys d).mayAdmit 0 ∧ ∃ hd fs g, pickTaker (d.clus 0).rr (d.takers 100 ⟨[]⟩ 0)
      = some (0, Lp, hd, fs, g) ∧ (false = true → ∃ p, hd = .point p) ∧ (false = false → ∃ b, hd = .block b)) ∧
    (let l : Launch := { Lp with waited := 2 ^ 20 }
     (launchedDev l).lch 0 = some l ∧ l.ended = none ∧ l.aged < l.waited / 2 ^ 20) ∧
    (∀ st, (sys (pkDev st)).parkedOut 0 (pkB st) (Lf 1) ∧ (pkB st).st = st ∧ (pkB st).parkSince = some 0) ∧
    0 + (Lf 1).parkb ≤ 256 ∧
    (∃ g, (pkDev .running).stowage 100 ⟨[]⟩ (pkB .running) (Lf 1) = some g) ∧
    (fullCl.blk 0 = some (pkB .running) ∧ fullCl.stowage 100 ⟨[]⟩ (pkB .running) (Lf 1) = none) ∧
    ((sys (pkDev .swapping)).maySave (pkB .swapping) ∧
      ∃ g, (pkDev .swapping).stowage 100 ⟨[]⟩ (pkB .swapping) (Lf 1) = some g ∧ (∀ p, g.area = some p → (pkDev .swapping).areaFree 100 p (pkB .swapping).imageLen = true)) ∧
    (∀ pc, (amsgS pc).amsgJudged 7 src0 0x1000 pc 5 6) ∧
    (∃ d w n, ((amsgS 0x10002).dev.drop 7).startThread 100 ⟨[]⟩ 0 0 0x1000 0x10002 5 6 none = .ok d w n) ∧
    (∃ c, ((amsgS 0x10001).dev.drop 7).startThread 100 ⟨[]⟩ 0 0 0x1000 0x10001 5 6 none = .refused c) := by
  refine ⟨⟨⟨rfl, by decide +kernel, by decide +kernel, by decide⟩, head_of (by decide +kernel)⟩,
    ⟨⟨rfl, by decide +kernel, by decide +kernel, by decide⟩, head_of (by decide +kernel)⟩, ⟨rfl, rfl, by decide +kernel⟩,
    fun st => ⟨⟨rfl, ⟨0, rfl, rfl⟩, rfl, by cases st <;> decide +kernel⟩, rfl, rfl⟩, by decide +kernel,
    opt_ok (by decide +kernel), ⟨rfl, by decide +kernel⟩, ⟨⟨by decide +kernel, rfl, by decide +kernel⟩, ?_⟩,
    fun pc => ⟨rfl, rfl, rfl, rfl, (show (launDev.takers 100 ⟨[]⟩ 0).isEmpty = true by decide +kernel), rfl⟩, started_ok (by decide +kernel), started_no (by decide +kernel)⟩
  obtain ⟨g, h⟩ := opt_ok (o := ((pkDev .swapping).stowage 100 ⟨[]⟩ (pkB .swapping) (Lf 1)).filter (fun g => g.area.isNone))
    (by decide +kernel)
  exact ⟨g, (Option.filter_eq_some_iff.mp h).1, fun p e => by have := (Option.filter_eq_some_iff.mp h).2; rw [e] at this; cases this⟩

theorem witness_GangsStop :
    (let d := { launchedDev (Lf 1) with stops := [⟨0, 100, none, false⟩] }
     d.stops.any (fun x => x.tenant == 0 && !x.reached && x.at' ≤ 100) = true) ∧
    (let d := { launchedDev (Lf 1) with stops := [⟨0, 50, some 100, true⟩] }
     d.stops.find? (fun x => x.tenant == 0 && x.reached && x.go.any (fun u => u ≤ 100)) = some ⟨0, 50, some 100, true⟩ ∧
       ∃ e, d.resumeFrontier 100 ⟨[]⟩ 0 = .ok e) :=
  ⟨by decide +kernel, by decide +kernel, work_ok (by decide +kernel)⟩

/-! ### Witnesses: the command unit, the fabric, start-up -/

/-- A module whose tenant 0 has windows at 0x40000 and context 0 live. -/
def winL (e : Nat) : Lease := ⟨⟨0, 4, 3, 0⟩, 0, 1, .context, none, 0, e, none, .anchor 0 0x40000 1, false⟩
def liveL : Lease := ⟨home0, 2, 1, .context, some 0, 0, 1000, none, .context 0 0, false⟩
def winDev : Dev := { launDev with leases := [mapL, winL 1000, liveL] }

/-- An accepted store to a unit's register at `a`. -/
def unitAcc (a : Nat) : Acc := { accAt (.store [⟨a, 0xFF, 7⟩]) .accepted with line := a }

/-- Slot 1 of the command window holds a record, armed. -/
def slotMem (w : List Word) : Memory := (launMem 1).writeAll (w.zipIdx.flatMap (fun p => bytesAt (0x40080 + 8 * p.2) 8 p.1.toNat))
def armL : List Word := (recW 1).take 15 ++ [0x0100000000000000]
def armA : List Word := [0x1000, 0x10002, 5, 6, 0x1000000010500, 0, 0, 0, 0, 0, 0, 0, 0, 0, 0, 0x0200000000000000]
def armS (w : List Word) : State := { sys winDev with mem := slotMem w }

theorem slot_armed (w : List Word) (v : Word) (h : winDev.armed (slotMem w) 0x400F8 false = some (winL 1000, 0, v))
    (hv : armOk v [1, 2] = true) : (armS w).slotArmed 0x400F8 [1, 2] false 0 v 0 (winDev.clearLater 100 0x400F8) where
  armed := ⟨winL 1000, h, rfl⟩
  good := hv
  free := rfl
  sound := ⟨rfl, rfl⟩
  context := rfl
  cleared := rfl

/-- As dwords. -/
theorem slot_words : dwords 16 ((slotMem armL).readN (lineOf 0x400F8) 128) = armL ∧
    dwords 16 ((slotMem armA).readN (lineOf 0x400F8) 128) = armA := by decide +kernel

/-- A launch that its judgement refuses, in an armed slot. -/
def armN : List Word := (recW 0).take 15 ++ [0x0180000000000000]

theorem witness_WindowsAct :
    (∀ e, let s := sys { mail winDev (.acc (unitAcc 0x40000)) with leases := [mapL, winL e, liveL] }
     s.dev.anchorAt 0x40000 = some (winL e, 0, 0x40000) ∧ s.unitStoreDue 0x40000 ⟨7, .acc (unitAcc 0x40000)⟩) ∧
    (winDev.lapsed 100 (winL 1000) = false ∧ winDev.lapsed 100 (winL 100) = true) ∧
    ((armS armL).slotArmed 0x400F8 [1, 2] false 0 0x0100000000000000 0 (winDev.clearLater 100 0x400F8) ∧
      (∃ hs, winDev.reach 100 (slotMem armL) 0 .read (span (armL.getD 0 0 - 66) 64) = .ok hs) ∧
      ∃ d h, (winDev.clearLater 100 0x400F8).judgeLaunch 100 (slotMem armL) (mkLaunch 0 0 0 armL hdrW false) = .accept d h) ∧
    ((armS armN).slotArmed 0x400F8 [1, 2] false 0 0x0180000000000000 0 (winDev.clearLater 100 0x400F8) ∧
      (winDev.clearLater 100 0x400F8).judgeLaunch 100 (slotMem armN) (mkLaunch 0 0 0 armN hdrW true) = .refuse 1 ∧
      ∃ a, (winDev.clearLater 100 0x400F8).armRefuse 100 (slotMem armN) ⟨0, 0, 0, 0, 0, 0⟩ (armN.getD 9 0) Cause.launchRefused 1
        true [] = .ok a) ∧
    ((armS armA).slotArmed 0x400F8 [1, 2] false 0 0x0200000000000000 0 (winDev.clearLater 100 0x400F8) ∧
      targetOk (armA.getD 0 0) = true ∧ (∀ k < 10, armA.getD (5 + k) 0 = 0) ∧ winDev.fencedCore 0 = false ∧
      (winDev.takers 100 (slotMem armA) 0).isEmpty = true ∧
      winDev.haltedAt 100 (slotMem armA) 0 = false ∧
      ∃ d w n, (winDev.clearLater 100 0x400F8).startThread 100 (slotMem armA) 0 0 0x1000 0x10002 5 6 (some (armA.getD 4 0, false))
        = .ok d w n) :=
  ⟨fun _ => ⟨rfl, rfl⟩, by decide, ⟨slot_armed _ _ (by decide +kernel) (by decide), (reach_ok (p := fun _ => true) (by decide +kernel)).imp (fun _ h => h.1),
    verd_accept (by decide +kernel)⟩, ⟨slot_armed _ _ (by decide +kernel) (by decide), verd_refuse (by decide +kernel),
    work_ok (by decide +kernel)⟩,
    slot_armed _ _ (by decide +kernel) (by decide), by decide +kernel, by decide, rfl, by decide +kernel, rfl, started_ok (by decide +kernel)⟩

/-- A store of record number `r` to PRQ, and a module whose thread is parked on record 4. -/
def prqAcc (r : Byte) : Acc := { accAt (.store [⟨apKey 0 ioBase, 0xFF, r⟩]) .accepted with line := apKey 0 ioBase }
def prqDev (tags : List (Nat × Nat)) (q : List Nat) (r : Byte) : Dev :=
  mail { benchDev parkT with faults := [fault0 false], prqTags := tags, prqQueue := q } (.acc (prqAcc r))

theorem witness_PagesAreRequested :
    (∀ tags q, (sys (prqDev tags q 4)).unitStoreDue (apKey 0 ioBase) ⟨7, .acc (prqAcc 4)⟩ ∧
      (sys (prqDev tags q 5)).unitStoreDue (apKey 0 ioBase) ⟨7, .acc (prqAcc 5)⟩) ∧
    (∀ r : Byte, (r = 4 ∨ r = 5) → (List.range 8).foldr (fun k n =>
      (mergeBytes (apKey 0 ioBase + k) [⟨apKey 0 ioBase, 0xFF, r⟩]).2.toNat + 256 * n) 0 = r.toNat) ∧
    ([fault0 false].any (fun f => f.rid = 4 && f.waits) = true ∧ [fault0 false].any (fun f => f.rid = 5 && f.waits) = false) ∧
    ((prqDev [] [] 4).freeTag = some 0 ∧ ([9] : List Nat) ≠ [] ∧ [9].length < 4096) ∧
    (4096 ≤ (List.replicate 4096 9).length) ∧
    (∀ q, let d := { benchDev parkT with faults := [fault0 false], prqTags := [(3, 4)], prqQueue := q }
     d.prqTags.find? (fun p => p.1 = 3) = some (3, 4) ∧ ∀ ok : Bool,
       ((({ d with prqTags := d.prqTags.filter (fun x => x.1 != 3) } : Dev).wakeRecord 100 4
         (if ok then none else some Cause.hostPageDenied)).1).prqQueue = q) := by
  refine ⟨fun _ _ => ⟨rfl, rfl⟩, ?_, by decide, ⟨by decide +kernel, by decide, by decide⟩, by decide +kernel, fun _ => ⟨rfl, ?_⟩⟩
  · rintro r (rfl | rfl) <;> decide +kernel
  · intro ok; cases ok <;> rfl

/-- A request of tenant 0's group 0, of modules 0 and 1: the sum of one FP32 number, with what module 1 brings. -/
def coll0 : Coll := ⟨0, 0, 0, 0, 0x48000, 0xA01, 1, 0x1000000010300, 0x1000000010400, 0x1000000010500, 0, false⟩
def peer0 : CollPeer := { mod := 1, opw := 0xA01, count := 1, gen := 0, data := [0x3F800000] }
def collO : CollOp := { addr := 0x48078, peers := [peer0] }
def groupMem (arm : Nat) : Memory := (⟨[]⟩ : Memory).writeAll (bytesAt (groupKey 0 0) 8 3 ++ bytesAt 0x48078 8 arm)
def collS : State := { sys { winDev with colls := [coll0] } with mem := groupMem 0 }

theorem group_members : groupMembers (groupMem 0) 0 0 = [0, 1] := by decide +kernel

theorem coll_met : collS.collMet collO coll0 .f32 where
  idle := by decide +kernel
  oldest := by decide +kernel
  same := by decide +kernel
  peers := by
    show [1] = (groupMembers (groupMem 0) 0 0).filter (· != 0)
    rw [group_members]; rfl
  agree := by
    intro p hp
    obtain rfl := List.mem_singleton.mp hp
    exact ⟨rfl, rfl, rfl⟩
  format := by decide +kernel

/-- What the request reads, and where it writes. -/
def collPs : List Nat := (List.range 4).map (0x10300 + ·)
def collQs : List Nat := (List.range 4).map (0x10400 + ·)

theorem reach_eq {r : Reach} {l : List Nat} (h : (match r with
    | .ok x => decide (x = l)
    | _ => false) = true) : r = .ok l := by
  cases r <;> first | exact congrArg Reach.ok (of_decide_eq_true h) | cases h

theorem witness_CollectivesRun :
    (let s : State := { sys winDev with mem := groupMem 0x0100000000000000 }
     s.slotArmed collO.addr [1] true 0 0x0100000000000000 0 (winDev.clearLater 100 collO.addr) ∧
       ∃ a, s.dev.armColl 100 s.mem collO.addr 0 0 false = .ok a) ∧
    (collS.collMet collO coll0 .f32 ∧
      collS.dev.reach 100 collS.mem 0 .read (span coll0.src (coll0.count.toNat * coll0.size)) = .ok collPs ∧
      let e : Dev := collS.dev
      e.reach 100 collS.mem 0 .write (span coll0.dst 4) = .ok collQs ∧
      (∀ x ∈ (collQs.map lineOf).eraseDups, e.unitMayWrite 100 x = true) ∧
      ∃ a, (e.unitStore 100 collS.mem ⟨0, 0, 0, 0, 0, 0⟩ (collQs.zip [0, 0, 0x80, 0x3F])).1.endColl 100 collS.mem coll0 0
        (e.unitStore 100 collS.mem ⟨0, 0, 0, 0, 0, 0⟩ (collQs.zip [0, 0, 0x80, 0x3F])).2 = .ok a) ∧
    (let out := (List.range coll0.count.toNat).flatMap (fun k => (List.range coll0.size).map (byteOf (coll0.element .f32
      (collS.dev.collParts [0, 1] collO.peers .f32 (coll0.elements .f32 (collS.dev.unitByte 100 collS.mem) collPs) k))))
     out = [0, 0, 0x80, 0x3F]) ∧
    ((benchDev benchT).members.contains 1 = false ∧
      (List.range 4096).filter (fun n => (groupMembers (groupMem 0) (n / 16) (n % 16)).contains 1) ≠ []) := by
  refine ⟨⟨⟨⟨winL 1000, by decide +kernel, rfl⟩, by decide, rfl, ⟨rfl, rfl⟩, rfl, rfl⟩, work_ok (by decide +kernel)⟩,
    ⟨coll_met, reach_eq (by decide +kernel), reach_eq (by decide +kernel), by decide +kernel, work_ok (by decide +kernel)⟩,
    by decide +kernel, rfl, List.ne_nil_of_mem (a := 0) (List.mem_filter.mpr ⟨List.mem_range.mpr (by decide), ?_⟩)⟩
  show (groupMembers (groupMem 0) 0 0).contains 1 = true
  rw [group_members]; rfl

theorem witness_MembersComeAndGo :
    (let d := benchDev benchT
     (1 : Nat) ≠ d.modNo ∧ d.cut.any (fun p => p.1 = 1) = false) ∧
    (∀ t, t + 65536 ≤ 70000 → let d := { benchDev benchT with cut := [(1, t)] }
     d.cut.any (fun p => p.1 = 1 && p.2 + 65536 ≤ 70000) = true) ∧
    (benchDev benchT).outOfUse home0 = false ∧
    (let d := { benchDev benchT with quarantine := [(home0, 0)] }
     d.quarantine.any (fun p => p.1 = home0 && p.2 + Config.longest ≤ Config.longest) = true) ∧
    (let d := { benchDev benchT with members := [0, 1, 2], modNo := 1 }
     (0 : Nat) ≠ d.modNo ∧ (2 : Nat) ≠ d.modNo ∧ d.members.contains 0 = true ∧ d.members.contains 2 = true ∧
       d.clocksNear 0 (-32) = true ∧ d.clocksNear 0 33 = false ∧ d.clocksNear 2 33 = false ∧ 0 = d.timeRoot ∧ 2 ≠ d.timeRoot) ∧
    (let o : JoinOp := { modNo := 191, members := [191, 0], count := 7 }
     (benchDev benchT).started = false ∧ (benchDev benchT).joined = false ∧ o.members.contains o.modNo = true ∧
       o.members.all (· < 192) = true ∧ o.count < 2 ^ 64) := by
  refine ⟨by decide +kernel, ?_, rfl, by decide +kernel, by decide +kernel, by decide +kernel⟩
  intro t h
  simp
  omega

theorem witness_StartsUp :
    ((⟨[]⟩ : Memory).wf = true) ∧
    (∀ n, let d := { Dev.reset with boot := { Boot.reset with stage := n } }
     let o : BootOp := ⟨true, 5, 0, [0, 512, 1024, 1536], 0x1000⟩
     d.inReset = true ∧ d.boot.failed = none ∧ o.ok = true ∧ d.boot.version ≤ o.version ∧ d.boot.stage = n) ∧
    (maskOk [0, 512, 1024, 1536] = true ∧ maskOk [] = false ∧ (1 : Nat) < 4 ∧ (3 : Nat) < 4) ∧
    (let d := benchDev benchT
     d.inReset = false ∧ d.boot.service = false ∧
       ∃ e g, ({ d with boot := { d.boot with service := true } } : Dev).grantLease 100 d.lantern .context (some 0) 0 0 (2 ^ 64 - 1)
         none (.context 0 0) = (e, some g) ∧ ∃ f h, e.grantLease 100 d.lantern .cap (some 0) 0 0 (100 + Config.longest) none
           (.cap 0x01FE) = (f, some h)) ∧
    ((0 : Nat) < 128 ∧ ((benchDev benchT).clus 5).gated = false ∧ (benchDev benchT).idleCluster 5 = true) := by
  refine ⟨rfl, fun _ => ⟨rfl, rfl, rfl, Nat.le_refl _, rfl⟩, by decide +kernel, ⟨rfl, rfl, _, _, rfl, _, _, rfl⟩, by decide, rfl, by decide +kernel⟩

/-! ### Witnesses: encodings, steps, time -/

theorem witness_EncodingsDecode : (Instr.nop).wf = true ∧ (Instr.nop).isHead = true ∧
    (Instr.vfma ⟨.k 3, 1, 2, 3, 4, .f32, .fm⟩).wf = true ∧ (Instr.vfma ⟨.k 3, 1, 2, 3, 4, .f32, .fm⟩).isHead = true := by decide +kernel

/-- The bench, its turn to come, with a code line. -/
def turnDev (line : Nat) : Dev :=
  { benchDev benchT with
    cur := none
    cores := [(0, { benchCore with l1 := [⟨benchKey, 1000, BitVec.ofNat 1024 line, false⟩] })] }
def turnS (agenda : List Stim) (line : Nat) : State := ⟨100, agenda, ⟨[]⟩, turnDev line⟩

theorem code_line {r : CodeRes} {l : Nat} (h : (match r with
    | .line x => decide (x = l)
    | _ => false) = true) : r = .line l := by
  cases r <;> first | exact congrArg CodeRes.line (of_decide_eq_true h) | cases h

/-- The thread is awake. -/
theorem turn_woken (a : List Stim) (line : Nat) : (turnS a line).woken 0 benchT = turnS a line := if_pos rfl

theorem bench_turn (line : Nat) (a : List Stim) (hl : ((turnDev line).code 100 0 0 0x10002) = .line line) :
    (turnS a line).turn 0 0 0 benchT line where
  once := by show (none : Option Nat) ≠ some 100; decide
  order := by
    have h : ((turnS a line).dev.core 0).ptr = 15 := rfl
    exact ⟨0, by decide, by rw [h], fun _ hm => by cases hm⟩
  slot := rfl
  thread := rfl
  ready := by show Dev.slotReady _ _ _ _ = true; exact (rfl : (turnDev 0).slotReady 100 0 benchT = true)
  noTrap := by rw [turn_woken]; rfl
  line := by rw [turn_woken]; exact hl

/-- A line of NOP; of ADD with VABS; of EXIT with VABS; and of TRAP with VABS. -/
def nopL : Nat := benchLine 0 0
def addL : Nat := 0x1000 + 0xA04D * 2 ^ 16 + 0x900F * 2 ^ 32 + 0xC2B01800 * 2 ^ 480 + 0xC5800207 * 2 ^ 448
def exitL : Nat := 0x1000 + 0x2001 * 2 ^ 16 + 0x900F * 2 ^ 32 + 0xC5800207 * 2 ^ 480
def badL : Nat := 0x1000 + 0x2001 * 2 ^ 16 + 0x900F * 2 ^ 32 + 0xC3800207 * 2 ^ 480

/-- What an instruction came to. -/
def noteOf (o : Host.Outcome State Fault Refusal) : Option Note :=
  match o with
  | .next s => some s.dev.note
  | _ => none

theorem note_of {o : Host.Outcome State Fault Refusal} {n : Note} (h : noteOf o = some n) :
    ∃ u, o = .next u ∧ u.dev.note = n := by
  cases o with
  | next s => exact ⟨s, rfl, Option.some.inj h⟩
  | _ => cases h

theorem trap_of {o : Host.Outcome State Fault Refusal} {c : Nat} (h : (match noteOf o with
    | some (.trapped k _ _) => decide (k = c)
    | _ => false) = true) : ∃ u p v, o = .next u ∧ u.dev.note = .trapped c p v := by
  cases o with
  | next s =>
    simp only [noteOf] at h
    split at h
    · rename_i k p v e
      obtain rfl := of_decide_eq_true h
      exact ⟨s, p, v, rfl, Option.some.inj e⟩
    · cases h
  | _ => cases h

def addI : Instr := .add ⟨.always, 13, 5, 12, .d⟩
def absI : Instr := .vabs ⟨.always, 15, 11, .s16⟩
def badI : Instr := .vabs ⟨.always, 15, 7, .s16⟩

/-- The state in which a head of the bundle begins. -/
def begins (line : Nat) (v : Bool) : State := (turnS [] line).begun 0 0x10002 (nextPc (0x10002 + 2) 2 2) (some benchT) v

/-- The second part of a bundle, begun where the first ended. -/
def after (o : Host.Outcome State Fault Refusal) (v : Bool) : State :=
  match o with
  | .next u => u.begun 0 0x10002 (nextPc (0x10002 + 2) 2 2) (some benchT) v
  | _ => State.reset

theorem none_of {α : Type} {o : Option α} (h : o.isNone = true) : o = none := Option.isNone_iff_eq_none.mp h

theorem next_of {o : Host.Outcome State Fault Refusal} (h : (match o with
    | .next _ => true
    | _ => false) = true) : ∃ t, o = .next t := by
  cases o <;> first | exact ⟨_, rfl⟩ | cases h

theorem witness_StepRunsHead :
    ((turnS [.event .moduleReset] nopL).agenda = .event .moduleReset :: [] ∧ (turnS [.tick] nopL).agenda = .tick :: []) ∧
    (((turnS [.issue 0] nopL).asksCore 0 ((turnS [] nopL).withHits 0) ∧ (turnS [] nopL).withHits 0 = turnS [] nopL) ∧
      (turnS [] nopL).asksCore 0 (turnS [] nopL) ∧ (turnS [.tick] nopL).asksCore 0 (turnS [.tick] nopL)) ∧
    ((turnS [] nopL).turn 0 0 0 benchT nopL ∧ single nopL (pcIdx benchT.pc) .nop ∧
      ∃ u, exec .nop ((turnS [] nopL).begun 0 benchT.pc (nextPc benchT.pc (lineN nopL) (pcIdx benchT.pc)) none false) = .next u ∧
        u.dev.note = .issued) ∧
    ((turnS [] addL).turn 0 0 0 benchT addL ∧ bundled addL (pcIdx benchT.pc) addI absI ∧
      (∃ u, exec absI (begins addL true) = .next u ∧ u.dev.note = .issued) ∧
      (∃ u, exec addI (begins addL false) = .next u ∧ u.dev.note = .issued) ∧
      (∃ u, exec absI (after (exec addI (begins addL false)) true) = .next u ∧ u.dev.note = .issued)) ∧
    ((turnS [] exitL).turn 0 0 0 benchT exitL ∧ bundled exitL (pcIdx benchT.pc) .exit absI ∧
      (∃ u, exec .exit (begins exitL false) = .next u ∧ u.dev.note = .issued) ∧
      (∃ u, exec absI (begins exitL true) = .next u ∧ u.dev.note = .issued) ∧
      (∃ u, exec .exit (after (exec absI (begins exitL true)) false) = .next u ∧ u.dev.note = .issued)) ∧
    (bundled badL (pcIdx benchT.pc) .exit badI ∧ ∃ u p v, exec badI (begins badL true) = .next u ∧
      u.dev.note = .trapped Cause.formatTag p v) := by
  refine ⟨⟨rfl, rfl⟩, ⟨⟨.inl ⟨[], rfl, rfl⟩, rfl⟩, .inr ⟨.inl ⟨rfl, none_of (by decide +kernel)⟩, ⟨[], [], by decide +kernel, fun _ h => by cases h⟩, rfl⟩,
      .inr ⟨.inr ⟨⟨[], rfl⟩, none_of (by decide +kernel)⟩, ⟨[], [], by decide +kernel, fun _ h => by cases h⟩, rfl⟩⟩,
    ⟨bench_turn _ _ (code_line (by decide +kernel)), ⟨by decide +kernel, by decide +kernel, by decide +kernel,
      by decide +kernel⟩, note_of (by decide +kernel)⟩,
    ⟨bench_turn _ _ (code_line (by decide +kernel)),
      ⟨by decide +kernel, by decide +kernel, by decide +kernel, by decide +kernel⟩, note_of (by decide +kernel),
      note_of (by decide +kernel), note_of (by decide +kernel)⟩,
    ⟨bench_turn _ _ (code_line (by decide +kernel)),
      ⟨by decide +kernel, by decide +kernel, by decide +kernel, by decide +kernel⟩, note_of (by decide +kernel),
      note_of (by decide +kernel), note_of (by decide +kernel)⟩,
    ⟨by decide +kernel, by decide +kernel, by decide +kernel, by decide +kernel⟩, ?_⟩
  exact trap_of (by decide +kernel)

/-- The clauses of a tick: a step that is due, a core that issues, and neither. -/
theorem witness_StepRunsHead_tick :
    (let s : State := ⟨100, [.tick], ⟨[]⟩, benchDev { benchT with wst := .doze 100 }⟩
     s.agenda = .tick :: [] ∧ (firstDue s (datedSteps s)).isSome = true) ∧
    (let s := turnS [.tick] nopL
     firstDue s (datedSteps s) = none ∧ (issueAny (inRotation s.drip s.dev.busyCores) s).1.isSome = true) ∧
    (let s : State := ⟨100, [.tick], ⟨[]⟩, Dev.reset⟩
     firstDue s (datedSteps s) = none ∧ (issueAny (inRotation s.drip s.dev.busyCores) s).1 = none) :=
  ⟨⟨rfl, by decide +kernel⟩, ⟨none_of (by decide +kernel), by decide +kernel⟩, none_of (by decide +kernel), none_of (by decide +kernel)⟩

theorem witness_SelectorTakesTurns :
    (let d := { benchDev benchT with cores := [(0, { benchCore with lastIssue := some 100 })] }
     (d.core 0).lastIssue = some 100) ∧
    (∀ k, (sys (benchDev benchT)).slotIdle 1 k) ∧ (benchDev benchT).thr 0 = some benchT ∧
    (benchDev benchT).slotReady 100 0 benchT = true := by
  refine ⟨rfl, ?_, rfl, rfl⟩
  intro k tid t h
  cases h

theorem witness_StepKeepsMemory : (turnS [.tick] nopL).Inv ∧ ∃ t, step (turnS [.tick] nopL) = .next t :=
  ⟨rfl, next_of (by decide +kernel)⟩

theorem witness_CountsTime :
    (∃ t, step (turnS [.tick] nopL) = .next t) ∧
    (∃ t, step (turnS [.event (.attestation 0)] nopL) = .next t) := ⟨next_of (by decide +kernel), next_of (by decide +kernel)⟩

/-! ### Smoke tests: an ill-formed term for each check of `Instr.wf`, and a well-formed neighbour -/

theorem test_wf_scalar :
    Instr.wf (.ext ⟨.always, 1, 2, .w, .sx, 0, 0⟩) = false ∧ Instr.wf (.ext ⟨.always, 1, 2, .w, .sx, 1, 32⟩) = false ∧
    Instr.wf (.ext ⟨.always, 1, 2, .w, .sx, 0, 32⟩) = true ∧ Instr.wf (.ins ⟨.always, 1, 2, .b, 0, 0⟩) = false ∧
    Instr.wf (.ins ⟨.always, 1, 2, .b, 7, 2⟩) = false ∧ Instr.wf (.ins ⟨.always, 1, 2, .b, 7, 1⟩) = true ∧
    Instr.wf (.shlImm ⟨.always, 1, 2, .h, 16⟩) = false ∧ Instr.wf (.shrImm ⟨.always, 1, 2, .w, 32⟩) = false ∧
    Instr.wf (.sraImm ⟨.always, 1, 2, .b, 8⟩) = false ∧ Instr.wf (.rotImm ⟨.always, 1, 2, .w, 32⟩) = false ∧
    Instr.wf (.rotImm ⟨.always, 1, 2, .d, 63⟩) = true ∧ Instr.wf (.cmp ⟨.always, 0, 1, 2, .d, .zx, .eq⟩) = false ∧
    Instr.wf (.cmpi ⟨.always, 0, 1, .d, .zx, .ne, 0⟩) = false ∧ Instr.wf (.cmp ⟨.always, 0, 1, 2, .d, .zx, .lt⟩) = true ∧
    Instr.wf (.fcvt ⟨.always, 1, 2, .s32, .n64, .fm⟩) = false ∧ Instr.wf (.fcvt ⟨.always, 1, 2, .s32, .f64, .fm⟩) = true ∧
    Instr.wf (.trap ⟨.always, 1, 112⟩) = false ∧ Instr.wf (.trap ⟨.always, 1, 111⟩) = true ∧
    Instr.wf (.swr ⟨.always, .lstat, 1⟩) = false ∧ Instr.wf (.swr ⟨.always, .epc, 1⟩) = true ∧
    Instr.wf (.tlbi ⟨.always, 1, 2, .ctx, 0⟩) = false ∧ Instr.wf (.tlbi ⟨.always, 1, 2, .tent, 0⟩) = false ∧
    Instr.wf (.tlbi ⟨.always, 1, 0, .all, 1⟩) = false ∧ Instr.wf (.tlbi ⟨.always, 1, 0, .all, 0⟩) = true := by decide +kernel

theorem test_wf_memory :
    Instr.wf (.vld ⟨.always, 1, 2, 0, .none, .glob, .sys, false, 0⟩) = false ∧
    Instr.wf (.vld ⟨.always, 1, 2, 0, .f32, .nich, .sys, true, 0⟩) = false ∧
    Instr.wf (.vst ⟨.always, 1, 2, 3, .f32, .glob, .sys, false, 0⟩) = false ∧
    Instr.wf (.vst ⟨.always, 1, 2, 3, .sv4, .glob, .sys, true, 0⟩) = true ∧
    Instr.wf (.vlds ⟨.always, 1, 2, 3, .sv4, .glob, .sys, false, 0⟩) = false ∧
    Instr.wf (.vlds ⟨.always, 1, 2, 3, .f32, .gall, .sys, true, 0⟩) = false ∧
    Instr.wf (.vgth ⟨.always, 1, 2, 1, .f16, .glob, .sys, false, 0⟩) = false ∧
    Instr.wf (.vgth ⟨.always, 1, 2, 2, .f16, .glob, .sys, false, 0⟩) = true ∧
    Instr.wf (.vsct ⟨.always, 1, 2, 2, .s8, .glob, .sys, false, 0⟩) = false ∧
    Instr.wf (.atom ⟨.always, 1, 2, 3, 4, .add, true, .rlx, .sys, 0⟩) = false ∧
    Instr.wf (.atom ⟨.always, 1, 2, 3, 4, .cas, true, .rlx, .sys, 0⟩) = true ∧
    Instr.wf (.mcsstCommit ⟨.always, 0, 2, 3⟩) = false ∧ Instr.wf (.mcsstCommit ⟨.always, 1, 2, 3⟩) = true ∧
    Instr.wf (.amsg ⟨.always, 1, 2, 3, 5⟩) = false ∧ Instr.wf (.amsg ⟨.always, 1, 2, 3, 4⟩) = true := by decide +kernel

theorem test_wf_vector :
    Instr.wf (.vadd ⟨.always, 1, 2, 3, .sv4, .fm⟩) = false ∧ Instr.wf (.vadd ⟨.always, 1, 2, 3, .s32, .rne⟩) = false ∧
    Instr.wf (.vadd ⟨.always, 1, 2, 3, .f32, .rne⟩) = true ∧ Instr.wf (.vfma ⟨.always, 1, 2, 3, 4, .e8m0, .fm⟩) = false ∧
    Instr.wf (.vmin ⟨.always, 1, 2, 3, .f64⟩) = false ∧ Instr.wf (.vabs ⟨.always, 1, 2, .e4m3⟩) = false ∧
    Instr.wf (.vdiv ⟨.always, 1, 2, 3, .s32, .fm⟩) = false ∧ Instr.wf (.vsqrt ⟨.always, 1, 2, .s32, .fm⟩) = false ∧
    Instr.wf (.vrsqrt ⟨.always, 1, 2, .n8⟩) = false ∧ Instr.wf (.vcvt ⟨.always, 0, 4, .f32, .f32, false, .fm⟩) = false ∧
    Instr.wf (.vcvt ⟨.always, 1, 4, .f32, .f16, false, .fm⟩) = false ∧
    Instr.wf (.vcvt ⟨.always, 2, 4, .f32, .f16, false, .fm⟩) = true ∧
    Instr.wf (.vcvt ⟨.always, 4, 8, .e3m2, .f32, false, .fm⟩) = false ∧
    Instr.wf (.vcvt ⟨.always, 4, 8, .s8, .f32, true, .rne⟩) = false ∧
    Instr.wf (.vqnt ⟨.always, 1, 4, .e4m3, .f32, 1, .fm⟩) = false ∧ Instr.wf (.vqnt ⟨.always, 1, 4, .sv4, .f32, 1, .fm⟩) = false ∧
    Instr.wf (.vqnt ⟨.always, 1, 4, .sv4, .bf16, 1, .fm⟩) = true ∧ Instr.wf (.vdqnt ⟨.always, 1, 4, 0, .f32, .e4m3, .fm⟩) = false ∧
    Instr.wf (.vwmul ⟨.always, 1, 2, 3, .s8, .fm⟩) = false ∧ Instr.wf (.vwmul ⟨.always, 2, 4, 3, .s64, .fm⟩) = false ∧
    Instr.wf (.vwadd ⟨.always, 2, 4, 3, .s8, .fm⟩) = true ∧ Instr.wf (.vdot4 ⟨.always, 1, 2, 3, .sv4, .fm⟩) = false ∧
    Instr.wf (.vdot4 ⟨.always, 2, 2, 3, .s8, .rne⟩) = false ∧ Instr.wf (.vreds ⟨.always, 1, 2, .sv4, .fm⟩) = false ∧
    Instr.wf (.vscan ⟨.always, 1, 2, .s32, .rne⟩) = false ∧ Instr.wf (.vredm ⟨.always, 1, 2, .f64, true⟩) = false ∧
    Instr.wf (.vcmp ⟨.always, 0, 1, 2, .s32, .uno⟩) = false ∧ Instr.wf (.vcmp ⟨.always, 0, 1, 2, .f32, .uno⟩) = true ∧
    Instr.wf (.vsel ⟨.always, 1, 2, 3, 0, .sv4⟩) = false ∧ Instr.wf (.vand ⟨.always, 1, 2, .reg 3, .none⟩) = false ∧
    Instr.wf (.vnot ⟨.always, 1, 2, .none⟩) = false ∧ Instr.wf (.vshl ⟨.always, 1, 2, .reg 3, .f32⟩) = false ∧
    Instr.wf (.vshl ⟨.always, 1, 2, .imm 32, .s32⟩) = false ∧ Instr.wf (.viota ⟨.always, 1, 2, .f32, none⟩) = false ∧
    Instr.wf (.vbcast ⟨.always, 1, .reg 2, .sv4⟩) = false ∧ Instr.wf (.vslide ⟨.always, 1, 2, .reg 3, .e5m2⟩) = false ∧
    Instr.wf (.vperm ⟨.always, 1, 2, 3, .n8⟩) = false ∧ Instr.wf (.vperm ⟨.always, 1, 2, 4, .n8⟩) = true ∧
    Instr.wf (.vzip ⟨.always, 1, 2, 3, false, .sv4⟩) = false ∧ Instr.wf (.vmovsGet ⟨.always, 1, 2, .reg 3, .none⟩) = false ∧
    Instr.wf (.vmovsPut ⟨.always, 1, 2, .reg 3, .none⟩) = false ∧ Instr.wf (.vtag ⟨1, 2, 0, false, .none⟩) = false ∧
    Instr.wf (.vtag ⟨1, 2, 3, false, .f32⟩) = false ∧ Instr.wf (.vclass ⟨.always, 1, 2, .s32⟩) = false ∧
    Instr.wf (.vrand ⟨.always, 1, .s32⟩) = false := by decide +kernel

/-! ### One step each: results worked out by hand from the rules -/

/-- Register `r` of thread 0 after an instruction. -/
def xAfter (o : Host.Outcome State Fault Refusal) (r : Reg) : Option Word :=
  match o with
  | .next s => (s.dev.thr 0).map (fun t => t.regs.rx r)
  | _ => none

/-- The bench with values in x9 and x10. -/
def with2 (a b : Word) : State := sys (benchDev { benchT with regs := (benchRegs.wx 9 a).wx 10 b })

/-- R65: 32-bit results wrap and are extended by sign. -/
theorem test_add_wraps : xAfter (exec (.add ⟨.always, 3, 9, 10, .w⟩) (with2 0x7FFFFFFF 1)) 3 = some 0xFFFFFFFF80000000 := by
  decide +kernel

/-- R65: a source may be the destination. -/
theorem test_sub_in_place : xAfter (exec (.sub ⟨.always, 9, 9, 10, .d⟩) (with2 0 1)) 9 = some 0xFFFFFFFFFFFFFFFF := by
  decide +kernel

/-- R66: a zero divisor gives all ones, and the remainder is the dividend. -/
theorem test_divide_by_zero : xAfter (exec (.div ⟨.always, 3, 9, 10, .d⟩) (with2 7 0)) 3 = some 0xFFFFFFFFFFFFFFFF ∧
    xAfter (exec (.rem ⟨.always, 3, 9, 10, .d⟩) (with2 7 0)) 3 = some 7 := by decide +kernel

/-- R66: division truncates towards zero. -/
theorem test_divide_truncates : xAfter (exec (.div ⟨.always, 3, 9, 10, .d⟩) (with2 0xFFFFFFFFFFFFFFF9 2)) 3 = some 0xFFFFFFFFFFFFFFFD ∧
    xAfter (exec (.rem ⟨.always, 3, 9, 10, .d⟩) (with2 0xFFFFFFFFFFFFFFF9 2)) 3 = some 0xFFFFFFFFFFFFFFFF := by decide +kernel

/-- R16: x0 reads 0 whatever is written. -/
theorem test_x0_discards : xAfter (exec (.add ⟨.always, 0, 9, 10, .d⟩) (with2 7 8)) 0 = some 0 := by decide +kernel

/-- R71: 1.5 + 0.25 in FP32. -/
theorem test_fadd : xAfter (exec (.fadd ⟨.always, 3, 9, 10, .f32, .fm⟩) (with2 0x3FC00000 0x3E800000)) 3 = some 0x3FE00000 := by
  decide +kernel

/-- R21: after reset no core issues until a head is placed; then the very next step runs it (Table 3-2's SHL by 3). -/
theorem test_first_step : (match step (State.reset.withFetchWord 48 (0x814C * 2 ^ 32 + 0xC5E10003)) with
    | .next s => (s.dev.thr 0).map Thread.pc == some 0x10042 && (s.dev.core 0).lastIssue == some 0
    | _ => false) = true := by decide +kernel

/-- The table numbers a word's head above its tail. -/
theorem test_table_word : decodeTableWord 48 (0x804D * 2 ^ 32 + 0xC2B01800) = some (.add ⟨.always, 13, 5, 12, .d⟩) ∧
    decodeTableWord 16 0x0001 = some .exit := by decide +kernel

/-- The words that the spec itself prints beside their instructions. -/
theorem test_decode_printed :
    decode 0x814C 0xC5E10003 = .ok (.shlImm ⟨.always, 12, 11, .d, 3⟩) ∧
    decode 0x804D 0xC2B01800 = .ok (.add ⟨.always, 13, 5, 12, .d⟩) ∧
    decode 0x8054 0xCA241AC0 = .ok (.max ⟨.always, 20, 20, 9, .d⟩) ∧
    decode 0x8049 0xC7C41A80 = .ok (.min ⟨.always, 9, 15, 17, .d⟩) ∧
    decode 0x81C0 0xC5901880 = .ok (.cmp ⟨.always, 0, 11, 4, .d, .sx, .lt⟩) :=
  ⟨rfl, rfl, rfl, rfl, rfl⟩

end Sys2Proof.Tests
end

section
/-!
PROOFS. The module after reset.
-/
namespace Sys2Proof.Machine
open Sys2Proof

/-- No slot of a module without threads can issue. -/
theorem selectFrom_no_threads (s : State) (h : s.dev.threads = []) (c : Nat) : ∀ ks, selectFrom c ks s = (none, s)
  | [] => rfl
  | k :: ks => by
    have : s.dev.slotTid c k = none := by simp [Dev.slotTid, h]
    simp [selectFrom, this, selectFrom_no_threads s h c ks]

/-- A core of a module in reset issues nothing. -/
theorem issueStep_reset (c : Nat) : issueStep c State.reset = .next State.reset := by
  have h : issueCore c State.reset = (none, State.reset) := by
    simp only [issueCore]
    split
    · rfl
    · exact selectFrom_no_threads _ rfl c _
  show (match issueCore c State.reset with
    | (some o, _) => o
    | (none, s') => .next s') = _
  rw [h]

/-- Settles O49: the counter, the cores, the dies and the clusters of a module in reset are those
of the absent entries. -/
theorem resetValues : Obligations.ResetValues := by
  unfold Obligations.ResetValues
  have core (c : Nat) : State.reset.dev.core c = Core.reset := rfl
  refine ⟨rfl, rfl, rfl, rfl, rfl, rfl, fun _ => rfl, fun c => ?_, fun n => ⟨rfl, fun i => ?_⟩, fun _ => rfl⟩
  · have queues (q : Fin 4) : Core.reset.q[q.val] = none := by simp [Core.reset]
    have journal (e : Fin 64) : Core.reset.jrnl[e.val].v = false := by simp [Core.reset, JEntry.free]
    exact ⟨rfl, rfl, rfl, rfl, queues, journal, issueStep_reset c⟩
  · have die : State.reset.dev.die n = Die.reset := rfl
    rw [die]
    simp [Die.reset]

end Sys2Proof.Machine
end

section
/-!
PROOFS. Steps: the selector, an issue, the steps that may be due, and what they leave of the counter and the agenda.
-/
namespace Sys2Proof.Machine
open Sys2Proof

/-! ### The selector -/

/-- Slots that are idle delay no other (R21). -/
theorem selectFrom_idle {c : Nat} {s : State} (ks : List Nat) : ∀ {l : List Nat}, (∀ k ∈ l, s.slotIdle c k) →
    selectFrom c (l ++ ks) s = selectFrom c ks s
  | [], _ => rfl
  | k :: l, h => by
    obtain ⟨hk, hl⟩ := List.forall_mem_cons.mp h
    have ih := selectFrom_idle ks hl
    rw [List.cons_append, selectFrom]
    split
    · exact ih
    · next tid hs =>
      split
      · exact ih
      · next t ht => rw [hk tid t hs ht]; exact ih

/-- Slot `k`, the `n`-th of the rotation, with idle slots before it. -/
theorem rotation_split (p n : Nat) (hn : n < 16) : rotation p
    = (List.range n).map (fun i => (p + 1 + i) % 16) ++ (p + 1 + n) % 16 ::
      (List.range (15 - n)).map (fun i => (p + 1 + (n + 1 + i)) % 16) := by
  have h : 16 = n + ((15 - n) + 1) := by omega
  unfold rotation
  rw [h, List.range_add, List.range_succ_eq_map]
  simp only [List.map_append, List.map_map, List.map_cons]
  rw [← h]
  simp [Function.comp_def, Nat.add_comm, Nat.add_left_comm]

/-- The slot whose turn it is issues. -/
theorem issueCore_turn {s : State} {c k tid : Nat} {t : Thread} {line : Nat} (h : s.turn c k tid t line)
    {o : Host.Outcome State Fault Refusal} (ho : tryIssue s c k tid t = .out o) : issueCore c s = (some o, s) := by
  obtain ⟨honce, ⟨n, hn, hk, hidle⟩, hslot, hthr, hready, -, -⟩ := h
  rw [issueCore, if_neg honce, rotation_split _ n hn, selectFrom_idle _ (by simpa using hidle), ← hk, selectFrom, hslot]
  simp only [hthr, hready, ho, if_true]

/-- Cores that cannot issue and ask for nothing delay no other. -/
theorem issueAny_idle {s : State} (cs : List Nat) : ∀ {l : List Nat}, (∀ x ∈ l, issueCore x s = (none, s)) →
    issueAny (l ++ cs) s = issueAny cs s
  | [], _ => rfl
  | x :: l, h => by
    obtain ⟨hx, hl⟩ := List.forall_mem_cons.mp h
    rw [List.cons_append, issueAny, hx]
    exact issueAny_idle cs hl

/-- With no step due, what a core issues is the step. -/
theorem nextStep_issue {s s' : State} {l : List Act} {pass : State → State} {o : Host.Outcome State Fault Refusal}
    (hd : firstDue s l = none) (ho : issueAny (inRotation s.drip s.dev.busyCores) s = (some o, s')) :
    nextStep l s pass = o := by
  rw [nextStep, hd, ho]

/-- With no step due and no core that issues, the drip passes. -/
theorem nextStep_pass {s s' : State} {l : List Act} {pass : State → State} (hd : firstDue s l = none)
    (ho : issueAny (inRotation s.drip s.dev.busyCores) s = (none, s')) :
    nextStep l s pass = .next (passDrip (pass s')) := by
  rw [nextStep, hd, ho]

/-- A step that is due is the step. -/
theorem nextStep_due {s : State} {l : List Act} {pass : State → State} {o : Host.Outcome State Fault Refusal}
    (hd : firstDue s l = some o) : nextStep l s pass = o := by
  rw [nextStep, hd]

theorem step_event {s : State} {i : Instr} {rest : List Stim} (h : s.agenda = .event i :: rest) :
    step s = exec i { s with agenda := rest } := by rw [step, h]

theorem step_tick {s : State} {rest : List Stim} (h : s.agenda = .tick :: rest) : step s = tickStep rest s := by
  rw [step, h]

theorem step_issue {s : State} {c : Nat} {rest : List Stim} (h : s.agenda = .issue c :: rest) :
    step s = issueStep c { s with agenda := rest } := by rw [step, h]

theorem step_own {s : State} (h : s.agenda = []) : step s = ownStep s := by rw [step, h]

/-- What the core that is asked issues is the step. -/
theorem step_of_asked {s s0 s' : State} {c : Nat} {o : Host.Outcome State Fault Refusal} (h : s.asksCore c s0)
    (ho : issueCore c s0 = (some o, s')) : step s = o := by
  rcases h with ⟨rest, ha, rfl⟩ | ⟨hdue, ⟨l, r, hl, hidle⟩, rfl⟩
  · rw [step_issue ha]
    change (match issueCore c (({ s with agenda := rest } : State).withHits c) with
      | (some o, _) => o
      | (none, s') => .next s') = o
    rw [ho]
  · have hany : issueAny (inRotation s0.drip s0.dev.busyCores) s0 = (some o, s') := by
      rw [hl, issueAny_idle _ hidle, issueAny, ho]
    rcases hdue with ⟨ha, hd⟩ | ⟨⟨rest, ha⟩, hd⟩
    · rw [step_own ha]; exact nextStep_issue hd hany
    · rw [step_tick ha]; exact nextStep_issue hd hany

/-! ### From the slot to its head -/

@[simp] theorem Thread.wake_pc (t : Thread) : t.wake.pc = t.pc := by unfold Thread.wake; split <;> rfl
@[simp] theorem Thread.wake_ctx (t : Thread) : t.wake.ctx = t.ctx := by unfold Thread.wake; split <;> rfl

theorem State.woken_drip (s : State) (tid : Nat) (t : Thread) : (s.woken tid t).drip = s.drip := by
  unfold State.woken; split <;> rfl

/-- A slot whose turn it is and that stands at a single head issues it. -/
theorem tryIssue_single {s : State} {c k tid : Nat} {t : Thread} {line : Nat} {i : Instr}
    (h : s.turn c k tid t line) (hi : single line (pcIdx t.pc) i) :
    tryIssue s c k tid t
      = issueOne (s.woken tid t) c k tid i t.pc (nextPc t.pc (lineN line) (pcIdx t.pc)) := by
  obtain ⟨h1, hn, hhead, hpair⟩ := hi
  have htrap := h.noTrap
  have hline := h.line
  rw [← State.woken_drip s tid t] at hline
  unfold State.woken State.withDev at *
  simp only [tryIssue, htrap, Thread.wake_pc, Thread.wake_ctx, hline, hhead, hpair]
  rw [if_neg (by omega), if_neg (by omega)]
  simp

/-- A slot whose turn it is and that stands at a bundle issues it. -/
theorem tryIssue_bundled {s : State} {c k tid : Nat} {t : Thread} {line : Nat} {a b : Instr}
    (h : s.turn c k tid t line) (hb : bundled line (pcIdx t.pc) a b) :
    tryIssue s c k tid t = issueBundle (s.woken tid t) c k tid a b t.pc
      (nextPc (t.pc + 2) (lineN line) (pcIdx t.pc + 1)) t.wake := by
  obtain ⟨⟨h1, hn⟩, ⟨hhead, hpair, hva⟩, ⟨hhead2, hpair2, hvb⟩, hclash⟩ := hb
  have htrap := h.noTrap
  have hline := h.line
  rw [← State.woken_drip s tid t] at hline
  unfold State.woken State.withDev at *
  simp only [tryIssue, htrap, Thread.wake_pc, Thread.wake_ctx, hline, hhead, hpair, hhead2, hpair2, hva, hvb, hclash]
  rw [if_neg (by omega), if_neg (by omega), if_pos trivial, if_neg (by simp; omega)]
  simp

/-- A head that is not held issues. -/
theorem issueOne_next {s s' : State} {c k tid : Nat} {i : Instr} {pc next : Word}
    (h : exec i (s.begun tid pc next none false) = .next s') (hq : ∀ q, s'.dev.note ≠ .held q) :
    issueOne s c k tid i pc next = .out (.next (s'.issued c k)) := by
  have h : exec i { s with dev := s.dev.begin tid pc next none false } = .next s' := h
  simp only [issueOne, h]

/-- A fault or a refusal of a head is that of the step. -/
theorem issueOne_stops {s : State} {c k tid : Nat} {i : Instr} {pc next : Word}
    {o : Host.Outcome State Fault Refusal} (h : exec i (s.begun tid pc next none false) = o)
    (ho : ∀ s', o ≠ .next s') : issueOne s c k tid i pc next = .out o := by
  have h : exec i { s with dev := s.dev.begin tid pc next none false } = o := h
  unfold issueOne
  rw [h]
  cases o with
  | next s' => exact absurd rfl (ho s')
  | fault f => rfl
  | refused r => rfl

/-! ### Bundles (R45) -/

/-- The order in which the two heads of a bundle are tried: EXIT goes last (R332). -/
def bundleOrder (a b x y : Instr) (e : Bool) : Prop :=
  (a ≠ .exit ∧ (∀ o, a ≠ .exitGuarded o)) ∧ x = a ∧ y = b ∧ e = false ∨
    (a = .exit ∨ ∃ o, a = .exitGuarded o) ∧ x = b ∧ y = a ∧ e = true

theorem endsThread_of_not_exit {a : Instr} (h1 : a ≠ .exit) (h2 : ∀ o, a ≠ .exitGuarded o) : endsThread a = false := by
  unfold endsThread
  split
  · exact absurd rfl h1
  · exact absurd rfl (h2 _)
  · rfl

/-- A head that is not held by itself asks for nothing. -/
theorem heldAlone_none {s : State} {tid : Nat} {i : Instr} {pc next : Word} {t : Thread} {v : Bool}
    (h : ∀ u q, exec i (s.begun tid pc next (some t) v) = .next u → u.dev.note ≠ .held q) :
    heldAlone s tid i pc next t v = none := by
  have h : ∀ u q, exec i { s with dev := s.dev.begin tid pc next (some t) v } = .next u → u.dev.note ≠ .held q := h
  unfold heldAlone
  split
  · next s' he =>
    split
    · next q hn => exact absurd hn (h s' q he)
    · rfl
  · rfl

/-- A bundle tries its heads in their order, once the later one is not held by itself. -/
theorem issueBundle_order {s : State} {c k tid : Nat} {a b x y : Instr} {e : Bool} {pc next : Word} {t : Thread}
    (ho : bundleOrder a b x y e)
    (hy : ∀ u q, exec y (s.begun tid pc next (some t) (!e)) = .next u → u.dev.note ≠ .held q) :
    issueBundle s c k tid a b pc next t = issueSecond s s c k tid x pc next t e false (fun s1 =>
      issueSecond s s1 c k tid y pc next t (!e) true (fun s2 => .out (.next (s2.issued c k)))) := by
  have hy := heldAlone_none hy
  rcases ho with ⟨⟨h1, h2⟩, rfl, rfl, rfl⟩ | ⟨h, rfl, rfl, rfl⟩
  · simp only [issueBundle, endsThread_of_not_exit h1 h2, Bool.false_eq_true, if_false, hy]
  · have he : endsThread y = true := by rcases h with rfl | ⟨o, rfl⟩ <;> rfl
    simp only [issueBundle, he, if_true, hy]

/-- A head of a bundle that issues makes way for what comes next. -/
theorem issueSecond_issued {first s s' : State} {c k tid : Nat} {i : Instr} {pc next : Word} {t : Thread}
    {v last : Bool} {f : State → Try} (h : exec i (s.begun tid pc next (some t) v) = .next s')
    (hn : s'.dev.note = .issued) : issueSecond first s c k tid i pc next t v last f = f s' := by
  have h : exec i { s with dev := s.dev.begin tid pc next (some t) v } = .next s' := h
  simp only [issueSecond, h, hn]

/-- A trap of the head that goes first: EPC names the S head. -/
theorem issueSecond_trapped_first {first s s' : State} {c k tid cause : Nat} {i : Instr} {pc next p w : Word}
    {t : Thread} {v : Bool} {f : State → Try} (h : exec i (s.begun tid pc next (some t) v) = .next s')
    (hn : s'.dev.note = .trapped cause p w) : issueSecond first s c k tid i pc next t v false f
      = .out (.next ((s'.withDev (s'.dev.updThr tid (fun t => if t.exited then t else { t with epc := pc }))).issued
        c k)) := by
  have h : exec i { s with dev := s.dev.begin tid pc next (some t) v } = .next s' := h
  simp only [issueSecond, h, hn]
  rfl

/-- A trap of the head that goes last undoes both. -/
theorem issueSecond_trapped_last {first s s' : State} {c k tid cause : Nat} {i : Instr} {pc next p w : Word}
    {t : Thread} {v : Bool} {f : State → Try} (h : exec i (s.begun tid pc next (some t) v) = .next s')
    (hn : s'.dev.note = .trapped cause p w) : issueSecond first s c k tid i pc next t v true f
      = .out (.next ((first.withDev (first.dev.tickFresh.takeTrap first.drip first.mem tid cause pc w)).issued c k)) := by
  have h : exec i { s with dev := s.dev.begin tid pc next (some t) v } = .next s' := h
  simp only [issueSecond, h, hn]
  rfl

/-- Settles O53: each kind of agenda's step, a single head, and a bundle in the order its heads run in. -/
theorem stepRunsHead : Obligations.StepRunsHead := by
  unfold Obligations.StepRunsHead
  refine ⟨fun s i rest h => step_event h, fun s rest h => ?_, fun s s0 c k tid t line i hc ht hi => ?_,
    fun s s0 c k tid t line a b hc ht hb => ?_⟩
  · rw [step_tick h]
    exact ⟨fun o ho => nextStep_due ho,
      fun hd s' => ⟨fun o ho => nextStep_issue hd ho, fun ho => nextStep_pass hd ho⟩⟩
  · have hstep {o} (ho : issueOne (s0.woken tid t) c k tid i t.pc (nextPc t.pc (lineN line) (pcIdx t.pc)) = .out o) :
        step s = o := step_of_asked hc (issueCore_turn ht ((tryIssue_single ht hi).trans ho))
    exact ⟨fun s' h hq => hstep (issueOne_next h hq),
      fun f h => hstep (issueOne_stops h (fun _ => by simp)),
      fun r h => hstep (issueOne_stops h (fun _ => by simp))⟩
  · intro s1 p0 n at' undone x y e hord hy u hu
    have hstep {o} (ho : issueSecond s1 s1 c k tid x t.pc n t.wake e false (fun s2 =>
        issueSecond s1 s2 c k tid y t.pc n t.wake (!e) true (fun s3 => .out (.next (s3.issued c k)))) = .out o) :
        step s = o :=
      step_of_asked hc (issueCore_turn ht
        (((tryIssue_bundled ht hb).trans (issueBundle_order hord hy)).trans ho))
    refine ⟨fun cause p v hn => hstep (issueSecond_trapped_first hu hn),
      fun hn => ⟨fun w hw hwn => ?_, fun w cause p v hw hwn => ?_⟩⟩
    · exact hstep ((issueSecond_issued hu hn).trans (issueSecond_issued hw hwn))
    · exact hstep ((issueSecond_issued hu hn).trans (issueSecond_trapped_last hw hwn))


/-! ### What an issue sets, and who may issue -/

/-- A core that issues nothing changes nothing but what came for it. -/
theorem issueStep_of_none {s s' : State} {c : Nat} (h : issueCore c (s.withHits c) = (none, s')) :
    issueStep c s = .next s' := by
  change (match issueCore c (s.withHits c) with
    | (some o, _) => o
    | (none, s') => .next s') = _
  rw [h]

/-- A core whose slots are all idle issues nothing (R19). -/
theorem issueCore_idle {s : State} {c : Nat} (h : ∀ k < 16, s.slotIdle c k) : issueCore c s = (none, s) := by
  have hrot : ∀ k ∈ rotation (s.dev.core c).ptr, s.slotIdle c k := by
    intro k hk
    obtain ⟨i, -, rfl⟩ := List.mem_map.mp hk
    exact h _ (Nat.mod_lt _ (by decide))
  unfold issueCore
  split
  · rfl
  · simpa [selectFrom] using selectFrom_idle [] hrot

/-- After slot `k` of core `c` has issued, its core has its mark, and every other core is as before. -/
theorem State.issued_core (s : State) (c k j : Nat) : (s.issued c k).dev.core j
    = if j = c then { s.dev.core c with
        ptr := k
        lastIssue := some s.drip
        gaps := put k (s.drip + 8) (s.dev.core c).gaps } else s.dev.core j :=
  Dev.core_setCore s.dev c j _

/-- What a thread that is ready has met (Table 2-6). -/
theorem Dev.slotReady_conditions {d : Dev} {drip tid : Nat} {t : Thread} (h : d.slotReady drip tid t = true) :
    d.inReset = false ∧ t.wst.awake drip = true ∧ t.stopped = false ∧ t.preempted = false ∧ t.exited = false ∧
      t.notBefore ≤ drip ∧ ∃ c k, t.place = .slot c k ∧ d.fencedCore c = false ∧ look 0 k (d.core c).gaps ≤ drip := by
  simp only [Dev.slotReady, Bool.and_eq_true, Bool.not_eq_true', decide_eq_true_eq] at h
  obtain ⟨⟨⟨⟨⟨⟨⟨hreset, hawake⟩, hstop⟩, hpre⟩, hexit⟩, hbefore⟩, hplace⟩, -⟩ := h
  refine ⟨hreset, hawake, hstop, hpre, hexit, hbefore, ?_⟩
  split at hplace
  · next c k hp =>
    simp only [Bool.and_eq_true, Bool.not_eq_true', decide_eq_true_eq] at hplace
    exact ⟨c, k, hp, hplace.1.1, hplace.2⟩
  · cases hplace

/-- A slot that is awake waits for nothing, or its stamp has come (R20). -/
theorem Wst.of_awake {w : Wst} {drip : Nat} (h : w.awake drip = true) :
    w = .ready ∨ ∃ x, w = .doze x ∧ x.toNat ≤ drip := by
  cases w with
  | ready => exact .inl rfl
  | doze x => exact .inr ⟨x, rfl, by simpa [Wst.awake] using h⟩
  | _ => cases h

/-- Settles O54: the idle core keeps its pointer, an issue writes one slot's gap, and readiness has its conditions. -/
theorem selectorTakesTurns : Obligations.SelectorTakesTurns := by
  unfold Obligations.SelectorTakesTurns
  refine ⟨fun s c h => issueStep_of_none (if_pos h), fun s c h => issueStep_of_none (issueCore_idle h),
    fun s c k => ?_, fun s tid t h => ?_⟩
  · have hc := s.issued_core c k c
    rw [if_pos rfl] at hc
    rw [hc]
    exact ⟨rfl, rfl, fun j => look_put 0 k j _ _, fun j hj => (s.issued_core c k j).trans (if_neg hj), rfl⟩
  · obtain ⟨hreset, hawake, hrest⟩ := Dev.slotReady_conditions h
    exact ⟨hreset, Wst.of_awake hawake, hrest⟩

/-! ### What a step can do to the counter and the agenda -/

theorem Memory.writeAll_append (m : Memory) (l r : List (Nat × Byte)) :
    m.writeAll (l ++ r) = (m.writeAll l).writeAll r := by
  induction l generalizing m with
  | nil => rfl
  | cons c l ih => exact ih _

theorem Quiet.refl (s : State) : Quiet s s := ⟨rfl, rfl, [], rfl⟩

/-- Other units leave the counter, the agenda and memory. -/
theorem Quiet.withDev (s : State) (d : Dev) : Quiet s (s.withDev d) := ⟨rfl, rfl, [], rfl⟩

theorem Quiet.trans {s t u : State} (h1 : Quiet s t) (h2 : Quiet t u) : Quiet s u := by
  obtain ⟨hd1, ha1, w1, hm1⟩ := h1
  obtain ⟨hd2, ha2, w2, hm2⟩ := h2
  exact ⟨hd2.trans hd1, ha2.trans ha1, w1 ++ w2, by rw [hm2, hm1, Memory.writeAll_append]⟩

/-- An outcome that, where it goes on, leaves the counter and the agenda of `s`. -/
def QuietOut (s : State) (o : Host.Outcome State Fault Refusal) : Prop := ∀ t, o = .next t → Quiet s t

/-- A step of the module that leaves the counter and the agenda. -/
def QuietAct (a : Act) : Prop := ∀ s, QuietOut s (a s)

theorem QuietOut.next {s t : State} (h : Quiet s t) : QuietOut s (.next t) := by
  rintro _ ⟨⟩
  exact h

/-- A step that runs a body. -/
theorem QuietAct.run (b : Nat → Memory → Dev → Res) : QuietAct (run b) := fun _ _ => run_quiet

/-- A head, whatever it is, leaves the counter and the agenda. -/
theorem exec_head_quiet {i : Instr} (h : i.isHead = true) : QuietAct (exec i) := by
  intro s t ht
  refine exec_quiet i s t ht ?_ ?_
  · rintro o rfl
    cases h
  · rintro rfl
    cases h

theorem headOf_isHead {l k : Nat} {i : Instr} (h : headOf l k = some i) : i.isHead = true := by
  unfold headOf at h
  split at h
  · split at h
    · next j _ =>
      split at h
      · next hc =>
        cases h
        exact (Bool.and_eq_true _ _ ▸ hc).2
      · cases h
    · cases h
  · cases h

/-! ### An issue -/

/-- What comes of trying to issue in state `s` leaves the counter and the agenda. -/
def Try.quiet (s : State) : Try → Prop
  | .no .. => True
  | .out o => QuietOut s o

theorem State.issued_quiet {s t : State} (h : Quiet s t) (c k : Nat) : Quiet s (t.issued c k) :=
  h.trans (Quiet.withDev t _)

theorem illegal_quiet (s : State) (c k tid : Nat) (pc : Word) (v : Option Word) :
    (s.illegal c k tid pc v).quiet s :=
  QuietOut.next (State.issued_quiet (Quiet.withDev s _) c k)

theorem begun_quiet {s t : State} {i : Instr} (hi : i.isHead = true) {tid : Nat} {pc next : Word}
    {old : Option Thread} {v : Bool} (h : exec i (s.begun tid pc next old v) = .next t) : Quiet s t :=
  (Quiet.withDev s _).trans (exec_head_quiet hi _ t h)

theorem issueOne_quiet {i : Instr} (hi : i.isHead = true) (s : State) (c k tid : Nat) (pc next : Word) :
    (issueOne s c k tid i pc next).quiet s := by
  unfold issueOne
  split
  · next t h =>
    have ht : Quiet s t := begun_quiet hi h
    split
    · trivial
    · exact QuietOut.next (State.issued_quiet ht c k)
  · next o ho => exact fun t h => absurd h (ho t)

theorem issueSecond_quiet {i : Instr} (hi : i.isHead = true) {first s : State} (hs : Quiet first s) (c k tid : Nat)
    (pc next : Word) (t : Thread) (v last : Bool) {f : State → Try} (hf : ∀ u, Quiet s u → (f u).quiet first) :
    (issueSecond first s c k tid i pc next t v last f).quiet first := by
  unfold issueSecond
  split
  · next u h =>
    have hu : Quiet s u := begun_quiet hi h
    split
    · trivial
    · split
      · exact QuietOut.next (State.issued_quiet (Quiet.withDev first _) c k)
      · exact QuietOut.next (State.issued_quiet (hs.trans (hu.trans (Quiet.withDev u _))) c k)
    · exact hf u hu
  · next o ho => exact fun t h => absurd h (ho t)

theorem issueBundle_quiet {a b : Instr} (ha : a.isHead = true) (hb : b.isHead = true) (s : State) (c k tid : Nat)
    (pc next : Word) (t : Thread) : (issueBundle s c k tid a b pc next t).quiet s := by
  have hx : (if endsThread a then b else a).isHead = true := by split <;> assumption
  have hy : (if endsThread a then a else b).isHead = true := by split <;> assumption
  unfold issueBundle
  simp only
  split
  · trivial
  · exact issueSecond_quiet hx (Quiet.refl s) c k tid pc next t _ _ fun u hu =>
      issueSecond_quiet hy hu c k tid pc next t _ _ fun w hw =>
        QuietOut.next (State.issued_quiet (hu.trans hw) c k)

theorem Try.quiet_of_dev {s : State} {d : Dev} {x : Try} (h : x.quiet (s.withDev d)) : x.quiet s := by
  cases x with
  | no => trivial
  | out o => exact fun t ht => (Quiet.withDev s d).trans (h t ht)

theorem Try.quiet_of_out {s : State} {x : Try} {o : Host.Outcome State Fault Refusal} (h : x.quiet s)
    (ho : x = .out o) : QuietOut s o := by
  subst ho
  exact h

theorem State.woken_withDev (s : State) (tid : Nat) (t : Thread) : ∃ d, s.woken tid t = s.withDev d := by
  unfold State.woken
  split
  · exact ⟨s.dev, rfl⟩
  · exact ⟨_, rfl⟩

theorem tryIssue_quiet (s : State) (c k tid : Nat) (t : Thread) : (tryIssue s c k tid t).quiet s := by
  obtain ⟨d, hd⟩ := s.woken_withDev tid t
  refine Try.quiet_of_dev (d := d) ?_
  rw [← hd]
  generalize hs : s.woken tid t = s1
  unfold State.woken State.withDev at hs
  unfold tryIssue
  simp only [hs]
  split
  · exact QuietOut.next (Quiet.withDev s1 _)
  · split
    · next l _ =>
      split
      · exact illegal_quiet _ _ _ _ _ _
      · split
        · exact illegal_quiet _ _ _ _ _ _
        · split
          · exact illegal_quiet _ _ _ _ _ _
          · next i hi =>
            split
            · split
              · exact illegal_quiet _ _ _ _ _ _
              · split
                · exact illegal_quiet _ _ _ _ _ _
                · next j hj =>
                  split
                  · exact illegal_quiet _ _ _ _ _ _
                  · exact issueBundle_quiet (headOf_isHead hi) (headOf_isHead hj) _ _ _ _ _ _ _
            · exact issueOne_quiet (headOf_isHead hi) _ _ _ _ _ _
    · trivial

/-- What a search for an issue from state `s` finds leaves the counter and the agenda, and so does what it asked for. -/
def Found.quiet (s : State) (r : Option (Host.Outcome State Fault Refusal) × State) : Prop :=
  Quiet s r.2 ∧ ∀ o, r.1 = some o → QuietOut s o

theorem Found.quiet_none {s t : State} (h : Quiet s t) : Found.quiet s (none, t) :=
  ⟨h, fun _ ho => by cases ho⟩

theorem Found.quiet_trans {s t : State} {r : Option (Host.Outcome State Fault Refusal) × State} (h : Quiet s t)
    (hr : Found.quiet t r) : Found.quiet s r :=
  ⟨h.trans hr.1, fun o ho u hu => h.trans (hr.2 o ho u hu)⟩

theorem selectFrom_quiet (c : Nat) : ∀ (ks : List Nat) (s : State), Found.quiet s (selectFrom c ks s)
  | [], s => Found.quiet_none (Quiet.refl s)
  | k :: ks, s => by
    unfold selectFrom
    split
    · exact selectFrom_quiet c ks s
    · split
      · exact selectFrom_quiet c ks s
      · next t _ =>
        split
        · have hq := tryIssue_quiet s c k
          split
          · exact Found.quiet_trans (Quiet.withDev s _) (selectFrom_quiet c ks _)
          · next o ho =>
            refine ⟨Quiet.refl s, fun o' h => ?_⟩
            cases h
            exact Try.quiet_of_out (hq _ t) ho
        · exact selectFrom_quiet c ks s

theorem issueCore_quiet (c : Nat) (s : State) : Found.quiet s (issueCore c s) := by
  unfold issueCore
  split
  · exact Found.quiet_none (Quiet.refl s)
  · exact selectFrom_quiet c _ s

theorem issueAny_quiet : ∀ (cs : List Nat) (s : State), Found.quiet s (issueAny cs s)
  | [], s => Found.quiet_none (Quiet.refl s)
  | c :: cs, s => by
    have hc := issueCore_quiet c s
    unfold issueAny
    split
    · next o s' h => rw [h] at hc; exact ⟨hc.1, fun o' ho => by cases ho; exact hc.2 o rfl⟩
    · next s' h => rw [h] at hc; exact Found.quiet_trans hc.1 (issueAny_quiet cs s')

theorem issueStep_quiet (c : Nat) : QuietAct (issueStep c) := by
  intro s
  have h : Found.quiet s (issueCore c (s.withHits c)) :=
    Found.quiet_trans (Quiet.withDev s _) (issueCore_quiet c _)
  unfold issueStep
  split
  · next o _ ho => exact h.2 o (congrArg Prod.fst ho)
  · next s' ho =>
    have hs : (issueCore c (s.withHits c)).2 = s' := congrArg Prod.snd ho
    exact QuietOut.next (hs ▸ h.1)

/-! ### The steps that may be due -/

theorem onReq_quiet (m : Nat) (f : Nat → Memory → Dev → From → Req → Option (Dev × List (Nat × Byte))) :
    QuietAct (onReq m f) := QuietAct.run _

theorem gateStep_quiet (n m : Nat) (f : Nat → Memory → Dev → From → BitVec 16 → Word → Option Res) :
    QuietAct (gateStep n m f) := by
  unfold gateStep onReqR
  exact QuietAct.run _

theorem engineStep_quiet (clus eng : Nat) (f : Nat → Memory → Dev → EEntry → Res) :
    QuietAct (engineStep clus eng f) := QuietAct.run _

/-- All of a list of steps leave the counter and the agenda. -/
def QuietActs (l : List Act) : Prop := ∀ a ∈ l, QuietAct a

theorem QuietActs.append {l r : List Act} (hl : QuietActs l) (hr : QuietActs r) : QuietActs (l ++ r) :=
  List.forall_mem_append.mpr ⟨hl, hr⟩

theorem QuietActs.flatMap {α : Type} {l : List α} {f : α → List Act} (h : ∀ x, QuietActs (f x)) :
    QuietActs (l.flatMap f) := by
  intro a ha
  obtain ⟨x, -, hx⟩ := List.mem_flatMap.mp ha
  exact h x a hx

theorem QuietActs.map {α : Type} {l : List α} {f : α → Act} (h : ∀ x, QuietAct (f x)) : QuietActs (l.map f) := by
  intro a ha
  obtain ⟨x, -, rfl⟩ := List.mem_map.mp ha
  exact h x

theorem QuietActs.filterMap {α : Type} {l : List α} {f : α → Option Act} (h : ∀ x a, f x = some a → QuietAct a) :
    QuietActs (l.filterMap f) := by
  intro a ha
  obtain ⟨x, -, hx⟩ := List.mem_filterMap.mp ha
  exact h x a hx

theorem QuietActs.nil : QuietActs [] := fun _ h => absurd h List.not_mem_nil

theorem QuietActs.cons {a : Act} {l : List Act} (ha : QuietAct a) (hl : QuietActs l) : QuietActs (a :: l) :=
  List.forall_mem_cons.mpr ⟨ha, hl⟩

theorem QuietActs.ite {c : Prop} [Decidable c] {l r : List Act} (hl : QuietActs l) (hr : QuietActs r) :
    QuietActs (if c then l else r) := by
  split <;> assumption

theorem Req.steps_quiet (m : Nat) (q : Req) : QuietActs (q.steps m) := by
  cases q with
  | gate =>
    exact .cons (gateStep_quiet _ m _) <| .cons (gateStep_quiet _ m _) <| .cons (gateStep_quiet _ m _) <|
      .cons (gateStep_quiet _ m _) <| .cons (gateStep_quiet _ m _) <| .cons (gateStep_quiet _ m _) <|
      .cons (gateStep_quiet _ m _) <| .cons (gateStep_quiet _ m _) .nil
  | bwait | mcs | launch | amsg | done | amsgEnd | mstat => exact .cons (.run _) .nil
  | _ => exact .cons (onReq_quiet m _) .nil

theorem Msg.steps_quiet (x : Msg) : QuietActs x.steps := by
  obtain ⟨id, k⟩ := x
  cases k with
  | acc =>
    exact .cons (.run _) <| .cons (.run _) <| .cons (.run _) <| .cons (.run _) <| .cons (.run _) <| .cons (.run _) <|
      .cons (.run _) <| .cons (.run _) <| .cons (.run _) .nil
  | error => exact .cons (.run _) <| .cons (.run _) .nil
  | req _ q => exact q.steps_quiet id
  | _ => exact .cons (.run _) .nil

theorem Dev.leaseSteps_quiet (d : Dev) (drip : Nat) : QuietActs (d.leaseSteps drip) := by
  unfold Dev.leaseSteps
  refine .append (.flatMap fun l => .append (.ite (.cons (.run _) .nil) .nil) ?_)
    (.flatMap fun w => .cons (.run _) (.cons (.run _) .nil))
  split
  · exact .map fun _ => .run _
  · refine .ite (.filterMap fun p a h => ?_) .nil
    split at h
    · cases h; exact .run _
    · cases h
  · exact .nil

theorem Dev.coreSteps_quiet (d : Dev) (drip : Nat) : QuietActs (d.coreSteps drip) :=
  .flatMap fun _ => .append (.map fun _ => .run _) (.ite .nil (.cons (.run _) .nil))

theorem Dev.clusterSteps_quiet (d : Dev) : QuietActs d.clusterSteps :=
  .flatMap fun _ => .cons (.run _) <| .cons (engineStep_quiet _ _ _) <| .cons (engineStep_quiet _ _ _) <|
    .cons (engineStep_quiet _ _ _) <| .cons (engineStep_quiet _ _ _) <| .cons (.run _) <| .cons (.run _) .nil

theorem Dev.unitSteps_quiet (d : Dev) (drip : Nat) : QuietActs (d.unitSteps drip) :=
  .append (.append (.append (.append (.map fun _ => .run _) (.ite .nil (.map fun _ => .run _)))
    (.ite .nil (.cons (.run _) .nil)))
    (.flatMap fun _ => .append (.ite (.cons (.run _) .nil) .nil) (.ite (.cons (.run _) .nil) .nil)))
    (.ite (.cons (.run _) .nil) .nil)

theorem Dev.armSteps_quiet (d : Dev) (mem : Memory) : QuietActs (d.armSteps mem) := by
  refine .flatMap fun l => ?_
  split
  · refine .filterMap fun k a h => ?_
    simp only at h
    split at h
    · cases h
    · split at h <;> cases h <;> exact .run _
  · exact .nil

theorem Dev.promptSteps_quiet (d : Dev) (drip : Nat) : QuietActs (d.promptSteps drip) := by
  unfold Dev.promptSteps
  refine .append (.append (.append (.append (.append (.append (.append (.append (.append (.append (.append (.append
    (.append ?_ (d.leaseSteps_quiet drip)) ?_) ?_) ?_) ?_) ?_) ?_) ?_) ?_) ?_) ?_) ?_) ?_
  · refine .flatMap fun m => ?_
    split
    · exact .cons (.run _) .nil
    · exact .cons (.run _) .nil
    · exact .nil
  · refine .flatMap fun p => ?_
    split
    · exact .cons (.run _) .nil
    · exact .nil
  · exact .flatMap fun p => .map fun c => .run _
  · exact .flatMap fun p => .cons (.run _) <| .cons (.run _) <| .cons (.run _) <| .cons (.run _) .nil
  · exact .map fun p => .run _
  · exact .map fun p => .run _
  · exact .flatMap fun p => .cons (.run _) <| .ite .nil (.cons (.run _) .nil)
  · exact .map fun p => .run _
  · exact .flatMap fun p => .cons (.run _) <| .cons (.run _) .nil
  · exact .map fun p => .run _
  · exact .flatMap fun p => .cons (.run _) <| .cons (.run _) .nil
  · exact .flatMap fun p => .cons (.run _) <| .cons (.run _) .nil
  · exact .ite .nil (.map fun p => .run _)

theorem datedSteps_quiet (s : State) : QuietActs (datedSteps s) :=
  .append (s.dev.armSteps_quiet s.mem) (s.dev.promptSteps_quiet s.drip)

theorem candidates_quiet (s : State) : QuietActs (candidates s) :=
  .append (.append (.append (.append (.append (.append (.flatMap Msg.steps_quiet) (s.dev.coreSteps_quiet s.drip))
    s.dev.clusterSteps_quiet) (s.dev.unitSteps_quiet s.drip)) (s.dev.armSteps_quiet s.mem)) (.map fun _ => .run _))
    (s.dev.promptSteps_quiet s.drip)

theorem firstDue_quiet {s : State} {o : Host.Outcome State Fault Refusal} : ∀ {l : List Act}, QuietActs l →
    firstDue s l = some o → QuietOut s o
  | [], _, h => by cases h
  | a :: l, hl, h => by
    obtain ⟨ha, hl⟩ := List.forall_mem_cons.mp hl
    have hq := ha s
    unfold firstDue at h
    split at h
    · next s' hs =>
      split at h
      · exact firstDue_quiet hl h
      · cases h
        exact hs ▸ hq
    · cases h
      exact hq

/-- What a step does that no agenda names: a step or an issue, which leave the counter and the agenda, or the passing
of a drip. -/
theorem nextStep_cases {l : List Act} {s t : State} {pass : State → State} (hl : QuietActs l)
    (h : nextStep l s pass = .next t) : Quiet s t ∨ ∃ u, Quiet s u ∧ t = passDrip (pass u) := by
  unfold nextStep at h
  split at h
  · next o ho => exact .inl (firstDue_quiet hl ho t h)
  · have hq := issueAny_quiet (inRotation s.drip s.dev.busyCores) s
    split at h
    · next o _ ho => exact .inl (hq.2 o (congrArg Prod.fst ho) t h)
    · next u ho =>
      cases h
      have hu : (issueAny (inRotation s.drip s.dev.busyCores) s).2 = u := congrArg Prod.snd ho
      exact .inr ⟨u, hu ▸ hq.1, rfl⟩

/-- What a step can be: that of the agenda's event; one that leaves the counter, and of the agenda all but what it took
from it; or the passing of a drip. -/
theorem step_cases {s t : State} (h : step s = .next t) :
    (∃ i rest, s.agenda = .event i :: rest ∧ exec i { s with agenda := rest } = .next t) ∨
    (∃ c rest, s.agenda = .issue c :: rest ∧ Quiet { s with agenda := rest } t) ∨
    (∃ rest, s.agenda = .tick :: rest ∧ (Quiet s t ∨ ∃ u, Quiet s u ∧ t = passDrip { u with agenda := rest })) ∨
    (s.agenda = [] ∧ (Quiet s t ∨ ∃ u, Quiet s u ∧ t = passDrip u)) := by
  unfold step at h
  split at h
  · next i rest ha => exact .inl ⟨i, rest, ha, h⟩
  · next c rest ha => exact .inr (.inl ⟨c, rest, ha, issueStep_quiet c _ t h⟩)
  · next rest ha => exact .inr (.inr (.inl ⟨rest, ha, nextStep_cases (datedSteps_quiet s) h⟩))
  · next ha => exact .inr (.inr (.inr ⟨ha, nextStep_cases (candidates_quiet s) h⟩))

/-- Settles O56: an event is quiet, an issue is quiet, and the rest of a step is quiet or passes the drip. -/
theorem countsTime : Obligations.CountsTime := by
  unfold Obligations.CountsTime
  refine ⟨fun s t h hj hr => ?_, fun s rest i t ha h hj hr => ?_, fun s rest t ha h => ?_⟩
  · rcases step_cases h with ⟨i, rest, ha, hi⟩ | ⟨c, rest, ha, hq⟩ | ⟨rest, ha, hq | ⟨u, hu, rfl⟩⟩ |
      ⟨ha, hq | ⟨u, hu, rfl⟩⟩
    · refine .inl (exec_quiet i _ t hi (fun o ho => hj o ?_) (fun hi => hr ?_)).drip
      · rw [ha, ho]; rfl
      · rw [ha, hi]; rfl
    · exact .inl hq.drip
    · exact .inl hq.drip
    · exact .inr (congrArg (· + 1) hu.drip)
    · exact .inl hq.drip
    · exact .inr (congrArg (· + 1) hu.drip)
  · rw [step_event ha] at h
    exact (exec_quiet i _ t h hj hr).drip
  · rw [step_tick ha] at h
    rcases nextStep_cases (datedSteps_quiet s) h with hq | ⟨u, hu, rfl⟩
    · exact .inl ⟨hq.drip, hq.agenda⟩
    · exact .inr ⟨congrArg (· + 1) hu.drip, rfl⟩

end Sys2Proof.Machine
end

section
/-!
PROOFS. Heads: what those of a form run, the checks before a body, and what scalar, predicate and
floating-point heads leave.
-/
namespace Sys2Proof.Machine
open Sys2Proof

/-! ### What each of the heads of a form runs -/

/-- A scalar head writes the value of its form (R65, R67, R74, R89 to R91, R240). -/
theorem exec_scalar {x : Instr} {g : Guard} {u : Uses} {r : Reg} {f : In → Word} (h : ScalarForm x g u r f) (s : State) :
    exec x s = run (issueS false g u (fun i => i.result r (f i))) s := by
  cases h <;> rfl

/-- A predicate head writes the predicates of its form (R68, R69). -/
theorem exec_pred {x : Instr} {g : Guard} {u : Uses} {f : In → Regs → Regs} (h : PredForm x g u f) (s : State) :
    exec x s = run (issueS false g u (fun i => .ok (i.dev.regs i.tid (f i)) [])) s := by
  cases h
  case pany o =>
    have any (a : BitVec 1024) : allBits (a != 0) = if a = 0 then 0 else BitVec.allOnes 1024 := by
      by_cases h : a = 0
      · rw [if_pos h, h, bne_self_eq_false, allBits, if_neg Bool.false_ne_true]
      · rw [if_neg h, allBits, if_pos (bne_iff_ne.mpr h)]
    change run (pred1 o (fun a => allBits (a != 0))) s = _
    simp only [any]
    rfl
  all_goals rfl

/-- A floating-point head writes the value of its form and raises its flags (R71, R73). -/
theorem exec_float {x : Instr} {g : Guard} {u : Uses} {r : Reg} {f : In → Word × Flags} (h : FloatForm x g u r f)
    (s : State) : exec x s = run (issueS false g u (fun i =>
      .ok ((i.dev.putX i.tid r (f i).1).raiseFlags i.tid i.core (f i).2) [])) s := by
  cases h <;> rfl

/-- A vector head that writes lanes is issued with the registers and checks of its form. -/
theorem exec_lane {x : Instr} {g : Guard} {u : Uses} {pre : Thread → Option Nat} {l : In → Lanes}
    (h : LaneForm x g u pre l) : ∃ f, ∀ s, exec x s = run (issueV g u pre f) s := by
  cases h with
  | vwmul _ _ ht | vwadd _ _ ht | vclass _ _ ht => subst ht; exact ⟨_, fun _ => rfl⟩
  | vdot4 _ _ _ ht hr => subst ht hr; exact ⟨_, fun _ => rfl⟩
  | vperm _ _ hr => subst hr; exact ⟨_, fun _ => rfl⟩
  | vcvt o rs rd hr =>
    obtain ⟨hs, hd⟩ : rs = (if o.dt.bits < o.st.bits then fmtRatio o.dt o.st else 1) ∧
        rd = (if o.dt.bits < o.st.bits then 1 else fmtRatio o.dt o.st) := by
      by_cases narrows : o.dt.bits < o.st.bits
      · simpa only [if_pos narrows, Prod.mk.injEq] using hr
      · simpa only [if_neg narrows, Prod.mk.injEq] using hr
    subst hs hd
    exact ⟨_, fun _ => rfl⟩
  | _ => exact ⟨_, fun _ => rfl⟩

/-- The registers whose reading SRD checks for its mode are those that only a supervisor reads (Table 17-12). -/
theorem supReg_iff (r : SysReg) : supReg r = true ↔ privReads r := by
  cases r <;> simp [supReg, privReads]

/-- Every head is issued with the checks of its shape, whatever its body. -/
theorem HeadShape.runs {s : State} {x : Instr} {p lanes : Bool} {g : Guard} {u : Uses} {pre : Thread → Option Nat}
    (h : HeadShape s.dev x p lanes g u pre) : ∃ f, exec x s = run (issue p lanes g u pre f) s := by
  cases h with
  | scalar h => exact ⟨_, exec_scalar h s⟩
  | pred h => exact ⟨_, exec_pred h s⟩
  | float h => exact ⟨_, exec_float h s⟩
  | lane h =>
    obtain ⟨f, hf⟩ := exec_lane h
    exact ⟨f, hf s⟩
  | transfer h | thread h | access h | post h | homeLoad h | request h | array h | engine h =>
    cases h <;> exact ⟨_, rfl⟩
  | srd o p hp =>
    have : p = supReg o.reg := Bool.eq_iff_iff.mpr (hp.trans (supReg_iff o.reg).symm)
    subst this
    exact ⟨_, rfl⟩
  | _ => exact ⟨_, rfl⟩

/-! ### The checks before a body, in order -/

theorem State.atIssue_thread {s : State} {k : Nat} {t : Thread} (h : s.atIssue k t) :
    ∃ t0, s.dev.thr k = some t0 ∧ s.dev.iss.old.getD t0 = t :=
  Option.map_eq_some_iff.mp h.2

section
variable {s : State} {p lanes : Bool} {g : Guard} {u : Uses} {pre : Thread → Option Nat} {f : In → Out} {k : Nat}
  {t : Thread}

/-- A pending register keeps the slot (R27). -/
theorem issue_pending (h : s.atIssue k t) (hp : u.pending g t = true) :
    run (issue p lanes g u pre f) s = .next (s.withDev { s.dev with note := .held false }) := by
  obtain ⟨t0, ht, hold⟩ := State.atIssue_thread h
  exact event_ok (by simp only [issue, h.1, ht, hold, hp, if_true])

/-- A privileged head in user mode traps (R54). -/
theorem issue_privileged (h : s.atIssue k t) (hp : u.pending g t = false) (hpriv : p = true) (hm : t.mode = false) :
    run (issue p lanes g u pre f) s = .next (s.trapped k Cause.privileged (Config.freeWord s.dev.fresh)) := by
  obtain ⟨t0, ht, hold⟩ := State.atIssue_thread h
  refine event_ok (b := issue p lanes g u pre f) ?_
  simp only [issue, h.1, ht, hold, hp, hpriv, hm, Bool.false_eq_true, if_false, Bool.not_false, Bool.and_self, if_true]
  rfl

/-- The head's mode does not stop it. -/
theorem mode_passes (hm : p = true → t.mode = true) : (p && !t.mode) = false := by
  cases p with
  | false => rfl
  | true => rw [hm rfl]; rfl

/-- A head's own check traps (R175, R198). -/
theorem issue_check (h : s.atIssue k t) (hp : u.pending g t = false) (hm : p = true → t.mode = true) {c : Nat}
    (hc : pre t = some c) :
    run (issue p lanes g u pre f) s = .next (s.trapped k c (Config.freeWord s.dev.fresh)) := by
  obtain ⟨t0, ht, hold⟩ := State.atIssue_thread h
  refine event_ok (b := issue p lanes g u pre f) ?_
  simp only [issue, h.1, ht, hold, hp, mode_passes hm, hc, Bool.false_eq_true, if_false]
  rfl

/-- A queue register used against its mapping traps (R33). -/
theorem issue_misuse (h : s.atIssue k t) (hp : u.pending g t = false) (hm : p = true → t.mode = true)
    (hc : pre t = none) (hq : u.misuse t.slotcfg = true) :
    run (issue p lanes g u pre f) s = .next (s.trapped k Cause.queueMisuse (Config.freeWord s.dev.fresh)) := by
  obtain ⟨t0, ht, hold⟩ := State.atIssue_thread h
  refine event_ok (b := issue p lanes g u pre f) ?_
  simp only [issue, h.1, ht, hold, hp, mode_passes hm, hc, hq, Bool.false_eq_true, if_false, if_true]
  rfl

/-- A head passes what is checked before its guard: its registers, its mode, its own check and its queues' mappings. -/
structure Passes (p : Bool) (g : Guard) (u : Uses) (pre : Thread → Option Nat) (t : Thread) : Prop where
  ready : u.pending g t = false
  mode : p = true → t.mode = true
  check : pre t = none
  mapped : u.misuse t.slotcfg = false

/-- The guard is false, or the one lane that the head acts on is off. -/
def skips (lanes : Bool) (g : Guard) (u : Uses) (d : Dev) (t : Thread) : Prop :=
  (lanes = false ∧ guardTrue g t = false) ∨ u.off d t = true

theorem skips_iff {d : Dev} : (!lanes && !guardTrue g t || u.off d t) = true ↔ skips lanes g u d t := by
  simp [skips]

/-- A head that is skipped moves the pc and does nothing else (R46, R212). -/
theorem issue_skips (h : s.atIssue k t) (hp : Passes p g u pre t) (hs : skips lanes g u s.dev t) :
    run (issue p lanes g u pre f) s = .next (s.withDev (s.dev.advance k)) := by
  obtain ⟨t0, ht, hold⟩ := State.atIssue_thread h
  refine event_ok (b := issue p lanes g u pre f) ?_
  simp only [issue, h.1, ht, hold, hp.ready, mode_passes hp.mode, hp.check, hp.mapped, skips_iff.mpr hs,
    Bool.false_eq_true, if_false, if_true]

/-- A pop of an empty queue keeps the slot (R33). -/
theorem issue_noPop (h : s.atIssue k t) (hp : Passes p g u pre t) (hs : ¬ skips lanes g u s.dev t)
    (hr : s.dev.readXs t u.xs = none) : run (issue p lanes g u pre f) s
      = .next (s.withDev { s.dev with note := .held (s.dev.ringBlocks t u) }) := by
  obtain ⟨t0, ht, hold⟩ := State.atIssue_thread h
  refine event_ok (b := issue p lanes g u pre f) ?_
  simp only [issue, h.1, ht, hold, hp.ready, mode_passes hp.mode, hp.check, hp.mapped, mt skips_iff.mp hs, hr,
    Bool.false_eq_true, if_false]

/-- A push to a full queue keeps the slot (R33). -/
theorem issue_noSpace (h : s.atIssue k t) (hp : Passes p g u pre t) (hs : ¬ skips lanes g u s.dev t) {d : Dev}
    {vals : List Word} {r : Reg} (hr : s.dev.readXs t u.xs = some (d, vals)) (hx : u.xd = some r)
    (hf : d.hasSpace t r = false) : run (issue p lanes g u pre f) s
      = .next (s.withDev { s.dev with note := .held (s.dev.ringBlocks t u) }) := by
  obtain ⟨t0, ht, hold⟩ := State.atIssue_thread h
  refine event_ok (b := issue p lanes g u pre f) ?_
  simp only [issue, h.1, ht, hold, hp.ready, mode_passes hp.mode, hp.check, hp.mapped, mt skips_iff.mp hs, hr, hx, hf,
    Bool.false_eq_true, if_false, Bool.not_false, if_true]
end

/-- Settles O58: the checks of `issue`, in their order, for the heads of `HeadShape`. -/
theorem checksBeforeIssue : Obligations.ChecksBeforeIssue := by
  unfold Obligations.ChecksBeforeIssue
  intro s x p lanes g u pre hshape k t h
  obtain ⟨f, hf⟩ := hshape.runs
  rw [hf]
  refine ⟨issue_pending h, fun hp => ⟨issue_privileged h hp, fun hm => ⟨fun c => issue_check h hp hm, fun hc =>
    ⟨issue_misuse h hp hm hc, fun hq => ?_⟩⟩⟩⟩
  have passes : Passes p g u pre t := ⟨hp, hm, hc, hq⟩
  refine ⟨issue_skips h passes, fun hg ho => ?_⟩
  have acts : ¬ skips lanes g u s.dev t := by
    rcases hg with hg | hg <;> simp [skips, hg, ho]
  exact ⟨issue_noPop h passes acts, fun d vals r => issue_noSpace h passes acts⟩

/-! ### Registers -/

theorem Regs.rx_wx_ne (g : Regs) {r q : Reg} (v : Word) (h : q ≠ r) : (g.wx r v).rx q = g.rx q := by
  have : r.val ≠ q.val := fun e => h (Fin.ext e.symm)
  unfold Regs.wx
  split
  · rfl
  · simp [Regs.rx, Vector.getElem_set_ne, this]

/-- x0 reads zero, whatever is written (R16). -/
@[simp] theorem Regs.rx_zero (g : Regs) : g.rx 0 = 0 := rfl

@[simp] theorem Regs.wx_v (g : Regs) (r : Reg) (v : Word) : (g.wx r v).v = g.v := by unfold Regs.wx; split <;> rfl
@[simp] theorem Regs.wx_k (g : Regs) (r : Reg) (v : Word) : (g.wx r v).k = g.k := by unfold Regs.wx; split <;> rfl

theorem Regs.rk_wk_ne (g : Regs) {r q : KR} (v : BitVec 1024) (h : q ≠ r) : (g.wk r v).rk q = g.rk q := by
  have : r.val ≠ q.val := fun e => h (Fin.ext e.symm)
  simp [Regs.wk, Regs.rk, Vector.getElem_set_ne, this]

/-! ### Queues and flags -/

/-- From `d` to `e` no core changes but in its queues, and only cores of `C` change. -/
def Dev.QueuesOn (C : Nat → Prop) (d e : Dev) : Prop :=
  ∀ i, e.core i = { d.core i with q := (e.core i).q } ∧ (¬ C i → e.core i = d.core i)

theorem Dev.QueuesOn.of_cores {C : Nat → Prop} {d e : Dev} (h : e.cores = d.cores) : d.QueuesOn C e := by
  have (i : Nat) : e.core i = d.core i := by unfold Dev.core; rw [h]
  exact fun i => ⟨by rw [this i], fun _ => this i⟩

theorem Dev.QueuesOn.trans {C : Nat → Prop} {d e f : Dev} (h1 : d.QueuesOn C e) (h2 : e.QueuesOn C f) :
    d.QueuesOn C f := by
  intro i
  obtain ⟨a1, b1⟩ := h1 i
  obtain ⟨a2, b2⟩ := h2 i
  exact ⟨by rw [a2, a1], fun hi => (b2 hi).trans (b1 hi)⟩

theorem Dev.QueuesOn.mono {C D : Nat → Prop} {d e : Dev} (h : d.QueuesOn C e) (hCD : ∀ i, C i → D i) : d.QueuesOn D e :=
  fun i => ⟨(h i).1, fun hi => (h i).2 (fun hc => hi (hCD i hc))⟩

theorem Dev.setQueue_on (d : Dev) (t : Thread) (q : Fin 4) (x : Queue) :
    d.QueuesOn (· = t.coreSlot.1) (d.setQueue t q x) := by
  intro i
  have h := Dev.core_setCore d t.coreSlot.1 i
    { d.core t.coreSlot.1 with q := (d.core t.coreSlot.1).q.set q.val (some x) }
  change (d.setQueue t q x).core i = _ at h
  by_cases hi : i = t.coreSlot.1
  · rw [h, if_pos hi, hi]
    exact ⟨rfl, fun hn => absurd rfl hn⟩
  · rw [h, if_neg hi]
    exact ⟨rfl, fun _ => rfl⟩

/-- The pops of a head change the queues of its core and nothing else. -/
theorem readXs_on (t : Thread) : ∀ (l : List Reg) (d d' : Dev) (vs : List Word), d.readXs t l = some (d', vs) →
    d.QueuesOn (· = t.coreSlot.1) d'
  | [], d, d', vs, h => by cases h; exact .of_cores rfl
  | r :: l, d, d', vs, h => by
    unfold Dev.readXs at h
    split at h
    · split at h
      · split at h
        · split at h
          · next h' => cases h; exact (d.setQueue_on t _ _).trans (readXs_on t l _ _ _ h')
          · cases h
        · cases h
      · cases h
    · split at h
      · next h' => cases h; exact readXs_on t l _ _ _ h'
      · cases h

/-- What the module that a head's body starts from has changed of its cores. -/
theorem Issues.queues {s : State} {priv lanes : Bool} {g : Guard} {u : Uses} {pre : Thread → Option Nat} {i : In}
    (h : Issues s priv lanes g u pre i) : s.dev.QueuesOn (· = i.core) i.dev := by
  obtain ⟨d, hread, hdev, -⟩ := h.sources
  refine (readXs_on i.t _ _ _ _ hread).trans (.of_cores ?_)
  rw [hdev]
  unfold Dev.advance Dev.updThr
  simp only
  split
  · rfl
  · split <;> rfl

/-- A result goes to the thread's register, or to a queue of its core. -/
theorem putX_cases (d : Dev) (k : Nat) (r : Reg) (v : Word) {t : Thread} (h : d.thr k = some t) :
    (∃ q x, d.putX k r v = d.setQueue t q x) ∨ d.putX k r v = d ∨
      d.putX k r v = d.setThr k { t with regs := t.regs.wx r v } := by
  unfold Dev.putX
  simp only [h]
  split
  · split
    · exact .inl ⟨_, _, rfl⟩
    · exact .inr (.inl rfl)
  · exact .inr (.inr rfl)

/-- What is left of the thread's registers after a result. -/
def Regs.sameBut (r : Reg) (g h : Regs) : Prop := (∀ q, q ≠ r → h.rx q = g.rx q) ∧ h.v = g.v ∧ h.k = g.k

/-- A result changes, of the units, threads and cores; of these, one register of the thread and queues of its core. -/
theorem putX_frame (d : Dev) (k : Nat) (r : Reg) (v : Word) {t : Thread} (h : d.thr k = some t) :
    d.putX k r v = { d with threads := (d.putX k r v).threads, cores := (d.putX k r v).cores } ∧
    d.QueuesOn (· = t.coreSlot.1) (d.putX k r v) ∧ (∀ j, j ≠ k → (d.putX k r v).thr j = d.thr j) ∧
    ∃ z, (d.putX k r v).thr k = some z ∧ z = { t with regs := z.regs } ∧ t.regs.sameBut r z.regs := by
  rcases putX_cases d k r v h with ⟨q, x, e⟩ | e | e <;> rw [e]
  · exact ⟨rfl, d.setQueue_on t q x, fun j _ => rfl, t, h, rfl, fun _ _ => rfl, rfl, rfl⟩
  · exact ⟨rfl, .of_cores rfl, fun j _ => rfl, t, h, rfl, fun _ _ => rfl, rfl, rfl⟩
  · exact ⟨rfl, .of_cores rfl, fun j hj => by rw [Dev.thr_setThr, if_neg hj], _,
      by rw [Dev.thr_setThr, if_pos rfl], rfl, fun q hq => Regs.rx_wx_ne _ _ hq, Regs.wx_v .., Regs.wx_k ..⟩

/-- A change of a thread's registers changes nothing else. -/
theorem regs_frame (d : Dev) (k : Nat) (f : Regs → Regs) {t : Thread} (h : d.thr k = some t) :
    d.regs k f = d.setThr k { t with regs := f t.regs } := by
  unfold Dev.regs Dev.updThr
  rw [h]

/-- Flags that are raised are set in the thread and in its cluster, and none clears (R183). -/
theorem raiseFlags_frame (d : Dev) (k c : Nat) (fl : Flags) {t : Thread} (h : d.thr k = some t) :
    d.raiseFlags k c fl
      = { d with threads := (d.raiseFlags k c fl).threads, clusters := (d.raiseFlags k c fl).clusters } ∧
    (∀ j, j ≠ k → (d.raiseFlags k c fl).thr j = d.thr j) ∧
    (d.raiseFlags k c fl).thr k = some { t with fflags := t.fflags ||| fl } ∧
    ∀ j, (d.raiseFlags k c fl).clus j = { d.clus j with cflags := ((d.raiseFlags k c fl).clus j).cflags } ∧
      (d.clus j).cflags &&& ((d.raiseFlags k c fl).clus j).cflags = (d.clus j).cflags := by
  refine ⟨?_, fun j hj => by rw [Dev.thr_raiseFlags, if_neg hj], by rw [Dev.thr_raiseFlags, if_pos rfl, h]; rfl, ?_⟩
  · unfold Dev.raiseFlags Dev.updThr
    rw [h]
    split <;> rfl
  · intro j
    by_cases h0 : fl = 0
    · rw [Dev.raiseFlags, if_pos h0]
      exact ⟨rfl, BitVec.and_self⟩
    · have hc : (d.raiseFlags k c fl).clus j = if j = coreClus c then
          { d.clus (coreClus c) with cflags := (d.clus (coreClus c)).cflags ||| fl } else d.clus j := by
        rw [Dev.raiseFlags, if_neg h0, Dev.clus_setClus, Dev.updThr, h]
        rfl
      rw [hc]
      split
      · next hj => subst hj; exact ⟨rfl, by ext i; simp +contextual⟩
      · exact ⟨rfl, BitVec.and_self⟩

/-! ### The frame of a head -/

/-- What a head's body may change for the head to leave the rest as it was: its thread, the queues of the thread's
core, and the flags of the clusters. -/
structure In.changes (i : In) (w : Thread) (e : Dev) : Prop where
  units : e = { i.dev with threads := e.threads, cores := e.cores, clusters := e.clusters }
  others : ∀ j, j ≠ i.tid → e.thr j = i.dev.thr j
  queues : i.dev.QueuesOn (· = w.coreSlot.1) e
  clusters : ∀ j, e.clus j = { i.dev.clus j with cflags := (e.clus j).cflags }

/-- The thread of a head, and the same with the pc that the body starts from. -/
theorem Issues.thread_pc {s : State} {priv lanes : Bool} {g : Guard} {u : Uses} {pre : Thread → Option Nat} {i : In}
    (h : Issues s priv lanes g u pre i) :
    ∃ y w, s.dev.thr i.tid = some y ∧ i.dev.thr i.tid = some w ∧ w = { y with pc := w.pc } := by
  obtain ⟨-, hthr, y, hy⟩ := h.frame
  have hi := hthr i.tid
  rw [hy] at hi
  split at hi
  · exact ⟨y, _, hy, hi, rfl⟩
  · exact ⟨y, y, hy, hi, rfl⟩

/-- A body that changes no more than it may leaves the rest of the machine (R22). -/
theorem Issues.keeps {s : State} {priv lanes : Bool} {g : Guard} {u : Uses} {pre : Thread → Option Nat} {i : In}
    (h : Issues s priv lanes g u pre i) {y w : Thread} {e : Dev} (hy : s.dev.thr i.tid = some y)
    (hw : w = { y with pc := w.pc }) (he : i.changes w e) : s.keeps (s.withDev e) i.tid i.core := by
  obtain ⟨hdev, hthr, -⟩ := h.frame
  have hplace : w.coreSlot = y.coreSlot := by rw [hw]; rfl
  have hq : s.dev.QueuesOn (fun j => j = i.core ∨ j = y.coreSlot.1) e :=
    (h.queues.mono fun _ => .inl).trans (he.queues.mono fun j hj => .inr (hplace ▸ hj))
  refine ⟨rfl, rfl, fun a => rfl, fun j hj => ?_, ?_, fun j => (hq j).1, fun j x hx h1 h2 => (hq j).2 ?_, fun j => ?_⟩
  · exact (he.others j hj).trans ((hthr j).trans (if_neg fun hc => hj hc.1))
  · change e = _
    rw [he.units, hdev]
    rfl
  · cases hy.symm.trans hx
    simp [h1, h2]
  · have := he.clusters j
    rw [hdev] at this
    exact this

/-- The clusters that a body starts from are those before the head. -/
theorem Issues.clus {s : State} {priv lanes : Bool} {g : Guard} {u : Uses} {pre : Thread → Option Nat} {i : In}
    (h : Issues s priv lanes g u pre i) (c : Nat) : i.dev.clus c = s.dev.clus c := by
  rw [h.frame.1]
  rfl

/-- A scalar head's frame. -/
theorem scalar_frame {x : Instr} {g : Guard} {u : Uses} {r : Reg} {f : In → Word} (hx : ScalarForm x g u r f) {s : State}
    {j : In} (h : IssuesS s false g u j) : ∃ t y z, exec x s = .next t ∧ s.keeps t j.tid j.core ∧
      s.dev.thr j.tid = some y ∧ t.dev.thr j.tid = some z ∧ z = { y with regs := z.regs, pc := z.pc } ∧
      (∀ c, (t.dev.clus c).cflags = (s.dev.clus c).cflags) ∧ y.regs.sameBut r z.regs := by
  obtain ⟨y, w, hy, hw, hwy⟩ := h.thread_pc
  obtain ⟨hu, hq, ho, z, hz, hzw, hr⟩ := putX_frame j.dev j.tid r (f j) hw
  have hclusters : (j.dev.putX j.tid r (f j)).clusters = j.dev.clusters := by rw [hu]
  have hc (c : Nat) : (j.dev.putX j.tid r (f j)).clus c = j.dev.clus c := by unfold Dev.clus; rw [hclusters]
  have changes : j.changes w (j.dev.putX j.tid r (f j)) :=
    ⟨by rw [hclusters]; exact hu, ho, hq, fun c => by rw [hc]⟩
  refine ⟨_, y, z, (exec_scalar hx s).trans (result_ok h), h.keeps hy hwy changes, hy, hz, ?_, fun c => ?_, ?_⟩
  · rw [hzw, hwy]
  · exact congrArg Cluster.cflags ((hc c).trans (h.clus c))
  · rw [hwy] at hr
    exact hr

/-- A predicate head's frame. -/
theorem pred_frame {x : Instr} {g : Guard} {u : Uses} {f : In → Regs → Regs} (hx : PredForm x g u f) {s : State} {j : In}
    (h : IssuesS s false g u j) : ∃ t y z, exec x s = .next t ∧ s.keeps t j.tid j.core ∧ s.dev.thr j.tid = some y ∧
      t.dev.thr j.tid = some z ∧ z = { y with regs := z.regs, pc := z.pc } ∧
      (∀ c, (t.dev.clus c).cflags = (s.dev.clus c).cflags) ∧ z.regs = f j y.regs := by
  obtain ⟨y, w, hy, hw, hwy⟩ := h.thread_pc
  have hregs := regs_frame j.dev j.tid (f j) hw
  have changes : j.changes w (j.dev.regs j.tid (f j)) := by
    rw [hregs]
    exact ⟨rfl, fun i hi => by rw [Dev.thr_setThr, if_neg hi], .of_cores rfl, fun _ => rfl⟩
  refine ⟨_, y, { w with regs := f j w.regs }, (exec_pred hx s).trans (issueS_ok h rfl), h.keeps hy hwy changes, hy, ?_,
    ?_, fun c => ?_, ?_⟩
  · change (j.dev.regs j.tid (f j)).thr j.tid = _
    rw [hregs, Dev.thr_setThr, if_pos rfl]
  · rw [hwy]
  · change ((j.dev.regs j.tid (f j)).clus c).cflags = _
    rw [hregs, ← h.clus c]
    rfl
  · rw [hwy]

/-- A predicate head writes no register but the predicates it names. -/
theorem PredForm.writes {x : Instr} {g : Guard} {u : Uses} {f : In → Regs → Regs} (h : PredForm x g u f) (i : In)
    (a : Regs) : (∀ q, q ∉ u.kd → (f i a).rk q = a.rk q) ∧ (f i a).v = a.v ∧ (f i a).x = a.x := by
  cases h with
  | cmp o | cmpi o =>
    refine ⟨fun q hq => ?_, rfl, rfl⟩
    simp only [List.mem_cons, List.not_mem_nil, or_false, not_or] at hq
    exact (Regs.rk_wk_ne _ _ hq.2).trans (Regs.rk_wk_ne _ _ hq.1)
  | _ => exact ⟨fun q hq => Regs.rk_wk_ne _ _ (by simpa using hq), rfl, rfl⟩

/-- A floating-point head's frame. -/
theorem float_frame {x : Instr} {g : Guard} {u : Uses} {r : Reg} {f : In → Word × Flags} (hx : FloatForm x g u r f)
    {s : State} {j : In} (h : IssuesS s false g u j) : ∃ t y z, exec x s = .next t ∧ s.keeps t j.tid j.core ∧
      s.dev.thr j.tid = some y ∧ t.dev.thr j.tid = some z ∧
      z = { y with regs := z.regs, pc := z.pc, fflags := z.fflags } ∧ y.fflags &&& z.fflags = y.fflags ∧
      (∀ c, (s.dev.clus c).cflags &&& (t.dev.clus c).cflags = (s.dev.clus c).cflags) ∧
      y.regs.sameBut r z.regs := by
  obtain ⟨y, w, hy, hw, hwy⟩ := h.thread_pc
  obtain ⟨hu, hq, ho, z, hz, hzw, hr⟩ := putX_frame j.dev j.tid r (f j).1 hw
  obtain ⟨hu', ho', hz', hf'⟩ := raiseFlags_frame (j.dev.putX j.tid r (f j).1) j.tid j.core (f j).2 hz
  have hc (c : Nat) : (j.dev.putX j.tid r (f j).1).clus c = j.dev.clus c := by rw [hu]; rfl
  have changes : j.changes w ((j.dev.putX j.tid r (f j).1).raiseFlags j.tid j.core (f j).2) := by
    refine ⟨?_, fun i hi => (ho' i hi).trans (ho i hi), hq.trans (.of_cores (by rw [hu'])), fun c => ?_⟩
    · rw [hu', hu]
    · rw [(hf' c).1, hc]
  refine ⟨_, y, _, (exec_float hx s).trans (issueS_ok h rfl), h.keeps hy hwy changes, hy, hz', ?_, ?_, fun c => ?_, ?_⟩
  · rw [hzw, hwy]
  · rw [hzw, hwy]
    ext i
    simp +contextual
  · rw [← h.clus c, ← hc c]
    exact (hf' c).2
  · rw [hwy] at hr
    exact hr

/-- Settles O60: the frames of the three forms, one by one. -/
theorem headFrames : Obligations.HeadFrames := by
  unfold Obligations.HeadFrames
  refine ⟨fun x g u r f hx s j h => ?_, fun x g u f hx s j h => ?_, fun x g u r f hx s j h => ?_⟩
  · obtain ⟨t, y, z, hs, hk, hy, hz, hm, hc, hr, hv, hp⟩ := scalar_frame hx h
    exact ⟨t, y, z, hs, hk, hy, hz, hm, hc, hr, z.regs.rx_zero, hv, hp⟩
  · obtain ⟨t, y, z, hs, hk, hy, hz, hm, hc, hf⟩ := pred_frame hx h
    obtain ⟨hr, hv, hp⟩ := hx.writes j y.regs
    rw [← hf] at hr hv hp
    exact ⟨t, y, z, hs, hk, hy, hz, hm, hc, hr, hv, hp⟩
  · obtain ⟨t, y, z, hs, hk, hy, hz, hm, hf, hc, hr, hv, hp⟩ := float_frame hx h
    exact ⟨t, y, z, hs, hk, hy, hz, hm, hf, hc, hr, z.regs.rx_zero, hv, hp⟩

end Sys2Proof.Machine
end

section
/-!
PROOFS. Loads and stores at issue.
-/
namespace Sys2Proof.Machine
open Sys2Proof

/-! ### What a load or store head runs once its addresses have passed R78 -/

/-- A load or a store of a space, in a window that begins at `base`. -/
def In.perform (i : In) (sp : Space) (base : Nat) : Access → Out
  | .load sc acq exact major minor tgt els =>
    if sp = .glob then i.load sc acq exact major minor tgt els else i.nearLoad base tgt els
  | .store sc rel exact major minor bs split =>
    if sp = .glob then i.store sc rel exact major minor bs split else i.nearStore base bs

/-- Scale bytes lie apart only for a format that has some (Table 14-3). -/
theorem scales_apart {α : Type} (ef : Fmt) (b : Reg) (l : List α) :
    (if scaleAt ef b then if ef.hasScales then l else [] else []) = if scaleAt ef b then l else [] := by
  unfold scaleAt
  cases ef.hasScales <;> rfl

/-- A load or store head whose addresses pass R78 performs the access of its form. -/
theorem exec_access {x : Instr} {lanes : Bool} {g : Guard} {u : Uses} {pre : Thread → Option Nat} {sp : Space}
    {chk : In → List (Word × Nat × Nat)} {acc : In → Access} (h : AccessForm x lanes g u pre sp chk acc) :
    ∃ f, (∀ s, exec x s = run (issue false lanes g u pre f) s) ∧
      ∀ i : In, addrCheck sp (i.base.window i.tid i.t sp).2 (chk i) = none →
        f i = i.perform sp (i.base.window i.tid i.t sp).1 (acc i) := by
  cases h with
  | ld o =>
    refine ⟨_, fun _ => rfl, fun i hi => ?_⟩
    simp only [In.ld, hi, scalarLoad, In.perform]
    split <;> rfl
  | ldaq o =>
    refine ⟨_, fun _ => rfl, fun i hi => ?_⟩
    simp only [In.ld, hi, scalarLoad, In.perform]
    rfl
  | st o | strl o =>
    refine ⟨_, fun _ => rfl, fun i hi => ?_⟩
    simp only [In.st, hi, In.perform]
  | vld o =>
    refine ⟨_, fun _ => rfl, fun i hi => ?_⟩
    unfold imageAll at hi
    simp only [In.vld, scales_apart, hi, In.perform]
    rfl
  | vlds o | vgth o =>
    refine ⟨_, fun _ => rfl, fun i hi => ?_⟩
    unfold spreadAll at hi
    simp only [In.vldAt, hi, spreadLoad, In.perform]
  | vst o =>
    refine ⟨_, fun _ => rfl, fun i hi => ?_⟩
    unfold imageAll at hi
    simp only [In.vst, hi, In.perform]
    rfl
  | vsct o =>
    refine ⟨_, fun _ => rfl, fun i hi => ?_⟩
    unfold spreadAll at hi
    simp only [hi, In.perform]

/-- Global addresses have no window. -/
theorem Dev.window_glob (d : Dev) (tid : Nat) (t : Thread) : d.window tid t .glob = (0, 0) := by
  unfold Dev.window
  split <;> rfl

/-- A load or store head whose access goes on completes with what the access does. -/
theorem access_ok {x : Instr} {lanes : Bool} {g : Guard} {u : Uses} {pre : Thread → Option Nat} {sp : Space}
    {chk : In → List (Word × Nat × Nat)} {acc : In → Access} (h : AccessForm x lanes g u pre sp chk acc) {s : State}
    {j : In} (hj : Issues s false lanes g u pre j)
    (hc : addrCheck sp (j.base.window j.tid j.t sp).2 (chk j) = none) {d : Dev} {w : List (Nat × Byte)}
    (hp : j.perform sp (j.base.window j.tid j.t sp).1 (acc j) = .ok d w) :
    exec x s = .next { s with dev := d, mem := s.mem.writeAll w } := by
  obtain ⟨f, hf, hb⟩ := exec_access h
  rw [hf s]
  exact issue_ok hj ((hb j hc).trans hp)

/-- The same for a global access, which stores nothing at issue. -/
theorem access_glob_ok {x : Instr} {lanes : Bool} {g : Guard} {u : Uses} {pre : Thread → Option Nat}
    {chk : In → List (Word × Nat × Nat)} {acc : In → Access} (h : AccessForm x lanes g u pre .glob chk acc) {s : State}
    {j : In} (hj : Issues s false lanes g u pre j) (hc : addrCheck .glob 0 (chk j) = none) {d : Dev}
    (hp : j.perform .glob 0 (acc j) = .ok d []) : exec x s = .next (s.withDev d) := by
  have hw := j.base.window_glob j.tid j.t
  exact access_ok h hj (by rw [hw]; exact hc) (by rw [hw]; exact hp)

/-- Settles O8: a global load by what the store buffer forwards, and a near load by the bytes it reads. -/
theorem loadsIssue : Obligations.LoadsIssue := by
  unfold Obligations.LoadsIssue
  refine ⟨fun x lanes g u pre chk acc hx s j sc acq exact major minor tgt els pcs hj hc ha hr => ?_,
    fun x lanes g u pre sp chk acc hx hsp s j sc acq exact major minor tgt els d hj hc ha ho => ?_⟩
  · have next {e : Dev} (he : j.load sc acq exact major minor tgt els = .ok e []) : exec x s = .next (s.withDev e) :=
      access_glob_ok hx hj hc (by rw [ha]; exact he)
    obtain ⟨hnone, hall⟩ := load_glob (sc := sc) (acq := acq) (exact := exact) (major := major) (minor := minor)
      (tgt := tgt) hr
    exact ⟨fun hf => ⟨fun h => next ((hnone hf).1 h), fun h hm => next ((hnone hf).2 h hm)⟩,
      fun f hf => next (hall f hf)⟩
  · intro base at' hbad hnear
    have hload : j.nearLoad base tgt els = .ok (d.deliver j.tid tgt.pv tgt.fmt (tgt.init ++ readEls j.mem.read at')) [] :=
      near_load ho (fun e he b hb => hbad _ (List.mem_map_of_mem he) b hb) hnear
    rw [hj.mem] at hload
    exact access_ok hx hj hc (by rw [ha]; exact (if_neg hsp).trans hload)

/-! ### Stores -/

/-- A global store with no active element is over (R34). -/
theorem store_glob_nothing {i : In} {sc rel exact major minor bs split} (ho : i.ordered false = true)
    (hp : i.parts .write VB.va VB.at bs [] = .ok []) (hc : i.canPost 0) :
    i.store sc rel exact major minor bs split = .ok i.dev [] := by
  have hp : i.parts .write VB.va (fun (b : VB) p => (⟨p, b.mask, b.val⟩ : MByte)) bs [] = .ok [] := hp
  unfold In.store
  simp only [ho, hp, Bool.not_true, Bool.false_eq_true, if_false]
  refine (if_neg ?_).trans (if_pos rfl)
  rintro (h | h)
  · exact absurd ((congrArg not hc.1).symm.trans h) (by decide)
  · exact absurd ((congrArg not hc.2).symm.trans h) (by decide)

/-- A near store whose port and banks are free leaves its bytes, and no mark on a word that it overwrites whole. -/
theorem near_store_marks {i : In} {base bs d} (ho : i.ordered false = true) (hr : i.room false 1 = true)
    (hs : i.base.storesBelow i.tid i.core i.t.fenceRel = false)
    (hd : i.near base (bs.map (fun b => base + b.va.toNat)) = some d) :
    i.nearStore base bs = .ok { d with badWords := d.badWords.filter (fun w => !(List.range 8).all (fun k =>
      bs.any (fun b => base + b.va.toNat == w + k && b.mask == 0xFF))) } (nearBytes i.mem base bs) := by
  unfold In.nearStore
  simp only [ho, hr, hs, hd, Bool.not_true, Bool.false_eq_true, or_self, if_false]
  rfl

/-- The bytes of a near store stand at its places. -/
theorem nearBytes_places (m : Memory) (base : Nat) (bs : List VB) :
    (nearBytes m base bs).map Prod.fst = bs.map (fun b => base + b.va.toNat) := by
  have fold : ∀ (bs : List VB) (w : List (Nat × Byte)), (bs.foldl (fun w b =>
      let a := base + b.va.toNat
      let old := (w.reverse.find? (fun p => p.1 = a)).map Prod.snd
      w ++ [(a, ((old.getD (m.read a)) &&& ~~~b.mask) ||| (b.val &&& b.mask))]) w).map Prod.fst
      = w.map Prod.fst ++ bs.map (fun b => base + b.va.toNat) := by
    intro bs
    induction bs with
    | nil => intro w; simp
    | cons b bs ih => intro w; simp [ih]
  exact fold bs []

/-- Settles O9: a global store by its pieces, and a near store by the places its bytes have. -/
theorem storesIssue : Obligations.StoresIssue := by
  unfold Obligations.StoresIssue
  refine ⟨fun x lanes g u pre chk acc hx s j sc rel exact major minor bs split pcs hj hc ha ho hp hroom => ?_,
    fun x lanes g u pre sp chk acc hx hsp s j sc rel exact major minor bs split d hj hc ha ho hr hs => ?_⟩
  · have next {e : Dev} (he : j.store sc rel exact major minor bs split = .ok e []) : exec x s = .next (s.withDev e) :=
      access_glob_ok hx hj hc (by rw [ha]; exact he)
    refine ⟨?_, fun h => next (store_glob ho hp h hroom)⟩
    rintro rfl
    exact next (store_glob_nothing ho hp hroom)
  · intro base hnear
    have hstore := near_store_marks ho hr hs hnear
    refine ⟨_, access_ok hx hj hc (by rw [ha]; exact (if_neg hsp).trans hstore), by rw [hj.mem], rfl, fun hinv a hout => ?_⟩
    refine read_writeAll_other a _ _ hinv fun p hmem => ?_
    have hplace : p.1 ∈ bs.map (fun b => base + b.va.toNat) :=
      nearBytes_places j.mem base bs ▸ List.mem_map_of_mem hmem
    obtain ⟨b, hb, he⟩ := List.mem_map.mp hplace
    exact he ▸ hout b hb

end Sys2Proof.Machine
end

section
/-!
PROOFS. What arrives at a slot: replies, acknowledgements, refusals and reports.
-/
namespace Sys2Proof.Machine
open Sys2Proof

/-! ### What arrives for an operation -/

/-- The core that flags of a slot's operation count at (R183). -/
def Dev.flagCore (d : Dev) (tid : Nat) (t : Thread) : Nat :=
  if t.place = .saved then d.crewCore t.blk tid else t.coreSlot.1

/-- Raising no flag changes nothing. -/
@[simp] theorem Dev.raiseFlags_zero (d : Dev) (k c : Nat) : d.raiseFlags k c 0 = d := if_pos rfl

section
variable {d : Dev} {src : From} {o : Outst} {vals : List (Dest × Nat)} {kp : Option (KP × Bool)} {fl : Flags}

/-- The last part of a value that nothing refused is delivered, and the operation is over (R25). -/
theorem arrive_last (drip : Nat) (mem : Memory) {t : Thread} (ho : d.outst.find? (fun o => o.op = src.op) = some o)
    (ht : d.thr o.tid = some t) (herr : o.err = none) (hleft : o.left ≤ 1) :
    d.arrive drip mem src vals kp fl none
      = ((d.raiseFlags o.tid (d.flagCore o.tid t) fl).delivered o (o.vals ++ vals) kp).closeOp drip mem o.op := by
  unfold Dev.arrive
  simp only [ho, ht, herr]
  rw [if_neg (by omega)]
  cases kp <;> rfl

/-- An earlier part is kept (R278). -/
theorem arrive_more (drip : Nat) (mem : Memory) {t : Thread} (ho : d.outst.find? (fun o => o.op = src.op) = some o)
    (ht : d.thr o.tid = some t) (herr : o.err = none) (hleft : 1 < o.left) :
    d.arrive drip mem src vals kp fl none
      = (d.raiseFlags o.tid (d.flagCore o.tid t) fl).gathered o (o.vals ++ vals) none := by
  unfold Dev.arrive
  simp only [ho, ht, herr]
  rw [if_pos hleft]
  rfl

/-- The same for a value without flags, whether or not its thread is there. -/
theorem arrive_word (drip : Nat) (mem : Memory) (ho : d.outst.find? (fun o => o.op = src.op) = some o)
    (herr : o.err = none) (hleft : o.left ≤ 1) : d.arrive drip mem src vals none 0 none
      = (d.delivered o (o.vals ++ vals) none).closeOp drip mem o.op := by
  unfold Dev.arrive
  simp only [ho, herr, Dev.raiseFlags_zero]
  rw [if_neg (by omega)]
  rfl

/-- A refusal that comes last, and before which no other came, leaves its trap waiting (R84). -/
theorem arrive_refusal (drip : Nat) (mem : Memory) {rank c : Nat} {ea : Word}
    (ho : d.outst.find? (fun o => o.op = src.op) = some o) (herr : o.err = none) (hleft : o.left ≤ 1) :
    d.arrive drip mem src [] none 0 (some (rank, c, ea))
      = (d.updThr o.tid (fun t => { t with traps := t.traps ++ [(⟨c, ea⟩ : PendTrap)] })).closeOp drip mem o.op := by
  unfold Dev.arrive
  simp only [ho, herr, Dev.raiseFlags_zero]
  rw [if_neg (by omega)]
end

/-- A change of a thread leaves the operations that are out. -/
@[simp] theorem Dev.updThr_outst (d : Dev) (k : Nat) (f : Thread → Thread) : (d.updThr k f).outst = d.outst := by
  unfold Dev.updThr
  split <;> rfl

/-! ### The messages that bring it -/

section
variable {s : State} {m : Nat} {src : From}

/-- Data that come to a slot that no stop holds arrive there. -/
theorem data_arrives {vals : List (Dest × Nat)} {kp : Option (KP × Bool)} {fl : BitVec 5} {ln : Option Nat}
    (h : s.carries m (.data src vals kp fl ln)) (hs : s.dev.srcStopped src = false) :
    Yields (.loadDataArrival m) s ((s.dev.drop m).arrive s.drip s.mem src vals kp fl none) := by
  have h : s.dev.msg m = some (.data src vals kp fl ln) := h
  change execLoadDataArrival m s = _
  refine event_ok ?_
  simp only [h, hs, Bool.false_eq_true, if_false]

/-- Data of a hit arrive once they are due (R260). -/
theorem hit_arrives {vals : List (Dest × Nat)} {due : Nat} (h : s.carries m (.hit src vals due)) (hd : due ≤ s.drip)
    (hs : s.dev.srcStopped src = false) :
    Yields (.loadDataArrival m) s ((s.dev.drop m).arrive s.drip s.mem src vals none 0 none) := by
  have h : s.dev.msg m = some (.hit src vals due) := h
  change execLoadDataArrival m s = _
  refine event_ok ?_
  simp only [h, hs, Bool.false_eq_true, false_or, Nat.not_lt.mpr hd, if_false]

/-- A reply word arrives; ALLOC's writes LSTAT, and BWAIT's ends its wait (R96, R128, R145). -/
theorem reply_arrives {v : Word} {bw : Bool} {ls : Option Nat} (h : s.carries m (.reply src v bw ls))
    (hs : s.dev.srcStopped src = false) : Yields (.replyArrival m) s
      (((s.dev.drop m).updThr src.tid (Thread.answered bw ls)).arrive s.drip s.mem src [(.x src.d, v.toNat)] none 0
        none) := by
  have h : s.dev.msg m = some (.reply src v bw ls) := h
  change execReplyArrival m s = _
  refine event_ok ?_
  simp only [h, hs, Bool.false_eq_true, if_false]
  cases ls <;> rfl

/-- A refusal of what the thread waits for ends its wait, and arrives, unless it is an error that is consumed
(R84, R355). -/
theorem error_arrives {c rank : Nat} {ea : Word} {ln : Option Nat} (h : s.carries m (.error src c ea rank ln))
    (hs : s.dev.srcStopped src = false) (h1 : c ≠ Cause.sramUncorrectable) (h2 : c ≠ Cause.dramUncorrectable) :
    Yields (.errorReply m) s (((s.dev.drop m).updThr src.tid (Thread.answered true none)).arrive s.drip s.mem src []
      none 0 (some (rank, c, ea))) := by
  have h : s.dev.msg m = some (.error src c ea rank ln) := h
  have answered : Thread.answered true none = fun t => { t with
      wst := if t.wst = .bwait then .ready else t.wst } := by
    funext t
    simp [Thread.answered]
  change execErrorReply m s = _
  refine event_ok ?_
  simp only [h, hs, h1, h2, Bool.false_eq_true, or_self, if_false, answered]

/-- An acknowledgement ends a piece (R25). -/
theorem ack_arrives (h : s.carries m (.ack src)) (hs : s.dev.srcStopped src = false) :
    Yields (.acknowledgement m) s ((s.dev.drop m).pieceDone s.drip s.mem src.op) := by
  have h : s.dev.msg m = some (.ack src) := h
  change execAcknowledgement m s = _
  refine event_ok ?_
  simp only [h, hs, Bool.false_eq_true, if_false]

/-- A refused posted access enters the journal, and ends its piece (R120). -/
theorem refused_arrives {j : JEntry} (h : s.carries m (.refused src j)) (hs : s.dev.srcStopped src = false) :
    Yields (.refusalAcknowledgement m) s
      (((s.dev.drop m).journal s.drip src.tid j).pieceDone s.drip s.mem src.op) := by
  have h : s.dev.msg m = some (.refused src j) := h
  change execRefusalAcknowledgement m s = _
  refine event_ok ?_
  simp only [h, hs, Bool.false_eq_true, if_false]

/-- A report makes a trap wait, and ends what its thread waits in (R84). -/
theorem report_arrives {tid c : Nat} {v : Word} (h : s.carries m (.report tid c v))
    (hp : s.dev.threads.any (fun p => p.1 == tid && p.2.preempted) = false) :
    Yields (.report m) s ((s.dev.drop m).updThr tid (Thread.reported c v)) := by
  have h : s.dev.msg m = some (.report tid c v) := h
  change execReport m s = _
  refine event_ok ?_
  rw [h]
  refine (congrArg (Res.eff · []) (if_neg (by rw [hp]; decide))).trans ?_
  refine congrArg (fun f => Res.eff ((s.dev.drop m).updThr tid f) []) (funext fun t => ?_)
  unfold Thread.reported
  cases t.wst <;> rfl
end

/-- A refusal takes the lowest free entry of the slot's journal (R120). -/
theorem journal_entry {d : Dev} {drip tid i : Nat} {j : JEntry} {t : Thread} (ht : d.thr tid = some t)
    (hi : freeEntry drip 0 (d.core t.coreSlot.1).jrnl.toList = some i) : d.journal drip tid j
      = d.setCore t.coreSlot.1 { d.core t.coreSlot.1 with
        jrnl := (d.core t.coreSlot.1).jrnl.setIfInBounds i { j with slot := t.coreSlot.2, v := true, rpt := false } } := by
  simp only [Dev.journal, ht, hi]

/-- Where none is free it is counted as lost (R121). -/
theorem journal_lost {d : Dev} {drip tid : Nat} {j : JEntry} {t : Thread} (ht : d.thr tid = some t)
    (hi : freeEntry drip 0 (d.core t.coreSlot.1).jrnl.toList = none) : d.journal drip tid j
      = d.setThr tid { t with lost := min (t.lost + 1) 0xFFFF } := by
  simp only [Dev.journal, ht, hi]

/-- Settles O17: each message arrives, and the operation it is for decides what that comes to. -/
theorem repliesArrive : Obligations.RepliesArrive := by
  unfold Obligations.RepliesArrive
  refine ⟨fun s m src vals kp fl o t hm hs ho ht herr => ?_, fun s m src v bw ls o hm hs ho hleft herr => ?_,
    fun s m src c rank ea ln o hm hs h1 h2 ho hleft herr => ?_, fun s m src hm hs => ack_arrives hm hs,
    fun s m src j t hm hs ht => ?_, fun s m tid c v hm hp => report_arrives hm hp⟩
  · have arrives : Yields (.loadDataArrival m) s ((s.dev.drop m).arrive s.drip s.mem src vals kp fl none) := by
      rcases hm with ⟨ln, hm⟩ | ⟨⟨due, hd, hm⟩, rfl, rfl⟩
      · exact data_arrives hm hs
      · exact hit_arrives hm hd hs
    intro d
    refine ⟨fun hleft => ?_, fun hleft => ?_⟩
    · rw [arrive_last (d := s.dev.drop m) s.drip s.mem ho ht herr hleft] at arrives
      exact arrives
    · rw [arrive_more (d := s.dev.drop m) s.drip s.mem ho ht herr hleft] at arrives
      exact arrives
  · have arrives := reply_arrives hm hs
    rw [arrive_word s.drip s.mem (by simpa using ho) herr hleft] at arrives
    exact arrives
  · have arrives := error_arrives hm hs h1 h2
    rw [arrive_refusal s.drip s.mem (by simpa using ho) herr hleft] at arrives
    exact arrives
  · have arrives := refused_arrives hm hs
    refine ⟨fun i hi => ?_, fun hi => ?_⟩
    · rw [journal_entry (d := s.dev.drop m) ht hi] at arrives
      exact arrives
    · rw [journal_lost (d := s.dev.drop m) ht hi] at arrives
      exact arrives

end Sys2Proof.Machine
end

section
/-!
PROOFS. Wakes and stops of records, slots and dozes.
-/
namespace Sys2Proof.Machine
open Sys2Proof

/-! ### Wakes (R19, R324, R344, R345) -/

/-- A slot that WAKE.slot names and that is stopped leaves its stop. -/
theorem wakeSlot_stopped {d : Dev} {c k tid : Nat} {t : Thread} (hs : d.slotTid c k = some tid) (ht : d.thr tid = some t)
    (he : t.exited = false) (hst : t.stopped = true) :
    d.wakeSlot c k = some (d.setThr tid { t with stopped := false }) := by
  simp only [Dev.wakeSlot, hs, ht, he, hst, Bool.false_eq_true, if_false, if_true]

/-- One that is not stopped, and is halted or asleep, becomes ready. -/
theorem wakeSlot_resting {d : Dev} {c k tid : Nat} {t : Thread} (hs : d.slotTid c k = some tid) (ht : d.thr tid = some t)
    (he : t.exited = false) (hst : t.stopped = false) (hw : t.wst = .halted ∨ ∃ z, t.wst = .doze z) :
    d.wakeSlot c k = some (d.setThr tid { t with wst := .ready }) := by
  rcases hw with hw | ⟨z, hw⟩ <;>
    simp only [Dev.wakeSlot, hs, ht, he, hst, hw, Bool.false_eq_true, if_false]

/-- A slot that WAKE.stop names stops. -/
theorem stopSlot_runs {d : Dev} {c k tid : Nat} {t : Thread} (hs : d.slotTid c k = some tid) (ht : d.thr tid = some t)
    (he : t.exited = false) (hst : t.stopped = false) (hw : t.wst ≠ .halted) :
    d.stopSlot c k = some (d.setThr tid { t with stopped := true }) := by
  simp [Dev.stopSlot, hs, ht, he, hst, hw]

/-- The answer to a wake: a reply of 0, or the refusal of what names nothing that waits. -/
def Dev.wakeAnswer (d : Dev) (src : From) : Option Dev → Dev
  | some e => e.reply src 0
  | none => d.refuse src Cause.operandRange

section
variable {s : State} {d : Dev} {m : Nat} {src : From}

/-- A wake of a record wakes its requesters. -/
theorem wakeRec_yields {rid : Nat} (h : s.asks m src (.wakeRec rid) d) (hn : d.sentNow m = false) :
    Yields (.wakeMessage m) s (d.wakeAnswer src
      (if (d.wakeRecord s.drip rid none).2 then some (d.wakeRecord s.drip rid none).1 else none)) := by
  change execWakeMessage m s = _
  refine onReq_dev h ?_
  simp only [hn, Bool.false_eq_true, if_false]
  rfl

/-- A failing wake fails them with the record's cause. -/
theorem wakeFail_yields {rid : Nat} (h : s.asks m src (.wakeFail rid) d) (hn : d.sentNow m = false) {f : FaultRec}
    (hf : d.faults.find? (fun f => f.rid = rid) = some f) : Yields (.wakeMessage m) s (d.wakeAnswer src
      (if (d.wakeRecord s.drip rid (some f.cause)).2 then some (d.wakeRecord s.drip rid (some f.cause)).1
        else none)) := by
  change execWakeMessage m s = _
  refine onReq_dev h ?_
  simp only [hn, hf, Option.map_some, Bool.false_eq_true, if_false]
  rfl

/-- A wake of a slot that its router lets pass. -/
theorem wakeSlot_yields {c k : Nat} (h : s.asks m src (.wakeSlot c k) d) (hn : d.sentNow m = false)
    (hr : d.routes s.mem src c = true) : Yields (.wakeMessage m) s (d.wakeAnswer src (d.wakeSlot c k)) := by
  change execWakeMessage m s = _
  refine onReq_dev h ?_
  simp only [hn, hr, Bool.false_eq_true, if_false, if_true]
  cases d.wakeSlot c k <;> rfl

/-- A stop that its router lets pass. -/
theorem wakeStop_yields {c k : Nat} (h : s.asks m src (.wakeStop c k) d) (hn : d.sentNow m = false)
    (hr : d.routes s.mem src c = true) (hown : ∀ u, d.thr src.tid = some u → u.place ≠ .slot c k) :
    Yields (.wakeMessage m) s (d.wakeAnswer src (d.stopSlot c k)) := by
  change execWakeMessage m s = _
  refine onReq_dev h ?_
  simp only [hn, hr, Bool.false_eq_true, if_false, if_true]
  cases hu : d.thr src.tid with
  | none =>
    simp only [Bool.false_eq_true, if_false]
    rfl
  | some u =>
    simp only [beq_false_of_ne (hown u hu), Bool.false_eq_true, if_false]
    rfl

/-- A wake or stop that the router of its core drops (R324). -/
theorem wake_dropped {c k : Nat} (h : s.asks m src (.wakeSlot c k) d ∨ s.asks m src (.wakeStop c k) d)
    (hn : d.sentNow m = false) (hr : d.routes s.mem src c = false) :
    Yields (.wakeMessage m) s (d.dropRoute src c) := by
  change execWakeMessage m s = _
  rcases h with h | h <;> refine onReq_dev h ?_ <;> simp only [hn, hr, Bool.false_eq_true, if_false]

/-- A wake or stop of a slot without a thread is refused. -/
theorem wake_empty {c k : Nat} (h : s.asks m src (.wakeSlot c k) d ∨ s.asks m src (.wakeStop c k) d)
    (hn : d.sentNow m = false) (hr : d.routes s.mem src c = true) (hs : d.slotTid c k = none) :
    Yields (.wakeMessage m) s (d.refuse src Cause.operandRange) := by
  have slot : d.wakeSlot c k = none := by simp only [Dev.wakeSlot, hs]
  have stop : d.stopSlot c k = none := by simp only [Dev.stopSlot, hs]
  change execWakeMessage m s = _
  rcases h with h | h <;> refine onReq_dev h ?_ <;>
    simp only [hn, hr, slot, stop, ite_self, Bool.false_eq_true, if_false, if_true]
end

/-- A thread whose stamp has come is awake (R88). -/
theorem doze_ends {s : State} {tid : Nat} {t : Thread} {z : Word} (ht : s.dev.thr tid = some t) (hw : t.wst = .doze z)
    (hz : z.toNat ≤ s.drip) : Yields (.dozeExpiry tid) s (s.dev.setThr tid { t with wst := .ready }) := by
  change execDozeExpiry tid s = _
  refine event_ok ?_
  simp only [ht, hw, hz, if_true]

/-- Settles O31: wakes of records, wakes and stops of slots, what is refused or dropped, and the end of DOZE. -/
theorem wakes : Obligations.Wakes := by
  unfold Obligations.Wakes
  refine ⟨fun s d m rid src hn => ⟨fun h => ?_, fun h f hf hw => ?_⟩, fun s d m c k tid src t h hn hr hs ht he => ?_,
    fun s d m c k tid src t h hn hr hs ht he hst hw hown => ?_, fun s d m c k src h hn => ?_,
    fun s tid t z ht hw hz => doze_ends ht hw hz⟩
  · have yields := wakeRec_yields h hn
    exact ⟨fun hw => by rwa [hw] at yields, fun hw => by rwa [hw] at yields⟩
  · have yields := wakeFail_yields h hn hf
    rwa [hw] at yields
  · have yields := wakeSlot_yields h hn hr
    refine ⟨fun hst => ?_, fun hst hw => ?_⟩
    · rwa [wakeSlot_stopped hs ht he hst] at yields
    · rwa [wakeSlot_resting hs ht he hst hw] at yields
  · have yields := wakeStop_yields h hn hr hown
    rwa [stopSlot_runs hs ht he hst hw] at yields
  · exact ⟨wake_dropped h hn, wake_empty h hn⟩

end Sys2Proof.Machine
end

section
/-!
PROOFS. What containment, the returning rectangle, soft errors and blocked rings do.
-/
namespace Sys2Proof.Machine
open Sys2Proof

/-! ### Containment (R355, R356) -/

/-- The rectangle that is contained is fenced. -/
theorem contain_fences (d : Dev) (drip : Nat) (mem : Memory) (core cause addr : Nat) {c : Nat}
    (hc : c ∈ d.rectangle mem core) : (d.contain drip mem core cause addr).1.fencedCore c = true := by
  unfold Dev.fencedCore Dev.contain
  rw [List.any_append, Bool.or_eq_true]
  right
  simpa using hc

/-- Containment signals the host. -/
theorem contain_signals (d : Dev) (drip : Nat) (mem : Memory) (core cause addr : Nat) :
    1024 ∈ (d.contain drip mem core cause addr).1.vectors :=
  List.mem_cons_self

/-- An error that a core has consumed is contained. -/
theorem consumed_contained {s : State} {core cause addr : Nat}
    (hm : s.dev.msgs.any (fun m => m.kind = .consume core cause addr) = true) (hf : s.dev.fencedCore core = false) :
    Writes (.containment core cause addr) s (s.dev.contain s.drip s.mem core cause addr).1
      (s.dev.contain s.drip s.mem core cause addr).2 := by
  obtain ⟨m, hmem, hk⟩ := List.any_eq_true.mp hm
  change execContainment core cause addr s = _
  refine run_eff ?_
  refine if_pos ?_
  rw [hf, Bool.not_false, Bool.and_true]
  refine List.any_eq_true.mpr ⟨m, hmem, ?_⟩
  simp [of_decide_eq_true hk]

/-- A lost point fires again in its launch, where the launch stands. -/
def Dev.refire (drip : Nat) (d : Dev) (p : Nat × QPoint) : Dev :=
  match d.lch p.1 with
  | some l => if l.failed.isSome then d
    else d.setLch p.1 { l with queue := l.queue ++ [{ p.2 with drip := drip, ready := drip }] }
  | none => d

/-- Points that fire again fence nothing and free nothing. -/
theorem refire_fenced (drip : Nat) (l : List (Nat × QPoint)) (d : Dev) :
    (l.foldl (Dev.refire drip) d).fenced = d.fenced := by
  induction l generalizing d with
  | nil => rfl
  | cons p l ih =>
    rw [List.foldl_cons, ih, Dev.refire]
    cases d.lch p.1 with
    | none => rfl
    | some x =>
      dsimp only
      split <;> rfl

/-- A rectangle whose 65,536 drips are over returns. -/
theorem rectangle_returns {s : State} {n : Nat} {f : Fence} (hf : s.dev.fenced[n]? = some f)
    (hd : f.since + 65536 ≤ s.drip) : Yields (.rectangleReturn n) s
      (f.refire.foldl (Dev.refire s.drip) { s.dev with fenced := s.dev.fenced.eraseIdx n }) := by
  change execRectangleReturn n s = _
  refine event_ok ?_
  simp only [hf, if_neg (Nat.not_lt.mpr hd)]
  rfl

/-! ### Soft errors (R264, R357) -/

section
variable {s : State} {o : SoftErrorOp}

/-- A DRAM sector goes bad. -/
theorem softError_sector (hp : o.place = 0) (ha : keyAp o.addr ≤ 0xC0) (hd : isDram (keyPhys o.addr) = true) :
    Yields (.softError o) s { s.dev with
      badSectors := s.dev.badSectors ++ List.replicate (if o.multi then 2 else 1) (sectorOf o.addr) } := by
  change execSoftError o s = _
  exact event_ok (congrArg (Res.eff · []) ((if_pos hp).trans (if_pos ⟨ha, hd⟩)))

/-- Off DRAM, an error that can be corrected is. -/
theorem softError_corrected (hp : o.place ≠ 0) (hm : o.multi = false) : Yields (.softError o) s s.dev := by
  change execSoftError o s = _
  exact event_ok (congrArg (Res.eff · []) ((if_neg hp).trans (if_pos (by rw [hm]; rfl))))

/-- Off DRAM, an error that cannot be corrected strikes an on-die word, an L1 copy or a word of a core. -/
theorem softError_uncorrected {d : Dev} (hp : o.place ≠ 0) (hm : o.multi = true)
    (h : (if o.place = 1 then
        if s.dev.badWords.contains (o.addr / 8 * 8) then s.dev else (s.dev.logWord s.mem o.addr).poisonWord o.addr
      else if o.place < 4096 then s.dev.setCore (o.place - 2) { s.dev.core (o.place - 2) with
        l1 := (s.dev.core (o.place - 2)).l1.filter (fun e => e.line != lineOf o.addr) }
      else s.dev.consume (o.place - 4096) Cause.sramUncorrectable o.addr) = d) : Yields (.softError o) s d := by
  change execSoftError o s = _
  exact event_ok (congrArg (Res.eff · []) ((if_neg hp).trans ((if_neg (by rw [hm]; nofun)).trans h)))

end

/-- A ring of slots that have all been queue-blocked for 2^16 drips takes its traps (R35). -/
theorem ring_traps {s : State} {core blk : Nat} (hne : s.dev.ringSlots core blk ≠ [])
    (hall : ∀ p ∈ s.dev.ringSlots core blk, ∃ b, p.2.qblk = some b ∧ b + 65536 ≤ s.drip) :
    Yields (.queueDeadlock core blk) s ((s.dev.ringSlots core blk).foldl (fun d p =>
      (d.tickFresh.takeTrap s.drip s.mem p.1 Cause.queueDeadlock p.2.pc (Config.freeWord d.fresh)).updThr p.1
        (fun t => { t with qblk := none })) s.dev) := by
  have blocked : (s.dev.ringSlots core blk).all (fun p => p.2.qblk.any (fun t => t + 65536 ≤ s.drip)) = true := by
    refine List.all_eq_true.mpr fun p hp => ?_
    obtain ⟨b, hb, hd⟩ := hall p hp
    simp [hb, hd]
  change execQueueDeadlock core blk s = _
  refine event_ok (if_neg ?_)
  rw [blocked]
  rintro (h | h)
  · exact hne h
  · exact absurd h nofun

/-- Settles O32: containment, return, each place of a soft error, and the deadlock of a ring. -/
theorem errorsAreContained : Obligations.ErrorsAreContained := by
  unfold Obligations.ErrorsAreContained
  refine ⟨fun s core cause addr hm hf => ⟨consumed_contained hm hf, fun c hc => contain_fences _ _ _ _ _ _ hc,
    contain_signals _ _ _ _ _ _⟩, fun s n f hf hd => ⟨_, rectangle_returns hf hd, refire_fenced _ _ _⟩,
    fun s o => ⟨softError_sector, ?_, ?_, ?_, softError_corrected⟩, fun s core blk => ring_traps⟩
  · intro hp hm hb
    refine softError_uncorrected (by omega) hm ?_
    rw [if_pos hp, hb, if_neg Bool.false_ne_true]
  · intro h2 h4096 hm
    refine softError_uncorrected (by omega) hm ?_
    rw [if_neg (by omega), if_pos h4096]
  · intro h4096 hm
    refine softError_uncorrected (by omega) hm ?_
    rw [if_neg (by omega), if_neg (by omega)]

end Sys2Proof.Machine
end

section
/-!
PROOFS. Reset, start-up, attestation and gating.
-/
namespace Sys2Proof.Machine
open Sys2Proof

/-! ### Module reset (R15, R366) -/

/-- What a module reset leaves of memory reads as before, the rest as unlisted. -/
theorem keptByReset_read {m : Memory} (h : m.wf = true) (a : Nat) : m.keptByReset.read a =
    if keyAp a < 0x1000 ∧ (keyAp a = 0 → isStatus (keyPhys a) = false ∧ isIo (keyPhys a) = false) then m.read a
    else Memory.dflt := by
  refine (read_filter (fun c => decide (keyAp c < 0x1000) &&
    !(decide (keyAp c = 0) && (isStatus (keyPhys c) || isIo (keyPhys c)))) m a h).trans
    (ite_congr (propext ?_) (fun _ => rfl) (fun _ => rfl))
  by_cases h0 : keyAp a = 0 <;> simp [h0]

/-! ### Start-up (R373, R375) -/

/-- A boot stage that fails its check holds the module in reset. -/
theorem bootStage_fails {s : State} {o : BootOp} (hr : s.dev.inReset = true) (hf : s.dev.boot.failed = none)
    (hs : s.dev.boot.stage < 4)
    (h : o.ok = false ∨ o.version < s.dev.boot.version ∨ (s.dev.boot.stage = 3 ∧ maskOk o.mask = false)) :
    Yields (.bootStage o) s { s.dev with boot := { s.dev.boot with failed := some s.dev.boot.stage } } := by
  change execBootStage o s = _
  refine event_ok ?_
  rw [if_neg (by simp [hr, hf]; omega), if_pos (by simpa using h)]

/-- The boot record after a stage whose check has passed. -/
def Boot.passed (b : Boot) (o : BootOp) : Boot := { b with
  stage := b.stage + 1
  digests := b.digests ++ [o.digest]
  mask := if b.stage = 3 then o.mask.eraseDups else b.mask
  entry := if b.stage = 2 then o.entry else b.entry }

/-- A boot stage whose check passes runs the next stage, or starts the service cores. -/
theorem bootStage_passes {s : State} {o : BootOp} (hr : s.dev.inReset = true) (hf : s.dev.boot.failed = none)
    (hs : s.dev.boot.stage < 4) (ho : o.ok = true) (hv : s.dev.boot.version ≤ o.version)
    (hm : s.dev.boot.stage = 3 → maskOk o.mask = true) :
    Yields (.bootStage o) s (if s.dev.boot.stage + 1 < 4 then { s.dev with boot := s.dev.boot.passed o }
      else (s.dev.boot.passed o).mask.foldl (fun d c => d.startService s.drip (s.dev.boot.passed o).entry c)
        { s.dev with boot := s.dev.boot.passed o, inReset := false }) := by
  change execBootStage o s = _
  refine event_ok ?_
  rw [if_neg (by simp [hr, hf]; omega), if_neg]
  · exact (apply_ite (Res.eff · []) _ _ _).symm
  · simp only [ho, Bool.not_true, Bool.false_eq_true, false_or, not_or, Nat.not_lt, not_and, Bool.not_eq_true']
    exact ⟨hv, fun h3 => by simp [hm h3]⟩

/-- A thread starts at the firmware's entry, in supervisor mode and in context 0. -/
def Thread.service (entry : Word) (t : Thread) : Prop := t.pc = entry ∧ t.status = mkStatus 0 0 true true

section
variable (d : Dev) (drip : Nat) (entry : Word)

/-- A service core starts sixteen threads. -/
theorem startService_threads (core : Nat) : ∃ l, (d.startService drip entry core).threads = d.threads ++ l ∧
    l.length = 16 ∧ ∀ p ∈ l, p.2.service entry := by
  refine ⟨_, rfl, by simp, fun p hp => ?_⟩
  obtain ⟨q, -, rfl⟩ := List.mem_map.mp hp
  exact ⟨rfl, rfl⟩

/-- Each service core starts sixteen threads, and nothing else but its block. -/
theorem startServices (mask : List Nat) : ∃ l,
    (mask.foldl (fun d c => d.startService drip entry c) d).threads = d.threads ++ l ∧
    l.length = 16 * mask.length ∧ ∀ p ∈ l, p.2.service entry := by
  induction mask generalizing d with
  | nil => exact ⟨[], by simp⟩
  | cons c mask ih =>
    obtain ⟨l, hl, hn, hp⟩ := startService_threads d drip entry c
    obtain ⟨r, hr, hm, hq⟩ := ih (d.startService drip entry c)
    refine ⟨l ++ r, by rw [List.foldl_cons, hr, hl, List.append_assoc], ?_, ?_⟩
    · rw [List.length_append, hn, hm, List.length_cons]
      omega
    · intro p h
      exact (List.mem_append.mp h).elim (hp p) (hq p)

/-- Service cores start outside the boot record and the reset. -/
theorem startServices_boot (mask : List Nat) :
    (mask.foldl (fun d c => d.startService drip entry c) d).boot = d.boot ∧
    (mask.foldl (fun d c => d.startService drip entry c) d).inReset = d.inReset := by
  induction mask generalizing d with
  | nil => exact ⟨rfl, rfl⟩
  | cons c mask ih => exact ih (d.startService drip entry c)

end

/-- The last boot stage starts the service cores that the boot mask names. -/
theorem bootStage_starts {s : State} {o : BootOp} (hr : s.dev.inReset = true) (hf : s.dev.boot.failed = none)
    (ho : o.ok = true) (hv : s.dev.boot.version ≤ o.version) (h3 : s.dev.boot.stage = 3) (hm : maskOk o.mask = true) :
    ∃ d, Yields (.bootStage o) s d ∧ d.inReset = false ∧ d.boot.mask = o.mask.eraseDups ∧ d.boot.stage = 4 ∧
      d.threads.length = s.dev.threads.length + 16 * d.boot.mask.length ∧
      ∀ p ∈ d.threads, p ∈ s.dev.threads ∨ p.2.service s.dev.boot.entry := by
  have yields := bootStage_passes hr hf (by omega) ho hv (fun _ => hm)
  rw [if_neg (by omega)] at yields
  have mask : (s.dev.boot.passed o).mask = o.mask.eraseDups := if_pos h3
  have stage : (s.dev.boot.passed o).stage = 4 := congrArg (· + 1) h3
  have entry : (s.dev.boot.passed o).entry = s.dev.boot.entry := if_neg (by omega)
  rw [entry, mask] at yields
  obtain ⟨l, hl, hn, hp⟩ := startServices { s.dev with boot := s.dev.boot.passed o, inReset := false } s.drip
    s.dev.boot.entry o.mask.eraseDups
  obtain ⟨boot, reset⟩ := startServices_boot { s.dev with boot := s.dev.boot.passed o, inReset := false } s.drip
    s.dev.boot.entry o.mask.eraseDups
  refine ⟨_, yields, reset, ?_, ?_, ?_, ?_⟩
  · rw [boot, mask]
  · rw [boot, stage]
  · rw [boot, mask, hl, List.length_append, hn]
  · intro p h
    rw [hl] at h
    exact (List.mem_append.mp h).imp_right (hp p)

/-- Context 0's lease and the root capability are made once the module has left reset (R374). -/
theorem serviceContext_made {s : State} {d e : Dev} {h g : Option Word} (hr : s.dev.inReset = false)
    (hb : s.dev.boot.service = false)
    (hc : ({ s.dev with boot := { s.dev.boot with service := true } } : Dev).grantLease s.drip s.dev.lantern .context
      (some 0) 0 0 (2 ^ 64 - 1) none (.context 0 0) = (d, g))
    (hk : d.grantLease s.drip s.dev.lantern .cap (some 0) 0 0 (s.drip + Config.longest) none (.cap 0x01FE) = (e, h)) :
    Yields .serviceContextCreation s { e with rootcap := h.getD 0 } := by
  change execServiceContextCreation s = _
  refine event_ok ?_
  rw [if_neg (by simp [hr, hb])]
  obtain rfl : _ = d := congrArg Prod.fst hc
  obtain rfl : _ = e := congrArg Prod.fst hk
  obtain rfl : _ = h := congrArg Prod.snd hk
  rfl

/-- A report is signed and given. -/
theorem report_signed (s : State) (n : Nat) : Yields (.attestation n) s { s.dev with boot := { s.dev.boot with
    reports := (n, Config.signature (s.dev.boot.contents n)) :: s.dev.boot.reports } } := by
  change execAttestation n s = _
  exact event_ok rfl

/-! ### Gating (R366) -/

/-- A core drops its L1 copies. -/
def Dev.clearL1 (d : Dev) (k : Nat) : Dev :=
  if (d.core k).l1 = [] then d else d.setCore k { d.core k with l1 := [] }

/-- A core whose L1 copies are dropped holds none, and another core's stay. -/
theorem clearL1_core (d : Dev) (k j : Nat) :
    ((d.clearL1 k).core j).l1 = if j = k then [] else (d.core j).l1 := by
  unfold Dev.clearL1
  by_cases hl : (d.core k).l1 = []
  · rw [if_pos hl]
    split
    · next h => rw [h, hl]
    · rfl
  · rw [if_neg hl, Dev.core_setCore]
    split <;> rfl

/-- L1 copies are dropped beside threads and leases. -/
theorem clearL1_keeps (d : Dev) (k : Nat) :
    (d.clearL1 k).threads = d.threads ∧ (d.clearL1 k).leases = d.leases := by
  unfold Dev.clearL1
  split <;> exact ⟨rfl, rfl⟩

section
variable (d : Dev) (l : List Nat)

/-- Cores that drop their L1 copies hold none, and the other cores' stay. -/
theorem clearL1s_core (j : Nat) : ((l.foldl Dev.clearL1 d).core j).l1 = if j ∈ l then [] else (d.core j).l1 := by
  induction l generalizing d with
  | nil => simp
  | cons k l ih =>
    rw [List.foldl_cons, ih, clearL1_core]
    by_cases hl : j ∈ l <;> by_cases hk : j = k <;> simp [hl, hk]

theorem clearL1s_keeps : (l.foldl Dev.clearL1 d).threads = d.threads ∧ (l.foldl Dev.clearL1 d).leases = d.leases := by
  induction l generalizing d with
  | nil => exact ⟨rfl, rfl⟩
  | cons k l ih =>
    obtain ⟨threads, leases⟩ := clearL1_keeps d k
    exact threads ▸ leases ▸ ih (d.clearL1 k)

end

/-- An idle cluster is gated, its L1 copies dropped. -/
theorem cluster_gates {s : State} {clus : Nat} (hn : clus < 128) (hg : (s.dev.clus clus).gated = false)
    (hi : s.dev.idleCluster clus = true) : ∃ c : Cluster, c.gated = true ∧ Yields (.clusterGating clus) s
      ((((List.range 16).map (clusCore clus)).foldl Dev.clearL1 s.dev).setClus clus c) := by
  refine ⟨{ (((List.range 16).map (clusCore clus)).foldl Dev.clearL1 s.dev).clus clus with gated := true }, rfl, ?_⟩
  change execClusterGating clus s = _
  refine event_ok ?_
  rw [if_neg (by simp [hg, hi]; omega)]
  rfl

/-- Settles O48: reset, each boot stage, the service context, a report, and the gating of an idle cluster. -/
theorem startsUp : Obligations.StartsUp := by
  unfold Obligations.StartsUp
  refine ⟨fun s => ⟨_, rfl, rfl, rfl, rfl, rfl, rfl, rfl, rfl, rfl, fun hwf => ?_⟩, fun s o hr hf hs =>
    ⟨bootStage_fails hr hf hs, fun ho hv h3 => ?_, fun ho hv => bootStage_starts hr hf ho hv⟩,
    fun s d e h g => serviceContext_made, report_signed, fun s clus hn hg hi => ?_⟩
  · have wf := writeAll_wf s.dev.hostHome s.mem hwf
    refine ⟨fun a h0 hst hio => ?_, fun a ha => ?_⟩
    · exact (keptByReset_read wf a).trans (if_pos (by simp [h0, hst, hio]))
    · exact (keptByReset_read wf a).trans (if_neg (by omega))
  · have yields := bootStage_passes hr hf hs ho hv (by omega)
    rw [if_pos (by omega), Boot.passed, if_neg (by omega)] at yields
    exact yields
  · obtain ⟨c, gated, yields⟩ := cluster_gates hn hg hi
    obtain ⟨threads, leases⟩ := clearL1s_keeps s.dev ((List.range 16).map (clusCore clus))
    refine ⟨_, yields, ?_, fun k hk => ?_, (Dev.setClus_threads _ _ _).trans threads,
      (Dev.setClus_leases _ _ _).trans leases⟩
    · rw [Dev.clus_setClus, if_pos rfl, gated]
    · rw [Dev.core, Dev.setClus_cores, ← Dev.core, clearL1s_core, if_pos]
      exact List.mem_map.mpr ⟨k, List.mem_range.mpr hk, rfl⟩

end Sys2Proof.Machine
end

section
/-!
PROOFS. Scalar, predicate and floating-point heads, division, transfers of control, and posted heads of one place.
-/
namespace Sys2Proof.Machine
open Sys2Proof

/-! ### Values -/

/-- Settles O1: a scalar head runs its form's value as its result. -/
theorem scalarResults : Obligations.ScalarResults := by
  unfold Obligations.ScalarResults
  intro x g u r f hx s j h
  exact (exec_scalar hx s).trans (result_ok h)

/-- Settles O2: a predicate head runs its form's write. -/
theorem predicateResults : Obligations.PredicateResults := by
  unfold Obligations.PredicateResults
  intro x g u f hx s j h
  exact (exec_pred hx s).trans (issueS_ok h rfl)

/-- FMODE of a source up to 6 answers the old mode, and takes the new one unless it is 0 (R75). -/
theorem fmode_ok {o : RR} {s : State} {j : In} (h : IssuesS s false o.g { xs := [o.a], xd := some o.d } j)
    (ha : j.a.toNat ≤ 6) : exec (.fmode o) s = .next (s.withDev
      (if j.a = 0 then j.dev.putX j.tid o.d (j.t.fmode.setWidth 64)
       else (j.dev.putX j.tid o.d (j.t.fmode.setWidth 64)).updThr j.tid
         (fun t => { t with fmode := j.a.setWidth 3 }))) :=
  issueS_ok h (if_neg (Nat.not_lt.mpr ha))

/-- Settles O3: the forms that write one value, then FCMP, FMODE and FFLAGS. -/
theorem floatResults : Obligations.FloatResults := by
  unfold Obligations.FloatResults
  refine ⟨fun x g u r f hx s j h => ?_, fun o s j h => ?_, fun o s j h => fmode_ok h, fun o s j h => ?_⟩
  · exact (exec_float hx s).trans (issueS_ok h rfl)
  · exact issueS_ok h rfl
  · exact issueS_ok h rfl

/-! ### Division -/

theorem width_bits_pos (wd : Width) : 0 < wd.bits := by cases wd <;> decide

/-- Minus one is no zero divisor at any width of an instruction. -/
theorem allOnes_ne_zero (wd : Width) : BitVec.allOnes wd.bits ≠ 0 := fun h =>
  Nat.ne_of_gt (width_bits_pos wd) (BitVec.allOnes_eq_zero_iff.mp h)

theorem intMin_sdiv_allOnes (w : Nat) : (BitVec.intMin w).sdiv (BitVec.allOnes w) = BitVec.intMin w := by
  rw [← BitVec.neg_one_eq_allOnes, BitVec.intMin_sdiv_neg_one]

/-- Minus one divides every number. -/
theorem srem_allOnes {w : Nat} (a : BitVec w) : a.srem (BitVec.allOnes w) = 0 := by
  refine BitVec.srem_zero_of_dvd ?_
  rw [BitVec.toInt_allOnes]
  split
  · exact Int.neg_dvd.mpr (Int.one_dvd _)
  · next h =>
    obtain rfl : w = 0 := by omega
    simp [BitVec.of_length_zero]

/-- Settles O59: each of the four writes its form's value, which the three clauses compute. -/
theorem division : Obligations.Division := by
  unfold Obligations.Division
  intro o s j h r a b writes
  have hdiv : writes (.div o) (if b = 0 then BitVec.allOnes r else a.sdiv b) :=
    scalarResults _ _ _ _ _ (.div o) s j h
  have hdivu : writes (.divu o) (if b = 0 then BitVec.allOnes r else a / b) :=
    scalarResults _ _ _ _ _ (.divu o) s j h
  have hrem : writes (.rem o) (if b = 0 then a else a.srem b) := scalarResults _ _ _ _ _ (.rem o) s j h
  have hremu : writes (.remu o) (if b = 0 then a else a % b) := scalarResults _ _ _ _ _ (.remu o) s j h
  refine ⟨⟨⟨_, hdiv⟩, ⟨_, hdivu⟩, ⟨_, hrem⟩, ⟨_, hremu⟩⟩, fun hb => ?_, fun ha hb => ?_⟩
  · rw [if_pos hb] at hdiv hdivu hrem hremu
    exact ⟨hdiv, hdivu, hrem, hremu⟩
  · have hb0 : b ≠ 0 := hb ▸ allOnes_ne_zero o.w
    rw [if_neg hb0, hb] at hdiv hrem
    rw [srem_allOnes] at hrem
    rw [ha, intMin_sdiv_allOnes] at hdiv
    rw [ha]
    exact ⟨hdiv, hrem⟩

/-! ### Transfers -/

/-- A transfer to a target that passes R42 goes there. -/
theorem transfer_good {i : In} {a : Word} (f : Dev → Dev)
    (h : i.base.target i.drip i.mem i.tid i.core i.t.ctx a = .good) :
    i.transfer a f = .ok ((f i.dev).updThr i.tid (fun t => { t with pc := a })) [] := by
  unfold In.transfer
  rw [h]

/-- A transfer head whose condition holds asks to go to its form's target, with its form's write (R77, R351). -/
theorem exec_transfer {x : Instr} {p : Bool} {g : Guard} {u : Uses} {c : In → Prop} {a : In → Word}
    {f : In → Dev → Dev} (h : TransferForm x p g u c a f) : ∃ b : In → Out, (∀ s, exec x s = run (issueS p g u b) s) ∧
      ∀ i, c i → b i = i.transfer (a i) (f i) := by
  cases h with
  | loop o =>
    refine ⟨_, fun _ => rfl, fun i hi => if_neg fun h0 => hi ?_⟩
    exact (BitVec.sub_eq_iff_eq_add.mp h0).trans (BitVec.zero_add _)
  | tret => exact ⟨_, fun _ => rfl, fun i hi => if_neg (by simp [hi])⟩
  | tretGuarded o => exact ⟨_, fun _ => rfl, fun i hi => if_neg (by simp [hi])⟩
  | _ => exact ⟨_, fun _ => rfl, fun _ _ => rfl⟩

/-- LOOP at 1 counts down to 0 and goes on in sequence (R77). -/
theorem loop_ends {o : LoopOp} {s : State} {j : In} (h : IssuesS s false o.g { xs := [o.a], xd := some o.a } j)
    (ha : j.a = 1) : exec (.loop o) s = .next (s.withDev (j.dev.putX j.tid o.a 0)) := by
  have h0 : j.a - 1 = 0 := by rw [ha]; rfl
  refine issueS_ok h ((if_pos h0).trans ?_)
  rw [h0]
  rfl

/-- Settles O4: a transfer that is taken, and LOOP at its end. -/
theorem transfers : Obligations.Transfers := by
  unfold Obligations.Transfers
  refine ⟨fun x p g u c a f hx s j h hc ht => ?_, fun o s j h => loop_ends h⟩
  obtain ⟨b, hb, hbody⟩ := exec_transfer hx
  rw [hb s]
  exact issueS_ok h ((hbody j hc).trans (transfer_good _ ht))

/-! ### Posted heads of one place -/

/-- What a posted head of one place leaves (R82, R247). -/
def In.postedOne (i : In) (p : Post) : Dev :=
  let d := { i with dev := if p.heat then i.samples [(p.key, [()])] i.dev else i.dev }.posted
    [(p.key, p.op)] p.sc p.rel p.exact p.major p.minor []
  p.bun.elim d (d.underBundle i.dev.nextOp)

/-- One posted place with room in S and in the store buffer enters it, whatever module it starts from. -/
theorem post_one_ok {i : In} (d : Dev) (k : PKey) (op : AccOp) (sc : Scope) (rel exact : Bool) (major minor : Nat)
    (h : i.canPost 1) : { i with dev := d }.post [(k, op)] sc rel exact major minor []
      = .ok ({ i with dev := d }.posted [(k, op)] sc rel exact major minor []) [] :=
  post_ok (i := { i with dev := d }) _ _ _ _ _ _ _ h (List.cons_ne_nil _ _)

/-- A bundle store that reaches its place, that nothing holds and for which there is room (R247). -/
theorem bst_ok {i : In} {h va l : Word} {n v p : Nat} (hk : hKind h = 9) (hr : Reaches i .write va n l p)
    (ho : i.ordered false = true) (hc : i.canPost 1) : i.bst h va n v = .ok (i.postedOne
      ⟨onePiece va l p, .bst h ((List.range n).map (fun j => ⟨p + j, 0xFF, byteOf v j⟩)), .sys, false, false, 0x2C, 1,
        true, some h⟩) [] := by
  unfold In.bst
  rw [handle1_ok (by decide) hk, one_ok hr, if_neg (by simp [ho])]
  simp only [post_one_ok _ _ _ _ _ _ _ _ hc]
  rfl

/-- A posted head of one place that passes its checks and that nothing holds enters the store buffer. -/
theorem exec_post {x : Instr} {g : Guard} {u : Uses} {pre : Thread → Option Nat} {c : In → Prop} {f : In → Post}
    (h : PostForm x g u pre c f) : ∃ b : In → Out, (∀ s, exec x s = run (issue false false g u pre b) s) ∧
      ∀ i, c i → i.ordered false = true → i.canPost 1 → b i = .ok (i.postedOne (f i)) [] := by
  cases h with
  | atomx o l p =>
    refine ⟨_, fun _ => rfl, fun i hr ho hc => (one_ok hr _).trans ?_⟩
    rw [if_neg (by simp [ho])]
    exact post_one_ok _ _ _ _ _ _ _ _ hc
  | tagst o l p =>
    refine ⟨_, fun _ => rfl, fun i hr ho hc => (one_ok hr _).trans ?_⟩
    rw [if_neg (by simp [ho])]
    exact post_one_ok i.dev _ _ _ _ _ _ _ hc
  | psend o =>
    refine ⟨_, fun _ => rfl, fun i hi ho hc => ?_⟩
    obtain ⟨hk, hal⟩ := hi
    have hg : goodHandle i.a [4] := by simp [goodHandle, hk]
    refine (kinds_ok1 (by decide) hg _).trans ?_
    rw [if_neg (by simp [hal]), if_neg (by simp [ho])]
    exact post_one_ok i.dev _ _ _ _ _ _ _ hc
  | bst o l p => exact ⟨_, fun _ => rfl, fun i ⟨hk, hr⟩ ho hc => bst_ok hk hr ho hc⟩
  | bstVector o l p n hn =>
    subst hn
    exact ⟨_, fun _ => rfl, fun i ⟨hk, hr⟩ ho hc => bst_ok hk hr ho hc⟩

/-- Settles O10: the head's body is its one entry. -/
theorem postedHeads : Obligations.PostedHeads := by
  unfold Obligations.PostedHeads
  intro x g u pre c f hx s j h hc ho hp
  obtain ⟨b, hb, hbody⟩ := exec_post hx
  rw [hb s]
  exact issue_dev h (hbody j hc ho hp)

end Sys2Proof.Machine
end

section
/-!
PROOFS. The end of a thread, and its arrival at its crew's barrier.
-/
namespace Sys2Proof.Machine
open Sys2Proof

/-! ### Threads through the steps of an end -/

/-- Updates of threads take no thread away. -/
theorem foldl_updThr_isSome (f : Nat → Thread → Thread) (k : Nat) (l : List Nat) :
    ∀ d : Dev, (d.thr k).isSome → ((l.foldl (fun d i => d.updThr i (f i)) d).thr k).isSome := by
  induction l with
  | nil => exact fun d h => h
  | cons i l ih =>
    refine fun d h => ih _ ?_
    rw [Dev.thr_updThr]
    split
    · next hi => rwa [Option.isSome_map, ← hi]
    · exact h

/-- A crew barrier's check takes no thread away. -/
theorem crewCheck_isSome (d : Dev) (drip b core k : Nat) (h : (d.thr k).isSome) :
    ((d.crewCheck drip b core).thr k).isSome := by
  unfold Dev.crewCheck
  split
  · exact h
  · split
    · exact h
    · split
      · exact foldl_updThr_isSome _ k _ d h
      · exact h

/-- A crew barrier's check changes of a thread only whether it waits, and from when it may issue (R92). -/
theorem crewCheck_keeps (d : Dev) (drip b core k : Nat) {t : Thread} (h : d.thr k = some t) :
    ∃ x, (d.crewCheck drip b core).thr k = some x ∧ x = { t with wst := x.wst, notBefore := x.notBefore } := by
  obtain ⟨x, hx⟩ := Option.isSome_iff_exists.mp (crewCheck_isSome d drip b core k (by simp [h]))
  obtain ⟨t', ht', hsame⟩ := crewCheck_thr d drip b core k x hx
  cases h.symm.trans ht'
  exact ⟨x, hx, hsame⟩

/-- An exited thread with no store out leaves its slot (R332). -/
theorem finishExit_gone {d : Dev} {k : Nat} {t : Thread} (h : d.thr k = some t) (he : t.exited = true) (hs : t.cS = 0) :
    (d.finishExit k).thr k = none := by
  cases hx : (d.finishExit k).thr k with
  | none => rfl
  | some x =>
    obtain ⟨hx', hout⟩ := finishExit_thr d k x hx
    cases h.symm.trans hx'
    simp [he, hs] at hout

/-- A thread with stores out keeps its slot (R332). -/
theorem finishExit_stays {d : Dev} {k : Nat} {t : Thread} (h : d.thr k = some t) (hs : t.cS ≠ 0) :
    d.finishExit k = d := by
  unfold Dev.finishExit
  simp [h, hs]

/-- A thread that EXIT has ended, before its slot is freed (R332). -/
def Thread.ended (t : Thread) : Thread := { t with exited := true, wst := .ready, traps := [] }

/-- When EXIT comes to free the slot, its thread has exited, has no trap to take, and its S count stands. -/
theorem endThread_last {d : Dev} {drip k : Nat} {t : Thread} (h : d.thr k = some t) : ∃ (e : Dev) (x : Thread),
    d.endThread drip k = e.finishExit k ∧ e.thr k = some x ∧ x.exited = true ∧ x.traps = [] ∧ x.cS = t.cS := by
  have ended : ((d.setThr k t.ended).updCrew t.blk k (fun c => { c with exited := k :: c.exited })).thr k
      = some t.ended := by
    unfold Dev.thr
    rw [Dev.updCrew_threads]
    exact (Dev.thr_setThr d k k _).trans (if_pos rfl)
  obtain ⟨x, hx, hsame⟩ := crewCheck_keeps _ drip t.blk ((d.setThr k t.ended).crewCore t.blk k) k ended
  refine ⟨_, x, ?_, hx, by rw [hsame]; rfl, by rw [hsame]; rfl, by rw [hsame]; rfl⟩
  unfold Dev.endThread
  simp only [h]
  rfl

/-- No slot issues a thread that has exited. -/
theorem exited_never_ready (d : Dev) (drip k : Nat) {x : Thread} (h : x.exited = true) :
    d.slotReady drip k x = false := by
  simp [Dev.slotReady, h]

/-! ### The heads -/

/-- CBAR of a thread that has not exited arrives at the barrier, or waits to (R92). -/
theorem cbar_ok {i : In} {t : Thread} (h : i.dev.thr i.tid = some t) (he : t.exited = false) :
    i.cbar = .ok (if t.cL = 0
      then (i.dev.updThr i.tid (fun t => { t with wst := .cbar false })).arriveCrew i.drip t.blk i.tid
      else i.dev.updThr i.tid (fun t => { t with wst := .cbar false })) [] := by
  have hthr : (i.dev.updThr i.tid (fun t => { t with wst := .cbar false })).thr i.tid
      = some { t with wst := .cbar false } := by
    rw [Dev.thr_updThr, if_pos rfl, h]
    rfl
  unfold In.cbar Dev.settle
  simp only [hthr, he, Bool.false_eq_true, if_false]

/-- Settles O7: EXIT's effect, what it leaves of the thread by its S count, and CBAR by its L count. -/
theorem threadsEndAndMeet : Obligations.ThreadsEndAndMeet := by
  unfold Obligations.ThreadsEndAndMeet
  refine ⟨?_, fun d drip k t h => ?_, ?_⟩
  · rintro x g hx s j h
    have ends : j.exit = .ok (j.dev.endThread s.drip j.tid) [] := by rw [← h.drip]; rfl
    obtain ⟨rfl, rfl⟩ | ⟨o, rfl, rfl⟩ := hx <;> exact issueS_ok h ends
  · obtain ⟨e, x, hend, hx, hexit, htraps, hstores⟩ := endThread_last (drip := drip) h
    rw [hend]
    refine ⟨fun h0 => finishExit_gone hx hexit (hstores.trans h0), fun hne => ?_⟩
    rw [finishExit_stays hx (hstores ▸ hne)]
    exact ⟨x, hx, hexit, htraps, hstores, fun d z => exited_never_ready d z k hexit⟩
  · rintro x g hx s j h
    obtain ⟨t, ht⟩ := h.thr
    refine ⟨t, ht, fun he => ?_⟩
    have meets := cbar_ok ht he
    rw [h.drip] at meets
    obtain ⟨rfl, rfl⟩ | ⟨o, rfl, rfl⟩ := hx <;> exact issueS_ok h meets

end Sys2Proof.Machine
end

section
/-!
PROOFS. Accesses at their homes: how they arrive, and how loads, stores, atomics and code fetches are served there.
-/
namespace Sys2Proof.Machine
open Sys2Proof

/-! ### Lines of one version whose sectors are sound -/

section
variable {d : Dev} {line : Nat}

/-- Reading sound sectors changes nothing (R264). -/
theorem Dev.plainLine.scrub (h : d.plainLine line) (mem : Memory) : d.scrub mem line = (d, []) := by
  have none_bad : [sectorOf line, sectorOf line + 64].filter d.badSectors.contains = [] := by
    simp only [List.filter_cons, h.sound.1, h.sound.2, Bool.false_eq_true, if_false, List.filter_nil]
  unfold Dev.scrub
  rw [none_bad]
  rfl

/-- Every view takes the one version (R249). -/
theorem Dev.version_single (h : d.bline line = none) (t v : Nat) : d.version line t v = .current := by
  unfold Dev.version
  rw [h]

/-- Read leases are granted on it (R275). -/
theorem Dev.noLease_single (h : d.bline line = none) (t : Nat) : d.noLease line t = false := by
  unfold Dev.noLease
  rw [h]

end

/-! ### What a line held at its slice leaves -/

section
variable (d : Dev) (drip : Nat) (mem : Memory) (line : Nat) (write : Bool) (w : List (Nat × Byte))

theorem Dev.holdLine_bline (l : Nat) : (d.holdLine drip mem line write w).bline l = d.bline l := by
  rw [Dev.holdLine_frame]
  rfl

theorem Dev.holdLine_madeWord (t a : Nat) : (d.holdLine drip mem line write w).madeWord t a = d.madeWord t a := by
  rw [Dev.holdLine_frame]
  rfl

theorem Dev.holdLine_poisonedLine (l : Nat) :
    (d.holdLine drip mem line write w).poisonedLine l = d.poisonedLine l := by
  rw [Dev.holdLine_frame]
  rfl

theorem Dev.holdLine_msgs : (d.holdLine drip mem line write w).msgs = d.msgs := by
  rw [Dev.holdLine_frame]

theorem Dev.holdLine_cores : (d.holdLine drip mem line write w).cores = d.cores := by
  rw [Dev.holdLine_frame]

end

/-! ### Arrival -/

/-- The oldest entry of a store buffer leaves for its home (R82, R269). -/
theorem drains {s : State} {core : Nat} {a : Acc} {rest : List Acc} (h : (s.dev.core core).sb = a :: rest)
    (hs : s.dev.seenDone core = true) (hr : a.rel = false ∨ s.dev.unperf core = []) :
    Yields (.storeBufferDrain core) s
      ((s.dev.setCore core { (s.dev.core core).drainL1 s.drip a with sb := rest }).send (.acc a)) := by
  change execStoreBufferDrain core s = _
  refine event_ok ?_
  simp only [h, hs]
  rcases hr with hr | hr <;> simp [hr]

/-- An access that names no handle is judged at its home in its turn (R113). -/
theorem arrives_at_home {s : State} {m : Nat} {a : Acc} (h : s.carries m (.acc a)) (hb : ∀ h l, a.op ≠ .bst h l)
    (hp : ∀ h o v, a.op ≠ .psend h o v) (ht : a.st = .travelling) (ho : s.dev.inOrder m a = true) :
    Yields (.commitPoint m) s ((s.dev.touch a.src.core a.line).arriveAcc s.drip m a) := by
  have h : s.dev.msg m = some (.acc a) := h
  change execCommitPoint m s = _
  refine event_ok ?_
  -- `hb` and `hp` leave the arm of the accesses that name no handle
  simp only [h, ht, ho, beq_self_eq_true, Bool.and_self, if_true]

/-! ### Loads -/

/-- The module once a load's line stands at its slice, and in its core's L1 where its scope is the core's and its words
are memory's and sound (R122, R260). -/
def Dev.loadHeld (d : Dev) (drip : Nat) (mem : Memory) (m : Nat) (a : Acc) : Dev :=
  let e := (d.drop m).holdLine drip mem a.line false []
  if nearOnly a.scope ∧ d.madeWord drip a.line = none ∧ d.poisonedLine a.line = false then
    e.fillL1 drip a.src.core a.line (e.rleaseOf a.src.tid) (BitVec.ofNat 1024 (mem.readN a.line 128)) else e

/-- A load of a line of one version, sound and not exact, is served with the bytes that its home reads (R249, R260). -/
theorem serve_load {d : Dev} {drip : Nat} {mem : Memory} {m : Nat} {a : Acc} {els : List El} (hop : a.op = .load els)
    (hl : d.plainLine a.line) (hx : d.isExact a.line = false) (hc : d.cleanEls els) :
    d.serve drip mem m a = ((d.loadHeld drip mem m a).send
      (.data a.src (readEls (d.homeByte drip mem) els) none 0 (some a.line)), []) := by
  have no_poison : (els.flatMap (fun e => e.bytes.map (fun b => (e.rank, b.1)))).find?
      (fun p => (d.drop m).poisoned p.2) = none := by
    rw [List.find?_eq_none]
    intro p hp
    obtain ⟨e, he, hp⟩ := List.mem_flatMap.mp hp
    obtain ⟨b, hb, rfl⟩ := List.mem_map.mp hp
    exact Bool.eq_false_iff.mp (hc e he b hb).1
  have no_badWord : ((els.flatMap El.bytes).map Prod.fst).find? (fun p => (d.drop m).badWords.contains (p / 8 * 8))
      = none := by
    rw [List.find?_eq_none]
    intro p hp
    obtain ⟨b, hb, rfl⟩ := List.mem_map.mp hp
    obtain ⟨e, he, hb⟩ := List.mem_flatMap.mp hb
    exact Bool.eq_false_iff.mp (hc e he b hb).2
  have single : (d.drop m).bline a.line = none := hl.single
  have exact' : (d.drop m).isExact a.line = false := hx
  unfold Dev.serve
  simp only [hl.scrub, hop, exact', no_poison, no_badWord, Dev.version_single single, Bool.false_eq_true, if_false]
  have leased : ((d.drop m).holdLine drip mem a.line false []).noLease a.line
      ((d.drop m).clock drip ((d.drop m).accHome a).mod) = false :=
    Dev.noLease_single ((Dev.holdLine_bline ..).trans single) _
  refine congrArg (fun e : Dev => (e.send _, [])) (ite_congr (propext ?_) (fun _ => rfl) (fun _ => rfl))
  rw [leased, Dev.holdLine_madeWord, Dev.holdLine_poisonedLine, Bool.not_eq_true', Bool.not_eq_true', Bool.not_eq_true',
    Option.isSome_eq_false_iff, Option.isNone_iff_eq_none]
  exact and_congr_right' (and_iff_right rfl)


/-- A single accepted load whose stamps are known and that is due is served (R83, R261). -/
theorem load_due_served {s : State} {m : Nat} {a : Acc} {els : List El} (h : s.carries m (.acc a))
    (hop : a.op = .load els) (hj : a.joint = false) (hd : s.dev.loadDue s.drip m a) (hs : s.dev.bline a.line = none) {d : Dev}
    (hr : s.dev.serve s.drip s.mem m a = (d, [])) : Yields (.loadService m) s (d.afterLoad s.drip a.src.core) := by
  have h : s.dev.msg m = some (.acc a) := h
  have known : s.dev.mustAsk a = false := by simp only [Dev.mustAsk, hop, hs]
  change execLoadService m s = _
  refine event_ok ?_
  simp only [h, hop, AccOp.isLoad, hd.turn, hd.accepted, AccSt.isL1, hd.first, hd.here, hj, known, hr]
  rfl

/-- A hit that no older load stands before comes to what settling its core's hits comes to (R261). -/
theorem hit_settles {s : State} {m n e : Nat} {a : Acc} {els : List El} {b : BitVec 1024} (hop : a.op = .load els)
    (h : s.carries m (.acc a)) (hst : a.st = .l1 b e) (hb : s.dev.loadsBefore m a.src.core = false)
    (hn : s.dev.msgs.length = n) : Yields (.loadService m) s (s.dev.settleHits s.drip a.src.core n) := by
  have h : s.dev.msg m = some (.acc a) := h
  change execLoadService m s = _
  refine event_ok ?_
  simp only [h, hop, AccOp.isLoad, hb, hst, AccSt.isL1, Dev.afterLoad, hn]
  rfl

section
variable {d : Dev} {drip core m n e : Nat} {a : Acc} {b : BitVec 1024}

/-- A held hit whose copy is live takes its data (R261). -/
theorem settleHits_live (ho : d.oldestLoad core = some (m, a)) (hst : a.st = .l1 b e) (he : drip < e) :
    d.settleHits drip core (n + 1)
      = ((d.drop m).coreData drip a (versionByte b a.line)).settleHits drip core n := by
  rw [Dev.settleHits]
  simp only [ho, hst, he, if_true]

/-- A held hit whose copy has run out goes to its home, where a miss register is free (R261). -/
theorem settleHits_expired (ho : d.oldestLoad core = some (m, a)) (hst : a.st = .l1 b e) (he : e ≤ drip)
    (hm : d.missUsed core < 48) : d.settleHits drip core (n + 1) = d.reMsg m (.acc { a with st := .travelling }) := by
  rw [Dev.settleHits]
  simp only [ho, hst, Nat.not_lt.mpr he, hm, decide_true, Bool.or_true, if_true, if_false]

end

/-! ### Stores and atomics -/

/-- A store or atomic that is due may perform (R123, R266). -/
theorem Dev.storeDue.may {d : Dev} {drip m : Nat} {a : Acc} (h : d.storeDue drip m a) :
    d.mayPerform drip m a = true := by
  simp [Dev.mayPerform, h.accepted, h.first, h.here, h.leases, h.turn]

section
variable {s : State} {m : Nat} {a : Acc} (h : s.carries m (.acc a)) (hd : s.dev.storeDue s.drip m a)
include h hd

/-- A single store that is due performs by writing its bytes (R123). -/
theorem store_performs {l : List MByte} (hop : a.op = .store l) (hj : a.joint = false)
    (hx : s.dev.isExact a.line = false) (hw : s.dev.windowOf a.line = none)
    (hio : ¬(keyAp a.line = 0 ∧ keyPhys a.line = ioBase)) :
    Writes (.storePerform m) s
      ((((s.dev.drop m).snoopSets a.src.tid a.line).holdLine s.drip s.mem a.line true
        (s.dev.homeWrite s.drip s.mem l)).clearPoison (s.dev.homeWrite s.drip s.mem l))
      (s.dev.homeWrite s.drip s.mem l) := by
  have h : s.dev.msg m = some (.acc a) := h
  have noPrq : (keyAp a.line == 0 && keyPhys a.line == ioBase) = false := by simpa using hio
  have exact' : ((s.dev.drop m).snoopSets a.src.tid a.line).isExact a.line = false := hx
  change execStorePerform m s = _
  refine run_eff ?_
  simp only [h, hd.may, hop, hw, noPrq, Dev.twinInSb, hj, Dev.withTwins, Dev.performAll, Dev.performStore, exact',
    Bool.not_true, Bool.not_false, Bool.false_and, Bool.or_self, Bool.false_eq_true, if_false, if_true, List.nil_append]
  rfl

/-- An atomic of a sound line replies the old value and writes the new (R290). -/
theorem atomic_performs {f : AtomFn} {p n : Nat} {b c : Word} {r : Reg} (hop : a.op = .atom f p n b c r)
    (hl : s.dev.plainLine a.line) (hp : s.dev.poisoned p = false) :
    let old := bitsFrom (s.dev.homeByte s.drip s.mem) p 0 (8 * n)
    let new := atomNew f (8 * n) old (b.toNat % 2 ^ (8 * n)) (c.toNat % 2 ^ (8 * n))
    let w := s.dev.homeWrite s.drip s.mem ((List.range n).map (fun k => ⟨p + k, 0xFF, byteOf new.1 k⟩))
    let d := (s.dev.drop m).snoopSets a.src.tid a.line
    Writes (.atomicService m) s
      ((if (s.dev.accHome a).mod = s.dev.modNo then d.holdLine s.drip s.mem a.line true w else d).send
        (.data a.src [(.x r, atomReply f (8 * n) old)] none new.2 none)) w := by
  intro old new w d
  have h : s.dev.msg m = some (.acc a) := h
  have sound : (if (s.dev.accHome a).mod = s.dev.modNo then d.holdLine s.drip s.mem a.line true w else d).poisoned p
      = false := by
    split
    · rw [Dev.holdLine_frame]
      exact hp
    · exact hp
  change execAtomicService m s = _
  refine run_eff ?_
  simp only [h, hd.may, hop, hl.scrub, Bool.not_true, Bool.false_eq_true, if_false, List.nil_append]
  exact if_neg (Bool.eq_false_iff.mp sound)

/-- An exact add goes into its element (R293). -/
theorem atomx_performs {p : Nat} {v : BitVec 32} (hop : a.op = .atomx p v) :
    Yields (.atomxService m) s { (s.dev.drop m).snoopSets a.src.tid a.line with
      exactEls := put p ((s.dev.exactEl p).1 + (exactOf v.toNat).1, (s.dev.exactEl p).2 ||| (exactOf v.toNat).2)
        s.dev.exactEls } := by
  have h : s.dev.msg m = some (.acc a) := h
  change execAtomxService m s = _
  refine event_ok ?_
  simp only [h, hd.may, hop, Bool.not_true, Bool.false_eq_true, if_false]

/-- A TAGST of a tagged aperture sets its granule's tag (R299). -/
theorem tagst_performs {p : Nat} {t : BitVec 4} (hop : a.op = .tagst p t) (hp : keyAp p ≤ 0xC0) :
    Yields (.storePerform m) s { s.dev.drop m with
      tags := if t = 0 then del p s.dev.tags else put p t s.dev.tags } := by
  have h : s.dev.msg m = some (.acc a) := h
  change execStorePerform m s = _
  refine event_ok ?_
  simp only [h, hd.may, hop, Nat.not_lt.mpr hp, Bool.not_true, Bool.false_eq_true, if_false]
  rfl

end

/-! ### L1 copies and code -/

/-- A copy whose lease has run out is dropped (R122). -/
theorem copy_expires {s : State} {core line : Nat}
    (h : (s.dev.core core).l1.any (fun e => e.line = line && e.expiry ≤ s.drip) = true) :
    Yields (.readLeaseExpiry core line) s (s.dev.setCore core { s.dev.core core with
      l1 := (s.dev.core core).l1.filter (fun e => !(e.line = line && e.expiry ≤ s.drip)) }) := by
  change execReadLeaseExpiry core line s = _
  exact event_ok (if_pos h)

/-- A line that a core has just been given is its live copy (R122, R260). -/
theorem Core.copy_fill (c : Core) {e : L1E} {drip : Nat} (h : drip < e.expiry) (ho : e.once = false) :
    (c.fill e).copy e.line drip = some e.data := by
  simp [Core.copy, Core.entry, Core.fill, h, ho]

/-- The die that caches a line changes nothing else (R262). -/
theorem Dev.touch_frame (d : Dev) (core line : Nat) :
    d.touch core line = { d with foreign := (d.touch core line).foreign } := by
  unfold Dev.touch
  split <;> rfl

/-- A plain line stays one when its die is named. -/
theorem Dev.plainLine.touched {d : Dev} {line : Nat} (h : d.plainLine line) (core : Nat) :
    (d.touch core line).plainLine line := by
  rw [Dev.touch_frame]
  exact ⟨h.single, h.sound⟩

/-- The module once a fetch of code has come to its line's home. -/
def Dev.fetched (d : Dev) (m core line : Nat) : Dev :=
  (d.setCore core { d.core core with fetching := (d.core core).fetching.filter (fun l => l != line) }).drop m

/-- The module once a core has been given a code line under a read lease (R43, R122). -/
def Dev.codeGiven (d : Dev) (drip : Nat) (mem : Memory) (core line len : Nat) : Dev :=
  let e := d.holdLine drip mem line false []
  (e.stampLine drip line (drip + len)).setCore core
    ((e.core core).fill ⟨line, drip + len, BitVec.ofNat 1024 (mem.readN line 128), false⟩)

/-- A code line of one version whose sectors are sound is given as memory has it (R43). -/
theorem giveCode_plain {d : Dev} {drip : Nat} {mem : Memory} {core line len : Nat} (h : d.plainLine line) :
    d.giveCode drip mem core line len .current = (d.codeGiven drip mem core line len, []) := by
  have leased : (d.holdLine drip mem line false []).noLease line drip = false :=
    Dev.noLease_single ((Dev.holdLine_bline ..).trans h.single) _
  unfold Dev.giveCode
  simp only [h.scrub, leased, Bool.false_eq_true, if_false]
  rfl

/-- A fetch of a line of one version that nothing holds away gives it to its core (R43, R57). -/
theorem fetch_given {s : State} {m core line len : Nat} (h : s.carries m (.fetch core line len))
    (hs : s.dev.msgs.any (fun x => x.kind.storeAt line) = false) (ha : s.dev.heldAway s.drip line false = false)
    (hl : s.dev.plainLine line) : Yields (.codeFetchArrival m) s
      (((s.dev.touch core line).fetched m core line).codeGiven s.drip s.mem core line len) := by
  have h : s.dev.msg m = some (.fetch core line len) := h
  have touched := hl.touched core
  have fetched : ((s.dev.touch core line).fetched m core line).plainLine line := ⟨touched.single, touched.sound⟩
  have hs' : (s.dev.touch core line).msgs.any (fun x => x.kind.storeAt line) = false := by
    rw [Dev.touch_frame]
    exact hs
  have ha' : (s.dev.touch core line).heldAway s.drip line false = false := by
    rw [Dev.touch_frame]
    exact ha
  have given := giveCode_plain (drip := s.drip) (mem := s.mem) (core := core) (len := len) fetched
  change execCodeFetchArrival m s = _
  refine event_ok ?_
  simp only [h, hs', ha', Dev.version_single touched.single, Bool.false_eq_true, or_self, if_false]
  exact congrArg (fun r : Dev × List (Nat × Byte) => Res.eff r.1 r.2) given

section
variable (d : Dev) (drip : Nat) (mem : Memory) (m core line len : Nat)

/-- The request for a code line is gone once it is given. -/
theorem codeGiven_msg : ((d.fetched m core line).codeGiven drip mem core line len).msg m = none := by
  change (((d.fetched m core line).holdLine drip mem line false []).msgs.find? (fun x => x.id = m)).map Msg.kind
    = none
  rw [Dev.holdLine_msgs]
  exact Dev.msg_drop _ m

/-- The core that has been given a code line no longer fetches it. -/
theorem codeGiven_fetching :
    (((d.fetched m core line).codeGiven drip mem core line len).core core).fetching.contains line = false := by
  have cores : ((d.fetched m core line).holdLine drip mem line false []).core core
      = { d.core core with fetching := (d.core core).fetching.filter (fun l => l != line) } := by
    unfold Dev.core
    rw [Dev.holdLine_cores]
    exact (Dev.core_setCore d core core _).trans (if_pos rfl)
  rw [Dev.codeGiven, Dev.core_setCore, if_pos rfl, cores]
  simp [Core.fill]

/-- The core that has been given a code line has a live copy of it. -/
theorem codeGiven_copy (h : 0 < len) :
    ((d.codeGiven drip mem core line len).core core).copy line drip
      = some (BitVec.ofNat 1024 (mem.readN line 128)) := by
  rw [Dev.codeGiven, Dev.core_setCore, if_pos rfl]
  exact Core.copy_fill _ (e := ⟨line, drip + len, _, false⟩) (Nat.lt_add_of_pos_right h) rfl

end

/-- Settles O18: the store buffer, the commit point, and then each access at its home. -/
theorem accessesAtHome : Obligations.AccessesAtHome := by
  unfold Obligations.AccessesAtHome
  refine ⟨fun s core a rest => drains, fun s m a h hb hp ht ho => ?_,
    fun s m a els h hop hj hd hl hx hc => load_due_served h hop hj hd hl.single (serve_load hop hl hx hc),
    fun s m n e a els b hop h hst hb ho hn => ?_,
    fun s m a l h hop hj hd hx hw hio => store_performs h hd hop hj hx hw hio,
    fun s m a f p n b c r h hop hd hl hp => atomic_performs h hd hop hl hp,
    fun s m a p v h hop hd => atomx_performs h hd hop,
    fun s m p a t h hop hd hp => tagst_performs h hd hop hp,
    fun s core line => copy_expires, fun s m core line len h hs ha hl => ?_⟩
  · have arrives := arrives_at_home h hb hp ht ho
    unfold Dev.arriveAcc at arrives
    refine ⟨fun hj => ?_, fun c r ea hj => ?_, fun l hj => ?_⟩ <;> simpa only [hj] using arrives
  · have settles := hit_settles hop h hst hb hn
    refine ⟨fun he => ?_, fun he hm => ?_⟩
    · rwa [settleHits_live ho hst he] at settles
    · rwa [settleHits_expired ho hst he hm] at settles
  · exact ⟨_, fetch_given h hs ha hl, codeGiven_msg .., codeGiven_fetching ..,
      fun hlen => codeGiven_copy _ _ _ _ _ _ hlen⟩

end Sys2Proof.Machine
end

section
/-!
PROOFS. Heads that ask for a reply word.
-/
namespace Sys2Proof.Machine
open Sys2Proof

/-! ### What the parts of a request come to -/

/-- One kind of handle is that kind. -/
theorem goodHandle_singleton {h : Word} {k : Nat} : goodHandle h [k] ↔ hKind h = k := List.mem_singleton

/-- A duration that is not zero goes on with its drips (R106). -/
theorem withDur_some {i : In} {v n : Nat} (h : duration v = some n) (d : Reg) (f : Nat → Out) :
    i.withDur d v f = f n := by
  unfold In.withDur
  rw [h]

/-- A duration of zero is refused by the core itself (R106, R133). -/
theorem withDur_none {i : In} {v : Nat} (h : duration v = none) (d : Reg) (f : Nat → Out) :
    i.withDur d v f = i.result d (refusalWord Cause.durationZero) := by
  unfold In.withDur
  rw [h]

/-- The scopes that reach beyond a core (R145). -/
theorem not_nearOnly (sc : Scope) : (!nearOnly sc) = decide (sc ≠ .slot ∧ sc ≠ .core) := by
  cases sc <;> rfl

/-- A request with a miss register and room in L is sent, whatever module it starts from. -/
theorem request_from_ok {i : In} (d : Dev) (h : i.canL = true) (r : Reg) (q : Req) :
    { i with dev := d }.request r q = .ok ({ i with dev := d }.asked r q) [] :=
  request_ok (i := { i with dev := d }) h r q

/-- A dword that reaches a line of the set, with a place to stage it, is staged (R297). -/
theorem stage_ok {i : In} {l : Word} {p : Nat} (hr : Reaches i .write i.a 8 l p) (ho : i.ordered false = true)
    (hl : i.t.mcsLines.contains (lineOf p) = true)
    (hs : i.t.mcsStaged.any (fun q => q.1 == p) = true ∨ i.t.mcsStaged.length < 16) (f : In → Out) :
    i.stage f
      = f { i with dev := i.dev.updThr i.tid (fun t => { t with mcsStaged := put p i.b t.mcsStaged }) } := by
  have room : ¬ ((!i.t.mcsStaged.any (fun q => q.1 == p)) = true ∧ 16 ≤ i.t.mcsStaged.length) := by
    rintro ⟨fresh, full⟩
    rcases hs with h | h
    · rw [h] at fresh
      cases fresh
    · omega
  refine (one_ok hr _).trans ?_
  rw [if_neg (by simp [ho]), if_neg (not_or.mpr ⟨by rw [hl]; decide, room⟩)]

/-! ### Bodies of the forms -/

/-- A head whose operands are those of its form asks for its form's request. -/
theorem exec_request {x : Instr} {p : Bool} {g : Guard} {u : Uses} {c : In → Prop} {r : Reg} {q : In → Req}
    (h : RequestForm x p g u c r q) : ∃ b : In → Out, (∀ s, exec x s = run (issueS p g u b) s) ∧
      ∀ i, c i → b i = i.request r (q i) := by
  cases h with
  | lrenew o n =>
    exact ⟨_, fun _ => rfl, fun i ⟨hk, hd⟩ => (kinds_ok1 (by decide) hk _).trans (withDur_some hd _ _)⟩
  | llife o | linfo o | lheld o => exact ⟨_, fun _ => rfl, fun i hk => kinds_ok1 (by decide) hk _⟩
  | ltether o => exact ⟨_, fun _ => rfl, fun i ⟨hk, hk'⟩ => kinds_ok2 (by decide) hk (by decide) hk' _⟩
  | binit o n =>
    refine ⟨_, fun _ => rfl, fun i ⟨hb, hd, hn⟩ => ?_⟩
    rw [if_neg (by simp [hb]), withDur_some hd, if_neg (Nat.not_lt.mpr hn)]
  | barv o =>
    refine ⟨_, fun _ => rfl, fun i ⟨hk, ha⟩ => (kinds_ok1 (by decide) hk _).trans ?_⟩
    rw [if_neg (not_not_intro ha), not_nearOnly]
  | badd o =>
    refine ⟨_, fun _ => rfl, fun i ⟨hk, hn, ha⟩ => (kinds_ok1 (by decide) hk _).trans ?_⟩
    rw [if_neg (not_not_intro hn), if_neg (not_not_intro ha), not_nearOnly]
  | popen o n =>
    refine ⟨_, fun _ => rfl, fun i ⟨hk, hn, hs⟩ => (kinds_ok1 (by decide) hk _).trans ?_⟩
    by_cases hb : o.b.val = 0
    · rw [if_pos hb] at hn ⊢
      rw [hn]
    · obtain ⟨m, rfl⟩ := Option.ne_none_iff_exists'.mp (hs.resolve_left hb)
      rw [if_neg hb] at hn ⊢
      exact withDur_some hn.symm _ _
  | gate o =>
    exact ⟨_, fun _ => rfl, fun i ⟨hk, hn⟩ => (kinds_ok1 (by decide) hk _).trans (if_neg (Nat.not_le.mpr hn))⟩
  | alloc o l l' p => exact ⟨_, fun _ => rfl, fun i ⟨hr, hw⟩ => (one_ok hr _).trans (one_ok hw _)⟩
  | bopen o l p n r =>
    refine ⟨_, fun _ => rfl, fun i ⟨hw, hn, hr⟩ => (one_ok hw _).trans ?_⟩
    rw [hn, hr]
  | bseal o | point o | frrd o =>
    exact ⟨_, fun _ => rfl, fun i hk => handle1_ok (by decide) (goodHandle_singleton.mp hk) _⟩
  | bchk o l p => exact ⟨_, fun _ => rfl, fun i ⟨hr, hn⟩ => (one_ok hr _).trans (if_neg (Nat.not_le.mpr hn))⟩
  | launch o l p => exact ⟨_, fun _ => rfl, fun i hr => one_ok hr _⟩
  | amsg o => exact ⟨_, fun _ => rfl, fun i ht => if_neg (by simp [ht])⟩
  | tlbi o => exact ⟨_, fun _ => rfl, fun i hn => if_neg fun ⟨ht, hlt⟩ => Nat.not_lt.mpr (hn ht) hlt⟩
  | wakeRec o | wakeFail o | mstat o => exact ⟨_, fun _ => rfl, fun _ _ => rfl⟩
  | wakeSlot o | wakeStop o => exact ⟨_, fun _ => rfl, fun i ht => if_pos ht⟩
  | ctxsv o l =>
    refine ⟨_, fun _ => rfl, fun i ⟨hn, ha, hl⟩ => (if_neg hn).trans ?_⟩
    rw [ha, hl]
  | mlease o n => exact ⟨_, fun _ => rfl, fun i hd => withDur_some hd _ _⟩
  | mcsstCommit o =>
    refine ⟨_, fun _ => rfl, fun i ⟨hl, ho⟩ => ?_⟩
    rw [if_neg (by simp [ho]), if_pos hl]

/-- A request that the core itself refuses writes the refusal as the head's result (R106, R133, R141). -/
theorem exec_coreRefusal {x : Instr} {g : Guard} {u : Uses} {c : In → Prop} {r : Reg} {cause : Nat}
    (h : CoreRefusalForm x g u c r cause) : ∃ b : In → Out, (∀ s, exec x s = run (issueS false g u b) s) ∧
      ∀ i, c i → b i = i.result r (refusalWord cause) := by
  cases h with
  | lrenew o =>
    exact ⟨_, fun _ => rfl, fun i ⟨hk, hd⟩ => (kinds_ok1 (by decide) hk _).trans (withDur_none hd _ _)⟩
  | lock o l p => exact ⟨_, fun _ => rfl, fun i ⟨hr, hd⟩ => (one_ok hr _).trans (withDur_none hd _ _)⟩
  | binit o => exact ⟨_, fun _ => rfl, fun i ⟨hb, hd⟩ => (if_neg (by simp [hb])).trans (withDur_none hd _ _)⟩
  | binitCount o n =>
    refine ⟨_, fun _ => rfl, fun i ⟨hb, hd, hn⟩ => ?_⟩
    rw [if_neg (by simp [hb]), withDur_some hd, if_pos hn]
  | popen o =>
    refine ⟨_, fun _ => rfl, fun i ⟨hk, hb, hd⟩ => (kinds_ok1 (by decide) hk _).trans ?_⟩
    rw [if_neg hb, withDur_none hd]
  | bopen o l p =>
    refine ⟨_, fun _ => rfl, fun i ⟨hw, hd⟩ => (one_ok hw _).trans ?_⟩
    rcases hd with hn | hr
    · rw [hn]
    · rw [hr]
      split
      · next h => cases h
      · rfl
  | mlease o => exact ⟨_, fun _ => rfl, fun i hd => withDur_none hd _ _⟩

/-! ### LOCK, BWAIT and MCSST -/

/-- LOCK of a duration that is not zero sends its request, and later accesses wait for its reply (R139). -/
theorem lock_ok {o : LockOp} {s : State} {j : In} {l : Word} {p n : Nat}
    (h : IssuesS s false o.g { xs := if o.c.val = 0 then [o.a, o.b] else [o.a, o.b, o.c], late := some o.d } j)
    (hr : Reaches j .read j.a 8 l p) (hd : duration (j.b.toNat % 65536) = some n) (hl : j.canL = true) :
    exec (.lock o) s = .next (s.withDev
      ((((j.dev.openOp j.tid 1 true (some o.d) none none).1).holdFor j.tid j.dev.nextOp true).send
        (.req (j.src o.d j.dev.nextOp) (.lock p n (if o.c.val = 0 then none else some j.c.toNat) o.sc)))) :=
  issueS_ok h (((one_ok hr _).trans (withDur_some hd _ _)).trans (if_neg (by simp [hl])))

/-- BWAIT that no acquire holds sends its request, and its slot waits for the reply (R145). -/
theorem bwait_ok {o : BwaitOp} {s : State} {j : In}
    (h : IssuesS s false o.g { xs := [o.a, o.b], late := some o.d } j) (hk : hKind j.a = 3) (ha : j.t.acq = [])
    (hl : j.canL = true) :
    exec (.bwait o) s = .next (s.withDev
      ((((j.dev.openOp j.tid 1 true none none none).1).updThr j.tid (fun t => { t with wst := .bwait })).send
        (.req (j.src o.d j.dev.nextOp) (.bwait j.a j.b)))) :=
  issueS_ok h ((kinds_ok1 (by decide) (goodHandle_singleton.mpr hk) _).trans (if_neg (by simp [ha, hl])))

/-- MCSST to a set with a line stages its dword and asks for the commit (R297, R298). -/
theorem mcsstCommit_ok {o : RRRx} {s : State} {j : In} {l : Word} {p : Nat}
    (h : IssuesS s true o.g { xs := [o.a, o.b], late := some o.d } j) (ho : j.ordered false = true)
    (hne : j.t.mcsLines ≠ []) (hr : Reaches j .write j.a 8 l p)
    (hline : j.t.mcsLines.contains (lineOf p) = true)
    (hs : j.t.mcsStaged.any (fun q => q.1 == p) = true ∨ j.t.mcsStaged.length < 16) (hl : j.canL = true) :
    exec (.mcsstCommit o) s = .next (s.withDev
      ({ j with dev := j.dev.updThr j.tid (fun t => { t with mcsStaged := put p j.b t.mcsStaged }) }.asked
        o.d .mcs)) := by
  refine issueS_ok h ?_
  rw [if_neg (by simp [ho]), if_neg hne, stage_ok hr ho hline hs]
  exact request_from_ok _ hl _ _

/-- Settles O13: the requests of the forms, then LOCK, BWAIT and MCSST, then what the core itself refuses. -/
theorem requestsSent : Obligations.RequestsSent := by
  unfold Obligations.RequestsSent
  refine ⟨fun x p g u c r q hx s j h hc hl => ?_,
    ⟨fun o s j l p n h hr hd hl => lock_ok h hr hd hl, fun o s j h hk ha hl => bwait_ok h hk ha hl,
      fun o s j l p h hr ho hline hs => issueS_ok h (stage_ok hr ho hline hs _),
      fun o s j l p h ho hne hr hline hs hl => mcsstCommit_ok h ho hne hr hline hs hl⟩,
    fun x g u c r cause hx s j h hc => ?_⟩
  · obtain ⟨b, hb, hbody⟩ := exec_request hx
    rw [hb s]
    exact issueS_ok h ((hbody j hc).trans (request_ok hl r (q j)))
  · obtain ⟨b, hb, hbody⟩ := exec_coreRefusal hx
    rw [hb s]
    exact issueS_ok h (hbody j hc)

end Sys2Proof.Machine
end

section
/-!
PROOFS. The host: its accesses to device memory, the permission leases of caching agents, and its snoops.
-/
namespace Sys2Proof.Machine
open Sys2Proof

/-! ### Accesses (R361) -/

/-- A line of one version is not one that a bundle has open (R275). -/
theorem Dev.bundled_single {d : Dev} {line : Nat} (h : d.bline line = none) : d.bundled line = false := by
  unfold Dev.bundled
  rw [h]

section
variable {s : State} {off : Nat} {data : List Byte}

/-- A read that is served answers its sector, and the host takes read permission of the line (R124, R361). -/
theorem hostRead_served (h : s.hostReads ⟨off, false, data⟩) :
    Yields (.hostAccess ⟨off, false, data⟩) s (({ s.dev with
      hostRead := (s.dev.hostBytes s.drip s.mem (sectorOf (hostKey off)), false) } : Dev).givePerm s.drip
        (lineOf (hostKey off)) false []) := by
  obtain ⟨⟨inside, up, covered, plain, exact', window⟩, free, sound, words⟩ := h
  change execHostAccess _ s = _
  refine event_ok ?_
  simp only [Nat.not_le.mpr inside, up, covered, exact', Dev.bundled_single plain.single, free, plain.scrub, sound,
    words, Dev.noLease_single plain.single, window, Option.isSome_none, Bool.not_false, Bool.not_true, Bool.or_self,
    Bool.false_eq_true, false_and, or_self, if_false, if_true]

/-- A write that is taken gives the host write permission of the line, which holds the bytes (R124, R361). -/
theorem hostWrite_taken (h : s.hostWrites ⟨off, true, data⟩) :
    Yields (.hostAccess ⟨off, true, data⟩) s ((s.dev.snoopSets s.dev.nextTid (lineOf (hostKey off))).givePerm s.drip
      (lineOf (hostKey off)) true (data.zipIdx.map (fun p => (hostKey off + p.2, p.1)))) := by
  obtain ⟨⟨inside, up, covered, plain, exact', window⟩, free, fits⟩ := h
  change execHostAccess _ s = _
  refine event_ok ?_
  simp only [Nat.not_le.mpr inside, Nat.not_lt.mpr fits, up, covered, exact', Dev.bundled_single plain.single, free,
    window, Option.isSome_none, Bool.not_true, Bool.false_eq_true, and_false, false_and, or_self, if_false]

/-- A read of a place that no live range covers answers poison, and is counted in HREF (R361). -/
theorem hostRead_uncovered (inside : off < 4 * dieBytes) (up : s.dev.inReset = false)
    (h : s.dev.hostMay s.drip (hostKey off) = false) :
    Yields (.hostAccess ⟨off, false, data⟩) s { s.dev with
      hostRead := ([], true), href := min (s.dev.href + 1) (2 ^ 64 - 1) } := by
  change execHostAccess _ s = _
  refine event_ok ?_
  simp only [Nat.not_le.mpr inside, up, h, Bool.not_false, Bool.false_eq_true, false_and, or_self, if_false, if_true]

end

/-! ### Permission leases (R124) -/

section
variable {s : State} {line : Nat} {p : Perm}

/-- A request to write back reaches every live holder of the line, and every slice of this module that holds it. -/
theorem writeBackRequest_asks {ask : Perm → Perm}
    (h : ask = fun p => if p.line = line ∧ p.live s.drip then { p with asked := true } else p) :
    Yields (.writeBackRequest line) s { s.dev with
      perms := s.dev.perms.map ask
      sliceLeases := s.dev.sliceLeases.map ask } := by
  subst h
  change execWriteBackRequest line s = _
  exact event_ok rfl

/-- Those of a line's live holders that have been asked. -/
theorem filter_held_asked (l : List Perm) (drip line : Nat) :
    (l.filter (fun p => p.line == line && p.live drip)).filter Perm.asked
      = l.filter (fun p => p.line == line && p.live drip && p.asked) := by
  rw [List.filter_filter]
  exact congrArg (l.filter ·) (funext fun p => Bool.and_comm _ _)

/-- The module once the live holders of a line, among those that are left, have another 1,024 drips. -/
def Dev.extendPerms (d : Dev) (drip line : Nat) : Dev :=
  { d with perms := d.perms.map (fun p => if p.line = line ∧ p.live drip then { p with expiry := drip + 1024 } else p) }

/-- Where no live holder has been asked and no slice holds the line, each live holder has another 1,024 drips. -/
theorem renewal_extends (hp : s.dev.perms.filter (fun p => p.line == line && p.live s.drip && p.asked) = [])
    (hs : s.dev.sliceLeases.filter (fun p => p.line == line && p.live s.drip) = []) :
    Yields (.permissionLeaseRenewal line) s (s.dev.extendPerms s.drip line) := by
  change execPermissionLeaseRenewal line s = _
  refine event_ok ?_
  simp only [filter_held_asked, hp, List.foldl_nil, hs]
  rfl

/-- The one live holder of a line, which has been asked, writes its bytes back and gives the line up. -/
theorem renewal_writesBack (hp : s.dev.perms.filter (fun q => q.line == p.line && q.live s.drip) = [p])
    (ha : p.asked = true) (hs : s.dev.sliceLeases.filter (fun q => q.line == p.line && q.live s.drip) = []) :
    Writes (.permissionLeaseRenewal p.line) s ((s.dev.writeBack p).1.extendPerms s.drip p.line) p.dirty := by
  have asked : [p].filter Perm.asked = [p] := List.filter_cons_of_pos ha
  have noSlice : (s.dev.writeBack p).1.sliceLeases.filter (fun q => q.line == p.line && q.live s.drip) = [] := hs
  change execPermissionLeaseRenewal p.line s = _
  refine run_eff ?_
  simp only [hp, asked, List.foldl_cons, List.foldl_nil, List.nil_append, noSlice]
  rfl

/-- A line that its one live holder has written back is held away by no one. -/
theorem writeBack_free {d : Dev} {drip : Nat} (hp : d.perms.filter (fun q => q.line == p.line && q.live drip) = [p])
    (store : Bool) : ((d.writeBack p).1.extendPerms drip p.line).heldAway drip p.line store = false := by
  refine List.any_eq_false.mpr fun q' hq' => ?_
  obtain ⟨q, hq, rfl⟩ := List.mem_map.mp hq'
  obtain ⟨mem, other⟩ := List.mem_filter.mp hq
  have dead : ¬ (q.line = p.line ∧ q.live drip = true) := by
    rintro ⟨hl, live⟩
    have held : q ∈ d.perms.filter (fun q => q.line == p.line && q.live drip) :=
      List.mem_filter.mpr ⟨mem, by simp [hl, live]⟩
    rw [hp, List.mem_singleton] at held
    simp [held] at other
  rw [if_neg dead]
  simp only [Bool.and_eq_true, decide_eq_true_eq, not_and]
  intro ⟨hl, live⟩
  exact absurd ⟨hl, decide_eq_true live⟩ dead

/-- Where no agent but a slice of this module holds a line, its renewal is that of the slice's lease. -/
theorem renewal_slice (hp : s.dev.perms.filter (fun q => q.line == p.line && q.live s.drip) = [])
    (hs : s.dev.sliceLeases.filter (fun q => q.line == p.line && q.live s.drip) = [p]) :
    Yields (.permissionLeaseRenewal p.line) s ((s.dev.extendPerms s.drip p.line).renewSlice s.drip p) := by
  change execPermissionLeaseRenewal p.line s = _
  refine event_ok ?_
  simp only [hp, List.filter_nil, List.foldl_nil, hs, List.foldl_cons]
  rfl

/-- A slice that has been asked, with no L1 copy left under its lease, no longer holds the line. -/
theorem renewSlice_gives {d : Dev} {drip : Nat} (ha : p.asked = true) (hl : d.leased drip p.line = false) :
    ∀ q ∈ (d.renewSlice drip p).sliceLeases, q.line ≠ p.line := by
  have gives : d.renewSlice drip p = d.sliceGives p.line := if_pos ⟨ha, by rw [hl]; rfl⟩
  rw [gives]
  intro q hq
  simpa using (List.mem_filter.mp hq).2

/-- A slice that has not been asked, and that a link reaches, has another 1,024 drips. -/
theorem renewSlice_extends {d : Dev} {drip : Nat} (ha : p.asked = false) (hc : d.cutOff p.line = false) :
    ∀ q ∈ (d.renewSlice drip p).sliceLeases, q.line = p.line → q.expiry = drip + 1024 := by
  have renews : d.renewSlice drip p = { d with sliceLeases := d.sliceLeases.map (fun (q : Perm) =>
      if q.line = p.line then { q with expiry := drip + 1024 } else q) } :=
    (if_neg (by simp [ha])).trans (if_neg (by simp [hc]))
  rw [renews]
  intro q' hq' hline
  obtain ⟨q, -, rfl⟩ := List.mem_map.mp hq'
  by_cases h : q.line = p.line
  · rw [if_pos h]
  · rw [if_neg h] at hline
    exact absurd hline h

/-- A recalled line is written back (R361). -/
theorem recall_writesBack (h : s.dev.hostPerm s.drip line = some p) :
    Writes (.backInvalidate line) s (({ s.dev with perms := s.dev.perms.filter (fun q =>
      !(q.line == p.line && q.agent == p.agent)) } : Dev).clearPoison p.dirty) p.dirty := by
  change execBackInvalidate line s = _
  refine run_eff ?_
  simp only [h]
  rfl

/-- A write lease that has lapsed leaves the line as last written back: what a slice wrote under it is undone, the
region's REV is set, and the log has a record (R124). -/
theorem lapse_reverts {gone mine : List Perm}
    (hg : s.dev.perms.filter (fun p => p.line == line && !p.live s.drip) = gone)
    (hm : s.dev.sliceLeases.filter (fun p => p.line == line && !p.live s.drip) = mine)
    (hw : (gone ++ mine).any Perm.write = true) {d : Dev}
    (hd : d = { s.dev with perms := s.dev.perms.filter (fun p => !(p.line == line && !p.live s.drip)) }) :
    Writes (.writeLeaseLapse line) s ((if mine = [] then d else d.sliceGives line).fileUnitLog
        (keyPhys line / 2 ^ 37 % 4) (s.dev.tenantAt line) Cause.regionReverted (wd64 (keyPhys line)))
      (mine.flatMap Perm.dirty ++ if 0xC0 < keyAp line then [] else [statusSet s.mem line 0]) := by
  have some' : ¬ (gone = [] ∧ mine = []) := by
    rintro ⟨rfl, rfl⟩
    simp at hw
  have tenant : (if mine = [] then d else d.sliceGives line).tenantAt line = s.dev.tenantAt line := by
    subst hd
    split <;> rfl
  change execWriteLeaseLapse line s = _
  refine run_eff ?_
  simp only [hg, hm, if_neg some', if_pos hw, ← hd]
  unfold Dev.reverted
  rw [tenant]

end

/-! ### Snoops of host memory (R366) -/

section
variable {s : State} {o : HostSnoopOp} {line : Nat} (hl : line = apKey 0xFE (keyPhys (lineOf o.line)))
  (up : s.dev.inReset = false)
include hl up

/-- A snoop for reading leaves the line clean at its slice. -/
theorem snoop_reads (h : o.inv = false) : Yields (.hostSnoop o) s { s.dev with
    hostLines := s.dev.hostLines.map (fun p => if p.1 = line then (p.1, false) else p)
    sliceLeases := s.dev.sliceLeases.map (fun (p : Perm) => if p.line = line then { p with dirty := [] } else p) } := by
  change execHostSnoop o s = _
  refine event_ok ?_
  simp only [up, h, ← hl, Bool.not_false, Bool.false_eq_true, if_false, if_true]

/-- A snoop for writing takes a line that nothing holds back, and the host writes its memory. -/
theorem snoop_takes (h : o.inv = true) (free : s.dev.unitMayWrite s.drip line = true) : Writes (.hostSnoop o) s
    ((s.dev.sliceGives line).snoopSets s.dev.nextTid line)
    ((o.data.filter (fun p => p.1 < 128)).map (fun p => (line + p.1, p.2))) := by
  change execHostSnoop o s = _
  refine run_eff ?_
  simp only [up, h, ← hl, free, Bool.not_true, Bool.false_eq_true, if_false]

end

/-- Settles O19: the host's accesses, how permission leases go on and end, and the host's snoops. -/
theorem hostTraffic : Obligations.HostTraffic := by
  unfold Obligations.HostTraffic
  refine ⟨fun s off data => hostRead_served, fun s off data => hostWrite_taken,
    fun s off data => hostRead_uncovered, fun s line => writeBackRequest_asks rfl,
    fun s line => renewal_extends,
    fun s p hp ha hs => ⟨_, renewal_writesBack hp ha hs, writeBack_free hp true⟩,
    fun s p hp hs => ⟨_, renewal_slice hp hs, renewSlice_gives (d := s.dev.extendPerms s.drip p.line),
      renewSlice_extends (d := s.dev.extendPerms s.drip p.line)⟩,
    fun s line p => recall_writesBack, fun s line hw => lapse_reverts rfl rfl hw rfl,
    fun s o line hl up => ⟨snoop_reads hl up, snoop_takes hl up⟩⟩

end Sys2Proof.Machine
end

section
/-!
PROOFS. Leases at their homes: renewal, inquiry, tethers, consultations, suspension, and what a lapse does.
-/
namespace Sys2Proof.Machine
open Sys2Proof

/-! ### Roots (R109) -/

/-- The root of a chain is tethered to nothing. -/
theorem Dev.rootN_parent {d : Dev} {r : Lease} : ∀ {n : Nat} {l : Lease}, d.rootN n l = some r → r.parent = none
  | 0, _, h => nomatch h
  | n + 1, l, h => by
    unfold Dev.rootN at h
    split at h
    · next hp =>
      cases h
      exact hp
    · split at h
      · split at h
        · exact Dev.rootN_parent h
        · cases h
      · cases h

/-- A lease that is tethered to nothing is its own root. -/
theorem Dev.root_self {d : Dev} {l : Lease} (h : l.parent = none) : d.root l = some l := by
  unfold Dev.root Dev.rootN
  rw [h]

/-- The effective expiry of a root that is no array grant is its own. -/
theorem Dev.expiry_root {d : Dev} {r : Lease} (h : r.parent = none) (hp : ∀ c, r.payload ≠ .array c) :
    d.expiry r = r.expiry := by
  have noRun : d.runEnd r = none := by
    unfold Dev.runEnd
    split
    · next c hc => exact absurd hc (hp c)
    · rfl
  unfold Dev.expiry
  simp only [Dev.root_self h, noRun, Option.getD_none, Nat.min_self]

/-- A live root that is no array grant is renewed to the end of the new duration, and never back (R108, R109). -/
theorem Dev.renewRoot_live {d : Dev} {drip n : Nat} {l r : Lease} (hr : d.root l = some r)
    (hl : d.lapsed drip r = false) (hp : ∀ c, r.payload ≠ .array c) {e : Nat}
    (he : e = max r.expiry (d.clock drip r.agent.mod + n)) :
    d.renewRoot drip l n = ((d.setExpiry r e).spreadExpiry r e, .ok (wd64 e)) := by
  subst he
  have root : r.parent = none := Dev.rootN_parent hr
  have expiry (e : Nat) : (d.setExpiry r e).expiry { r with expiry := e } = e := Dev.expiry_root root hp
  unfold Dev.renewRoot
  simp only [hr, hl, expiry, Bool.false_eq_true, if_false]

/-! ### Renewal and inquiry (R108, R136, R138) -/

section
variable {s : State} {d : Dev} {m : Nat} {src : From} {h : Word} {l r : Lease}

/-- A renewal of a lease whose root is live moves the root's expiry, and answers it. -/
theorem renewal_answers {n e : Nat} (ha : s.asks m src (.renew h n) d) (hn : d.named src h = .ok l)
    (ho : d.handsOn s.drip l = false) (hh : l.holder = some src.ctx) (hr : d.root l = some r)
    (hl : d.lapsed s.drip r = false) (hown : l.parent.isSome = true ∨ d.lapsed s.drip l = false)
    (hp : ∀ c, r.payload ≠ .array c) (he : e = max r.expiry (d.clock s.drip r.agent.mod + n)) :
    Yields (.renewalArrival m) s (((d.setExpiry r e).spreadExpiry r e).reply src (wd64 e)) := by
  have own : (l.parent.isNone && d.lapsed s.drip l) = false := by
    rcases hown with h | h
    · rw [Option.isNone_eq_false_iff.mpr h, Bool.false_and]
    · rw [h, Bool.and_false]
  change execRenewalArrival m s = _
  refine onReq_dev ha ?_
  simp only [hn, ho, own, hh, Dev.renewRoot_live hr hl hp he, Bool.false_eq_true, ne_eq, not_true_eq_false, if_false]
  rfl

/-- A life inquiry of a live lease answers the life left, by the root's clock. -/
theorem life_answers (ha : s.asks m src (.life h) d) (hn : d.named src h = .ok l) (hr : d.root l = some r)
    (ho : d.handsOn s.drip l = false) (hh : l.holder = some src.ctx)
    (hl : d.lapsedAt l (d.clock s.drip r.agent.mod) = false) :
    Yields (.lifeInquiryArrival m) s (d.reply src (wd64 (d.expiry l - d.clock s.drip r.agent.mod))) := by
  change execLifeInquiryArrival m s = _
  refine onReq_dev ha ?_
  simp only [hn, hr, ho, hl, hh, Bool.false_eq_true, ne_eq, not_true_eq_false, if_false]
  rfl

/-- LINFO of a lease's record answers what Table 7-4 says of it. -/
theorem info_record (ha : s.asks m src (.info h true) d) (hn : d.named src h = .ok l) (hh : l.holder = some src.ctx) :
    Yields (.infoArrival m) s (d.reply src (d.infoWord s.drip l)) := by
  change execInfoArrival m s = _
  refine onReq_dev ha ?_
  simp only [hn, hh, ne_eq, not_true_eq_false, if_false, if_true]
  rfl

/-- LINFO of an agent number answers its entry of the map, 0 where it has none. -/
theorem info_entry (ha : s.asks m src (.info h false) d) : Yields (.infoArrival m) s (d.reply src
    (((look [] (mapNo src.tenant src.ctx) d.maps)[hAgent h]?.map (fun e => wd64 e.word)).getD 0)) := by
  change execInfoArrival m s = _
  refine onReq_dev ha ?_
  cases he : (look [] (mapNo src.tenant src.ctx) d.maps)[hAgent h]? <;>
    simp only [he, Bool.false_eq_true, if_false] <;> rfl

/-! ### Tethers (R110, R137) -/

/-- The home of a lease that is tethered to nothing asks the home of the parent. -/
theorem tether_asks {re : Nat} {p : Word} (ha : s.asks m src (.tether h p 1 re) d)
    (hj : d.judged s.drip src h = .ok l) (hp : l.parent = none) :
    Yields (.tetherArrival m) s (d.send (.req src (.tether h p 2 0))) := by
  change execTetherArrival m s = _
  refine onReq_dev ha ?_
  simp only [hj, hp, Option.isSome_none, Bool.false_eq_true, if_false]

/-- The parent's home passes a chain of at most four links that does not end in the lease itself. -/
theorem tether_passes {re : Nat} {p : Word} {pl : Lease} (ha : s.asks m src (.tether h p 2 re) d)
    (hj : d.judged s.drip src p = .ok pl) (hn : d.named src h = .ok l) (hr : d.root pl = some r)
    (depth : d.links pl + 1 + d.height l ≤ 4) (apart : r.agent ≠ l.agent ∨ r.index ≠ l.index) :
    Yields (.tetherArrival m) s (d.send (.req src (.tether h p 3 r.expiry))) := by
  have open' : ¬ (4 < d.links pl + 1 + d.height l ∨ (r.agent = l.agent ∧ r.index = l.index)) := by
    rintro (deep | ⟨agent, index⟩)
    · exact Nat.not_lt.mpr depth deep
    · exact apart.elim (absurd agent) (absurd index)
  change execTetherArrival m s = _
  refine onReq_dev ha ?_
  simp only [hj, hn, hr, open', if_false]

/-- The lease takes its parent, whose root outlasts it. -/
theorem tether_takes {re : Nat} {p : Word} {a : AgentId} (ha : s.asks m src (.tether h p 3 re) d)
    (hn : d.named src h = .ok l) (hg : d.agentOf src.tenant src.ctx (hAgent p) = some a)
    (hl : d.lapsed s.drip l = false) (hp : l.parent = none) (he : d.expiry l ≤ re) :
    Yields (.tetherArrival m) s
      ((d.setLease { l with parent := some (a, hIndex p, hGen p) }).reply src (wd64 re)) := by
  change execTetherArrival m s = _
  refine onReq_dev ha ?_
  simp only [hn, hg, hl, hp, Nat.not_lt.mpr he, Option.isSome_none, Bool.false_eq_true, or_self, if_false]

end

/-! ### Consultations and copies (R112) -/

section
variable {s : State} {m ix g : Nat} {ag : AgentId} {l : Lease}

/-- The home of a root answers by its expiry. -/
theorem consult_answered {q t : Nat} {home : AgentId} (h : s.carries m (.consult q home ag ix g t))
    (hl : s.dev.lease ag ix = some l) (hg : l.gen = g) : Yields (.rootConsultation m) s
      ((s.dev.drop m).send (.answer q home ag ix g (s.dev.lapsedBy l t) (s.dev.expiry l))) := by
  have h : s.dev.msg m = some (.consult q home ag ix g t) := h
  have hl : (s.dev.drop m).lease ag ix = some l := hl
  change execRootConsultation m s = _
  refine event_ok ?_
  simp only [h, hl, hg, if_true]
  rfl

/-- The operation that waits for the answer goes on by it, and the home keeps a copy. -/
theorem answer_resumes {q e : Nat} {home : AgentId} {lapsed : Bool} {a : Acc} {d : Dev}
    (h : s.carries m (.answer q home ag ix g lapsed e))
    (hd : d = (s.dev.drop m).setGuard ⟨home, ag, ix, g, if lapsed then none else some e⟩) (hq : d.msg q = some (.acc a))
    (hw : a.st = .waiting) : Yields (.consultationAnswer m) s (d.resumeAcc s.drip q a (ag, ix, g) lapsed) := by
  have h : s.dev.msg m = some (.answer q home ag ix g lapsed e) := h
  change execConsultationAnswer m s = _
  refine event_ok ?_
  simp only [h, ← hd, hq, hw, if_true]

/-- A copy that is held is replaced, unless a lapse is known. -/
theorem copy_updated {c x : GuardCopy} (h : s.carries m (.guard c)) (hx : s.dev.guards.find? (fun x =>
      x.home = c.home && x.agent = c.agent && x.index = c.index && x.gen = c.gen) = some x) :
    Yields (.guardCopyUpdate m) s (if x.expiry.isNone then s.dev.drop m else { s.dev.drop m with
      guards := c :: s.dev.guards.filter (fun x =>
        !(x.home = c.home && x.agent = c.agent && x.index = c.index && x.gen = c.gen)) }) := by
  have h : s.dev.msg m = some (.guard c) := h
  have same := List.find?_some hx
  have held : s.dev.guards.any (fun x =>
      x.home = c.home && x.agent = c.agent && x.index = c.index && x.gen = c.gen) = true :=
    List.any_eq_true.mpr ⟨x, List.mem_of_find?_eq_some hx, same⟩
  change execGuardCopyUpdate m s = _
  refine event_ok ?_
  simp only [h, Dev.drop_guards, held, if_true]
  unfold Dev.setGuard
  simp only [Dev.drop_guards, hx]

/-! ### Suspension and lapse (R116, R126) -/

/-- A live lease that is suspended until later is extended. -/
theorem suspend_extends {e : Nat} (h : s.carries m (.suspend ag ix g e)) (hl : s.dev.lease ag ix = some l)
    (hg : l.gen = g) (live : s.dev.lapsed s.drip l = false) (he : l.expiry < e) :
    Yields (.suspendMessage m) s
      (((s.dev.drop m).setExpiry l e).spreadExpiry l ((s.dev.drop m).expiry { l with expiry := e })) := by
  have h : s.dev.msg m = some (.suspend ag ix g e) := h
  have hl : (s.dev.drop m).lease ag ix = some l := hl
  have live : (s.dev.drop m).lapsed s.drip l = false := live
  change execSuspendMessage m s = _
  refine event_ok ?_
  simp only [h, hl, hg, live, Nat.not_le.mpr he, ne_eq, not_true_eq_false, Bool.false_eq_true, or_self, if_false]

/-- A lease that has lapsed is dead, and what it guards takes its fate. -/
theorem lease_lapses (hl : s.dev.lease ag ix = some l) (hd : l.dead = false) (h : s.dev.lapsed s.drip l = true) :
    Yields (.leaseExpiry ag ix) s (s.dev.expire s.drip l) := by
  change execLeaseExpiry ag ix s = _
  refine event_ok ?_
  simp only [hl, hd, h, Bool.not_true, Bool.or_self, Bool.false_eq_true, if_false]

end

section
variable (d : Dev) (drip : Nat) {l : Lease}

/-- A lock without a waiter is free. -/
theorem Dev.expire_lock {w : Nat} (h : l.payload = .lock w []) :
    d.expire drip l = d.setLease { l with dead := true } := by
  simp only [Dev.expire, h, Dev.handOver]

/-- A barrier's waits fault. -/
theorem Dev.expire_barrier {b : Barrier} (h : l.payload = .barrier b) : d.expire drip l = (d.setLease { l with
    dead := true, payload := .barrier { b with waits := [] } }).faultWaits b.waits := by
  simp only [Dev.expire, h]

/-- A frontier's launch fails. -/
theorem Dev.expire_frontier {n : Nat} (h : l.payload = .frontier n) :
    d.expire drip l = (d.setLease { l with dead := true }).failLaunch n Cause.leaseLapsed 0 := by
  simp only [Dev.expire, h]

/-- An anchor signals its tenant's vector. -/
theorem Dev.expire_anchor {t w p : Nat} (h : l.payload = .anchor t w p) :
    d.expire drip l = (d.setLease { l with dead := true }).signal (4 * t + 3) := by
  simp only [Dev.expire, h]

end

/-- Settles O20: each request at its home, the root's answers and copies, suspension, and the fate of what a lease
guards. -/
theorem leasesAtHome : Obligations.LeasesAtHome := by
  unfold Obligations.LeasesAtHome
  refine ⟨fun s d m n src h l r ha hn ho hh hr hl hown hp => renewal_answers ha hn ho hh hr hl hown hp rfl,
    fun s d m src h l r ha hn hr ho hh hl => life_answers ha hn hr ho hh hl,
    fun s d m re src h p l pl r a => ⟨tether_asks, tether_passes, tether_takes⟩,
    fun s d m src h l => info_record, fun s d m src h => info_entry,
    fun s m q ix g t home ag l => consult_answered,
    fun s m q ix g e home ag lapsed a d => answer_resumes,
    fun s m c x h hx => ?_, fun s m ix g e ag l => suspend_extends, fun s ag ix l hl hd h => ?_⟩
  · have updated := copy_updated h hx
    refine ⟨fun hn => ?_, fun hs => ?_⟩
    · rwa [hn] at updated
    · rwa [if_neg (by simpa using hs)] at updated
  · have lapses := lease_lapses hl hd h
    exact ⟨lapses, fun w hp => Dev.expire_lock _ _ hp ▸ lapses, fun b hp => Dev.expire_barrier _ _ hp ▸ lapses,
      fun n hp => Dev.expire_frontier _ _ hp ▸ lapses, fun t w p hp => Dev.expire_anchor _ _ hp ▸ lapses⟩

end Sys2Proof.Machine
end

section
/-!
PROOFS. ALLOC at its record's home: what it grants, keeps and refuses.
-/
namespace Sys2Proof.Machine
open Sys2Proof

/-! ### What an ALLOC comes to (R150) -/

/-- A request with a duration of its own, within its tenant's quota, is granted the place picked for it. -/
theorem Dev.tryAlloc_granted {d e : Dev} {drip : Nat} {mem : Memory} {rec p n : Nat} {src : From} {req dur h : Word}
    (hn : duration dur.toNat = some n) (hd : dur ≠ 0) (quota : d.overQuota drip src.tenant (2 ^ bits req 0 6) = false)
    (hp : d.pickPlace drip (2 ^ bits req 0 6) (d.placement req (coreDie src.core)).1
      (d.placement req (coreDie src.core)).2 = some p)
    (hg : d.grantRange drip src p (2 ^ bits req 0 6) (some n) (d.ctxLease drip src.ctx) = (e, some h)) :
    d.tryAlloc drip mem src rec req dur = some (e.allocReply drip mem src rec 0 h (mapBase p)) := by
  have mayTry : ¬ ((dur = 0 ∧ (d.ctxLease drip src.ctx).isNone = true) ∨
      d.overQuota drip src.tenant (2 ^ bits req 0 6) = true) := by
    rw [quota]
    rintro (⟨h0, -⟩ | h)
    · exact hd h0
    · cases h
  unfold Dev.tryAlloc
  simp only [mayTry, hp, hn, hg, if_false]

/-- What an ALLOC whose record has been read comes to: granted, kept to its deadline, or over with its cause. -/
def Dev.allocJudged (d : Dev) (drip : Nat) (mem : Memory) (m : Nat) (src : From) (rec : Nat) (va : Word)
    (w : Nat → Word) : Dev × List (Nat × Byte) :=
  if d.allocOk drip src (w 0) (w 2) = false then d.allocReply drip mem src rec Cause.allocExhausted 0 0
  else match d.tryAlloc drip mem src rec (w 0) (w 2) with
  | some r => r
  | none =>
    if bit (w 0) 6 = true ∧ drip < (w 1).toNat then
      ({ d with allocs := d.allocs ++ [⟨m, src, rec, va, w 0, w 2, (w 1).toNat⟩] }, [])
    else d.allocReply drip mem src rec (d.allocCause drip src (w 0)) 0 0

/-! ### Its arrival -/

/-- An ALLOC whose record may be read and written has come, and `d` is the module with it taken out (R150); `w` are
the record's words. -/
structure State.allocComes (s : State) (d : Dev) (m rec : Nat) (src : From) (va : Word) (w : Nat → Word) : Prop where
  asks : s.asks m src (.alloc rec va) d
  linked : d.cutOff (lineOf rec) = false
  inUse : d.outOfUse (d.homeOf (coreDie src.core) (lineOf rec)) = false
  guarded : d.judgeRange s.drip src.ctx rec = none
  exact' : d.isExact (lineOf rec) = false
  free : d.unitMayWrite s.drip (lineOf rec) = true
  plain : d.plainLine (lineOf rec)
  sound : d.poisoned rec = false
  words : ∀ k, w k = wd64 (gather (d.unitByte s.drip s.mem) ((List.range 8).map (rec + 8 * k + ·)))

/-- Such an ALLOC is judged by the words of its record. -/
theorem alloc_judged {s : State} {d : Dev} {m rec : Nat} {src : From} {va : Word} {w : Nat → Word}
    (h : s.allocComes d m rec src va w) : Writes (.allocRequestArrival m) s
      (d.allocJudged s.drip s.mem m src rec va w).1 (d.allocJudged s.drip s.mem m src rec va w).2 := by
  obtain ⟨asks, linked, inUse, guarded, exact', free, plain, sound, words⟩ := h
  change execAllocRequestArrival m s = _
  refine onReq_ok asks ?_
  simp only [linked, inUse, guarded, exact', free, plain.scrub, sound, ← words, Bool.not_true, Bool.false_eq_true,
    if_false, List.nil_append]
  unfold Dev.allocJudged
  cases d.allocOk s.drip src (w 0) (w 2) with
  | false => rfl
  | true =>
    cases d.tryAlloc s.drip s.mem src rec (w 0) (w 2) with
    | some r => rfl
    | none => exact (apply_ite some _ _ _).symm

section
variable {d : Dev} {drip : Nat} {mem : Memory} {m rec : Nat} {src : From} {va : Word} {w : Nat → Word}

/-- One outside the limits of Table 7-8 fails at once. -/
theorem allocJudged_outside (limits : d.allocOk drip src (w 0) (w 2) = false) :
    d.allocJudged drip mem m src rec va w = d.allocReply drip mem src rec Cause.allocExhausted 0 0 := if_pos limits

variable (limits : d.allocOk drip src (w 0) (w 2) = true)
include limits

/-- One within the limits that can be met is granted. -/
theorem allocJudged_met {r : Dev × List (Nat × Byte)} (met : d.tryAlloc drip mem src rec (w 0) (w 2) = some r) :
    d.allocJudged drip mem m src rec va w = r := by
  simp only [Dev.allocJudged, limits, met, Bool.true_eq_false, if_false]

variable (unmet : d.tryAlloc drip mem src rec (w 0) (w 2) = none)
include unmet

/-- One that cannot be met now, and asks to be kept, is kept to a deadline that is still to come (R128). -/
theorem allocJudged_kept (keep : bit (w 0) 6 = true) (due : drip < (w 1).toNat) :
    d.allocJudged drip mem m src rec va w
      = ({ d with allocs := d.allocs ++ [⟨m, src, rec, va, w 0, w 2, (w 1).toNat⟩] }, []) := by
  simp only [Dev.allocJudged, limits, unmet, keep, due, Bool.true_eq_false, and_self, if_false, if_true]

/-- One that does not ask, or whose deadline has come, fails at once. -/
theorem allocJudged_late (late : bit (w 0) 6 = false ∨ (w 1).toNat ≤ drip) :
    d.allocJudged drip mem m src rec va w
      = d.allocReply drip mem src rec (d.allocCause drip src (w 0)) 0 0 := by
  have notKept : ¬ (bit (w 0) 6 = true ∧ drip < (w 1).toNat) := by
    rintro ⟨keep, due⟩
    rcases late with h | h
    · exact Bool.false_ne_true (h.symm.trans keep)
    · exact Nat.not_lt.mpr h due
  simp only [Dev.allocJudged, limits, unmet, notKept, Bool.true_eq_false, if_false]

end

/-! ### Kept requests (R128) -/

section
variable {s : State} {m : Nat} {w : AllocWait}

/-- The earliest kept request that can be met is granted, before its deadline. -/
theorem kept_granted {r : Dev × List (Nat × Byte)}
    (first : s.dev.allocs.find? (fun w => (s.dev.tryAlloc s.drip s.mem w.src w.record w.req w.dur).isSome) = some w)
    (hm : w.id = m) (due : s.drip < w.deadline) (free : s.dev.unitMayWrite s.drip (lineOf w.record) = true)
    (met : s.dev.tryAlloc s.drip s.mem w.src w.record w.req w.dur = some r) :
    Writes (.allocGrant m) s { r.1 with allocs := r.1.allocs.filter (fun x => x.id != m) } r.2 := by
  change execAllocGrant m s = _
  refine run_eff ?_
  simp only [first, hm, Nat.not_le.mpr due, free, met, ne_eq, not_true_eq_false, Bool.not_true, Bool.false_eq_true,
    or_self, if_false]

/-- A kept request fails at its deadline. -/
theorem kept_fails (kept : s.dev.allocs.find? (fun w => w.id = m) = some w) (due : w.deadline ≤ s.drip)
    (free : s.dev.unitMayWrite s.drip (lineOf w.record) = true) {d : Dev}
    (hd : d = { s.dev with allocs := s.dev.allocs.filter (fun x => x.id != m) }) :
    Writes (.allocDeadline m) s (d.allocReply s.drip s.mem w.src w.record Cause.allocDeadline 0 0).1
      (d.allocReply s.drip s.mem w.src w.record Cause.allocDeadline 0 0).2 := by
  subst hd
  change execAllocDeadline m s = _
  refine run_eff ?_
  simp only [kept, due, free, decide_true, Bool.and_self, if_true]

end

/-- Settles O25: an arrival by the limits and by whether it can be met, the grant, and the kept requests. -/
theorem allocation : Obligations.Allocation := by
  unfold Obligations.Allocation
  refine ⟨fun s d m rec src va w asks linked inUse guarded exact' free plain sound words => ?_,
    fun d e drip mem rec p n src req dur h hn hd quota hp hg => Dev.tryAlloc_granted hn hd quota hp hg,
    fun s m w r => kept_granted, fun s m w kept due free => kept_fails kept due free rfl⟩
  have judged := alloc_judged (s := s) ⟨asks, linked, inUse, guarded, exact', free, plain, sound, words⟩
  refine ⟨fun limits => ?_, fun limits => ⟨fun r met => ?_, fun unmet => ⟨fun keep due => ?_, fun late => ?_⟩⟩⟩
  · rwa [allocJudged_outside limits] at judged
  · rwa [allocJudged_met limits met] at judged
  · rwa [allocJudged_kept limits unmet keep due] at judged
  · rwa [allocJudged_late limits unmet late] at judged

end Sys2Proof.Machine
end

section
/-!
PROOFS. The command unit: stores to the keepalive word, and the slots of a command window.
-/
namespace Sys2Proof.Machine
open Sys2Proof

/-! ### Keepalives (R111, R365) -/

section
variable {s : State} {base t p : Nat} {x : Msg} {l : Lease} (anchor : s.dev.anchorAt base = some (l, t, base))
  (period : l.payload = .anchor t base p) (store : s.unitStoreDue base x)
include anchor period store

/-- A store to the keepalive word of a live anchor renews it by its period, and is not stored. -/
theorem keepalive_renews (live : s.dev.lapsed s.drip l = false) {n : Nat}
    (hn : n = max l.expiry (s.dev.clock s.drip l.agent.mod + (duration p).getD 0)) :
    Yields (.keepalive base) s
      (((s.dev.drop x.id).setLease { l with expiry := n }).spreadExpiry { l with expiry := n } n) := by
  have store : s.dev.msgs.find? (fun m => s.dev.storesAt s.drip base m) = some x := store
  have live : (s.dev.drop x.id).lapsed s.drip l = false := live
  subst hn
  change execKeepalive base s = _
  refine event_ok ?_
  simp only [anchor, beq_self_eq_true, Bool.true_and, store, period, live, Bool.false_eq_true, if_false]
  rfl

/-- One of an anchor that has lapsed is dropped. -/
theorem keepalive_dropped (lapsed : s.dev.lapsed s.drip l = true) :
    Yields (.keepalive base) s (s.dev.drop x.id) := by
  have store : s.dev.msgs.find? (fun m => s.dev.storesAt s.drip base m) = some x := store
  have lapsed : (s.dev.drop x.id).lapsed s.drip l = true := lapsed
  change execKeepalive base s = _
  refine event_ok ?_
  simp only [anchor, beq_self_eq_true, Bool.true_and, store, period, lapsed, if_true]

end

/-! ### Armed slots (R316, R331, R365) -/

section
variable {s : State} {addr t c : Nat} {v : Word} {e : Dev} (h : s.slotArmed addr [1, 2] false t v c e)
include h

section
variable {r : List Word} (hr : r = dwords 16 (s.mem.readN (lineOf addr) 128)) (launch : bits v 56 8 = 1)
  {hs : List Nat} (header : s.dev.reach s.drip s.mem c .read (span (r.getD 0 0 - 66) 64) = .ok hs) {l : Launch}
  (hl : l = mkLaunch s.dev.nextLaunch c t r (dwords 8 (gather (s.dev.unitByte s.drip s.mem) hs)) (bit v 55))
include hr launch header hl

/-- A launch that is accepted runs. -/
theorem arm_launch_accepted {d : Dev} {w : Word} (judged : e.judgeLaunch s.drip s.mem l = .accept d w) :
    Yields (.arm addr) s d := by
  obtain ⟨⟨a, armed, live⟩, good, free, sound, context, cleared⟩ := h
  subst hr hl cleared
  change execArm addr s = _
  refine event_ok ?_
  simp only [armed, free, live, good, sound, context, launch, header, judged, Bool.not_true, Bool.false_eq_true,
    or_self, if_false, if_true]

/-- The refusal of a launch is written to its completion record. -/
theorem arm_launch_refused {n : Nat} {d : Dev} {w : List (Nat × Byte)}
    (judged : e.judgeLaunch s.drip s.mem l = .refuse n)
    (record : e.armRefuse s.drip s.mem ⟨0, 0, c, t, 0, 0⟩ (r.getD 9 0) Cause.launchRefused n (bit v 55) []
      = .ok (d, w)) :
    Writes (.arm addr) s d w := by
  obtain ⟨⟨a, armed, live⟩, good, free, sound, context, cleared⟩ := h
  subst hr hl cleared
  change execArm addr s = _
  refine run_eff ?_
  simp only [armed, free, live, good, sound, context, launch, header, judged, record, Bool.not_true,
    Bool.false_eq_true, or_self, if_false, if_true]
  rfl

end

/-- An active message whose core can judge it starts its thread. -/
theorem arm_message_starts {r : List Word} (hr : r = dwords 16 (s.mem.readN (lineOf addr) 128))
    (message : bits v 56 8 = 2) (target : targetOk (r.getD 0 0) = true) (rest : ∀ k < 10, r.getD (5 + k) 0 = 0)
    (core : s.dev.fencedCore (targetCore (r.getD 0 0)) = false)
    (turn : (s.dev.takers s.drip s.mem (coreClus (targetCore (r.getD 0 0)))).isEmpty = true)
    (up : s.dev.haltedAt s.drip s.mem (coreClus (targetCore (r.getD 0 0))) = false)
    {d : Dev} {w : List (Nat × Byte)} {n : Nat}
    (starts : e.startThread s.drip s.mem t c (r.getD 0 0) (r.getD 1 0) (r.getD 2 0) (r.getD 3 0)
      (some (r.getD 4 0, bit v 55)) = .ok d w n) : Writes (.arm addr) s d w := by
  obtain ⟨⟨a, armed, live⟩, good, free, sound, context, cleared⟩ := h
  have notLaunch : ¬ (2 = 1) := by decide
  have zeros : (List.range 10).any (fun k => r.getD (5 + k) 0 != 0) = false :=
    List.any_eq_false.mpr fun k hk => by rw [rest k (List.mem_range.mp hk)]; decide
  subst hr cleared
  change execArm addr s = _
  refine run_eff ?_
  simp only [armed, free, live, good, sound, context, message, target, zeros, core, turn, up, starts, Bool.not_true,
    Bool.false_eq_true, or_self, if_false, notLaunch]

end

/-- Settles O44: keepalives of live and lapsed anchors, armed launches, and armed active messages. -/
theorem windowsAct : Obligations.WindowsAct := by
  unfold Obligations.WindowsAct
  exact ⟨fun s base t p x l anchor period store =>
      ⟨fun live => keepalive_renews anchor period store live rfl, keepalive_dropped anchor period store⟩,
    fun s addr t c v e hs h launch header =>
      ⟨fun d w => arm_launch_accepted h rfl launch header rfl,
        fun n d w => arm_launch_refused h rfl launch header rfl⟩,
    fun s addr t c v e d w n h message target rest core turn up =>
      arm_message_starts h rfl message target rest core turn up⟩

end Sys2Proof.Machine
end

section
/-!
PROOFS. The domain's members: links and agents that fail, agents that come back, the clocks, and the join.
-/
namespace Sys2Proof.Machine
open Sys2Proof

/-! ### Agents that fail (R125, R369) -/

section
variable (d : Dev)

/-- What is retired has RET in every map. -/
theorem Dev.retireAgents_ret (f : AgentId → Bool) :
    ∀ p ∈ (d.retireAgents f).maps, ∀ e ∈ p.2, f e.agent = true → e.ret = true := by
  intro p' hp' e' he' hf
  obtain ⟨p, -, rfl⟩ := List.mem_map.mp hp'
  obtain ⟨e, -, rfl⟩ := List.mem_map.mp he'
  by_cases h : f e.agent = true
  · rw [if_pos h]
  · rw [if_neg h] at hf
    exact absurd hf h

/-- The agents out of use are those that were, and those that have failed. -/
theorem Dev.failAgents_outOfUse (drip : Nat) (l : List AgentId) (a : AgentId) :
    (d.failAgents drip l).outOfUse a = true ↔ d.outOfUse a = true ∨ a ∈ l := by
  change (d.quarantine ++ l.map (fun a => (a, drip))).any (fun p => p.1 = a) = true ↔ _
  rw [List.any_append, Bool.or_eq_true, List.any_map]
  exact or_congr Iff.rfl (by simp)

/-- The agent of a lease that a test picks is out of use, or among those picked. -/
theorem Dev.mem_agentsBy {f : AgentId → Bool} {l : Lease} (hl : l ∈ d.leases) (hf : f l.agent = true) :
    d.outOfUse l.agent = true ∨ l.agent ∈ d.agentsBy f := by
  cases hu : d.outOfUse l.agent with
  | true => exact .inl rfl
  | false =>
    refine .inr (List.mem_filter.mpr ⟨List.mem_eraseDups.mpr (List.mem_append_right _ (List.mem_map_of_mem hl)), ?_⟩)
    rw [hf, hu]
    rfl

end

section
variable {s : State}

/-- A link that fails is noted (R369). -/
theorem link_noted {k : Nat} (hk : k ≠ s.dev.modNo) (h : s.dev.cut.any (fun p => p.1 = k) = false) :
    Yields (.linkFailure k) s { s.dev with cut := s.dev.cut ++ [(k, s.drip)] } := by
  change execLinkFailure k s = _
  refine event_ok ?_
  simp only [hk, h, Bool.false_eq_true, or_self, if_false]

/-- The module once another has been declared failed (R369): its agents have failed, their map entries are retired, and
it is no member. -/
def Dev.withoutModule (d : Dev) (drip k : Nat) : Dev :=
  { (d.failAgents drip (d.agentsBy (fun a => a.mod = k))).retireAgents (fun (a : AgentId) => a.mod = k) with
    members := d.members.filter (· != k) }

/-- A module cut off for 65,536 drips is declared failed. -/
theorem module_fails {k : Nat} (h : s.dev.cut.any (fun p => p.1 = k && p.2 + 65536 ≤ s.drip) = true) :
    Yields (.moduleFailed k) s (s.dev.withoutModule s.drip k) := by
  change execModuleFailed k s = _
  exact event_ok (if_pos h)

/-- The agents of a module that has failed are out of use. -/
theorem Dev.withoutModule_outOfUse (d : Dev) (drip k : Nat) {l : Lease} (hl : l ∈ d.leases) (hk : l.agent.mod = k) :
    (d.withoutModule drip k).outOfUse l.agent = true := by
  change (d.failAgents drip (d.agentsBy (fun a => a.mod = k))).outOfUse l.agent = true
  exact (d.failAgents_outOfUse drip _ _).mpr (d.mem_agentsBy hl (decide_eq_true hk))

/-- Their map entries are retired. -/
theorem Dev.withoutModule_ret (d : Dev) (drip k : Nat) :
    ∀ p ∈ (d.withoutModule drip k).maps, ∀ e ∈ p.2, e.agent.mod = k → e.ret = true :=
  fun p hp e he hk => (d.failAgents drip (d.agentsBy (fun a => a.mod = k))).retireAgents_ret (fun a => a.mod = k)
    p hp e he (decide_eq_true hk)

/-- An agent that fails is in quarantine from then on (R125). -/
theorem agent_fails {a : AgentId} (h : s.dev.outOfUse a = false) :
    Yields (.agentFailure a) s (s.dev.failAgents s.drip [a]) := by
  change execAgentFailure a s = _
  refine event_ok ?_
  simp only [h, Bool.false_eq_true, if_false]

/-- After one longest lease it comes back under the next incarnation (R125). -/
theorem agent_rejoins {a : AgentId}
    (h : s.dev.quarantine.any (fun p => p.1 = a && p.2 + Config.longest ≤ s.drip) = true) :
    Yields (.agentRejoin a) s { s.dev with
      quarantine := s.dev.quarantine.filter (fun p => p.1 != a)
      incs := (a, s.dev.inc a + 1) :: s.dev.incs.filter (fun p => p.1 != a) } := by
  change execAgentRejoin a s = _
  exact event_ok (if_pos h)

/-! ### Time (R102, R370) -/

/-- What a time unit measured of another member: its clock is trimmed to that where every two members stay within ε;
else the member leaves the domain, or this module does, where the other is the root. -/
theorem time_measured {k : Nat} {x : Int} (hk : k ≠ s.dev.modNo) (hm : s.dev.members.contains k = true) :
    Yields (.timeSync k x) s (if s.dev.clocksNear k x then { s.dev with trims := put k x s.dev.trims }
      else if k = s.dev.timeRoot then ({ s.dev with members := [s.dev.modNo] } : Dev).signal 1026
      else { s.dev with members := s.dev.members.filter (· != k) }) := by
  change execTimeSync k x s = _
  refine event_ok ?_
  simp only [hk, hm, Bool.not_true, Bool.false_eq_true, or_self, if_false]
  split
  · rfl
  · split <;> rfl

/-- A join sets the count, once, before the first admission or grant (R102). -/
theorem domain_joined {o : JoinOp} (fresh : s.dev.started = false) (first : s.dev.joined = false)
    (self : o.members.contains o.modNo = true) (small : o.members.all (· < 192) = true) (count : o.count < 2 ^ 64) :
    exec (.domainJoin o) s = .next { s with
      drip := o.count
      dev := { s.dev with
        modNo := o.modNo
        members := o.members
        joined := true } } := by
  change execDomainJoin o s = _
  unfold execDomainJoin
  simp only [fresh, first, self, small, Nat.not_le.mpr count, Bool.not_true, Bool.false_eq_true, or_self, if_false]

end

/-- Settles O47: links, modules and agents that fail, agents that come back, the clocks, and the join. -/
theorem membersComeAndGo : Obligations.MembersComeAndGo := by
  unfold Obligations.MembersComeAndGo
  refine ⟨fun s k => link_noted,
    fun s k h => ⟨_, module_fails h, rfl, Dev.withoutModule_ret _ _ _,
      fun l hl hk => Dev.withoutModule_outOfUse _ _ _ hl hk, rfl, rfl⟩,
    fun s a h => ⟨_, agent_fails h, rfl, fun p hp e he ha => ?_⟩, fun s a => agent_rejoins, fun s k x hk hm => ?_,
    fun s o => domain_joined⟩
  · exact Dev.retireAgents_ret s.dev _ p hp e he (by rw [ha]; exact List.contains_iff_mem.mpr List.mem_cons_self)
  · have measured := time_measured (x := x) hk hm
    refine ⟨fun near => ?_, fun far other => ?_, fun far root => ?_⟩
    · rwa [if_pos near] at measured
    · rwa [if_neg (by rw [far]; decide), if_neg other] at measured
    · rwa [if_neg (by rw [far]; decide), if_pos root] at measured

end Sys2Proof.Machine
end

section
/-!
PROOFS. System heads: system registers, the journal, the view, DONE, TRAP, stops, and images loaded.
-/
namespace Sys2Proof.Machine
open Sys2Proof

/-! ### System registers (R350, Tables 2-5, 13-1, 17-12) -/

/-- What SRD reads of a register is its value in Table 17-12. -/
theorem sysReg_value {r : SysReg} {v : In → Word} (h : SysValue r v) (i : In) : i.sysReg r = v i := by
  cases h <;> rfl

/-- SRD writes the register's value, whoever may read it. -/
theorem srd_ok {o : SrdOp} {p : Bool} {s : State} {j : In} (hp : p = true ↔ privReads o.reg)
    (h : IssuesS s p o.g { xd := some o.d } j) :
    exec (.srd o) s = .next (s.withDev (j.dev.putX j.tid o.d (j.sysReg o.reg))) := by
  have mode : p = supReg o.reg := Bool.eq_iff_iff.mpr (hp.trans (supReg_iff o.reg).symm)
  subst mode
  exact result_ok h

/-- A register that SWR writes takes a value that its table lets it take. -/
theorem setSys_write {r : SysReg} {c : Word → Prop} {f : In → Word → Dev} (h : SysWrite r c f) (i : In) {v : Word}
    (hv : c v) : i.setSys r v = .ok (f i v) [] := by
  cases h with
  | fmode =>
    obtain ⟨low, high⟩ := hv
    have nonzero : v ≠ 0 := by
      rintro rfl
      cases low
    exact if_neg (not_or.mpr ⟨nonzero, Nat.not_lt.mpr high⟩)
  | slotcfg =>
    have noQueue3 : (List.range 4).any (fun q => bits v (2 * q) 2 == 3) = false := by simpa using hv
    exact if_neg (by rw [noQueue3]; exact Bool.false_ne_true)
  | _ => rfl

/-! ### The journal and the view (R151, R152, R250) -/

/-- JRNL reads a dword of an entry. -/
theorem jrnl_ok {o : JrnlOp} {s : State} {j : In} (inside : j.a.toNat < 64)
    (h : IssuesS s false o.g { xs := [o.a], xd := some o.d } j) :
    exec (.jrnl o) s = .next (s.withDev (j.dev.putX j.tid o.d
      (((j.base.core j.core).jrnl[j.a.toNat]).word o.w.val))) := by
  have entry : (j.base.core j.core).jrnl.toList[j.a.toNat]? = some (j.base.core j.core).jrnl[j.a.toNat] := by
    simp [inside]
  refine issueS_ok h ((if_neg (Nat.not_le.mpr inside)).trans ?_)
  rw [entry]
  rfl

/-- Setting an element within a vector's bounds. -/
theorem setIfInBounds_inside {α : Type} {n i : Nat} {v : Vector α n} {x : α} (h : i < n) :
    v.setIfInBounds i x = v.set i x h := by
  simp [Vector.setIfInBounds, Vector.set, Array.setIfInBounds, h]

/-- JACK frees an entry that is in use, from the next drip on. -/
theorem jack_ok {o : GA} {s : State} {j : In} (inside : j.a.toNat < 64) (h : IssuesS s false o.g { xs := [o.a] } j)
    {e : JEntry} (he : (j.dev.core j.core).jrnl[j.a.toNat] = e) :
    exec (.jack o) s = .next (s.withDev (if e.v then j.dev.setCore j.core { j.dev.core j.core with
      jrnl := (j.dev.core j.core).jrnl.set j.a.toNat { e with v := false, from' := j.drip + 1 } } else j.dev)) := by
  have entry : (j.dev.core j.core).jrnl.toList[j.a.toNat]? = some e := by
    simp [inside, he]
  refine issueS_ok h ((if_neg (Nat.not_le.mpr inside)).trans ?_)
  simp only [entry]
  cases used : e.v
  · rfl
  · rw [setIfInBounds_inside inside]
    rfl

/-- BVIEW sets the view to the counter, or to a stamp that is not later. -/
theorem bview_ok {o : RR} {s : State} {j : In} (h : IssuesS s false o.g { xs := [o.a], xd := some o.d } j)
    (past : j.a.toNat ≤ j.drip) : exec (.bview o) s = .next (s.withDev ((j.dev.updThr j.tid (fun t =>
      { t with view := if j.a = 0 then wd64 j.drip else j.a })).putX j.tid o.d
        (if j.a = 0 then wd64 j.drip else j.a))) :=
  issueS_ok h (if_neg (Nat.not_lt.mpr past))

/-! ### DONE and TRAP (R305, R346, R351) -/

/-- DONE of a thread in a block: nothing without a launch or when one was issued before; else it is sent, or waits
for the stores of its block that are under way. -/
theorem done_ok {o : GOp} {s : State} {j : In} {b : Block} (h : IssuesS s false o.g {} j)
    (hb : j.dev.blk j.t.blk = some b) {ops : List Nat}
    (hops : (j.dev.outst.filter (fun x => !x.isL && (b.crews.flatMap Crew.tids).contains x.tid)).map Outst.op = ops) :
    exec (.done o) s = .next (s.withDev
      (if b.launch = none ∨ b.doneSent = true ∨ b.doneWait ≠ none then j.dev
       else if ops = [] then j.dev.sendDone j.t.blk j.t.coreSlot.1
       else j.dev.setBlk j.t.blk { b with doneWait := some (j.t.coreSlot.1, ops) })) := by
  refine issueS_ok h ?_
  simp only [hb, hops, Option.isNone_iff_eq_none, Option.isSome_iff_ne_none]
  split
  · rfl
  · split <;> rfl

/-- TRAP traps with its cause; EPC is the next head, EVAL its operand. -/
theorem trap_ok {o : TrapOp} {s : State} {j : In} (h : IssuesS s false o.g { xs := [o.a] } j) :
    exec (.trap o) s = .next (s.withDev
      { j.dev.tickFresh.takeTrap s.drip s.mem j.tid (0x380 + o.n.toNat) s.dev.iss.next j.a with
        note := .trapped (0x380 + o.n.toNat) s.dev.iss.next j.a }) := by
  have base := h.base
  refine run_eff (w := []) ((issue_of h _).trans ?_)
  rw [base]
  rfl

/-! ### Stops, and images loaded (R126, R351, R354) -/

/-- PSTOP of a tenant without a stop, far enough ahead, records one and suspends the tenant's leases. -/
theorem pstop_ok {o : GA} {s : State} {j : In} (h : IssuesS s true o.g { xs := [o.a] } j)
    (ahead : j.drip + 512 ≤ stampAt j.drip j.a)
    (first : j.base.stops.any (fun x => x.tenant == bits j.a 56 8) = false) :
    exec (.pstop o) s = .next (s.withDev ({ j.dev with
      pstop := j.a
      stops := j.dev.stops ++ [(⟨bits j.a 56 8, stampAt j.drip j.a, none, false⟩ : Stop)] }.suspendAll j.drip
        (bits j.a 56 8) (stampAt j.drip j.a))) :=
  issueS_ok h (if_neg (not_or.mpr ⟨Nat.not_lt.mpr ahead, by rw [first]; exact Bool.false_ne_true⟩))

/-- PGO of a tenant's stop that is not over gives it its end. -/
theorem pgo_ok {o : GA} {s : State} {j : In} {x : Stop} (h : IssuesS s true o.g { xs := [o.a] } j)
    (hx : j.base.stops.find? (fun x => x.tenant == bits j.a 56 8) = some x)
    (ahead : j.drip + 512 ≤ stampAt j.drip j.a) (later : x.at' + 512 ≤ stampAt j.drip j.a)
    (notOver : ∀ g, x.go = some g → j.drip < g) :
    exec (.pgo o) s = .next (s.withDev { j.dev with
      pgo := j.a
      stops := j.dev.stops.map (fun (y : Stop) =>
        if y.tenant = bits j.a 56 8 then { y with go := some (stampAt j.drip j.a) } else y) }) := by
  have going : ¬ x.go.any (fun g => g ≤ j.drip) = true := by
    simpa [Option.any_eq_true] using notOver
  have open' := not_or.mpr ⟨Nat.not_lt.mpr ahead, not_or.mpr ⟨Nat.not_lt.mpr later, going⟩⟩
  refine issueS_ok h ?_
  simp only [hx, open', if_false]

/-- CTXLD of an image that its context can run loads it and answers 0. -/
theorem ctxld_ok {o : CtxOp} {s : State} {j : In} {l : List (PKey × List Nat)} {v : Nat} {d : Dev}
    (h : IssuesS s true o.g { xs := [o.a], late := some o.d } j) (hc : CtxReady j o l v d) :
    exec (.ctxld o) s = .next (s.withDev (d.reply (j.src o.d j.dev.nextOp) 0)) := by
  have image := hc.image
  refine issueS_ok h ((if_neg hc.other).trans ?_)
  simp only [hc.checked, hc.lines, hc.room, hc.acked, hc.free, hc.drained, hc.guarded, ← image]
  rw [if_neg (by decide), if_neg ?usable, if_neg ?fit, hc.pc]
  case usable =>
    rcases hc.slot with ⟨empty, free⟩ | ⟨tid, t, holds, there, rests⟩
    · simp [empty, free]
    · simp [holds, there, rests]
  case fit => simp [hc.good, hc.context, hc.serves, hc.tenant]
  simp only [hc.loads]
  rfl

/-- Settles O16: system registers read and written, then the journal, the view, DONE, TRAP, stops and CTXLD. -/
theorem systemHeads : Obligations.SystemHeads := by
  unfold Obligations.SystemHeads
  refine ⟨⟨fun r v hv p hp o s j hr h => ?_, fun o n s j hr h => ?_, fun r c f hf o s j hr h hc => ?_⟩,
    fun o s j inside h => jrnl_ok inside h, fun o s j inside h => jack_ok inside h rfl,
    fun o s j h past => bview_ok h past, fun o s j b h hb => done_ok h hb rfl, fun o s j h => trap_ok h, ?_,
    fun o s j x h hx ahead later go => pgo_ok h hx ahead later go, fun o s j l v d h hc => ctxld_ok h hc⟩
  · subst hr
    rw [← sysReg_value hv j]
    exact srd_ok hp h
  · have value := srd_ok (by simp [hr, privReads]) h
    rwa [hr] at value
  · subst hr
    exact issueS_ok h (setSys_write hf j hc)
  · rintro o s j t h rfl ahead first
    exact pstop_ok h ahead first

end Sys2Proof.Machine
end

section
/-!
PROOFS. Locks and barriers: how they are granted, joined, beaten and left, and when an episode completes.
-/
namespace Sys2Proof.Machine
open Sys2Proof

/-! ### Locks (R139, R140) -/

section
variable {s : State} {d : Dev} {m word n : Nat} {src : From} {dl : Option Nat} {sc : Scope}
  (ha : s.asks m src (.lock word n dl sc) (s.dev.drop m)) (hd : d = (s.dev.drop m).touch src.core (lineOf word))
  (reached : d.cutOff word = false) (inUse : d.outOfUse (d.homeOf (coreDie src.core) word) = false)
  (unguarded : d.judgeRange s.drip src.ctx word = none)
include ha hd reached inUse unguarded

/-- A lock without a record is granted. -/
theorem lock_fresh (hl : d.lockOf word = none) : Yields (.lockRequestArrival m) s
    (d.grantLock s.drip (d.homeOf (coreDie src.core) word) word src n) := by
  change execLockRequestArrival m s = _
  refine onReq_dev ha ?_
  simp only [← hd, reached, inUse, unguarded, hl, Bool.false_eq_true, if_false]

/-- A lapsed lock that no request waits for is granted. -/
theorem lock_lapsed {l : Lease} {w : Nat} (hl : d.lockOf word = some l) (hp : l.payload = .lock w [])
    (lapsed : d.lapsed s.drip l = true) : Yields (.lockRequestArrival m) s
    (d.grantLock s.drip (d.homeOf (coreDie src.core) word) word src n) := by
  change execLockRequestArrival m s = _
  refine onReq_dev ha ?_
  simp only [← hd, reached, inUse, unguarded, hl, hp, lapsed, Bool.false_eq_true, and_self, if_false, if_true]

/-- A request for a live lock waits, before its deadline. -/
theorem lock_waits {l : Lease} {w : Nat} {ws : List LockWait} (hl : d.lockOf word = some l)
    (hp : l.payload = .lock w ws) (live : d.lapsed s.drip l = false)
    (early : dl.any (fun t => t ≤ d.clock s.drip (d.homeOf (coreDie src.core) word).mod) = false) :
    Yields (.lockRequestArrival m) s
      (d.setLease { l with payload := .lock word (ws ++ [⟨m, src, n, dl, sc⟩]) }) := by
  change execLockRequestArrival m s = _
  refine onReq_dev ha ?_
  simp only [← hd, reached, inUse, unguarded, hl, hp, live, early, Bool.false_eq_true, false_and, if_false]

end

/-- What only one member of a list gives is what a search of the list finds. -/
theorem findSome?_of_only {α β : Type} {f : α → Option β} {xs : List α} {a : α} {b : β} (ha : a ∈ xs)
    (hb : f a = some b) (only : ∀ x ∈ xs, ∀ c, f x = some c → x = a) : xs.findSome? f = some b := by
  cases found : xs.findSome? f with
  | none =>
    have nothing := List.findSome?_eq_none_iff.mp found a ha
    rw [hb] at nothing
    cases nothing
  | some c =>
    obtain ⟨x, hx, hc⟩ := List.exists_of_findSome?_eq_some found
    rw [only x hx c hc, hb] at hc
    exact hc.symm

/-- A request that waits for a lock fails at its deadline, unless it is the first and the lock has lapsed. -/
theorem lock_deadline {s : State} {m word : Nat} {l : Lease} {ws : List LockWait} {w : LockWait}
    (hl : l ∈ s.dev.leases) (hp : l.payload = .lock word ws) (hw : ws.find? (fun w => w.id = m) = some w)
    (alone : ∀ x ∈ s.dev.leases, ∀ k vs, x.payload = .lock k vs → (∃ v ∈ vs, v.id = m) → x = l)
    (due : w.deadline.any (fun t => t ≤ s.dev.clock s.drip l.agent.mod) = true)
    (kept : s.dev.lapsed s.drip l = true → ws.head?.map LockWait.id ≠ some m) :
    Yields (.lockDeadline m) s ((s.dev.setLease { l with
      payload := .lock word (ws.filter (fun x => x.id != m)) }).refuse w.src Cause.allocDeadline) := by
  have notHanded : (s.dev.lapsed s.drip l && ws.head?.map LockWait.id == some m) = false := by
    simpa using kept
  change execLockDeadline m s = _
  refine event_ok ?_
  rw [findSome?_of_only (b := (l, word, ws, w)) hl ?waits ?only]
  case waits => simp only [hp, hw]
  case only =>
    intro x hx c hc
    split at hc
    · next k vs hk =>
      split at hc
      · next v hv => exact alone x hx k vs hk ⟨v, List.mem_of_find?_eq_some hv, by simpa using List.find?_some hv⟩
      · cases hc
    · cases hc
  simp only [due, notHanded]
  rfl

/-- LHELD of a lock answers how many requests wait for it, and its life left. -/
theorem lock_inquiry {s : State} {d : Dev} {m word : Nat} {src : From} {h : Word} {l : Lease} {ws : List LockWait}
    (ha : s.asks m src (.lheld h) d) (hj : d.judged s.drip src h = .ok l) (hp : l.payload = .lock word ws) :
    Yields (.lockInquiryArrival m) s (d.reply src (wd64 (min ws.length 0x7FFF * 2 ^ 48
      + min (d.expiry l - d.clock s.drip l.agent.mod) 0xFFFFFFFFFFFF))) := by
  change execLockInquiryArrival m s = _
  refine onReq_dev ha ?_
  simp only [hj, hp]
  rfl

/-! ### Barriers are granted (R142) -/

/-- The barrier that BINIT asks for: its operands, and a beat now of each core that holds a member. -/
def Barrier.begun (cfg : Word) (window blk now : Nat) (cores : List Nat) : Barrier :=
  ⟨blk, bits cfg 0 8, bits cfg 8 8, bits cfg 16 9, window, 0, [], [], 0, false, cores.map (·, now), []⟩

/-- A barrier is granted where every member runs and is in fewer than 8: each member is in it. -/
theorem barrier_granted {s : State} {d e : Dev} {m w k : Nat} {cfg : Word} {src : From} {b : Block} {h : Word}
    {home : AgentId} {mine : List Nat} (ha : s.asks m src (.binit cfg w k) d) (hb : d.blk k = some b)
    (hhome : home = ⟨d.modNo, coreDie src.core, 0, bits cfg 25 5⟩) (inUse : d.outOfUse home = false)
    (hmine : (b.members.filter (fun p => bits cfg 0 8 ≤ p.1 && p.1 ≤ bits cfg 8 8)).map Prod.snd = mine)
    (run : ∀ i ∈ mine, ∃ t, d.thr i = some t ∧ t.memberOf.length < 8)
    (granted : d.grantLease s.drip home .barrier (some src.ctx) src.tenant src.ctx (d.clock s.drip home.mod + w) none
      (.barrier (.begun cfg w k (d.clock s.drip home.mod)
        ((b.crews.filter (fun c => c.tids.any mine.contains)).map Crew.core))) = (e, some h)) :
    Yields (.barrierGrant m) s ((mine.foldl (fun d i => d.updThr i (fun th =>
      { th with memberOf := (home, hIndex h, hGen h) :: th.memberOf })) e).reply src h) := by
  have live : mine.filter (fun i => (d.thr i).isSome) = mine := by
    refine List.filter_eq_self.mpr fun i hi => ?_
    obtain ⟨t, ht, -⟩ := run i hi
    rw [ht]
    rfl
  have none_ended : (b.members.filter (fun p => mine.contains p.2 && !mine.contains p.2)).map Prod.fst = [] := by
    simp
  subst hhome
  unfold Barrier.begun at granted
  change execBarrierGrant m s = _
  refine onReq_dev ha ?_
  simp only [hb, hmine, live]
  rw [if_neg ?room]
  case room =>
    intro crowded
    obtain ⟨i, hi, full⟩ := List.any_eq_true.mp crowded
    obtain ⟨t, ht, few⟩ := run i hi
    simp only [ht, decide_eq_true_eq] at full
    exact Nat.not_lt.mpr (Nat.le_trans full (List.length_filter_le _ _)) few
  simp only [inUse, none_ended, granted, Bool.false_eq_true, if_false]

/-! ### Members arrive, add bytes and wait (R144, R145) -/

section
variable {s : State} {d : Dev} {m : Nat} {src : From} {h : Word} {l : Lease} {b : Barrier}

/-- A request of a live barrier acts on it. -/
theorem Dev.atBarrier_live {drip : Nat} (hj : d.judged drip src h = .ok l) (hp : l.payload = .barrier b)
    (f : Lease → Barrier → Dev) : d.atBarrier drip src h f = f l b := by
  simp only [Dev.atBarrier, hj, hp]

/-- A request of an earlier drip whose stores have performed, where it releases, is in its turn (R20, R145). -/
theorem turn_come {rel : Bool} (early : d.sentNow m = false) (done : rel = true → d.released src = true) :
    ¬ (d.sentNow m = true ∨ (rel && !d.released src) = true) := by
  rintro (now | before)
  · rw [early] at now
    cases now
  · obtain ⟨hrel, hout⟩ := Bool.and_eq_true_iff.mp before
    rw [done hrel] at hout
    cases hout

/-- A member that has not yet come arrives. -/
theorem barrier_arrives {i k : Nat} {rel : Bool} (ha : s.asks m src (.barv h i k rel) d) (early : d.sentNow m = false)
    (done : rel = true → d.released src = true) (hj : d.judged s.drip src h = .ok l) (hp : l.payload = .barrier b)
    (hk : b.blk = k) (low : b.mlo ≤ i) (high : i ≤ b.mhi) (open' : b.spent = false)
    (fresh : b.arrived.contains i = false) (stays : b.exited.contains i = false) :
    Yields (.barrierArrival m) s ((d.reply src b.word).tryComplete l { b with arrived := i :: b.arrived }) := by
  have member : ¬ (b.blk ≠ k ∨ i < b.mlo ∨ b.mhi < i) := by omega
  change execBarrierArrival m s = _
  refine onReq_dev ha ((if_neg (turn_come early done)).trans ?_)
  rw [Dev.atBarrier_live hj hp, if_neg member]
  simp only [open', fresh, stays, Bool.or_self, Bool.false_eq_true, if_false]

/-- Bytes are added within 56 bits. -/
theorem bytes_added {n : Int} {rel : Bool} (ha : s.asks m src (.badd h n rel) d) (early : d.sentNow m = false)
    (done : rel = true → d.released src = true) (hj : d.judged s.drip src h = .ok l) (hp : l.payload = .barrier b)
    (low : -(2 ^ 55) ≤ b.bytes + n) (high : b.bytes + n < 2 ^ 55) :
    Yields (.byteAddArrival m) s ((d.reply src (wd64 ((b.bytes + n) % (2 ^ 56 : Nat)).toNat)).tryComplete l
      { b with bytes := b.bytes + n }) := by
  change execByteAddArrival m s = _
  refine onReq_dev ha ((if_neg (turn_come early done)).trans ?_)
  rw [Dev.atBarrier_live hj hp, if_neg (not_or.mpr ⟨Int.not_lt.mpr low, Int.not_le.mpr high⟩)]

/-- A wait of the running episode is held. -/
theorem wait_held {e : Word} (ha : s.asks m src (.bwait h e) d) (hj : d.judged s.drip src h = .ok l)
    (hp : l.payload = .barrier b) (open' : b.spent = false) (now : e.toNat % 2 ^ 32 = b.episode) :
    Yields (.barrierWaitArrival m) s
      (d.setLease { l with payload := .barrier { b with waits := b.waits ++ [(m, src)] } }) := by
  have same : (e.toNat % 2 ^ 32 + 2 ^ 32 - b.episode) % 2 ^ 32 = 0 := by omega
  obtain ⟨hm, rfl⟩ := ha
  change execBarrierWaitArrival m s = _
  refine event_ok ?_
  simp only [hm, hj, hp, open', same]
  rfl

/-- A wait of an episode before is answered at once. -/
theorem wait_answered {e : Word} (ha : s.asks m src (.bwait h e) d) (hj : d.judged s.drip src h = .ok l)
    (hp : l.payload = .barrier b) (past : 2 ^ 31 ≤ (e.toNat % 2 ^ 32 + 2 ^ 32 - b.episode) % 2 ^ 32) :
    Yields (.barrierWaitArrival m) s (d.send (.reply src b.word true none)) := by
  obtain ⟨hm, rfl⟩ := ha
  change execBarrierWaitArrival m s = _
  refine event_ok ?_
  simp only [hm, hj, hp]
  rw [if_pos (.inr past)]

end

/-! ### Members end, and cores beat (R143, R144) -/

section
variable {s : State} {ix : Nat} {ag : AgentId} {l : Lease} {b : Barrier}

/-- A member that ends on a core with another member counts as exited. -/
theorem member_exits {d : Dev} {m g i : Nat} {src : From} (ha : s.asks m src (.exitNotice ag ix g i) d)
    (early : d.sentNow m = false) (hl : d.lease ag ix = some l) (hp : l.payload = .barrier b) (hg : l.gen = g)
    (live : d.lapsed s.drip l = false) (fresh : b.exited.contains i = false)
    (others : d.coreMember src.core ag ix g = true) : Yields (.exitNotice m) s
      (d.tryComplete { l with expiry := b.expiry l.expiry } { b with exited := i :: b.exited }) := by
  change execExitNotice m s = _
  refine onReq_dev ha ?_
  simp only [early, hl, hp, hg, live, fresh, others, Bool.false_eq_true, ne_eq, not_true_eq_false, or_self, if_false,
    if_true]
  rfl

/-- A core with a member beats, and the barrier's expiry follows its beats. -/
theorem core_beats {core : Nat} (hl : s.dev.lease ag ix = some l) (hp : l.payload = .barrier b)
    (live : s.dev.lapsed s.drip l = false) (holds : s.dev.coreMember core ag ix l.gen = true)
    (unfenced : s.dev.fencedCore core = false) {c : Barrier} (hc : c = { b with beats := put core s.drip b.beats }) :
    Yields (.beat core ag ix) s (s.dev.setLease { l with payload := .barrier c, expiry := c.expiry l.expiry }) := by
  subst hc
  change execBeat core ag ix s = _
  refine event_ok ?_
  simp only [hl, hp, live, holds, unfenced, Bool.not_true, Bool.false_eq_true, or_self, if_false]

end

/-- Settles O21: locks requested, timed out and inquired of; barriers granted, joined, waited at, left and beaten. -/
theorem locksAndBarriers : Obligations.LocksAndBarriers := by
  unfold Obligations.LocksAndBarriers
  refine ⟨fun s d m word n src dl sc ha hd reached inUse unguarded =>
      ⟨lock_fresh ha hd reached inUse unguarded,
        fun l w ws hl hp => ⟨?_, lock_waits ha hd reached inUse unguarded hl hp⟩⟩,
    fun s m word l ws w => lock_deadline, fun s d m word src h l ws => lock_inquiry,
    fun s d e m w k cfg src b h home mine ha hb hhome inUse hmine run granted =>
      barrier_granted ha hb hhome inUse hmine.symm run granted,
    fun s d m i k src h rel l b => barrier_arrives, fun s d m n src h rel l b => bytes_added,
    fun s d m src h e l b ha hj hp open' => ⟨wait_held ha hj hp open', wait_answered ha hj hp⟩,
    fun s d m ix g i src ag l b ha early hl hp hg => member_exits ha early hl hp hg,
    fun s core ix ag l b hl hp live holds unfenced => core_beats hl hp live holds unfenced rfl⟩
  rintro rfl lapsed
  exact lock_lapsed ha hd reached inUse unguarded hl hp lapsed

/-! ### Episodes (R144) -/

/-- Replies sent in turn follow the messages that are there, and change no lease. -/
theorem foldl_send {α : Type} (f : α → MsgKind) : ∀ (l : List α) (d : Dev),
    (l.foldl (fun d x => d.send (f x)) d).msgs.map Msg.kind = d.msgs.map Msg.kind ++ l.map f ∧
    (l.foldl (fun d x => d.send (f x)) d).leases = d.leases
  | [], d => by simp
  | x :: l, d => by
    obtain ⟨msgs, leases⟩ := foldl_send f l (d.send (f x))
    rw [List.foldl_cons, msgs, leases]
    simp [Dev.send]

/-- Settles O22: an episode that completes answers the held waits; one that does not keeps the barrier. -/
theorem barrierEpisodes : Obligations.BarrierEpisodes := by
  unfold Obligations.BarrierEpisodes
  refine fun d l b => ⟨fun hbytes enough => ?_, fun missing => ?_⟩
  · have completes : (decide (b.expect ≤ (b.arrived ++ b.exited).eraseDups.length) && b.bytes == 0) = true := by
      simp [hbytes, enough]
    rw [Dev.tryComplete, if_pos completes]
    exact foldl_send _ _ _
  · refine if_neg ?_
    rcases missing with bytes | few
    · simp [bytes]
    · simp [Nat.not_le.mpr few]

end Sys2Proof.Machine
end

section
/-!
PROOFS. Paths: how they are granted, and what becomes of their words.
-/
namespace Sys2Proof.Machine
open Sys2Proof

/-! ### Paths (R146, R147) -/

/-- POPEN grants a path at the range's home: tethered to the range without a length, from now with one. -/
theorem path_granted {s : State} {d e : Dev} {m : Nat} {src : From} {h p : Word} {l : Lease} {n : Option Nat}
    (ha : s.asks m src (.popen h n) d) (hj : d.judged s.drip src h = .ok l) (depth : n = none → d.links l + 1 ≤ 4)
    (granted : d.grantLease s.drip l.agent .path (some src.ctx) src.tenant src.ctx
      (n.elim 0 (d.clock s.drip l.agent.mod + ·)) (n.elim (some (l.agent, l.index, l.gen)) (fun _ => none))
      (.path l.agent l.index l.gen) = (e, some p)) : Yields (.pathGrant m) s (e.reply src p) := by
  change execPathGrant m s = _
  refine onReq_dev ha ?_
  cases n with
  | none =>
    simp only [Option.elim_none] at granted
    simp only [hj, Nat.not_lt.mpr (depth rfl), granted, and_false, if_false]
  | some k =>
    simp only [Option.elim_some] at granted
    simp only [hj, granted, Option.isNone_some, Bool.false_eq_true, false_and, if_false]

section
variable {s : State} {m ix g base size : Nat} {a : Acc} {h off v va : Word} {l r : Lease} {ag : AgentId}
  (hm : s.carries m (.acc a)) (hop : a.op = .psend h off v) (hst : a.st = .travelling)
  (turn : s.dev.inOrder m a = true) (hn : s.dev.named a.src h = .ok l) (hp : l.payload = .path ag ix g)
  (hr : s.dev.lease ag ix = some r) (hg : r.gen = g) (path : s.dev.lapsed s.drip l = false)
  (range : s.dev.lapsed s.drip r = false) (holder : l.holder = some a.src.ctx)
  (hrange : r.payload = .range base size va)
include hm hop hst turn hn hp hr hg path range holder hrange

/-- A word of a live path to a live range is judged by its offset alone: a store into the range, or refused. -/
theorem path_word : execPathWordArrival m s = .next (s.withDev (if size < off.toNat + 8
    then s.dev.refuseAcc s.drip m a Cause.windowRange 0 0
    else s.dev.acceptAcc s.drip m { a with
      after' := 0
      op := .store ((List.range 8).map (fun k => ⟨base + off.toNat + k, 0xFF, byteOf v.toNat k⟩)),
      line := lineOf (base + off.toNat) })) := by
  have hm : s.dev.msg m = some (.acc a) := hm
  refine event_ok ?_
  simp only [hm, hop, hst, turn, hn, hp, hr, hg, path, range, holder, hrange, ne_eq, not_true_eq_false, Bool.not_true,
    Bool.or_self, Bool.false_eq_true, or_self, if_false]
  split <;> rfl

end

/-- Settles O23: a path granted, and a word of one that fits its range or not. -/
theorem paths : Obligations.Paths := by
  unfold Obligations.Paths
  refine ⟨fun s d e m src h p l n => path_granted,
    fun s m ix g base size a h off v va l r ag hm hop hst turn hn hp hr hg path range holder hrange => ?_⟩
  have word := path_word hm hop hst turn hn hp hr hg path range holder hrange
  refine ⟨fun fits => ?_, fun outside => ?_⟩
  · rwa [if_neg (Nat.not_lt.mpr fits)] at word
  · rwa [if_pos outside] at word

end Sys2Proof.Machine
end

section
/-!
PROOFS. The services of the gate: what the lantern admits, and what each service grants and answers.
-/
namespace Sys2Proof.Machine
open Sys2Proof

/-! ### What the lantern admits (R107, R148) -/

section
variable {s : State} {d : Dev} {m n code : Nat} {src : From} {h arg : Word} {l : Lease}
  {f : Nat → Memory → Dev → From → BitVec 16 → Word → Option Res}

/-- A service whose capability admits it does what it does, whatever else the capability admits. -/
theorem gate_serves (hs : s.served m src h n arg d) (hn : 1 ≤ n ∧ n ≤ 8) {e : Dev} {w : List (Nat × Byte)}
    (hf : ∀ mask, f s.drip s.mem d src mask arg = some (.eff e w)) :
    gateStep n m f s = .next { s with dev := e, mem := s.mem.writeAll w } := by
  obtain ⟨ha, l, mask, hj, hl, hb⟩ := hs
  exact gateStep_ok ha hj hl hb hn (hf mask)

/-- A capability that fails R107 is refused with the cause it fails by. -/
theorem gate_capability (ha : s.asks m src (.gate h code arg) d) {c : Nat} (hj : d.judged s.drip src h = .error c) :
    gateStep n m f s = .next (s.withDev (d.refuse src c)) := by
  refine onReqR_dev ha ?_
  simp only [hj]

/-- A code that is no service is refused. -/
theorem gate_noService (ha : s.asks m src (.gate h code arg) d) (hj : d.judged s.drip src h = .ok l)
    (outside : code = 0 ∨ 8 < code) : gateStep n m f s = .next (s.withDev (d.refuse src Cause.gateService)) := by
  refine onReqR_dev ha ?_
  simp only [hj, outside, if_true]

/-- A service that the mask lacks is denied. -/
theorem gate_denied (ha : s.asks m src (.gate h n arg) d) (hj : d.judged s.drip src h = .ok l) {mask : BitVec 16}
    (hl : l.payload = .cap mask) (lacks : bit mask n = false) (hn : 1 ≤ n ∧ n ≤ 8) :
    gateStep n m f s = .next (s.withDev (d.refuse src Cause.gateDenied)) := by
  have service : ¬ (n = 0 ∨ 8 < n) := by omega
  refine onReqR_dev ha ?_
  simp only [hj, hl, service, lacks, ne_eq, not_true_eq_false, Bool.not_false, if_false, if_true]

end

/-- The services of the gate, with their codes (R148). -/
def services (m : Nat) : List (Nat × Instr) :=
  [(1, .exact m), (2, .heat m), (3, .log m), (4, .root m), (5, .time m), (6, .tenant m), (7, .context m), (8, .grant m)]

/-- Every service meets its requests at the gate. -/
theorem services_run {m : Nat} {x : Nat × Instr} (hx : x ∈ services m) (s : State) :
    (1 ≤ x.1 ∧ x.1 ≤ 8) ∧ ∃ f, exec x.2 s = gateStep x.1 m f s := by
  simp only [services, List.mem_cons, List.not_mem_nil, or_false] at hx
  rcases hx with rfl | rfl | rfl | rfl | rfl | rfl | rfl | rfl
  · exact ⟨by simp, _, show execExact m s = _ from rfl⟩
  · exact ⟨by simp, _, show execHeat m s = _ from rfl⟩
  · exact ⟨by simp, _, show execLog m s = _ from rfl⟩
  · exact ⟨by simp, _, show execRoot m s = _ from rfl⟩
  · exact ⟨by simp, _, show execTime m s = _ from rfl⟩
  · exact ⟨by simp, _, show execTenant m s = _ from rfl⟩
  · exact ⟨by simp, _, show execContext m s = _ from rfl⟩
  · exact ⟨by simp, _, show execGrant m s = _ from rfl⟩

/-- What every service refuses. -/
theorem service_refuses {s : State} {d : Dev} {m code : Nat} {src : From} {h arg : Word} {x : Nat × Instr}
    (hx : x ∈ services m) (ha : s.asks m src (.gate h code arg) d) :
    (∀ c, d.judged s.drip src h = .error c → Yields x.2 s (d.refuse src c)) ∧
    (∀ l, d.judged s.drip src h = .ok l →
      (code = 0 ∨ 8 < code → Yields x.2 s (d.refuse src Cause.gateService)) ∧
      (∀ mask, l.payload = .cap mask → bit mask code = false → code = x.1 →
        Yields x.2 s (d.refuse src Cause.gateDenied))) := by
  obtain ⟨service, f, hf⟩ := services_run hx s
  unfold Yields
  rw [hf]
  refine ⟨fun c hj => gate_capability ha hj, fun l hj => ⟨gate_noService ha hj, ?_⟩⟩
  rintro mask hl lacks rfl
  exact gate_denied ha hj hl lacks service

/-! ### What the services do (R148, R149, R292, R334, R339, R342) -/

section
variable {s : State} {d : Dev} {m : Nat} {src : From} {h arg : Word}

/-- TIME answers the counter. -/
theorem time_served (hs : s.served m src h 5 arg d) : Yields (.time m) s (d.reply src (wd64 s.drip)) := by
  change execTime m s = _
  refine gate_serves hs (by decide) (w := []) fun _ => ?_
  rfl

/-- LOG files a record, whose cause is free. -/
theorem log_served (hs : s.served m src h 3 arg d) :
    Yields (.log m) s ((d.tickFresh.fileLog (coreDie src.core) src.tenant ((Config.freeWord d.fresh).toNat % 1024) 6
      arg src.core (d.slotOf src.tid)).reply src 0) := by
  change execLog m s = _
  refine gate_serves hs (by decide) (w := []) fun _ => ?_
  rfl

/-- HEAT reports the requester's counter for the region, and clears it. -/
theorem heat_served (hs : s.served m src h 2 arg d) {mine : Heat → Bool}
    (hmine : mine = fun x => x.ctx == src.ctx && x.region == bits arg 23 28) :
    Yields (.heat m) s ({ d with heats := d.heats.filter (fun x => !mine x) }.reply src
      (wd64 (((d.heats.find? mine).map Heat.count).getD 0))) := by
  subst hmine
  change execHeat m s = _
  refine gate_serves hs (by decide) (w := []) fun mask => ?_
  cases found : d.heats.find? (fun x => x.ctx == src.ctx && x.region == bits arg 23 28) <;> simp only [found] <;> rfl

/-- ROOT renews the lease of the requester's context. -/
theorem root_served {n : Nat} {l : Lease} (hs : s.served m src h 4 arg d) (hn : duration (bits arg 0 16) = some n)
    (hl : d.ctxLease s.drip src.ctx = some l) :
    Yields (.root m) s ((d.renewRoot s.drip l n).1.answer src (d.renewRoot s.drip l n).2) := by
  change execRoot m s = _
  refine gate_serves hs (by decide) (w := []) fun mask => ?_
  simp only [hn, hl]

/-- EXACT of 1 to 64 lines that the die has room for grants a range of exact lines, every element +0. -/
theorem exact_served {e : Dev} {p : Nat} {x : Word} {l : Lease} (hs : s.served m src h 1 arg d) (nonzero : arg ≠ 0)
    (few : arg.toNat ≤ 64)
    (room : (d.exactLines.filter (fun l => keyPhys l / 2 ^ 37 = coreDie src.core && keyAp l = 0)).length + arg.toNat
      ≤ 4096)
    (hl : d.ctxLease s.drip src.ctx = some l)
    (hp : d.pickPlace s.drip (128 * arg.toNat) 0 (fun a => a.die == coreDie src.core) = some p)
    (granted : d.grantRange s.drip src p (128 * arg.toNat) none (some l) = (e, some x)) :
    Yields (.exact m) s ({ e with
      exactLines := e.exactLines ++ (List.range arg.toNat).map (fun j => p + 128 * j)
      exactEls := e.exactEls.filter (fun x => !(p ≤ x.1 && x.1 < p + 128 * arg.toNat)) }.reply src x) := by
  have count : ¬ (arg.toNat = 0 ∨ 64 < arg.toNat) := by
    rintro (zero | many)
    · exact nonzero (BitVec.eq_of_toNat_eq zero)
    · exact Nat.not_lt.mpr few many
  change execExact m s = _
  refine gate_serves hs (by decide) (w := []) fun mask => ?_
  simp only [count, Nat.not_lt.mpr room, hl, hp, granted, if_false]

/-- A service that reads its record acts on it. -/
theorem Dev.recordAt_is {drip r : Nat} {mem : Memory} (hr : d.recordIs drip mem src arg r) (f : Nat → Res) :
    d.recordAt drip mem src arg 32 f = some (f r) := by
  obtain ⟨l, reached, rfl⟩ := hr
  simp only [Dev.recordAt, reached]

/-- TENANT of a record within its limits grants the tenant's anchor, and zeroes its windows. -/
theorem tenant_served {e : Dev} {r n : Nat} {x : Word} (hs : s.served m src h 6 arg d)
    (hr : d.recordIs s.drip s.mem src arg r) (limits : d.tenantOk s.drip s.mem r)
    (hn : duration (fld r 128 64) = some n)
    (granted : d.grantLease s.drip d.cmdUnit .context none (fld r 0 64) 1 (s.drip + n) none
      (.anchor (fld r 0 64) (apKey 0 (fld r 64 64)) (fld r 128 64)) = (e, some x)) :
    Writes (.tenant m) s (e.reply src x) (zeroed s.mem (apKey 0 (fld r 64 64)) 36864
      ++ bytesAt (apKey 0 (fld r 64 64) + 16) 8 (fld r 128 64)) := by
  obtain ⟨tenant, period, rest, ⟨aligned, inside, first, last⟩, fresh, ring, lost⟩ := limits
  change execTenant m s = _
  refine gate_serves hs (by decide) fun mask => (Dev.recordAt_is hr _).trans (congrArg some ?_)
  simp only [hn]
  rw [if_neg (by simpa [tenant, period, rest, aligned, first, last, fresh, ring, lost] using inside)]
  simp only [granted]

/-- CONTEXT of a record within its limits grants the context's lease, tethered to its tenant's anchor. -/
theorem context_served {e : Dev} {r : Nat} {x : Word} {a : Lease} (hs : s.served m src h 7 arg d)
    (hr : d.recordIs s.drip s.mem src arg r) (limits : d.contextOk s.drip s.mem r)
    (ha : d.anchorOf s.drip (d.ctxTenant s.mem (fld r 0 64)) = some a)
    (same : (d.handleOf (d.ctxTenant s.mem (fld r 0 64)) 1 a).2 = wd64 (fld r 64 64))
    (granted : (d.handleOf (d.ctxTenant s.mem (fld r 0 64)) 1 a).1.grantLease s.drip d.lantern .context
      (some (fld r 0 64)) (d.ctxTenant s.mem (fld r 0 64)) (fld r 0 64) 0 (some (a.agent, a.index, a.gen))
      (.context (d.ctxTenant s.mem (fld r 0 64)) (d.ctxWord s.mem (fld r 0 64) 2).toNat) = (e, some x)) :
    Yields (.context m) s (e.reply src x) := by
  obtain ⟨context, rest, valid, fresh, anchor⟩ := limits
  change execContext m s = _
  refine gate_serves hs (by decide) (w := []) fun mask => (Dev.recordAt_is hr _).trans (congrArg some ?_)
  rw [if_neg (by simp [context, rest, valid, fresh, anchor])]
  simp only [ha, same, granted, ne_eq, not_true_eq_false, if_false]

/-- GRANT of rights that the issuing capability has grants them, for a duration or under the context's lease. -/
theorem grant_served {e : Dev} {r till : Nat} {x : Word} {mask : BitVec 16} {l : Lease}
    {up : Option (AgentId × Nat × Nat)} (ha : s.asks m src (.gate h 8 arg) d) (hj : d.judged s.drip src h = .ok l)
    (hl : l.payload = .cap mask) (hb : bit mask 8 = true) (hr : d.recordIs s.drip s.mem src arg r)
    (want : fld r 0 64 < 65536) (context : fld r 64 64 < 65536) (dur : fld r 128 64 < 65536) (rest : fld r 192 64 = 0)
    (rights : fld r 0 64 &&& mask.toNat = fld r 0 64)
    (life : (∃ n, duration (fld r 128 64) = some n ∧ till = s.drip + n ∧ up = none) ∨
      (fld r 128 64 = 0 ∧ till = 0 ∧ ∃ c, d.ctxLease s.drip (fld r 64 64) = some c ∧
        up = some (c.agent, c.index, c.gen)))
    (granted : d.grantLease s.drip d.lantern .cap (some (fld r 64 64)) (d.ctxTenant s.mem (fld r 64 64)) (fld r 64 64)
      till up (.cap (BitVec.ofNat 16 (fld r 0 64))) = (e, some x)) : Yields (.grant m) s (e.reply src x) := by
  change execGrant m s = _
  refine gateStep_dev ha hj hl hb (by decide) ((Dev.recordAt_is hr _).trans (congrArg some ?_))
  have lasts : fld r 128 64 ≠ 0 → duration (fld r 128 64) ≠ none := by
    rcases life with ⟨n, hn, -⟩ | ⟨zero, -⟩
    · simp [hn]
    · exact absurd zero
  rw [if_neg (by simpa [want, context, dur, rest] using lasts), if_neg (not_not_intro rights)]
  rcases life with ⟨n, hn, rfl, rfl⟩ | ⟨zero, rfl, c, hc, rfl⟩
  · simp only [hn, granted]
  · have noDuration : duration (fld r 128 64) = none := by rw [zero]; rfl
    simp only [noDuration, hc, granted]

end

/-- Settles O24: each service by what it grants or answers, and then what every service refuses. -/
theorem lanternServices : Obligations.LanternServices := by
  unfold Obligations.LanternServices
  exact ⟨fun s d m src h arg => time_served, fun s d m src h arg hs => heat_served hs rfl,
    fun s d m src h arg hs => ⟨_, log_served hs⟩, fun s d m n src h arg l => root_served,
    fun s d e m p src h arg x l => exact_served, fun s d e m r n src h arg x => tenant_served,
    fun s d e m r src h arg x a => context_served, fun s d e m r src h arg x mask l till up => grant_served,
    fun s d m code src h arg ha x hx => service_refuses hx ha⟩

end Sys2Proof.Machine
end

section
/-!
PROOFS. The array's requests and their grants, and leave.
-/
namespace Sys2Proof.Machine
open Sys2Proof

/-! ### Leave (R376) -/

/-- A request for leave goes behind those that wait. -/
theorem leave_queued {s : State} {m who units clus : Nat} (h : s.carries m (.leave who units clus)) :
    Yields (.leaveRequest m) s { s.dev.drop m with leaveQ := s.dev.leaveQ ++ [⟨who, units, clus⟩] } := by
  have message : s.dev.msg m = some (.leave who units clus) := h
  change execLeaveRequest m s = _
  refine event_ok ?_
  simp only [message]

section
variable {s : State} {r : LeaveReq} {q : List LeaveReq} (hq : s.dev.leaveQ = r :: q)
include hq

/-- The oldest request is given leave when the pool has room for its units beside those held. -/
theorem leave_given (room : s.dev.leaveHeld.foldl (fun n x => n + x.units) 0 + r.units ≤ 1200) :
    Yields .leaveGrant s
      (({ s.dev with leaveQ := q, leaveHeld := s.dev.leaveHeld ++ [r] } : Dev).giveLeave r) := by
  change execLeaveGrant s = _
  refine event_ok ?_
  simp only [hq, Nat.not_lt.mpr room, if_false]

/-- Without room for the oldest request, no request is given leave. -/
theorem leave_waits (full : 1200 < s.dev.leaveHeld.foldl (fun n x => n + x.units) 0 + r.units) :
    Yields .leaveGrant s s.dev := by
  change execLeaveGrant s = _
  refine event_ok ?_
  simp only [hq, full, if_true]

end

/-! ### Requests and grants of the array (R154, R220, R221) -/

section
variable {s : State} {d : Dev} {m clus n : Nat} {src : From} (ha : s.asks m src (.array clus n) d)
include ha

/-- The request of a thread that has none there is queued without leave, and asks for 9 units. -/
theorem arrayRequest_queued
    (fresh : (d.clus clus).array.reqs.any (fun r => r.src.tid == src.tid) = false) :
    Yields (.arrayRequestArrival m) s
      ((d.updArray clus (fun a => { a with reqs := a.reqs ++ [⟨m, src, n, false⟩] })).send
        (.leave (leaveArray m) 9 clus)) := by
  change execArrayRequestArrival m s = _
  refine onReq_dev ha ?_
  simp only [fresh, Bool.false_eq_true, if_false]
  rfl

/-- A second request of a thread whose first still waits is refused. -/
theorem arrayRequest_refused
    (waits : (d.clus clus).array.reqs.any (fun r => r.src.tid == src.tid) = true) :
    Yields (.arrayRequestArrival m) s (d.refuse src Cause.arrayRequest) := by
  change execArrayRequestArrival m s = _
  refine onReq_dev ha ?_
  simp only [waits, if_true]

end

/-- The module once the head request of an array is taken up and `rs` still wait: the grant before it is over, its
leave is back, and its expiry by duration is kept (R154, R241). -/
def Dev.headTaken (d : Dev) (clus : Nat) (rs : List AReq) : Dev :=
  (d.endGrant clus).updArray clus (fun a => { a with
    reqs := rs
    ends := match a.grant with
      | some g => put (g.index * 2 ^ 24 + g.gen) (((d.grantOf clus g).map d.byDuration).getD 0) a.ends
      | none => a.ends })

/-- The head request with leave, of an array that has no live grant, here or taken elsewhere, gets a run of 16
commands under a lease of its duration, when the array's agent has a record for it. -/
theorem array_granted {s : State} {clus : Nat} {r : AReq} {rs : List AReq} {d e : Dev} {h : Word}
    (head : (s.dev.clus clus).array.reqs = r :: rs) (leave : r.leave = true)
    (lapsed : s.dev.liveGrant s.drip clus = none) (here : s.dev.recordAway s.drip clus = false)
    (runs : s.dev.srcStopped r.src = false)
    (hd : d = s.dev.headTaken clus rs)
    (granted : d.grantLease s.drip (d.arrayAgent clus) .array (some r.src.ctx) r.src.tenant r.src.ctx
      (s.drip + r.dur) none (.array clus) = (e, some h)) :
    Yields (.arrayGrant clus) s ((e.updArray clus (fun a =>
      { a with grant := some ⟨r.id, r.src.core, r.src.tid, hIndex h, hGen h, 16, none, true⟩ }.takeStreams)).reply
        r.src h) := by
  have ready : ¬ ((!r.leave) = true ∨ (s.dev.liveGrant s.drip clus).isSome = true ∨
      s.dev.recordAway s.drip clus = true ∨ s.dev.srcStopped r.src = true) := by
    simp [leave, lapsed, here, runs]
  subst hd
  change execArrayGrant clus s = _
  refine event_ok ?_
  simp only [head, ready, if_false]
  split
  next refused => cases granted.symm.trans refused
  next taken =>
    cases granted.symm.trans taken
    rfl

/-- Settles O33: requests of the array queued and granted, and leave asked for and given in order. -/
theorem arrayAndLeave : Obligations.ArrayAndLeave := by
  unfold Obligations.ArrayAndLeave
  exact ⟨fun s d m clus n src ha => ⟨arrayRequest_queued ha, arrayRequest_refused ha⟩,
    fun s clus r rs d e h => array_granted, fun s m who units clus => leave_queued,
    fun s r q hq => ⟨leave_given hq, leave_waits hq⟩⟩

end Sys2Proof.Machine
end

section
/-!
PROOFS. The collectives: a request armed, a request that meets its fellows, the tree, and members that leave.
-/
namespace Sys2Proof.Machine
open Sys2Proof

/-! ### The tree (R187) -/

section
variable (f : Nat → Nat → Nat) (n a b c d : Nat)

/-- A rank without a neighbour passes up every level. -/
theorem collTree_singleton : collTree f n [a] = a := by
  induction n with
  | zero => rfl
  | succ n ih => exact ih

/-- Two ranks are combined at one level. -/
theorem collTree_pair : collTree f (n + 1) [a, b] = f a b := collTree_singleton f n (f a b)

/-- Of three, the last passes the first level. -/
theorem collTree_three : collTree f (n + 2) [a, b, c] = f (f a b) c := collTree_pair f n (f a b) c

/-- Of four, neighbours are combined first. -/
theorem collTree_four : collTree f (n + 2) [a, b, c, d] = f (f a b) (f c d) := collTree_pair f n (f a b) (f c d)

end

/-! ### A request (R371) -/

/-- An armed request is judged as `armColl` says. -/
theorem request_armed {s : State} {o : CollOp} {t c : Nat} {v : Word} {e d : Dev} {w : List (Nat × Byte)}
    (h : s.slotArmed o.addr [1] true t v c e)
    (judged : s.dev.armColl s.drip s.mem o.addr t c (bit v 55) = .ok (d, w)) :
    Writes (.collectiveRequest o) s d w := by
  obtain ⟨⟨l, armed, live⟩, good, free, sound, context, -⟩ := h
  change execCollectiveRequest o s = _
  refine run_eff ?_
  simp only [armed, free, live, good, sound, context, judged, Bool.not_true, Bool.false_eq_true, or_self, if_false]
  rfl

/-- Bytes that reach a range free to be written are stored, and what follows is told of no refusal. -/
theorem Dev.collWrite_ok {d : Dev} {drip : Nat} {mem : Memory} {c : Coll} {l : List Byte} {qs : List Nat}
    {f : Dev → List (Nat × Byte) → Option (Nat × Word) → Work (Dev × List (Nat × Byte))}
    (reached : d.reach drip mem c.ctx .write (span c.dst l.length) = .ok qs)
    (free : ∀ x ∈ (qs.map lineOf).eraseDups, d.unitMayWrite drip x = true) :
    d.collWrite drip mem c l f =
      f (d.unitStore drip mem ⟨0, 0, c.ctx, c.tenant, 0, 0⟩ (qs.zip l)).1
        (d.unitStore drip mem ⟨0, 0, c.ctx, c.tenant, 0, 0⟩ (qs.zip l)).2 none := by
  unfold Dev.collWrite
  simp only [reached, List.all_eq_true.mpr free, Bool.not_true, Bool.false_eq_true, if_false]

/-- What the members' elements come to, in DST's bytes: `own` are the elements of this module. -/
def Dev.collOut (d : Dev) (mem : Memory) (c : Coll) (ef : Fmt) (peers : List CollPeer) (own : List Nat) : List Byte :=
  (List.range c.count.toNat).flatMap (fun k => (List.range c.size).map (byteOf (c.element ef
    (d.collParts (groupMembers mem c.tenant c.group) peers ef own k))))

section
variable {s : State} {o : CollOp} {c : Coll} {ef : Fmt} {ps qs : List Nat} {out : List Byte} (met : s.collMet o c ef)
  (read : s.dev.reach s.drip s.mem c.ctx .read (span c.src (c.count.toNat * c.size)) = .ok ps)
  (hout : out = s.dev.collOut s.mem c ef o.peers (c.elements ef (s.dev.unitByte s.drip s.mem) ps))
  (reached : s.dev.reach s.drip s.mem c.ctx .write (span c.dst out.length) = .ok qs)
  (free : ∀ x ∈ (qs.map lineOf).eraseDups, s.dev.unitMayWrite s.drip x = true) {r : Dev × List (Nat × Byte)}
  (hr : r = s.dev.unitStore s.drip s.mem ⟨0, 0, c.ctx, c.tenant, 0, 0⟩ (qs.zip out))
include met read hout reached free hr

/-- A request that has met its fellows writes what they come to, and ends with no cause. -/
theorem Dev.runColl_met : s.dev.runColl s.drip s.mem c o.peers = r.1.endColl s.drip s.mem c 0 r.2 := by
  obtain ⟨-, -, same, peers, agree, format⟩ := met
  have agreed : o.peers.any (fun p => p.opw != c.opw || p.count != c.count || p.gen != c.gen) = false := by
    refine List.any_eq_false.mpr fun p hp => ?_
    obtain ⟨opw, count, gen⟩ := agree p hp
    simp only [opw, count, gen, bne_self_eq_false, Bool.or_self, Bool.false_eq_true, not_false_eq_true]
  subst hout hr
  unfold Dev.runColl
  simp only [same, peers, agreed, format, read, ne_eq, not_true_eq_false, Bool.false_eq_true, if_false]
  exact Dev.collWrite_ok reached free

/-- That is the request's step, where its completion record can be written. -/
theorem request_combines {d : Dev} {w : List (Nat × Byte)}
    (ended : r.1.endColl s.drip s.mem c 0 r.2 = .ok (d, w)) : Writes (.collectiveRequest o) s d w := by
  have run := (Dev.runColl_met met read hout reached free hr).trans ended
  change execCollectiveRequest o s = _
  refine run_eff ?_
  simp only [met.idle, met.oldest, run]
  rfl

end

/-! ### Members that leave (R372) -/

/-- The groups that hold a module, as 16 times the tenant and the group. -/
def groupsHolding (mem : Memory) (module : Nat) : List Nat :=
  (List.range 4096).filter (fun n => (groupMembers mem (n / 16) (n % 16)).contains module)

/-- A module that is no member leaves its groups: its bit is cleared and the generation rises in each of their
entries, and requests on them are marked. -/
theorem member_leaves {s : State} {module : Nat} (left : s.dev.members.contains module = false)
    {hit : List Nat} (hh : hit = groupsHolding s.mem module) (held : hit ≠ []) :
    Writes (.memberFailure module) s
      (({ s.dev with colls := s.dev.colls.map (fun c => if hit.contains (16 * c.tenant + c.group) then
        { c with gen := changedGen } else c) } : Dev).signal 1025)
      (hit.flatMap (fun n => let k := groupKey (n / 16) (n % 16)
        (k + module / 8, s.mem.read (k + module / 8) &&& ~~~(BitVec.ofNat 8 (2 ^ (module % 8))))
          :: bytesAt (k + 24) 4 ((groupGen s.mem (n / 16) (n % 16) + 1) % 2 ^ 32))) := by
  rw [hh] at held ⊢
  have acts : ¬ (s.dev.members.contains module = true ∨ groupsHolding s.mem module = []) := by
    rw [left]
    exact not_or.mpr ⟨Bool.false_ne_true, held⟩
  change execMemberFailure module s = _
  exact run_eff (if_neg acts)

/-- Settles O46: a request armed, a request met and combined, the tree of three, four and one, and a member's leaving. -/
theorem collectivesRun : Obligations.CollectivesRun := by
  unfold Obligations.CollectivesRun
  exact ⟨fun s o t c v e d w => request_armed,
    fun s o c ef ps qs d w met read reached free => request_combines met read rfl reached free rfl,
    fun f a b c d => ⟨collTree_four f 6 a b c d, collTree_three f 6 a b c, collTree_singleton f 8 a⟩,
    fun s module left => member_leaves left rfl⟩

end Sys2Proof.Machine
end

section
/-!
PROOFS. Vector heads: those that write lanes, compares into predicates, single elements, and retagged copies.
-/
namespace Sys2Proof.Machine
open Sys2Proof

/-! ### Heads that write lanes (R193) -/

/-- The groups of VCVT, one by one: the format of the narrower elements has one register (R194). -/
theorem cvt_groups {dt st : Fmt} {rs rd : Nat}
    (hr : (rs, rd) = if dt.bits < st.bits then (fmtRatio dt st, 1) else (1, fmtRatio dt st)) :
    rs = (if dt.bits < st.bits then fmtRatio dt st else 1) ∧ rd = (if dt.bits < st.bits then 1 else fmtRatio dt st) :=
  ⟨(congrArg Prod.fst hr).trans (apply_ite Prod.fst ..), (congrArg Prod.snd hr).trans (apply_ite Prod.snd ..)⟩

/-- A head of a lane form writes the lanes of its form. -/
theorem exec_lanes {x : Instr} {g : Guard} {u : Uses} {pre : Thread → Option Nat} {l : In → Lanes}
    (h : LaneForm x g u pre l) (s : State) : exec x s = run (issueV g u pre (fun i =>
      i.lanes (l i).occ g (l i).tag (l i).d (l i).r (l i).sr (l i).sx (l i).f)) s := by
  cases h with
  | vwmul _ _ ht | vwadd _ _ ht | vclass _ _ ht => subst ht; rfl
  | vdot4 _ _ _ ht hr => subst ht hr; rfl
  | vperm _ _ hr => subst hr; rfl
  | vcvt _ _ _ hr =>
    obtain ⟨rfl, rfl⟩ := cvt_groups hr
    rfl
  | _ => rfl

/-- An element has no bits, or 4 to 64 of them (Table 9-4). -/
theorem Fmt.bits_range (f : Fmt) : f.bits ≤ 64 ∧ (f.bits = 0 ∨ 4 ≤ f.bits) := by
  cases f <;> decide

/-- The widest element is 16 times the narrowest. -/
theorem fmtRatio_le (a b : Fmt) : fmtRatio a b ≤ 16 := by
  have ratio (f e : Fmt) : f.bits / e.bits ≤ 16 := by
    obtain ⟨hf, -⟩ := Fmt.bits_range f
    obtain ⟨-, he | he⟩ := Fmt.bits_range e
    · simp [he]
    · exact Nat.div_le_of_le_mul (by omega)
  unfold fmtRatio
  split
  · exact ratio b a
  · exact ratio a b

/-- No destination group is larger than the register file (R194). -/
theorem LaneForm.group_le {x : Instr} {g : Guard} {u : Uses} {pre : Thread → Option Nat} {l : In → Lanes}
    (h : LaneForm x g u pre l) (i : In) : (l i).r ≤ 16 := by
  have one : 1 ≤ 16 := by decide
  have two : 2 ≤ 16 := by decide
  cases h with
  | vwmul | vwadd => exact two
  | vdqnt o => exact fmtRatio_le o.dt o.st
  | vdot4 o tag r ht hr =>
    change r ≤ 16
    rw [hr]
    split
    · exact two
    · exact one
  | vcvt o rs rd hr =>
    change rd ≤ 16
    rw [(cvt_groups hr).2]
    split
    · exact one
    · exact fmtRatio_le o.dt o.st
  | _ => exact one

/-! ### The datapath and the thread -/

/-- With the datapath free a head goes on (R24). -/
theorem vfree_goes_on {i : In} (h : i.vfree = true) (held go : Out) : (if !i.vfree then held else go) = go := by
  rw [h]
  rfl

/-- A thread whose registers a head changes is there after it, and holding the datapath changes no thread. -/
theorem In.thr_vhold_regs {i : In} {k : Nat} {t : Thread} (h : i.dev.thr k = some t) (n : Nat) (f : Regs → Regs) :
    (i.vhold n (i.dev.regs k f)).thr k = some { t with regs := f t.regs } := by
  change (i.dev.regs k f).thr k = _
  rw [regs_frame i.dev k f h, Dev.thr_setThr, if_pos rfl]

/-- A thread whose flags are raised is there afterwards. -/
theorem Dev.thr_raised {d : Dev} {k : Nat} {t : Thread} (h : d.thr k = some t) (core : Nat) (fl : Flags) :
    (d.raiseFlags k core fl).thr k = some { t with fflags := t.fflags ||| fl } := by
  rw [Dev.thr_raiseFlags, if_pos rfl, h]
  rfl

/-! ### VCMP (R207) -/

/-- The predicate that takes the place of `r`: results of the active lanes, or their complements, and the old bits of
the inactive ones. -/
def In.comparePred (i : In) (o : VCmpOp) (r : KR) (inv : Bool) : BitVec 1024 :=
  predOf (((List.range o.ef.count).map (fun k => vcmpLane o.ef o.cc (i.elem o.a o.ef k) (i.elem o.b o.ef k))).zipIdx.map
    (fun p => if laneOn o.g i.t p.2 then p.1.1 != inv else bit (i.t.regs.rk r) p.2))

/-- Its bits: past the last lane they are clear. -/
theorem bit_comparePred (i : In) (o : VCmpOp) (r : KR) (inv : Bool) {k : Nat} (hk : k < 1024) :
    bit (i.comparePred o r inv) k = (decide (k < o.ef.count) &&
      (if laneOn o.g i.t k then (vcmpLane o.ef o.cc (i.elem o.a o.ef k) (i.elem o.b o.ef k)).1 != inv
        else bit (i.t.regs.rk r) k)) := by
  unfold In.comparePred
  rw [predOf_bit _ k hk]
  by_cases lane : k < o.ef.count <;> simp [lane]

@[simp] theorem Regs.rk_wk (g : Regs) (r : KR) (v : BitVec 1024) : (g.wk r v).rk r = v := by
  simp [Regs.rk, Regs.wk]

/-- The two predicates of a pair are two. -/
theorem kpLo_ne_kpHi (p : KP) : kpLo p ≠ kpHi p := by
  intro h
  have : 2 * p.val = 2 * p.val + 1 := congrArg Fin.val h
  omega

/-- A compare leaves its pair in the thread. -/
theorem vcmp_pair {o : VCmpOp} {s : State} {j : In}
    (h : IssuesV s o.g { vs := [o.a, o.b], kd := [kpLo o.kd, kpHi o.kd] }
      (tagPre .always o.ef.count [(o.a, o.ef), (o.b, o.ef)] [] o.ef) j) (hv : j.vfree = true) :
    ∃ d t, exec (.vcmp o) s = .next (s.withDev d) ∧ d.thr j.tid = some t ∧
      t.regs.rk (kpLo o.kd) = j.comparePred o (kpLo o.kd) false ∧
      t.regs.rk (kpHi o.kd) = j.comparePred o (kpHi o.kd) true := by
  obtain ⟨t, ht⟩ := h.thr
  refine ⟨_, _, issueV_ok h (vfree_goes_on hv _ _), Dev.thr_raised (In.thr_vhold_regs ht _ _) _ _, ?_, ?_⟩
  · exact (Regs.rk_wk_ne _ _ (kpLo_ne_kpHi o.kd)).trans (Regs.rk_wk ..)
  · exact Regs.rk_wk ..

/-! ### VMOVS.put (R212) -/

/-- Element `p` of a format's register ends in the register. -/
theorem Fmt.element_fits {f : Fmt} {p : Nat} (hp : p < f.count) : f.bits * p + f.bits ≤ 4096 :=
  calc f.bits * p + f.bits = (p + 1) * f.bits := by rw [Nat.succ_mul, Nat.mul_comm]
    _ ≤ f.count * f.bits := Nat.mul_le_mul_right _ hp
    _ ≤ 4096 := Fmt.count_bits f

/-- The element that VMOVS.put names takes its bits, and the others of the register stay. -/
theorem vmovsPut_element {o : VputOp} {s : State} {j : In}
    (h : IssuesV s o.g { xs := o.a :: regOf o.j, vs := [o.d], vd := [o.d], off := idxOff o.g [o.a] o.j }
      (fun t => (if (t.regs.rv o.d).tag = o.ef ∨ (t.regs.rv o.d).tag = .none then none
        else some Cause.formatTag).or (idxPre s.dev [o.a] o.j o.ef.count t)) j) (hv : j.vfree = true) :
    ∃ d t, exec (.vmovsPut o) s = .next (s.withDev d) ∧ d.thr j.tid = some t ∧ (t.regs.rv o.d).tag = o.ef ∧
      ∀ p < o.ef.count, (t.regs.rv o.d).el o.ef.bits p =
        if p = (immOr o.j j.b).toNat then j.a.toNat % 2 ^ o.ef.bits else j.elem o.d o.ef p := by
  obtain ⟨t, ht⟩ := h.thr
  refine ⟨_, _, issueV_ok h (vfree_goes_on hv _ _), In.thr_vhold_regs ht _ _, ?_, fun p hp => ?_⟩
  · rw [Regs.rv_wv]
  · rw [Regs.rv_wv]
    exact el_set _ _ _ _ _ (Fmt.element_fits hp)

/-! ### The obligation -/

/-- Settles O15: the lane forms through what they write, then VCMP, the two VMOVS, and VTAG. -/
theorem laneResults : Obligations.LaneResults := by
  unfold Obligations.LaneResults
  refine ⟨fun x g u pre l hx s j h hv => ?_, fun o s j h hv => ?_, fun o s j h hv => ?_, fun o s j h hv => ?_,
    fun o s j h hv => ?_⟩
  · obtain ⟨t0, ht0⟩ := h.thr
    obtain ⟨d, t, hd, ht, written⟩ := lanes_ok (g := g) (l := l j) hv ht0 (hx.group_le j)
    exact ⟨d, t0, t, (exec_lanes hx s).trans (issueV_ok h hd), ht0, ht, written⟩
  · obtain ⟨d, t, hd, ht, hlo, hhi⟩ := vcmp_pair h hv
    refine ⟨d, t, hd, ht, fun k hk => ?_⟩
    rw [hlo, hhi, bit_comparePred _ _ _ _ hk, bit_comparePred _ _ _ _ hk, Bool.bne_false, Bool.bne_true]
    exact ⟨rfl, rfl⟩
  · exact issueV_ok h (vfree_goes_on hv _ _)
  · exact vmovsPut_element h hv
  · exact issueV_ok h (if_pos hv)

end Sys2Proof.Machine
end

section
/-!
PROOFS. The heads that send commands to the matrix array and to the copy engines, and CPOP.
-/
namespace Sys2Proof.Machine
open Sys2Proof

/-! ### Commands of the array (R222) -/

/-- A head of an array form whose operands are good sends its form's command. -/
theorem exec_array {x : Instr} {g : Guard} {u : Uses} {c : In → Prop} {q : In → MCmd} (h : ArrayForm x g u c q) :
    ∃ b : In → Out, (∀ s, exec x s = run (issueS false g u b) s) ∧ ∀ i, c i → b i = i.command (q i) := by
  cases h with
  | mlay o l p => exact ⟨_, fun _ => rfl, fun i hr => one_ok hr _⟩
  | mzero o | mma o => exact ⟨_, fun _ => rfl, fun _ _ => rfl⟩
  | mdrain o =>
    refine ⟨_, fun _ => rfl, fun i ⟨rest, unit, round, fmt⟩ => if_neg ?_⟩
    simp [rest, unit, round, fmt]

/-! ### Commands of the engines (R231, R234, R237, R358) -/

/-- The lengths of a copy are neither nothing nor above 2^36 bytes. -/
theorem copyLength_inRange {n : Nat} (least : 1 ≤ n) (most : n ≤ 2 ^ 36) : ¬ (n = 0 ∨ 2 ^ 36 < n) := by omega

/-- A range of a copy that is good lies in its window. -/
theorem In.rangeOk.inside {i : In} {sp : Space} {a : Word} {n : Nat} (h : i.rangeOk sp a n) :
    (sp != .glob && decide ((i.base.window i.tid i.t sp).2 < a.toNat + n)) = false := by
  unfold In.rangeOk at h
  split at h
  next glob => subst glob; rfl
  next => rw [decide_eq_false (Nat.not_lt.mpr h), Bool.and_false]

/-- A range of a copy that is good has a global address of the right form. -/
theorem In.rangeOk.form {i : In} {sp : Space} {a : Word} {n : Nat} (h : i.rangeOk sp a n) :
    ¬ (sp = .glob ∧ (!formOk a) = true) := by
  rintro ⟨rfl, bad⟩
  have good : formOk a = true := h
  simp [good] at bad

/-- A head of an engine form whose operands are good pushes its form's command. -/
theorem exec_engine {x : Instr} {p : Bool} {g : Guard} {u : Uses} {c : In → Prop} {e : In → Nat} {q : In → ECmd}
    (h : EngineForm x p g u c e q) :
    ∃ b : In → Out, (∀ s, exec x s = run (issueS p g u b) s) ∧ ∀ i, c i → b i = i.engine (e i) (q i) := by
  cases h with
  | cxfer o =>
    refine ⟨_, fun _ => rfl, fun i ⟨least, most, dst, src⟩ => ?_⟩
    refine (if_neg (copyLength_inRange least most)).trans ((if_neg ?_).trans (if_neg ?_))
    · exact Bool.eq_false_iff.mp (Bool.or_eq_false_iff.mpr ⟨dst.inside, src.inside⟩)
    · exact not_or.mpr ⟨dst.form, src.form⟩
  | cxferPack o =>
    refine ⟨_, fun _ => rfl, fun i ⟨page, slot, fits, src, dst, dform, sform⟩ => ?_⟩
    refine (if_neg ?_).trans ((if_neg ?_).trans (if_neg ?_))
    · rintro (⟨small, large⟩ | odd | short)
      · exact page.elim small large
      · exact odd slot
      · exact Nat.not_lt.mpr fits short
    · exact not_or.mpr ⟨not_not_intro src, not_not_intro dst⟩
    · simp [dform, sform]
  | cxferFpack o =>
    refine ⟨_, fun _ => rfl, fun i ⟨least, most, dform, sform⟩ => ?_⟩
    refine (if_neg (copyLength_inRange least most)).trans (if_neg ?_)
    simp [dform, sform]
  | cfeed o w hw =>
    subst hw
    refine ⟨_, fun _ => rfl, fun i ⟨rest, clear⟩ => if_neg ?_⟩
    exact not_or.mpr ⟨not_not_intro rest, Bool.eq_false_iff.mp clear⟩

/-- Settles O14: each form's body is its one command, which is counted and sent; CPOP pops. -/
theorem commandsSent : Obligations.CommandsSent := by
  unfold Obligations.CommandsSent
  refine ⟨fun x g u c q hx s j h hc acq room m => ?_, fun x p g u c e q hx s j h hc acq room n => ?_,
    fun o s j w l h hl => issueS_ok h ?_⟩
  · obtain ⟨b, hb, hbody⟩ := exec_array hx
    rw [hb s, ← h.base]
    exact issueS_ok h ((hbody j hc).trans (command_ok _ acq room m))
  · obtain ⟨b, hb, hbody⟩ := exec_engine hx
    rw [hb s]
    exact issueS_ok h ((hbody j hc).trans (engine_ok _ _ acq room n))
  · simp only [hl]

end Sys2Proof.Machine
end

section
/-!
PROOFS. What the array accepts and answers, and what gives up.
-/
namespace Sys2Proof.Machine
open Sys2Proof

/-! ### Acceptance (R222, R223) -/

section
variable {s : State} {m clus : Nat} {src : From} {c : MCmd} {head : Word} (h : s.reachesArray m src clus c head)
include h

/-- A command in its turn does not wait. -/
theorem State.reachesArray.due : ¬ (16 ≤ (s.dev.clus clus).array.fifo.length ∨
    (!s.dev.arrayInOrder m src.core clus) = true ∨ s.dev.srcStopped src = true) := by
  simp [h.room, h.turn, h.free]

/-- The array takes a command of its grant's core while the run lasts. -/
theorem command_accepted {g : AGrant} (live : (s.dev.drop m).liveGrant s.drip clus = some g) (own : g.core = src.core)
    (lasts : g.left ≠ 0) :
    let r := ((s.dev.drop m).acceptCommand s.drip clus src c head g).readDescs s.drip s.mem clus
    Writes (.commandAccept m) s (r.1.updArray clus (fun a => a.takeStreams.advance)) r.2 := by
  have message : s.dev.msg m = some (.command src clus c head) := h.carries
  have due := h.due
  change execCommandAccept m s = _
  refine run_eff ?_
  simp only [message, due, if_false, live, own, lasts, ne_eq, not_false_eq_true, and_self, if_true]

/-- It drops any other, with a report of the head's address. -/
theorem command_dropped
    (no : ∀ g, (s.dev.drop m).liveGrant s.drip clus = some g → g.core ≠ src.core ∨ g.left = 0) :
    Yields (.commandAccept m) s
      (((s.dev.drop m).closeM s.drip s.mem src).send (.report src.tid Cause.arrayLeaseLapsed head)) := by
  have message : s.dev.msg m = some (.command src clus c head) := h.carries
  have due := h.due
  change execCommandAccept m s = _
  refine event_ok ?_
  simp only [message, due, if_false]
  split
  next g live =>
    refine if_neg ?_
    rintro ⟨own, lasts⟩
    exact (no g live).elim (absurd own) lasts
  next => rfl

end

/-! ### Inquiries (R230) -/

/-- A message that is taken out changes nothing of what MSTAT tells. -/
theorem Dev.mstatWord_drop (d : Dev) (m drip clus core : Nat) (x : MstatSel) :
    (d.drop m).mstatWord drip clus core x = d.mstatWord drip clus core x := rfl

/-- The array answers an inquiry in its turn. -/
theorem inquiry_answered {s : State} {m clus : Nat} {src : From} {x : MstatSel}
    (h : s.carries m (.req src (.mstat clus x))) (turn : s.dev.arrayInOrder m src.core clus = true) :
    Yields (.commandAccept m) s
      ((s.dev.drop m).reply src ((s.dev.drop m).mstatWord s.drip clus src.core x)) := by
  have message : s.dev.msg m = some (.req src (.mstat clus x)) := h
  rw [Dev.mstatWord_drop]
  change execCommandAccept m s = _
  refine event_ok ?_
  simp only [message, turn, Bool.not_true, Bool.false_eq_true, if_false]

/-! ### Giving up (R241) -/

section
variable {s : State} {clus : Nat} {d : Dev} {e : MEntry} {rest : List MEntry}
  (hf : (d.clus clus).array.fifo = e :: rest)
  (waits : (d.clus clus).array.waiting = true) (lapsed : d.grantOver s.drip clus e.index e.gen = true)
  (runs : d.srcStopped e.src = false)
include waits lapsed runs

/-- A command that waits when its grant is over does not go on waiting. -/
theorem giveUp_acts : ¬ ((!(d.clus clus).array.waiting) = true ∨
    (!d.grantOver s.drip clus e.index e.gen) = true ∨ d.srcStopped e.src = true) := by
  simp [waits, lapsed, runs]

variable (hd : d = s.dev.updArray clus MArray.advance)
include hf hd

/-- An MMA that waits for its slabs when its grant is over drops them, and its set is marked. -/
theorem mma_gives_up {n : Fin 8} (hc : e.c = .mma n) :
    Yields (.giveUp clus) s (((d.dropSlabs clus).updArray clus (fun a =>
      { a with gave := a.gave.set n.val true })).retire s.drip s.mem clus (some Cause.arrayLeaseLapsed)) := by
  have acts := giveUp_acts waits lapsed runs
  subst hd
  change execGiveUp clus s = _
  refine event_ok ?_
  simp only [Dev.giveUp, hf, acts, if_false, hc]

/-- An MDRAIN that waits when its grant is over retires with a report. -/
theorem mdrain_gives_up {n : Fin 8} {ctl seed : Word} {fm : BitVec 3} (hc : e.c = .mdrain n ctl seed fm) :
    Yields (.giveUp clus) s (d.retire s.drip s.mem clus (some Cause.arrayLeaseLapsed)) := by
  have acts := giveUp_acts waits lapsed runs
  subst hd
  change execGiveUp clus s = _
  refine event_ok ?_
  simp only [Dev.giveUp, hf, acts, if_false, hc]

end

/-- Settles O34: commands accepted or dropped, inquiries answered, and what gives up. -/
theorem arrayAccepts : Obligations.ArrayAccepts := by
  unfold Obligations.ArrayAccepts
  exact ⟨fun s m clus src c head h => ⟨fun g => command_accepted h, command_dropped h⟩,
    fun s m clus src x => inquiry_answered, fun s clus d e rest hd hf waits lapsed runs =>
      ⟨fun n hc => mma_gives_up hf waits lapsed runs hd hc,
        fun n ctl seed fm hc => mdrain_gives_up hf waits lapsed runs hd hc⟩⟩

end Sys2Proof.Machine
end

section
/-!
PROOFS. What the oldest command of the array does as it retires.
-/
namespace Sys2Proof.Machine
open Sys2Proof

/-! ### MLAY, MMA and MDRAIN (R225, R228, R229) -/

section
variable {s : State} {clus : Nat} {d : Dev} {w : List (Nat × Byte)} {e : MEntry} {rest : List MEntry}
  (hr : (s.dev.updArray clus MArray.advance).readDescs s.drip s.mem clus = (d, w))
  (hf : (d.clus clus).array.fifo = e :: rest)
include hr hf

section
variable {n : Fin 8} {p : Nat} {t : Option (BitVec 4)} {cause : Nat} {l : Layout} (hc : e.c = .mlay n p t)
  (read : e.desc = some (cause, l))
include hc read

/-- MLAY reports what refused the read of its descriptor. -/
theorem mlay_refused (no : cause ≠ 0) :
    Writes (.commandRetire clus) s (d.retire s.drip s.mem clus (some cause)) w := by
  change execCommandRetire clus s = _
  refine run_eff ?_
  simp only [hr, hf, hc, read, no, ne_eq, not_false_eq_true, if_true]

/-- MLAY reports a descriptor that breaks R225. -/
theorem mlay_invalid (ok : cause = 0) (bad : l.bad = true) :
    Writes (.commandRetire clus) s (d.retire s.drip s.mem clus (some Cause.layoutInvalid)) w := by
  change execCommandRetire clus s = _
  refine run_eff ?_
  simp only [hr, hf, hc, read, ok, bad, ne_eq, not_true_eq_false, if_false, if_true]

/-- MLAY makes its shadow copy active, and clears its record's conflicts (R225). -/
theorem mlay_active (ok : cause = 0) (good : l.bad = false) :
    Writes (.commandRetire clus) s ((d.updArray clus (fun a => { a with
      act := a.act.set n.val l, confl := a.confl.set n.val 0 })).retire s.drip s.mem clus none) w := by
  change execCommandRetire clus s = _
  refine run_eff ?_
  simp only [hr, hf, hc, read, ok, good, ne_eq, not_true_eq_false, Bool.false_eq_true, if_false]

end

section
variable {n : Fin 8} {x y : Slab} {xs ys : List Slab} (hc : e.c = .mma n)
  (ha : (d.clus clus).array.a = x :: xs) (hb : (d.clus clus).array.b = y :: ys)
include hc ha hb

/-- MMA reports slabs of two width classes (R228). -/
theorem mma_mixed (differ : widthClass x.fmt ≠ widthClass y.fmt) :
    Writes (.commandRetire clus) s ((d.dropSlabs clus).retire s.drip s.mem clus (some Cause.streamFormat)) w := by
  change execCommandRetire clus s = _
  refine run_eff ?_
  simp only [hr, hf, hc, ha, hb, differ, ne_eq, not_false_eq_true, if_true]

/-- MMA ends when its slabs' groups have been added (R228). -/
theorem mma_done (same : widthClass x.fmt = widthClass y.fmt) (added : slabGroups x.fmt ≤ e.group) :
    Writes (.commandRetire clus) s (((d.dropSlabs clus).updArray clus (fun a =>
      { a with gave := a.gave.set n.val false })).retire s.drip s.mem clus none) w := by
  change execCommandRetire clus s = _
  refine run_eff ?_
  simp only [hr, hf, hc, ha, hb, same, added, ne_eq, not_true_eq_false, if_false, if_true]

/-- MMA reports a slab that will never be whole (R228). -/
theorem mma_broken (same : widthClass x.fmt = widthClass y.fmt) (left : e.group < slabGroups x.fmt)
    (broken : (x.broken = true ∧ x.has e.group = false) ∨ (y.broken = true ∧ y.has e.group = false)) :
    Writes (.commandRetire clus) s (((d.dropSlabs clus).updArray clus (fun a =>
      { a with gave := a.gave.set n.val true })).retire s.drip s.mem clus (some Cause.streamBroken)) w := by
  have never : ((x.broken && !x.has e.group) || (y.broken && !y.has e.group)) = true := by
    rcases broken with ⟨hx, hg⟩ | ⟨hy, hg⟩
    · rw [hx, hg]; rfl
    · rw [hy, hg]; exact Bool.or_true _
  change execCommandRetire clus s = _
  refine run_eff ?_
  simp only [hr, hf, hc, ha, hb, same, Nat.not_le.mpr left, never, ne_eq, not_true_eq_false, if_false, if_true]

end

section
variable {n : Fin 8} {ctl seed : Word} {fm : BitVec 3} (hc : e.c = .mdrain n ctl seed fm)
  (empty : (d.clus clus).array.d = none) (here : drainNeed ctl ≤ (d.clus clus).array.r.length)
include hc empty here

/-- MDRAIN reports an R element of a format outside Table 11-2 (R229). -/
theorem mdrain_format
    (bad : ∃ p ∈ (d.clus clus).array.r.take (drainNeed ctl), p.1 ≠ .f32 ∧ p.1 ≠ .bf16 ∧ p.1 ≠ .f16) :
    Writes (.commandRetire clus) s ((d.updArray clus (fun a => { a with r := a.r.drop (drainNeed ctl) })).retire
      s.drip s.mem clus (some Cause.streamFormat)) w := by
  have ready : ¬ ((d.clus clus).array.d.isSome = true ∨ (d.clus clus).array.r.length < drainNeed ctl) := by
    simp [empty, here]
  change execCommandRetire clus s = _
  refine run_eff ?_
  simp only [hr, hf, hc, ready, if_false]
  refine if_pos (List.any_eq_true.mpr ?_)
  obtain ⟨p, mem, h1, h2, h3⟩ := bad
  refine ⟨p, mem, ?_⟩
  split <;> trivial

/-- MDRAIN puts its tile into the D stream (R229). -/
theorem mdrain_tile
    (good : ∀ p ∈ (d.clus clus).array.r.take (drainNeed ctl), p.1 = .f32 ∨ p.1 = .bf16 ∨ p.1 = .f16) :
    let t := drainTile ctl seed fm ((d.clus clus).array.r.take (drainNeed ctl)) (d.clus clus).array.acc[n.val]
    Writes (.commandRetire clus) s (((d.updArray clus (fun a => { a with r := a.r.drop (drainNeed ctl) })).updArray clus
      (fun a => { a with d := some t.1, fifo := { e with flags := t.2 } :: rest })).retire s.drip s.mem clus none) w := by
  have ready : ¬ ((d.clus clus).array.d.isSome = true ∨ (d.clus clus).array.r.length < drainNeed ctl) := by
    simp [empty, here]
  change execCommandRetire clus s = _
  refine run_eff ?_
  simp only [hr, hf, hc, ready, if_false]
  refine if_neg ?_
  rw [List.any_eq_true]
  rintro ⟨p, mem, bad⟩
  rcases good p mem with h | h | h <;> rw [h] at bad <;> cases bad

end

end

/-- Settles O35: MLAY, MMA and MDRAIN by what their descriptor, slabs and R elements are. -/
theorem arrayRetires : Obligations.ArrayRetires := by
  unfold Obligations.ArrayRetires
  exact fun s clus d w e rest hr hf =>
    ⟨fun n p t c l hc read => ⟨mlay_refused hr hf hc read, mlay_invalid hr hf hc read, mlay_active hr hf hc read⟩,
      fun n x y xs ys hc ha hb => ⟨mma_mixed hr hf hc ha hb, mma_done hr hf hc ha hb, mma_broken hr hf hc ha hb⟩,
      fun n ctl seed fm hc empty here => ⟨mdrain_format hr hf hc empty here, mdrain_tile hr hf hc empty here⟩⟩

/-! ### MZERO (R227) -/

/-- An array reads as it was changed. -/
theorem Dev.clus_updArray (d : Dev) (clus : Nat) (f : MArray → MArray) :
    (d.updArray clus f).clus clus = { d.clus clus with array := f (d.clus clus).array } := by
  unfold Dev.updArray
  rw [Dev.clus_setClus, if_pos rfl]

/-- A command that has raised no flag and ends without a report leaves the FIFO and its thread's M count (R223). -/
theorem Dev.retire_quiet {d : Dev} {drip : Nat} {mem : Memory} {clus : Nat} {e : MEntry} {rest : List MEntry}
    (hf : (d.clus clus).array.fifo = e :: rest) (flags : e.flags = 0) :
    d.retire drip mem clus none = ((d.updArray clus (fun a => { a with fifo := rest })).closeM drip mem e.src).updArray
      clus (fun a => a.takeStreams.advance) := by
  unfold Dev.retire
  simp only [hf, flags, Dev.raiseFlags_zero]
  split
  · rw [ite_self]
  · rfl

/-- MZERO clears its set, and ends (R227). -/
theorem mzero_retires {s : State} {clus : Nat} {d : Dev} {w : List (Nat × Byte)} {e : MEntry} {rest : List MEntry}
    {n : Fin 8} (hr : (s.dev.updArray clus MArray.advance).readDescs s.drip s.mem clus = (d, w))
    (hf : (d.clus clus).array.fifo = e :: rest) (hc : e.c = .mzero n) (flags : e.flags = 0) :
    Writes (.commandRetire clus) s ((((d.updArray clus (fun a => a.setAcc n accZero 0)).updArray clus
      (fun a => { a with fifo := rest })).closeM s.drip s.mem e.src).updArray clus (fun a => a.takeStreams.advance)) w := by
  have oldest : ((d.updArray clus (fun a => a.setAcc n accZero 0)).clus clus).array.fifo = e :: rest := by
    rw [Dev.clus_updArray]
    exact hf
  rw [← Dev.retire_quiet oldest flags]
  change execCommandRetire clus s = _
  refine run_eff ?_
  simp only [hr, hf, hc]

/-- The set that is written takes its value, and the others keep theirs. -/
theorem MArray.setAcc_acc (a : MArray) (n k : Fin 8) (v : List (BitVec 32)) (g : Nat) :
    (a.setAcc n v g).acc[k.val] = if k = n then v else a.acc[k.val] := by
  split
  next same => subst same; exact Vector.getElem_set_self _
  next other => exact Vector.getElem_set_ne n.isLt k.isLt (fun same => other (Fin.ext same.symm))

/-- Settles O36: MZERO's retirement, then what it leaves of each set and stream. -/
theorem mzeroClears : Obligations.MzeroClears := by
  unfold Obligations.MzeroClears
  refine ⟨fun s clus d w e rest n => mzero_retires, fun a n => ⟨?_, fun k other => ?_, rfl, rfl, rfl, rfl⟩⟩
  · rw [MArray.setAcc_acc, if_pos rfl]
  · rw [MArray.setAcc_acc, if_neg other]

end Sys2Proof.Machine
end

section
/-!
PROOFS. What an engine accepts, moves, lands and ends.
-/
namespace Sys2Proof.Machine
open Sys2Proof

/-! ### Acceptance (R218, R226, R231, R232, R237) -/

/-- The module once a command has come to its engine, and its promise is in the FIFO of its thread (R232). -/
def Dev.promised (d : Dev) (m : Nat) (src : From) (eng p : Nat) : Dev :=
  (d.drop m).tickFresh.pushResult src.tid eng (wd64 (p % 2 ^ 62))

/-- An engine takes a command, with its record and the grant it is bound to (R226, R237). -/
def Dev.queued (d : Dev) (m clus eng : Nat) (src : From) (c : ECmd) (l : Layout) (p : Nat)
    (b : Option (Nat × Nat)) : Dev :=
  d.updEngine clus eng (fun q => q ++ [⟨m, src, c, l, 0, p, false, b, none, none, false, false, none, false, false⟩])

/-- Why a feed ends at once (R218, R237): its record does not suit its stream, or it has no grant to be bound to. -/
def feedRefusal (l : Layout) (stream : Nat) (bound : Option (Nat × Nat)) : Option Nat :=
  if !l.suits stream then some Cause.streamShape
  else if stream < 3 && bound.isNone then some Cause.arrayLeaseLapsed
  else none

section
variable {l : Layout} {st : Nat} {b : Option (Nat × Nat)}

/-- A record that does not suit its stream ends the feed. -/
theorem feedRefusal_shape (bad : l.suits st = false) : feedRefusal l st b = some Cause.streamShape := by
  simp [feedRefusal, bad]

/-- A feed of an array's stream without a grant ends. -/
theorem feedRefusal_unbound (good : l.suits st = true) (array : st < 3) (free : b = none) :
    feedRefusal l st b = some Cause.arrayLeaseLapsed := by
  simp [feedRefusal, good, array, free]

/-- A feed whose record suits its stream, and that has a grant where it needs one, does not end. -/
theorem feedRefusal_none (good : l.suits st = true) (bound : st < 3 → b ≠ none) : feedRefusal l st b = none := by
  simpa [feedRefusal, good] using bound

end

/-- A copy is taken, with its promise. -/
theorem copy_taken {s : State} {m clus eng : Nat} {src : From} {c : ECmd} (h : s.reachesEngine m src clus eng c)
    (copy : ∀ r st g n, c ≠ .feed r st g n) {p : Nat} (hp : p = s.drip + Config.promiseAhead s.dev.fresh) :
    Yields (.engineAccept m) s ((s.dev.promised m src eng p).queued m clus eng src c Layout.zero p none) := by
  have message : s.dev.msg m = some (.engine src clus eng c) := h.carries
  subst hp
  change execEngineAccept m s = _
  refine event_ok ?_
  simp only [message]
  refine (if_neg (not_or.mpr ⟨Nat.not_le.mpr h.room,
    not_or.mpr ⟨Bool.eq_false_iff.mp h.turn, Bool.eq_false_iff.mp h.free⟩⟩)).trans ?_
  cases c with
  | feed r st g n => exact absurd rfl (copy r st g n)
  | xfer | pack | fpack => rfl

/-- A feed is taken with its promise, its record as it stands, and its core's live grant; or it ends at once. -/
theorem feed_judged {s : State} {m clus eng st g n : Nat} {src : From} {r : Fin 8}
    (h : s.reachesEngine m src clus eng (.feed r st g n)) {p : Nat} (hp : p = s.drip + Config.promiseAhead s.dev.fresh)
    {l : Layout} (hl : l = (s.dev.clus clus).array.act[r.val]) {o : Option Nat}
    (ho : feedRefusal l st (s.dev.boundTo s.drip clus src.core) = o) :
    Yields (.engineAccept m) s (o.elim
      ((s.dev.promised m src eng p).queued m clus eng src (.feed r st g n) l p (s.dev.boundTo s.drip clus src.core))
      (fun k => (s.dev.promised m src eng p).endCommand s.drip s.mem src eng (recordWord true k 0))) := by
  have message : s.dev.msg m = some (.engine src clus eng (.feed r st g n)) := h.carries
  subst hp hl ho
  change execEngineAccept m s = _
  refine event_ok ?_
  simp only [message]
  refine (if_neg (not_or.mpr ⟨Nat.not_le.mpr h.room,
    not_or.mpr ⟨Bool.eq_false_iff.mp h.turn, Bool.eq_false_iff.mp h.free⟩⟩)).trans ?_
  change Res.eff (match feedRefusal (s.dev.clus clus).array.act[r.val] st (s.dev.boundTo s.drip clus src.core) with
    | some k => _
    | none => _) [] = _
  cases feedRefusal (s.dev.clus clus).array.act[r.val] st (s.dev.boundTo s.drip clus src.core) <;> rfl

/-! ### The command that an engine serves (R157, R231) -/

/-- The command that an engine serves does what its step does with it. -/
theorem engineStep_ok {s : State} {clus eng : Nat} {e : EEntry} (h : s.dev.servesCmd clus eng e)
    {f : Nat → Memory → Dev → EEntry → Res} {d : Dev} {w : List (Nat × Byte)}
    (hf : f s.drip s.mem s.dev e = .eff d w) :
    engineStep clus eng f s = .next { s with dev := d, mem := s.mem.writeAll w } := by
  obtain ⟨rest, oldest⟩ := List.head?_eq_some_iff.mp h.oldest
  obtain ⟨going, good, left⟩ := h.runs
  have runs : ¬ (e.stop.isSome = true ∨ e.fail.isSome = true ∨ e.finished = true ∨ s.dev.srcStopped e.src = true ∨
      (!s.dev.acked e.src) = true) := by
    simp [going, good, left, h.free, h.acked]
  have leave : ¬ (2 ^ 20 < e.bytes ∧ (!e.leave) = true) := by
    rintro ⟨large, without⟩
    rcases h.leave with small | has
    · omega
    · rw [has] at without
      cases without
  refine run_eff ?_
  simp only [oldest, runs, leave, if_false]
  exact hf

/-- The command that an engine serves, where its step writes no memory. -/
theorem engineStep_dev {s : State} {clus eng : Nat} {e : EEntry} (h : s.dev.servesCmd clus eng e)
    {f : Nat → Memory → Dev → EEntry → Res} {d : Dev} (hf : f s.drip s.mem s.dev e = .eff d []) :
    engineStep clus eng f s = .next (s.withDev d) := engineStep_ok h hf

/-! ### Copies (R234) -/

section
variable {d : Dev} {drip : Nat} {mem : Memory} {clus eng dst src n : Nat} {dsp ssp : Space} {e : EEntry}
  {rs ws : List Nat}

/-- A piece whose places can be read and written is moved. -/
theorem copyPiece_got {p : Nat × Nat} (hp : p = nextPiece dst src n e.pos (copyDown dst src n dsp ssp))
    (read : d.pieceGot drip mem e.src .read ssp (src + p.1) p.2 = .ok rs)
    (write : d.pieceGot drip mem e.src .write dsp (dst + p.1) p.2 = .ok ws) :
    d.copyPiece drip mem clus eng e dst src n dsp ssp
      = d.movePiece drip mem clus eng e (wd64 (dst + p.1)) (wd64 (src + p.1)) dsp ssp rs ws := by
  subst hp
  simp only [Dev.copyPiece, read, write]

/-- A piece that has its banks of the gallery moves: its lines are noted and sampled, and its bytes written. -/
theorem movePiece_near {out into : Word} {k : Dev}
    (near : d.takeNear drip clus [if ssp = .gall then rs else [], if dsp = .gall then ws else []] = some k) :
    d.movePiece drip mem clus eng e into out dsp ssp rs ws =
      let k := k.visitRead drip mem e.src rs
      let k := if ssp = .glob then k.samplePiece drip mem e.src .read out else k
      let k := if dsp = .glob then k.samplePiece drip mem e.src .write into else k
      let w := k.unitStore drip mem e.src (ws.zip (rs.map (k.unitByte drip mem)))
      .eff (w.1.updHead clus eng (fun x => { x with pos := e.pos + ws.length, held := false })) w.2 := by
  simp only [Dev.movePiece, near]

end

/-- The next piece of a copy moves (R234). -/
theorem copy_moves {s : State} {clus eng dst src n : Nat} {dsp ssp : Space} {e : EEntry} {rs ws : List Nat} {d : Dev}
    (h : s.dev.servesCmd clus eng e) (hc : e.c = .xfer dst src n dsp ssp) {p : Nat × Nat}
    (hp : p = nextPiece dst src n e.pos (copyDown dst src n dsp ssp))
    (read : s.dev.pieceGot s.drip s.mem e.src .read ssp (src + p.1) p.2 = .ok rs)
    (write : s.dev.pieceGot s.drip s.mem e.src .write dsp (dst + p.1) p.2 = .ok ws)
    (near : s.dev.takeNear s.drip clus [if ssp = .gall then rs else [], if dsp = .gall then ws else []] = some d) :
    let d := d.visitRead s.drip s.mem e.src rs
    let d := if ssp = .glob then d.samplePiece s.drip s.mem e.src .read (wd64 (src + p.1)) else d
    let d := if dsp = .glob then d.samplePiece s.drip s.mem e.src .write (wd64 (dst + p.1)) else d
    let w := d.unitStore s.drip s.mem e.src (ws.zip (rs.map (d.unitByte s.drip s.mem)))
    Writes (.enginePiece clus eng) s
      (w.1.updHead clus eng (fun x => { x with pos := e.pos + ws.length, held := false })) w.2 := by
  change execEnginePiece clus eng s = _
  refine engineStep_ok h ?_
  simp only [hc]
  exact (copyPiece_got hp read write).trans (movePiece_near near)

/-! ### Feeds of A, B and R (R228, R237) -/

section
variable {k : Dev} {drip clus stream : Nat} {e : EEntry} (owner : (k.clus clus).array.owner = some e.src.core)
include owner

/-- A feed whose core the streams serve fails neither for its core nor, while its grant lives, for a unit it holds. -/
theorem feed_keeps {g : Nat × Nat} (lives : e.held = true → k.grantOver drip clus g.1 g.2 = false) (current : Bool) :
    ¬ (((k.clus clus).array.owner ≠ some e.src.core ∧ (!current) = true) ∨
      (e.held = true ∧ k.grantOver drip clus g.1 g.2 = true)) := by
  rintro (⟨lost, -⟩ | ⟨held, done⟩)
  · exact lost owner
  · rw [lives held] at done
    cases done

/-- A feed whose core the streams serve does not wait while its stream has room. -/
theorem feed_room (room : (k.clus clus).array.full stream e = false) :
    ¬ ((k.clus clus).array.owner ≠ some e.src.core ∨ (k.clus clus).array.full stream e = true) :=
  not_or.mpr ⟨not_not_intro owner, Bool.eq_false_iff.mp room⟩

end

section
variable {s : State} {clus eng stream gall len : Nat} {lrec : Fin 8} {e : EEntry} {k : Dev}
  (h : s.dev.servesCmd clus eng e) (hc : e.c = .feed lrec stream gall len) (hs : stream ≠ 3)
  (hk : k = s.dev.giveUp s.drip s.mem clus)
include h hc hs hk

/-- A feed whose grant has lost the streams fails (R237). -/
theorem feed_lost (lost : (k.clus clus).array.owner ≠ some e.src.core)
    (other : ∀ x, (k.clus clus).array.grant = some x → (x.index, x.gen) ≠ e.bound.getD (0, 0)) :
    Yields (.streamUnitLand clus eng) s (k.failHead clus eng Cause.arrayLeaseLapsed) := by
  subst hk
  change execStreamUnitLand clus eng s = _
  refine engineStep_dev h ?_
  simp only [hc, hs, if_false]
  refine if_pos (.inl ⟨lost, ?_⟩)
  split
  next x hx =>
    have apart := other x hx
    rw [Bool.not_eq_true', ← Bool.not_eq_true, Bool.and_eq_true, beq_iff_eq, beq_iff_eq]
    exact fun ⟨index, gen⟩ => apart (Prod.ext index gen)
  next => rfl

section
variable (owner : (k.clus clus).array.owner = some e.src.core)
  (lives : e.held = true → k.grantOver s.drip clus (e.bound.getD (0, 0)).1 (e.bound.getD (0, 0)).2 = false)
  (room : (k.clus clus).array.full stream e = false)
include owner lives room

/-- A feed whose next unit is refused fails with the cause (R237). -/
theorem feed_refused {c : Nat}
    (no : k.unitGot s.drip s.mem e .read (e.lay.unitAt e.pos) (unitBytes e.lay.fmt) gall len = .refused c) :
    Yields (.streamUnitLand clus eng) s (k.failHead clus eng c) := by
  subst hk
  change execStreamUnitLand clus eng s = _
  refine engineStep_dev h ?_
  simp only [hc, hs, if_false]
  refine (if_neg (feed_keeps owner lives _)).trans ((if_neg (feed_room owner room)).trans ?_)
  simp only [no]

/-- A feed's next unit lands, with its scale where its format has one (R219, R237). -/
theorem feed_lands {rs ss : List Nat} {d : Dev}
    (unit : k.unitGot s.drip s.mem e .read (e.lay.unitAt e.pos) (unitBytes e.lay.fmt) gall len = .ok rs)
    (scale : (e.lay.scaleAt e.pos).elim (Got.ok []) (fun a => k.unitGot s.drip s.mem e .read a 1 gall len) = .ok ss)
    (near : k.takeNear s.drip clus [e.lay.cycle gall e.pos] = some d) :
    let v := gather (d.unitByte s.drip s.mem)
    let d := d.visitRead s.drip s.mem e.src (rs ++ ss)
    let d := if e.lay.sp = 2 then d else d.samplePiece s.drip s.mem e.src .read (e.lay.unitAt e.pos)
    Yields (.streamUnitLand clus eng) s
      ((d.countConfl clus lrec e.lay e.pos).landUnit clus eng stream e (v rs, v ss)) := by
  subst hk
  change execStreamUnitLand clus eng s = _
  refine engineStep_dev h ?_
  simp only [hc, hs, if_false]
  refine (if_neg (feed_keeps owner lives _)).trans ((if_neg (feed_room owner room)).trans ?_)
  cases place : e.lay.scaleAt e.pos with
  | none =>
    rw [place, Option.elim_none] at scale
    cases scale
    simp only [unit, Dev.feedUnit, near]
  | some a =>
    rw [place, Option.elim_some] at scale
    simp only [unit, scale, Dev.feedUnit, near]

end

end

/-! ### Feeds of D (R229, R237) -/

section
variable {s : State} {clus eng gall len : Nat} {lrec : Fin 8} {e : EEntry} {t : Tile} {d : Dev}
  (h : s.dev.servesCmd clus eng e) (hc : e.c = .feed lrec 3 gall len) (untiled : e.tile = none)
  (here : (s.dev.clus clus).array.d = some t) (hd : d = s.dev.updArray clus (fun a => { a with d := none }))
include h hc untiled here hd

/-- A D feed takes a tile of its format from the stream. -/
theorem tile_taken (same : t.fmt = e.lay.fmt) :
    Yields (.enginePiece clus eng) s (d.updHead clus eng (fun x => { x with tile := some t })) := by
  subst hd
  change execEnginePiece clus eng s = _
  refine engineStep_dev h ?_
  simp only [hc, Dev.drainPiece, untiled, here]
  exact if_neg (not_not_intro same)

/-- A D feed fails at a tile of another format. -/
theorem tile_misshaped (other : t.fmt ≠ e.lay.fmt) :
    Yields (.enginePiece clus eng) s (d.failHead clus eng Cause.streamShape) := by
  subst hd
  change execEnginePiece clus eng s = _
  refine engineStep_dev h ?_
  simp only [hc, Dev.drainPiece, untiled, here]
  exact if_pos other

end

/-! ### Promises and the end of a command (R232, R239) -/

/-- A command that has missed its promise is reported, with a new promise, or with 0 while it is stopped. -/
theorem promise_missed {s : State} {clus eng : Nat} {e : EEntry} {p : Nat}
    (late : ((s.dev.clus clus).eng eng).cmds.find? (fun e => e.late s.drip && !s.dev.srcStopped e.src) = some e)
    (hp : p = s.drip + 1 + Config.promiseAhead s.dev.fresh) :
    Yields (.promiseMissed clus eng) s ((s.dev.tickFresh.updEngine clus eng (fun l => l.map (fun x =>
      if x.num ≠ e.num then x else if e.stop.isSome then { x with missed := true } else { x with promise := p }))).send
      (.report e.src.tid Cause.promiseMissed (if e.stop.isSome then 0 else wd64 p))) := by
  subst hp
  change execPromiseMissed clus eng s = _
  refine event_ok ?_
  simp only [late]
  rfl

/-- A command that is over leaves its engine, with its record, and its leave returns; slabs that a feed leaves
incomplete are broken (R237). -/
theorem command_ends {s : State} {clus eng : Nat} {e : EEntry} {rest : List EEntry} {d k : Dev}
    (oldest : ((s.dev.clus clus).eng eng).cmds = e :: rest) (going : e.stop = none)
    (done : e.fail = none → e.finished = true)
    (hd : d = (if e.late s.drip then s.dev.missReport s.drip clus eng e else s.dev).updEngine clus eng List.tail)
    (copy : (∀ r st g n, e.c ≠ .feed r st g n) → k = d)
    (feed : ∀ r st g n, e.c = .feed r st g n → k = d.updArray clus (fun a =>
      (if st = 0 then { a with a := breakSlabs eng a.a } else if st = 1 then { a with b := breakSlabs eng a.b } else a :
        MArray).advance)) :
    Yields (.engineCompletion clus eng) s ((if e.asked then k.returnLeave (leaveCopy e.num) else k).endCommand
      s.drip s.mem e.src eng (recordWord (e.fail.any (fun c => c != Cause.compressRefused)) (e.fail.getD 0) e.pos)) := by
  have ends : ¬ (e.stop.isSome = true ∨ (e.fail.isNone = true ∧ (!e.finished) = true)) := by
    rw [going]
    rintro (stopped | ⟨good, left⟩)
    · cases stopped
    · rw [done (Option.isNone_iff_eq_none.mp good)] at left
      cases left
  subst hd
  change execEngineCompletion clus eng s = _
  refine event_ok ?_
  simp only [oldest, ends, if_false]
  cases hc : e.c with
  | feed r st g n => rw [feed r st g n hc]
  | xfer | pack | fpack => rw [copy (fun r st g n no => by rw [hc] at no; cases no)]

/-- Settles O38: commands accepted, copies, feeds of A, B and R, feeds of D, missed promises, and ends. -/
theorem enginesMove : Obligations.EnginesMove := by
  unfold Obligations.EnginesMove
  refine ⟨fun s m clus eng src c h => ⟨s.drip + Config.promiseAhead s.dev.fresh, Nat.le_add_right _ _,
      fun copy => copy_taken h copy rfl, ?_⟩,
    fun s clus eng dst src n dsp ssp e rs ws d h hc read write near => copy_moves h hc rfl read write near,
    fun s clus eng stream gall len lrec e k h hc hs hk => ⟨feed_lost h hc hs hk, fun owner lives room =>
      ⟨fun c => feed_refused h hc hs hk owner lives room, fun rs ss d => feed_lands h hc hs hk owner lives room⟩⟩,
    fun s clus eng gall len lrec e t h hc untiled here =>
      ⟨tile_taken h hc untiled here rfl, tile_misshaped h hc untiled here rfl⟩,
    fun s clus eng e late => ⟨s.drip + 1 + Config.promiseAhead s.dev.fresh, by omega, promise_missed late rfl⟩,
    fun s clus eng e rest d k oldest going done hd copy feed => command_ends oldest going done hd copy feed⟩
  rintro r st g n rfl
  exact ⟨fun bad => feed_judged h rfl rfl (feedRefusal_shape bad),
    fun good array free => feed_judged h rfl rfl (feedRefusal_unbound good array free),
    fun good bound => feed_judged h rfl rfl (feedRefusal_none good bound)⟩

end Sys2Proof.Machine
end

section
/-!
PROOFS. Heads whose access is always served at its home, and ATOM.
-/
namespace Sys2Proof.Machine
open Sys2Proof

/-! ### Threads that an update leaves as they are -/

/-- Writing the value that a key has changes nothing. -/
theorem put_of_find? {α : Type} {k : Nat} {v : α} : ∀ {m : List (Nat × α)}, find? k m = some v → put k v m = m
  | (j, w) :: m, h => by
    by_cases hj : j = k
    · subst hj
      obtain rfl : w = v := by simpa [find?] using h
      simp [put]
    · simp only [find?, hj, if_false] at h
      simp [put, hj, put_of_find? h]

/-- Putting a thread back as it is changes nothing. -/
theorem Dev.updThr_id (d : Dev) (k : Nat) : d.updThr k id = d := by
  unfold Dev.updThr
  split
  · next t h =>
    unfold Dev.setThr
    rw [id, put_of_find? h]
  · rfl

/-- A change of a thread takes no operation's number. -/
@[simp] theorem Dev.updThr_nextOp (d : Dev) (k : Nat) (f : Thread → Thread) : (d.updThr k f).nextOp = d.nextOp := by
  unfold Dev.updThr
  split <;> rfl

/-! ### BLD, TAGLD and MCSLD (R250, R297, R299) -/

/-- The module once a load that is served at its home has been sent, its thread changed by `e` before. -/
def In.homeSent (i : In) (e : Thread → Thread) (q : HomeLoad) : Dev :=
  i.samples [(q.key, [()])] (((((i.dev.updThr i.tid e).openOp i.tid 1 true (some q.d) none q.kp).1).setOp
    i.dev.nextOp .none []).send
      (.acc (i.acc q.op q.key i.dev.nextOp q.d .sys false false q.major q.minor .travelling)))

/-- A load of one place that nothing holds, over which no entry of the store buffer lies, and for which there is room
is sent to its home. -/
theorem homeLoad_ok {i : In} (e : Thread → Thread) (q : HomeLoad) (ho : i.ordered true = true)
    (hl : i.canLoad q.key.line = true) (hs : (i.base.core i.core).sb.any (fun b => b.op.overlaps q.at' q.n) = false) :
    { i with dev := i.dev.updThr i.tid e }.homeLoad q.key q.at' q.n q.d q.kp q.major q.minor q.op
      = .ok (i.homeSent e q) [] := by
  unfold In.homeSent
  rw [← Dev.updThr_nextOp i.dev i.tid e]
  refine if_neg ?_
  change ¬ ((!i.ordered true) = true ∨ (!i.canLoad q.key.line) = true
    ∨ (i.base.core i.core).sb.any (fun b => b.op.overlaps q.at' q.n) = true)
  rw [ho, hl, hs]
  decide

/-- The same for a head that leaves its thread as it is. -/
theorem homeLoad_plain_ok {i : In} (q : HomeLoad) (ho : i.ordered true = true)
    (hl : i.canLoad q.key.line = true) (hs : (i.base.core i.core).sb.any (fun b => b.op.overlaps q.at' q.n) = false) :
    i.homeLoad q.key q.at' q.n q.d q.kp q.major q.minor q.op = .ok (i.homeSent id q) [] := by
  have sent := homeLoad_ok id q ho hl hs
  rwa [Dev.updThr_id] at sent

/-- A head of these loads whose condition holds sends its form's load. -/
theorem exec_homeLoad {x : Instr} {p : Bool} {g : Guard} {u : Uses} {c : In → Prop} {e : In → Thread → Thread}
    {f : In → HomeLoad} (h : HomeLoadForm x p g u c e f) : ∃ b : In → Out, (∀ s, exec x s = run (issueS p g u b) s) ∧
      ∀ i, c i → i.ordered true = true → i.canLoad (f i).key.line = true →
        (i.base.core i.core).sb.any (fun b => b.op.overlaps (f i).at' (f i).n) = false →
        b i = .ok (i.homeSent (e i) (f i)) [] := by
  cases h with
  | bld o l p =>
    exact ⟨_, fun _ => rfl, fun i hr ho hl hs => (one_ok hr _).trans (homeLoad_plain_ok
      ⟨onePiece (i.a + o.off.signExtend 64) l p, p, 8, o.d, some o.kp, 0x2C, 4, .bld p o.d o.kp i.t.view.toNat⟩
      ho hl hs)⟩
  | tagld o l p =>
    refine ⟨_, fun _ => rfl, fun i ⟨hr, untagged⟩ ho hl hs => (one_ok hr _).trans ?_⟩
    refine (if_neg fun tagged => ?_).trans (homeLoad_plain_ok ⟨{ onePiece i.a l p with tag := false }, p / 32 * 32, 0,
      o.d, none, 0x2E, 1, .tagld (p / 32 * 32) i.a o.d⟩ ho hl hs)
    obtain ⟨a, ha, same⟩ := List.any_eq_true.mp tagged
    split at same
    · next g v hop => exact untagged a ha g v hop (by simpa using same)
    · cases same
  | mcsld o l p =>
    refine ⟨_, fun _ => rfl, fun i ⟨hr, host, few⟩ ho hl hs => (one_ok hr _).trans ?_⟩
    refine (if_neg ?_).trans (homeLoad_ok (fun t => { t with
      mcsLines := if t.mcsLines.contains (lineOf p) then t.mcsLines else t.mcsLines ++ [lineOf p] })
      ⟨onePiece i.a l p, p, 8, o.d, none, 0x2D, 0, .mcsld p o.d⟩ ho hl hs)
    rintro (other | ⟨fresh, full⟩)
    · exact other host
    · rcases few with old | room
      · rw [old] at fresh
        cases fresh
      · omega

/-! ### ATOM (R289) -/

/-- A release at a scope beyond the core waits for older stores, as behind a releasing fence (R269, R281). -/
theorem releases_eq_waitsOlder (i : In) (rel : Bool) (sc : Scope) : i.releases rel sc = i.waitsOlder rel sc :=
  congrArg (fun b => (rel && b) || i.base.storesBelow i.tid i.core i.t.fenceRel) (not_nearOnly sc)

/-- ATOM that reaches its place, that nothing holds and for which there is room enters the store buffer. -/
theorem atom_ok {o : AtomInstr} {s : State} {j : In} {l : Word} {p n : Nat} (hn : n = if o.dw then 8 else 4)
    (h : IssuesS s false o.g (atomUses o) j) (hr : Reaches j .atomic (j.a + o.off.signExtend 64) n l p)
    (ho : j.ordered false = true) (hl : j.room true 1 = true) (hb : j.sbRoom 1 = true)
    (hm : j.base.missUsed j.core < 48) :
    exec (.atom o) s = .next (s.withDev (j.samples [(onePiece (j.a + o.off.signExtend 64) l p, [()])]
      ((((j.dev.openOp j.tid 1 true (some o.d) none none).1).holdFor j.tid j.dev.nextOp
          (o.od == .acq || o.od == .acr)).pushSb j.core
        [j.acc (.atom o.op p n j.b j.c o.d) (onePiece (j.a + o.off.signExtend 64) l p) j.dev.nextOp o.d o.sc false
          (j.waitsOlder (o.od == .rel || o.od == .acr) o.sc) 0x16 o.op.code .travelling]))) := by
  subst hn
  rw [← releases_eq_waitsOlder]
  refine issueS_ok h ((one_ok hr _).trans (if_neg ?_))
  simp [ho, hl, hb, Nat.not_le.mpr hm]

/-- Settles O11: the loads that are always served at their home, then ATOM. -/
theorem homeReads : Obligations.HomeReads := by
  unfold Obligations.HomeReads
  refine ⟨fun x p g u c e f hx s j h hc ho hl hs => ?_,
    fun o s j l p n hn h hr ho hl hb hm => atom_ok hn h hr ho hl hb hm⟩
  obtain ⟨b, hb, hbody⟩ := exec_homeLoad hx
  rw [hb s]
  exact issueS_ok h (hbody j hc ho hl hs)

end Sys2Proof.Machine
end

section
/-!
PROOFS. Bundled updates: what a record and the homes of its lines gather, how a seal and its stamp go out, and which
version a view reads.
-/
namespace Sys2Proof.Machine
open Sys2Proof

/-! ### BOPEN (R246) -/

/-- BOPEN of a line that its home may take and that keys no record makes one. -/
theorem bundle_opens {s : State} {d e : Dev} {m line n r : Nat} {src : From} {va h : Word}
    (ha : s.asks m src (.bopen line va n r) (s.dev.drop m)) (hd : d = (s.dev.drop m).touch src.core line)
    (reached : d.cutOff line = false) (inUse : d.outOfUse (d.homeOf (coreDie src.core) line) = false)
    (covered : d.judgeRange s.drip src.ctx line = none) (fresh : d.keyed line = none)
    (granted : d.grantLease s.drip (d.homeOf (coreDie src.core) line) .bundle (some src.ctx) src.tenant src.ctx
      (d.clock s.drip (d.homeOf (coreDie src.core) line).mod + n) none (.bundle ⟨line, va, r, .opened, [], []⟩)
      = (e, some h)) : Yields (.bundleOpenArrival m) s (e.reply src h) := by
  change execBundleOpenArrival m s = _
  refine onReq_dev ha ?_
  simp only [← hd, reached, inUse, covered, fresh, granted, Option.isSome_none, Bool.false_eq_true, if_false]

/-! ### Stores under a bundle (R247) -/

/-- A line held at its slice leaves the clocks. -/
theorem Dev.holdLine_clock (d : Dev) (drip : Nat) (mem : Memory) (line : Nat) (write : Bool) (w : List (Nat × Byte))
    (t k : Nat) : (d.holdLine drip mem line write w).clock t k = d.clock t k := by
  rw [Dev.holdLine_frame]
  rfl

/-- The module once a bundle's first store to a line has left the version `now` that it found, of the stamp `oc`,
readable, and joins its record; `prev` is what the line named before (R247). -/
def Dev.firstStore (d : Dev) (m : Nat) (a : Acc) (bytes : List MByte) (l : Lease) (now : BitVec 1024)
    (prev : Option (Option (AgentId × Nat × Nat) × Option Nat)) (oc : Nat) : Dev :=
  ((d.drop m).setBline ⟨a.line, some (l.agent, l.index, l.gen), none, patch a.line bytes now, some (now, oc, none),
    prev, false⟩).send (.join a.src l.agent l.index l.gen a.line a.va a)

/-- What an accepted store of the bundle `l` does at its line, by what the line names: `d` is the module before the line
stands at its slice, `e` the one after. -/
def Dev.bundleStore (d e : Dev) (drip : Nat) (mem : Memory) (m : Nat) (a : Acc) (bytes : List MByte) (l : Lease) : Res :=
  let first := fun prev oc => Res.eff (e.firstStore m a bytes l (BitVec.ofNat 1024 (mem.readN a.line 128)) prev oc) []
  match d.bline a.line with
  | none => first none 0
  | some b =>
    if b.nb = some (l.agent, l.index, l.gen) then
      match b.known with
      | none => .eff (((e.drop m).setBline { b with pending := patch a.line bytes b.pending }).send (.ack a.src)) []
      | some _ => .eff ((e.drop m).send (.ack a.src)) (e.homeWrite drip mem bytes)
    else if b.nb.isSome ∧ b.known.isNone then .eff ((e.askBundle (d.accHome a) a.line).doomFirst m a l Cause.conflict) []
    else if (b.held (d.clock drip (d.accHome a).mod)).isSome then .eff (d.doomFirst m a l Cause.conflict) []
    else first (some (b.nb, b.known)) (b.known.getD 0)

section
variable {s : State} {d e : Dev} {m : Nat} {a : Acc} {h : Word} {bytes : List MByte} {l : Lease}
  (hm : s.carries m (.acc a)) (hop : a.op = .bst h bytes) (takes : s.bundleTakes d m a h l)
  (he : e = d.holdLine s.drip s.mem a.line true [])
include hm hop takes he

/-- A bundle store that passes its checks is judged by what its line names. -/
theorem bundle_store {k : Dev} {w : List (Nat × Byte)} (hk : d.bundleStore e s.drip s.mem m a bytes l = .eff k w) :
    Writes (.bundleStoreArrival m) s k w := by
  obtain ⟨touched, turn, named, ⟨reached, inUse⟩, range, live, holder, tag, exact'⟩ := takes
  have hm : s.dev.msg m = some (.acc a) := hm
  subst he
  change execBundleStoreArrival m s = _
  refine run_eff ?_
  rw [← hk]
  simp only [hm, hop, turn, ← touched, named, reached, inUse, live, holder, tag, exact', Bool.not_true,
    Option.isSome_none, Bool.false_eq_true, ne_eq, not_true_eq_false, if_false,
    Dev.holdLine_bline, Dev.holdLine_clock]
  cases hr : d.rangeOf a.line with
  | none => rfl
  | some r =>
    obtain ⟨mine, alive⟩ := range r hr
    simp only [Option.any_some, mine, alive, bne_self_eq_false, Bool.false_eq_true, if_false]
    rfl

/-- The same for a store that leaves memory as it is. -/
theorem bundle_store_dev {k : Dev} (hk : d.bundleStore e s.drip s.mem m a bytes l = .eff k []) :
    Yields (.bundleStoreArrival m) s k := bundle_store hm hop takes he hk

/-- A store to a line that names no bundle makes its first pending version. -/
theorem bundle_store_fresh (hb : d.bline a.line = none) : Yields (.bundleStoreArrival m) s
    (e.firstStore m a bytes l (BitVec.ofNat 1024 (s.mem.readN a.line 128)) none 0) := by
  refine bundle_store_dev hm hop takes he ?_
  simp only [Dev.bundleStore, hb]

section
variable {b : BLine} (hb : d.bline a.line = some b)
include hb

/-- A later store of the bundle before its seal changes the pending version. -/
theorem bundle_store_pending (mine : b.nb = some (l.agent, l.index, l.gen)) (unsealed : b.known = none) :
    Yields (.bundleStoreArrival m) s
      (((e.drop m).setBline { b with pending := patch a.line bytes b.pending }).send (.ack a.src)) := by
  refine bundle_store_dev hm hop takes he ?_
  simp only [Dev.bundleStore, hb, mine, unsealed, if_true]

/-- A store of the bundle after its seal changes the line. -/
theorem bundle_store_sealed {c : Nat} (mine : b.nb = some (l.agent, l.index, l.gen)) (stamp : b.known = some c) :
    Writes (.bundleStoreArrival m) s ((e.drop m).send (.ack a.src)) (e.homeWrite s.drip s.mem bytes) := by
  refine bundle_store hm hop takes he ?_
  simp only [Dev.bundleStore, hb, mine, stamp, if_true]

variable {r : AgentId × Nat × Nat} (nb : b.nb = some r) (other : r ≠ (l.agent, l.index, l.gen))
include nb other

/-- A store to a line whose bundle has its stamp, and whose old version is gone, makes a pending version. -/
theorem bundle_store_next {c : Nat} (stamp : b.known = some c)
    (gone : b.held (d.clock s.drip (d.accHome a).mod) = none) : Yields (.bundleStoreArrival m) s
      (e.firstStore m a bytes l (BitVec.ofNat 1024 (s.mem.readN a.line 128)) (some (b.nb, b.known)) c) := by
  refine bundle_store_dev hm hop takes he ?_
  simp only [Dev.bundleStore, hb, nb, stamp, gone, Option.some.injEq, other, if_false]
  rfl

/-- A store to a line whose bundle has its stamp, and whose old version is still held, dooms its own bundle. -/
theorem bundle_store_early {c : Nat} (stamp : b.known = some c)
    (held : b.held (d.clock s.drip (d.accHome a).mod) ≠ none) :
    Yields (.bundleStoreArrival m) s (d.doomFirst m a l Cause.conflict) := by
  have kept : (b.held (d.clock s.drip (d.accHome a).mod)).isSome = true := Option.isSome_iff_ne_none.mpr held
  refine bundle_store_dev hm hop takes he ?_
  simp only [Dev.bundleStore, hb, nb, stamp, kept, Option.some.injEq, other, if_false]
  rfl

/-- A store to a line whose bundle is not known to be sealed asks that bundle's record, and dooms its own bundle. -/
theorem bundle_store_conflict (unsealed : b.known = none) : Yields (.bundleStoreArrival m) s
    ((e.askBundle (d.accHome a) a.line).doomFirst m a l Cause.conflict) := by
  refine bundle_store_dev hm hop takes he ?_
  simp only [Dev.bundleStore, hb, nb, unsealed, Option.some.injEq, other, if_false]
  rfl

end
end

/-! ### Joins and dooms (R247, R296) -/

/-- The homes that name a record once `home` is one of them. -/
def namingWith (home : AgentId) (l : List AgentId) : List AgentId := if l.contains home then l else l ++ [home]

theorem namingWith_contains (home : AgentId) (l : List AgentId) : (namingWith home l).contains home = true := by
  unfold namingWith
  split
  · assumption
  · simp

theorem mem_namingWith {home x : AgentId} {l : List AgentId} (h : x ∈ l) : x ∈ namingWith home l := by
  unfold namingWith
  split
  · exact h
  · exact List.mem_append_left _ h

section
variable {s : State} {m ix g : Nat} {ag : AgentId} {l : Lease} {b : Bundle}

section
variable {line : Nat} {src : From} {va : Word} {a : Acc} (hm : s.carries m (.join src ag ix g line va a))
  (hr : (s.dev.drop m).record (ag, ix, g) = some (l, b))
include hm hr

/-- A companion that an open record has is acknowledged again. -/
theorem join_again (opened : b.st = .opened) (old : b.comps.any (fun p => p.1 = line) = true) :
    Yields (.join m) s ((s.dev.drop m).send (.ack src)) := by
  have hm : s.dev.msg m = some (.join src ag ix g line va a) := hm
  change execJoin m s = _
  refine event_ok ?_
  simp only [hm, hr, opened, old, if_true]

/-- A new companion with a place in the record, and its home too, joins. -/
theorem join_taken (opened : b.st = .opened) (new : b.comps.any (fun p => p.1 = line) = false)
    (few : b.comps.length < 64)
    (home : b.naming.contains ((s.dev.drop m).lineHome line) = true ∨ b.naming.length < 16) :
    Yields (.join m) s (((s.dev.drop m).setRecord l { b with
      comps := b.comps ++ [(line, va)]
      naming := namingWith ((s.dev.drop m).lineHome line) b.naming }).send (.ack src)) := by
  have hm : s.dev.msg m = some (.join src ag ix g line va a) := hm
  have room : ¬ (64 ≤ b.comps.length ∨
      ((!b.naming.contains ((s.dev.drop m).lineHome line)) = true ∧ 16 ≤ b.naming.length)) := by
    rintro (many | ⟨unnamed, full⟩)
    · omega
    · rcases home with named | few
      · rw [named] at unnamed
        cases unnamed
      · omega
  change execJoin m s = _
  refine event_ok ?_
  simp only [hm, hr, opened, new, room, Bool.false_eq_true, if_false, namingWith]

/-- A join that is refused: the line goes back to what it was, if the bundle names it. -/
def Dev.refuseJoin (d : Dev) (drip m line : Nat) (r : AgentId × Nat × Nat) (src : From) (a : Acc) : Dev :=
  (if d.names line r then d.restoreLine line else d).refuseAcc drip m { a with src := src } Cause.conflict 0 0

/-- A new companion past 64 lines or 16 homes dooms the bundle. -/
theorem join_dooms (opened : b.st = .opened) (new : b.comps.any (fun p => p.1 = line) = false)
    (full : 64 ≤ b.comps.length ∨
      (b.naming.contains ((s.dev.drop m).lineHome line) = false ∧ 16 ≤ b.naming.length)) :
    Yields (.join m) s
      (((s.dev.drop m).setRecord l { b with st := .doomed }).refuseJoin s.drip m line (ag, ix, g) src a) := by
  have hm : s.dev.msg m = some (.join src ag ix g line va a) := hm
  have full : 64 ≤ b.comps.length ∨
      ((!b.naming.contains ((s.dev.drop m).lineHome line)) = true ∧ 16 ≤ b.naming.length) :=
    full.imp_right (And.imp_left (by simp))
  change execJoin m s = _
  refine event_ok ?_
  simp only [hm, hr, opened, new, full, Bool.false_eq_true, if_false, if_true]
  rfl

/-- A record whose bundle is sealed or aborted refuses. -/
theorem join_refused (past : b.st = .aborted ∨ ∃ c, b.st = .sealed c) :
    Yields (.join m) s ((s.dev.drop m).refuseJoin s.drip m line (ag, ix, g) src a) := by
  have hm : s.dev.msg m = some (.join src ag ix g line va a) := hm
  change execJoin m s = _
  refine event_ok ?_
  rcases past with st | ⟨c, st⟩ <;> simp only [hm, hr, st] <;> rfl

end

/-- A doom is recorded at its open record, and then its refusal goes to the core. -/
theorem doom_recorded {c : Nat} {src : From} {a : Acc} (hm : s.carries m (.doom src ag ix g a c))
    (hr : s.dev.record (ag, ix, g) = some (l, b)) (opened : b.st = .opened) :
    Yields (.doom m) s
      ((s.dev.setRecord l { b with st := .doomed }).refuseAcc s.drip m { a with src := src } c 0 0) := by
  have hm : s.dev.msg m = some (.doom src ag ix g a c) := hm
  change execDoom m s = _
  refine event_ok ?_
  simp only [hm, hr, opened, if_true]

end

/-- Settles O26: BOPEN, the stores by what their line names, the joins by the record's state and room, and dooms. -/
theorem bundlesGather : Obligations.BundlesGather := by
  unfold Obligations.BundlesGather
  refine ⟨fun s d e m line n r src va h => bundle_opens,
    fun s d m a h bytes l hm hop takes => ⟨bundle_store_fresh hm hop takes rfl,
      fun b hb mine unsealed => bundle_store_pending hm hop takes rfl hb mine unsealed,
      fun b c hb mine stamp => bundle_store_sealed hm hop takes rfl hb mine stamp,
      fun b r c hb nb other stamp => ⟨bundle_store_next hm hop takes rfl hb nb other stamp,
        bundle_store_early hm hop takes rfl hb nb other stamp⟩,
      fun b r hb nb other unsealed => bundle_store_conflict hm hop takes rfl hb nb other unsealed⟩,
    fun s m ix g line ag src va a l b hm hr => ⟨fun opened => ⟨join_again hm hr opened,
      fun new few home => ⟨_, join_taken hm hr opened new few home, namingWith_contains _ _,
        fun _ => mem_namingWith⟩, join_dooms hm hr opened⟩,
      join_refused hm hr⟩,
    fun s m ix g c ag src a l b hm hr opened => doom_recorded hm hr opened⟩

/-! ### Seals (R248) -/

section
variable {s : State} {d : Dev} {m : Nat} {src : From} {h : Word} {l : Lease} {b : Bundle}
  (ha : s.asks m src (.bseal h) d) (acked : d.bundleAcked src h = true) (hj : d.judged s.drip src h = .ok l)
  (hp : l.payload = .bundle b)
include ha acked hj hp

/-- A seal gives an open bundle its stamp, tells the homes that name it, and answers the stamp. -/
theorem seal_opened (st : b.st = .opened) {c : Nat} (hc : c = d.clock s.drip l.agent.mod + Config.epsilon + 1) :
    Yields (.sealArrival m) s ((b.naming.foldl (fun d x => d.send (.sealNotice x l.agent l.index l.gen c (c + b.retain)))
      (d.setRecord l { b with st := .sealed c })).reply src (wd64 c)) := by
  subst hc
  change execSealArrival m s = _
  refine onReq_dev ha ?_
  simp only [acked, hj, hp, st]
  rfl

/-- A seal of a sealed bundle answers its stamp. -/
theorem seal_again {c : Nat} (st : b.st = .sealed c) : Yields (.sealArrival m) s (d.reply src (wd64 c)) := by
  change execSealArrival m s = _
  refine onReq_dev ha ?_
  simp only [acked, hj, hp, st]
  rfl

/-- A seal of a doomed bundle aborts it. -/
theorem seal_doomed (st : b.st = .doomed) :
    Yields (.sealArrival m) s ((d.abortBundle l b).refuse src Cause.conflict) := by
  change execSealArrival m s = _
  refine onReq_dev ha ?_
  simp only [acked, hj, hp, st]
  rfl

/-- A seal of an aborted bundle is refused. -/
theorem seal_aborted (st : b.st = .aborted) : Yields (.sealArrival m) s (d.refuse src Cause.conflict) := by
  change execSealArrival m s = _
  refine onReq_dev ha ?_
  simp only [acked, hj, hp, st]
  rfl

end

/-! ### Homes learn a stamp, or wait on (R248, R249, R275) -/

section
variable {s : State} {m ix g : Nat} {home ag : AgentId}

/-- A seal notice has its home learn the stamp. -/
theorem notice_learned {c rx : Nat} (hm : s.carries m (.sealNotice home ag ix g c rx)) :
    Writes (.sealNotice m) s ((s.dev.drop m).learn s.drip s.mem home (ag, ix, g) c rx).1
      ((s.dev.drop m).learn s.drip s.mem home (ag, ix, g) c rx).2 := by
  have hm : s.dev.msg m = some (.sealNotice home ag ix g c rx) := hm
  change execSealNotice m s = _
  refine run_eff ?_
  simp only [hm]

variable {l : Lease} {b : Bundle}

section
variable (hm : s.carries m (.bundleAsk home ag ix g)) (hr : (s.dev.drop m).record (ag, ix, g) = some (l, b))
include hm hr

/-- A sealed record answers its stamp: the home's companions learn it, and the loads of lines that have not joined take a
version from before. -/
theorem consulted_sealed {c : Nat} (st : b.st = .sealed c) {r u : Dev × List (Nat × Byte)}
    (learned : r = (s.dev.drop m).learn s.drip s.mem home (ag, ix, g) c (c + b.retain))
    (served : u = r.1.serveBefore s.drip s.mem (r.1.unknownLines home (ag, ix, g) false)) :
    Writes (.bundleConsultation m) s u.1 (r.2 ++ u.2) := by
  have hm : s.dev.msg m = some (.bundleAsk home ag ix g) := hm
  subst learned served
  change execBundleConsultation m s = _
  refine run_eff ?_
  simp only [hm, hr, st]

/-- A record that is not sealed lets the home's waiting loads take a version from before it. -/
theorem consulted_unsealed (st : ∀ c, b.st ≠ .sealed c) {u : Dev × List (Nat × Byte)}
    (served : u = (s.dev.drop m).serveBefore s.drip s.mem ((s.dev.drop m).unknownLines home (ag, ix, g) true
      ++ (s.dev.drop m).unknownLines home (ag, ix, g) false)) :
    Writes (.bundleConsultation m) s u.1 u.2 := by
  have hm : s.dev.msg m = some (.bundleAsk home ag ix g) := hm
  subst served
  change execBundleConsultation m s = _
  refine run_eff ?_
  -- `st` leaves the arm of the states that give no stamp
  simp only [hm, hr]

end

/-! ### Companions and reports (R251) -/

/-- BCHK by the holder answers the companion of its number. -/
theorem companion_checked {d : Dev} {line i : Nat} {src : From} (ha : s.asks m src (.bchk line i) d)
    (hk : d.keyed line = some (l, b)) (holder : l.holder = some src.ctx) : Yields (.companionCheckArrival m) s
      (d.reply src ((b.comps[i]?.map (fun p => wd64 (p.2.toNat % 2 ^ 51))).getD 0)) := by
  change execCompanionCheckArrival m s = _
  refine onReq_dev ha ?_
  simp only [hk, holder, ne_eq, not_true_eq_false, if_false]
  cases b.comps[i]? <;> rfl

section
variable (hm : s.carries m (.compReport home ag ix g)) (hr : (s.dev.drop m).record (ag, ix, g) = some (l, b))
include hm hr

/-- A report that is not the last takes its home out of the record. -/
theorem report_taken (left : b.naming.filter (fun h => h != home) ≠ []) : Yields (.companionReport m) s
    ((s.dev.drop m).setRecord l { b with naming := b.naming.filter (fun h => h != home) }) := by
  have hm : s.dev.msg m = some (.compReport home ag ix g) := hm
  have more : (b.naming.filter (fun h => h != home)).isEmpty = false := List.isEmpty_eq_false_iff.mpr left
  change execCompanionReport m s = _
  refine event_ok ?_
  simp only [hm, hr, more, Bool.false_and, Bool.false_eq_true, if_false]

/-- The last report frees a sealed record. -/
theorem report_frees {c : Nat} (last : b.naming.filter (fun h => h != home) = []) (st : b.st = .sealed c) :
    Yields (.companionReport m) s ((s.dev.drop m).setLease { l with payload := .cap 0 }) := by
  have hm : s.dev.msg m = some (.compReport home ag ix g) := hm
  change execCompanionReport m s = _
  refine event_ok ?_
  simp only [hm, hr, last, st]
  rfl

end
end

/-- Settles O27: seals by the bundle's state, notices, consultations, companion checks, and reports. -/
theorem bundlesSeal : Obligations.BundlesSeal := by
  unfold Obligations.BundlesSeal
  refine ⟨fun s d m src h l b ha acked hj hp => ⟨fun st => seal_opened ha acked hj hp st rfl,
      fun c st => seal_again ha acked hj hp st, seal_doomed ha acked hj hp, seal_aborted ha acked hj hp⟩,
    fun s m ix g c rx home ag => notice_learned,
    fun s m ix g home ag l b hm hr => ⟨fun c st => consulted_sealed hm hr st rfl rfl,
      fun st => consulted_unsealed hm hr st rfl⟩,
    fun s d m line i src l b => companion_checked,
    fun s m ix g home ag l b hm hr => ⟨report_taken hm hr, fun c => report_frees hm hr⟩⟩

/-! ### Versions under a view (R249) -/

section
variable {b : BLine} {t v : Nat}

/-- A line that no bundle names has one version. -/
theorem version_unnamed (nb : b.nb = none) : b.version t v = .current := by
  unfold BLine.version
  rw [nb]

section
variable {r : AgentId × Nat × Nat} {c : Nat} (nb : b.nb = some r) (stamp : b.known = some c)
include nb stamp

/-- A view that is not before the stamp takes the current version. -/
theorem version_current (seen : c ≤ v) : b.version t v = .current := by
  simp only [BLine.version, nb, stamp, seen, if_true]

/-- A view before the stamp takes the old version that is held, where that is not later than the view. -/
theorem version_old {o : BitVec 1024} {oc : Nat} (early : v < c) (held : b.held t = some (o, oc)) (seen : oc ≤ v) :
    b.version t v = .old o := by
  simp only [BLine.version, nb, stamp, Nat.not_le.mpr early, held, seen, if_false, if_true]

/-- A view before both versions meets the fracture. -/
theorem version_fracture_later {o : BitVec 1024} {oc : Nat} (early : v < c) (held : b.held t = some (o, oc))
    (later : v < oc) : b.version t v = .fracture r := by
  simp only [BLine.version, nb, stamp, Nat.not_le.mpr early, held, Nat.not_le.mpr later, if_false]

/-- A view before the stamp meets the fracture once the old version is gone. -/
theorem version_fracture_gone (early : v < c) (gone : b.held t = none) : b.version t v = .fracture r := by
  simp only [BLine.version, nb, stamp, Nat.not_le.mpr early, gone, if_false]

end
end

/-- Settles O28: a line that no bundle names, then a view at or after the stamp, and before it with an old version that
is not later, is later, or is gone. -/
theorem viewsChooseVersions : Obligations.ViewsChooseVersions := by
  unfold Obligations.ViewsChooseVersions
  exact ⟨fun b t v => version_unnamed, fun b r t v c nb stamp => ⟨version_current nb stamp,
    fun o oc => version_old nb stamp, fun o oc => version_fracture_later nb stamp, version_fracture_gone nb stamp⟩⟩

end Sys2Proof.Machine
end

section
/-!
PROOFS. The invariant of memory, the table's words, traps.
-/
namespace Sys2Proof.Machine
open Sys2Proof

/-- Settles O50: memory after reset has no cell. -/
theorem resetHolds : Obligations.ResetHolds := by
  unfold Obligations.ResetHolds State.Inv
  rfl

/-- Settles O52: each word is laid out by its table, and the decoder is run on it. -/
theorem wordsDecode : Obligations.WordsDecode := by
  unfold Obligations.WordsDecode
  refine ⟨?_, ?_, ?_, ?_, ?_, ?_, ?_⟩ <;> rfl

/-- A step that leaves the counter changes memory by writes alone, which keep its canonical form. -/
theorem Quiet.inv {s t : State} (h : Quiet s t) (hs : s.Inv) : t.Inv := by
  obtain ⟨w, hw⟩ := h.mem
  unfold State.Inv
  rw [hw]
  exact writeAll_wf w s.mem hs

/-- The passing of a drip writes memory (R353, R365). -/
theorem passDrip_inv {s : State} (hs : s.Inv) : (passDrip s).Inv := writeAll_wf _ s.mem hs

/-- A module reset takes cells out of memory and adds none. -/
theorem keptByReset_wf {m : Memory} (h : m.wf = true) : m.keptByReset.wf = true := filter_wf _ m h

/-- An event keeps the canonical form, the joining of a domain and a module reset among them. -/
theorem exec_inv {i : Instr} {s t : State} (h : exec i s = .next t) (hs : s.Inv) : t.Inv := by
  by_cases hj : ∃ o, i = .domainJoin o
  · obtain ⟨o, rfl⟩ := hj
    change execDomainJoin o s = .next t at h
    unfold execDomainJoin at h
    split at h <;> cases h <;> exact hs
  · by_cases hr : i = .moduleReset
    · subst hr
      change execModuleReset s = .next t at h
      unfold execModuleReset at h
      cases h
      exact keptByReset_wf (writeAll_wf _ s.mem hs)
    · exact (exec_quiet i s t h (fun o ho => hj ⟨o, ho⟩) hr).inv hs

/-- Settles O55: an event, a quiet step and the passing of a drip each keep the canonical form. -/
theorem stepKeepsMemory : Obligations.StepKeepsMemory := by
  unfold Obligations.StepKeepsMemory
  intro s t hs h
  rcases step_cases h with ⟨i, rest, -, hi⟩ | ⟨c, rest, -, hq⟩ | ⟨rest, -, hq | ⟨u, hu, rfl⟩⟩ | ⟨-, hq | ⟨u, hu, rfl⟩⟩
  · exact exec_inv hi hs
  · exact hq.inv hs
  · exact hq.inv hs
  · exact passDrip_inv (s := { u with agenda := rest }) (hu.inv hs)
  · exact hq.inv hs
  · exact passDrip_inv (hu.inv hs)

end Sys2Proof.Machine
end

section
/-!
PROOFS. What a trap saves, where it goes, and the way back (R346, R351).
-/
namespace Sys2Proof.Machine
open Sys2Proof

/-! ### The modes of STATUS (Table 17-11) -/

/-- A bit of a small number, from the size of the number on. -/
theorem getLsbD_wd64_of_lt {n i : Nat} (h : n < 8) (hi : 3 ≤ i) : (wd64 n).getLsbD i = false := by
  have : n < 2 ^ i := lt_of_lt_of_le h (by simpa using Nat.pow_le_pow_right (n := 2) (by decide) hi)
  simp [wd64, BitVec.getLsbD_ofNat, Nat.testBit_lt_two_pow this]

/-- The three modes are bits 0 to 2 of STATUS. -/
theorem bit_setModes_modes (s : Word) (m p t : Bool) :
    bit (setModes s m p t) 0 = m ∧ bit (setModes s m p t) 1 = p ∧ bit (setModes s m p t) 2 = t := by
  unfold bit setModes
  cases m <;> cases p <;> cases t <;> simp [b2n, wd64]

/-- The rest of STATUS stays where the modes are set. -/
theorem bit_setModes_rest (s : Word) (m p t : Bool) {i : Nat} (hi : 3 ≤ i) :
    bit (setModes s m p t) i = bit s i := by
  have modes : (wd64 (b2n m + 2 * b2n p + 4 * b2n t)).getLsbD i = false :=
    getLsbD_wd64_of_lt (by cases m <;> cases p <;> cases t <;> decide) hi
  have seven : (7 : Word).getLsbD i = false := getLsbD_wd64_of_lt (by decide) hi
  unfold bit setModes
  rw [BitVec.getLsbD_or, BitVec.getLsbD_and, BitVec.getLsbD_not, modes, seven]
  by_cases h : i < 64
  · simp [h]
  · simp [BitVec.getLsbD_of_ge s i (by omega)]

/-! ### A trap that its handler takes -/

/-- The thread at its handler, after a trap with its cause, return point and value. -/
def Thread.trapped (t : Thread) (cause : Nat) (p v : Word) : Thread :=
  { t.emptySet with
    status := setModes t.status true t.mode true
    cause := wd64 cause
    epc := p
    eval := v
    pc := t.handler
    wst := .ready }

section
variable {d : Dev} {drip : Nat} {mem : Memory} {k cause : Nat} {p v : Word} {t : Thread} (ht : d.thr k = some t)
include ht

/-- Outside a trap, with a good handler, the thread goes to it (R346). -/
theorem takeTrap_handled (hi : t.inTrap = false) (hh : d.targetNow drip mem t.coreSlot.1 t.ctx t.handler = true) :
    d.takeTrap drip mem k cause p v = d.setThr k (t.trapped cause p v) := by
  unfold Dev.takeTrap
  simp only [ht, hi, hh, Bool.not_true, Bool.or_self, Bool.false_eq_true, if_false]
  rfl

/-- Inside a trap, or with a bad handler, a record is filed and the thread ends (R346). -/
theorem takeTrap_ends (h : t.inTrap = true ∨ d.targetNow drip mem t.coreSlot.1 t.ctx t.handler = false) :
    d.takeTrap drip mem k cause p v = ((d.fileFault (coreDie t.coreSlot.1) t.ctx t.tenant
      (if t.inTrap then Cause.doubleTrap else cause) 0 0 0 v t.coreSlot.1 t.coreSlot.2 [] false).1.failBlock t.blk
      (if t.inTrap then Cause.doubleTrap else cause)).endThread drip k := by
  have bad : (t.inTrap || !d.targetNow drip mem t.coreSlot.1 t.ctx t.handler) = true := by simpa using h
  unfold Dev.takeTrap
  simp only [ht, bad, if_true]
end

/-! ### A block that fails -/

/-- The failing of a launch changes no thread. -/
theorem failLaunch_threads (d : Dev) (l cause reason : Nat) : (d.failLaunch l cause reason).threads = d.threads := by
  unfold Dev.failLaunch
  split <;> rfl

/-- The failing of a block changes no thread. -/
theorem failBlock_threads (d : Dev) (b cause : Nat) : (d.failBlock b cause).threads = d.threads := by
  unfold Dev.failBlock
  split
  · split
    · exact failLaunch_threads d _ cause 0
    · rfl
  · rfl

/-- Settles O57: STATUS keeps the old mode beside the new ones, and a thread that cannot take its trap ends. -/
theorem trapsTaken : Obligations.TrapsTaken := by
  unfold Obligations.TrapsTaken
  refine ⟨fun d drip mem k cause p v t ht hi hh => ?_, fun d drip mem k cause p v t ht h => ?_⟩
  · obtain ⟨hmode, hpmode, hintrap⟩ := bit_setModes_modes t.status true t.mode true
    obtain ⟨hback, -, hout⟩ := bit_setModes_modes (t.trapped cause p v).status
      (bit (t.trapped cause p v).status 1) (bit (t.trapped cause p v).status 1) false
    rw [takeTrap_handled ht hi hh]
    exact ⟨t.trapped cause p v, rfl, rfl, rfl, rfl, rfl, hmode, hintrap, hpmode,
      fun i h3 => bit_setModes_rest t.status true t.mode true h3,
      rfl, rfl, rfl, rfl, rfl, rfl, rfl, rfl, rfl, rfl, rfl, rfl, hback.trans hpmode, hout,
      fun j hj => (Dev.thr_setThr d k j _).trans (if_neg hj)⟩
  · rw [takeTrap_ends ht h]
    refine ⟨rfl, fun x hx => (endThread_thr _ drip k t x ?_ hx).1⟩
    unfold Dev.thr
    rw [failBlock_threads]
    exact ht

end Sys2Proof.Machine
end

section
/-!
PROOFS. Prefetches (R282).
-/
namespace Sys2Proof.Machine
open Sys2Proof

section
variable {o : PrefOp} {s : State} {j : In} (h : IssuesS s false o.g { xs := [o.a] } j)
include h

/-- A prefetch of an address that has not the form of R78 is dropped. -/
theorem pref_malformed (hf : formOk (j.ea o.off) = false) : exec (.pref o) s = .next (s.withDev j.dev) :=
  issueS_ok h (by simp only [hf, Bool.not_false, if_true])

variable (hf : formOk (j.ea o.off) = true)
include hf

/-- A prefetch whose address has no translation at hand is dropped. -/
theorem pref_untranslated (ht : j.base.translate j.core j.t.ctx (j.ea o.off) .read = none) :
    exec (.pref o) s = .next (s.withDev j.dev) :=
  issueS_ok h (by simp only [hf, ht, Bool.not_true, Bool.false_eq_true, if_false])

variable {l : Word} {p : Nat} (ht : j.base.translate j.core j.t.ctx (j.ea o.off) .read = some (l, p))
include ht

/-- A prefetch of a place where nothing is, of a line that the L1 holds already, or with no miss register left is
dropped. -/
theorem pref_dropped (hd : keyOk p = false ∨
      (o.grot = false ∧ ((j.base.core j.core).copy (lineOf p) j.drip).isSome = true) ∨
      j.missRoom [lineOf p] = false) : exec (.pref o) s = .next (s.withDev j.dev) := by
  refine issueS_ok h ?_
  simp only [hf, ht, Bool.not_true, Bool.false_eq_true, if_false]
  exact if_pos (by simpa using hd)

/-- A prefetch that nothing stands in the way of sends an access for its line. -/
theorem pref_sent (hk : keyOk p = true)
    (hc : o.grot = true ∨ ((j.base.core j.core).copy (lineOf p) j.drip).isSome = false)
    (hm : j.missRoom [lineOf p] = true) :
    exec (.pref o) s = .next (s.withDev (j.dev.send (.acc (j.acc (.pref o.grot) (onePiece (j.ea o.off) l p)
      j.base.nextOp 0 .core false false 0x1B 0 .travelling)))) := by
  refine issueS_ok h ?_
  simp only [hf, ht, Bool.not_true, Bool.false_eq_true, if_false]
  refine if_neg ?_
  rintro (hn | ⟨hg, hs⟩ | hn)
  · simp [hk] at hn
  · rcases hc with hc | hc
    · simp [hc] at hg
    · exact Bool.false_ne_true (hc.symm.trans hs)
  · simp [hm] at hn

end

/-- Settles O12: by the form of the address, its translation, and what stands in the way of its line. -/
theorem prefetches : Obligations.Prefetches := by
  unfold Obligations.Prefetches
  exact fun o s j h => ⟨pref_malformed h, fun hf => ⟨pref_untranslated h hf, fun l p ht =>
    ⟨pref_dropped h hf ht, pref_sent h hf ht⟩⟩⟩

end Sys2Proof.Machine
end

section
/-!
PROOFS. Commits of multi-line sets (R298).
-/
namespace Sys2Proof.Machine
open Sys2Proof

/-- The bytes of a staged set, of which a commit writes those that change. -/
def Thread.stagedBytes (t : Thread) : List (Nat × Byte) := t.mcsStaged.flatMap (fun p => bytesAt p.1 8 p.2.toNat)

/-- The module once a commit's lines have been taken into their slices, and other agents' sets of them broken. -/
def Dev.commitLines (d : Dev) (drip : Nat) (mem : Memory) (tid : Nat) (w : List (Nat × Byte)) (ls : List Nat) : Dev :=
  ls.foldl (fun d l => (d.snoopSets tid l).holdLine drip mem l true (w.filter (fun p => lineOf p.1 == l))) d

/-- A commit sends nothing but its reply. -/
theorem Dev.commitLines_msgs (drip : Nat) (mem : Memory) (tid : Nat) (w : List (Nat × Byte)) :
    ∀ (ls : List Nat) (d : Dev), (d.commitLines drip mem tid w ls).msgs = d.msgs
  | [], _ => rfl
  | l :: ls, d => by
    have ih := Dev.commitLines_msgs drip mem tid w ls
      ((d.snoopSets tid l).holdLine drip mem l true (w.filter (fun p => lineOf p.1 == l)))
    rw [Dev.holdLine_msgs] at ih
    exact ih

/-- A load of a thread's multi-line set is under way. -/
def MsgKind.loadsSet (tid : Nat) : MsgKind → Bool
  | .acc a => a.src.tid == tid && (match a.op with
    | .mcsld .. => true
    | _ => false)
  | _ => false

/-- A load of the set from one of its lines is a load of the set. -/
theorem MsgKind.loadsSet_of_line {tid l : Nat} (k : MsgKind) (h : (match k with
      | .acc a => a.src.tid == tid && a.line == l && (match a.op with
        | .mcsld .. => true
        | _ => false)
      | _ => false) = true) : k.loadsSet tid = true := by
  cases k with
  | acc a =>
    change (a.src.tid == tid && a.line == l && _) = true at h
    rw [Bool.and_right_comm] at h
    exact (Bool.and_eq_true_iff.mp h).1
  | _ => exact absurd h Bool.false_ne_true

/-- With no load of its set under way, the thread owns every line of the set. -/
theorem mcs_owned {d : Dev} {tid : Nat} (h : d.msgs.any (fun x => x.kind.loadsSet tid) = false) (ls : List Nat) :
    ls.all (fun l => !d.msgs.any (fun x => match x.kind with
      | .acc a => a.src.tid == tid && a.line == l && (match a.op with
        | .mcsld .. => true
        | _ => false)
      | _ => false)) = true := by
  rw [List.any_eq_false] at h
  refine List.all_eq_true.mpr fun l _ => Bool.not_eq_true' _ ▸ List.any_eq_false.mpr fun x hx hl => ?_
  exact h x hx (x.kind.loadsSet_of_line hl)

section
variable {s : State} {m : Nat} {src : From} {t : Thread} (hc : s.carries m (.req src .mcs))
  (ht : s.dev.thr src.tid = some t) (hr : s.dev.released src = true)
  (hf : t.mcsLines.all (s.dev.setLineFree s.drip) = true)
  (hl : s.dev.msgs.any (fun x => x.kind.loadsSet src.tid) = false)
  {d : Dev} (hd : d = (s.dev.drop m).updThr src.tid Thread.emptySet)
include hc ht hr hf hl hd

/-- A commit that may be decided is decided: the set is emptied, and what it held is written or refused. -/
theorem mcs_decided : exec (.mcsDecision m) s = (if t.mcsLines = [] then Res.eff (d.refuse src Cause.mcsBroken) []
    else match t.mcsBroken with
      | some c => .eff (d.refuse src c) []
      | none =>
        if s.drip > t.mcsSince.getD s.drip + 4096 then .eff (d.refuse src Cause.mcsTimeout) []
        else .eff ((d.commitLines s.drip s.mem src.tid t.stagedBytes t.mcsLines).reply src 0)
          (t.stagedBytes.filter (fun p => s.mem.read p.1 != p.2))).run s := by
  have hc : s.dev.msg m = some (.req src .mcs) := hc
  subst hd
  change execMcsDecision m s = _
  unfold execMcsDecision run
  simp only [hc, ht, hr, hf, Bool.not_true, Bool.false_or, Bool.or_false]
  exact congrArg (Res.run s) (if_neg fun h =>
    Bool.false_ne_true ((congrArg (!·) (mcs_owned hl t.mcsLines)).symm.trans h))

/-- A commit of an empty set is refused. -/
theorem mcs_empty (h : t.mcsLines = []) : Yields (.mcsDecision m) s (d.refuse src Cause.mcsBroken) := by
  unfold Yields
  rw [mcs_decided hc ht hr hf hl hd, if_pos h]
  rfl

/-- One of a set that has been broken is refused with its cause. -/
theorem mcs_broken {c : Nat} (h : t.mcsLines ≠ []) (hb : t.mcsBroken = some c) :
    Yields (.mcsDecision m) s (d.refuse src c) := by
  unfold Yields
  rw [mcs_decided hc ht hr hf hl hd, if_neg h, hb]
  rfl

/-- One of a set that is too old is refused. -/
theorem mcs_late {t0 : Nat} (h : t.mcsLines ≠ []) (hb : t.mcsBroken = none) (h0 : t.mcsSince = some t0)
    (late : t0 + 4096 < s.drip) : Yields (.mcsDecision m) s (d.refuse src Cause.mcsTimeout) := by
  unfold Yields
  rw [mcs_decided hc ht hr hf hl hd, if_neg h, hb, h0]
  simp only [Option.getD_some]
  rw [if_pos late]
  rfl

/-- Any other commit writes the whole set. -/
theorem mcs_commits {t0 : Nat} (h : t.mcsLines ≠ []) (hb : t.mcsBroken = none) (h0 : t.mcsSince = some t0)
    (due : s.drip ≤ t0 + 4096) : Writes (.mcsDecision m) s
      ((d.commitLines s.drip s.mem src.tid t.stagedBytes t.mcsLines).reply src 0)
      (t.stagedBytes.filter (fun p => s.mem.read p.1 != p.2)) := by
  unfold Writes
  rw [mcs_decided hc ht hr hf hl hd, if_neg h, hb, h0]
  simp only [Option.getD_some]
  rw [if_neg (by omega)]
  rfl

end

/-- Settles O29: an empty, a broken and a late set are refused, and any other is written whole. -/
theorem setsCommitWhole : Obligations.SetsCommitWhole := by
  unfold Obligations.SetsCommitWhole
  intro s m src t hc ht hr hf hl d
  have hl : s.dev.msgs.any (fun x => x.kind.loadsSet src.tid) = false := hl
  refine ⟨mcs_empty hc ht hr hf hl rfl, fun c => mcs_broken hc ht hr hf hl rfl,
    fun t0 => mcs_late hc ht hr hf hl rfl, fun t0 h hb h0 due =>
      ⟨_, _, mcs_commits hc ht hr hf hl rfl h hb h0 due, rfl, ?_⟩⟩
  simp [Dev.reply, Dev.send, Dev.commitLines_msgs, d]

end Sys2Proof.Machine
end

section
/-!
PROOFS. Page requests and their responses (R367).
-/
namespace Sys2Proof.Machine
open Sys2Proof

/-! ### A request -/

/-- With a free tag and no request that waits, a request is sent. -/
theorem pageRequest_sent {d : Dev} {t : Nat} (rid : Nat) (ht : d.freeTag = some t) (hq : d.prqQueue = []) :
    d.pageRequest rid = some { d with prqTags := d.prqTags ++ [(t, rid)] } := by
  unfold Dev.pageRequest
  rw [ht]
  exact if_pos hq

/-- With no free tag, or behind others, it is queued. -/
theorem pageRequest_queued {d : Dev} (rid : Nat) (h : d.freeTag = none ∨ d.prqQueue ≠ [])
    (room : d.prqQueue.length < 4096) :
    d.pageRequest rid = some { d with prqQueue := d.prqQueue ++ [rid] } := by
  unfold Dev.pageRequest
  split
  · next t ht =>
    have hq : d.prqQueue ≠ [] := h.resolve_left (by simp [ht])
    simp only [hq, room, if_false, if_true]
  · simp only [room, if_true]

/-- A full queue takes none. -/
theorem pageRequest_full {d : Dev} (rid : Nat) (full : 4096 ≤ d.prqQueue.length) : d.pageRequest rid = none := by
  have hq : d.prqQueue ≠ [] := by rintro h; simp [h] at full
  unfold Dev.pageRequest
  split <;> simp only [hq, Nat.not_lt.mpr full, if_false]

/-! ### The register -/

/-- The record number that a store to PRQ names. -/
def prqRid (b : List MByte) : Nat :=
  (List.range 8).foldr (fun k n => (mergeBytes (apKey 0 ioBase + k) b).2.toNat + 256 * n) 0

section
variable {s : State} {m : Nat} {a : Acc} {b : List MByte} (due : s.unitStoreDue (apKey 0 ioBase) ⟨m, .acc a⟩)
  (store : a.op = .store b)
include due store

/-- A store to PRQ of a record that does not wait performs and sends nothing. -/
theorem prq_idle (h : s.dev.faults.any (fun f => f.rid = prqRid b && f.waits) = false) :
    Yields (.prq (apKey 0 ioBase)) s (s.dev.drop m) := by
  have due : s.dev.msgs.find? (fun m => s.dev.storesAt s.drip (apKey 0 ioBase) m) = some ⟨m, .acc a⟩ := due
  unfold prqRid at h
  change execPrq _ s = _
  refine event_ok ?_
  simp only [beq_self_eq_true, Bool.true_and, due, store, h, Bool.not_false, if_true]

variable (waits : s.dev.faults.any (fun f => f.rid = prqRid b && f.waits) = true)
include waits

/-- One of a record that waits makes a page request. -/
theorem prq_asks {e : Dev} (h : (s.dev.drop m).pageRequest (prqRid b) = some e) :
    Yields (.prq (apKey 0 ioBase)) s e := by
  have due : s.dev.msgs.find? (fun m => s.dev.storesAt s.drip (apKey 0 ioBase) m) = some ⟨m, .acc a⟩ := due
  unfold prqRid at waits h
  change execPrq _ s = _
  refine event_ok ?_
  simp only [beq_self_eq_true, Bool.true_and, due, store, waits, h, Bool.not_true, Bool.false_eq_true, if_false]

/-- With a full queue the store itself waits. -/
theorem prq_held (h : (s.dev.drop m).pageRequest (prqRid b) = none) : Yields (.prq (apKey 0 ioBase)) s s.dev := by
  have due : s.dev.msgs.find? (fun m => s.dev.storesAt s.drip (apKey 0 ioBase) m) = some ⟨m, .acc a⟩ := due
  unfold prqRid at waits h
  change execPrq _ s = _
  refine event_ok ?_
  simp only [beq_self_eq_true, Bool.true_and, due, store, waits, h, Bool.not_true, Bool.false_eq_true, if_false]

end

/-! ### A response -/

/-- A response frees its tag, and the record's requesters go on or end; the oldest request in the queue takes the
tag. -/
theorem pageResponse_ok {s : State} {tag : Nat} {ok : Bool} {p : Nat × Nat}
    (h : s.dev.prqTags.find? (fun p => p.1 = tag) = some p) {d : Dev}
    (hd : d = (({ s.dev with prqTags := s.dev.prqTags.filter (fun q => q.1 != tag) } : Dev).wakeRecord s.drip p.2
      (if ok then none else some Cause.hostPageDenied)).1) :
    (d.prqQueue = [] → Yields (.pageResponse tag ok) s d) ∧
    (∀ r rs, d.prqQueue = r :: rs → Yields (.pageResponse tag ok) s { d with
      prqQueue := rs
      prqTags := d.prqTags ++ [(tag, r)] }) := by
  subst hd
  constructor
  · intro hq
    change execPageResponse tag ok s = _
    refine event_ok ?_
    simp only [h, hq]
  · intro r rs hq
    change execPageResponse tag ok s = _
    refine event_ok ?_
    simp only [h, hq]

/-- Settles O45: a store to PRQ by whether its record waits and a tag is free, and a response by whether a request
waits for the tag. -/
theorem pagesAreRequested : Obligations.PagesAreRequested := by
  unfold Obligations.PagesAreRequested
  refine ⟨fun s m rid a b due store hrid => ?_, fun s tag ok p h => pageResponse_ok h rfl⟩
  subst hrid
  exact ⟨prq_idle due store, fun waits =>
    ⟨fun t ht hq => prq_asks due store waits (pageRequest_sent _ ht hq),
      fun h room => prq_asks due store waits (pageRequest_queued _ h room),
      fun full => prq_held due store waits (pageRequest_full _ full)⟩⟩

end Sys2Proof.Machine
end

section
/-!
PROOFS. The frontier: points that complete, rows that leave, messages that end (R303, R305, R318, R331).
-/
namespace Sys2Proof.Machine
open Sys2Proof

/-! ### A point's DONE -/

/-- The row that a unit keeps is what its record says. -/
theorem Launch.row_kept {l : Launch} {row : Nat} {r : Word} (h : find? row l.rows = some r)
    (hd : l.doneRows.contains row = false) : l.row row = r := by
  simp only [Launch.row, hd, h, Bool.false_eq_true, if_false, Option.getD_some]

/-- The point stands in a row that the unit keeps, among the sixteen after those that its C counts, and is not
complete. -/
theorem point_inFlight {l : Launch} {row x : Nat} {r : Word} (hr : find? row l.rows = some r) (low : recC r ≤ x)
    (high : x < recC r + 16) (isOpen : (recDone r).testBit (x - recC r) = false) :
    ¬ ((find? row l.rows).isNone = true ∨ x < recC r ∨ 16 ≤ x - recC r ∨ (recDone r).testBit (x - recC r) = true) := by
  simp only [hr, isOpen, Option.isNone_some, Bool.false_eq_true, false_or, or_false]
  omega

section
variable {d : Dev} {drip n z y x : Nat} {mem : Memory} {l l' : Launch} (hn : d.lch n = some l) (he : l.ended = none)
include hn he

/-- A DONE that its frontier lease refuses fails the launch. -/
theorem takeDone_lapsed (lapsed : d.frontierLive drip l = false) :
    d.takeDone drip mem n z y x = .ok (d.failLaunch n Cause.leaseLapsed 0, []) := by
  unfold Dev.takeDone
  simp only [hn, he, lapsed, Option.isSome_none, Bool.false_eq_true, if_false, Bool.not_false, if_true]

section
variable {r q : Word}
  (record : recShift 16 (mkRec (recC r) (recDone r ||| 2 ^ (x - recC r)) (recFly r &&& (65535 - 2 ^ (x - recC r)))) = q)
  (live : d.frontierLive drip l = true) (hr : find? (z * l.ey + y) l.rows = some r)
  (hd : l.doneRows.contains (z * l.ey + y) = false) (low : recC r ≤ x) (high : x < recC r + 16)
  (isOpen : (recDone r).testBit (x - recC r) = false)
include record live hr hd low high isOpen

/-- In a row that is not complete with it, the record is kept. -/
theorem takeDone_open (more : recC q ≠ l.ex)
    (ha : d.advanceFrontier drip mem (drip + l.rlease) { l with
      rows := put (z * l.ey + y) q l.rows } = .ok l') :
    d.takeDone drip mem n z y x = .ok (d.setLch n l', []) := by
  have runs : l.ended.isSome = false := by rw [he]; rfl
  have ha : d.advanceFrontier drip mem (drip + Launch.rlease { l with
      rows := put (z * l.ey + y) q l.rows }) { l with
      rows := put (z * l.ey + y) q l.rows } = .ok l' := ha
  unfold Dev.takeDone
  simp only [hn, runs, live, Launch.row_kept hr hd, Bool.not_true, Bool.false_eq_true, if_false]
  rw [if_neg (point_inFlight hr low high isOpen), record]
  simp only [if_neg more, ha]

/-- The last point of a row writes the row, which leaves. -/
theorem takeDone_last {e : Dev} {w : List (Nat × Byte)} (last : recC q = l.ex)
    (hw : d.rowWritten drip mem l (z * l.ey + y) q = .ok e w)
    (ha : e.advanceFrontier drip mem (drip + l.rlease) { l with
      rows := del (z * l.ey + y) l.rows
      doneRows := (z * l.ey + y) :: l.doneRows } = .ok l') :
    d.takeDone drip mem n z y x = .ok (e.setLch n l', w) := by
  have runs : l.ended.isSome = false := by rw [he]; rfl
  have hw : d.rowWritten drip mem { l with
      rows := del (z * l.ey + y) l.rows
      doneRows := (z * l.ey + y) :: l.doneRows } (z * l.ey + y) q = .ok e w := hw
  have ha : e.advanceFrontier drip mem (drip + Launch.rlease { l with
      rows := del (z * l.ey + y) l.rows
      doneRows := (z * l.ey + y) :: l.doneRows }) { l with
      rows := del (z * l.ey + y) l.rows
      doneRows := (z * l.ey + y) :: l.doneRows } = .ok l' := ha
  unfold Dev.takeDone
  simp only [hn, runs, live, Launch.row_kept hr hd, Bool.not_true, Bool.false_eq_true, if_false]
  rw [if_neg (point_inFlight hr low high isOpen), record]
  simp only [if_pos last, hw, ha]

end
end

/-! ### Its arrival -/

section
variable {s : State} {m : Nat} {src : From}

/-- A DONE of an earlier drip, of a partition that runs, is taken at its home. -/
theorem doneArrival_ok {n z y x : Nat} {d : Dev} {w : List (Nat × Byte)}
    (hc : s.carries m (.req src (.done n z y x))) (runs : s.dev.srcStopped src = false)
    (sent : s.dev.sentNow m = false) (h : (s.dev.drop m).takeDone s.drip s.mem n z y x = .ok (d, w)) :
    Writes (.doneArrival m) s d w := by
  have hc : s.dev.msg m = some (.req src (.done n z y x)) := hc
  change execDoneArrival m s = _
  refine run_eff ?_
  simp only [hc, runs, sent, Bool.false_eq_true, or_self, if_false, h]

/-- The end of an active message's thread writes its completion record. -/
theorem amsgEnd_ok {c c' : Nat} {va : Word} {irq : Bool} {d : Dev} {w : List (Nat × Byte)}
    (hc : s.carries m (.req src (.amsgEnd va irq c)))
    (h : (s.dev.drop m).complete s.drip s.mem src va c 0 = .ok (d, w, c')) :
    Writes (.doneArrival m) s (if irq then d.signal (4 * src.tenant + 2) else d) w := by
  have hc : s.dev.msg m = some (.req src (.amsgEnd va irq c)) := hc
  change execDoneArrival m s = _
  refine run_eff ?_
  simp only [hc, h]

end

/-- Settles O41: a DONE by what it makes of its row, and of a lapsed frontier; and a message's end. -/
theorem pointsComplete : Obligations.PointsComplete := by
  unfold Obligations.PointsComplete
  refine ⟨fun s m n z y x src l l' r h => ?_, fun s m n z y x src l hc runs sent hn he lapsed =>
    doneArrival_ok hc runs sent (takeDone_lapsed hn he lapsed), fun s m c c' src va irq d w hc => amsgEnd_ok hc⟩
  obtain ⟨hc, runs, sent, ⟨hn, he⟩, live, ⟨hr, hd⟩, low, high, isOpen⟩ := h
  exact ⟨fun more ha => doneArrival_ok hc runs sent
      (takeDone_open hn he rfl live hr hd low high isOpen more ha),
    fun d w last hw ha => doneArrival_ok hc runs sent
      (takeDone_last hn he rfl live hr hd low high isOpen last hw ha)⟩

end Sys2Proof.Machine
end

section
/-!
PROOFS. Launches: judged at their arrival, queried, released to fire, and ended (R312, R316, R317, R328 to R330).
-/
namespace Sys2Proof.Machine
open Sys2Proof

/-! ### Arrival (R316, R328) -/

section
variable {s : State} {m : Nat} {src : From} {a : Word} {l : Launch} (h : s.launchRead m src a l)
include h

/-- A launch that is accepted has its handle for a reply. -/
theorem launchArrival_accepted {d : Dev} {w : Word} (hj : s.dev.judgeLaunch s.drip s.mem l = .accept d w) :
    Yields (.launchArrival m) s ((d.drop m).reply src w) := by
  obtain ⟨hc, acked, ps, hs, record, header, hl⟩ := h
  have hc : s.dev.msg m = some (.req src (.launch a)) := hc
  subst hl
  change execLaunchArrival m s = _
  refine event_ok ?_
  simp only [hc, acked, record, header, hj, Bool.not_true, Bool.false_eq_true, if_false]

/-- One that is refused has the refusal for a reply, once its completion record has been written. -/
theorem launchArrival_refused {r c : Nat} {d : Dev} {w : List (Nat × Byte)}
    (hj : s.dev.judgeLaunch s.drip s.mem l = .refuse r)
    (hw : s.dev.complete s.drip s.mem src l.donea Cause.launchRefused r = .ok (d, w, c)) :
    Writes (.launchArrival m) s ((d.drop m).refuse src Cause.launchRefused) w := by
  obtain ⟨hc, acked, ps, hs, record, header, hl⟩ := h
  have hc : s.dev.msg m = some (.req src (.launch a)) := hc
  subst hl
  change execLaunchArrival m s = _
  refine run_eff ?_
  simp only [hc, acked, record, header, hj, hw, Bool.not_true, Bool.false_eq_true, if_false]

end

/-! ### Queries (R329, R330) -/

section
variable {s : State} {d : Dev} {m n : Nat} {src : From} {h : Word} {l : Launch}
  (hl : d.launchOf s.drip src h = .ok (n, l))
include hl

/-- A query of a point that the launch has not is refused. -/
theorem pointQuery_outside {xyz : Word} (ha : s.asks m src (.point h xyz) d)
    (out : bits xyz 60 4 ≠ 0 ∨ l.ez ≤ bits xyz 40 20 ∨ l.ey ≤ bits xyz 20 20 ∨ l.ex ≤ bits xyz 0 20) :
    Yields (.pointQueryArrival m) s (d.refuse src Cause.operandRange) := by
  change execPointQueryArrival m s = _
  refine onReq_dev ha ?_
  simp only [hl, out, if_true]
  rfl

/-- A query of a point answers its state and its row's C. -/
theorem pointQuery_inside {xyz : Word} (ha : s.asks m src (.point h xyz) d)
    (inside : ¬ (bits xyz 60 4 ≠ 0 ∨ l.ez ≤ bits xyz 40 20 ∨ l.ey ≤ bits xyz 20 20 ∨ l.ex ≤ bits xyz 0 20)) :
    Yields (.pointQueryArrival m) s
      (d.reply src (l.pointWord (bits xyz 40 20) (bits xyz 20 20) (bits xyz 0 20))) := by
  change execPointQueryArrival m s = _
  refine onReq_dev ha ?_
  simp only [hl, inside, if_false]
  rfl

/-- A query of a row answers its record. -/
theorem frontierRead_inside {row : Word} (ha : s.asks m src (.frrd h row) d) (inside : row.toNat < l.ez * l.ey) :
    Yields (.frontierReadArrival m) s (d.reply src (l.row row.toNat)) := by
  change execFrontierReadArrival m s = _
  refine onReq_dev ha ?_
  simp only [hl, Nat.not_le.mpr inside, if_false]
  rfl

/-- A query of a row that the launch has not is refused. -/
theorem frontierRead_outside {row : Word} (ha : s.asks m src (.frrd h row) d) (out : l.ez * l.ey ≤ row.toNat) :
    Yields (.frontierReadArrival m) s (d.refuse src Cause.operandRange) := by
  change execFrontierReadArrival m s = _
  refine onReq_dev ha ?_
  simp only [hl, out, if_true]
  rfl

end

/-! ### Release (R314, R316) -/

section
variable {s : State} {n : Nat} {l : Launch}

/-- A launch that has neither fired, failed nor ended is not over. -/
theorem launchWaits_notOver (h : s.dev.launchWaits s.drip n l) : s.dev.launchOver n l = false := by
  obtain ⟨fired, -, failed⟩ := h.waits
  simp [Dev.launchOver, fired, failed]

/-- What a waiting launch does depends on what its predecessor ended with, on its leave and on its lease. -/
theorem afterRelease_waits {c : Nat} (h : s.dev.launchWaits s.drip n l) (hp : s.dev.predecessor l c) :
    exec (.afterRelease n) s = (if c ≠ 0 then Res.eff (s.dev.setLch n (l.failing 7)) []
      else if !l.leave then .eff s.dev []
      else if !s.dev.frontierLive s.drip l then .eff (s.dev.failLaunch n Cause.leaseLapsed 0) []
      else .eff (s.dev.setLch n { l.fire s.drip s.drip with fired := true }) []).run s := by
  have notOver := launchWaits_notOver h
  obtain ⟨launch, ⟨fired, ended, failed⟩, up⟩ := h
  have stays : ¬ (l.fired = true ∨ l.ended.isSome = true ∨ l.failed.isSome = true ∨
      s.dev.halted s.drip l.tenant = true) := by
    simp [fired, ended, failed, up]
  change execAfterRelease n s = _
  unfold execAfterRelease run
  simp only [launch, notOver, Bool.false_eq_true, if_false]
  rw [if_neg stays]
  obtain ⟨alone, rfl⟩ | ⟨a, p, after, before, done⟩ := hp
  · simp only [alone]
  · simp only [after, before, done]

section
variable (h : s.dev.launchWaits s.drip n l)
include h

/-- With leave and under its lease, a launch whose predecessor has completed fires its first points. -/
theorem afterRelease_fires (hp : s.dev.predecessor l 0) (leave : l.leave = true)
    (live : s.dev.frontierLive s.drip l = true) :
    Yields (.afterRelease n) s (s.dev.setLch n { l.fire s.drip s.drip with fired := true }) := by
  unfold Yields
  rw [afterRelease_waits h hp, leave, live]
  rfl

/-- One whose lease has lapsed fails. -/
theorem afterRelease_lapsed (hp : s.dev.predecessor l 0) (leave : l.leave = true)
    (lapsed : s.dev.frontierLive s.drip l = false) :
    Yields (.afterRelease n) s (s.dev.failLaunch n Cause.leaseLapsed 0) := by
  unfold Yields
  rw [afterRelease_waits h hp, leave, lapsed]
  rfl

/-- One whose predecessor ended otherwise fails. -/
theorem afterRelease_refused {c : Nat} (hp : s.dev.predecessor l c) (hc : c ≠ 0) :
    Yields (.afterRelease n) s (s.dev.setLch n { l with failed := some (Cause.launchRefused, 7) }) := by
  have first : l.failing 7 = { l with failed := some (Cause.launchRefused, 7) } := by
    rw [Launch.failing, h.waits.2.2]
    rfl
  unfold Yields
  rw [afterRelease_waits h hp, if_pos hc, first]
  rfl

end

/-! ### The end (R317) -/

/-- The rows that a launch's unit still keeps, as it writes them at the end. -/
def Launch.rowWords (l : Launch) (live : Bool) : List (Word × Nat) :=
  if live = true then l.rows.map (fun p => (l.ftab + wd64 (8 * p.1), p.2.toNat)) else []

/-- A launch is over: its last row is complete, or it has failed and nothing of it is in flight. -/
theorem launchOver_of (ended : l.ended = none)
    (complete : l.failed = none → l.fired = true ∧ l.doneRows.length = l.ez * l.ey)
    (still : l.failed ≠ none → s.dev.inFlight n l = false) : s.dev.launchOver n l = true := by
  unfold Dev.launchOver
  rw [ended]
  cases hf : l.failed with
  | none =>
    obtain ⟨fired, last⟩ := complete hf
    simp [fired, last]
  | some f => simp [still (by simp [hf])]

/-- A launch that is over has its kept rows and then its completion record written, and gives its leave back. -/
theorem afterRelease_ends {c : Nat} {d k : Dev} {v w : List (Nat × Byte)} (launch : s.dev.lch n = some l)
    (isOver : s.dev.launchOver n l = true)
    (rows : s.dev.writeWords s.drip s.mem l.from (l.rowWords (s.dev.frontierLive s.drip l)) [] = .ok k v)
    (record : k.complete s.drip s.mem l.from l.donea (l.failed.getD (0, 0)).1 (l.failed.getD (0, 0)).2
      = .ok (d, w, c)) {e : Dev} (he : e = (d.setLch n { l with
        ended := some c
        queue := [] }).returnLeave (leaveLaunch n)) :
    Writes (.afterRelease n) s (if l.irq && w != [] then e.signal (4 * l.tenant + 2) else e) (v ++ w) := by
  subst he
  unfold Launch.rowWords at rows
  change execAfterRelease n s = _
  refine run_eff ?_
  simp only [launch, isOver, if_true, Dev.endLaunch, rows, record]

end

/-- Settles O40: arrival by its judgement, queries by their extents, and a launch by what it waits for. -/
theorem launchesRun : Obligations.LaunchesRun := by
  unfold Obligations.LaunchesRun
  refine ⟨fun s m src a l h => ⟨fun d w => launchArrival_accepted h, fun r d w c => launchArrival_refused h⟩,
    fun s d m n src h l hl => ⟨fun xyz ha => ⟨fun top hz hy hx => ?_, pointQuery_outside hl ha⟩,
      fun row ha => ⟨frontierRead_inside hl ha, frontierRead_outside hl ha⟩⟩,
    fun s n c l h hp => ⟨fun hc leave => ?_, fun hc leave => ?_, afterRelease_refused h hp⟩,
    fun s n c l d k v w launch ended complete still rows record =>
      afterRelease_ends launch (launchOver_of ended complete still) rows record rfl⟩
  · exact pointQuery_inside hl ha (by omega)
  · subst hc
    exact afterRelease_fires h hp leave
  · subst hc
    exact afterRelease_lapsed h hp leave

end Sys2Proof.Machine
end

section
/-!
PROOFS. The scheduler: admission, ageing, swaps, and active messages at their cores (R323, R325, R331).
-/
namespace Sys2Proof.Machine
open Sys2Proof

/-! ### Admission (R323) -/

section
variable {s : State} {clus n gall : Nat} {l : Launch} {fs : List CrewFit} (h : s.mayAdmit clus)
include h

/-- A cluster that may take a block in is held back by nothing. -/
theorem mayAdmit_free : ¬ (s.dev.inReset = true ∨ s.dev.launches.any (fun p => p.2.agingDue) = true ∨
    (List.range (min clus 128)).any (fun c => !(s.dev.takers s.drip s.mem c).isEmpty) = true ∨ 128 ≤ clus) := by
  obtain ⟨up, aged, lower, cluster⟩ := h
  rw [up, aged, lower]
  simpa using cluster

/-- A launch that is picked for its oldest point has the point admitted. -/
theorem blockAdmission_point {p : QPoint}
    (pick : pickTaker (s.dev.clus clus).rr (s.dev.takers s.drip s.mem clus) = some (n, l, .point p, fs, gall))
    {e : Dev × List (Nat × Byte)} (he : e = (s.dev.serving s.mem clus n l).evict s.drip s.mem fs (4096 * l.slots))
    {r : Dev × List (Nat × Byte)} (hr : r = (e.1.setLch n { l with
        waited := 0
        aged := 0
        queue := l.queue.drop 1 }).admitPoint s.drip s.mem n l p clus fs gall) :
    Writes (.blockAdmission clus) s r.1 (e.2 ++ r.2) := by
  subst hr he
  change execBlockAdmission clus s = _
  refine run_eff ?_
  simp only [if_neg (mayAdmit_free h), pick]
  rfl

/-- One that is picked for its swapped block has the block brought back. -/
theorem blockAdmission_block {b : Block}
    (pick : pickTaker (s.dev.clus clus).rr (s.dev.takers s.drip s.mem clus) = some (n, l, .block b, fs, gall))
    {e : Dev × List (Nat × Byte)} (he : e = (s.dev.serving s.mem clus n l).evict s.drip s.mem fs (4096 * l.slots))
    {r : Dev × List (Nat × Byte)} (hr : r = (e.1.setLch n { l with
        waited := 0
        aged := 0 }).restoreBlock s.drip s.mem b clus fs gall) :
    Writes (.blockAdmission clus) s r.1 (e.2 ++ r.2) := by
  subst hr he
  change execBlockAdmission clus s = _
  refine run_eff ?_
  simp only [if_neg (mayAdmit_free h), pick]
  rfl

end

/-- A launch that has waited long enough rises. -/
theorem priorityAging_rises {s : State} {n : Nat} {l : Launch} (hn : s.dev.lch n = some l) (he : l.ended = none)
    (due : l.aged < l.waited / 2 ^ 20) :
    Yields (.priorityAging n) s (s.dev.setLch n { l with aged := l.waited / 2 ^ 20 }) := by
  have due : l.agingDue = true := by
    rw [Launch.agingDue, he]
    exact decide_eq_true due
  change execPriorityAging n s = _
  refine event_ok ?_
  simp only [hn, due, if_true]

/-! ### Swaps (R307, R325) -/

section
variable {s : State} {b : Nat} {k : Block} {l : Launch} (h : s.parkedOut b k l)
include h

/-- A block parked through its budget stops where its state has room, and else begins a new budget. -/
theorem swapDecision_due {t : Nat} (running : k.st = .running) (since : k.parkSince = some t)
    (budget : t + l.parkb ≤ s.drip) : exec (.swapDecision b) s = (match s.dev.stowage s.drip s.mem k l with
      | none => Res.eff (s.dev.setBlk b { k with parkSince := none }) []
      | some _ => .eff (s.dev.setBlk b { k with st := .swapping }) []).run s := by
  obtain ⟨block, ⟨n, launch, hn⟩, up, parked⟩ := h
  have due : ¬ (k.st ≠ .running ∨ s.dev.halted s.drip k.tenant = true ∨ (!s.dev.parkedEnough k l.parkf) = true ∨
      k.parkSince.all (fun t => decide (s.drip < t + l.parkb)) = true) := by
    simp only [running, since, up, parked, Option.all_some, decide_eq_true_eq, Nat.not_lt.mpr budget]
    decide
  change execSwapDecision b s = _
  unfold execSwapDecision run
  simp only [block, launch, hn]
  exact congrArg (Res.run s) (if_neg due)

/-- A block that stopped is saved once it may be, where its state has room. -/
theorem swapSave_saves {g : Stowage} (swapping : k.st = .swapping) (may : s.maySave k)
    (room : s.dev.stowage s.drip s.mem k l = some g)
    (free : ∀ p, g.area = some p → s.dev.areaFree s.drip p k.imageLen = true) :
    Writes (.swapSave b) s (s.dev.saveBlock s.mem k g 0).1 (s.dev.saveBlock s.mem k g 0).2 := by
  obtain ⟨block, ⟨n, launch, hn⟩, up, parked⟩ := h
  obtain ⟨stores, done, near⟩ := may
  have stopped : ¬ (k.st ≠ .swapping ∨ s.dev.halted s.drip k.tenant = true) := by
    simp [swapping, up]
  change execSwapSave b s = _
  refine run_eff ?_
  simp only [block, launch, hn, parked, done, near, room, Bool.not_true, Bool.false_eq_true, if_false,
    Option.isSome_none, or_false]
  rw [if_neg stopped, if_neg (fun hs => Bool.false_ne_true (stores.symm.trans hs))]
  cases ha : g.area with
  | none => rfl
  | some p => exact if_neg (by simp [free p ha])

end

/-! ### Active messages (R331) -/

section
variable {s : State} {m : Nat} {src : From} {target pc a0 a1 : Word} (h : s.amsgJudged m src target pc a0 a1)
include h

/-- An active message whose core takes it starts a thread, and its reply names the slot. -/
theorem amsgArrival_starts {d : Dev} {w : List (Nat × Byte)} {n : Nat}
    (ok : (s.dev.drop m).startThread s.drip s.mem src.tenant src.ctx target pc a0 a1 none = .ok d w n) :
    Writes (.amsgArrival m) s (d.reply src (wd64 n)) w := by
  obtain ⟨hc, acked, sent, core, turn, up⟩ := h
  have hc : s.dev.msg m = some (.req src (.amsg target pc a0 a1)) := hc
  change execAmsgArrival m s = _
  refine run_eff ?_
  simp only [hc, acked, sent, core, turn, up, ok, Bool.not_true, Bool.false_eq_true, or_self, if_false]

/-- One whose core does not is refused. -/
theorem amsgArrival_refused {c : Nat}
    (no : (s.dev.drop m).startThread s.drip s.mem src.tenant src.ctx target pc a0 a1 none = .refused c) :
    Yields (.amsgArrival m) s ((s.dev.drop m).refuse src c) := by
  obtain ⟨hc, acked, sent, core, turn, up⟩ := h
  have hc : s.dev.msg m = some (.req src (.amsg target pc a0 a1)) := hc
  change execAmsgArrival m s = _
  refine event_ok ?_
  simp only [hc, acked, sent, core, turn, up, no, Bool.not_true, Bool.false_eq_true, or_self, if_false]

end

/-- Settles O42: what is picked, what has waited, what is parked and what is judged. -/
theorem blocksAreScheduled : Obligations.BlocksAreScheduled := by
  unfold Obligations.BlocksAreScheduled
  refine ⟨fun s clus n gall l fs h => ⟨fun p pick => blockAdmission_point h pick rfl rfl,
      fun b pick => blockAdmission_block h pick rfl rfl⟩,
    fun s n l => priorityAging_rises, fun s b t k l h running since budget => ⟨fun g room => ?_, fun full => ?_⟩,
    fun s b k l g h => swapSave_saves h,
    fun s m src target pc a0 a1 h => ⟨fun d w n => amsgArrival_starts h, fun c => amsgArrival_refused h⟩⟩
  · unfold Yields
    rw [swapDecision_due h running since budget, room]
    rfl
  · unfold Yields
    rw [swapDecision_due h running since budget, full]
    rfl

end Sys2Proof.Machine
end

section
/-!
PROOFS. Gang pre-emption: what a stop leaves, and what a go brings back (R308, R354).
-/
namespace Sys2Proof.Machine
open Sys2Proof

/-! ### Units that only send -/

/-- Module `e` is module `d` with messages sent. -/
def Dev.onlySends (d e : Dev) : Prop := ∃ l n, e = { d with msgs := d.msgs ++ l, nextMsg := n }

/-- Nothing sent. -/
theorem Dev.onlySends.refl (d : Dev) : d.onlySends d := ⟨[], d.nextMsg, by simp⟩

/-- Sent in two steps. -/
theorem Dev.onlySends.trans {d e f : Dev} (h : d.onlySends e) (h' : e.onlySends f) : d.onlySends f := by
  obtain ⟨l, n, rfl⟩ := h
  obtain ⟨r, k, rfl⟩ := h'
  exact ⟨l ++ r, k, by simp⟩

/-- One message sent. -/
theorem Dev.onlySends_send (d : Dev) (k : MsgKind) : d.onlySends (d.send k) := ⟨_, _, rfl⟩

/-- Steps that only send, one after another, only send. -/
theorem Dev.onlySends_foldl {α : Type} {f : Dev → α → Dev} (h : ∀ (d : Dev) a, d.onlySends (f d a)) :
    ∀ (l : List α) (d : Dev), d.onlySends (l.foldl f d)
  | [], d => .refl d
  | a :: l, d => (h d a).trans (Dev.onlySends_foldl h l (f d a))

/-- A kept row goes out as a store that is accepted (R308). -/
theorem Dev.saveRow_onlySends (d : Dev) (drip : Nat) (mem : Memory) (l : Launch) (row : Nat) (w : Word) :
    d.onlySends (d.saveRow drip mem l row w) := by
  unfold Dev.saveRow
  split
  · exact .refl d
  · split
    · exact .refl d
    · exact Dev.onlySends_foldl (fun d _ => d.onlySends_send _) _ d

/-- The module once the kept rows of a tenant's launches have gone out (R308). -/
def Dev.rowsSaved (d : Dev) (drip : Nat) (mem : Memory) (tenant : Nat) : Dev :=
  d.launches.foldl (fun d p =>
    if p.2.tenant = tenant ∧ p.2.ended.isNone ∧ d.frontierLive drip p.2 then
      p.2.rows.foldl (fun d r => d.saveRow drip mem p.2 r.1 r.2) d
    else d) d

/-- The rows that go out are messages and nothing else. -/
theorem Dev.rowsSaved_onlySends (d : Dev) (drip : Nat) (mem : Memory) (tenant : Nat) :
    d.onlySends (d.rowsSaved drip mem tenant) := by
  unfold Dev.rowsSaved
  refine Dev.onlySends_foldl (fun d p => ?_) _ d
  split
  · refine Dev.onlySends_foldl (fun e r => ?_) p.2.rows d
    exact e.saveRow_onlySends drip mem p.2 r.1 r.2
  · exact .refl d

/-! ### The stop (R354) -/

/-- The blocks of a tenant's partition that a stop halts. -/
def Dev.halts (d : Dev) (tenant : Nat) : List (Nat × Block) :=
  d.blocks.filter (fun p => p.2.ofTenant tenant && (p.2.st == .running || p.2.st == .swapping))

/-- Their threads. -/
def Dev.haltTids (d : Dev) (tenant : Nat) : List Nat := (d.halts tenant).flatMap (fun p => p.2.crews.flatMap Crew.tids)

/-- A module whose partition stops. -/
def Dev.stopped (d : Dev) (tenant : Nat) : Dev :=
  { d with
    stops := d.stops.map (fun (s : Stop) => if s.tenant = tenant then { s with reached := true } else s)
    blocks := d.blocks.map (fun (p : Nat × Block) => if (d.halts tenant).any (fun h => h.1 == p.1) then
      (p.1, { p.2 with
        st := .stopped
        parkSince := none }) else p)
    threads := d.threads.map (fun (p : Nat × Thread) =>
      if (d.haltTids tenant).contains p.1 then (p.1, { p.2.emptySet with preempted := true }) else p)
    stowed := d.stowed ++ d.msgs.filter (d.stows tenant)
    msgs := d.msgs.filter (fun m => !d.stows tenant m) }

/-- At its stamp a partition stops, its kept rows sent out. -/
theorem preemptionStop_ok {s : State} {tenant : Nat}
    (h : s.dev.stops.any (fun x => x.tenant == tenant && !x.reached && x.at' ≤ s.drip) = true) :
    Yields (.preemptionStop tenant) s ((s.dev.rowsSaved s.drip s.mem tenant).stopped tenant) := by
  change execPreemptionStop tenant s = _
  refine event_ok ?_
  simp only [h, Bool.not_true, Bool.false_eq_true, if_false]
  rfl

section
variable (d : Dev) (tenant : Nat)

/-- Every stop of the tenant's has been reached. -/
theorem stopped_reached : ∀ x ∈ (d.stopped tenant).stops, x.tenant = tenant → x.reached = true := by
  intro x hx ht
  obtain ⟨y, -, rfl⟩ := List.mem_map.mp hx
  by_cases hy : y.tenant = tenant
  · rw [if_pos hy]
  · rw [if_neg hy] at ht
    exact absurd ht hy

/-- No block of the tenant's runs, or is about to be swapped. -/
theorem stopped_blocks : ∀ p ∈ (d.stopped tenant).blocks, p.2.ofTenant tenant = true →
    p.2.st ≠ .running ∧ p.2.st ≠ .swapping := by
  intro p hp ht
  obtain ⟨q, hq, rfl⟩ := List.mem_map.mp hp
  by_cases halts : (d.halts tenant).any (fun h => h.1 == q.1) = true
  · rw [if_pos halts]
    exact ⟨nofun, nofun⟩
  · rw [if_neg halts] at ht ⊢
    have other : q ∉ d.halts tenant := fun hin => halts (List.any_eq_true.mpr ⟨q, hin, beq_self_eq_true q.1⟩)
    simpa [Dev.halts, hq, ht] using other

/-- The threads of a block that ran have stopped, their multi-line sets empty. -/
theorem stopped_threads {p : Nat × Block} (hp : p ∈ d.blocks) (ht : p.2.ofTenant tenant = true)
    (running : p.2.st = .running) : ∀ x ∈ p.2.crews.flatMap Crew.tids, ∀ q ∈ (d.stopped tenant).threads, q.1 = x →
      q.2.preempted = true ∧ q.2.mcsLines = [] ∧ q.2.mcsStaged = [] := by
  intro x hx q hq hqx
  obtain ⟨r, -, rfl⟩ := List.mem_map.mp hq
  have hr : r.1 = x := by
    rw [← hqx]
    split <;> rfl
  have halted : p ∈ d.halts tenant := List.mem_filter.mpr ⟨hp, by simp [ht, running]⟩
  have mem : (d.haltTids tenant).contains r.1 = true := by
    rw [hr, List.contains_iff_mem]
    exact List.mem_flatMap.mpr ⟨p, halted, hx⟩
  rw [if_pos mem]
  exact ⟨rfl, rfl, rfl⟩

/-- A message of the tenant's has left the fabric for a stow buffer (R320). -/
theorem stopped_stows {m : Msg} (hm : m ∈ d.msgs) (hs : d.stows tenant m = true) :
    m ∈ (d.stopped tenant).stowed ∧ m ∉ (d.stopped tenant).msgs :=
  ⟨List.mem_append_right _ (List.mem_filter.mpr ⟨hm, hs⟩), fun h => by
    have := (List.mem_filter.mp h).2
    simp [hs] at this⟩

end

/-- Settles O43: a stop, as it is after the rows have gone out; and a go. -/
theorem gangsStop : Obligations.GangsStop := by
  unfold Obligations.GangsStop
  refine ⟨fun s tenant h => ?_, fun s tenant x d w hx resumed => ?_⟩
  · obtain ⟨l, n, sent⟩ := s.dev.rowsSaved_onlySends s.drip s.mem tenant
    refine ⟨_, preemptionStop_ok h, ?_⟩
    rw [sent]
    exact ⟨stopped_reached _ tenant, stopped_blocks _ tenant,
      fun p hp ht running => stopped_threads _ tenant hp ht running,
      fun m hm hs => stopped_stows _ tenant (List.mem_append_left l hm) hs, rfl, rfl, rfl, rfl⟩
  · change execResumption tenant s = _
    refine run_eff ?_
    simp only [hx, resumed]

end Sys2Proof.Machine
end

section
/-!
PROOFS. Walks and their joiners, fault records in their rings, and removals of translations (R336 to R338, R343, R344).
-/
namespace Sys2Proof.Machine
open Sys2Proof

/-! ### Walks (R336, R337) -/

section
variable {s : State} {w : Walk} (hw : s.dev.walks.find? (fun x => x.id = w.id) = some w)
  (still : (walkLines s.mem s.dev.ctxtb w.ctx w.va).any (s.dev.busyLine s.drip) = false)
  {d : Dev} (hd : d = { s.dev with walks := s.dev.walks.filter (fun y => y.id != w.id) })
include hw still hd

/-- A walk that a TLBI has met ends for none of its joiners (R338). -/
theorem walkEnd_stale (stale : w.stale = true) : Yields (.walkEnd w.id) s d := by
  subst hd
  change execWalkEnd w.id s = _
  refine event_ok ?_
  simp only [hw, still, stale, Bool.false_eq_true, if_false, if_true]

/-- Any other ends for all of them. -/
theorem walkEnd_joiners (fresh : w.stale = false) :
    Yields (.walkEnd w.id) s (w.joiners.foldl (fun d j => d.joinerEnd s.mem w j) d) := by
  subst hd
  change execWalkEnd w.id s = _
  refine event_ok ?_
  simp only [hw, still, fresh, Bool.false_eq_true, if_false]

end

/-! ### Joiners (R337, R344) -/

/-- A requester that parks changes no thread, and waits on a record of its cause. -/
theorem parkOn_waits (d : Dev) (mem : Memory) (die ctx tenant cause level orig acc : Nat) (va : Word)
    (core slot : Nat) (w : Waiter) :
    let p := d.parkOn mem die ctx tenant cause level orig acc va core slot w
    p.1.threads = d.threads ∧ p.1.faults.any (fun f => f.rid = p.2 && f.cause = cause && f.waits) = true := by
  unfold Dev.parkOn
  split
  · next f hf =>
    have key := List.find?_some hf
    simp only [Bool.and_eq_true, beq_iff_eq] at key
    obtain ⟨⟨⟨⟨waits, -⟩, -⟩, hc⟩, -⟩ := key
    refine ⟨rfl, List.any_eq_true.mpr ⟨_, List.mem_map.mpr ⟨f, List.mem_of_find?_eq_some hf, rfl⟩, ?_⟩⟩
    simp [hc, waits]
  · exact ⟨rfl, by simp [Dev.fileFault]⟩

/-- A change of a thread leaves the fault records. -/
theorem Dev.updThr_faults (d : Dev) (k : Nat) (f : Thread → Thread) : (d.updThr k f).faults = d.faults := by
  unfold Dev.updThr
  split <;> rfl

section
variable {d : Dev} {mem : Memory} {w : Walk} {tid acc : Nat} {pc va : Word} {t : Thread} (ht : d.thr tid = some t)
include ht

/-- A joiner whose tree allows its access puts the leaf first in its core's cache. -/
theorem joinerEnd_leaf {l : Word} {large : Bool}
    (tree : walkTree mem d.ctxtb d.modNo w.ctx va (AccK.ofCode acc) = .ok (l, large)) :
    ((d.joinerEnd mem w (.thread tid acc pc va)).core t.coreSlot.1).tlb.head? =
      some ⟨w.ctx, if large then bits va 16 35 / 32 * 32 else bits va 16 35, large, l⟩ := by
  unfold Dev.joinerEnd
  simp only [ht, tree]
  rw [Dev.core_setCore, if_pos rfl]
  rfl

/-- One whose tree faults, and that still stands at its head, parks on a record of the cause. -/
theorem joinerEnd_parks {c level : Nat}
    (tree : walkTree mem d.ctxtb d.modNo w.ctx va (AccK.ofCode acc) = .error (c, level)) (hpc : t.pc = pc)
    (ready : t.wst = .ready) (alive : t.exited = false) (traps : t.traps = []) :
    ∃ n x, (d.joinerEnd mem w (.thread tid acc pc va)).thr tid = some x ∧ x.wst = .parked n ∧
      (d.joinerEnd mem w (.thread tid acc pc va)).faults.any (fun f => f.rid = n && f.cause = c && f.waits) = true := by
  obtain ⟨threads, record⟩ := parkOn_waits d mem w.die w.ctx t.tenant c level 0 acc va t.coreSlot.1 t.coreSlot.2
    (.thread tid acc pc va)
  have stands : ¬ (t.pc ≠ pc ∨ t.wst ≠ .ready ∨ t.exited = true ∨ t.traps ≠ []) := by
    simp [hpc, ready, alive, traps]
  unfold Dev.joinerEnd
  simp only [ht, tree]
  rw [if_neg stands]
  generalize d.parkOn mem w.die w.ctx t.tenant c level 0 acc va t.coreSlot.1 t.coreSlot.2 (.thread tid acc pc va) = p
    at threads record ⊢
  refine ⟨p.2, { t with wst := .parked p.2 }, ?_, rfl, ?_⟩
  · rw [Dev.thr_updThr, if_pos rfl, Dev.thr, threads]
    exact congrArg (Option.map _) ht
  · rw [Dev.updThr_faults]
    exact record

end

/-! ### Fault records (R343) -/

/-- The module once a record has been written to its place in its ring: the record is done with, its vector
signalled, and the ring's next place the one after. -/
def Dev.recordWritten (d : Dev) (mem : Memory) (f : FaultRec) : Dev :=
  let e := (d.recordDone f).signal (4 * f.tenant + b2n f.log)
  let next := ((d.ring mem f).2.2 + 1) % (d.ring mem f).2.1
  if f.log then { e with flNext := put f.tenant next e.flNext } else { e with fqNext := put f.tenant next e.fqNext }

/-- The oldest record of a die is written where its place in the ring is free. -/
theorem faultRecordWrite_ok {s : State} {die : Nat} {f : FaultRec} (h : s.dev.nextRecord s.mem die f)
    (may : s.dev.unitMayWrite s.drip (lineOf ((s.dev.ring s.mem f).1 + 32 * (s.dev.ring s.mem f).2.2)) = true)
    (free : bit (s.mem.read64 ((s.dev.ring s.mem f).1 + 32 * (s.dev.ring s.mem f).2.2)) 63 = false) :
    Writes (.faultRecordWrite die) s (s.dev.recordWritten s.mem f) ((f.words s.dev.modNo).zipIdx.flatMap (fun p =>
      bytesAt ((s.dev.ring s.mem f).1 + 32 * (s.dev.ring s.mem f).2.2 + 8 * p.2) 8 p.1)) := by
  unfold Dev.nextRecord at h
  change execFaultRecordWrite die s = _
  refine run_eff ?_
  simp only [h, may, free, Bool.not_true, Bool.not_false, Bool.false_eq_true, if_false, if_true]
  rfl

/-- Its vector is signalled. -/
theorem Dev.recordWritten_vectors (d : Dev) (mem : Memory) (f : FaultRec) :
    4 * f.tenant + b2n f.log ∈ (d.recordWritten mem f).vectors := by
  unfold Dev.recordWritten
  split <;> exact List.mem_cons_self

/-- A log record moves the log's next place on, and any other the queue's. -/
theorem Dev.recordWritten_next (d : Dev) (mem : Memory) (f : FaultRec) :
    (f.log = true → (d.recordWritten mem f).flNext
      = put f.tenant (((d.ring mem f).2.2 + 1) % (d.ring mem f).2.1) d.flNext) ∧
    (f.log = false → (d.recordWritten mem f).fqNext
      = put f.tenant (((d.ring mem f).2.2 + 1) % (d.ring mem f).2.1) d.fqNext) := by
  unfold Dev.recordWritten
  refine ⟨fun hl => ?_, fun hl => ?_⟩
  · rw [if_pos hl]
    rfl
  · rw [if_neg (by simp [hl])]
    rfl

/-! ### TLBI (R338) -/

/-- A TLBI whose work is done at every core has its reply. -/
theorem tlbi_replies {s : State} {m n : Nat} {src : From} {op : TlbiFn} {va : Word} {d : Dev}
    (hc : s.carries m (.req src (.tlbi op va n))) (h : s.dev.doTlbi s.mem src op va n = some d) :
    Yields (.replyArrival m) s ((d.drop m).reply src 0) := by
  have hc : s.dev.msg m = some (.req src (.tlbi op va n)) := hc
  have own : s.dev.ownRequest s.drip s.mem m src (.tlbi op va n) = some ((d.drop m).reply src 0, []) := by
    simp only [Dev.ownRequest, h, Option.map_some]
  change execReplyArrival m s = _
  refine event_ok ?_
  simp only [hc, own]

/-- No core keeps a translation that it hits. -/
theorem doTlbi_removes {d e : Dev} {mem : Memory} {src : From} {op : TlbiFn} {va : Word} {n : Nat}
    (h : d.doTlbi mem src op va n = some e) :
    ∀ p ∈ e.cores, ∀ x ∈ p.2.tlb, tlbiHits mem d op va n x.ctx (wd64 (x.page * 65536)) x.large = false := by
  unfold Dev.doTlbi at h
  dsimp only at h
  split at h
  · cases h
  · cases h
    intro p hp x hx
    obtain ⟨q, -, rfl⟩ := List.mem_map.mp hp
    exact (Bool.not_eq_true' _).mp (List.mem_filter.mp hx).2

/-- Settles O30: the end of a walk and of each joiner, a record's write, and a TLBI. -/
theorem walksAndRecords : Obligations.WalksAndRecords := by
  unfold Obligations.WalksAndRecords
  exact ⟨fun s w hw still => ⟨walkEnd_stale hw still rfl, walkEnd_joiners hw still rfl⟩,
    fun d mem w tid acc pc va t ht => ⟨fun l large => joinerEnd_leaf ht, fun c level => joinerEnd_parks ht⟩,
    fun s die f h may free => ⟨_, faultRecordWrite_ok h may free, s.dev.recordWritten_vectors s.mem f,
      s.dev.recordWritten_next s.mem f⟩,
    fun s m n src op va d hc h => ⟨tlbi_replies hc h, doTlbi_removes h⟩⟩

end Sys2Proof.Machine
end

section
/-!
PROOFS. Transfers whose target fails R42, and the heads that change their thread alone: HALT, DOZE, FENCE, WAIT, NOP.
-/
namespace Sys2Proof.Machine
open Sys2Proof

/-! ### Bad targets (R42) -/

/-- A transfer to a target that fails R42 traps with the target. -/
theorem transfer_bad {i : In} {a : Word} (f : Dev → Dev)
    (h : i.base.target i.drip i.mem i.tid i.core i.t.ctx a = .bad) :
    i.transfer a f = .trap Cause.illegalTarget (some a) := by
  unfold In.transfer
  rw [h]

/-- Settles O5: the transfer's body is the trap, taken at its own head. -/
theorem badTargetTraps : Obligations.BadTargetTraps := by
  unfold Obligations.BadTargetTraps
  intro x p g u c a f hx s j h hc ht
  obtain ⟨b, hb, hbody⟩ := exec_transfer hx
  rw [hb s]
  exact issue_trap h ((hbody j hc).trans (transfer_bad _ ht))

/-! ### Waits (R86, R87) -/

/-- WAIT's own test of the four counts is the statement's. -/
theorem boundsMet_iff (o : WaitOp) (t : Thread) :
    (boundMet t.cL o.l && boundMet t.cS o.s && boundMet t.cC o.c && boundMet t.cM o.m) = true ↔ countsMet o t := by
  simp [boundMet, countsMet, and_assoc]

/-- A WAIT whose counts are met, with nothing for its slot to report, goes on. -/
theorem wait_ok {o : WaitOp} {s : State} {j : In} (h : IssuesS s false o.g {} j) (met : countsMet o j.t)
    (quiet : o.s = 15 ∨ j.base.lapse j.tid j.t = none) : exec (.wait o) s = .next (s.withDev j.dev) := by
  refine issueS_ok h ((if_pos ((boundsMet_iff o j.t).mpr met)).trans ?_)
  rw [show (if o.s = 15 then none else j.base.lapse j.tid j.t) = none from by
    split
    · rfl
    · next hs => exact quiet.resolve_left hs]

/-! ### Heads that change their thread -/

/-- The scopes of a core's own agents are `.slot` and `.core` (R268). -/
theorem nearOnly_iff (sc : Scope) : nearOnly sc = true ↔ sc = .slot ∨ sc = .core := by
  cases sc <;> simp [nearOnly]

/-- A fence leaves its thread fenced (R281). -/
theorem fence_body (i : In) (od : FenceOd) (sc : Scope) :
    i.fence od sc = i.thread (fun t => t.fenced od sc (i.base.loadOps i.tid) i.base.nextOp) := by
  have far : (!nearOnly sc) = true ↔ sc ≠ .slot ∧ sc ≠ .core := by
    rw [Bool.not_eq_true', ← Bool.not_eq_true, nearOnly_iff, not_or]
  simp only [In.fence, Thread.fenced, nearOnly_iff, far]

/-- A head of `ThreadForm` changes its thread by its form, where its condition holds. -/
theorem exec_thread {x : Instr} {p : Bool} {g : Guard} {u : Uses} {c : In → Prop} {f : In → Thread → Thread}
    (h : ThreadForm x p g u c f) : ∃ b : In → Out, (∀ s, exec x s = run (issueS p g u b) s) ∧
      ∀ i, c i → b i = i.thread (f i) := by
  cases h with
  | wait o => exact ⟨_, fun _ => rfl, fun i hi => if_neg fun met => hi ((boundsMet_iff o i.t).mp met)⟩
  | fence o => exact ⟨_, fun _ => rfl, fun i _ => fence_body i o.od o.sc⟩
  | fenceGuarded o => exact ⟨_, fun _ => rfl, fun i _ => fence_body i o.od o.sc⟩
  | _ => exact ⟨_, fun _ => rfl, fun _ _ => rfl⟩

/-- Settles O6: the forms that change their thread, NOP with and without a guard, and WAIT with its counts met. -/
theorem threadHeads : Obligations.ThreadHeads := by
  unfold Obligations.ThreadHeads
  refine ⟨fun x p g u c f hx s j h hc => ?_, fun s j h => issueS_ok h rfl, fun o s j h => issueS_ok h rfl,
    fun o s j h => wait_ok h⟩
  obtain ⟨b, hb, hbody⟩ := exec_thread hx
  rw [hb s]
  exact issueS_ok h (hbody j hc)

end Sys2Proof.Machine
end

section
/-!
PROOFS. What the words of a head must give back (R38 to R59), and what decoders read from each part of them: checks
that pass, tails, the fields of each layout, and immediates.
-/
namespace Sys2Proof

/-! ### Words that read back -/

/-- What O51 asks of an instruction's words: their shape (R39, R41, R45), and that the decoder reads it from them. -/
structure Words.Reads (w : Words) (i : Instr) : Prop where
  head_lt : w.head < 2 ^ 16
  pair : fld w.head 13 1 = 0
  len : w.len = tailBytes (fld w.head 14 2)
  tail_lt : w.tail < 2 ^ (8 * w.len)
  decodes : decode w.head w.tail = .ok i

/-- A well-formed instruction has words, and they read back. -/
def Instr.RoundTrips (i : Instr) : Prop := i.wf = true → ∃ w, encode i = some w ∧ w.Reads i

/-- The opcode map (Table 3-7): the decoder of each major. -/
inductive Major : Nat → (Nat → Tail → Dec Instr) → Prop where
  | misc : Major 0x00 decMisc
  | alu : Major 0x01 decAlu
  | mulDiv : Major 0x02 decMulDiv
  | unary : Major 0x03 decUnary
  | bitf : Major 0x04 decBitf
  | aluI : Major 0x05 decAluI
  | imm : Major 0x06 decImm
  | cmp : Major 0x07 decCmp
  | cmpI : Major 0x08 decCmpI
  | pred : Major 0x09 decPred
  | fpa : Major 0x0A decFpa
  | fpb : Major 0x0B decFpb
  | ld : Major 0x10 decLd
  | st : Major 0x11 decSt
  | ldaq : Major 0x12 decLdaq
  | strl : Major 0x13 decStrl
  | vload : Major 0x14 (decVMem true)
  | vstore : Major 0x15 (decVMem false)
  | atom : Major 0x16 decAtom
  | atomx : Major 0x17 decAtomx
  | time : Major 0x18 decTime
  | wait : Major 0x19 decWait
  | fence : Major 0x1A decFence
  | pref : Major 0x1B decPref
  | br : Major 0x20 decBr
  | call : Major 0x21 decCall
  | loop : Major 0x22 decLoop
  | jmp : Major 0x23 decJmp
  | jr : Major 0x24 decJr
  | lease : Major 0x28 decLease
  | barr : Major 0x29 decBarr
  | path : Major 0x2A decPath
  | journal : Major 0x2B decJournal
  | bund : Major 0x2C decBund
  | mcs : Major 0x2D decMcs
  | tag : Major 0x2E decTag
  | sched : Major 0x30 decSched
  | sys : Major 0x38 decSys
  | varith : Major 0x40 decVArith
  | vconv : Major 0x41 decVConv
  | vred : Major 0x42 decVRed
  | vcmpSel : Major 0x43 decVCmpSel
  | vlogic : Major 0x44 decVLogic
  | vmove : Major 0x45 decVMove
  | vmisc : Major 0x46 decVMisc
  | matrix : Major 0x50 decMatrix
  | copy : Major 0x51 decCopy

theorem Major.lt {m : Nat} {k : Nat → Tail → Dec Instr} (h : Major m k) : m < 128 := by cases h <;> decide

/-- A head of a major reads as that major's decoder reads F and the tail (R41, R47). -/
theorem Major.decodes {m : Nat} {k : Nat → Tail → Dec Instr} (h : Major m k) {head : Nat} (hm : fld head 6 7 = m)
    (tail : Nat) : decode head tail = k (fld head 0 6) (Tail.ofNat (fld head 14 2) tail) := by
  cases h <;> simp only [decode, hm]

/-- A two-byte tail (format H). -/
def Tail.two (g : Guard) (a b mn : Nat) : Tail := ⟨1, g.code * 2 ^ 12 + a * 2 ^ 7 + b * 2 ^ 2 + mn, none⟩

/-- A four-byte tail, or with imm32 the one of format E. -/
def Tail.four (t : Nat) (e : Option Nat) : Tail := ⟨if e = none then 2 else 3, t, e⟩

/-- imm32, where there is one, has 32 bits. -/
def Fits32 (e : Option Nat) : Prop := ∀ n, e = some n → n < 2 ^ 32

section
variable {m f : Nat} {k : Nat → Tail → Dec Instr} {i : Instr} (major : Major m k)
include major

/-- A head without a tail reads as its major's decoder reads F. -/
theorem reads_wZ (h : f < 64 ∧ k f ⟨0, 0, none⟩ = .ok i) : (wZ m f).Reads i := by
  have hm := major.lt
  obtain ⟨hf, hi⟩ := h
  obtain ⟨hF, hM, hT⟩ := head_none m f hm hf
  refine ⟨?_, ?_, ?_, Nat.one_pos, ?_⟩
  · simp only [wZ]; omega
  · simp only [wZ, fld]; omega
  · simp only [wZ, hT, tailBytes]
  · exact (major.decodes hM _).trans (by rw [wZ, hF, hT]; exact hi)

/-- A head with a two-byte tail reads as its major's decoder reads F and that tail. -/
theorem reads_wH {g : Guard} {a b mn : Nat}
    (h : f < 64 ∧ a < 32 ∧ b < 32 ∧ mn < 4 ∧ k f (Tail.two g a b mn) = .ok i) : (wH m f g a b mn).Reads i := by
  have hm := major.lt
  obtain ⟨hf, ha, hb, hmn, hi⟩ := h
  obtain ⟨hF, hM, hT⟩ := head_two m f hm hf
  have hg := g.code_lt
  refine ⟨?_, ?_, ?_, ?_, ?_⟩
  · simp only [wH]; omega
  · simp only [wH, fld]; omega
  · simp only [wH, hT, tailBytes]
  · simp only [wH]; omega
  · exact (major.decodes hM _).trans (by rw [wH, hF, hT]; exact hi)

/-- A head with a four-byte or an E tail reads as its major's decoder reads F and that tail. -/
theorem reads_w4 {t : Nat} {e : Option Nat}
    (h : f < 64 ∧ t < 4294967296 ∧ Fits32 e ∧ k f (Tail.four t e) = .ok i) : (w4 m f t e).Reads i := by
  have hm := major.lt
  obtain ⟨hf, ht, he, hi⟩ := h
  cases e with
  | none =>
    obtain ⟨hF, hM, hT⟩ := head_four m f hm hf
    refine ⟨?_, ?_, ?_, ht, ?_⟩
    · simp only [w4]; omega
    · simp only [w4, fld]; omega
    · simp only [w4, hT, tailBytes]
    · exact (major.decodes hM _).trans (by rw [w4, hF, hT]; exact hi)
  | some n =>
    obtain ⟨hF, hM, hT⟩ := head_eight m f hm hf
    have hn : n < 2 ^ 32 := he n rfl
    refine ⟨?_, ?_, ?_, ?_, ?_⟩
    · simp only [w4]; omega
    · simp only [w4, fld]; omega
    · simp only [w4, hT, tailBytes]
    · simp only [w4]; omega
    · exact (major.decodes hM _).trans (by rw [w4, hF, hT, tail_eight t n ht hn]; exact hi)

end

/-! ### Checks that pass

The equations that hold by computation are proved by `(rfl)`, not `rfl`: simp then rewrites by them in steps of the proof,
where by definitional unfolding the kernel would compare whole decoders, down to the powers of two in a layout. -/

@[simp] theorem Dec.ok_bind {α β : Type} (a : α) (f : α → Dec β) : ((.ok a : Dec α) >>= f) = f a := (rfl)

@[simp] theorem Dec.pure_eq {α : Type} (a : α) : (pure a : Dec α) = .ok a := (rfl)

@[simp] theorem need_true (e : DecErr) : need true e = .ok () := (rfl)

@[simp] theorem zero_zero : zero 0 = .ok () := (rfl)

/-- A field of at most 32 values holds a number of a smaller class. -/
@[simp] theorem val_lt_of_le {n m : Nat} (x : Fin n) (h : n ≤ m) : x.val < m := Nat.lt_of_lt_of_le x.isLt h

/-- A pair's number fits a field of 32 values, and F. -/
@[simp] theorem KP.two_mul_lt (p : KP) : 2 * p.val < 32 ∧ 2 * p.val < 64 := by omega

@[simp] theorem Sign.code_eq_zero (s : Sign) : s.code = 0 ↔ s = .sx := by cases s <;> simp [Sign.code]

@[simp] theorem dX_zero : dX 0 = .ok 0 := (rfl)

@[simp] theorem vr_zero : vr 0 = .ok 0 := (rfl)

@[simp] theorem xr_zero : xr 0 = 0 := (rfl)

@[simp] theorem b2n_le (b : Bool) : b2n b ≤ 1 := by cases b <;> decide

@[simp] theorem b2n_lt (b : Bool) : b2n b < 32 := Nat.lt_of_le_of_lt (b2n_le b) (by decide)

@[simp] theorem b2n_eq_one (b : Bool) : b2n b = 1 ↔ b = true := by cases b <;> decide

@[simp] theorem rsOf_zero : rsOf 0 = .ok .fm := (rfl)

@[simp] theorem imm16_lt (v : BitVec 16) : v.toNat < 65536 := v.isLt

@[simp] theorem mod_imm16_lt (n : Nat) : n % 65536 < 65536 := Nat.mod_lt n (by decide)

/-- A space's code fits a field of three bits too, and none is 3, which COPY gives another meaning (R358). -/
@[simp] theorem Space.code_copy (s : Space) : s.code < 8 ∧ s.code ≤ 3 ∧ s.code ≠ 3 := by cases s <;> decide

theorem ite_lt_of {a b n : Nat} (p : Prop) [Decidable p] (ha : a < n) (hb : b < n) : (if p then a else b) < n := by
  split <;> assumption

theorem need_of {b : Bool} (h : b = true) (e : DecErr) : need b e = .ok () := by rw [h]; rfl

/-! ### Tails -/

@[simp] theorem Tail.two_tl (g : Guard) (a b mn : Nat) : (Tail.two g a b mn).tl = 1 := (rfl)

@[simp] theorem Tail.four_t (t : Nat) (e : Option Nat) : (Tail.four t e).t = t := (rfl)

@[simp] theorem Tail.four_e (t : Nat) (e : Option Nat) : (Tail.four t e).e = e := (rfl)

@[simp] theorem noE_four (t : Nat) : noE (Tail.four t none) = .ok () := (rfl)

@[simp] theorem fourOrE_four (t : Nat) (e : Option Nat) : fourOrE (Tail.four t e) = .ok () := by cases e <;> rfl

@[simp] theorem fits32_none : Fits32 none := fun _ h => by cases h

@[simp] theorem fits32_some (v : BitVec 32) : Fits32 (some v.toNat) := fun _ h => by cases h; exact v.isLt

@[simp] theorem fits32_map (x : Option (BitVec 32)) : Fits32 (x.map BitVec.toNat) := by
  cases x with
  | none => exact fits32_none
  | some v => exact fits32_some v

@[simp] theorem ofNat_comp_toNat : BitVec.ofNat 32 ∘ BitVec.toNat = id := funext fun v => by simp

@[simp] theorem fits32_eOpt (v : BitVec 32) : Fits32 (eOpt v) := by unfold eOpt; split <;> simp

@[simp] theorem RegImm.fits32_ext (x : RegImm) : Fits32 x.ext := by cases x <;> simp [RegImm.ext]

@[simp] theorem VRegImm.fits32_ext (x : VRegImm) : Fits32 x.ext := by cases x <;> simp [VRegImm.ext]

@[simp] theorem Dur.fits32_ext (x : Dur) : Fits32 x.ext := by
  cases x with
  | reg r => exact fits32_none
  | imm n => exact fun _ h => by cases h; exact Nat.lt_trans n.isLt (by decide)

@[simp] theorem regImm_four (t : Nat) (x : RegImm) : regImm (Tail.four t x.ext) x.fld = .ok x := by
  cases x <;> simp [regImm, RegImm.ext, RegImm.fld, xr_val]

@[simp] theorem vregImm_four (t : Nat) (x : VRegImm) : vregImm (Tail.four t x.ext) x.fld = .ok x := by
  cases x <;> simp [vregImm, VRegImm.ext, VRegImm.fld, vr_val]

@[simp] theorem durOf_four (t : Nat) (x : Dur) : durOf (Tail.four t x.ext) x.fld = .ok x := by
  cases x with
  | reg r => simp [durOf, Dur.ext, Dur.fld, xr_val]
  | imm n => simp [durOf, Dur.ext, Dur.fld, Nat.div_eq_of_lt n.isLt]

@[simp] theorem eOff_four (t : Nat) (v : BitVec 32) : eOff (Tail.four t (eOpt v)) = v := by
  unfold eOff eOpt
  split
  · next h => rw [h]; rfl
  · simp

/-! ### What the fields of each layout read -/

/-- The codes that decoders read back at once. -/
theorem codes_read : (∀ x : Width, widthOf x.code = x) ∧ (∀ s : Sign, signOf s.code = s) ∧
    (∀ s : Space, spaceOf s.code = .ok s) ∧ (∀ s : Scope, scopeOf s.code = s) ∧
    (∀ o : Order, orderOf o.code = .ok o) ∧ (∀ r : Rs, rsOf r.code = .ok r) ∧ (∀ c : Cond, condOf c.code = .ok c) ∧
    (∀ c : FCond, fcondOf c.code = .ok c) ∧ (∀ t : FType, ftypeOf t.wd t.sg = .ok t) ∧
    (∀ t : CvtTy, cvtTyOf t.code = .ok t) ∧ (∀ o : AtomFn, atomFnOf o.code = .ok o) ∧
    (∀ s : IdSel, idSelOf s.code = .ok s) ∧ (∀ o : FenceOd, fenceOdOf o.code = .ok o) ∧
    ∀ r : SysReg, sysRegOf r.code = .ok r :=
  ⟨widthOf_code, signOf_code, spaceOf_code, scopeOf_code, orderOf_code, rsOf_code, condOf_code, fcondOf_code,
    ftypeOf_code, cvtTyOf_code, atomFnOf_code, idSelOf_code, fenceOdOf_code, sysRegOf_code⟩

/-- Registers and small numbers read back (R51). -/
theorem registers_read : (∀ r : Reg, dX r.val = .ok r) ∧ (∀ r : Reg, xr r.val = r) ∧ (∀ r : VR, vr r.val = .ok r) ∧
    (∀ r : KR, kr r.val = .ok r) ∧ (∀ p : KP, kp (2 * p.val) = .ok p) ∧
    ∀ (m : Nat) (n : Fin m), small m n.val = .ok n :=
  ⟨dX_val, xr_val, vr_val, kr_val, kp_val, fun _ => small_val⟩

/-- Each code fits its field. -/
theorem codes_fit : (∀ x : Width, x.code < 4) ∧ (∀ s : Sign, s.code ≤ 1) ∧ (∀ s : Space, s.code < 4) ∧
    (∀ s : Scope, s.code < 8) ∧ (∀ o : Order, o.code < 8) ∧ (∀ r : Rs, r.code < 8) ∧ (∀ f : Fmt, f.code < 32) ∧
    (∀ c : Cond, c.code < 16) ∧ (∀ c : FCond, c.code < 32) ∧ (∀ t : CvtTy, t.code < 32) ∧
    (∀ o : AtomFn, o.code < 16) ∧ (∀ s : IdSel, s.code < 32) ∧ (∀ t : FType, t.wd < 4) ∧ (∀ t : FType, t.sg ≤ 1) ∧
    (∀ r : SysReg, r.code < 65536) ∧ (∀ x : RegImm, x.fld < 32) ∧ (∀ x : Dur, x.fld < 32) ∧
    (∀ x : VRegImm, x.fld < 32) ∧ ∀ e : Fin 2, e.val ≤ 1 :=
  ⟨Width.code_lt, fun s => Nat.le_of_lt_succ s.code_lt, Space.code_lt, Scope.code_lt, Order.code_lt, Rs.code_lt,
    Fmt.code_lt, Cond.code_lt, FCond.code_lt, CvtTy.code_lt, AtomFn.code_lt, IdSel.code_lt, FType.wd_lt,
    fun t => Nat.le_of_lt_succ t.sg_lt, SysReg.code_lt, RegImm.fld_lt, Dur.fld_lt, VRegImm.fld_lt,
    fun e => Nat.le_of_lt_succ e.isLt⟩

section
variable (g : Guard) {a b c : Nat} (ha : a < 32) (hb : b < 32) (hc : c < 32)

include ha hb in
/-- What is read from a two-byte tail. -/
@[simp] theorem read_two {mn : Nat} (hmn : mn < 4) : guardOf (fld (Tail.two g a b mn).t 12 4) = .ok g ∧
    fld (Tail.two g a b mn).t 7 5 = a ∧ fld (Tail.two g a b mn).t 2 5 = b ∧ fld (Tail.two g a b mn).t 0 2 = mn ∧
    fld (Tail.two g a b mn).t 0 7 = b % 32 * 4 + mn := by
  obtain ⟨h1, h2, h3, h4, h5, -⟩ := fields_H g a b mn ha hb hmn
  exact ⟨(congrArg guardOf h1).trans (guardOf_code g), h2, h3, h4, h5⟩

/-- What is read from a two-byte tail that adds only a guard. -/
@[simp] theorem hGuard_two : hGuard (Tail.two g 0 0 0).t = .ok g := by
  obtain ⟨h1, -, -, -, -, h6⟩ := fields_H g 0 0 0 (by decide) (by decide) (by decide)
  unfold hGuard Tail.two
  rw [h1, h6, guardOf_code]
  rfl

include ha hb hc

/-- What is read from a tail of format W. -/
@[simp] theorem read_W {wd sg mn sc md : Nat} (hwd : wd < 4) (hsg : sg < 2) (hmn : mn < 16) (hsc : sc < 8)
    (hmd : md < 8) : wf4 (tW g a b c wd sg mn sc md) = .ok ⟨g, a, b, c⟩ ∧ wWd (tW g a b c wd sg mn sc md) = wd ∧
    wSg (tW g a b c wd sg mn sc md) = sg ∧ wMn (tW g a b c wd sg mn sc md) = mn ∧
    wSc (tW g a b c wd sg mn sc md) = sc ∧ wMd (tW g a b c wd sg mn sc md) = md ∧
    tW g a b c wd sg mn sc md < 4294967296 := by
  obtain ⟨hg, h1, h2, h3, h4, h5, h6, h7, h8, h9⟩ := fields_W g a b c wd sg mn sc md ha hb hc hwd hsg hmn hsc hmd
  exact ⟨by simp [wf4, hg, h1, h2, h3, guardOf_code], h4, h5, h6, h7, h8, h9⟩

/-- What is read from a tail of format V. -/
@[simp] theorem read_V {ef rs mn : Nat} (hef : ef < 32) (hrs : rs < 8) (hmn : mn < 32) :
    wf4 (tV g a b c ef rs mn) = .ok ⟨g, a, b, c⟩ ∧ vEf (tV g a b c ef rs mn) = fmtOf ef ∧
    vRs (tV g a b c ef rs mn) = rsOf rs ∧ fld (tV g a b c ef rs mn) 5 3 = rs ∧ vMn (tV g a b c ef rs mn) = mn ∧
    tV g a b c ef rs mn < 4294967296 := by
  obtain ⟨hg, h1, h2, h3, h4, h5, h6, h7⟩ := fields_V g a b c ef rs mn ha hb hc hef hrs hmn
  exact ⟨by simp [wf4, hg, h1, h2, h3, guardOf_code], congrArg fmtOf h4, congrArg rsOf h5, h5, h6, h7⟩

omit hc

/-- What is read from a tail of format VM. -/
@[simp] theorem read_VM {ef sp sc od mn : Nat} (hef : ef < 32) (hsp : sp < 4) (hsc : sc < 8) (hod : od < 8)
    (hmn : mn < 32) : guardOf (fld (tVM g a b ef sp sc od mn) 28 4) = .ok g ∧ fld (tVM g a b ef sp sc od mn) 23 5 = a ∧
    fld (tVM g a b ef sp sc od mn) 18 5 = b ∧ fld (tVM g a b ef sp sc od mn) 13 5 = ef ∧
    fld (tVM g a b ef sp sc od mn) 11 2 = sp ∧ fld (tVM g a b ef sp sc od mn) 8 3 = sc ∧
    fld (tVM g a b ef sp sc od mn) 5 3 = od ∧ fld (tVM g a b ef sp sc od mn) 0 5 = mn ∧
    tVM g a b ef sp sc od mn < 4294967296 := by
  obtain ⟨hg, h⟩ := fields_VM g a b ef sp sc od mn ha hb hef hsp hsc hod hmn
  exact ⟨(congrArg guardOf hg).trans (guardOf_code g), h⟩

omit hb

/-- What is read from a tail of format I. -/
@[simp] theorem read_I {wd sg mn imm : Nat} (hwd : wd < 4) (hsg : sg < 2) (hmn : mn < 16) (him : imm < 65536) :
    guardOf (fld (tI g a wd sg mn imm) 28 4) = .ok g ∧ fld (tI g a wd sg mn imm) 23 5 = a ∧
    iWd (tI g a wd sg mn imm) = wd ∧ iSg (tI g a wd sg mn imm) = sg ∧ iMn (tI g a wd sg mn imm) = mn ∧
    iImm (tI g a wd sg mn imm) = imm ∧ tI g a wd sg mn imm < 4294967296 := by
  obtain ⟨hg, h1, h2, h3, h4, h5, -, h6⟩ := fields_I g a wd sg mn imm ha hwd hsg hmn him
  exact ⟨(congrArg guardOf hg).trans (guardOf_code g), h1, h2, h3, h4, h5, h6⟩

/-- What is read from within imm16 of a tail of format I. -/
@[simp] theorem read_imm16 {wd sg mn imm p n : Nat} (hwd : wd < 4) (hsg : sg < 2) (hmn : mn < 16) (him : imm < 65536)
    (hpn : p + n ≤ 16) : fld (tI g a wd sg mn imm) p n = fld imm p n := by
  obtain ⟨-, -, -, -, -, -, within, -⟩ := fields_I g a wd sg mn imm ha hwd hsg hmn him
  exact within p n hpn

omit ha in
/-- Where format I uses neither wd, sg nor mn, those fields are clear. -/
@[simp] theorem read_I_above {imm : Nat} (him : imm < 65536) : fld (tI g a 0 0 0 imm) 16 7 = 0 := by
  simp only [fld, tI]
  omega

omit ha in
/-- Where format I has no register either, all between its guard and imm16 is clear. -/
@[simp] theorem read_I_clear {imm : Nat} (him : imm < 65536) : fld (tI g 0 0 0 0 imm) 16 12 = 0 := by
  simp only [fld, tI]
  omega

/-- What is read from a tail of format M. -/
@[simp] theorem read_M {wd sg sp sc od off : Nat} (hwd : wd < 4) (hsg : sg < 2) (hsp : sp < 4) (hsc : sc < 8)
    (hod : od < 8) (hof : off < 4096) : guardOf (fld (tM g a wd sg sp sc od off) 28 4) = .ok g ∧
    fld (tM g a wd sg sp sc od off) 23 5 = a ∧ iWd (tM g a wd sg sp sc od off) = wd ∧
    iSg (tM g a wd sg sp sc od off) = sg ∧ fld (tM g a wd sg sp sc od off) 18 2 = sp ∧
    fld (tM g a wd sg sp sc od off) 15 3 = sc ∧ fld (tM g a wd sg sp sc od off) 12 3 = od ∧
    fld (tM g a wd sg sp sc od off) 0 12 = off ∧ tM g a wd sg sp sc od off < 4294967296 := by
  obtain ⟨hg, h⟩ := fields_M g a wd sg sp sc od off ha hwd hsg hsp hsc hod hof
  exact ⟨(congrArg guardOf hg).trans (guardOf_code g), h⟩

omit ha in
/-- Where format M uses its register and offset alone, the fields between them are clear. -/
@[simp] theorem read_M_clear {off : Nat} (hof : off < 4096) : fld (tM g a 0 0 0 0 0 off) 12 11 = 0 := by
  simp only [fld, tM]
  omega

end

/-! ### Immediates -/

/-- A value that a signed field holds reads back from its low bits. -/
@[simp] theorem sext32_mod {n m : Nat} {v : BitVec 32} (hm : m = 2 ^ n) (h : fitsS n v = true) :
    sext32 n (v.toNat % m) = v := by
  have trunc : BitVec.ofNat n (v.toNat % m) = v.truncate n := BitVec.eq_of_toNat_eq (by simp [hm])
  rw [sext32, trunc]
  exact of_decide_eq_true h

/-- The delta and index of a relative transfer, as they stand in imm16 or imm32 (R55). -/
theorem rel_fields (d : Nat) (idx : Fin 32) {n : Nat} (hd : d < 2 ^ n) :
    fld (d * 32 + idx.val) 5 n = d ∧ fld (d * 32 + idx.val) 0 5 = idx.val := by
  have split : (d * 32 + idx.val) / 2 ^ 5 = d := by omega
  exact ⟨by rw [fld, split, Nat.mod_eq_of_lt hd], by unfold fld; omega⟩

section
variable (g : Guard) {a : Nat} (ha : a < 32) (delta : BitVec 27) (idx : Fin 32)
include ha

/-- A delta of 11 bits reads back from format I. -/
theorem relOf_short (h : (delta.truncate 11).signExtend 27 = delta) :
    relOf (Tail.four (tI g a 0 0 0 ((delta.truncate 11).toNat * 32 + idx.val)) none) = .ok (delta, idx) := by
  have hd := (delta.truncate 11).isLt
  have him : (delta.truncate 11).toNat * 32 + idx.val < 65536 := by omega
  obtain ⟨h1, h2⟩ := rel_fields _ idx hd
  simp only [relOf, Tail.four_e, Tail.four_t]
  rw [read_imm16 g ha (by decide) (by decide) (by decide) him (by decide),
    read_imm16 g ha (by decide) (by decide) (by decide) him (by decide), h1, h2, BitVec.ofNat_toNat, xr_val,
    BitVec.setWidth_eq, h]

/-- Any delta reads back from format E. -/
theorem relOf_long : relOf (Tail.four (tI g a 0 0 0 0) (some (delta.toNat * 32 + idx.val))) = .ok (delta, idx) := by
  obtain ⟨-, h⟩ := rel_fields delta.toNat idx delta.isLt
  have hq : (delta.toNat * 32 + idx.val) / 32 = delta.toNat := by omega
  have him : iImm (tI g a 0 0 0 0) = 0 := by simp [ha]
  simp only [relOf, Tail.four_e, Tail.four_t, him, zero_zero, Dec.ok_bind, Dec.pure_eq, h, hq, xr_val,
    BitVec.ofNat_toNat, BitVec.setWidth_eq]

/-- A relative transfer reads back in the format that its delta takes. -/
theorem reads_wRel {m : Nat} {k : Nat → Tail → Dec Instr} {i : Instr} (major : Major m k)
    (h : ∀ imm e, imm < 65536 → relOf (Tail.four (tI g a 0 0 0 imm) e) = .ok (delta, idx) →
      k 0 (Tail.four (tI g a 0 0 0 imm) e) = .ok i) : (wRel m g a delta idx.val).Reads i := by
  have hd := (delta.truncate 11).isLt
  have hd' := delta.isLt
  have him : (delta.truncate 11).toNat * 32 + idx.val < 65536 := by omega
  unfold wRel
  split
  · next short =>
    have value := relOf_short g ha delta idx short
    exact reads_w4 major ⟨by decide, by simp [ha, -BitVec.toNat_setWidth, him], fits32_none, h _ _ him value⟩
  · refine reads_w4 major ⟨by decide, by simp [ha], ?_, h _ _ (by decide) (relOf_long g ha delta idx)⟩
    rintro n ⟨⟩
    omega

end

/-- An offset of 12 bits reads back from off12. -/
theorem mOff_short {t : Nat} {off : BitVec 32} (short : fitsS 12 off = true)
    (h : fld t 0 12 = (off.truncate 12).toNat) : mOff (Tail.four t none) = .ok off := by
  simp [mOff, h, short]

/-- Any offset reads back from imm32. -/
theorem mOff_long {t : Nat} {off : BitVec 32} (h : fld t 0 12 = 0) :
    mOff (Tail.four t (some off.toNat)) = .ok off := by
  simp [mOff, h]

/-- A form of format M reads back in the format that its offset takes. -/
theorem reads_wM {m f : Nat} {k : Nat → Tail → Dec Instr} {i : Instr} (major : Major m k) {g : Guard}
    {a wd sg sp sc od : Nat} {off : BitVec 32}
    (h : f < 64 ∧ a < 32 ∧ wd < 4 ∧ sg < 2 ∧ sp < 4 ∧ sc < 8 ∧ od < 8 ∧ ∀ o e, o < 4096 →
      mOff (Tail.four (tM g a wd sg sp sc od o) e) = .ok off → k f (Tail.four (tM g a wd sg sp sc od o) e) = .ok i) :
    (wM m f g a wd sg sp sc od off).Reads i := by
  obtain ⟨hf, ha, hwd, hsg, hsp, hsc, hod, h⟩ := h
  have field : ∀ o < 4096, fld (tM g a wd sg sp sc od o) 0 12 = o ∧ tM g a wd sg sp sc od o < 4294967296 :=
    fun o ho => by simp [*]
  unfold wM
  split
  · next short =>
    have hoff := (off.truncate 12).isLt
    exact reads_w4 major ⟨hf, (field _ hoff).2, fits32_none, h _ _ hoff (mOff_short short (field _ hoff).1)⟩
  · have h0 : 0 < 4096 := by decide
    exact reads_w4 major ⟨hf, (field 0 h0).2, fits32_some off, h _ _ h0 (mOff_long (field 0 h0).1)⟩

end Sys2Proof
end

section
/-!
PROOFS. The words of the majors 0x00 to 0x24 read back (R38 to R59): for each major, its rows. The decoder's checks
pass, by an entry's own limits where it has some (R48 to R51), and each field reads back.
-/
namespace Sys2Proof

/-! ### Majors 0x00 to 0x0B: control, integers, predicates, floating point -/

theorem misc_roundTrips (i : Instr) (h : (i = .nop ∨ i = .exit ∨ i = .ret ∨ i = .cbar ∨ i = .tret ∨ i = .halt) ∨
    ∃ o, i = .nopGuarded o ∨ i = .exitGuarded o ∨ i = .retGuarded o ∨ i = .cbarGuarded o ∨ i = .tretGuarded o ∨
    i = .haltGuarded o) : i.RoundTrips := by
  obtain (rfl | rfl | rfl | rfl | rfl | rfl) | ⟨o, rfl | rfl | rfl | rfl | rfl | rfl⟩ := h
  iterate 6 exact fun _ => ⟨_, rfl, reads_wZ .misc (by simp [decMisc])⟩
  all_goals exact fun _ => ⟨_, rfl, reads_wH .misc (by simp [decMisc])⟩

theorem alu_roundTrips (i : Instr) (h : (∃ o, i = .add o ∨ i = .sub o ∨ i = .and o ∨ i = .or o ∨ i = .xor o ∨
    i = .andn o ∨ i = .shl o ∨ i = .shr o ∨ i = .sra o ∨ i = .rot o ∨ i = .min o ∨ i = .max o ∨ i = .minu o ∨
    i = .maxu o) ∨ (∃ o, i = .lea o) ∨ ∃ o, i = .sel o) : i.RoundTrips := by
  obtain ⟨o, rfl | rfl | rfl | rfl | rfl | rfl | rfl | rfl | rfl | rfl | rfl | rfl | rfl | rfl⟩ |
    ⟨o, rfl⟩ | ⟨o, rfl⟩ := h
  all_goals exact fun _ => ⟨_, rfl, reads_w4 .alu (by simp [decAlu, registers_read, codes_read, codes_fit])⟩

theorem mulDiv_roundTrips (i : Instr) (h : ∃ o, i = .mul o ∨ i = .mulh o ∨ i = .mulhu o ∨ i = .div o ∨ i = .divu o ∨
    i = .rem o ∨ i = .remu o) : i.RoundTrips := by
  obtain ⟨o, rfl | rfl | rfl | rfl | rfl | rfl | rfl⟩ := h
  all_goals exact fun _ => ⟨_, rfl, reads_w4 .mulDiv (by simp [decMulDiv, registers_read, codes_read, codes_fit])⟩

theorem unary_roundTrips (i : Instr) (h : (∃ o, i = .clz o ∨ i = .ctz o ∨ i = .popc o) ∨ (∃ o, i = .sext o) ∨
    ∃ o, i = .mov o) : i.RoundTrips := by
  obtain ⟨o, rfl | rfl | rfl⟩ | ⟨o, rfl⟩ | ⟨o, rfl⟩ := h
  all_goals exact fun _ => ⟨_, rfl, reads_w4 .unary (by simp [decUnary, registers_read, codes_read, codes_fit])⟩

/-- Position and length as EXT and INS lay them out in imm16 (R67). -/
theorem span_fields (p : Fin 64) (n : Fin 65) (hn : n.val ≠ 0) : (n.val - 1) * 64 + p.val < 65536 ∧
    fld ((n.val - 1) * 64 + p.val) 12 4 = 0 ∧ fld ((n.val - 1) * 64 + p.val) 0 6 = p.val ∧
    fld ((n.val - 1) * 64 + p.val) 6 6 + 1 = n.val := by
  unfold fld
  omega

theorem bitf_roundTrips (i : Instr) (h : (∃ o, i = .ext o) ∨ ∃ o, i = .ins o) : i.RoundTrips := by
  obtain ⟨o, rfl⟩ | ⟨o, rfl⟩ := h
  all_goals
    intro wf
    simp only [Instr.wf, ne_eq, Bool.and_eq_true, decide_eq_true_eq] at wf
    obtain ⟨hn, hfit⟩ := wf
    obtain ⟨him, h1, h2, h3⟩ := span_fields o.p o.n hn
    exact ⟨_, rfl, reads_w4 .bitf (by simp [decBitf, registers_read, codes_read, codes_fit, him, h1, h2, h3, hfit])⟩

theorem aluI_roundTrips (i : Instr) (h : (∃ o, i = .addi o) ∨ ∃ o, i = .shlImm o ∨ i = .shrImm o ∨ i = .sraImm o ∨
    i = .rotImm o) : i.RoundTrips := by
  obtain ⟨o, rfl⟩ | ⟨o, rfl | rfl | rfl | rfl⟩ := h
  · exact fun _ => ⟨_, rfl, reads_w4 .aluI (by simp [decAluI, registers_read, codes_read, codes_fit])⟩
  all_goals
    intro wf
    have fits : o.n.val < o.w.bits := of_decide_eq_true wf
    exact ⟨_, rfl, reads_w4 .aluI (by simp [decAluI, registers_read, codes_read, codes_fit, fits])⟩

/-- LI's immediate reads back from imm16 where that holds it (R67). -/
theorem li_short {s : Sign} {v : BitVec 32}
    (h : (if s = .sx then fitsS 16 v else decide (v.toNat < 65536)) = true) :
    (if s = .sx then sext32 16 (v.toNat % 65536) else BitVec.ofNat 32 (v.toNat % 65536)) = v := by
  split
  · next hs => exact sext32_mod rfl (by simpa [hs] using h)
  · next hs =>
    rw [if_neg hs, decide_eq_true_eq] at h
    rw [Nat.mod_eq_of_lt h, BitVec.ofNat_toNat, BitVec.setWidth_eq]

theorem imm_roundTrips (i : Instr) (h : (∃ o, i = .li o) ∨ ∃ o, i = .lih o) : i.RoundTrips := by
  obtain ⟨o, rfl⟩ | ⟨o, rfl⟩ := h
  · intro _
    by_cases short : (if o.s = .sx then fitsS 16 o.imm else decide (o.imm.toNat < 65536)) = true
    · have value := li_short short
      exact ⟨_, if_pos short, reads_w4 .imm (by simp [decImm, registers_read, codes_read, codes_fit, value])⟩
    · exact ⟨_, if_neg short, reads_w4 .imm (by simp [decImm, registers_read, codes_read, codes_fit])⟩
  · exact fun _ => ⟨_, rfl, reads_w4 .imm (by simp [decImm, registers_read])⟩

theorem cmp_roundTrips (o : CmpOp) : (Instr.cmp o).RoundTrips := by
  intro wf
  have sign : ¬o.cc = .eq ∧ ¬o.cc = .ne ∨ o.s = .sx := by simpa [Instr.wf] using wf
  exact ⟨_, rfl, reads_w4 .cmp (by simp [decCmp, registers_read, codes_read, codes_fit, need_of, sign])⟩

theorem cmpI_roundTrips (o : CmpiOp) : (Instr.cmpi o).RoundTrips := by
  intro wf
  have sign : ¬o.cc = .eq ∧ ¬o.cc = .ne ∨ o.s = .sx := by simpa [Instr.wf] using wf
  exact ⟨_, rfl, reads_w4 .cmpI (by simp [decCmpI, registers_read, codes_read, codes_fit, need_of, sign])⟩

theorem pred_roundTrips (i : Instr) (h : (∃ o, i = .pand o ∨ i = .por o ∨ i = .pxor o) ∨ ∃ o, i = .pnot o ∨
    i = .pmov o ∨ i = .pany o) : i.RoundTrips := by
  obtain ⟨o, rfl | rfl | rfl⟩ | ⟨o, rfl | rfl | rfl⟩ := h
  all_goals exact fun _ => ⟨_, rfl, reads_w4 .pred (by simp [decPred, registers_read])⟩

theorem fpa_roundTrips (i : Instr) (h : (∃ o, i = .fadd o ∨ i = .fsub o ∨ i = .fmul o ∨ i = .fdiv o) ∨
    (∃ o, i = .fma o) ∨ (∃ o, i = .fsqrt o) ∨ ∃ o, i = .fmin o ∨ i = .fmax o) : i.RoundTrips := by
  obtain ⟨o, rfl | rfl | rfl | rfl⟩ | ⟨o, rfl⟩ | ⟨o, rfl⟩ | ⟨o, rfl | rfl⟩ := h
  all_goals exact fun _ => ⟨_, rfl, reads_w4 .fpa (by simp [decFpa, registers_read, codes_read, codes_fit])⟩

theorem fpb_roundTrips (i : Instr) (h : (∃ o, i = .fcmp o) ∨ (∃ o, i = .fclass o) ∨ ∃ o, i = .fmode o ∨
    i = .fflags o) : i.RoundTrips := by
  obtain ⟨o, rfl⟩ | ⟨o, rfl⟩ | ⟨o, rfl | rfl⟩ := h
  all_goals exact fun _ => ⟨_, rfl, reads_w4 .fpb (by simp [decFpb, registers_read, codes_read, codes_fit])⟩

theorem fcvt_roundTrips (o : FCvtOp) : (Instr.fcvt o).RoundTrips := by
  intro wf
  have float : (!o.dt.isInt || !o.st.isInt) = true := (Bool.not_and _ _).symm.trans wf
  exact ⟨_, rfl, reads_w4 .fpb (by simp [decFpb, registers_read, codes_read, codes_fit, float])⟩

/-! ### Majors 0x10 to 0x1B: memory, time, waits and fences -/

theorem ld_roundTrips (o : LdOp) : (Instr.ld o).RoundTrips := fun _ =>
  ⟨_, rfl, reads_wM .ld (by simp +contextual [decLd, registers_read, codes_read, codes_fit])⟩

theorem st_roundTrips (o : StOp) : (Instr.st o).RoundTrips := fun _ =>
  ⟨_, rfl, reads_wM .st (by simp +contextual [decSt, registers_read, codes_read, codes_fit])⟩

theorem ldaq_roundTrips (o : LdaqOp) : (Instr.ldaq o).RoundTrips := fun _ =>
  ⟨_, rfl, reads_wM .ldaq (by simp +contextual [decLdaq, registers_read, codes_read, codes_fit])⟩

theorem strl_roundTrips (o : StrlOp) : (Instr.strl o).RoundTrips := fun _ =>
  ⟨_, rfl, reads_wM .strl (by simp +contextual [decStrl, registers_read, codes_read, codes_fit])⟩

/-- A vector head's order field reads back: 0, or the major's own code (R283). -/
@[simp] theorem vmOrd_code (own : Nat) (h : own ≠ 0) (ord : Bool) : vmOrd own (if ord then own else 0) = .ok ord := by
  cases ord <;> simp [vmOrd, h]

/-- The elements of strided and indexed accesses have a tag. -/
theorem Fmt.ne_none_of_isIFDE {f : Fmt} (h : f.isIFDE = true) : f ≠ .none := by
  rintro rfl
  cases h

theorem vload_roundTrips (i : Instr) (h : (∃ o, i = .vld o) ∨ (∃ o, i = .vlds o) ∨ ∃ o, i = .vgth o) :
    i.RoundTrips := by
  obtain ⟨o, rfl⟩ | ⟨o, rfl⟩ | ⟨o, rfl⟩ := h <;> intro wf
  · have limits : (o.ef ≠ .none ∧ ordOk o.sp o.ord = true) ∧ (o.ef.hasScales = true ∨ o.b = 0) := by
      simpa [Instr.wf] using wf
    exact ⟨_, rfl, reads_w4 .vload
      (by simp [decVMem, registers_read, codes_read, codes_fit, ite_lt_of, need_of, fmtOf_code, limits])⟩
  · have limits : o.ef.isIFDE = true ∧ ordOk o.sp o.ord = true := by simpa [Instr.wf] using wf
    exact ⟨_, rfl, reads_w4 .vload (by simp [decVMem, registers_read, codes_read, codes_fit, ite_lt_of, fmtOf_code,
      Fmt.ne_none_of_isIFDE, limits])⟩
  · have limits : (o.ef.isIFDE = true ∧ ordOk o.sp o.ord = true) ∧ groupOk (idxRatio o.ef) o.b.val = true := by
      simpa [Instr.wf] using wf
    exact ⟨_, rfl, reads_w4 .vload (by simp [decVMem, registers_read, codes_read, codes_fit, ite_lt_of, fmtOf_code,
      Fmt.ne_none_of_isIFDE, limits])⟩

theorem vstore_roundTrips (i : Instr) (h : (∃ o, i = .vst o) ∨ ∃ o, i = .vsct o) : i.RoundTrips := by
  obtain ⟨o, rfl⟩ | ⟨o, rfl⟩ := h <;> intro wf
  · have limits : (o.ef ≠ .none ∧ ordOk o.sp o.ord = true) ∧ (o.ef.hasScales = true ∨ o.b = 0) := by
      simpa [Instr.wf] using wf
    exact ⟨_, rfl, reads_w4 .vstore
      (by simp [decVMem, registers_read, codes_read, codes_fit, ite_lt_of, need_of, fmtOf_code, limits])⟩
  · have limits : (o.ef.isIFDE = true ∧ ordOk o.sp o.ord = true) ∧ groupOk (idxRatio o.ef) o.b.val = true := by
      simpa [Instr.wf] using wf
    exact ⟨_, rfl, reads_w4 .vstore (by simp [decVMem, registers_read, codes_read, codes_fit, ite_lt_of, fmtOf_code,
      Fmt.ne_none_of_isIFDE, limits])⟩

theorem atom_roundTrips (o : AtomInstr) : (Instr.atom o).RoundTrips := by
  obtain ⟨g, d, a, b, c, op, dw, od, sc, off⟩ := o
  intro wf
  have third : op = .cas ∨ c = 0 := by simpa [Instr.wf] using wf
  cases dw <;>
    exact ⟨_, rfl, reads_w4 .atom (by simp [decAtom, registers_read, codes_read, codes_fit, need_of, third])⟩

theorem atomx_roundTrips (o : AtomxOp) : (Instr.atomx o).RoundTrips := by
  obtain ⟨g, a, b, rel, sc⟩ := o
  intro _
  cases rel <;> exact ⟨_, rfl, reads_w4 .atomx (by simp [decAtomx, registers_read, codes_read, codes_fit])⟩

theorem time_roundTrips (i : Instr) (h : (∃ o, i = .rdt o) ∨ (∃ o, i = .rdid o) ∨ (∃ o, i = .doze o) ∨
    ∃ o, i = .qstat o) : i.RoundTrips := by
  obtain ⟨o, rfl⟩ | ⟨o, rfl⟩ | ⟨o, rfl⟩ | ⟨o, rfl⟩ := h
  all_goals exact fun _ => ⟨_, rfl, reads_wH .time (by simp [decTime, registers_read, codes_read, codes_fit])⟩

/-- The four bounds of WAIT as they stand in imm16 (R86). -/
theorem wait_fields (l s c m : BitVec 4) :
    let n := l.toNat * 2 ^ 12 + s.toNat * 2 ^ 8 + c.toNat * 2 ^ 4 + m.toNat
    n < 65536 ∧ fld n 12 4 = l.toNat ∧ fld n 8 4 = s.toNat ∧ fld n 4 4 = c.toNat ∧ fld n 0 4 = m.toNat := by
  unfold fld
  omega

theorem wait_roundTrips (o : WaitOp) : (Instr.wait o).RoundTrips := fun _ =>
  have ⟨him, h1, h2, h3, h4⟩ := wait_fields o.l o.s o.c o.m
  ⟨_, rfl, reads_w4 .wait (by simp [decWait, -Nat.reducePow, him, h1, h2, h3, h4])⟩

/-- Scope and order as FENCE lays them out in F (R281). -/
@[simp] theorem fence_fields (sc : Scope) (od : FenceOd) : sc.code * 8 + od.code < 64 ∧
    fld (sc.code * 8 + od.code) 0 3 = od.code ∧ fld (sc.code * 8 + od.code) 3 3 = sc.code := by
  have := sc.code_lt
  have := od.code_lt
  unfold fld
  omega

theorem fence_roundTrips (i : Instr) (h : (∃ o, i = .fence o) ∨ ∃ o, i = .fenceGuarded o) : i.RoundTrips := by
  obtain ⟨o, rfl⟩ | ⟨o, rfl⟩ := h
  · exact fun _ => ⟨_, rfl, reads_wZ .fence (by simp [decFence, codes_read])⟩
  · exact fun _ => ⟨_, rfl, reads_wH .fence (by simp [decFence, codes_read])⟩

theorem pref_roundTrips (o : PrefOp) : (Instr.pref o).RoundTrips := by
  obtain ⟨g, grot, a, off⟩ := o
  intro _
  cases grot <;> exact ⟨_, rfl, reads_wM .pref (by simp +contextual [decPref, registers_read])⟩

/-! ### Majors 0x20 to 0x24: transfers -/

theorem br_roundTrips (o : RelOp) : (Instr.br o).RoundTrips := fun _ =>
  ⟨_, rfl, reads_wRel _ (by decide) _ _ .br (by simp +contextual [decBr])⟩

theorem call_roundTrips (o : RelOp) : (Instr.call o).RoundTrips := fun _ =>
  ⟨_, rfl, reads_wRel _ (by decide) _ _ .call (by simp +contextual [decCall])⟩

theorem loop_roundTrips (o : LoopOp) : (Instr.loop o).RoundTrips := fun _ =>
  ⟨_, rfl, reads_wRel _ o.a.isLt _ _ .loop (by simp +contextual [decLoop, registers_read])⟩

theorem jmp_roundTrips (o : JmpOp) : (Instr.jmp o).RoundTrips := fun _ =>
  ⟨_, rfl, reads_w4 .jmp (by simp [decJmp, registers_read])⟩

theorem jr_roundTrips (o : GA) : (Instr.jr o).RoundTrips := fun _ =>
  ⟨_, rfl, reads_wH .jr (by simp [decJr, registers_read])⟩

end Sys2Proof
end

section
/-!
PROOFS. The words of the majors 0x28 to 0x38 read back: leases, barriers, paths, bundles, launches and SYS.
-/
namespace Sys2Proof

/-! ### Majors 0x28 to 0x38: leases, barriers, paths, bundles, launches and SYS -/

theorem lease_roundTrips (i : Instr) (h : (∃ o, i = .lrenew o) ∨ (∃ o, i = .llife o ∨ i = .lheld o) ∨
    (∃ o, i = .ltether o) ∨ (∃ o, i = .linfo o) ∨ ∃ o, i = .lock o) : i.RoundTrips := by
  obtain ⟨o, rfl⟩ | ⟨o, rfl | rfl⟩ | ⟨o, rfl⟩ | ⟨o, rfl⟩ | ⟨o, rfl⟩ := h
  all_goals
    exact fun _ => ⟨_, rfl, reads_w4 .lease (by simp [decLease, zeroWSM, registers_read, codes_read, codes_fit])⟩

theorem barr_roundTrips (i : Instr) (h : (∃ o, i = .binit o) ∨ (∃ o, i = .barv o) ∨ (∃ o, i = .badd o) ∨
    ∃ o, i = .bwait o) : i.RoundTrips := by
  obtain ⟨o, rfl⟩ | ⟨o, rfl⟩ | ⟨o, rfl⟩ | ⟨o, rfl⟩ := h
  all_goals
    exact fun _ => ⟨_, rfl, reads_w4 .barr (by simp [decBarr, zeroWSM, registers_read, codes_read, codes_fit])⟩

theorem path_roundTrips (i : Instr) (h : (∃ o, i = .popen o) ∨ (∃ o, i = .psend o) ∨ (∃ o, i = .gate o) ∨
    ∃ o, i = .alloc o) : i.RoundTrips := by
  obtain ⟨o, rfl⟩ | ⟨o, rfl⟩ | ⟨o, rfl⟩ | ⟨o, rfl⟩ := h
  all_goals exact fun _ => ⟨_, rfl, reads_w4 .path (by simp [decPath, zeroWSM, registers_read, codes_fit])⟩

theorem journal_roundTrips (i : Instr) (h : (∃ o, i = .jrnl o) ∨ ∃ o, i = .jack o) : i.RoundTrips := by
  obtain ⟨o, rfl⟩ | ⟨o, rfl⟩ := h
  all_goals exact fun _ => ⟨_, rfl, reads_w4 .journal (by simp [decJournal, zeroWSM, registers_read])⟩

theorem bund_roundTrips (i : Instr) (h : (∃ o, i = .bopen o ∨ i = .bchk o) ∨ (∃ o, i = .bst o) ∨
    (∃ o, i = .bstVector o) ∨ (∃ o, i = .bseal o ∨ i = .bview o) ∨ ∃ o, i = .bld o) : i.RoundTrips := by
  obtain ⟨o, rfl | rfl⟩ | ⟨o, rfl⟩ | ⟨o, rfl⟩ | ⟨o, rfl | rfl⟩ | ⟨o, rfl⟩ := h
  all_goals exact fun _ => ⟨_, rfl, reads_w4 .bund (by simp [decBund, registers_read, codes_read, codes_fit])⟩

theorem mcs_roundTrips (i : Instr) (h : (∃ o, i = .mcsld o) ∨ (∃ o, i = .mcsst o) ∨ ∃ o, i = .mcsstCommit o) :
    i.RoundTrips := by
  obtain ⟨o, rfl⟩ | ⟨o, rfl⟩ | ⟨o, rfl⟩ := h <;> intro wf
  · exact ⟨_, rfl, reads_w4 .mcs (by simp [decMcs, zeroWSM, registers_read])⟩
  · exact ⟨_, rfl, reads_w4 .mcs (by simp [decMcs, zeroWSM, registers_read])⟩
  · have commits : o.d ≠ 0 := by simpa [Instr.wf] using wf
    exact ⟨_, rfl, reads_w4 .mcs (by simp [decMcs, zeroWSM, registers_read, commits])⟩

theorem tag_roundTrips (i : Instr) (h : (∃ o, i = .tagst o) ∨ ∃ o, i = .tagld o) : i.RoundTrips := by
  obtain ⟨o, rfl⟩ | ⟨o, rfl⟩ := h
  all_goals exact fun _ => ⟨_, rfl, reads_w4 .tag (by simp [decTag, zeroWSM, registers_read])⟩

theorem sched_roundTrips (i : Instr) (h : (∃ o, i = .launch o) ∨ (∃ o, i = .point o) ∨ (∃ o, i = .done o) ∨
    ∃ o, i = .frrd o) : i.RoundTrips := by
  obtain ⟨o, rfl⟩ | ⟨o, rfl⟩ | ⟨o, rfl⟩ | ⟨o, rfl⟩ := h
  all_goals exact fun _ => ⟨_, rfl, reads_w4 .sched (by simp [decSched, zeroWSM, registers_read, codes_fit])⟩

theorem amsg_roundTrips (o : RRRR) : (Instr.amsg o).RoundTrips := by
  intro wf
  have even : o.c.val % 2 = 0 := of_decide_eq_true wf
  exact ⟨_, rfl, reads_w4 .sched (by simp [decSched, zeroWSM, registers_read, even])⟩

@[simp] theorem sysRegOf_pstop : sysRegOf 0x14 = .ok .pstop := (rfl)

@[simp] theorem sysRegOf_pgo : sysRegOf 0x15 = .ok .pgo := (rfl)

theorem sys_roundTrips (i : Instr) (h : (∃ o, i = .srd o) ∨ (∃ o, i = .pstop o ∨ i = .pgo o) ∨ (∃ o, i = .wakeRec o ∨
    i = .wakeFail o ∨ i = .wakeSlot o ∨ i = .wakeStop o) ∨ ∃ o, i = .ctxsv o ∨ i = .ctxld o) : i.RoundTrips := by
  obtain ⟨o, rfl⟩ | ⟨o, rfl | rfl⟩ | ⟨o, rfl | rfl | rfl | rfl⟩ | ⟨o, rfl | rfl⟩ := h
  all_goals
    exact fun _ => ⟨_, rfl, reads_w4 .sys (by simp [decSys, sysImm, registers_read, codes_read, codes_fit])⟩

theorem trap_roundTrips (o : TrapOp) : (Instr.trap o).RoundTrips := by
  intro wf
  have cause : o.n.toNat ≤ 111 := of_decide_eq_true wf
  exact ⟨_, rfl, reads_w4 .sys (by simp [decSys, sysImm, registers_read, cause])⟩

/-- SWR's registers have no row of their own: PSTOP and PGO are not among them (Table 17-12). -/
theorem swr_roundTrips (o : SwrOp) : (Instr.swr o).RoundTrips := by
  intro wf
  have writable : o.reg.swrOk = true := wf
  have own : o.reg ≠ .pstop ∧ o.reg ≠ .pgo := by constructor <;> intro h <;> rw [h] at writable <;> cases writable
  exact ⟨_, rfl, reads_w4 .sys (by simp [decSys, sysImm, registers_read, codes_read, codes_fit, writable, own])⟩

theorem tlbi_roundTrips (o : TlbiOp) : (Instr.tlbi o).RoundTrips := by
  obtain ⟨g, d, a, op, n⟩ := o
  cases op <;> intro wf
  case va => exact ⟨_, rfl, reads_w4 .sys (by simp [decSys, sysImm, registers_read])⟩
  case all =>
    simp only [Instr.wf, Bool.and_eq_true, decide_eq_true_eq] at wf
    obtain ⟨ha, hn⟩ := wf
    obtain rfl : a = 0 := Fin.ext ha
    obtain rfl : n = 0 := BitVec.eq_of_toNat_eq hn
    exact ⟨_, rfl, reads_w4 .sys (by simp [decSys, sysImm, registers_read])⟩
  all_goals
    obtain rfl : a = 0 := Fin.ext (of_decide_eq_true wf)
    exact ⟨_, rfl, reads_w4 .sys (by simp [decSys, sysImm, registers_read])⟩

end Sys2Proof
end

section
/-!
PROOFS. The words of the majors 0x40 to 0x51 read back: vectors, the array and the engines; and with them those of all
heads.
-/
namespace Sys2Proof

/-! ### Majors 0x40 to 0x46: vectors -/

/-- An entry whose limits hold passes its check. -/
theorem ifWf_ok {i : Instr} (h : i.wf = true) : ifWf i = .ok i := by
  rw [ifWf, need_of h]
  rfl

/-- NONE is in no group of formats (R174), so that no form that asks for one takes it. -/
theorem Fmt.none_in_no_group : Fmt.none.isI = false ∧ Fmt.none.isF = false ∧ Fmt.none.isB = false ∧
    Fmt.none.isIFDE = false ∧ widened .none = Option.none ∧ dot4Tag .none = Option.none ∧
    ∀ c : FCond, c.okFor .none = false :=
  ⟨rfl, rfl, rfl, rfl, rfl, rfl, fun c => by cases c <;> rfl⟩

theorem varith_roundTrips (i : Instr) (h : (∃ o, i = .vadd o ∨ i = .vsub o ∨ i = .vmul o ∨ i = .vdiv o) ∨
    (∃ o, i = .vfma o ∨ i = .vfms o) ∨ (∃ o, i = .vmin o ∨ i = .vmax o) ∨ (∃ o, i = .vsqrt o) ∨ ∃ o, i = .vabs o ∨
    i = .vneg o ∨ i = .vrsqrt o ∨ i = .vrcp o ∨ i = .vexp2 o ∨ i = .vlog2 o) : i.RoundTrips := by
  obtain ⟨o, rfl | rfl | rfl | rfl⟩ | ⟨o, rfl | rfl⟩ | ⟨o, rfl | rfl⟩ | ⟨o, rfl⟩ |
    ⟨o, rfl | rfl | rfl | rfl | rfl | rfl⟩ := h
  all_goals
    intro wf
    have tag : o.ef ≠ .none := fun h => by simp [Instr.wf, h, Fmt.none_in_no_group] at wf
    exact ⟨_, rfl, reads_w4 .varith
      (by simp [decVArith, registers_read, codes_read, codes_fit, fmtOf_code, tag, ifWf_ok wf])⟩

theorem vconv_roundTrips (i : Instr) (h : (∃ o, i = .vcvt o) ∨ (∃ o, i = .vqnt o) ∨ ∃ o, i = .vdqnt o) :
    i.RoundTrips := by
  obtain ⟨o, rfl⟩ | ⟨o, rfl⟩ | ⟨o, rfl⟩ := h
  all_goals
    intro wf
    have tag : o.dt ≠ .none := fun h => by simp [Instr.wf, h, Fmt.none_in_no_group] at wf
    have source : o.st ≠ .none := fun h => by simp [Instr.wf, h, Fmt.none_in_no_group] at wf
    exact ⟨_, rfl, reads_w4 .vconv
      (by simp [decVConv, registers_read, codes_read, codes_fit, fmtOf_code, tag, source, ifWf_ok wf])⟩

theorem vwiden_roundTrips (i : Instr) (h : ∃ o, i = .vwmul o ∨ i = .vwadd o ∨ i = .vdot4 o) : i.RoundTrips := by
  obtain ⟨o, rfl | rfl | rfl⟩ := h
  all_goals
    intro wf
    have tag : o.ef ≠ .none := fun h => by simp [Instr.wf, h, Fmt.none_in_no_group] at wf
    exact ⟨_, rfl, reads_w4 .vconv
      (by simp [decVConv, registers_read, codes_read, codes_fit, fmtOf_code, tag, ifWf_ok wf])⟩

theorem vred_roundTrips (i : Instr) (h : (∃ o, i = .vreds o ∨ i = .vscan o) ∨ ∃ o, i = .vredm o) : i.RoundTrips := by
  obtain ⟨o, rfl | rfl⟩ | ⟨o, rfl⟩ := h
  all_goals
    intro wf
    have tag : o.ef ≠ .none := fun h => by simp [Instr.wf, h, Fmt.none_in_no_group] at wf
    exact ⟨_, rfl, reads_w4 .vred
      (by simp [decVRed, registers_read, codes_read, codes_fit, fmtOf_code, tag, ifWf_ok wf])⟩

theorem vcmpSel_roundTrips (i : Instr) (h : (∃ o, i = .vcmp o) ∨ ∃ o, i = .vsel o) : i.RoundTrips := by
  obtain ⟨o, rfl⟩ | ⟨o, rfl⟩ := h
  all_goals
    intro wf
    have tag : o.ef ≠ .none := fun h => by simp [Instr.wf, h, Fmt.none_in_no_group] at wf
    exact ⟨_, rfl, reads_w4 .vcmpSel
      (by simp [decVCmpSel, registers_read, codes_read, codes_fit, fmtOf_code, tag, ifWf_ok wf])⟩

theorem vlogic_roundTrips (i : Instr) (h : (∃ o, i = .vand o ∨ i = .vor o ∨ i = .vxor o ∨ i = .vshl o ∨ i = .vshr o ∨
    i = .vsra o) ∨ ∃ o, i = .vnot o) : i.RoundTrips := by
  obtain ⟨o, rfl | rfl | rfl | rfl | rfl | rfl⟩ | ⟨o, rfl⟩ := h
  all_goals
    intro wf
    have tag : o.ef ≠ .none := fun h => by simp [Instr.wf, h, Fmt.none_in_no_group] at wf
    exact ⟨_, rfl, reads_w4 .vlogic (by simp [decVLogic, registers_read, codes_fit, fmtOf_code, tag, ifWf_ok wf])⟩

theorem vmove_roundTrips (i : Instr) (h : (∃ o, i = .viota o) ∨ (∃ o, i = .vbcast o) ∨ (∃ o, i = .vslide o) ∨
    (∃ o, i = .vperm o) ∨ (∃ o, i = .vzip o ∨ i = .vunzip o) ∨ (∃ o, i = .vmovsGet o) ∨ ∃ o, i = .vmovsPut o) :
    i.RoundTrips := by
  obtain ⟨o, rfl⟩ | ⟨o, rfl⟩ | ⟨o, rfl⟩ | ⟨o, rfl⟩ | ⟨o, rfl | rfl⟩ | ⟨o, rfl⟩ | ⟨o, rfl⟩ := h
  all_goals
    intro wf
    have tag : o.ef ≠ .none := fun h => by simp [Instr.wf, h, Fmt.none_in_no_group] at wf
    exact ⟨_, rfl, reads_w4 .vmove (by simp [decVMove, registers_read, codes_fit, fmtOf_code, tag, ifWf_ok wf])⟩

theorem vtag_roundTrips (o : VtagOp) : (Instr.vtag o).RoundTrips := by
  intro wf
  have limits : o.ef ≠ .none ∧ (o.scl = true ∨ o.b = 0) := by simpa [Instr.wf] using wf
  obtain ⟨tag, scales⟩ := limits
  exact ⟨_, rfl, reads_w4 .vmisc
    (by simp [decVMisc, registers_read, codes_fit, fmtOf_code, need_of, tag, scales, ifWf_ok wf])⟩

theorem vmisc_roundTrips (i : Instr) (h : (∃ o, i = .vclass o) ∨ ∃ o, i = .vrand o) : i.RoundTrips := by
  obtain ⟨o, rfl⟩ | ⟨o, rfl⟩ := h
  all_goals
    intro wf
    have tag : o.ef ≠ .none := fun h => by simp [Instr.wf, h, Fmt.none_in_no_group] at wf
    exact ⟨_, rfl, reads_w4 .vmisc (by simp [decVMisc, registers_read, codes_fit, fmtOf_code, tag, ifWf_ok wf])⟩

/-! ### Majors 0x50 and 0x51: the array and the engines -/

theorem matrix_roundTrips (i : Instr) (h : (∃ o, i = .mlease o) ∨ (∃ o, i = .mlay o) ∨ (∃ o, i = .mzero o ∨
    i = .mma o) ∨ ∃ o, i = .mdrain o) : i.RoundTrips := by
  obtain ⟨o, rfl⟩ | ⟨o, rfl⟩ | ⟨o, rfl | rfl⟩ | ⟨o, rfl⟩ := h
  all_goals exact fun _ => ⟨_, rfl, reads_w4 .matrix (by simp [decMatrix, zeroWSM, registers_read, codes_fit])⟩

theorem mstat_roundTrips (o : MstatOp) : (Instr.mstat o).RoundTrips := by
  obtain ⟨g, d, sel⟩ := o
  intro _
  cases sel <;> exact ⟨_, rfl, reads_w4 .matrix (by simp [decMatrix, zeroWSM, registers_read])⟩

theorem copy_roundTrips (i : Instr) (h : (∃ o, i = .cxferPack o) ∨ (∃ o, i = .cxferFpack o) ∨ (∃ o, i = .cfeed o) ∨
    ∃ o, i = .cpop o ∨ i = .cstat o) : i.RoundTrips := by
  obtain ⟨o, rfl⟩ | ⟨o, rfl⟩ | ⟨o, rfl⟩ | ⟨o, rfl | rfl⟩ := h
  all_goals
    exact fun _ => ⟨_, rfl, reads_w4 .copy
      (by simp [decCopy, zeroWSM, registers_read, codes_fit, Nat.mod_eq_of_lt])⟩

theorem cxfer_roundTrips (o : CxferOp) : (Instr.cxfer o).RoundTrips := by
  intro _
  exact ⟨_, rfl, reads_w4 .copy (by simp [decCopy, registers_read, codes_read, codes_fit, Nat.mod_eq_of_lt])⟩

/-! ### All heads -/

/-- Every head that a thread can issue round-trips, by its major. -/
theorem Instr.roundTrips_of_isHead {i : Instr} (h : i.isHead = true) : i.RoundTrips := by
  cases i with
  | nop | exit | ret | cbar | tret | halt | nopGuarded o | exitGuarded o | retGuarded o | cbarGuarded o
  | tretGuarded o | haltGuarded o =>
    exact misc_roundTrips _ (by simp)
  | add o | sub o | and o | or o | xor o | andn o | shl o | shr o | sra o | rot o | min o | max o | minu o | maxu o
  | lea o | sel o =>
    exact alu_roundTrips _ (by simp)
  | mul o | mulh o | mulhu o | div o | divu o | rem o | remu o => exact mulDiv_roundTrips _ (by simp)
  | clz o | ctz o | popc o | sext o | mov o => exact unary_roundTrips _ (by simp)
  | ext o | ins o => exact bitf_roundTrips _ (by simp)
  | addi o | shlImm o | shrImm o | sraImm o | rotImm o => exact aluI_roundTrips _ (by simp)
  | li o | lih o => exact imm_roundTrips _ (by simp)
  | cmp o => exact cmp_roundTrips o
  | cmpi o => exact cmpI_roundTrips o
  | pand o | por o | pxor o | pnot o | pmov o | pany o => exact pred_roundTrips _ (by simp)
  | fadd o | fsub o | fmul o | fdiv o | fma o | fsqrt o | fmin o | fmax o => exact fpa_roundTrips _ (by simp)
  | fcmp o | fclass o | fmode o | fflags o => exact fpb_roundTrips _ (by simp)
  | fcvt o => exact fcvt_roundTrips o
  | ld o => exact ld_roundTrips o
  | st o => exact st_roundTrips o
  | ldaq o => exact ldaq_roundTrips o
  | strl o => exact strl_roundTrips o
  | vld o | vlds o | vgth o => exact vload_roundTrips _ (by simp)
  | vst o | vsct o => exact vstore_roundTrips _ (by simp)
  | atom o => exact atom_roundTrips o
  | atomx o => exact atomx_roundTrips o
  | rdt o | rdid o | doze o | qstat o => exact time_roundTrips _ (by simp)
  | wait o => exact wait_roundTrips o
  | fence o | fenceGuarded o => exact fence_roundTrips _ (by simp)
  | pref o => exact pref_roundTrips o
  | br o => exact br_roundTrips o
  | call o => exact call_roundTrips o
  | loop o => exact loop_roundTrips o
  | jmp o => exact jmp_roundTrips o
  | jr o => exact jr_roundTrips o
  | lrenew o | llife o | lheld o | ltether o | linfo o | lock o => exact lease_roundTrips _ (by simp)
  | binit o | barv o | badd o | bwait o => exact barr_roundTrips _ (by simp)
  | popen o | psend o | gate o | alloc o => exact path_roundTrips _ (by simp)
  | jrnl o | jack o => exact journal_roundTrips _ (by simp)
  | bopen o | bchk o | bst o | bstVector o | bseal o | bview o | bld o => exact bund_roundTrips _ (by simp)
  | mcsld o | mcsst o | mcsstCommit o => exact mcs_roundTrips _ (by simp)
  | tagst o | tagld o => exact tag_roundTrips _ (by simp)
  | launch o | point o | done o | frrd o => exact sched_roundTrips _ (by simp)
  | amsg o => exact amsg_roundTrips o
  | srd o | pstop o | pgo o | wakeRec o | wakeFail o | wakeSlot o | wakeStop o | ctxsv o | ctxld o =>
    exact sys_roundTrips _ (by simp)
  | trap o => exact trap_roundTrips o
  | swr o => exact swr_roundTrips o
  | tlbi o => exact tlbi_roundTrips o
  | vadd o | vsub o | vmul o | vdiv o | vfma o | vfms o | vmin o | vmax o | vsqrt o | vabs o | vneg o | vrsqrt o
  | vrcp o | vexp2 o | vlog2 o =>
    exact varith_roundTrips _ (by simp)
  | vcvt o | vqnt o | vdqnt o => exact vconv_roundTrips _ (by simp)
  | vwmul o | vwadd o | vdot4 o => exact vwiden_roundTrips _ (by simp)
  | vreds o | vscan o | vredm o => exact vred_roundTrips _ (by simp)
  | vcmp o | vsel o => exact vcmpSel_roundTrips _ (by simp)
  | vand o | vor o | vxor o | vshl o | vshr o | vsra o | vnot o => exact vlogic_roundTrips _ (by simp)
  | viota o | vbcast o | vslide o | vperm o | vzip o | vunzip o | vmovsGet o | vmovsPut o =>
    exact vmove_roundTrips _ (by simp)
  | vtag o => exact vtag_roundTrips o
  | vclass o | vrand o => exact vmisc_roundTrips _ (by simp)
  | mlease o | mlay o | mzero o | mma o | mdrain o => exact matrix_roundTrips _ (by simp)
  | mstat o => exact mstat_roundTrips o
  | cxferPack o | cxferFpack o | cfeed o | cpop o | cstat o => exact copy_roundTrips _ (by simp)
  | cxfer o => exact cxfer_roundTrips o
  | _ => cases h

/-- Settles O51: each head's words read back, by its major's decoder. -/
theorem encodingsDecode : Obligations.EncodingsDecode := by
  unfold Obligations.EncodingsDecode
  intro i wf head
  obtain ⟨w, hw, reads⟩ := Instr.roundTrips_of_isHead head wf
  exact ⟨w, hw, reads.head_lt, reads.pair, reads.len, reads.tail_lt, reads.decodes⟩

end Sys2Proof
end
